-- ==== Sys2Proof/Word.lean ====
section
/-! DEFINITION. The word types of the FN4 and their plainest arithmetic: 64-bit registers, 2,048-bit vectors,
640-bit quires, 256-bit bundles, the register numbers (Table 3-16), and the lane widths of R55. -/

namespace Sys2Proof

abbrev Byte := BitVec 8
abbrev Word := BitVec 64
abbrev Vec := BitVec 2048
abbrev MaskWord := BitVec 64
abbrev QuireBits := BitVec 640

/-- s0–s63 (Table 3-16). -/
abbrev SReg := BitVec 6
/-- s0–s31: a scalar register named by a 5-bit field of a vector syllable (R55). -/
abbrev SReg5 := BitVec 5
/-- p0–p63. -/
abbrev PReg := BitVec 6
/-- v0–v31. -/
abbrev VReg := BitVec 5
/-- m0–m15. -/
abbrev MReg := BitVec 4
/-- q0–q15. -/
abbrev QReg := BitVec 4
/-- h0–h15: the queues of a context. -/
abbrev HReg := BitVec 4
/-- k0–k7. -/
abbrev KReg := BitVec 3
/-- A transfer or scan channel, 0 to 3. -/
abbrev Chan := BitVec 2
/-- A multicast window, 0 to 7. -/
abbrev Win := BitVec 3

/-- A tile id, y·32 + x, from 0 to 1,023 (R12). -/
abbrev TileId := BitVec 10
/-- A context slot, ctx0 to ctx3 (R19). -/
abbrev SlotNo := BitVec 2

/-- The lane widths of R55. -/
inductive LaneW where
  | w32 | w16 | w8
  deriving DecidableEq, Repr

/-- Bits of a lane. -/
def LaneW.bits : LaneW → Nat
  | .w32 => 32
  | .w16 => 16
  | .w8 => 8

/-- Lanes of a 2,048-bit vector: 64, 128 or 256. -/
def LaneW.lanes : LaneW → Nat
  | .w32 => 64
  | .w16 => 128
  | .w8 => 256

/-- Bytes of a lane. -/
def LaneW.bytes : LaneW → Nat
  | .w32 => 4
  | .w16 => 2
  | .w8 => 1

/-- log2 of the number of lanes. -/
def LaneW.logLanes : LaneW → Nat
  | .w32 => 6
  | .w16 => 7
  | .w8 => 8

/-- Bits [lo + n − 1 : lo] of a natural number. -/
def natBits (x lo n : Nat) : Nat := (x >>> lo) % 2 ^ n

end Sys2Proof
end

