-- ==== Sys2Proof/Syntax.lean ====
section
/-! DEFINITION. The abstract syntax of the FN4: one constructor of `Instr` for each row of the opcode table.
Rows 0 to 81 and the last two are events of the machine (95_what_each_step_holds.md); the other rows are the
forms of the instruction set (R71). An operand field holds what the encoding holds; a guard, LIMM and the slot belong
to the bundle (R50, R51). The operands of an event are what the spec leaves to the hardware or to the outside world:
which object the event acts on, and a value that comes from outside the package. -/

namespace Sys2Proof

/-- The scalar type code of Table 18-2. -/
inductive TypeCode where
  | x64 | i32 | n32 | i16 | n16 | i8 | n8
  deriving DecidableEq, Repr

/-- The conditions of CMP and CMPI (Table 18-5). -/
inductive CmpCond where
  | eq | ne | lt | ge | ltn | gen | tst
  deriving DecidableEq, Repr

/-- The conditions of SEL (Table 19-9). -/
inductive SelCond where
  | z | nz | neg | nneg | pos | npos | odd
  deriving DecidableEq, Repr

/-- The operations of PLOG (Table 19-4). -/
inductive PlogOp where
  | and | or | xor | andn | orn | nand | nor | xnor
  deriving DecidableEq, Repr

/-- The relations of VCMP (Table 20-3). -/
inductive CmpRel where
  | eq | ne | lt | le | gt | ge | un
  deriving DecidableEq, Repr

/-- The kinds of a VPERM pattern (Table 20-5). -/
inductive PermKind where
  | bcast | rev | ziplo | ziphi | even | odd | shift | swap
  deriving DecidableEq, Repr

/-- The scopes of Table 9-1. -/
inductive Scope where
  | tile | region | stack | pkg | group | pod | sys
  deriving DecidableEq, Repr

/-- The ordering nibble of R193. -/
inductive Ord where
  | relaxed
  | rel (sc : Scope)
  | acq (sc : Scope)
  deriving DecidableEq, Repr

/-- The ordering flags of MCALL (R230) and GRUN (R249): none, ACQ or REL at a scope, or ORD. -/
inductive CmdOrd where
  | none
  | acq (sc : Scope)
  | rel (sc : Scope)
  | ord
  deriving DecidableEq, Repr

/-- The three kinds of FENCE (R198). -/
inductive FenceKind where
  | rel | acq | full
  deriving DecidableEq, Repr

/-- The number formats of Table 3-12. `tap .w32 3` is not a format (R67). -/
inductive Fmt where
  | int (signed : Bool) (w : LaneW)
  | f32 | bf16 | e4m3 | e5m2
  | tap (w : LaneW) (es : BitVec 2)
  deriving DecidableEq, Repr

/-- The special registers of Table 3-17. -/
inductive SpecReg where
  | gtc | sfc | bcnt | ctx | tile | asid | tdm | rgrp | lreq | xreq | lstall
  | spmerr | fstat | qstat | qcfg | keys | spmode
  | tvec | tcause | epc | tval
  | emtr0 | emtr1 | emtr2 | emtr3 | emtr4 | ebud
  deriving DecidableEq, Repr

/-- An immediate of a code point marked †: the n-bit field of the syllable, or LIMM when LSEL names it (R45). -/
inductive Lit (n : Nat) where
  | short (v : BitVec n)
  | long (v : BitVec 24)
  deriving DecidableEq, Repr

/-- The data of a vector store (Table 3-8): a vector register or a queue head. -/
inductive VSrc where
  | v (r : VReg)
  | h (q : HReg)
  deriving DecidableEq, Repr

/-- The register of HPOP or HPUSH: scalar with F = 1, vector with F = 0. -/
inductive SvReg where
  | s (r : SReg)
  | v (r : VReg)
  deriving DecidableEq, Repr

/-- The threshold of CWAIT (Table 18-6). -/
inductive WaitThr where
  | reg (r : SReg5)
  | imm (n : BitVec 5)
  deriving DecidableEq, Repr

/-- The source of MPAR (R223). -/
inductive MparSrc where
  | reg (a : SReg)
  | imm (v : Lit 13)
  deriving DecidableEq, Repr

/-- The source of the word that HCFG loads (Table 18-8). -/
inductive HcfgSrc where
  | reg (a : SReg)
  | mem (a : SReg) (off : Lit 11)
  deriving DecidableEq, Repr

/-- The part of the signature that RSIG reads (R282). -/
inductive RsigSel where
  | lo | hi | cnt
  deriving DecidableEq, Repr

/-- The formats of SCANA (Table 19-8). -/
inductive ScanaFmt where
  | f32 | t32es0 | t32es1 | t32es2
  deriving DecidableEq, Repr

/-- The two banks of a context slot (R19). -/
inductive Bank where
  | primary | second
  deriving DecidableEq, Repr

/-- Why the scheduler pre-empts a record (R34): these are the reasons that differ for a DET record (R296). -/
inductive PreemptCause where
  | priority | thermal | remap
  deriving DecidableEq, Repr

/-- How RECORD_ABORT names its target (R298). -/
inductive AbortTarget where
  | handle (h : Word)
  | queueIndex (q : BitVec 3) (j : Nat)
  | asid (a : BitVec 12)
  /-- A record with a part in this package, as another package that holds a part passes the command on: by NODE0 and its
  number there. -/
  | part (node0 : BitVec 21) (rid : Nat)
  /-- A record that a package has forwarded from one of its launch queues, by its number there. -/
  | forwarded (node : BitVec 21) (q : BitVec 3) (j : Nat)
  /-- A record by its handle, which names this package's pool, as another package passes the command on. -/
  | passedHandle (h : Word)
  /-- NODE0 has withdrawn a record (R295): its part or request here is withdrawn too. -/
  | withdrawn (node0 : BitVec 21) (rid : Nat)
  deriving DecidableEq, Repr

/-- Where a record's regions are placed in this package: for each region instance the north-west tile, and for each
tile the slots of its contexts (R27). A replica may hold another slot on its tile than the others (R271). -/
structure Placement where
  corners : List (Nat × Nat)
  slots   : List (Nat × List SlotNo)
  deriving DecidableEq, Repr

/-- The copies of a region in a placement, in its order. -/
def Placement.copiesOf (pl : Placement) (i : Nat) : List Nat := (pl.corners.filter (fun c => c.1 == i)).map Prod.snd

/-- The slots of the contexts on a tile, in the order of their indices. -/
def Placement.slotsOf (pl : Placement) (t : Nat) : List SlotNo :=
  match pl.slots.find? (fun x => x.1 == t) with
  | some x => x.2
  | none => []

/-- The six syllables of a bundle in slot order (R50). -/
inductive Pos where
  | sa | va | sb | vb | ma | xa
  deriving DecidableEq, Repr

/-- The slot number that TVAL carries: SA 0 to XA 5 (R63). -/
def Pos.toNat : Pos → Nat
  | .sa => 0
  | .va => 1
  | .sb => 2
  | .vb => 3
  | .ma => 4
  | .xa => 5

/-- The four opcode spaces (R52). -/
inductive OpSpace where
  | scalar | vector | memory | extended
  deriving DecidableEq, Repr

/-- The opcode space in which a slot decodes (R52). -/
def Pos.space : Pos → OpSpace
  | .sa | .sb => .scalar
  | .va | .vb => .vector
  | .ma => .memory
  | .xa => .extended

/-- A start pulse: the tile at which it arrives, its origin tile, and the cycle in which it left there (R297). -/
structure PulseAt where
  tile   : TileId
  origin : TileId
  left   : Nat
  deriving DecidableEq, Repr

/-- What Temper finds: the live dies and the link ports that came up (R317); and the packages of the installation (R16). -/
structure LiveParts where
  dies  : BitVec 17
  links : BitVec 48
  nodes : List (BitVec 21) := []
  deriving DecidableEq, Repr

/-- The operation of a carry (R264): one that some tile has joined, or the number of one on a state channel. -/
inductive CarryFor where
  | op (oid : Nat)
  | channel (ch : Chan) (k : Nat)
  deriving DecidableEq, Repr

/-- Where a forwarded record comes from (R289): the package, the launch queue and the record's number in it, and the landing
tag of its LAUNCH there; 0 for a record of a host. -/
structure Origin where
  node  : BitVec 21
  queue : BitVec 3
  index : Nat
  tag   : Nat
  deriving DecidableEq, Repr

/-- An offset in a BAR (Table 13-4). -/
structure BarOffset where
  bar : BitVec 3
  off : BitVec 20
  deriving DecidableEq, Repr

/-- One Onlen instruction, or one event of the machine. -/
inductive Instr where
  -- events of bundles and contexts
  | bundlePresentation (t : TileId)
  | issueSelect (t : TileId)
  | lateValueArrival (fid : Nat)
  | blockConditionClears (t : TileId) (k : SlotNo) (b : Bank)
  | stampReached (t : TileId)
  | sleepExpiry (t : TileId) (k : SlotNo) (b : Bank)
  | startPulse (rid : Nat) (t : PulseAt)
  | barrierRelease (bid : Nat)
  | walkerAnswer (id : Nat)
  | faultService (id : Nat) (frame : Nat)
  | faultAnswer (id : Nat)
  | bankReturn (t : TileId) (k : SlotNo)
  | remoteRefusal (fid : Nat)
  | shootdownAck (sid : Nat) (agent : Nat)
  | shootdownComplete (sid : Nat)
  | migrationScan
  -- events of memory
  | homePortAccess (fid : Nat) (unit : Nat) (ext : BitVec 640)
  | counterWatchAnswer (wid : Nat) (ext : Word)
  | incomingNWrite (fid : Nat) (unit : Nat)
  | queueElementDelivery (fid : Nat)
  | multicastLanding (mid : Nat)
  -- events of the engines
  | transferStart (t : TileId) (ch : Chan)
  | transferChunk (t : TileId) (ch : Chan) (len : Nat) (ext : List Byte)
  | channelFaultAnswer (t : TileId) (ch : Chan)
  | promiseExpiry (cid : Nat)
  | transferComplete (cid : Nat)
  | mxuDenseStep (t : TileId)
  | mxuSparseStep (t : TileId)
  | mxuWriteOut (t : TileId)
  | mxuClear (t : TileId)
  | mxuOperationComplete (t : TileId)
  | mxuRoutineRunaway (t : TileId)
  | mxuAsidClear (t : TileId)
  | geuLoad (t : TileId)
  | geuRun (t : TileId)
  | geuRowDeliver (t : TileId)
  | geuComplete (t : TileId)
  | scanOperationStart (oid : Nat)
  | scanDelivery (oid : Nat) (t : TileId)
  | carryArrival (op : CarryFor) (carry : List Word)
  | tongsDelivery (id : Nat)
  | voteStart (gid : Nat)
  | voteResult (gid : Nat)
  | dieLoss (d : BitVec 5)
  -- events of the scheduler
  | drainComplete (t : TileId) (k : SlotNo)
  | completionAdd (rid : Nat)
  | preemption (rid : Nat) (why : PreemptCause)
  | restore (rid : Nat) (pl : Placement)
  | launchQueueProdWrite (q : BitVec 3) (v : Word) (records : List (List Word))
  | launchQueueErrClear (q : BitVec 3) (v : Word)
  | recordAcceptance (q : BitVec 3)
  | forwardedRecord (words : List Word) (src : Origin)
  | recordAdmission (rid : Nat) (pl : Placement) (ext : Vector Word 4)
  | reserveRequest (rid : Nat) (words : List Word) (pl : Placement)
  | dispatch (rid : Nat)
  -- commands of the host to the memory-management processor (Table 8-7)
  | asidCreate (seq : BitVec 16) (nomig : Bool) (fntiles : BitVec 32)
  | asidRetire (seq : BitVec 16) (asid : BitVec 12)
  | asidRetireComplete (asid : BitVec 12)
  | tensorDefine (seq : BitVec 16) (asid : BitVec 12) (id : BitVec 20) (desc : Vector Word 8) (place stack : BitVec 2)
      (perm : BitVec 4) (base : Option (BitVec 20))
  | tensorFree (seq : BitVec 16) (asid : BitVec 12) (id : BitVec 20)
  | cmap (seq : BitVec 16) (asid : BitVec 12) (addr len : Word)
  | hwinAdd (seq : BitVec 16) (asid : BitVec 12) (hva : Word) (pages : BitVec 32) (perm : BitVec 4)
  | hwinRemove (seq : BitVec 16) (asid : BitVec 12) (hva : Word)
  | pinAnswer (seq : BitVec 16) (req : Nat) (bus : Option Word)
  | recordAbort (seq : BitVec 16) (tgt : AbortTarget) (post : Bool)
  | status (seq : BitVec 16)
  | logRead (seq : BitVec 16) (offset : Nat)
  -- events of the platform
  | warmReset
  | warmResetComplete
  | coldReset (temperCode : BitVec 8) (node : BitVec 21) (live : LiveParts)
  | evqConsWrite (v : Word)
  | evqSizeWrite (v : Word)
  | evqStatWrite (v : Word)
  | ebudSetWrite (v : Word)
  | registerWrite (off : BarOffset) (v : Word)
  | correctedErrorReport (count : Word)
  | meterAdvance (delta : Vector Word 5)
  | powerWindowEnd
  | thermalEmergency (hottest outlet : BitVec 8)
  | thermalEmergencyEnd (hottest outlet : BitVec 8)
  | thermalShutdown (hottest outlet : BitVec 8)
  | linkLoss (link : BitVec 6)
  -- scalar instructions
  | nop
  | add (x : TypeCode) (d a b : SReg)
  | sub (x : TypeCode) (d a b : SReg)
  | and (x : TypeCode) (d a b : SReg)
  | andn (x : TypeCode) (d a b : SReg)
  | or (x : TypeCode) (d a b : SReg)
  | xor (x : TypeCode) (d a b : SReg)
  | shl (x : TypeCode) (d a b : SReg)
  | shr (x : TypeCode) (d a b : SReg)
  | sra (x : TypeCode) (d a b : SReg)
  | rol (x : TypeCode) (d a b : SReg)
  | mul (x : TypeCode) (d a b : SReg)
  | mulh (x : TypeCode) (d a b : SReg)
  | mulhn (x : TypeCode) (d a b : SReg)
  | div (x : TypeCode) (d a b : SReg)
  | divn (x : TypeCode) (d a b : SReg)
  | rem (x : TypeCode) (d a b : SReg)
  | remn (x : TypeCode) (d a b : SReg)
  | max (x : TypeCode) (d a b : SReg)
  | maxn (x : TypeCode) (d a b : SReg)
  | min (x : TypeCode) (d a b : SReg)
  | minn (x : TypeCode) (d a b : SReg)
  | clz (x : TypeCode) (d a : SReg)
  | ctz (x : TypeCode) (d a : SReg)
  | popc (x : TypeCode) (d a : SReg)
  | mov (x : TypeCode) (d a : SReg)
  | sel (c : SelCond) (d a b : SReg)
  | cmp (c : CmpCond) (d : PReg) (a b : SReg)
  | plog (op : PlogOp) (d a b : PReg)
  | addi (d a : SReg) (imm : Lit 9)
  | andi (d a : SReg) (imm : Lit 9)
  | ori (d a : SReg) (imm : Lit 9)
  | xori (d a : SReg) (imm : Lit 9)
  | cmpi (c : CmpCond) (d : PReg) (a : SReg) (imm : Lit 6)
  | movi (d : SReg) (imm : Lit 9)
  | movhi (d a : SReg) (imm : Lit 9)
  | br (disp : Lit 9)
  | brl (d : SReg) (disp : Lit 9)
  | bri (d a : SReg)
  | loop (d : SReg) (off : BitVec 9)
  | loopmStart (d : SReg) (b : PReg) (a : SReg)
  | loopmEnd (d : SReg) (b : PReg)
  | mfsr (d : SReg) (r : SpecReg)
  | mtsr (r : SpecReg) (a : SReg)
  | trap (imm : BitVec 9)
  | eret
  | exit
  -- vector instructions
  | vand (d a b : VReg) (m : MReg)
  | vor (d a b : VReg) (m : MReg)
  | vxor (d a b : VReg) (m : MReg)
  | vsel (d a b : VReg) (m : MReg)
  | vcnt (w : LaneW) (d a : VReg) (m : MReg)
  | vmovs (w : LaneW) (d : VReg) (a : SReg5) (m : MReg)
  | vrand (d a : VReg) (m : MReg)
  | vrandEnt (d : VReg) (m : MReg)
  | vshl (w : LaneW) (d a b : VReg) (m : MReg)
  | vshr (w : LaneW) (d a b : VReg) (m : MReg)
  | vsra (w : LaneW) (d a b : VReg) (m : MReg)
  | vshlImm (w : LaneW) (d a : VReg) (c : BitVec 5) (m : MReg)
  | vshrImm (w : LaneW) (d a : VReg) (c : BitVec 5) (m : MReg)
  | vsraImm (w : LaneW) (d a : VReg) (c : BitVec 5) (m : MReg)
  | vperm (w : LaneW) (d a b : VReg) (m : MReg)
  | vpermPattern (w : LaneW) (d a b : VReg) (m : MReg) (kind : PermKind) (param : BitVec 8)
  | vext (w : LaneW) (d a : VReg) (b : SReg5) (m : MReg)
  | vcompr (d a : VReg) (m : MReg)
  | vexpd (d a : VReg) (m : MReg)
  | mlog (tt : BitVec 4) (d a b : MReg)
  | qclr (d : QReg)
  | qneg (d a : QReg)
  | qtest (d : SReg5) (a : QReg)
  | qacc (d a : QReg)
  | vadd (f : Fmt) (d a b : VReg) (m : MReg)
  | vsub (f : Fmt) (d a b : VReg) (m : MReg)
  | vmul (f : Fmt) (d a b : VReg) (m : MReg)
  | vfma (f : Fmt) (d a b : VReg) (m : MReg)
  | vfms (f : Fmt) (d a b : VReg) (m : MReg)
  | vmax (f : Fmt) (d a b : VReg) (m : MReg)
  | vmin (f : Fmt) (d a b : VReg) (m : MReg)
  | vabs (f : Fmt) (d a : VReg) (m : MReg)
  | vneg (f : Fmt) (d a : VReg) (m : MReg)
  | vcmp (any : Bool) (rel : CmpRel) (f : Fmt) (d : MReg) (a b : VReg)
  | vscan (f : Fmt) (d a : VReg) (m : MReg)
  | vredi (f : Fmt) (d a : VReg) (m : MReg)
  | vcvt (sat : Bool) (dst src : Fmt) (d a : VReg) (m : MReg)
  | vcvts (sat : Bool) (dst : Fmt) (d a b : VReg) (m : MReg)
  | qadd (f : Fmt) (d : QReg) (a : VReg) (m : MReg)
  | qdot (f : Fmt) (d : QReg) (a b : VReg) (m : MReg)
  | qrnd (sat : Bool) (f : Fmt) (d : VReg) (a : QReg) (b : VReg) (m : MReg)
  | vrcp (f : Fmt) (d a : VReg) (m : MReg)
  | vrsq (f : Fmt) (d a : VReg) (m : MReg)
  | vsqrt (f : Fmt) (d a : VReg) (m : MReg)
  | vexp2 (f : Fmt) (d a : VReg) (m : MReg)
  | vlog2 (f : Fmt) (d a : VReg) (m : MReg)
  | vtanh (f : Fmt) (d a : VReg) (m : MReg)
  | vsigm (f : Fmt) (d a : VReg) (m : MReg)
  -- memory instructions
  | lds (x : TypeCode) (d a : SReg) (off : Lit 7)
  | sts (x : TypeCode) (d a : SReg) (off : Lit 7)
  | vlds (d : VReg) (a : SReg) (off : Lit 10)
  | vldsm (d : VReg) (a : SReg) (m : MReg) (off : Lit 6)
  | vldsx (x : TypeCode) (to16 : Bool) (d : VReg) (a : SReg) (off : Lit 6)
  | vgts (w : LaneW) (d : VReg) (a : SReg) (i : BitVec 4) (m : MReg)
  | vscs (w : LaneW) (src : VSrc) (a : SReg) (i : BitVec 4) (m : MReg)
  | vsts (src : VSrc) (a : SReg) (off : Lit 10)
  | qsave (d : QReg) (a : SReg) (off : Lit 10)
  | qrest (d : QReg) (a : SReg) (off : Lit 10)
  | stmc (x : TypeCode) (w : Win) (d a : SReg) (off : Lit 4)
  | vstmc (w : Win) (src : VSrc) (a : SReg) (off : Lit 7)
  | putn (x : TypeCode) (post : Bool) (d a : SReg) (off : BitVec 6)
  | vputn (post : Bool) (src : VSrc) (a : SReg) (off : BitVec 6)
  | getn (x : TypeCode) (q : HReg) (a : SReg) (off : BitVec 7)
  | warm (n : BitVec 3) (lo hi : SReg) (filter : BitVec 4)
  | warmOff (n : BitVec 3)
  | wtok (d : SReg)
  | ldd (q : HReg) (a c : SReg)
  | std (d a c : SReg)
  | vldd (q : HReg) (a c : SReg)
  | vstd (src : VSrc) (a c : SReg)
  | aadd (d a c : SReg) (o : Ord)
  | acas (d a c : SReg) (o : Ord)
  | amaxi (d a c : SReg) (o : Ord)
  | amini (d a c : SReg) (o : Ord)
  | axch (d a c : SReg) (o : Ord)
  | axor (d a c : SReg) (o : Ord)
  | qred (d : QReg) (a c : SReg) (o : Ord)
  | cadd (d a c : SReg) (o : Ord)
  | cwait (thr : WaitThr) (a c : SReg) (sc : Scope)
  | cread (d a c : SReg) (o : Ord)
  | fence (k : FenceKind) (sc : Scope)
  | ldc (x : TypeCode) (q : HReg) (a : SReg) (off : BitVec 7)
  | stc (x : TypeCode) (d a : SReg) (off : BitVec 7)
  | vldc (q : HReg) (a : SReg) (off : BitVec 10)
  | vstc (src : VSrc) (a : SReg) (off : BitVec 10)
  | ldh (x : TypeCode) (q : HReg) (a : SReg) (off : BitVec 7)
  | sth (x : TypeCode) (d a : SReg) (off : BitVec 7)
  | vldh (q : HReg) (a : SReg) (off : BitVec 10)
  | vsth (src : VSrc) (a : SReg) (off : BitVec 10)
  -- extended instructions
  | mcall (routine : BitVec 10) (o : CmdOrd)
  | mclaim
  | mfree
  | mpar (k : KReg) (src : MparSrc)
  | mpld (routine : BitVec 10) (a : SReg)
  | gload (a : SReg)
  | grun (sat : Bool) (f : Fmt) (a c : SReg) (o : CmdOrd)
  | xcpy (ch : Chan) (a : SReg)
  | xcpyt (ch : Chan) (a : SReg)
  | xprom (d : SReg) (ch : Chan)
  | xwmk (d : SReg) (ch : Chan)
  | sleept (a : SReg)
  | hcfg (tgt : BitVec 5) (src : HcfgSrc)
  | hpush (q : HReg) (src : SvReg)
  | hpop (q : HReg) (dst : SvReg)
  | scan (f : Fmt) (a : VReg) (q : HReg) (ch : Chan) (carry : Bool) (m : MReg) (acq rel : Bool)
  | scana (f : ScanaFmt) (a b : VReg) (q : HReg) (ch : Chan) (carry : Bool) (m : MReg)
  | sbar (level : BitVec 3)
  | rsig (sel : RsigSel) (d : SReg)
  | rvote (d : SReg)
  | rinj (a b : SReg)
  | launch (d a : SReg) (q : BitVec 2)
  | cancel (d a : SReg)
  | yield
  | sys (imm : BitVec 16)
  -- events of the links and the management processor
  | stopGo (link : BitVec 6) (vc : BitVec 3) (stop : Bool)
  | mmpCoreReset (core : BitVec 3)
  deriving DecidableEq, Repr

end Sys2Proof
end

