-- ==== Sys2Proof/WellFormed.lean ====
section
/-! DEFINITION. The conditions that an encoding puts on the operands of one instruction, each of which the reference
entry words as ILLEGAL_OP (R452, R57): type codes, formats, register numbers and limits. What the state decides (the
LEVEL of SBAR, a loaded routine of MCALL) is checked where the instruction is presented. -/

namespace Sys2Proof

/-- Codes 0, 1, 3 and 5 of Table 18-2. -/
def TypeCode.signedOk : TypeCode → Bool
  | .x64 | .i32 | .i16 | .i8 => true
  | .n32 | .n16 | .n8 => false

/-- Codes 0, 2, 4 and 6 of Table 18-2. -/
def TypeCode.unsignedOk : TypeCode → Bool
  | .x64 | .n32 | .n16 | .n8 => true
  | .i32 | .i16 | .i8 => false

/-- The 21 legal formats (R67). -/
def Fmt.legal : Fmt → Bool
  | .tap .w32 es => es != 3
  | .tap .w16 _ | .tap .w8 _ | .int _ _ | .f32 | .bf16 | .e4m3 | .e5m2 => true

/-- The set Float of R67. -/
def Fmt.isFloat : Fmt → Bool
  | .tap w es => Fmt.legal (.tap w es)
  | .f32 | .bf16 | .e4m3 | .e5m2 => true
  | .int _ _ => false

/-- The set Signed of R67. -/
def Fmt.isSigned : Fmt → Bool
  | .int sg _ => sg
  | .tap w es => Fmt.legal (.tap w es)
  | .f32 | .bf16 | .e4m3 | .e5m2 => true

/-- The set Product of R67. -/
def Fmt.isProduct : Fmt → Bool
  | .tap w es => Fmt.legal (.tap w es)
  | .bf16 | .e4m3 | .e5m2 => true
  | .f32 | .int _ _ => false

/-- The set Narrow of R67. -/
def Fmt.isNarrow : Fmt → Bool
  | .bf16 | .e4m3 | .e5m2 => true
  | .tap .w16 _ | .tap .w8 _ => true
  | .tap .w32 _ | .f32 | .int _ _ => false

/-- The set Transcendental of R67. -/
def Fmt.isTransc : Fmt → Bool
  | .f32 | .bf16 | .tap .w16 _ => true
  | .tap .w32 _ | .tap .w8 _ | .e4m3 | .e5m2 | .int _ _ => false

/-- The integer formats. -/
def Fmt.isInt : Fmt → Bool
  | .int _ _ => true
  | .tap _ _ | .f32 | .bf16 | .e4m3 | .e5m2 => false

/-- The lane width of a format (Table 3-12). -/
def Fmt.width : Fmt → LaneW
  | .int _ w => w
  | .f32 => .w32
  | .bf16 => .w16
  | .e4m3 => .w8
  | .e5m2 => .w8
  | .tap w _ => w

/-- The registers that Table 3-17 marks RO. -/
def SpecReg.readOnly : SpecReg → Bool
  | .gtc | .sfc | .bcnt | .ctx | .tile | .asid | .tdm | .rgrp => true
  | .emtr0 | .emtr1 | .emtr2 | .emtr3 | .emtr4 | .ebud => true
  | .lreq | .xreq | .lstall | .spmerr | .fstat | .qstat | .qcfg | .keys | .spmode => false
  | .tvec | .tcause | .epc | .tval => false

/-- The registers that Table 3-17 marks RS. -/
def SpecReg.supervisorOnly : SpecReg → Bool
  | .tvec | .tcause | .epc | .tval => true
  | .gtc | .sfc | .bcnt | .ctx | .tile | .asid | .tdm | .rgrp => false
  | .emtr0 | .emtr1 | .emtr2 | .emtr3 | .emtr4 | .ebud => false
  | .lreq | .xreq | .lstall | .spmerr | .fstat | .qstat | .qcfg | .keys | .spmode => false

/-- Whether a pattern reads v_B (Table 20-5). -/
def PermKind.usesB : PermKind → Bool
  | .ziplo | .ziphi | .even | .odd | .shift => true
  | .bcast | .rev | .swap => false

/-- The limit of PARAM (Table 20-5). -/
def PermKind.paramOk (k : PermKind) (w : LaneW) (p : BitVec 8) : Bool :=
  match k with
  | .bcast | .shift => decide (p.toNat < w.lanes)
  | .rev => decide (1 ≤ p.toNat ∧ p.toNat ≤ w.logLanes)
  | .swap => decide (p.toNat < w.logLanes)
  | .ziplo | .ziphi | .even | .odd => p == 0

/-- The predicate pair of LOOPM is p1 to p54 with its successor (R238). -/
def loopmPredOk (b : PReg) : Bool := decide (1 ≤ b.toNat ∧ b.toNat ≤ 54)

/-- Relaxed or release (Table 9-2, QRED). -/
def Ord.relOnly : Ord → Bool
  | .relaxed | .rel _ => true
  | .acq _ => false

/-- Relaxed or acquire (Table 9-2, CREAD). -/
def Ord.acqOnly : Ord → Bool
  | .relaxed | .acq _ => true
  | .rel _ => false

/-- The operand conditions of one instruction. An event of the machine has none. -/
def Instr.wf : Instr → Bool
  | .mulh x _ _ _ | .div x _ _ _ | .rem x _ _ _ | .max x _ _ _ | .min x _ _ _ => x.signedOk
  | .mulhn x _ _ _ | .divn x _ _ _ | .remn x _ _ _ | .maxn x _ _ _ | .minn x _ _ _ => x.unsignedOk
  | .clz x _ _ | .ctz x _ _ | .popc x _ _ => x.unsignedOk
  | .loop d _ => d != 0
  | .loopmStart _ b _ | .loopmEnd _ b => loopmPredOk b
  | .mtsr r _ => !r.readOnly
  | .vshlImm w _ _ c _ | .vshrImm w _ _ c _ | .vsraImm w _ _ c _ => decide (c.toNat < w.bits)
  | .vpermPattern w _ _ b _ k p => k.paramOk w p && (k.usesB || b == 0)
  | .vadd f _ _ _ _ | .vsub f _ _ _ _ | .vmul f _ _ _ _ | .vmax f _ _ _ _ | .vmin f _ _ _ _ => f.legal
  | .vfma f _ _ _ _ | .vfms f _ _ _ _ => f.isFloat
  | .vabs f _ _ _ | .vneg f _ _ _ => f.isSigned && f.legal
  | .vcmp any _ f _ _ _ => f.legal && !(any && f.width == .w32)
  | .vscan f _ _ _ => f.legal
  | .vredi f _ _ _ => f.isInt
  | .vcvt _ dst src _ _ _ => dst.legal && src.legal
  | .vcvts _ dst _ _ _ _ => dst.isNarrow
  | .qadd f _ _ _ => f.isFloat
  | .qdot f _ _ _ _ => f.isProduct
  | .qrnd _ f _ _ _ _ => f.isFloat
  | .vrcp f _ _ _ | .vrsq f _ _ _ | .vsqrt f _ _ _ | .vexp2 f _ _ _ | .vlog2 f _ _ _ | .vtanh f _ _ _
  | .vsigm f _ _ _ => f.isTransc
  | .vldsx x to16 _ _ _ =>
    match x with
    | .i16 | .n16 => !to16
    | .i8 | .n8 => true
    | .x64 | .i32 | .n32 => false
  | .vgts w _ _ _ _ | .vscs w _ _ _ _ => w != .w8
  | .putn _ post _ a _ => !(post && a == 63)
  | .vputn post _ a _ => !(post && a == 63)
  | .acas d _ _ _ => d != 63
  | .qred _ _ _ o => o.relOnly
  | .cread _ _ _ o => o.acqOnly
  | .mpld r _ => decide (256 ≤ r.toNat)
  | .grun _ f _ _ _ => f.isFloat
  | .hcfg t _ => decide (t.toNat < 24)
  | .scan f _ _ _ _ _ _ _ => f.isFloat
  | .nop | .add .. | .sub .. | .and .. | .andn .. | .or .. | .xor .. | .shl .. | .shr .. | .sra .. | .rol ..
  | .mul .. | .mov .. | .sel .. | .cmp .. | .plog .. | .addi .. | .andi .. | .ori .. | .xori .. | .cmpi ..
  | .movi .. | .movhi .. | .br .. | .brl .. | .bri .. | .mfsr .. | .trap .. | .eret | .exit => true
  | .vand .. | .vor .. | .vxor .. | .vsel .. | .vcnt .. | .vmovs .. | .vrand .. | .vrandEnt .. | .vshl ..
  | .vshr .. | .vsra .. | .vperm .. | .vext .. | .vcompr .. | .vexpd .. | .mlog .. | .qclr .. | .qneg ..
  | .qtest .. | .qacc .. => true
  | .lds .. | .sts .. | .vlds .. | .vldsm .. | .vsts .. | .qsave .. | .qrest .. | .stmc .. | .vstmc .. | .getn ..
  | .warm .. | .warmOff .. | .wtok .. | .ldd .. | .std .. | .vldd .. | .vstd .. | .aadd .. | .amaxi .. | .amini ..
  | .axch .. | .axor .. | .cadd .. | .cwait .. | .fence .. | .ldc .. | .stc .. | .vldc .. | .vstc .. | .ldh ..
  | .sth .. | .vldh .. | .vsth .. => true
  | .mcall .. | .mclaim | .mfree | .mpar .. | .gload .. | .xcpy .. | .xcpyt .. | .xprom .. | .xwmk .. | .sleept ..
  | .hpush .. | .hpop .. | .scana .. | .sbar .. | .rsig .. | .rvote .. | .rinj .. | .launch .. | .cancel ..
  | .yield | .sys .. => true
  | .bundlePresentation .. | .issueSelect .. | .lateValueArrival .. | .blockConditionClears .. | .stampReached ..
  | .sleepExpiry .. | .startPulse .. | .barrierRelease .. | .walkerAnswer .. | .faultService .. | .faultAnswer ..
  | .bankReturn .. | .remoteRefusal .. | .shootdownAck .. | .shootdownComplete .. | .migrationScan => true
  | .homePortAccess .. | .counterWatchAnswer .. | .incomingNWrite .. | .queueElementDelivery ..
  | .multicastLanding .. | .transferStart .. | .transferChunk .. | .channelFaultAnswer .. | .promiseExpiry ..
  | .transferComplete .. => true
  | .mxuDenseStep .. | .mxuSparseStep .. | .mxuWriteOut .. | .mxuClear .. | .mxuOperationComplete ..
  | .mxuRoutineRunaway .. | .mxuAsidClear .. | .geuLoad .. | .geuRun .. | .geuRowDeliver .. | .geuComplete .. => true
  | .scanOperationStart .. | .scanDelivery .. | .carryArrival .. | .tongsDelivery .. | .voteStart ..
  | .voteResult .. | .dieLoss .. => true
  | .drainComplete .. | .completionAdd .. | .preemption .. | .restore .. | .launchQueueProdWrite ..
  | .launchQueueErrClear .. | .recordAcceptance .. | .forwardedRecord .. | .recordAdmission .. | .reserveRequest ..
  | .dispatch .. => true
  | .asidCreate .. | .asidRetire .. | .asidRetireComplete .. | .tensorDefine .. | .tensorFree .. | .cmap ..
  | .hwinAdd .. | .hwinRemove .. | .pinAnswer .. | .recordAbort .. | .status .. | .logRead .. => true
  | .warmReset | .warmResetComplete | .coldReset .. | .evqConsWrite .. | .evqSizeWrite .. | .evqStatWrite ..
  | .ebudSetWrite .. | .registerWrite .. | .correctedErrorReport .. | .meterAdvance .. | .powerWindowEnd
  | .thermalEmergency .. | .thermalEmergencyEnd .. | .thermalShutdown .. | .linkLoss .. | .stopGo ..
  | .mmpCoreReset .. => true

end Sys2Proof
end

