-- ==== Sys2Proof/Decode.lean ====
section
/-! DEFINITION. Bundles and syllables from bytes (R42 to R73), and the encoder of a well-formed instruction, both
written from the encoding tables of the spec. Decoding is total: a bundle is refused as ILLEGAL_BUNDLE, or one of its
syllables as ILLEGAL_OP or SLOT_MISMATCH. -/

namespace Sys2Proof

/-! ### Fields -/

/-- `len` bits from bit `lo` upward. -/
abbrev fld {n : Nat} (b : BitVec n) (lo len : Nat) : BitVec len := b.extractLsb' lo len

/-- Table 18-2. -/
def TypeCode.ofCode (x : BitVec 3) : Option TypeCode :=
  match x.toNat with
  | 0 => some .x64
  | 1 => some .i32
  | 2 => some .n32
  | 3 => some .i16
  | 4 => some .n16
  | 5 => some .i8
  | 6 => some .n8
  | _ => none

def TypeCode.code : TypeCode → BitVec 3
  | .x64 => 0
  | .i32 => 1
  | .n32 => 2
  | .i16 => 3
  | .n16 => 4
  | .i8 => 5
  | .n8 => 6

/-- Table 18-5. -/
def CmpCond.ofCode (x : BitVec 3) : Option CmpCond :=
  match x.toNat with
  | 0 => some .eq
  | 1 => some .ne
  | 2 => some .lt
  | 3 => some .ge
  | 4 => some .ltn
  | 5 => some .gen
  | 6 => some .tst
  | _ => none

def CmpCond.code : CmpCond → BitVec 3
  | .eq => 0
  | .ne => 1
  | .lt => 2
  | .ge => 3
  | .ltn => 4
  | .gen => 5
  | .tst => 6

/-- Table 19-9. -/
def SelCond.ofCode (x : BitVec 3) : Option SelCond :=
  match x.toNat with
  | 0 => some .z
  | 1 => some .nz
  | 2 => some .neg
  | 3 => some .nneg
  | 4 => some .pos
  | 5 => some .npos
  | 6 => some .odd
  | _ => none

def SelCond.code : SelCond → BitVec 3
  | .z => 0
  | .nz => 1
  | .neg => 2
  | .nneg => 3
  | .pos => 4
  | .npos => 5
  | .odd => 6

/-- Table 19-4: every X is legal. -/
def PlogOp.ofCode (x : BitVec 3) : PlogOp :=
  match x.toNat with
  | 0 => .and
  | 1 => .or
  | 2 => .xor
  | 3 => .andn
  | 4 => .orn
  | 5 => .nand
  | 6 => .nor
  | _ => .xnor

def PlogOp.code : PlogOp → BitVec 3
  | .and => 0
  | .or => 1
  | .xor => 2
  | .andn => 3
  | .orn => 4
  | .nand => 5
  | .nor => 6
  | .xnor => 7

/-- Table 20-3. -/
def CmpRel.ofCode (x : BitVec 3) : Option CmpRel :=
  match x.toNat with
  | 0 => some .eq
  | 1 => some .ne
  | 2 => some .lt
  | 3 => some .le
  | 4 => some .gt
  | 5 => some .ge
  | 6 => some .un
  | _ => none

def CmpRel.code : CmpRel → BitVec 3
  | .eq => 0
  | .ne => 1
  | .lt => 2
  | .le => 3
  | .gt => 4
  | .ge => 5
  | .un => 6

/-- Table 20-5. -/
def PermKind.ofCode (x : BitVec 4) : Option PermKind :=
  match x.toNat with
  | 0 => some .bcast
  | 1 => some .rev
  | 2 => some .ziplo
  | 3 => some .ziphi
  | 4 => some .even
  | 5 => some .odd
  | 6 => some .shift
  | 7 => some .swap
  | _ => none

def PermKind.code : PermKind → BitVec 4
  | .bcast => 0
  | .rev => 1
  | .ziplo => 2
  | .ziphi => 3
  | .even => 4
  | .odd => 5
  | .shift => 6
  | .swap => 7

/-- Table 9-1. -/
def Scope.ofCode (x : BitVec 3) : Option Scope :=
  match x.toNat with
  | 1 => some .tile
  | 2 => some .region
  | 3 => some .stack
  | 4 => some .pkg
  | 5 => some .group
  | 6 => some .pod
  | 7 => some .sys
  | _ => none

def Scope.code : Scope → BitVec 3
  | .tile => 1
  | .region => 2
  | .stack => 3
  | .pkg => 4
  | .group => 5
  | .pod => 6
  | .sys => 7

/-- The ordering nibble of R193: bit 3 is 0 for release and 1 for acquire, and 0b1000 is reserved. -/
def Ord.ofNibble (x : BitVec 4) : Option Ord :=
  match Scope.ofCode (fld x 0 3), x.getLsbD 3 with
  | some sc, false => some (.rel sc)
  | some sc, true => some (.acq sc)
  | none, false => some .relaxed
  | none, true => none

def Ord.nibble : Ord → BitVec 4
  | .relaxed => 0
  | .rel sc => (0 : BitVec 1) ++ sc.code
  | .acq sc => (1 : BitVec 1) ++ sc.code

/-- Table 3-12, by the format code FK·4 + ES. -/
def Fmt.ofCode (c : BitVec 5) : Option Fmt :=
  match c.toNat with
  | 0 => some (.int true .w32)
  | 1 => some (.int true .w16)
  | 2 => some (.int true .w8)
  | 4 => some (.int false .w32)
  | 5 => some (.int false .w16)
  | 6 => some (.int false .w8)
  | 8 => some .f32
  | 9 => some .bf16
  | 10 => some .e4m3
  | 14 => some .e5m2
  | 16 => some (.tap .w32 0)
  | 17 => some (.tap .w16 0)
  | 18 => some (.tap .w8 0)
  | 20 => some (.tap .w32 1)
  | 21 => some (.tap .w16 1)
  | 22 => some (.tap .w8 1)
  | 24 => some (.tap .w32 2)
  | 25 => some (.tap .w16 2)
  | 26 => some (.tap .w8 2)
  | 29 => some (.tap .w16 3)
  | 30 => some (.tap .w8 3)
  | _ => none

def LaneW.code : LaneW → BitVec 2
  | .w32 => 0
  | .w16 => 1
  | .w8 => 2

/-- ES of R55: 11 is no lane width. -/
def LaneW.ofCode (es : BitVec 2) : Option LaneW :=
  match es.toNat with
  | 0 => some .w32
  | 1 => some .w16
  | 2 => some .w8
  | _ => none

/-- FK of a format (Table 3-12). -/
def Fmt.fk : Fmt → BitVec 3
  | .int true _ => 0
  | .int false _ => 1
  | .f32 => 2
  | .bf16 => 2
  | .e4m3 => 2
  | .e5m2 => 3
  | .tap _ es => (1 : BitVec 1) ++ es

/-- The format code FK·4 + ES (R67). -/
def Fmt.code (f : Fmt) : BitVec 5 := f.fk ++ f.width.code

/-- Table 3-17. -/
def SpecReg.ofNum (n : BitVec 9) : Option SpecReg :=
  match n.toNat with
  | 0x000 => some .gtc
  | 0x001 => some .sfc
  | 0x002 => some .bcnt
  | 0x003 => some .ctx
  | 0x004 => some .tile
  | 0x005 => some .asid
  | 0x006 => some .tdm
  | 0x007 => some .rgrp
  | 0x008 => some .lreq
  | 0x009 => some .xreq
  | 0x00A => some .lstall
  | 0x010 => some .spmerr
  | 0x011 => some .fstat
  | 0x012 => some .qstat
  | 0x013 => some .qcfg
  | 0x014 => some .keys
  | 0x015 => some .spmode
  | 0x020 => some .tvec
  | 0x021 => some .tcause
  | 0x022 => some .epc
  | 0x023 => some .tval
  | 0x030 => some .emtr0
  | 0x031 => some .emtr1
  | 0x032 => some .emtr2
  | 0x033 => some .emtr3
  | 0x034 => some .emtr4
  | 0x035 => some .ebud
  | _ => none

def SpecReg.num : SpecReg → BitVec 9
  | .gtc => 0x000
  | .sfc => 0x001
  | .bcnt => 0x002
  | .ctx => 0x003
  | .tile => 0x004
  | .asid => 0x005
  | .tdm => 0x006
  | .rgrp => 0x007
  | .lreq => 0x008
  | .xreq => 0x009
  | .lstall => 0x00A
  | .spmerr => 0x010
  | .fstat => 0x011
  | .qstat => 0x012
  | .qcfg => 0x013
  | .keys => 0x014
  | .spmode => 0x015
  | .tvec => 0x020
  | .tcause => 0x021
  | .epc => 0x022
  | .tval => 0x023
  | .emtr0 => 0x030
  | .emtr1 => 0x031
  | .emtr2 => 0x032
  | .emtr3 => 0x033
  | .emtr4 => 0x034
  | .ebud => 0x035

/-- (ACQ, REL, ORD, SCOPE) of MCALL (R230): one of four combinations. -/
def CmdOrd.ofFlags (acq rel ord : Bool) (sc : BitVec 3) : Option CmdOrd :=
  match acq, rel, ord, Scope.ofCode sc with
  | false, false, false, Option.none => some .none
  | true, false, false, some x => some (.acq x)
  | false, true, false, some x => some (.rel x)
  | false, false, true, Option.none => some .ord
  | _, _, _, _ => Option.none

/-- ACQ, REL, ORD and SCOPE, six bits from the top. -/
def CmdOrd.flags : CmdOrd → BitVec 6
  | .none => 0
  | .acq x => (0b100 : BitVec 3) ++ x.code
  | .rel x => (0b010 : BitVec 3) ++ x.code
  | .ord => (0b001 : BitVec 3) ++ (0 : BitVec 3)

/-- ORD and the ordering nibble of GRUN (R249). -/
def CmdOrd.ofNibble (ord : Bool) (nib : BitVec 4) : Option CmdOrd :=
  match ord, Ord.ofNibble nib with
  | false, some .relaxed => some .none
  | false, some (.acq x) => some (.acq x)
  | false, some (.rel x) => some (.rel x)
  | true, some .relaxed => some .ord
  | _, _ => Option.none

/-- ORD and the ordering nibble, five bits. -/
def CmdOrd.nibble : CmdOrd → BitVec 5
  | .none => 0
  | .acq x => (0b01 : BitVec 2) ++ x.code
  | .rel x => (0b00 : BitVec 2) ++ x.code
  | .ord => 0b10000

/-- The data of a vector store: D[5] = 0 names v, D[5:4] = 10 names h (Table 3-8). -/
def VSrc.ofField (d : BitVec 6) : Option VSrc :=
  if d.getLsbD 5 = false then some (.v (fld d 0 5))
  else if d.getLsbD 4 = false then some (.h (fld d 0 4))
  else none

def VSrc.field : VSrc → BitVec 6
  | .v r => (0 : BitVec 1) ++ r
  | .h q => (0b10 : BitVec 2) ++ q

/-- A field that names v0–v31: its bit 5 is 0 (Table 3-8). -/
def vregOf (d : BitVec 6) : Option VReg := if d.getLsbD 5 = false then some (fld d 0 5) else none

/-- A 5-bit field that names q0–q15 or m0–m15: its bit 4 is 0 (R55). -/
def reg4Of (d : BitVec 5) : Option (BitVec 4) := if d.getLsbD 4 = false then some (fld d 0 4) else none

/-- A D field of the queue-delivery class: D[5:4] = 10 (Table 3-8). -/
def queueOf (d : BitVec 6) : Option HReg := if fld d 4 2 = 0b10 then some (fld d 0 4) else none

/-- A D field of the quire class: D[5:4] = 00 (Table 3-8). -/
def quireOf (d : BitVec 6) : Option QReg := if fld d 4 2 = 0 then some (fld d 0 4) else none

/-- The immediate of a code point marked †: when LSEL names the syllable the replaced field is to be zero (R45). -/
def litOf {n : Nat} (v : BitVec n) : Option (BitVec 24) → Option (Lit n)
  | none => some (.short v)
  | some l => if v = 0 then some (.long l) else none

/-- The field that an immediate leaves in the syllable. -/
def Lit.field {n : Nat} : Lit n → BitVec n
  | .short v => v
  | .long _ => 0

/-- The LIMM that an immediate takes. -/
def Lit.limm {n : Nat} : Lit n → Option (BitVec 24)
  | .short _ => none
  | .long l => some l

/-! ### The scalar space (R64) -/

/-- A scalar operation with a type code in X (SS form). -/
def typed3 (f : TypeCode → SReg → SReg → SReg → Instr) (x : BitVec 3) (d a b : SReg) : Option Instr :=
  (TypeCode.ofCode x).map (fun t => f t d a b)

/-- A scalar operation of one source: B is to be 0. -/
def typed2 (f : TypeCode → SReg → SReg → Instr) (x : BitVec 3) (d a b : SReg) : Option Instr :=
  if b = 0 then (TypeCode.ofCode x).map (fun t => f t d a) else none

/-- The scalar code points of Table 3-10, before the operand conditions. -/
def decodeScalarRaw (w : BitVec 28) (l : Option (BitVec 24)) : Option Instr :=
  let d := fld w 15 6
  let a := fld w 9 6
  let b := fld w 3 6
  let x := fld w 0 3
  let imm := fld w 0 9
  match (fld w 21 7).toNat with
  | 0x00 => if fld w 0 21 = 0 then some .nop else none
  | 0x01 => typed3 .add x d a b
  | 0x02 => typed3 .sub x d a b
  | 0x03 => typed3 .and x d a b
  | 0x04 => typed3 .andn x d a b
  | 0x05 => typed3 .or x d a b
  | 0x06 => typed3 .xor x d a b
  | 0x07 => typed3 .shl x d a b
  | 0x08 => typed3 .shr x d a b
  | 0x09 => typed3 .sra x d a b
  | 0x0A => typed3 .rol x d a b
  | 0x0B => typed3 .mul x d a b
  | 0x0C => typed3 .mulh x d a b
  | 0x0D => typed3 .mulhn x d a b
  | 0x0E => typed3 .div x d a b
  | 0x0F => typed3 .divn x d a b
  | 0x10 => typed3 .rem x d a b
  | 0x11 => typed3 .remn x d a b
  | 0x12 => typed3 .max x d a b
  | 0x13 => typed3 .maxn x d a b
  | 0x14 => typed3 .min x d a b
  | 0x15 => typed3 .minn x d a b
  | 0x16 => typed2 .clz x d a b
  | 0x17 => typed2 .ctz x d a b
  | 0x18 => typed2 .popc x d a b
  | 0x19 => typed2 .mov x d a b
  | 0x1A => (SelCond.ofCode x).map (fun c => .sel c d a b)
  | 0x1B => (CmpCond.ofCode x).map (fun c => .cmp c d a b)
  | 0x1C => some (.plog (PlogOp.ofCode x) d a b)
  | 0x20 => (litOf imm l).map (fun i => .addi d a i)
  | 0x21 => (litOf imm l).map (fun i => .andi d a i)
  | 0x22 => (litOf imm l).map (fun i => .ori d a i)
  | 0x23 => (litOf imm l).map (fun i => .xori d a i)
  | 0x24 => match CmpCond.ofCode (fld w 6 3), litOf (fld w 0 6) l with
    | some c, some i => some (.cmpi c d a i)
    | _, _ => none
  | 0x25 => if a = 0 then (litOf imm l).map (fun i => .movi d i) else none
  | 0x26 => (litOf imm l).map (fun i => .movhi d a i)
  | 0x30 => if d = 0 ∧ a = 0 then (litOf imm l).map (fun i => .br i) else none
  | 0x31 => if a = 0 then (litOf imm l).map (fun i => .brl d i) else none
  | 0x32 => if b = 0 ∧ x = 0 then some (.bri d a) else none
  | 0x33 => if a = 0 then some (.loop d imm) else none
  | 0x34 => if x = 0 then some (.loopmStart d b a)
            else if x = 1 ∧ a = 0 then some (.loopmEnd d b) else none
  | 0x40 => if a = 0 then (SpecReg.ofNum imm).map (fun r => .mfsr d r) else none
  | 0x41 => if d = 0 then (SpecReg.ofNum imm).map (fun r => .mtsr r a) else none
  | 0x42 => if d = 0 ∧ a = 0 then some (.trap imm) else none
  | 0x43 => if fld w 0 21 = 0 then some .eret else none
  | 0x44 => if fld w 0 21 = 0 then some .exit else none
  | _ => none

/-! ### The vector space (R65 to R68) -/

/-- An operation whose entry uses no lane width: ES is to be 00. -/
def es0 (es : BitVec 2) (i : Option Instr) : Option Instr := if es = 0 then i else none

/-- A format-free operation with a lane width. -/
def laned (es : BitVec 2) (f : LaneW → Instr) : Option Instr := (LaneW.ofCode es).map f

/-- A unary entry: B is to be 0. -/
def unary (b : BitVec 5) (i : Option Instr) : Option Instr := if b = 0 then i else none

/-- The vector format-free code points of Table 3-11. -/
def decodeVectorFree (op : Nat) (d a b : BitVec 5) (m : BitVec 4) (es : BitVec 2) (l : Option (BitVec 24)) :
    Option Instr :=
  match op with
  | 0x01 => es0 es (some (.vand d a b m))
  | 0x02 => es0 es (some (.vor d a b m))
  | 0x03 => es0 es (some (.vxor d a b m))
  | 0x04 => es0 es (some (.vsel d a b m))
  | 0x05 => unary b (laned es (fun w => .vcnt w d a m))
  | 0x06 => unary b (laned es (fun w => .vmovs w d a m))
  | 0x07 => es0 es (if b = 0 then some (.vrand d a m)
                    else if b = 1 ∧ a = 0 then some (.vrandEnt d m) else none)
  | 0x08 => laned es (fun w => .vshl w d a b m)
  | 0x09 => laned es (fun w => .vshr w d a b m)
  | 0x0A => laned es (fun w => .vsra w d a b m)
  | 0x0B => laned es (fun w => .vshlImm w d a b m)
  | 0x0C => laned es (fun w => .vshrImm w d a b m)
  | 0x0D => laned es (fun w => .vsraImm w d a b m)
  | 0x0E => laned es (fun w => .vperm w d a b m)
  | 0x0F => match l with
    | none => none
    | some v => if fld v 8 12 = 0 then
        match PermKind.ofCode (fld v 20 4), LaneW.ofCode es with
        | some k, some w => some (.vpermPattern w d a b m k (fld v 0 8))
        | _, _ => none
      else none
  | 0x10 => laned es (fun w => .vext w d a b m)
  | 0x11 => es0 es (unary b (some (.vcompr d a m)))
  | 0x12 => es0 es (unary b (some (.vexpd d a m)))
  | 0x13 => es0 es (match reg4Of d, reg4Of a, reg4Of b with
    | some d, some a, some b => some (.mlog m d a b)
    | _, _, _ => none)
  | 0x14 => es0 es (if a = 0 ∧ b = 0 ∧ m = 0 then (reg4Of d).map (fun d => .qclr d) else none)
  | 0x15 => es0 es (if b = 0 ∧ m = 0 then
      match reg4Of d, reg4Of a with
      | some d, some a => some (.qneg d a)
      | _, _ => none
    else none)
  | 0x16 => es0 es (if b = 0 ∧ m = 0 then (reg4Of a).map (fun a => .qtest d a) else none)
  | 0x17 => es0 es (if b = 0 ∧ m = 0 then
      match reg4Of d, reg4Of a with
      | some d, some a => some (.qacc d a)
      | _, _ => none
    else none)
  | _ => none

/-- The vector format groups of Table 3-13, by the group number (code point div 8). -/
def decodeVectorGroup (g : Nat) (f : Fmt) (d a b : BitVec 5) (m : BitVec 4) : Option Instr :=
  match g with
  | 3 => some (.vadd f d a b m)
  | 4 => some (.vsub f d a b m)
  | 5 => some (.vmul f d a b m)
  | 6 => some (.vfma f d a b m)
  | 7 => some (.vfms f d a b m)
  | 8 => some (.vmax f d a b m)
  | 9 => some (.vmin f d a b m)
  | 10 => unary b (some (.vabs f d a m))
  | 11 => unary b (some (.vneg f d a m))
  | 12 => match CmpRel.ofCode (fld m 0 3), reg4Of d with
    | some r, some d => some (.vcmp (m.getLsbD 3) r f d a b)
    | _, _ => none
  | 13 => unary b (some (.vscan f d a m))
  | 14 => unary b (some (.vredi f d a m))
  | 15 => (Fmt.ofCode b).map (fun src => .vcvt false f src d a m)
  | 16 => some (.vcvts false f d a b m)
  | 17 => unary b ((reg4Of d).map (fun d => .qadd f d a m))
  | 18 => (reg4Of d).map (fun d => .qdot f d a b m)
  | 19 => (reg4Of a).map (fun a => .qrnd false f d a b m)
  | 20 => unary b (some (.vrcp f d a m))
  | 21 => unary b (some (.vrsq f d a m))
  | 22 => unary b (some (.vsqrt f d a m))
  | 23 => unary b (some (.vexp2 f d a m))
  | 24 => unary b (some (.vlog2 f d a m))
  | 25 => unary b (some (.vtanh f d a m))
  | 26 => unary b (some (.vsigm f d a m))
  | 27 => (Fmt.ofCode b).map (fun src => .vcvt true f src d a m)
  | 28 => some (.vcvts true f d a b m)
  | 29 => (reg4Of a).map (fun a => .qrnd true f d a b m)
  | _ => none

/-- A vector syllable that is not empty (Table 3-6), before the operand conditions. -/
def decodeVectorRaw (w : BitVec 29) (l : Option (BitVec 24)) : Option Instr :=
  let op := fld w 21 8
  let d := fld w 16 5
  let a := fld w 11 5
  let b := fld w 6 5
  let m := fld w 2 4
  let es := fld w 0 2
  if op.toNat < 0x18 then decodeVectorFree op.toNat d a b m es l
  else match Fmt.ofCode (fld op 0 3 ++ es) with
    | some f => decodeVectorGroup (fld op 3 5).toNat f d a b m
    | none => none

/-! ### The memory space (R69) -/

/-- A D-space form: OFF[9:4] is C and OFF[3:0] the ordering nibble. -/
def ordered (off : BitVec 10) (f : SReg → Ord → Option Instr) : Option Instr :=
  (Ord.ofNibble (fld off 0 4)).bind (f (fld off 4 6))

/-- A D-space form whose nibble is relaxed only (Table 9-2). -/
def relaxedOnly (off : BitVec 10) (f : SReg → Option Instr) : Option Instr :=
  if fld off 0 4 = 0 then f (fld off 4 6) else none

/-- The memory code points of Table 3-14, before the operand conditions. -/
def decodeMemoryRaw (w : BitVec 28) (l : Option (BitVec 24)) : Option Instr :=
  let d := fld w 16 6
  let a := fld w 10 6
  let off := fld w 0 10
  let t := TypeCode.ofCode (fld off 7 3)
  match (fld w 22 6).toNat with
  | 0x01 => match t, litOf (fld off 0 7) l with
    | some t, some o => some (.lds t d a o)
    | _, _ => none
  | 0x02 => match t, litOf (fld off 0 7) l with
    | some t, some o => some (.sts t d a o)
    | _, _ => none
  | 0x03 => match vregOf d, litOf off l with
    | some d, some o => some (.vlds d a o)
    | _, _ => none
  | 0x04 => match vregOf d, litOf (fld off 0 6) l with
    | some d, some o => some (.vldsm d a (fld off 6 4) o)
    | _, _ => none
  | 0x05 => match t, vregOf d, litOf (fld off 0 6) l with
    | some t, some d, some o => some (.vldsx t (off.getLsbD 6) d a o)
    | _, _, _ => none
  | 0x06 => match vregOf d, LaneW.ofCode (fld off 4 2) with
    | some d, some e => some (.vgts e d a (fld off 6 4) (fld off 0 4))
    | _, _ => none
  | 0x07 => match VSrc.ofField d, LaneW.ofCode (fld off 4 2) with
    | some d, some e => some (.vscs e d a (fld off 6 4) (fld off 0 4))
    | _, _ => none
  | 0x08 => match VSrc.ofField d, litOf off l with
    | some d, some o => some (.vsts d a o)
    | _, _ => none
  | 0x09 => match quireOf d, litOf off l with
    | some d, some o => some (.qsave d a o)
    | _, _ => none
  | 0x0A => match quireOf d, litOf off l with
    | some d, some o => some (.qrest d a o)
    | _, _ => none
  | 0x10 => match t, litOf (fld off 0 4) l with
    | some t, some o => some (.stmc t (fld off 4 3) d a o)
    | _, _ => none
  | 0x11 => match VSrc.ofField d, litOf (fld off 0 7) l with
    | some d, some o => some (.vstmc (fld off 7 3) d a o)
    | _, _ => none
  | 0x12 => t.map (fun t => .putn t (off.getLsbD 6) d a (fld off 0 6))
  | 0x13 => if fld off 7 3 = 0 then (VSrc.ofField d).map (fun d => .vputn (off.getLsbD 6) d a (fld off 0 6)) else none
  | 0x14 => match t, queueOf d with
    | some t, some q => some (.getn t q a (fld off 0 7))
    | _, _ => none
  | 0x15 => if fld d 4 2 = 0 then
      if d.getLsbD 3 then (if a = 0 ∧ off = 0 then some (.warmOff (fld d 0 3)) else none)
      else some (.warm (fld d 0 3) a (fld off 4 6) (fld off 0 4))
    else none
  | 0x16 => if a = 0 ∧ off = 0 then some (.wtok d) else none
  | 0x18 => relaxedOnly off (fun c => (queueOf d).map (fun q => .ldd q a c))
  | 0x19 => relaxedOnly off (fun c => some (.std d a c))
  | 0x1A => relaxedOnly off (fun c => (queueOf d).map (fun q => .vldd q a c))
  | 0x1B => relaxedOnly off (fun c => (VSrc.ofField d).map (fun v => .vstd v a c))
  | 0x1C => ordered off (fun c o => some (.aadd d a c o))
  | 0x1D => ordered off (fun c o => some (.acas d a c o))
  | 0x1E => ordered off (fun c o => some (.amaxi d a c o))
  | 0x1F => ordered off (fun c o => some (.amini d a c o))
  | 0x20 => ordered off (fun c o => some (.axch d a c o))
  | 0x21 => ordered off (fun c o => some (.axor d a c o))
  | 0x22 => ordered off (fun c o => (quireOf d).map (fun q => .qred q a c o))
  | 0x23 => ordered off (fun c o => some (.cadd d a c o))
  | 0x24 => ordered off (fun c o => match o with
    | .acq sc => some (.cwait (if d.getLsbD 5 then .imm (fld d 0 5) else .reg (fld d 0 5)) a c sc)
    | .relaxed => none
    | .rel _ => none)
  | 0x25 => ordered off (fun c o => some (.cread d a c o))
  | 0x26 => if d = 0 ∧ a = 0 ∧ fld off 5 5 = 0 then
      match Scope.ofCode (fld off 0 3), off.getLsbD 4, off.getLsbD 3 with
      | some sc, false, false => some (.fence .rel sc)
      | some sc, false, true => some (.fence .acq sc)
      | some sc, true, false => some (.fence .full sc)
      | _, _, _ => none
    else none
  | 0x28 => match t, queueOf d with
    | some t, some q => some (.ldc t q a (fld off 0 7))
    | _, _ => none
  | 0x29 => t.map (fun t => .stc t d a (fld off 0 7))
  | 0x2A => (queueOf d).map (fun q => .vldc q a off)
  | 0x2B => (VSrc.ofField d).map (fun v => .vstc v a off)
  | 0x2C => match t, queueOf d with
    | some t, some q => some (.ldh t q a (fld off 0 7))
    | _, _ => none
  | 0x2D => t.map (fun t => .sth t d a (fld off 0 7))
  | 0x2E => (queueOf d).map (fun q => .vldh q a off)
  | 0x2F => (VSrc.ofField d).map (fun v => .vsth v a off)
  | _ => none

/-! ### The extended space (R70) -/

/-- The register of HPOP and HPUSH: with F = 0, D[5] is to be 0. -/
def svRegOf (f : Bool) (d : BitVec 6) : Option SvReg :=
  if f then some (.s d) else (vregOf d).map .v

/-- The formats of SCANA (Table 19-8). -/
def ScanaFmt.ofCode (x : BitVec 2) : ScanaFmt :=
  match x.toNat with
  | 0 => .f32
  | 1 => .t32es0
  | 2 => .t32es1
  | _ => .t32es2

def ScanaFmt.code : ScanaFmt → BitVec 2
  | .f32 => 0
  | .t32es0 => 1
  | .t32es1 => 2
  | .t32es2 => 3

/-- The extended code points of Table 3-15, before the operand conditions. With I = 0 the immediate field of MPAR and HCFG is 0;
the spec does not say what a LIMM is then, and here it too is 0 or the bundle raises ILLEGAL_OP. (DESIGN CHOICE, unsafe;
log entry 57.) -/
def decodeExtendedRaw (w : BitVec 29) (l : Option (BitVec 24)) : Option Instr :=
  match (fld w 23 6).toNat with
  | 0x01 => if fld w 0 7 = 0 then
      (CmdOrd.ofFlags (w.getLsbD 12) (w.getLsbD 11) (w.getLsbD 10) (fld w 7 3)).map
        (fun o => .mcall (fld w 13 10) o)
    else none
  | 0x02 => if fld w 0 23 = 0 then some .mclaim else none
  | 0x03 => if fld w 0 23 = 0 then some .mfree else none
  | 0x04 => if w.getLsbD 19 then
      if fld w 13 6 = 0 then (litOf (fld w 0 13) l).map (fun i => .mpar (fld w 20 3) (.imm i)) else none
    else if fld w 0 13 = 0 ∧ (l = none ∨ l = some 0) then some (.mpar (fld w 20 3) (.reg (fld w 13 6))) else none
  | 0x05 => if fld w 0 7 = 0 then some (.mpld (fld w 13 10) (fld w 7 6)) else none
  | 0x08 => if fld w 0 17 = 0 then some (.gload (fld w 17 6)) else none
  | 0x09 => match Fmt.ofCode (fld w 5 5), CmdOrd.ofNibble (w.getLsbD 4) (fld w 0 4) with
    | some f, some o => some (.grun (w.getLsbD 10) f (fld w 17 6) (fld w 11 6) o)
    | _, _ => none
  | 0x10 => if fld w 0 15 = 0 then some (.xcpy (fld w 15 2) (fld w 17 6)) else none
  | 0x11 => if fld w 0 15 = 0 then some (.xcpyt (fld w 15 2) (fld w 17 6)) else none
  | 0x12 => if fld w 0 15 = 0 then some (.xprom (fld w 17 6) (fld w 15 2)) else none
  | 0x13 => if fld w 0 15 = 0 then some (.xwmk (fld w 17 6) (fld w 15 2)) else none
  | 0x14 => if fld w 0 17 = 0 then some (.sleept (fld w 17 6)) else none
  | 0x18 => if w.getLsbD 17 then
      (litOf (fld w 0 11) l).map (fun i => .hcfg (fld w 18 5) (.mem (fld w 11 6) i))
    else if fld w 0 11 = 0 ∧ (l = none ∨ l = some 0) then some (.hcfg (fld w 18 5) (.reg (fld w 11 6))) else none
  | 0x19 => if fld w 0 12 = 0 then
      (svRegOf (w.getLsbD 18) (fld w 12 6)).map (fun r => .hpush (fld w 19 4) r)
    else none
  | 0x1A => if fld w 0 12 = 0 then
      (svRegOf (w.getLsbD 18) (fld w 12 6)).map (fun r => .hpop (fld w 19 4) r)
    else none
  | 0x20 => (Fmt.ofCode (fld w 13 5)).map (fun f =>
      .scan f (fld w 18 5) (fld w 9 4) (fld w 7 2) (w.getLsbD 6) (fld w 2 4) (w.getLsbD 1) (w.getLsbD 0))
  | 0x21 => some (.scana (ScanaFmt.ofCode (fld w 11 2)) (fld w 18 5) (fld w 13 5) (fld w 7 4) (fld w 5 2)
      (w.getLsbD 4) (fld w 0 4))
  | 0x22 => if fld w 0 20 = 0 then some (.sbar (fld w 20 3)) else none
  | 0x28 => if fld w 0 15 = 0 then
      match (fld w 15 2).toNat with
      | 0 => some (.rsig .lo (fld w 17 6))
      | 1 => some (.rsig .hi (fld w 17 6))
      | 2 => some (.rsig .cnt (fld w 17 6))
      | _ => none
    else none
  | 0x29 => if fld w 0 17 = 0 then some (.rvote (fld w 17 6)) else none
  | 0x2A => if fld w 0 11 = 0 then some (.rinj (fld w 17 6) (fld w 11 6)) else none
  | 0x30 => if fld w 0 9 = 0 then some (.launch (fld w 17 6) (fld w 11 6) (fld w 9 2)) else none
  | 0x31 => if fld w 0 11 = 0 then some (.cancel (fld w 17 6) (fld w 11 6)) else none
  | 0x32 => if fld w 0 23 = 0 then some .yield else none
  | 0x33 => if fld w 16 7 = 0 then some (.sys (fld w 0 16)) else none
  | _ => none

/-! ### Syllables and slots -/

/-- What the syllable checks of R62 find in one slot, before the conditions that the state decides. -/
inductive SylResult where
  | empty
  | illegalOp
  | slotMismatch (i : Instr)
  | ok (i : Instr)
  deriving DecidableEq, Repr

/-- The code points marked ‡ in the scalar map: legal only in SA (R52). -/
def Instr.saOnly : Instr → Bool
  | .br .. => true
  | .brl .. => true
  | .bri .. => true
  | .loop .. => true
  | .loopmStart .. => true
  | .loopmEnd .. => true
  | .eret => true
  | .exit => true
  | _ => false

/-- The code points marked ‡ in Table 3-13: legal only in VB (R52). -/
def Instr.vbOnly : Instr → Bool
  | .vscan .. => true
  | .vrcp .. => true
  | .vrsq .. => true
  | .vsqrt .. => true
  | .vexp2 .. => true
  | .vlog2 .. => true
  | .vtanh .. => true
  | .vsigm .. => true
  | _ => false

/-- A syllable of 29 bits in an opcode space, before the operand conditions. The first syllable of a pair has 28. -/
def decodeRaw (sp : OpSpace) (w : BitVec 29) (l : Option (BitVec 24)) : Option Instr :=
  match sp with
  | .scalar => decodeScalarRaw (fld w 0 28) l
  | .vector => decodeVectorRaw w l
  | .memory => decodeMemoryRaw (fld w 0 28) l
  | .extended => decodeExtendedRaw w l

/-- A syllable with its operand conditions: none is ILLEGAL_OP (R57, R452). -/
def decodeSpace (sp : OpSpace) (w : BitVec 29) (l : Option (BitVec 24)) : Option Instr :=
  (decodeRaw sp w l).filter Instr.wf

/-- The syllable check of one slot (R52, R53): ILLEGAL_OP before SLOT_MISMATCH. An empty SA or SB is a NOP. -/
def decodeSlot (p : Pos) (w : BitVec 29) (l : Option (BitVec 24)) : SylResult :=
  if w = 0 then .empty
  else match decodeSpace p.space w l with
    | none => .illegalOp
    | some i =>
      if (i.saOnly && p != .sa) || (i.vbOnly && p != .vb) then .slotMismatch i else .ok i

/-! ### Bundles (R42 to R51) -/

/-- The four words of a bundle. -/
structure Bundle where
  w0 : BitVec 64
  w1 : BitVec 64
  w2 : BitVec 64
  w3 : BitVec 64
  deriving DecidableEq, Repr

def Bundle.hk (b : Bundle) : BitVec 2 := fld b.w0 62 2
def Bundle.send (b : Bundle) : Bool := b.w0.getLsbD 61
def Bundle.rsp (b : Bundle) : Bool := b.w0.getLsbD 60
def Bundle.reserved (b : Bundle) : Bool := b.w0.getLsbD 59
def Bundle.lsel (b : Bundle) : BitVec 3 := fld b.w0 56 3
def Bundle.limm (b : Bundle) : BitVec 24 := fld b.w0 32 24
def Bundle.stamp (b : Bundle) : BitVec 16 := fld b.w0 16 16
def Bundle.pop (b : Bundle) : BitVec 16 := fld b.w0 0 16

/-- The pair word that holds a slot (R50). -/
def Bundle.pair (b : Bundle) : Pos → BitVec 64
  | .sa | .va => b.w1
  | .sb | .vb => b.w2
  | .ma | .xa => b.w3

/-- The syllable of a slot, zero-extended to 29 bits (Table 3-3). -/
def Bundle.syl (b : Bundle) (p : Pos) : BitVec 29 :=
  match p with
  | .sa | .sb | .ma => (0 : BitVec 1) ++ fld (b.pair p) 7 28
  | .va | .vb | .xa => fld (b.pair p) 35 29

/-- The guard of a slot's pair: G[6] inverts, G[5:0] names the predicate (R51). -/
def Bundle.guard (b : Bundle) (p : Pos) : BitVec 7 := fld (b.pair p) 0 7

/-- The slots in slot order (R50). -/
def slotOrder : List Pos := [.sa, .va, .sb, .vb, .ma, .xa]

/-- The syllable that LSEL names: 1 SA, 2 SB, 3 VA, 4 VB, 5 MA, 6 XA (R43). -/
def lselPos (x : BitVec 3) : Option Pos :=
  match x.toNat with
  | 1 => some .sa
  | 2 => some .sb
  | 3 => some .va
  | 4 => some .vb
  | 5 => some .ma
  | 6 => some .xa
  | _ => none

/-- The value of LSEL for a slot. -/
def Pos.lsel : Pos → BitVec 3
  | .sa => 1
  | .sb => 2
  | .va => 3
  | .vb => 4
  | .ma => 5
  | .xa => 6

/-- The LIMM of a slot: present when LSEL names it. -/
def Bundle.limmAt (b : Bundle) (p : Pos) : Option (BitVec 24) :=
  if lselPos b.lsel = some p then some b.limm else none

/-- The code point of a syllable in its opcode space. -/
def opcodeOf (sp : OpSpace) (w : BitVec 29) : Nat :=
  match sp with
  | .scalar => (fld w 21 7).toNat
  | .vector => (fld w 21 8).toNat
  | .memory => (fld w 22 6).toNat
  | .extended => (fld w 23 6).toNat

/-- The code points that the maps mark †: they accept LIMM (R64 to R70). -/
def acceptsLimm (sp : OpSpace) (op : Nat) : Bool :=
  match sp with
  | .scalar => decide ((0x20 ≤ op ∧ op ≤ 0x26) ∨ op = 0x30 ∨ op = 0x31)
  | .vector => decide (op = 0x0F)
  | .memory => decide ((0x01 ≤ op ∧ op ≤ 0x05) ∨ (0x08 ≤ op ∧ op ≤ 0x0A) ∨ op = 0x10 ∨ op = 0x11)
  | .extended => decide (op = 0x04 ∨ op = 0x18)

/-- The code point marked ◊, which requires LIMM: the pattern form of VPERM. -/
def requiresLimm (sp : OpSpace) (op : Nat) : Bool :=
  match sp with
  | .vector => decide (op = 0x0F)
  | .scalar | .memory | .extended => false

/-- LSEL and LIMM obey R45. -/
def Bundle.limmOk (b : Bundle) : Bool :=
  (if b.lsel = 7 then false
   else if b.lsel = 0 then b.limm == 0
   else match lselPos b.lsel with
     | none => false
     | some p => b.syl p != 0 && acceptsLimm p.space (opcodeOf p.space (b.syl p)))
  && slotOrder.all (fun p =>
      !(b.syl p != 0 && requiresLimm p.space (opcodeOf p.space (b.syl p))) || lselPos b.lsel == some p)

/-- XA holds the code point of SBAR. -/
def Bundle.hasSbar (b : Bundle) : Bool := opcodeOf .extended (b.syl .xa) == 0x22

/-- The header checks of R43 to R49 for a record that is deterministic or not: ILLEGAL_BUNDLE where they fail. -/
def Bundle.headerOk (b : Bundle) (det : Bool) : Bool :=
  b.hk == 0 && !b.reserved && b.limmOk && (!b.send || b.hasSbar) && !(det && b.hasSbar && !b.send)

/-- What one slot of a bundle decodes to. -/
def Bundle.decodeAt (b : Bundle) (p : Pos) : SylResult := decodeSlot p (b.syl p) (b.limmAt p)

/-- Why a bundle is refused by its bits alone. -/
inductive DecodeError where
  | illegalBundle
  | illegalOp (p : Pos)
  | slotMismatch (p : Pos)
  deriving DecidableEq, Repr

/-- The instructions of a bundle in slot order, or the first refusal in the order of R62. -/
def Bundle.decode (b : Bundle) (det : Bool) : Except DecodeError (List (Pos × Instr)) :=
  if b.headerOk det then
    slotOrder.foldr (fun p acc =>
      match b.decodeAt p with
      | .empty => acc
      | .illegalOp => .error (.illegalOp p)
      | .slotMismatch _ => .error (.slotMismatch p)
      | .ok i => acc.map (fun l => (p, i) :: l)) (.ok [])
  else .error .illegalBundle

/-- A 64-bit word from eight bytes, little-endian (R2). -/
def wordOfBytes (bs : List Byte) : Word :=
  BitVec.ofNat 64 (bs.foldr (fun x acc => acc * 256 + x.toNat) 0)

/-- The low n bytes of a number, little-endian. -/
def bytesOfNat (n x : Nat) : List Byte :=
  match n with
  | 0 => []
  | k + 1 => BitVec.ofNat 8 x :: bytesOfNat k (x / 256)

/-- A number from its bytes, little-endian. -/
def natOfBytes (bs : List Byte) : Nat := bs.foldr (fun x acc => acc * 256 + x.toNat) 0

/-- A bundle from its 32 bytes (R42). -/
def Bundle.ofBytes (bs : List Byte) : Bundle :=
  { w0 := wordOfBytes (bs.take 8)
    w1 := wordOfBytes ((bs.drop 8).take 8)
    w2 := wordOfBytes ((bs.drop 16).take 8)
    w3 := wordOfBytes ((bs.drop 24).take 8) }

/-- The 32 bytes of a bundle. -/
def Bundle.toBytes (b : Bundle) : List Byte :=
  bytesOfNat 8 b.w0.toNat ++ bytesOfNat 8 b.w1.toNat ++ bytesOfNat 8 b.w2.toNat ++ bytesOfNat 8 b.w3.toNat

/-- A bundle from its 256 bits. -/
def Bundle.ofNat (w : Nat) : Bundle :=
  { w0 := BitVec.ofNat 64 w
    w1 := BitVec.ofNat 64 (w >>> 64)
    w2 := BitVec.ofNat 64 (w >>> 128)
    w3 := BitVec.ofNat 64 (w >>> 192) }

/-- The instruction that the decoder reads from a bundle whose bits are w (bit 0 is the lowest bit of W0): that of the
first slot that is not empty, NOP where every slot is empty, and none where the bundle is refused. The table gives no
word of its own, so an instruction's bits are those of a bundle that carries it. -/
def decodeTableWord (nbits w : Nat) : Option Instr :=
  match (Bundle.ofNat (w % 2 ^ (Nat.min nbits 256))).decode false with
  | .error _ => none
  | .ok [] => some .nop
  | .ok ((_, i) :: _) => some i

/-! ### The encoder -/

/-- The words of an instruction: its opcode space, its syllable zero-extended to 29 bits, and the LIMM that it takes. -/
structure Syllable where
  space : OpSpace
  bits  : BitVec 29
  limm  : Option (BitVec 24)
  deriving DecidableEq, Repr

/-- SS form (Table 3-4). -/
def encSS (op : BitVec 7) (d a b : BitVec 6) (x : BitVec 3) : Syllable :=
  { space := .scalar, bits := (0 : BitVec 1) ++ (op ++ d ++ a ++ b ++ x), limm := none }

/-- SI form (Table 3-5) with a LIMM or none. -/
def encSI (op : BitVec 7) (d a : BitVec 6) (imm : BitVec 9) (l : Option (BitVec 24)) : Syllable :=
  { space := .scalar, bits := (0 : BitVec 1) ++ (op ++ d ++ a ++ imm), limm := l }

/-- The vector syllable (Table 3-6). -/
def encV (op : BitVec 8) (d a b : BitVec 5) (m : BitVec 4) (es : BitVec 2) (l : Option (BitVec 24)) : Syllable :=
  { space := .vector, bits := op ++ d ++ a ++ b ++ m ++ es, limm := l }

/-- A syllable of a format group: code point base + FK, with ES from the format code (R66, R67). -/
def encG (g : BitVec 5) (f : Fmt) (d a b : BitVec 5) (m : BitVec 4) : Syllable :=
  encV (g ++ f.fk) d a b m f.width.code none

/-- The memory syllable (Table 3-7). -/
def encM (op d a : BitVec 6) (off : BitVec 10) (l : Option (BitVec 24)) : Syllable :=
  { space := .memory, bits := (0 : BitVec 1) ++ (op ++ d ++ a ++ off), limm := l }

/-- The extended syllable (Table 3-9). -/
def encX (op : BitVec 6) (rest : BitVec 23) (l : Option (BitVec 24)) : Syllable :=
  { space := .extended, bits := op ++ rest, limm := l }

/-- A 4-bit register number in a 5-bit field: bit 4 is 0 (R55). -/
def z5 (r : BitVec 4) : BitVec 5 := (0 : BitVec 1) ++ r

/-- D of the queue-delivery class. -/
def qd (q : HReg) : BitVec 6 := (0b10 : BitVec 2) ++ q

/-- D of the quire class. -/
def quireField (q : QReg) : BitVec 6 := (0 : BitVec 2) ++ q

/-- v in a 6-bit field. -/
def v6 (r : VReg) : BitVec 6 := (0 : BitVec 1) ++ r

def bit (b : Bool) : BitVec 1 := BitVec.ofBool b

def RsigSel.code : RsigSel → BitVec 2
  | .lo => 0
  | .hi => 1
  | .cnt => 2

/-- F and D of HPOP and HPUSH, seven bits. -/
def SvReg.field : SvReg → BitVec 7
  | .s r => (1 : BitVec 1) ++ r
  | .v r => (0 : BitVec 2) ++ r

/-- The LIMM of the pattern form: KIND, twelve zero bits and PARAM (R404). -/
def permLimm (k : PermKind) (p : BitVec 8) : BitVec 24 := k.code ++ (0 : BitVec 12) ++ p

/-- The syllable of a well-formed instruction. An event of the machine has no words. -/
def encode : Instr → Option Syllable
  | .nop => some (encSS 0 0 0 0 0)
  | .add x d a b => some (encSS 0x01 d a b x.code)
  | .sub x d a b => some (encSS 0x02 d a b x.code)
  | .and x d a b => some (encSS 0x03 d a b x.code)
  | .andn x d a b => some (encSS 0x04 d a b x.code)
  | .or x d a b => some (encSS 0x05 d a b x.code)
  | .xor x d a b => some (encSS 0x06 d a b x.code)
  | .shl x d a b => some (encSS 0x07 d a b x.code)
  | .shr x d a b => some (encSS 0x08 d a b x.code)
  | .sra x d a b => some (encSS 0x09 d a b x.code)
  | .rol x d a b => some (encSS 0x0A d a b x.code)
  | .mul x d a b => some (encSS 0x0B d a b x.code)
  | .mulh x d a b => some (encSS 0x0C d a b x.code)
  | .mulhn x d a b => some (encSS 0x0D d a b x.code)
  | .div x d a b => some (encSS 0x0E d a b x.code)
  | .divn x d a b => some (encSS 0x0F d a b x.code)
  | .rem x d a b => some (encSS 0x10 d a b x.code)
  | .remn x d a b => some (encSS 0x11 d a b x.code)
  | .max x d a b => some (encSS 0x12 d a b x.code)
  | .maxn x d a b => some (encSS 0x13 d a b x.code)
  | .min x d a b => some (encSS 0x14 d a b x.code)
  | .minn x d a b => some (encSS 0x15 d a b x.code)
  | .clz x d a => some (encSS 0x16 d a 0 x.code)
  | .ctz x d a => some (encSS 0x17 d a 0 x.code)
  | .popc x d a => some (encSS 0x18 d a 0 x.code)
  | .mov x d a => some (encSS 0x19 d a 0 x.code)
  | .sel c d a b => some (encSS 0x1A d a b c.code)
  | .cmp c d a b => some (encSS 0x1B d a b c.code)
  | .plog op d a b => some (encSS 0x1C d a b op.code)
  | .addi d a i => some (encSI 0x20 d a i.field i.limm)
  | .andi d a i => some (encSI 0x21 d a i.field i.limm)
  | .ori d a i => some (encSI 0x22 d a i.field i.limm)
  | .xori d a i => some (encSI 0x23 d a i.field i.limm)
  | .cmpi c d a i => some (encSI 0x24 d a (c.code ++ i.field) i.limm)
  | .movi d i => some (encSI 0x25 d 0 i.field i.limm)
  | .movhi d a i => some (encSI 0x26 d a i.field i.limm)
  | .br i => some (encSI 0x30 0 0 i.field i.limm)
  | .brl d i => some (encSI 0x31 d 0 i.field i.limm)
  | .bri d a => some (encSS 0x32 d a 0 0)
  | .loop d o => some (encSI 0x33 d 0 o none)
  | .loopmStart d b a => some (encSS 0x34 d a b 0)
  | .loopmEnd d b => some (encSS 0x34 d 0 b 1)
  | .mfsr d r => some (encSI 0x40 d 0 r.num none)
  | .mtsr r a => some (encSI 0x41 0 a r.num none)
  | .trap i => some (encSI 0x42 0 0 i none)
  | .eret => some (encSS 0x43 0 0 0 0)
  | .exit => some (encSS 0x44 0 0 0 0)
  | .vand d a b m => some (encV 0x01 d a b m 0 none)
  | .vor d a b m => some (encV 0x02 d a b m 0 none)
  | .vxor d a b m => some (encV 0x03 d a b m 0 none)
  | .vsel d a b m => some (encV 0x04 d a b m 0 none)
  | .vcnt w d a m => some (encV 0x05 d a 0 m w.code none)
  | .vmovs w d a m => some (encV 0x06 d a 0 m w.code none)
  | .vrand d a m => some (encV 0x07 d a 0 m 0 none)
  | .vrandEnt d m => some (encV 0x07 d 0 1 m 0 none)
  | .vshl w d a b m => some (encV 0x08 d a b m w.code none)
  | .vshr w d a b m => some (encV 0x09 d a b m w.code none)
  | .vsra w d a b m => some (encV 0x0A d a b m w.code none)
  | .vshlImm w d a c m => some (encV 0x0B d a c m w.code none)
  | .vshrImm w d a c m => some (encV 0x0C d a c m w.code none)
  | .vsraImm w d a c m => some (encV 0x0D d a c m w.code none)
  | .vperm w d a b m => some (encV 0x0E d a b m w.code none)
  | .vpermPattern w d a b m k p => some (encV 0x0F d a b m w.code (some (permLimm k p)))
  | .vext w d a b m => some (encV 0x10 d a b m w.code none)
  | .vcompr d a m => some (encV 0x11 d a 0 m 0 none)
  | .vexpd d a m => some (encV 0x12 d a 0 m 0 none)
  | .mlog tt d a b => some (encV 0x13 (z5 d) (z5 a) (z5 b) tt 0 none)
  | .qclr d => some (encV 0x14 (z5 d) 0 0 0 0 none)
  | .qneg d a => some (encV 0x15 (z5 d) (z5 a) 0 0 0 none)
  | .qtest d a => some (encV 0x16 d (z5 a) 0 0 0 none)
  | .qacc d a => some (encV 0x17 (z5 d) (z5 a) 0 0 0 none)
  | .vadd f d a b m => some (encG 3 f d a b m)
  | .vsub f d a b m => some (encG 4 f d a b m)
  | .vmul f d a b m => some (encG 5 f d a b m)
  | .vfma f d a b m => some (encG 6 f d a b m)
  | .vfms f d a b m => some (encG 7 f d a b m)
  | .vmax f d a b m => some (encG 8 f d a b m)
  | .vmin f d a b m => some (encG 9 f d a b m)
  | .vabs f d a m => some (encG 10 f d a 0 m)
  | .vneg f d a m => some (encG 11 f d a 0 m)
  | .vcmp any rel f d a b => some (encG 12 f (z5 d) a b (bit any ++ rel.code))
  | .vscan f d a m => some (encG 13 f d a 0 m)
  | .vredi f d a m => some (encG 14 f d a 0 m)
  | .vcvt sat dst src d a m => some (encG (if sat then 27 else 15) dst d a src.code m)
  | .vcvts sat dst d a b m => some (encG (if sat then 28 else 16) dst d a b m)
  | .qadd f d a m => some (encG 17 f (z5 d) a 0 m)
  | .qdot f d a b m => some (encG 18 f (z5 d) a b m)
  | .qrnd sat f d a b m => some (encG (if sat then 29 else 19) f d (z5 a) b m)
  | .vrcp f d a m => some (encG 20 f d a 0 m)
  | .vrsq f d a m => some (encG 21 f d a 0 m)
  | .vsqrt f d a m => some (encG 22 f d a 0 m)
  | .vexp2 f d a m => some (encG 23 f d a 0 m)
  | .vlog2 f d a m => some (encG 24 f d a 0 m)
  | .vtanh f d a m => some (encG 25 f d a 0 m)
  | .vsigm f d a m => some (encG 26 f d a 0 m)
  | .lds x d a o => some (encM 0x01 d a (x.code ++ o.field) o.limm)
  | .sts x d a o => some (encM 0x02 d a (x.code ++ o.field) o.limm)
  | .vlds d a o => some (encM 0x03 (v6 d) a o.field o.limm)
  | .vldsm d a m o => some (encM 0x04 (v6 d) a (m ++ o.field) o.limm)
  | .vldsx x t d a o => some (encM 0x05 (v6 d) a (x.code ++ bit t ++ o.field) o.limm)
  | .vgts w d a i m => some (encM 0x06 (v6 d) a (i ++ w.code ++ m) none)
  | .vscs w src a i m => some (encM 0x07 src.field a (i ++ w.code ++ m) none)
  | .vsts src a o => some (encM 0x08 src.field a o.field o.limm)
  | .qsave d a o => some (encM 0x09 (quireField d) a o.field o.limm)
  | .qrest d a o => some (encM 0x0A (quireField d) a o.field o.limm)
  | .stmc x w d a o => some (encM 0x10 d a (x.code ++ w ++ o.field) o.limm)
  | .vstmc w src a o => some (encM 0x11 src.field a (w ++ o.field) o.limm)
  | .putn x p d a o => some (encM 0x12 d a (x.code ++ bit p ++ o) none)
  | .vputn p src a o => some (encM 0x13 src.field a ((0 : BitVec 3) ++ bit p ++ o) none)
  | .getn x q a o => some (encM 0x14 (qd q) a (x.code ++ o) none)
  | .warm n a hi f => some (encM 0x15 ((0 : BitVec 3) ++ n) a (hi ++ f) none)
  | .warmOff n => some (encM 0x15 ((0b001 : BitVec 3) ++ n) 0 0 none)
  | .wtok d => some (encM 0x16 d 0 0 none)
  | .ldd q a c => some (encM 0x18 (qd q) a (c ++ (0 : BitVec 4)) none)
  | .std d a c => some (encM 0x19 d a (c ++ (0 : BitVec 4)) none)
  | .vldd q a c => some (encM 0x1A (qd q) a (c ++ (0 : BitVec 4)) none)
  | .vstd src a c => some (encM 0x1B src.field a (c ++ (0 : BitVec 4)) none)
  | .aadd d a c o => some (encM 0x1C d a (c ++ o.nibble) none)
  | .acas d a c o => some (encM 0x1D d a (c ++ o.nibble) none)
  | .amaxi d a c o => some (encM 0x1E d a (c ++ o.nibble) none)
  | .amini d a c o => some (encM 0x1F d a (c ++ o.nibble) none)
  | .axch d a c o => some (encM 0x20 d a (c ++ o.nibble) none)
  | .axor d a c o => some (encM 0x21 d a (c ++ o.nibble) none)
  | .qred d a c o => some (encM 0x22 (quireField d) a (c ++ o.nibble) none)
  | .cadd d a c o => some (encM 0x23 d a (c ++ o.nibble) none)
  | .cwait (.reg r) a c sc => some (encM 0x24 ((0 : BitVec 1) ++ r) a (c ++ (Ord.acq sc).nibble) none)
  | .cwait (.imm n) a c sc => some (encM 0x24 ((1 : BitVec 1) ++ n) a (c ++ (Ord.acq sc).nibble) none)
  | .cread d a c o => some (encM 0x25 d a (c ++ o.nibble) none)
  | .fence .rel sc => some (encM 0x26 0 0 ((0 : BitVec 7) ++ sc.code) none)
  | .fence .acq sc => some (encM 0x26 0 0 ((0b0000001 : BitVec 7) ++ sc.code) none)
  | .fence .full sc => some (encM 0x26 0 0 ((0b0000010 : BitVec 7) ++ sc.code) none)
  | .ldc x q a o => some (encM 0x28 (qd q) a (x.code ++ o) none)
  | .stc x d a o => some (encM 0x29 d a (x.code ++ o) none)
  | .vldc q a o => some (encM 0x2A (qd q) a o none)
  | .vstc src a o => some (encM 0x2B src.field a o none)
  | .ldh x q a o => some (encM 0x2C (qd q) a (x.code ++ o) none)
  | .sth x d a o => some (encM 0x2D d a (x.code ++ o) none)
  | .vldh q a o => some (encM 0x2E (qd q) a o none)
  | .vsth src a o => some (encM 0x2F src.field a o none)
  | .mcall r o => some (encX 0x01 (r ++ o.flags ++ (0 : BitVec 7)) none)
  | .mclaim => some (encX 0x02 0 none)
  | .mfree => some (encX 0x03 0 none)
  | .mpar k (.reg a) => some (encX 0x04 (k ++ (0 : BitVec 1) ++ a ++ (0 : BitVec 13)) none)
  | .mpar k (.imm i) => some (encX 0x04 (k ++ (1 : BitVec 1) ++ (0 : BitVec 6) ++ i.field) i.limm)
  | .mpld r a => some (encX 0x05 (r ++ a ++ (0 : BitVec 7)) none)
  | .gload a => some (encX 0x08 (a ++ (0 : BitVec 17)) none)
  | .grun sat f a c o => some (encX 0x09 (a ++ c ++ bit sat ++ f.code ++ o.nibble) none)
  | .xcpy ch a => some (encX 0x10 (a ++ ch ++ (0 : BitVec 15)) none)
  | .xcpyt ch a => some (encX 0x11 (a ++ ch ++ (0 : BitVec 15)) none)
  | .xprom d ch => some (encX 0x12 (d ++ ch ++ (0 : BitVec 15)) none)
  | .xwmk d ch => some (encX 0x13 (d ++ ch ++ (0 : BitVec 15)) none)
  | .sleept a => some (encX 0x14 (a ++ (0 : BitVec 17)) none)
  | .hcfg t (.reg a) => some (encX 0x18 (t ++ (0 : BitVec 1) ++ a ++ (0 : BitVec 11)) none)
  | .hcfg t (.mem a i) => some (encX 0x18 (t ++ (1 : BitVec 1) ++ a ++ i.field) i.limm)
  | .hpush q r => some (encX 0x19 (q ++ r.field ++ (0 : BitVec 12)) none)
  | .hpop q r => some (encX 0x1A (q ++ r.field ++ (0 : BitVec 12)) none)
  | .scan f a q ch c m acq rel =>
    some (encX 0x20 (a ++ f.code ++ q ++ ch ++ bit c ++ m ++ bit acq ++ bit rel) none)
  | .scana f a b q ch c m => some (encX 0x21 (a ++ b ++ f.code ++ q ++ ch ++ bit c ++ m) none)
  | .sbar lv => some (encX 0x22 (lv ++ (0 : BitVec 20)) none)
  | .rsig s d => some (encX 0x28 (d ++ s.code ++ (0 : BitVec 15)) none)
  | .rvote d => some (encX 0x29 (d ++ (0 : BitVec 17)) none)
  | .rinj a b => some (encX 0x2A (a ++ b ++ (0 : BitVec 11)) none)
  | .launch d a q => some (encX 0x30 (d ++ a ++ q ++ (0 : BitVec 9)) none)
  | .cancel d a => some (encX 0x31 (d ++ a ++ (0 : BitVec 11)) none)
  | .yield => some (encX 0x32 0 none)
  | .sys i => some (encX 0x33 ((0 : BitVec 7) ++ i) none)
  | .bundlePresentation .. | .issueSelect .. | .lateValueArrival .. | .blockConditionClears .. | .stampReached ..
  | .sleepExpiry .. | .startPulse .. | .barrierRelease .. | .walkerAnswer .. | .faultService .. | .faultAnswer ..
  | .bankReturn .. | .remoteRefusal .. | .shootdownAck .. | .shootdownComplete .. | .migrationScan => none
  | .homePortAccess .. | .counterWatchAnswer .. | .incomingNWrite .. | .queueElementDelivery ..
  | .multicastLanding .. | .transferStart .. | .transferChunk .. | .channelFaultAnswer .. | .promiseExpiry ..
  | .transferComplete .. => none
  | .mxuDenseStep .. | .mxuSparseStep .. | .mxuWriteOut .. | .mxuClear .. | .mxuOperationComplete ..
  | .mxuRoutineRunaway .. | .mxuAsidClear .. | .geuLoad .. | .geuRun .. | .geuRowDeliver .. | .geuComplete .. => none
  | .scanOperationStart .. | .scanDelivery .. | .carryArrival .. | .tongsDelivery .. | .voteStart ..
  | .voteResult .. | .dieLoss .. => none
  | .drainComplete .. | .completionAdd .. | .preemption .. | .restore .. | .launchQueueProdWrite ..
  | .launchQueueErrClear .. | .recordAcceptance .. | .forwardedRecord .. | .recordAdmission .. | .reserveRequest ..
  | .dispatch .. => none
  | .asidCreate .. | .asidRetire .. | .asidRetireComplete .. | .tensorDefine .. | .tensorFree .. | .cmap ..
  | .hwinAdd .. | .hwinRemove .. | .pinAnswer .. | .recordAbort .. | .status .. | .logRead .. => none
  | .warmReset | .warmResetComplete | .coldReset .. | .evqConsWrite .. | .evqSizeWrite .. | .evqStatWrite ..
  | .ebudSetWrite .. | .registerWrite .. | .correctedErrorReport .. | .meterAdvance .. | .powerWindowEnd
  | .thermalEmergency .. | .thermalEmergencyEnd .. | .thermalShutdown .. | .linkLoss .. | .stopGo ..
  | .mmpCoreReset .. => none

/-- The first slot in which an instruction of a space may stand. -/
def Instr.homeSlot (i : Instr) (sp : OpSpace) : Pos :=
  match sp with
  | .scalar => .sa
  | .vector => if i.vbOnly then .vb else .va
  | .memory => .ma
  | .extended => .xa

/-- The bundle that carries one syllable in a slot under the always-true guard, with its LIMM, and nothing else. -/
def Bundle.single (p : Pos) (y : Syllable) : Bundle :=
  let w0 : BitVec 64 :=
    match y.limm with
    | none => 0
    | some l => p.lsel.setWidth 64 <<< 56 ||| l.setWidth 64 <<< 32
  let pairWord : BitVec 64 :=
    match p with
    | .sa | .sb | .ma => y.bits.setWidth 64 <<< 7
    | .va | .vb | .xa => y.bits.setWidth 64 <<< 35
  { w0 := w0
    w1 := match p with
      | .sa | .va => pairWord
      | .sb | .vb | .ma | .xa => 0
    w2 := match p with
      | .sb | .vb => pairWord
      | .sa | .va | .ma | .xa => 0
    w3 := match p with
      | .ma | .xa => pairWord
      | .sa | .va | .sb | .vb => 0 }

/-- The bundle that carries one instruction in its first slot. -/
def bundleOf (i : Instr) : Option Bundle :=
  (encode i).map (fun y => Bundle.single (i.homeSlot y.space) y)

end Sys2Proof
end

