-- ==== Sys2Proof/Config.lean ====
section
/-! DEFINITION. What the spec leaves open and no event carries: the free values. They have no body, so nothing in Lean
can evaluate one, and a statement about them holds for every value (log entry 1). -/

namespace Sys2Proof

/-- The words of the entropy sources of the tiles, in the order in which they are drawn (VRAND.ent, R411). -/
opaque Config.entropy : Nat → BitVec 32

/-- A 64-bit word that the spec leaves undefined, by the counter of State at which it arises. -/
opaque Config.freeWord : Nat → BitVec 64

end Sys2Proof
end

