-- ==== Sys2Proof/Machine/State.lean ====
section
/-! DEFINITION. The state of one FN4 package as plain data: the contexts of its tiles, the engines, the memories, the
memory-management processor, the scheduler, the replica network and the platform registers; the reasons to stop; and
the state after reset. -/

namespace Sys2Proof.Machine

/-! ### Reasons to stop -/

/-- Why a step stops with a fault. -/
inductive Fault where
  /-- An access reached HBM at or above 384 GiB or LPDDR-6 at or above 1 TiB (Table 7-12): memory that the package
  does not hold. Raised by the physical reads and writes of the home ports. Safe: the hardware has no such byte. -/
  | absentMemory
  deriving DecidableEq, Repr

/-- Why an instruction has no meaning. -/
inductive Refusal where
  /-- The instruction of the named mnemonic is not modelled. Raised by its arm of the dispatch. Safe. -/
  | notModelled (mnemonic : String)
  deriving DecidableEq, Repr

/-! ### Traps -/

/-- The traps of Table 16-1. -/
inductive TrapName where
  | illegalOp | illegalBundle | slotMismatch | priv | occupancy | mxuOwner | loopNest | align | bankConflict
  | translation | protection | memData | divZero | quireOverflow | scaleRange | counterDecrease | counterWrap
  | queueConfig | promiseMissed | stampOverrun | packOverrun | ruleOrder | ruleDepth | ruleFile | ruleRange
  | replicaMismatch | voteMinority | dieLost | launchFormat | sys | brk
  deriving DecidableEq, Repr

/-- A trap with its TVAL. -/
structure Trap where
  name : TrapName
  tval : Word
  deriving DecidableEq, Repr

/-! ### Memory -/

/-- Bytes by address in one canonical form: addresses strictly rising, and no byte that is 0. -/
abbrev Memory := List Host.Cell

/-- The address spaces of Table 7-1. -/
inductive Space where
  | s | m | n | d | c | h
  deriving DecidableEq, Repr

/-- A protected word that holds an uncorrectable error (R164). -/
inductive BadWord where
  | scratch (t : Nat) (word : Nat)
  | hbm (word : Nat)
  | lpddr (word : Nat)
  | code (asid : Nat) (bundle : Nat)
  /-- An accumulator word in the MXD SRAM of a tile's matrix unit, and the word of a special register of a slot. -/
  | mxd (t : Nat) (n : Nat)
  | special (t : Nat) (slot : Nat) (reg : Nat)
  /-- A word of another package, by the tensor and coordinates that name it there. -/
  | away (node : BitVec 21) (tid : Nat) (coords : Word)
  deriving DecidableEq, Repr

/-! ### Registers of a context -/

/-- A quire with its two flags (R124). -/
structure Quire where
  bits : QuireBits
  nar  : Bool
  ovf  : Bool
  deriving DecidableEq, Repr

/-- The register files of Table 3-16. -/
structure Regs where
  s : Vector Word 64
  p : BitVec 64
  v : Vector Vec 32
  m : Vector MaskWord 16
  q : Vector Quire 16
  k : Vector Word 8
  deriving DecidableEq, Repr

/-- The special registers that a context holds (Table 3-17). GTC, SFC, CTX, TILE, ASID, RGRP, LREQ, XREQ, QSTAT, the
meters and EBUD stand elsewhere in the state. -/
structure Special where
  fstat  : Word
  qcfg   : Word
  lstall : Word
  spmerr : Word
  keys   : Word
  spmode : Word
  tvec   : Word
  tcause : Word
  epc    : Word
  tval   : Word
  tdm    : Word
  /-- An MTSR wrote QSTAT at the bundle before: flags that land now are ORed on (R125). -/
  qstatWritten : Bool
  deriving DecidableEq, Repr

/-- A register write in the landing queue. -/
inductive Write where
  | s (r : SReg) (x : Word)
  | p (r : PReg) (x : Bool)
  | v (r : VReg) (x : Vec)
  | m (r : MReg) (x : MaskWord)
  | q (r : QReg) (x : Quire)
  | k (r : KReg) (x : Word)
  deriving DecidableEq, Repr

/-- An entry of the landing queue (R93). -/
structure Landing where
  write : Write
  /-- The landing bundle; in the trap shadow, the distance (R99). -/
  due : Word
  /-- False while the value is still in its unit. -/
  arrived : Bool
  /-- The cycle in which the value arrived. -/
  arrivedAt : Nat
  /-- The operation that will deliver the value; 0 for none. -/
  tag : Nat
  /-- FSTAT flags that land with the value. -/
  flags : BitVec 7
  /-- The slot of the syllable. -/
  pos : Pos
  /-- An entry of QADD, QDOT or QACC, on which a later one chains (R95). -/
  chain : Bool
  /-- The landing of a QuireAdd that set OVF, or of the QNEG of R371: it raises QUIRE_OVERFLOW under OVE (R126). -/
  overflow : Bool
  /-- A poison mark with its TVAL (R307). -/
  poison : Option Word
  /-- A trap raised at the landing bundle (R290). -/
  event : Option Trap
  /-- The place of the value in the log stream (R283). -/
  logAt : Option Nat
  /-- The key under which the other replicas await the value; 0 for none (R273). -/
  key : Nat
  /-- What the reader of the value will know: operations before the writes that it contains (R195). -/
  hist     : List Nat := []
  /-- The 32-bit lanes that an arriving vector writes. -/
  lanes    : MaskWord := BitVec.allOnes 64
  deriving DecidableEq, Repr

/-- A pending branch redirect (R92). -/
structure Redirect where
  due    : Word
  target : Word
  deriving DecidableEq, Repr

/-- The trap shadow (R99): landing bundles and redirects are held as distances. -/
structure Shadow where
  landing   : List Landing
  redirects : List Redirect
  deriving DecidableEq, Repr

/-- An active loop of LOOPM (R238). -/
structure LoopState where
  top   : Word
  m     : Nat
  n     : Nat
  k     : Nat
  depth : Nat
  i     : Nat
  deriving DecidableEq, Repr

/-- An element that a queue holds. -/
structure QElem where
  /-- The cycle in which its last byte was written. -/
  complete : Nat
  poison   : Option Word
  hist     : List Nat := []
  deriving DecidableEq, Repr

/-- A reserved element of a queue (R327). -/
structure QResv where
  id   : Nat
  done : Option QElem
  /-- The place of the element in the log stream (R283). -/
  logAt : Option Nat
  hist  : List Nat := []
  deriving DecidableEq, Repr

/-- A queue: the HQ word of Table 18-9 without PROD and CONS, the two counts, the held elements, the
reservations behind them and the head latch. -/
structure Queue where
  word  : Word
  prod  : BitVec 16
  cons  : BitVec 16
  held  : List QElem
  resv  : List QResv
  /-- The head latch (R72), and whether it has been loaded from the oldest element. -/
  latch   : Vec
  latched : Bool
  deriving DecidableEq, Repr

/-! ### Blocking -/

/-- Where a unit of an access lies. -/
inductive Home where
  | hbm (addr : Nat)
  | lpddr (addr : Nat)
  | scratch (t : TileId) (off : Nat)
  | host (bus : Word)
  | node (n : BitVec 21) (tid : Nat) (coords : Word)
  | nowhere
  deriving DecidableEq, Repr

/-- A counter that a CWAIT watches: its space and home, the tile-table entry through which it was translated (its home
follows the frame, R179), and the trap value of a refusal (R174). -/
structure Watched where
  space : Space
  home  : Home
  entry : Option Nat
  tval  : Word
  deriving DecidableEq, Repr

/-- The conditions under which a context is Blocked (R29). -/
inductive BlockCond where
  | headEmpty (q : HReg)
  | queueFull (q : HReg)
  | transferFull
  | geuFull
  | scanFull (ch : Chan)
  | releaseFull (words : Nat)
  | launchFull (q : BitVec 2)
  | counterBelow (off : Word) (thr : Word)
  | watch (place : Watched) (thr : Word)
  | wakeEmpty
  | mxuOwned
  | mxuBusy
  | mxuRoutine
  | gatherEmpty (q : HReg)
  | divider (p : Pos)
  | barrier (level : BitVec 3)
  | superstep
  | releasePending (after : List Nat)
  | sleep (until_ : Word)
  | watermark (off len : Nat)
  | reportAwaited
  | voteHold
  deriving DecidableEq, Repr

/-- The states of Table 2-3; Saved contexts stand in context areas. -/
inductive CtxStatus where
  | free
  | ready
  | issuing
  | blocked (c : BlockCond)
  | parked (fault : Nat)
  | readyOut
  | draining
  | halted
  deriving DecidableEq, Repr

/-! ### Replicas, logging -/

/-- A write that a replicated context holds in its release buffer (R276). -/
structure HeldWrite where
  /-- The words of the record: header, address words, data. -/
  words : List Word
  /-- The bundle that issued it. -/
  at_   : Word
  pos   : Pos
  /-- What the commit needs beside the record: the window word of a multicast, the landing tag of an atomic. -/
  aux   : Word
  /-- The coordinates of a KIND 7 record, which Table 14-3's list gives no address word. -/
  coords : Word
  /-- The number of its access, the engine command that made it, and what it follows besides its place in the buffer. -/
  id     : Nat := 0
  cmd    : Nat := 0
  follows : List Nat := []
  deriving DecidableEq, Repr

/-- Why a cut was made (R278). -/
inductive CutKind where
  | release (sc : Scope)
  | fence
  | enginePost
  | barrier
  | exit
  | rvote
  | atomic
  | full
  deriving DecidableEq, Repr

/-- A cut: the number of records before it and the signature there. -/
structure Cut where
  kind : CutKind
  n    : BitVec 32
  sig  : BitVec 128
  /-- The landing that RVOTE or an atomic awaits; 0 for none. -/
  tag  : Nat
  /-- The bundle at which the cut was made. -/
  at_  : Word
  deriving DecidableEq, Repr

/-- The replica state of one context. -/
structure Replica where
  group  : Nat
  stack  : BitVec 2
  sig    : BitVec 128
  count  : BitVec 32
  buffer : List HeldWrite
  /-- Records that commits have taken from the buffer. -/
  freed  : Nat
  cuts   : List Cut
  inject : Option Word
  /-- While the handler of VOTE_MINORITY runs, its writes are performed directly (R281); the first number that an object
  of the handler can have. -/
  direct : Bool
  since  : Nat
  /-- Cuts made for posts into S under REL: the command of each, and the records that its commit performs first. -/
  posts  : List (Nat × List Nat) := []
  deriving DecidableEq, Repr

/-- One entry of a log stream (Table 14-6) as record and replay use it. -/
structure LogPos where
  active : Bool
  replay : Bool
  base   : Nat
  len    : Nat
  pos    : Nat
  /-- Scan results that the replayed stream brings: their queue, the channel of which one ends a scan, and the place. -/
  scans  : List (HReg × Option Chan × Nat)
  deriving DecidableEq, Repr

/-- A value that Tongs brings to a replica: an input at a bundle (R273), or bytes for its scratchpad (R275). -/
inductive TongsValue where
  | word (cls : BitVec 8) (x : Word) (poison : Option Word) (event : Option Trap)
  | vec (x : Vec)
  | elem (q : HReg) (bytes : List Byte) (poison : Option Word) (flags : BitVec 7)
  | report (x : Word)
  | trap (x : Trap)
  | bytes (off : Nat) (bs : List Byte)
  /-- What a channel of the lead has read: pieces by destination offset, the end, and how many indices it took. -/
  | chunk (pieces : List (Nat × List Byte)) (ended : Option (BitVec 8 × Option Trap)) (flags : BitVec 7) (pops : Nat)
  deriving DecidableEq, Repr

/-- A delivery in the Tongs network. -/
structure TongsItem where
  id   : Nat
  tile : TileId
  slot : SlotNo
  uid  : Nat
  /-- The bundle at which the value entered the lead. -/
  at_  : Word
  val  : TongsValue
  /-- The landing tag or reservation that awaits the value; 0 for bytes and traps. -/
  src  : Nat
  due  : Nat
  deriving DecidableEq, Repr

/-! ### Contexts -/

/-- The answer of a refused access, raised at the next presentation of the bundle (R171, R173). -/
inductive AnswerKind where
  | noDescriptor (tval : Word)
  | refused
  deriving DecidableEq, Repr

/-- A bound grammar image (R248). -/
structure Binding where
  base   : Nat
  keys   : Word
  spmode : Word
  deriving DecidableEq, Repr

/-- An effect that takes place at the end of the bundle. -/
inductive Deferred where
  | mtsr (r : SpecReg) (x : Word)
  | pop (q : HReg)
  | hcfgQueue (q : HReg) (x : Word)
  | hcfgWindow (w : Win) (x : Word)
  | mfree
  | branch (target : Word)
  | loopTo (target : Word)
  | loopPush (l : LoopState)
  | loopSet (l : LoopState)
  | loopDrop
  | eret
  | exit
  | yield
  deriving DecidableEq, Repr

/-- An input that a replica has issued and awaits from its lead (R274). Where the lead is fenced before it reaches the
input, the new lead performs it with the registers of the issue. -/
structure Owed where
  instr : Instr
  pos   : Pos
  at_   : Word
  regs  : Regs
  /-- The tag of its landing; the key under which Tongs would deliver its value. -/
  tag   : Nat
  key   : Nat
  deriving DecidableEq, Repr

/-- A hardware context with all its state. -/
structure Context where
  /-- Unique from binding to retirement. -/
  uid    : Nat
  status : CtxStatus
  /-- The launch record, by the model's number. -/
  rid    : Nat
  asid   : BitVec 12
  prio   : BitVec 3
  det    : Bool
  nlev   : BitVec 4
  /-- The indices of the context at the eight launch levels. -/
  index  : Vector Nat 8
  sup    : Bool
  pc     : Word
  bcnt   : Word
  regs   : Regs
  special : Special
  landing   : List Landing
  redirects : List Redirect
  shadow    : Option Shadow
  loops     : List LoopState
  queues    : Vector Queue 16
  windows   : Vector Word 8
  events    : List Trap
  /-- TCAUSE.LOST is to be set at the next delivery (R304). -/
  lostEvent : Bool
  answer    : Option AnswerKind
  /-- The issue bundle of the last divide of SA and of SB. -/
  divider   : Vector (Option Word) 2
  /-- The cycle since which the context has been blocked or ready (R30). -/
  age       : Nat
  /-- No bundle is presented before this cycle. -/
  earliest  : Nat
  /-- The cycle in which a late-landing stall began. -/
  stalled   : Option Nat
  /-- The landings of the present bundle have committed (R60). -/
  committed : Bool
  /-- QUIRE_OVERFLOW from the landings of the present bundle, the lowest quire (R126). -/
  overflow  : Option QReg
  /-- MEM_DATA from the landings of the present bundle. -/
  poisoned  : Option Word
  /-- How many SBARs the context has issued at each level. -/
  barriers  : Vector Nat 8
  /-- A start pulse has come for the SBAR at which the context waits (R379). -/
  released  : Bool
  /-- The home's answer to a watch, or a report of the lead (R337). -/
  observed  : Option Word
  /-- The condition of a CWAIT that has cleared, while its bundle has not issued (Table 9-4). -/
  cleared   : Option BlockCond
  binding   : Option Binding
  /-- The latest command on each channel: its number and promise (R423). -/
  promises  : Vector (Option (Nat × Nat)) 4
  wakeLost  : Bool
  deferred  : List Deferred
  /-- Operations that later writes follow (a release-kind FENCE, R198). -/
  fenceRel  : List Nat
  /-- Operations that every later access follows (an acquire, R194). -/
  acquiring : List Nat
  /-- Open operations that happen before what the context has observed (R195). -/
  known     : List Nat
  replica   : Replica
  log       : LogPos
  /-- The flat launch index, by which log streams are numbered (R283). -/
  flat      : Nat
  /-- SSTEP and the cycle in which the current start pulse reached the tile (R102). -/
  sstep     : BitVec 16
  pulseAt   : Option Nat
  /-- The inputs that a replica has issued and awaits from its lead. -/
  owed      : List Owed
  /-- The scheduler has chosen the record for pre-emption: no bundle is presented before the save (R34). -/
  saving    : Bool
  /-- The die map under which the context was bound or last restored: from virtual die to physical die (R311, R312). -/
  dieMap    : Vector (Bool × BitVec 5) 17
  deriving DecidableEq, Repr

/-- A context slot with its two banks (R19). -/
structure Slot where
  primary : Context
  second  : Context
  /-- The cycle until which a move between the banks lasts. -/
  moving  : Nat
  deriving DecidableEq, Repr

/-! ### Engines of a tile -/

/-- A wake comparator (R417). -/
structure Comparator where
  uid    : Nat
  lo     : Nat
  hi     : Nat
  filter : BitVec 4
  /-- The first cycle whose writes it meets. -/
  since  : Nat
  deriving DecidableEq, Repr

/-- A queued wake token (Table 20-11). -/
structure Token where
  uid   : Nat
  cmp   : BitVec 3
  cls   : BitVec 4
  off   : BitVec 21
  count : BitVec 16
  /-- The cycle in which it entered. -/
  at_   : Nat
  deriving DecidableEq, Repr

/-- A transfer command that a channel has accepted (R206 to R212). -/
structure XCmd where
  cid      : Nat
  ch       : Chan
  slot     : SlotNo
  uid      : Nat
  asid     : BitVec 12
  /-- XCPYT. -/
  tiled    : Bool
  words    : Vector Word 8
  recOff   : Nat
  keys     : Word
  spmode   : Word
  accepted : Nat
  promise  : Nat
  missed   : Bool
  /-- Earlier commands of the context that had not posted at issue (ORD, R202). -/
  earlier  : List Nat
  /-- Operations that the command's accesses follow (R201). -/
  after    : List Nat
  /-- The key under which the other replicas take what the lead's channel reads (R273). -/
  key      : Nat
  deriving DecidableEq, Repr

/-- A command that a channel runs. -/
structure XRun where
  cmd     : XCmd
  /-- The cycle of its start, later by every wait that reissued its promise. -/
  start   : Nat
  /-- Destination bytes written contiguously from the start of the destination. -/
  done    : Nat
  /-- Source elements that COMPRESS has taken. -/
  taken   : Nat
  /-- The CRC of the destination bytes. -/
  crc     : BitVec 32
  /-- Indices taken from queue GQ. -/
  indices : List Nat
  /-- COMPRESS: the mask bits so far; EXPAND: the mask of the block. -/
  mask    : List Bool
  /-- The value bytes that COMPRESS has produced. -/
  packed  : List Byte
  /-- EXPAND: the byte of the block that is read next; COMPRESS: the end of what is written of its value area. -/
  values  : Nat
  flags   : BitVec 7
  /-- The retention: staged destination bytes that are not written yet, by their offsets (R218). -/
  held    : List (Nat × List Byte)
  /-- Writes that have left for their homes. -/
  writes  : List Nat
  /-- The fault on which the channel waits, and the cycle in which it sent it. -/
  fault   : Option (Nat × Nat)
  /-- The status with which the command ends once nothing is held, and its trap. -/
  ended   : Option (BitVec 8 × Option Trap)
  deriving DecidableEq, Repr

/-- A command that has ended and has not posted. -/
structure XDone where
  cmd     : XCmd
  status  : BitVec 8
  trap    : Option Trap
  flags   : BitVec 7
  writes  : List Nat
  /-- The fault on which its counter's translation waits (R453). -/
  fault   : Option (Nat × Nat)
  /-- The counter is refused or denied: no post is made. -/
  noPost  : Bool
  endedAt : Nat
  deriving DecidableEq, Repr

/-- A transfer channel (R211). -/
structure Channel where
  run    : Option XRun
  /-- The promise of the previous command. -/
  prev   : Nat
  /-- The cycle F of R211. -/
  freeAt : Nat
  deriving DecidableEq, Repr

/-- An operation of the matrix unit between its start and its completion (R231): operands as the gather unit read them. -/
inductive MxuWork where
  | dense (f : Fmt) (a b scales : List Byte)
  | sparse (f : Fmt) (spn : Nat) (a b masks scales : List Byte)
  | writeOut (bytes : Nat) (flags : BitVec 7) (post : Option Nat)
  | clear
  | suppressed
  deriving DecidableEq, Repr

/-- One started operation: complete by its cycle `due`. -/
structure MxuOp where
  work  : MxuWork
  slot  : SlotNo
  uid   : Nat
  cid   : Nat
  asid  : BitVec 12
  keys  : Word
  spmode : Word
  due   : Nat
  /-- The post is a release. -/
  rel   : Bool
  /-- Earlier commands that the post follows (ORD), and accesses that it follows (REL). -/
  earlier : List Nat
  after   : List Nat
  deriving DecidableEq, Repr

/-- A routine in the course of its run (R226). -/
structure MxuRun where
  slot   : SlotNo
  uid    : Nat
  cid    : Nat
  asid   : BitVec 12
  keys   : Word
  spmode : Word
  k      : Vector Word 8
  /-- The microword address, the repeats done and the words executed. -/
  pc     : Nat
  rep    : Nat
  words  : Nat
  /-- What AINC and BINC have added. -/
  ainc   : Int
  binc   : Int
  ord    : CmdOrd
  earlier : List Nat
  after  : List Nat
  deriving DecidableEq, Repr

/-- The matrix unit of a tile. -/
structure Mxu where
  owner    : Option (SlotNo × Nat)
  lastAsid : Option (BitVec 12)
  /-- Accumulator quires that are not zero. -/
  acc      : List (Nat × Quire)
  /-- Loaded microwords. -/
  store    : List (Nat × BitVec 128)
  loaded   : List Nat
  run      : Option MxuRun
  ops      : List MxuOp
  busyUntil : Nat
  /-- A claim that waits for the clear of another ASID's results, and the cycle in which the clear ends. -/
  clearing : Option (SlotNo × Nat × Nat)
  deriving DecidableEq, Repr

/-- A command of the grammar unit (R253). -/
inductive GeuCmd where
  | load (slot : SlotNo) (uid cid : Nat) (base : Nat) (keys spmode : Word) (earlier after : List Nat)
  | run (slot : SlotNo) (uid cid : Nat) (a : Word) (c : Option Word) (sat : Bool) (f : Fmt) (ord : CmdOrd)
      (keys spmode : Word) (earlier after : List Nat) (resume : Nat)
  deriving DecidableEq, Repr

/-- The command in progress: for a run the pieces it still delivers, rows or queue elements, and how many are; for a
GLOAD none. -/
structure GeuRunning where
  pieces : List (List Byte)
  next   : Nat
  flags  : BitVec 7
  /-- The bytes that the completion posts. -/
  bytes  : Nat
  trap   : Option Trap
  /-- NROWS of the image as far as its header check goes. -/
  nrows  : Nat
  due    : Nat
  deriving DecidableEq, Repr

/-- The grammar unit of a tile. -/
structure Geu where
  queue   : List GeuCmd
  running : Option GeuRunning
  startAt : Nat
  deriving DecidableEq, Repr

/-- A cached descriptor and a cached entry of the translation cache (R169). -/
structure CachedDesc where
  asid : BitVec 12
  id   : Nat
  words : Vector Word 8
  deriving DecidableEq, Repr

/-- A host window (Table 8-2). -/
structure HostWindow where
  hva   : Word
  pages : BitVec 32
  bus   : Word
  valid : Bool
  resident : Bool
  perm  : BitVec 4
  deriving DecidableEq, Repr

inductive EntryKey where
  /-- A tile-table entry, by its physical address. -/
  | tile (addr : Nat)
  /-- A capacity entry, by its 2 MiB page. -/
  | page (n : Nat)
  /-- A host window, by its base. -/
  | window (hva : Word)
  deriving DecidableEq, Repr

structure CachedEntry where
  asid : BitVec 12
  key  : EntryKey
  word : Word
  win  : Option HostWindow
  deriving DecidableEq, Repr

/-- A tile (R13). -/
structure Tile where
  scratch : Memory
  slots   : Vector Slot 4
  lreq    : Word
  xreq    : Word
  /-- The last cycle in which requests were counted, and how many in each counter (R161). -/
  counted : Nat × Word × Word
  descs   : List CachedDesc
  entries : List CachedEntry
  buffer  : List XCmd
  channels : Vector Channel 4
  done    : List XDone
  mxu     : Mxu
  geu     : Geu
  comparators : Vector (Option Comparator) 8
  /-- Comparators that a WARM has replaced or freed: number, comparator, and the cycle with which it ends (R417). -/
  ending  : List (Nat × Comparator × Nat)
  tokens  : List Token
  /-- For each channel, how many scans of the tile have issued and not delivered (R380). -/
  scans   : Vector Nat 4
  /-- When each scalar divider of the tile is free, and whose it is. -/
  dividers : Vector (Nat × Nat) 2
  /-- The last of the requesters that share the third place of R143: channel 0 to 3, or 4, the N port. -/
  granted : BitVec 3
  deriving DecidableEq, Repr

/-! ### Accesses in flight -/

/-- Who issued an access. -/
inductive Issuer where
  | ctx (t : TileId) (k : SlotNo) (uid : Nat)
  | engine (t : TileId) (k : SlotNo) (uid : Nat)
  | scheduler (rid : Nat)
  deriving DecidableEq, Repr

/-- What one unit of an access does at its home. -/
inductive UnitOp where
  | load
  | store (bs : List Byte)
  | fill (bs : List Byte)
  | atomic (op : BitVec 6) (v w : Word) (signed : Bool)
  | cadd (amt : Word)
  | qred (image : QuireBits) (invalid : Bool)
  deriving DecidableEq, Repr

/-- One independently performed unit of an access, of at most 8 bytes, a 16-byte unit of VPUTN, or the line of a QRED (R184,
R410). -/
structure AccessUnit where
  home : Home
  /-- The byte offset of the unit within the access. -/
  off  : Nat
  len  : Nat
  op   : UnitOp
  done : Bool
  /-- The tile-table entry through which the access was translated, for ACNT and shoot-down. -/
  entry : Option Nat
  /-- For a unit in another package the byte of the tensor: tile number · 65,536 + byte of the frame. -/
  place : Nat := 0
  deriving DecidableEq, Repr

/-- What a load of the context's own scratchpad makes of its bytes: a scalar, a vector, narrow elements widened to lanes, lanes
over an old value, or a quire. -/
inductive CoreDest where
  | word (x : TypeCode)
  | vec
  | wide (x : TypeCode) (w : LaneW)
  | lanes (w : LaneW) (act : List Bool) (old : Vec)
  | quire
  deriving DecidableEq, Repr

/-- Where the data of an access go. -/
inductive Sink where
  | none
  /-- A landing of the issuing context with this tag; scalar of z bytes, signed or not. -/
  | landing (z : Nat) (signed : Bool)
  /-- The queue of the issuing context, with the reservation of this flight. -/
  | queue (q : HReg) (elemBytes : Nat) (z : Nat) (signed : Bool)
  /-- A landing of a load of the context's own scratchpad that had to wait (R194, R198). -/
  | core (k : CoreDest)
  deriving DecidableEq, Repr

/-- An access between its issue and its completion. -/
structure Flight where
  id     : Nat
  issuer : Issuer
  space  : Space
  asid   : BitVec 12
  units  : List AccessUnit
  /-- Accesses that are performed before this one (R191, R194). -/
  after  : List Nat
  sink   : Sink
  data   : List Byte
  poison : Option Word
  /-- The trap value of a refusal (R174). -/
  tval   : Word
  /-- A write in a causal space; a write; a release. -/
  causal : Bool
  writes : Bool
  /-- The bundle that issued it. -/
  at_    : Word
  /-- Its unloaded latency, and the default cycle of its next event. -/
  lat    : Nat
  due    : Nat
  /-- What a reader of the written value will know, and what the read values have brought (R195). -/
  hist   : List Nat := []
  seen   : List Nat := []
  /-- The engine command that it posts for; 0 for none. -/
  cmd    : Nat := 0
  /-- What an engine's report of a post names: the engine, the record offset and the channel (R308). -/
  report : Word := 0
  /-- A release-kind FENCE has covered it (R198). -/
  fenced : Bool := false
  deriving DecidableEq, Repr

/-- A multicast store on its way (R151). -/
structure Mcast where
  id    : Nat
  tile  : TileId
  uid   : Nat
  x0 : Nat
  y0 : Nat
  x1 : Nat
  y1 : Nat
  off   : Nat
  bytes : List Byte
  land  : Nat
  deriving DecidableEq, Repr

/-- A watch of an N or D counter at its home (R337). -/
structure Watch where
  id   : Nat
  tile : TileId
  slot : SlotNo
  uid  : Nat
  place : Watched
  asid : BitVec 12
  thr  : Word
  due  : Nat
  deriving DecidableEq, Repr

/-- A barrier of a level instance (R378), named by the lowest flat index of the instance; contexts arrive under their
flat indices. -/
structure Barrier where
  id    : Nat
  rid   : Nat
  level : BitVec 3
  inst  : Nat
  n     : Nat
  arrived : List Nat
  /-- Open accesses of those who arrived: arrival is a release. -/
  after : List Nat
  /-- The cycle in which the last arrival releases it. -/
  due   : Option Nat
  deriving DecidableEq, Repr

/-- A start pulse on its way to a tile (R297). -/
structure Pulse where
  rid  : Nat
  tile : TileId
  due  : Nat
  deriving DecidableEq, Repr

/-- The contribution of a tile to a scan (R258), by its ordinal in the region. -/
structure Contribution where
  ordinal : Nat
  tile  : TileId
  slot  : SlotNo
  uid   : Nat
  q     : HReg
  /-- SCANA. -/
  affine : Bool
  fmt   : Fmt
  carry : Bool
  a     : Vec
  b     : Vec
  mask  : MaskWord
  /-- Writes that the delivery of a SCAN.rel follows (R263). -/
  after : List Nat
  /-- The places of the result's elements in the log stream (R283). -/
  places : List Nat
  /-- Elements of the result that are delivered. -/
  given : Nat
  /-- The number that it took, which tells what the handler of VOTE_MINORITY issued (R281). -/
  num   : Nat := 0
  deriving DecidableEq, Repr

/-- A carry of a state channel: the exact sum and the special state of each lane, or a pair of each lane (R264). -/
structure Carry where
  valid : Bool
  sums  : List Quire
  /-- Per lane, from bit 0: a NaN, +∞, −∞, a term that is not −0, a term. -/
  marks : List (BitVec 5)
  pairs : List (BitVec 32 × BitVec 32)
  deriving DecidableEq, Repr

/-- A scan operation of a region and channel. -/
structure ScanOp where
  id     : Nat
  rid    : Nat
  region : Nat
  ch     : Chan
  k      : Nat
  w      : Nat
  h      : Nat
  contributions : List Contribution
  /-- The cycle in which the last tile's command issued. -/
  lastAt : Nat
  started : Option Nat
  /-- Some tile gave another kind, format or `.carry` (R259). -/
  mixed  : Bool
  /-- A carry-in and the cycle of its arrival. -/
  carryIn : Option (Carry × Nat)
  /-- The carry-out has left. -/
  sent   : Bool
  deriving DecidableEq, Repr

/-- A carry that came before its operation: its channel, the operation's number, its words and the cycle (R440). -/
structure HeldCarry where
  ch    : Chan
  k     : Nat
  words : List Word
  at_   : Nat
  deriving DecidableEq, Repr

/-- A replica group (R271, R272). -/
structure Group where
  id    : Nat
  rid   : Nat
  /-- Stack, tile, slot and context of each replica. -/
  members : List (BitVec 2 × TileId × SlotNo × Nat)
  live  : BitVec 4
  lead  : BitVec 2
  red   : BitVec 2
  red0  : BitVec 2
  votes : Nat
  /-- A vote in progress and its cycle. -/
  voting : Option Nat
  /-- Replicas that DIE_LOST has struck. -/
  lost  : BitVec 4
  /-- The BCNT at which the other live replica waits for the lead's handler, and by how many bundles it then advances, once
  the handler has returned (R281). -/
  holdAt : Option Word
  resumeBy : Option Word
  deriving DecidableEq, Repr

/-! ### The scheduler -/

/-- The phase of a launch record. -/
inductive Phase where
  | pooled
  /-- A reserve request of NODE0 that this package keeps until it can reserve (R293). -/
  | requested
  /-- NODE0 waits for the reservations of other packages, the first of which it has asked. -/
  | reserving (left : List Nat)
  | reserved
  | running
  | saved
  | ended
  deriving DecidableEq, Repr

/-- A saved context with the slot it held. -/
structure SavedCtx where
  tile : Nat
  slot : SlotNo
  bank : Bank
  ctx  : Context
  /-- Its transfer commands, and what they had left. -/
  buffered : List XCmd
  /-- Running commands by channel. -/
  runs : List (Chan × XRun)
  done : List XDone
  geu  : List GeuCmd
  acc  : Option (List (Nat × Quire))
  armed : List (Nat × Comparator)
  tokens : List Token
  /-- The cycle of the save. -/
  at_ : Nat
  /-- The commands that were waiting on a fault, with their channels and the cycles in which they sent it (R214). -/
  waits : List (Chan × Nat × Nat)
  /-- It had arrived at the barrier on which it is blocked: it arrives again after the restore (R378). -/
  arrived : Bool
  deriving DecidableEq, Repr

/-- A tile area (R299): the frames of the tile's home stack that the MMP has reserved for it. -/
structure TileArea where
  tile   : Nat
  stack  : Nat
  frames : List Nat
  deriving DecidableEq, Repr

/-- A launch record in the pool, or bound (R289). -/
structure Record where
  rid    : Nat
  words  : List Word
  /-- The handle: node and sequence number (R290). -/
  seq    : BitVec 32
  order  : Nat
  launcher : Nat
  /-- The launch queue and the record number in it. -/
  source : Nat × Nat
  phase  : Phase
  /-- Younger records admitted past it (R292). -/
  passed : Nat
  placement : Placement
  /-- Contexts that are not yet Free, and the flat indices of those that have issued EXIT. -/
  left   : List Nat
  exited : List Nat
  /-- Flat index of its first package on this node. -/
  pkgIndex : Nat
  savedCtxs : List SavedCtx
  areas : List TileArea
  /-- What other packages have last reported of the four dependences (R291). -/
  seen  : Vector Word 4
  /-- At NODE0, packages that have not yet bound (R297). -/
  unbound : List Nat
  dispatchedAt : Nat
  /-- Accesses that the dependence posts and the launch released (R294). -/
  after : List Nat
  /-- At NODE0, packages whose parts have not ended (R36). -/
  away  : List Nat := []
  /-- NODE0 has committed: the package is still to bind its part (R293). -/
  committed : Bool := false
  /-- The record is chosen for pre-emption, and its save waits (R34, R296); an abort that waits for that save, with its POST
  argument (R298). -/
  saving : Bool := false
  aborting : Option Bool := none
  /-- The package and launch queue from which it was forwarded (R289). -/
  origin : Option Origin := none
  deriving DecidableEq, Repr

/-- A record between two packages (R289, R294): on its way to NODE0 once what its launch released has been performed, or
before a pool that is full. -/
structure Relay where
  words : List Word
  src   : Origin
  after : List Nat
  deriving DecidableEq, Repr

/-- A launch queue (Table 13-5). -/
structure LaunchQueue where
  slots : List (Nat × List Word)
  prod  : BitVec 31
  cons  : BitVec 31
  err   : Bool
  /-- For queues 4–7, the launcher's landing tag of each record in it. -/
  tags  : List Nat
  /-- Records that RECORD_ABORT has withdrawn from it, by their numbers. -/
  withdrawn : List Nat
  deriving DecidableEq, Repr

/-! ### The memory-management processor -/

/-- An ASID entry (Table 8-1), with the host windows that its table holds. -/
structure AsidEntry where
  id       : BitVec 12
  valid    : Bool
  retiring : Bool
  nomig    : Bool
  dcount   : BitVec 20
  dtb      : Nat
  fttb     : Nat
  fntiles  : Nat
  cpt      : Nat
  /-- The host window table in memory, and the windows that it holds. -/
  hwt      : Nat
  windows  : List HostWindow
  /-- C ranges that CMAP has marked: address and length. -/
  cmaps    : List (Nat × Nat)
  /-- PLACE, STACK and PERM of each defined tensor, and its base (R180). -/
  defs     : List (Nat × BitVec 2 × BitVec 2 × BitVec 4 × Option Nat)
  /-- Entries mapped before and evicted to an LPDDR-6 page: entry address and page. -/
  evicted  : List (Nat × Nat)
  deriving DecidableEq, Repr

/-- Where a translation fault stands. -/
inductive FaultStage where
  | walking
  | queued
  | pinning (req : Nat)
  | answered (a : Option AnswerKind)
  deriving DecidableEq, Repr

/-- What an access or a channel asks to have translated. -/
inductive Need where
  | desc (id : Nat)
  | tile (id : Nat) (tn : Nat)
  | flat (frame : Nat)
  | page (n : Nat)
  | window (addr : Word)
  deriving DecidableEq, Repr

/-- Who waits on a fault. -/
inductive Requester where
  | ctx (t : TileId) (k : SlotNo) (uid : Nat)
  | channel (t : TileId) (ch : Chan) (cid : Nat)
  | scheduler (rid : Nat)
  /-- The commit of a context's held writes (R450). -/
  | commit (t : TileId) (k : SlotNo) (uid : Nat)
  deriving DecidableEq, Repr

/-- A fault record (R171, R172). -/
structure FaultRec where
  id    : Nat
  who   : Requester
  asid  : BitVec 12
  needs : List Need
  stack : BitVec 2
  /-- TVAL of the access, for a refusal (R170, R173). -/
  tval  : Word
  stage : FaultStage
  due   : Nat
  deriving DecidableEq, Repr

/-- What a shoot-down does once every agent has acknowledged. -/
inductive ShootWork where
  | free
  | evict (entry : Nat)
  | migrate (entry : Nat) (stack : BitVec 2)
  | removeWindow (asid : BitVec 12) (hva : Word)
  deriving DecidableEq, Repr

/-- A shoot-down in progress (R176). -/
structure Shootdown where
  id   : Nat
  asid : BitVec 12
  key  : EntryKey
  /-- The entry as it was. -/
  old  : Word
  acks : List Nat
  work : ShootWork
  /-- The mailbox command that is answered when its last shoot-down is complete. -/
  seq  : Option (BitVec 16)
  due  : Nat
  deriving DecidableEq, Repr

/-- An entry of a hint table (R179). -/
structure Hint where
  home   : BitVec 2
  entry  : Nat
  counts : Vector (BitVec 16) 4
  asid   : BitVec 12
  deriving DecidableEq, Repr

/-- A pin request to the host (R178). -/
structure PinReq where
  req   : Nat
  asid  : BitVec 12
  need  : Need
  deriving DecidableEq, Repr

/-- The memory-management processor. -/
structure Mmp where
  asids  : List AsidEntry
  faults : List FaultRec
  shoots : List Shootdown
  hints  : List Hint
  pins   : List PinReq
  /-- Frames of HBM in use below this, the freed ones, and the same for 2 MiB pages of LPDDR-6. -/
  nextFrame : Nat
  freeFrames : List Nat
  nextPage : Nat
  freePages : List Nat
  /-- 16 KiB granules in use of each HBM4: entry 2·t + b for stack t and frames of parity b (R11). -/
  used : Vector Nat 8
  /-- Tile tables that are freed when the last shoot-down of a command is complete: the command, address and bytes. -/
  tables : List (BitVec 16 × Nat × Nat)
  /-- A mailbox request that is not yet answered. -/
  pending : Option (BitVec 16)
  deriving DecidableEq, Repr

/-! ### The platform -/

/-- A fault event (Table 16-8) but for GTC, which is its fourth word. -/
structure FaultEvent where
  cls  : BitVec 8
  code : BitVec 8
  tile : BitVec 10
  slot : BitVec 2
  asid : BitVec 12
  w1   : Word
  w2   : Word
  gtc  : Word
  deriving DecidableEq, Repr

/-- What a full reserve keeps for a class (R314). -/
structure Dropped where
  cls   : BitVec 8
  first : FaultEvent
  last  : FaultEvent
  count : Nat
  /-- How many of its records have been delivered: the first, the last. -/
  sent  : Nat
  deriving DecidableEq, Repr

/-- The registers of BAR 0, the event ring, the meters and the links (R312, R319, R322, R266). -/
structure Platform where
  resetting : Option Nat
  safe      : Bool
  temper    : BitVec 8
  temperStep : BitVec 4
  temperPass : Bool
  /-- Temper has ended. -/
  temperDone : Bool
  /-- The compute dies are out of reset, and GTC counts (Table 17-1). -/
  released  : Bool
  dieLive   : BitVec 17
  dieMap    : Vector (Bool × BitVec 5) 17
  /-- The cycle in which each entry of the die map was last written. -/
  dieMapAt  : Vector Nat 17
  evqBase   : Word
  evqSize   : BitVec 5
  evqProd   : BitVec 32
  evqCons   : BitVec 32
  evqOvf    : Bool
  reserve   : List FaultEvent
  dropped   : List Dropped
  meters    : Vector Word 5
  ebud      : Word
  /-- A value of EBUD_SET that takes effect in the next cycle. -/
  ebudNext  : Option Word
  /-- The meter total at the last window end, and the measured power in milliwatts. -/
  windowSum : Nat
  windowAt  : Nat
  measured  : Nat
  emergency : Bool
  outlet    : BitVec 8
  hottest   : BitVec 8
  /-- Since when every reading has been at or below 95 °C and 55 °C (Table 17-4). -/
  coolSince : Option Nat
  /-- The words of the mailbox areas of BAR 4 by their offsets: what the host wrote, and the last response. -/
  request   : List (Nat × Word)
  response  : List Word
  /-- The request that a doorbell has handed to MMP core 0 (R269), and whether its cycle is over. -/
  rung      : Option (Bool × Instr)
  /-- Links that are up; virtual channels that are stopped. -/
  linksUp   : BitVec 48
  stopped   : List (BitVec 6 × BitVec 3)
  /-- The packages of the installation. -/
  nodes     : List (BitVec 21)
  deriving DecidableEq, Repr

/-- What leaves the package for the host, or for another package. -/
inductive OutMsg where
  | msix (vector : Nat)
  | mailbox (seq : BitVec 16) (status : BitVec 8) (words : List Word)
  | event (bus : Word) (words : List Word)
  | hostWrite (bus : Word) (bytes : List Byte)
  /-- An access of another package's memory; `det` for a transfer timed for a communication step. -/
  | request (node : BitVec 21) (fid : Nat) (unit : AccessUnit) (det : Bool)
  | pin (req : Nat) (asid : BitVec 12) (addr : Word) (pages : Nat)
  | record (node : BitVec 21) (words : List Word) (src : Origin)
  | reserve (node : BitVec 21) (rid : Nat)
  | commit (node : BitVec 21) (rid : Nat)
  | handle (node : BitVec 21) (launcher : Nat) (h : Word) (reason : BitVec 8)
  | cancel (node : BitVec 21) (h : Word) (tag : Nat)
  | carry (ch : Chan) (k : Nat) (c : Carry)
  | counterAdd (node : BitVec 21) (space : BitVec 2) (asid : BitVec 12) (addr amt : Word)
  | arrive (rid : Nat) (level : BitVec 3)
  /-- A reservation stands, and a part of a record has ended: to NODE0, with its number of the record. -/
  | reserved (node : BitVec 21) (rid : Nat)
  | partDone (node : BitVec 21) (rid : Nat)
  /-- To a package that holds or may hold what it names: RECORD_ABORT is passed on, or a withdrawal (R295, R298). -/
  | abort (node : BitVec 21) (tgt : AbortTarget) (post : Bool)
  /-- To NODE0: the package has bound its part. To the others: a start pulse has left the origin tile in a cycle (R297). -/
  | bound (node : BitVec 21) (rid : Nat)
  | pulse (node : BitVec 21) (rid origin left : Nat)
  deriving DecidableEq, Repr

/-! ### The whole state -/

/-- Where the syllable under execution stands. -/
structure Cursor where
  tile : TileId
  slot : SlotNo
  pos  : Pos
  deriving DecidableEq, Repr

/-- What the `.ctx` directive of an entry procedure gives (R82, R141), as the loader has handed it to the scheduler. -/
structure ProcInfo where
  asid   : BitVec 12
  entry  : Word
  spmode : Word
  keys   : Word
  deriving DecidableEq, Repr

/-- One package. -/
structure State where
  gtc     : Word
  /-- The next tile action of this cycle: 2·t is ISSUE_SELECT of tile t and 2·t + 1 its bundle presentation. -/
  turn    : Nat
  /-- The admissions of this cycle have been made: what happens later in it counts from the next (Table 15-5). -/
  admitted : Bool
  /-- Events from outside, and events whose time the spec leaves open, each with its cycle. -/
  agenda  : List (Nat × Instr)
  cur     : Cursor
  /-- How many free values have been drawn (the model's own field). -/
  drawn   : Nat
  /-- The next number for a new object (the model's own field). -/
  nextId  : Nat
  node    : BitVec 21
  tiles   : List (Nat × Tile)
  hbm     : Memory
  lpddr   : Memory
  /-- The code of each address space. -/
  code    : List (Nat × Memory)
  /-- The `.ctx` values of entry procedures. -/
  procs   : List ProcInfo
  bad     : List BadWord
  flights : List Flight
  /-- Operations that happen before the last write of an aligned 8-byte unit and are not yet performed (R195). -/
  marks   : List (Home × List Nat)
  mcasts  : List Mcast
  watches : List Watch
  barriers : List Barrier
  pulses  : List Pulse
  scans   : List ScanOp
  /-- Carries that state channels hold until their operations start (R440). -/
  carries : List HeldCarry
  groups  : List Group
  tongs   : List TongsItem
  records : List Record
  relayed : List Relay
  queues  : Vector LaunchQueue 8
  /-- The launch queue from which the next record is taken, of those that hold one (R289). -/
  rotation : BitVec 3
  /-- The next sequence number of a handle, and the next acceptance number. -/
  nextSeq : BitVec 32
  mmp     : Mmp
  platform : Platform
  /-- What has left the package, and how much of it before the present cycle; what a stopped virtual channel holds. -/
  out     : List OutMsg
  outAt   : Nat
  linkHeld : List OutMsg
  deriving DecidableEq, Repr

/-! ### Reset -/

def Quire.zero : Quire := { bits := 0, nar := false, ovf := false }

/-- Registers at binding (R23), but for the values that the record gives. -/
def Regs.reset : Regs :=
  { s := Vector.replicate 64 0
    p := 1
    v := Vector.replicate 32 0
    m := Vector.replicate 16 (BitVec.allOnes 64)
    q := Vector.replicate 16 Quire.zero
    k := Vector.replicate 8 0 }

def Special.reset : Special :=
  { fstat := 0, qcfg := 0, lstall := 0, spmerr := 0, keys := 0, spmode := 0, tvec := 0, tcause := 0, epc := 0
    tval := 0, tdm := 0, qstatWritten := false }

def Queue.empty : Queue := { word := 0, prod := 0, cons := 0, held := [], resv := [], latch := 0, latched := false }

def Replica.none : Replica :=
  { group := 0, stack := 0, sig := 0, count := 0, buffer := [], freed := 0, cuts := [], inject := Option.none
    direct := false, since := 0 }

def LogPos.none : LogPos := { active := false, replay := false, base := 0, len := 0, pos := 0, scans := [] }

/-- Every virtual die on the physical die of its number (Table 16-7). -/
def straightMap : Vector (Bool × BitVec 5) 17 := Vector.ofFn (fun i : Fin 17 => (true, BitVec.ofNat 5 i.val))

/-- A Free context: every register at its value of reset (DESIGN CHOICE, unsafe; log entry 5). -/
def Context.reset : Context :=
  { uid := 0, status := .free, rid := 0, asid := 0, prio := 0, det := false, nlev := 0
    index := Vector.replicate 8 0, sup := false, pc := 0, bcnt := 0, regs := Regs.reset, special := Special.reset
    landing := [], redirects := [], shadow := none, loops := [], queues := Vector.replicate 16 Queue.empty
    windows := Vector.replicate 8 0, events := [], lostEvent := false, answer := none
    divider := Vector.replicate 2 none, age := 0, earliest := 0, stalled := none, committed := false
    overflow := none, poisoned := none, barriers := Vector.replicate 8 0, released := false, observed := none, cleared := none
    binding := none, promises := Vector.replicate 4 none, wakeLost := false, deferred := [], fenceRel := []
    acquiring := [], known := [], replica := Replica.none, log := LogPos.none, flat := 0, sstep := 0, pulseAt := none, owed := []
    saving := false, dieMap := straightMap }

def Slot.reset : Slot := { primary := Context.reset, second := Context.reset, moving := 0 }

def Channel.reset : Channel := { run := none, prev := 0, freeAt := 0 }

def Mxu.reset : Mxu :=
  { owner := none, lastAsid := none, acc := [], store := [], loaded := [], run := none, ops := [], busyUntil := 0
    clearing := none }

def Geu.reset : Geu := { queue := [], running := none, startAt := 0 }

def Tile.reset : Tile :=
  { scratch := [], slots := Vector.replicate 4 Slot.reset, lreq := 0, xreq := 0, counted := (0, 0, 0), descs := [], entries := []
    buffer := [], channels := Vector.replicate 4 Channel.reset, done := [], mxu := Mxu.reset, geu := Geu.reset
    comparators := Vector.replicate 8 none, ending := [], tokens := [], scans := Vector.replicate 4 0
    dividers := Vector.replicate 2 (0, 0), granted := 4 }

def LaunchQueue.reset : LaunchQueue := { slots := [], prod := 0, cons := 0, err := false, tags := [], withdrawn := [] }

def Mmp.reset : Mmp :=
  { asids := [], faults := [], shoots := [], hints := [], pins := [], nextFrame := 0, freeFrames := [], nextPage := 0
    freePages := [], used := Vector.replicate 8 0, tables := [], pending := none }

/-- Table 16-7 and Table 17-5: Temper has not ended, and the compute dies are in reset. The spec gives no result of Temper:
every die is live and every link up (DESIGN CHOICE, unsafe; log entry 3). -/
def Platform.reset : Platform :=
  { resetting := none, safe := false, temper := 0, temperStep := 0, temperPass := false, temperDone := false
    released := false, dieLive := BitVec.allOnes 17
    dieMap := straightMap, dieMapAt := Vector.replicate 17 0
    evqBase := 0, evqSize := 0, evqProd := 0, evqCons := 0, evqOvf := false, reserve := [], dropped := []
    meters := Vector.replicate 5 0, ebud := 0x0C35002AB980, ebudNext := none, windowSum := 0, windowAt := 0
    measured := 0, emergency := false, outlet := 0, hottest := 0, coolSince := none, request := [], response := [], rung := none, linksUp := BitVec.allOnes 48, stopped := []
    nodes := [0] }

/-- The package at cold reset, as Temper begins: GTC is 0 and does not count before the compute dies are released, every
context is Free, and nothing has been launched (R88, R315, R317). The event COLD_RESET brings the result of Temper. -/
def State.reset : State :=
  { gtc := 0, turn := 0, agenda := [], cur := { tile := 0, slot := 0, pos := .sa }, drawn := 0, nextId := 1, node := 0
    tiles := [], hbm := [], lpddr := [], code := [], procs := [], bad := [], flights := [], marks := [], mcasts := [], watches := []
    barriers := [], pulses := [], scans := [], carries := [], groups := [], tongs := [], records := [], relayed := [], admitted := false
    queues := Vector.replicate 8 LaunchQueue.reset, rotation := 0, nextSeq := 1, mmp := Mmp.reset, platform := Platform.reset
    out := [], outAt := 0, linkHeld := [] }

end Sys2Proof.Machine
end

