-- ==== Sys2Proof/Machine/Formats.lean ====
section
/-! DEFINITION. The number formats of R104 to R123: exact values, decoding, the one rounding `roundT` (R115), the
conversion `convert` (R119, R120), lane arithmetic with its special cases (R113, R114), and the functions of R122.
A finite value is an integer times a power of two; arithmetic on it is exact. -/

namespace Sys2Proof.Machine

/-! ### Flags (R117) -/

abbrev Flags := BitVec 7

def flInx : Flags := 0x01
def flUnf : Flags := 0x02
def flOvf : Flags := 0x04
def flDz : Flags := 0x08
def flInv : Flags := 0x10
def flClmp : Flags := 0x20
def flNar : Flags := 0x40

/-- A bit string and the flags that go with it. -/
abbrev Rounded := Nat × Flags

/-! ### Exact values -/

/-- m·2^e. -/
structure Dyadic where
  m : Int
  e : Int
  deriving DecidableEq, Repr

/-- 2^n for a nonnegative n, and 1 otherwise. -/
def pow2 (n : Int) : Int := 2 ^ n.toNat

/-- The integer x·2^k; for a negative k the division is exact where it is used. -/
def shiftInt (x : Int) (k : Int) : Int := if 0 ≤ k then x * pow2 k else x / pow2 (-k)

def Dyadic.add (a b : Dyadic) : Dyadic :=
  let e := min a.e b.e
  { m := a.m * pow2 (a.e - e) + b.m * pow2 (b.e - e), e := e }

def Dyadic.mul (a b : Dyadic) : Dyadic := { m := a.m * b.m, e := a.e + b.e }

def Dyadic.neg (a : Dyadic) : Dyadic := { a with m := -a.m }

/-- A decoded operand. `zero` carries the sign of an IEEE-style zero. -/
inductive Val where
  | zero (neg : Bool)
  | fin (d : Dyadic)
  | inf (neg : Bool)
  | nan (neg : Bool)
  | nar
  deriving DecidableEq, Repr

def Val.isNan : Val → Bool
  | .nan _ | .nar => true
  | .zero _ | .fin _ | .inf _ => false

def Val.neg : Val → Val
  | .zero s => .zero (!s)
  | .fin d => .fin d.neg
  | .inf s => .inf (!s)
  | .nan s => .nan s
  | .nar => .nar

/-! ### Format parameters -/

/-- Exponent bits, fraction bits and bias of an IEEE-style format (Table 5-1, Table 5-3). -/
structure Ieee where
  we : Nat
  m  : Nat
  b  : Nat

def Fmt.ieee : Fmt → Option Ieee
  | .f32 => some ⟨8, 23, 127⟩
  | .bf16 => some ⟨8, 7, 127⟩
  | .e4m3 => some ⟨4, 3, 7⟩
  | .e5m2 => some ⟨5, 2, 15⟩
  | .int _ _ | .tap _ _ => none

/-- Width of a format in bits. -/
def fmtBits (f : Fmt) : Nat := f.width.bits

/-- Element size of a format in bytes. -/
def fmtBytes (f : Fmt) : Nat := f.width.bytes

def isTap : Fmt → Bool
  | .tap _ _ => true
  | .int _ _ | .f32 | .bf16 | .e4m3 | .e5m2 => false

/-- The canonical NaN of Table 5-3 with a sign (R111); NaR of a tapered format; 0 of an integer format. -/
def canonicalNan (f : Fmt) (neg : Bool) : Nat :=
  let s (w : Nat) : Nat := if neg then 2 ^ (w - 1) else 0
  match f with
  | .f32 => 0x7FC00000 + s 32
  | .bf16 => 0x7FC0 + s 16
  | .e4m3 => 0x7F + s 8
  | .e5m2 => 0x7E + s 8
  | .tap w _ => 2 ^ (w.bits - 1)
  | .int _ _ => 0

/-- The magnitude string of infinity; in E4M3 that of NaN, which overflow gives (R115). -/
def infMag : Fmt → Nat
  | .f32 => 0x7F800000
  | .bf16 => 0x7F80
  | .e4m3 => 0x7F
  | .e5m2 => 0x7C
  | .int _ _ | .tap _ _ => 0

/-- The magnitude string of the largest finite value (Table 5-3). -/
def maxFiniteMag : Fmt → Nat
  | .f32 => 0x7F7FFFFF
  | .bf16 => 0x7F7F
  | .e4m3 => 0x7E
  | .e5m2 => 0x7B
  | .tap w _ => 2 ^ (w.bits - 1) - 1
  | .int _ _ => 0

/-- A magnitude string with a sign in the top bit. -/
def withSign (w : Nat) (neg : Bool) (u : Nat) : Nat := if neg then u + 2 ^ (w - 1) else u

/-! ### Decoding -/

/-- The length of the run of bits equal to `rb` in the n bits of u from bit n − 1 downward. -/
def runLength (u : Nat) (rb : Bool) : Nat → Nat
  | 0 => 0
  | n + 1 => if u.testBit n == rb then runLength u rb n + 1 else 0

/-- DecodeT (R106). -/
def decodeT (bits n es : Nat) : Val :=
  if bits = 0 then .zero false
  else if bits = 2 ^ (n - 1) then .nar
  else
    let s := bits.testBit (n - 1)
    let u := if s then 2 ^ n - bits else bits
    let rb := u.testBit (n - 2)
    let m := runLength u rb (n - 1)
    let k : Int := if rb then (m : Int) - 1 else -(m : Int)
    let w := n - 2 - m
    let rest := u % 2 ^ w
    let e : Nat := if es ≤ w then rest / 2 ^ (w - es) else rest * 2 ^ (es - w)
    let fb := w - es
    let mag : Int := if es ≤ w then 2 ^ fb + rest % 2 ^ fb else 1
    let ex : Int := k * 2 ^ es + e - (if es ≤ w then fb else 0)
    .fin { m := if s then -mag else mag, e := ex }

/-- Decoding of an IEEE-style string (R110, Table 5-3). -/
def decodeIeee (f : Fmt) (p : Ieee) (bits : Nat) : Val :=
  let s := bits.testBit (p.we + p.m)
  let ef := (bits >>> p.m) % 2 ^ p.we
  let fr := bits % 2 ^ p.m
  let sg (x : Nat) : Int := if s then -(x : Int) else x
  if ef = 2 ^ p.we - 1 ∧ f ≠ .e4m3 then (if fr = 0 then .inf s else .nan s)
  else if ef = 2 ^ p.we - 1 ∧ fr = 2 ^ p.m - 1 then .nan s
  else if ef = 0 then
    if fr = 0 then .zero s else .fin { m := sg fr, e := 1 - (p.b : Int) - p.m }
  else .fin { m := sg (2 ^ p.m + fr), e := (ef : Int) - p.b - p.m }

/-- The signed value of w bits. -/
def signedOf (w x : Nat) : Int := if x.testBit (w - 1) then (x : Int) - 2 ^ w else x

/-- The value that a bit string names in a format. -/
def decodeFmt (f : Fmt) (bits : Nat) : Val :=
  match f with
  | .tap w es => decodeT bits w.bits es.toNat
  | .int sg w =>
    let x : Int := if sg then signedOf w.bits bits else bits
    if x = 0 then .zero false else .fin { m := x, e := 0 }
  | .f32 => decodeIeee .f32 ⟨8, 23, 127⟩ bits
  | .bf16 => decodeIeee .bf16 ⟨8, 7, 127⟩ bits
  | .e4m3 => decodeIeee .e4m3 ⟨4, 3, 7⟩ bits
  | .e5m2 => decodeIeee .e5m2 ⟨5, 2, 15⟩ bits

/-! ### Rounding (R115, R116) -/

/-- Nearest-even, or stochastic with 32 random bits. -/
inductive RMode where
  | nearest
  | stochastic (rnd : BitVec 32)
  deriving DecidableEq, Repr

/-- A truncated magnitude string with its tail: r/2^k, and a nonzero rest below that if `sticky`. -/
structure CutResult where
  u : Nat
  r : Nat
  k : Nat
  sticky : Bool
  flags : Flags

/-- x·2^s as an integer part and a tail, for a natural x. -/
def cutShift (x : Nat) (s : Int) (sticky : Bool) : CutResult :=
  if 0 ≤ s then { u := x <<< s.toNat, r := 0, k := 0, sticky := sticky, flags := 0 }
  else
    let k := (-s).toNat
    { u := x >>> k, r := x % 2 ^ k, k := k, sticky := sticky, flags := 0 }

/-- The exact value is mag·2^e, or lies strictly between mag·2^e and (mag + 1)·2^e if `sticky`; mag is not 0. -/
structure Exact where
  mag : Nat
  e : Int
  sticky : Bool
  deriving DecidableEq, Repr

/-- Cut of the tapered class (Table 5-5). -/
def cutTap (n es : Nat) (x : Exact) : CutResult :=
  let l := x.mag.log2
  let t : Int := l + x.e
  let top : Int := (n - 2 : Nat) * 2 ^ es
  let power := x.mag = 2 ^ l ∧ x.sticky = false
  if top ≤ t then
    { u := 2 ^ (n - 1) - 1, r := 0, k := 0, sticky := false
      flags := if t = top ∧ power then 0 else flClmp ||| flInx }
  else if t < -top ∨ (t = -top ∧ power) then
    { u := 1, r := 0, k := 0, sticky := false
      flags := if t = -top ∧ power then 0 else flClmp ||| flInx }
  else
    let k : Int := t / 2 ^ es
    let e : Nat := (t - k * 2 ^ es).toNat
    let regime : Nat := if 0 ≤ k then (2 ^ (k.toNat + 1) - 1) * 2 else 1
    let rl : Nat := if 0 ≤ k then k.toNat + 2 else (-k).toNat + 1
    let full := ((regime <<< es) + e) <<< l ||| (x.mag - 2 ^ l)
    let total := rl + es + l
    cutShift full ((n - 1 : Nat) - (total : Int)) x.sticky

/-- Cut of the IEEE-style class (Table 5-5). -/
def cutIeee (p : Ieee) (x : Exact) : CutResult :=
  let l := x.mag.log2
  let t : Int := l + x.e
  if 1 - (p.b : Int) ≤ t then
    let c := cutShift x.mag ((p.m : Int) - l) x.sticky
    { c with u := (t + p.b - 1).toNat * 2 ^ p.m + c.u }
  else cutShift x.mag (x.e + p.b - 1 + p.m) x.sticky

/-- Cut of the integer class. -/
def cutInt (x : Exact) : CutResult := cutShift x.mag x.e x.sticky

def CutResult.inexact (c : CutResult) : Bool := c.r != 0 || c.sticky

/-- The rounding step of R115 on a cut: the string and whether INX is set. -/
def CutResult.round (c : CutResult) (mode : RMode) : Nat × Flags :=
  if c.inexact then
    let up : Bool := match mode with
      | .nearest => decide (2 ^ c.k < 2 * c.r) ||
          (decide (2 * c.r = 2 ^ c.k) && (c.sticky || c.u.testBit 0) && c.k != 0)
      | .stochastic rnd => decide (2 ^ 32 ≤ (c.r <<< 32) >>> c.k + rnd.toNat)
    (if up then c.u + 1 else c.u, c.flags ||| flInx)
  else (c.u, c.flags)

/-- Apply of the IEEE-style class (Table 5-5). -/
def applyIeee (f : Fmt) (p : Ieee) (neg inexact : Bool) (u : Nat) (fl : Flags) : Rounded :=
  let w := fmtBits f
  if infMag f ≤ u then (withSign w neg (infMag f), fl ||| flOvf)
  else (withSign w neg u, if inexact && decide (u < 2 ^ p.m) then fl ||| flUnf else fl)

/-- RoundT of a nonzero real of a given sign to a Float format (R115). -/
def roundExact (f : Fmt) (mode : RMode) (neg : Bool) (x : Exact) : Rounded :=
  match f with
  | .tap w es =>
    let c := cutTap w.bits es.toNat x
    let (u, fl) := c.round mode
    (if neg then (2 ^ w.bits - u) % 2 ^ w.bits else u, fl)
  | .f32 | .bf16 | .e4m3 | .e5m2 =>
    match Fmt.ieee f with
    | none => (0, 0)
    | some p =>
      let c := cutIeee p x
      let (u, fl) := c.round mode
      applyIeee f p neg c.inexact u fl
  | .int _ _ => (0, 0)

/-- RoundT of an exact dyadic to a Float format: +0 for 0 (R115). -/
def roundT (f : Fmt) (mode : RMode) (d : Dyadic) : Rounded :=
  if d.m = 0 then (0, 0)
  else roundExact f mode (decide (d.m < 0)) { mag := d.m.natAbs, e := d.e, sticky := false }

/-- RoundT to an integer: the exact integer and its flags (R115, integer class). -/
def roundToInt (mode : RMode) (d : Dyadic) : Int × Flags :=
  if d.m = 0 then (0, 0)
  else
    let (u, fl) := (cutInt { mag := d.m.natAbs, e := d.e, sticky := false }).round mode
    (if d.m < 0 then -(u : Int) else u, fl)

/-! ### Conversion (R119, R120) -/

/-- The range of an integer format. -/
def intMin (sg : Bool) (w : Nat) : Int := if sg then -(2 ^ (w - 1)) else 0
def intMax (sg : Bool) (w : Nat) : Int := if sg then 2 ^ (w - 1) - 1 else 2 ^ w - 1

/-- The low w bits of an integer. -/
def wrapInt (w : Nat) (x : Int) : Nat := (x % (2 ^ w : Nat)).toNat

/-- Special of Table 5-7. -/
def specialConv (x : Val) (dst : Fmt) (sat : Bool) : Rounded :=
  let w := fmtBits dst
  match x with
  | .zero neg => (match dst with
    | .f32 | .bf16 | .e5m2 | .e4m3 => withSign w neg 0
    | .tap _ _ | .int _ _ => 0, 0)
  | .inf neg => match dst with
    | .f32 | .bf16 | .e5m2 =>
      if sat then (withSign w neg (maxFiniteMag dst), flOvf ||| flClmp) else (withSign w neg (infMag dst), 0)
    | .e4m3 =>
      if sat then (withSign 8 neg 0x7E, flOvf ||| flClmp) else (withSign 8 neg 0x7F, flOvf)
    | .tap _ _ => (canonicalNan dst false, flInv ||| flNar)
    | .int sg w' =>
      if sat then (wrapInt w'.bits (if neg then intMin sg w'.bits else intMax sg w'.bits), flInv ||| flClmp)
      else (2 ^ (w'.bits - 1), flInv)
  | .nan neg => match dst with
    | .f32 | .bf16 | .e5m2 | .e4m3 => (canonicalNan dst neg, 0)
    | .tap _ _ => (canonicalNan dst false, flInv ||| flNar)
    | .int _ w' => (if sat then 0 else 2 ^ (w'.bits - 1), flInv)
  | .nar => match dst with
    | .f32 | .bf16 | .e5m2 | .e4m3 => (canonicalNan dst false, flInv)
    | .tap _ _ => (canonicalNan dst false, 0)
    | .int _ w' => (if sat then 0 else 2 ^ (w'.bits - 1), flInv)
  | .fin _ => (0, 0)

/-- What SAT makes of a rounded IEEE-style result (R119, R134). -/
def saturate (f : Fmt) (sat neg : Bool) (r : Rounded) : Rounded :=
  if sat && !isTap f && decide (r.1 % 2 ^ (fmtBits f - 1) = infMag f) then
    (withSign (fmtBits f) neg (maxFiniteMag f), r.2 ||| flClmp)
  else r

/-- Convert (R119). -/
def convertVal (x : Val) (src dst : Fmt) (sat : Bool) (mode : RMode) : Rounded :=
  match x with
  | .fin d => match dst with
    | .int sg w =>
      let (y, fl) := roundToInt mode d
      if intMin sg w.bits ≤ y ∧ y ≤ intMax sg w.bits then (wrapInt w.bits y, fl)
      else
        let bound := if y < 0 then intMin sg w.bits else intMax sg w.bits
        if src.isInt then
          if sat then (wrapInt w.bits bound, fl ||| flClmp) else (wrapInt w.bits y, fl)
        else if sat then (wrapInt w.bits bound, fl ||| flInv ||| flClmp)
        else (2 ^ (w.bits - 1), fl ||| flInv)
    | .tap _ _ => roundT dst mode d
    | .f32 | .bf16 | .e4m3 | .e5m2 => saturate dst sat (decide (d.m < 0)) (roundT dst mode d)
  | .zero _ | .inf _ | .nan _ | .nar => specialConv x dst sat

def convert (bits : Nat) (src dst : Fmt) (sat : Bool) (mode : RMode) : Rounded :=
  convertVal (decodeFmt src bits) src dst sat mode

/-- A lane of VCVT: equal formats return the value, with a NaN made canonical (R400). -/
def convertLane (bits : Nat) (src dst : Fmt) (sat : Bool) (mode : RMode) : Rounded :=
  if src = dst then
    match decodeFmt src bits with
    | .nan neg => (canonicalNan dst neg, 0)
    | .zero _ | .fin _ | .inf _ | .nar => (bits, 0)
  else convert bits src dst sat mode

/-! ### Lane arithmetic (R113, R114) -/

/-- The NaN that an operation yields (R111), or NaR. -/
def nanResult (f : Fmt) (fl : Flags) : Rounded := (canonicalNan f false, fl)

/-- A zero of a given sign. -/
def zeroResult (f : Fmt) (neg : Bool) : Nat := if isTap f then 0 else withSign (fmtBits f) neg 0

/-- Sum of a value and an optional addend, rounded once (Table 5-4). -/
def addRound (f : Fmt) (x y : Val) : Rounded :=
  match x, y with
  | .nan _, _ | .nar, _ | _, .nan _ | _, .nar => nanResult f 0
  | .inf a, .inf b => if a = b then (withSign (fmtBits f) a (infMag f), 0) else nanResult f flInv
  | .inf a, _ => (withSign (fmtBits f) a (infMag f), 0)
  | _, .inf b => (withSign (fmtBits f) b (infMag f), 0)
  | .zero a, .zero b => (zeroResult f (a && b), 0)
  | .zero _, .fin d => roundT f .nearest d
  | .fin d, .zero _ => roundT f .nearest d
  | .fin a, .fin b => roundT f .nearest (a.add b)

/-- The exact product, or NaN with INV for 0 · ∞. -/
def mulVal (x y : Val) : Val × Flags :=
  match x, y with
  | .nan _, _ | .nar, _ | _, .nan _ | _, .nar => (.nan false, 0)
  | .inf a, .inf b => (.inf (a != b), 0)
  | .inf _, .zero _ | .zero _, .inf _ => (.nan false, flInv)
  | .inf a, .fin d => (.inf (a != decide (d.m < 0)), 0)
  | .fin d, .inf b => (.inf (b != decide (d.m < 0)), 0)
  | .zero a, .zero b => (.zero (a != b), 0)
  | .zero a, .fin d => (.zero (a != decide (d.m < 0)), 0)
  | .fin d, .zero b => (.zero (b != decide (d.m < 0)), 0)
  | .fin a, .fin b => (.fin (a.mul b), 0)

/-- A value rounded to a format without an addend. -/
def roundVal (f : Fmt) (x : Val) : Rounded :=
  match x with
  | .zero s => (zeroResult f s, 0)
  | .fin d => roundT f .nearest d
  | .inf s => (withSign (fmtBits f) s (infMag f), 0)
  | .nan _ | .nar => nanResult f 0

def laneAdd (f : Fmt) (a b : Nat) : Rounded := addRound f (decodeFmt f a) (decodeFmt f b)

def laneSub (f : Fmt) (a b : Nat) : Rounded := addRound f (decodeFmt f a) (decodeFmt f b).neg

def laneMul (f : Fmt) (a b : Nat) : Rounded :=
  let (p, fl) := mulVal (decodeFmt f a) (decodeFmt f b)
  let (r, fl') := roundVal f p
  (r, fl ||| fl')

/-- a·b + c or a·b − c, rounded once (R394). A NaN operand comes before 0 · ∞ (Table 5-4). -/
def laneFma (f : Fmt) (sub : Bool) (a b c : Nat) : Rounded :=
  let z := decodeFmt f c
  if z.isNan then nanResult f 0
  else
    let (p, fl) := mulVal (decodeFmt f a) (decodeFmt f b)
    let (r, fl') := addRound f p (if sub then z.neg else z)
    (r, fl ||| fl')

/-- The order of IEEE-style values, with −0 below +0; not for NaN. -/
def ieeeLt (x y : Val) : Bool :=
  match x, y with
  | .inf a, .inf b => a && !b
  | .inf a, _ => a
  | _, .inf b => !b
  | .zero a, .zero b => a && !b
  | .zero _, .fin d => decide (0 < d.m)
  | .fin d, .zero _ => decide (d.m < 0)
  | .fin a, .fin b => decide ((a.add b.neg).m < 0)
  | .nan _, _ | .nar, _ | _, .nan _ | _, .nar => false

/-- Larger or smaller by R395: always the string of one operand, or the canonical NaN. -/
def laneMaxMin (f : Fmt) (wantMax : Bool) (a b : Nat) : Nat :=
  match f with
  | .int true w => if (signedOf w.bits a < signedOf w.bits b) == wantMax then b else a
  | .int false _ => if (decide (a < b)) == wantMax then b else a
  | .tap w _ => if (signedOf w.bits a < signedOf w.bits b) == wantMax then b else a
  | .f32 | .bf16 | .e4m3 | .e5m2 =>
    let x := decodeFmt f a
    let y := decodeFmt f b
    if x.isNan || y.isNan then canonicalNan f false
    else if ieeeLt x y == wantMax then b else a

/-- |a| by R395. -/
def laneAbs (f : Fmt) (a : Nat) : Nat :=
  let w := fmtBits f
  match f with
  | .int _ _ | .tap _ _ => if a.testBit (w - 1) then (2 ^ w - a) % 2 ^ w else a
  | .f32 | .bf16 | .e4m3 | .e5m2 =>
    if (decodeFmt f a).isNan then canonicalNan f false else a % 2 ^ (w - 1)

/-- −a by R395. -/
def laneNeg (f : Fmt) (a : Nat) : Nat :=
  let w := fmtBits f
  match f with
  | .int _ _ | .tap _ _ => (2 ^ w - a) % 2 ^ w
  | .f32 | .bf16 | .e4m3 | .e5m2 =>
    if (decodeFmt f a).isNan then canonicalNan f false
    else withSign w (!a.testBit (w - 1)) (a % 2 ^ (w - 1))

/-- The relation of VCMP on two lanes (R397). -/
def laneCmp (f : Fmt) (rel : CmpRel) (a b : Nat) : Bool :=
  let pick (un eq lt : Bool) : Bool :=
    match rel with
    | .eq => !un && eq
    | .ne => un || !eq
    | .lt => !un && lt
    | .le => !un && (lt || eq)
    | .gt => !un && !lt && !eq
    | .ge => !un && !lt
    | .un => un
  match f with
  | .int true w => pick false (a == b) (decide (signedOf w.bits a < signedOf w.bits b))
  | .int false _ => pick false (a == b) (decide (a < b))
  | .tap w _ =>
    let nar := 2 ^ (w.bits - 1)
    match rel with
    | .un => a == nar || b == nar
    | .eq | .ne | .lt | .le | .gt | .ge =>
      pick false (a == b) (decide (signedOf w.bits a < signedOf w.bits b))
  | .f32 | .bf16 | .e4m3 | .e5m2 =>
    let x := decodeFmt f a
    let y := decodeFmt f b
    let eq := match x, y with
      | .zero _, .zero _ => true
      | _, _ => a == b
    pick (x.isNan || y.isNan) eq (!eq && ieeeLt x y)

/-! ### Quires (R121, R132, R134) -/

/-- The signed integer of a quire. -/
def Quire.toInt (q : Quire) : Int := q.bits.toInt

/-- x·2^336 of an exact value: an integer for every term of Table 6-3. -/
def quireUnits (d : Dyadic) : Int := shiftInt d.m (d.e + 336)

/-- QuireAdd of an exact real in units of 2^−336 (R121); the Bool says whether this addition set OVF. -/
def Quire.addInt (q : Quire) (x : Int) : Quire × Bool :=
  let t := q.toInt + x
  let wide := decide (t < -(2 ^ 639) ∨ 2 ^ 639 - 1 < t)
  ({ q with bits := BitVec.ofInt 640 t, ovf := q.ovf || wide }, wide)

/-- QuireAdd of NaR (R121): the bits are left unchanged. -/
def Quire.addNar (q : Quire) : Quire := { q with nar := true }

def Quire.valid (q : Quire) : Bool := !q.nar && !q.ovf

/-- The invalid pattern: bit 639 set and every other bit 0 (R132). -/
def invalidPattern : QuireBits := BitVec.ofNat 640 (2 ^ 639)

/-- The image that QSAVE writes (R132). -/
def Quire.image (q : Quire) : QuireBits := if q.valid then q.bits else invalidPattern

/-- The quire that QREST lands (R132). -/
def Quire.ofImage (x : QuireBits) : Quire := { bits := x, nar := x == invalidPattern, ovf := false }

/-- QuireRound (R134). -/
def Quire.round (q : Quire) (f : Fmt) (sat : Bool) (mode : RMode) : Rounded :=
  if !q.valid then
    let (r, fl) := specialConv .nar f sat
    (r, if q.ovf then fl ||| flInv ||| (if isTap f then flNar else 0) else fl)
  else
    let x := q.toInt
    if x = 0 then (0, 0)
    else saturate f sat (decide (x < 0)) (roundT f mode { m := x, e := -336 })

/-- A term of QADD: the value in units of 2^−336, or none for NaN, NaR and infinities. -/
def addendUnits (f : Fmt) (bits : Nat) : Option Int :=
  match decodeFmt f bits with
  | .zero _ => some 0
  | .fin d => some (quireUnits d)
  | .inf _ | .nan _ | .nar => none

/-- A term of QDOT. A product of 0 and an infinity counts as NaN (R369). -/
def productUnits (f : Fmt) (a b : Nat) : Option Int :=
  match decodeFmt f a, decodeFmt f b with
  | .fin x, .fin y => some (quireUnits (x.mul y))
  | .zero _, .fin _ | .fin _, .zero _ | .zero _, .zero _ => some 0
  | .inf _, _ | .nan _, _ | .nar, _ | _, .inf _ | _, .nan _ | _, .nar => none

/-- One exact addition of all terms: NaR where some term is none. -/
def Quire.addTerms (q : Quire) (ts : List (Option Int)) : Quire × Bool :=
  match ts.foldl (fun (acc : Option Int) t =>
      match acc, t with
      | some a, some b => some (a + b)
      | _, _ => none) (some 0) with
  | none => (q.addNar, false)
  | some x => q.addInt x

/-- A block sum (R128): E in bits 191–176, M in bits 175–0. -/
abbrev BlockSum := BitVec 192

def BlockSum.m (b : BlockSum) : Int := (b.setWidth 176 : BitVec 176).toInt

def BlockSum.e (b : BlockSum) : Int := ((b >>> 176).setWidth 16 : BitVec 16).toInt

/-- Block NaR: M = −2^175. -/
def BlockSum.isNar (b : BlockSum) : Bool := b.m == -(2 ^ 175)

def BlockSum.nar : BlockSum := BitVec.ofNat 192 (2 ^ 175)

/-- The block sum m·2^e. A sum of −2^175 is written with the next exponent, so that no real value is block NaR. -/
def BlockSum.of (m e : Int) : BlockSum :=
  if m = -(2 ^ 175) then BitVec.ofInt 16 (e + 1) ++ BitVec.ofInt 176 (-(2 ^ 174)) else BitVec.ofInt 16 e ++ BitVec.ofInt 176 m

/-- A sum in units of 2^e, or block NaR. -/
def BlockSum.ofUnits (x : Option Int) (e : Int) : BlockSum :=
  match x with
  | some m => BlockSum.of m e
  | none => BlockSum.nar

/-- The 24 bytes of a block sum. -/
def BlockSum.bytes (b : BlockSum) : List Byte := bytesOfNat 24 b.toNat

/-- Promote (R129). -/
def Quire.promote (q : Quire) (b : BlockSum) : Quire :=
  if b.isNar then q.addNar else (q.addInt (shiftInt b.m (b.e + 336))).1

/-! ### Prefix sums (R413, R260) -/

/-- The state of an exact prefix: the sum in units of 2^−336, and what its terms held. -/
structure Prefix where
  sum : Int
  nan : Bool
  posInf : Bool
  negInf : Bool
  /-- Every term so far is −0. -/
  allNegZero : Bool
  any : Bool
  deriving DecidableEq, Repr

def Prefix.empty : Prefix :=
  { sum := 0, nan := false, posInf := false, negInf := false, allNegZero := true, any := false }

def Prefix.add (p : Prefix) (x : Val) : Prefix :=
  let p := { p with any := true }
  match x with
  | .zero s => { p with allNegZero := p.allNegZero && s }
  | .fin d => { p with sum := p.sum + quireUnits d, allNegZero := false }
  | .inf s => if s then { p with negInf := true, allNegZero := false } else { p with posInf := true, allNegZero := false }
  | .nan _ | .nar => { p with nan := true, allNegZero := false }

/-- The rounded result of a prefix (R413). -/
def Prefix.result (p : Prefix) (f : Fmt) : Rounded :=
  if p.nan then nanResult f 0
  else if p.posInf && p.negInf then nanResult f flInv
  else if p.posInf then (withSign (fmtBits f) false (infMag f), 0)
  else if p.negInf then (withSign (fmtBits f) true (infMag f), 0)
  else if p.sum = 0 then (zeroResult f (p.allNegZero && p.any), 0)
  else roundT f .nearest { m := p.sum, e := -336 }

/-! ### Functions of R122 -/

/-- Bits of the fixed-point numbers below. -/
def fpBits : Nat := 448

/-- ln 2 in units of 2^−448, truncated. -/
def ln2Fixed : Nat :=
  0xB17217F7D1CF79ABC9E3B39803F2F6AF40F343267298B62D8A0D175B8BAAFA2BE7B876206DEBAC98559552FB4AFA1B10ED2EAE35C1382144

/-- The square root of n, truncated, from a bound of 2^k on the root. -/
def sqrtFloor (n : Nat) : Nat → Nat → Nat
  | 0, r => r
  | k + 1, r => sqrtFloor n k (if (r + 2 ^ k) * (r + 2 ^ k) ≤ n then r + 2 ^ k else r)

def natSqrt (n : Nat) : Nat := sqrtFloor n (n.log2 / 2 + 1) 0

/-- Σ r^j/j! in units of 2^−448 for a fixed-point r below 1: `term` is r^j/j! for the j of the call. -/
def expSeries (r : Nat) : Nat → Nat → Nat → Nat
  | 0, _, _ => 0
  | n + 1, j, term => term + expSeries r n (j + 1) (((term * r) >>> fpBits) / (j + 1))

/-- e^r in units of 2^−448 for r below 1. -/
def expFixed (r : Nat) : Nat := expSeries r 120 0 (2 ^ fpBits)

/-- Σ u^(2j+1)/(2j+1): `pw` is u^(2j+1). -/
def atanhSeries (u2 : Nat) : Nat → Nat → Nat → Nat
  | 0, _, _ => 0
  | n + 1, j, pw => pw / (2 * j + 1) + atanhSeries u2 n (j + 1) ((pw * u2) >>> fpBits)

/-- A fixed-point number as an exact value with a rest. -/
def fixedExact (x : Nat) (e : Int) : Exact := { mag := x, e := e - fpBits, sticky := true }

/-- What a function yields: a signed exact value, or a special result. -/
inductive FnResult where
  | val (neg : Bool) (x : Exact)
  | bits (r : Rounded)
  deriving DecidableEq, Repr

/-- 1/x. -/
def fnRcp (d : Dyadic) : FnResult :=
  let a := d.m.natAbs
  let n := a.log2 + 96
  .val (decide (d.m < 0)) { mag := 2 ^ n / a, e := -(n : Int) - d.e, sticky := decide (2 ^ n % a ≠ 0) }

/-- A positive dyadic with an even exponent. -/
def evenExp (d : Dyadic) : Nat × Int :=
  if d.e % 2 = 0 then (d.m.natAbs, d.e) else (d.m.natAbs * 2, d.e - 1)

/-- √x of a positive x. -/
def fnSqrt (d : Dyadic) : FnResult :=
  let (a, e) := evenExp d
  let n := a * 2 ^ 192
  let q := natSqrt n
  .val false { mag := q, e := e / 2 - 96, sticky := decide (q * q ≠ n) }

/-- 1/√x of a positive x. -/
def fnRsq (d : Dyadic) : FnResult :=
  let (a, e) := evenExp d
  let k := a.log2 + 192
  let q := natSqrt (2 ^ (2 * k) / a)
  .val false { mag := q, e := -(e / 2) - k, sticky := decide (a * (q * q) ≠ 2 ^ (2 * k)) }

/-- 2^x: a power of two for an integer x; beyond ±1,024 every format is out of range. -/
def fnExp2 (d : Dyadic) : FnResult :=
  let l : Int := d.m.natAbs.log2 + d.e
  if 10 < l then .val false { mag := 1, e := if d.m < 0 then -2048 else 2048, sticky := true }
  else if 0 ≤ d.e then .val false { mag := 1, e := d.m * pow2 d.e, sticky := false }
  else
    let den : Int := pow2 (-d.e)
    let i := d.m / den
    let f := (d.m % den).toNat
    if f = 0 then .val false { mag := 1, e := i, sticky := false }
    else .val false (fixedExact (expFixed ((f * ln2Fixed) >>> (-d.e).toNat)) i)

/-- log2 x of a positive x; 0 for 1. -/
def fnLog2 (f : Fmt) (d : Dyadic) : FnResult :=
  let a := d.m.natAbs
  let l := a.log2
  let t : Int := l + d.e
  if a = 2 ^ l then
    if t = 0 then .bits (zeroResult f false, 0)
    else .val (decide (t < 0)) { mag := t.natAbs, e := 0, sticky := false }
  else
    let u := ((a - 2 ^ l) * 2 ^ fpBits) / (a + 2 ^ l)
    let ln := 2 * atanhSeries ((u * u) >>> fpBits) 160 0 u
    let lg : Int := (ln * 2 ^ fpBits) / ln2Fixed
    let x : Int := t * 2 ^ fpBits + lg
    if 0 ≤ x then .val false (fixedExact x.toNat 0) else .val true (fixedExact ((-x).toNat - 1) 0)

/-- e^−y of a positive y below 2^10, as a fixed-point number in (1/2, 1] and a power of two. -/
def expNeg (d : Dyadic) : Nat × Int :=
  let y : Nat := (shiftInt d.m (d.e + fpBits)).toNat
  let n := y / ln2Fixed
  let r := y % ln2Fixed
  (2 ^ (2 * fpBits) / expFixed r, -(n : Int))

/-- A positive dyadic bounded by 512. -/
def clampMag (d : Dyadic) : Dyadic :=
  let a : Dyadic := { d with m := d.m.natAbs }
  if 9 < (a.m.natAbs.log2 : Int) + a.e then { m := 512, e := 0 } else a

/-- tanh x: below 2^−40 the value lies within 2^−80 of |x| and below it. -/
def fnTanh (d : Dyadic) : FnResult :=
  let neg := decide (d.m < 0)
  let l : Int := d.m.natAbs.log2 + d.e
  if l < -40 then .val neg { mag := d.m.natAbs * 2 ^ 128 - 1, e := d.e - 128, sticky := true }
  else
    let c := clampMag d
    let (z, n) := expNeg { c with e := c.e + 1 }
    let k := (-n).toNat
    let one := 2 ^ (fpBits + k)
    .val neg { mag := ((one - z) * 2 ^ fpBits) / (one + z), e := -fpBits, sticky := true }

/-- 1/(1 + e^−x). -/
def fnSigm (d : Dyadic) : FnResult :=
  let (z, n) := expNeg (clampMag d)
  let k := (-n).toNat
  let one := 2 ^ (fpBits + k)
  if d.m < 0 then .val false { mag := (z * 2 ^ (fpBits + k)) / (one + z), e := -(fpBits + k : Int), sticky := true }
  else .val false { mag := (one * 2 ^ fpBits) / (one + z), e := -fpBits, sticky := true }

/-- The seven functions. -/
inductive Fn where
  | rcp | rsq | sqrt | exp2 | log2 | tanh | sigm
  deriving DecidableEq, Repr

/-- The special cases of Table 5-8. -/
def fnSpecial (fn : Fn) (f : Fmt) (x : Val) : FnResult :=
  let w := fmtBits f
  let bad (fl : Flags) : FnResult :=
    .bits (canonicalNan f false, if isTap f then fl ||| flNar else fl)
  let inf (neg : Bool) (fl : Flags) : FnResult := .bits (withSign w neg (infMag f), fl)
  let zero (neg : Bool) : FnResult := .bits (zeroResult f neg, 0)
  let one (neg : Bool) : FnResult := .val neg { mag := 1, e := 0, sticky := false }
  match x with
  | .nan _ | .nar => .bits (nanResult f 0)
  | .zero s =>
    match fn with
    | .rcp | .rsq => if isTap f then bad flDz else inf s flDz
    | .sqrt | .tanh => zero s
    | .exp2 => one false
    | .log2 => if isTap f then bad flDz else inf true flDz
    | .sigm => .val false { mag := 1, e := -1, sticky := false }
  | .inf s =>
    match fn with
    | .rcp => zero s
    | .rsq => if s then bad flInv else zero false
    | .sqrt => if s then bad flInv else inf false 0
    | .exp2 => if s then zero false else inf false 0
    | .log2 => if s then bad flInv else inf false 0
    | .tanh => one s
    | .sigm => if s then zero false else one false
  | .fin d =>
    match fn with
    | .rcp => fnRcp d
    | .rsq => if d.m < 0 then bad flInv else fnRsq d
    | .sqrt => if d.m < 0 then bad flInv else fnSqrt d
    | .exp2 => fnExp2 d
    | .log2 => if d.m < 0 then bad flInv else fnLog2 f d
    | .tanh => fnTanh d
    | .sigm => fnSigm d

/-- A correctly rounded function of one lane (R122, R123): INX also where the result leaves the range. -/
def laneFn (fn : Fn) (f : Fmt) (bits : Nat) : Rounded :=
  match fnSpecial fn f (decodeFmt f bits) with
  | .bits r => r
  | .val neg x =>
    let (r, fl) := roundExact f .nearest neg x
    (r, if fl &&& (flOvf ||| flClmp) ≠ 0 then fl ||| flInx else fl)

end Sys2Proof.Machine
end

