-- ==== Sys2Proof/Machine/Ops.lean ====
section
/-! DEFINITION. The named operations over the state: memory, tiles and contexts, registers, landing, blocking, trap
entry and return, queue counts, event records. Every meaning acts through them. -/

namespace Sys2Proof.Machine

/-! ### Lists by key -/

/-- The value of a key. -/
def assocGet {α : Type} (k : Nat) : List (Nat × α) → Option α
  | [] => none
  | (i, a) :: l => if i = k then some a else assocGet k l

/-- The list with a key set: in its place, or at the end. -/
def assocSet {α : Type} (k : Nat) (v : α) : List (Nat × α) → List (Nat × α)
  | [] => [(k, v)]
  | (i, a) :: l => if i = k then (k, v) :: l else (i, a) :: assocSet k v l

/-- The first element that a test accepts, replaced. -/
def replaceFirst {α : Type} (p : α → Bool) (f : α → α) : List α → List α
  | [] => []
  | a :: l => if p a then f a :: l else a :: replaceFirst p f l

/-! ### Memory -/

/-- The byte at an address: an unlisted address reads as 0 (DESIGN CHOICE, unsafe; log entry 2). -/
def Memory.read : Memory → Nat → Byte
  | [], _ => 0
  | (i, b) :: m, a => if i = a then b else Memory.read m a

/-- The list without an address. -/
def Memory.erase (a : Nat) : Memory → Memory
  | [] => []
  | (i, b) :: m => if i = a then m else (i, b) :: Memory.erase a m

/-- A nonzero byte put in its place by address. -/
def Memory.insert (a : Nat) (x : Byte) : Memory → Memory
  | [] => [(a, x)]
  | (i, b) :: m => if a < i then (a, x) :: (i, b) :: m else (i, b) :: Memory.insert a x m

/-- One byte written. -/
def Memory.write (m : Memory) (a : Nat) (x : Byte) : Memory :=
  if x = 0 then Memory.erase a m else Memory.insert a x (Memory.erase a m)

/-- n bytes from an address upward. -/
def Memory.readN (m : Memory) (a : Nat) : Nat → List Byte
  | 0 => []
  | n + 1 => Memory.read m a :: Memory.readN m (a + 1) n

/-- Bytes written from an address upward. -/
def Memory.writeN (m : Memory) (a : Nat) : List Byte → Memory
  | [] => m
  | x :: xs => Memory.writeN (Memory.write m a x) (a + 1) xs

/-- The canonical form: addresses strictly rising, no byte that is 0. -/
def Memory.wf : Memory → Bool
  | [] => true
  | [(_, x)] => x != 0
  | (i, x) :: (j, y) :: m => x != 0 && decide (i < j) && Memory.wf ((j, y) :: m)

/-! ### Tiles and contexts -/

def State.tile (s : State) (t : Nat) : Tile := (assocGet t s.tiles).getD Tile.reset

def State.setTile (s : State) (t : Nat) (x : Tile) : State := { s with tiles := assocSet t x s.tiles }

def State.modTile (s : State) (t : Nat) (f : Tile → Tile) : State := s.setTile t (f (s.tile t))

def Slot.ctx (sl : Slot) : Bank → Context
  | .primary => sl.primary
  | .second => sl.second

def Slot.setCtx (sl : Slot) (c : Context) : Bank → Slot
  | .primary => { sl with primary := c }
  | .second => { sl with second := c }

def Tile.slot (x : Tile) (k : SlotNo) : Slot := x.slots[k.toNat]'k.isLt

def Tile.setSlot (x : Tile) (k : SlotNo) (sl : Slot) : Tile := { x with slots := x.slots.set k.toNat sl k.isLt }

def Tile.ctx (x : Tile) (k : SlotNo) (b : Bank) : Context := (x.slot k).ctx b

def Tile.setCtx (x : Tile) (k : SlotNo) (b : Bank) (c : Context) : Tile := x.setSlot k ((x.slot k).setCtx c b)

def State.ctx (s : State) (t : Nat) (k : SlotNo) (b : Bank) : Context := (s.tile t).ctx k b

def State.setCtx (s : State) (t : Nat) (k : SlotNo) (b : Bank) (c : Context) : State :=
  s.setTile t ((s.tile t).setCtx k b c)

def State.modCtx (s : State) (t : Nat) (k : SlotNo) (b : Bank) (f : Context → Context) : State :=
  s.setCtx t k b (f (s.ctx t k b))

/-- The context of the cursor: the one whose syllable executes. -/
def State.me (s : State) : Context := s.ctx s.cur.tile.toNat s.cur.slot .primary

def State.setMe (s : State) (c : Context) : State := s.setCtx s.cur.tile.toNat s.cur.slot .primary c

def State.modMe (s : State) (f : Context → Context) : State := s.setMe (f s.me)

/-- The tile of the cursor. -/
def State.here (s : State) : Tile := s.tile s.cur.tile.toNat

def State.modHere (s : State) (f : Tile → Tile) : State := s.modTile s.cur.tile.toNat f

def State.atPos (s : State) (p : Pos) : State := { s with cur := { s.cur with pos := p } }

/-- The four slots. -/
def allSlots : List SlotNo := [0, 1, 2, 3]

/-- The bank in which a slot holds the context of a number. -/
def Tile.bankOf (x : Tile) (k : SlotNo) (uid : Nat) : Option Bank :=
  if (x.ctx k .primary).uid = uid then some .primary
  else if (x.ctx k .second).uid = uid then some .second
  else none

/-- The resident context of a number, changed; no change where it has left. -/
def State.modUid (s : State) (t : Nat) (k : SlotNo) (uid : Nat) (f : Context → Context) : State :=
  match (s.tile t).bankOf k uid with
  | some b => s.modCtx t k b f
  | none => s

/-- The resident context of a number. -/
def State.uidCtx (s : State) (t : Nat) (k : SlotNo) (uid : Nat) : Option Context :=
  ((s.tile t).bankOf k uid).map (s.ctx t k)

/-- Whether a status is one of a bound context (Table 2-3). -/
def CtxStatus.bound : CtxStatus → Bool
  | .free => false
  | .ready | .issuing | .blocked _ | .parked _ | .readyOut | .draining | .halted => true

/-- Resident (R22). -/
def CtxStatus.resident : CtxStatus → Bool
  | .free | .halted => false
  | .ready | .issuing | .blocked _ | .parked _ | .readyOut | .draining => true

/-- A number for a new object. -/
def State.fresh (s : State) : Nat × State := (s.nextId, { s with nextId := s.nextId + 1 })

/-- A 64-bit value that nothing constrains. -/
def State.freeWord (s : State) : Word × State := (Config.freeWord s.drawn, { s with drawn := s.drawn + 1 })

/-! ### Geometry (R10 to R15) -/

def tileX (t : Nat) : Nat := t % 32
def tileY (t : Nat) : Nat := t / 32 % 32

/-- The compute stack of a tile. -/
def stackOf (t : Nat) : Nat := 2 * (tileY t / 16) + tileX t / 16

/-- |a − b|. -/
def natDist (a b : Nat) : Nat := (a - b) + (b - a)

/-- The unloaded latency between two tiles (R15). -/
def hopLatency (a b : Nat) : Nat :=
  let e := (if tileX a / 16 = tileX b / 16 then 0 else 1) + (if tileY a / 16 = tileY b / 16 then 0 else 1)
  2 * (natDist (tileX a) (tileX b) + natDist (tileY a) (tileY b) - e) + 8 * e

/-- The unloaded latency from a tile to the IOD. -/
def iodLatency (t : Nat) : Nat := hopLatency t (31 * 32 + tileX t) + 12

/-! ### Registers of a context -/

/-- s0 reads 0 (Table 3-16). -/
def Context.sreg (c : Context) (r : SReg) : Word := if r = 0 then 0 else c.regs.s[r.toNat]'r.isLt

def Context.sreg5 (c : Context) (r : SReg5) : Word := c.sreg (r.setWidth 6)

/-- p0 reads 1. -/
def Context.preg (c : Context) (r : PReg) : Bool := if r = 0 then true else c.regs.p.getLsbD r.toNat

def Context.vreg (c : Context) (r : VReg) : Vec := c.regs.v[r.toNat]'r.isLt

/-- m0 reads all ones. -/
def Context.mreg (c : Context) (r : MReg) : MaskWord := if r = 0 then BitVec.allOnes 64 else c.regs.m[r.toNat]'r.isLt

def Context.qreg (c : Context) (r : QReg) : Quire := c.regs.q[r.toNat]'r.isLt

def Regs.setS (g : Regs) (r : SReg) (x : Word) : Regs := if r = 0 then g else { g with s := g.s.set r.toNat x r.isLt }

def setBit (p : BitVec 64) (i : Nat) (x : Bool) : BitVec 64 :=
  if x then p ||| (1#64 <<< i) else p &&& ~~~(1#64 <<< i)

def Regs.setP (g : Regs) (r : PReg) (x : Bool) : Regs := if r = 0 then g else { g with p := setBit g.p r.toNat x }

def Regs.setV (g : Regs) (r : VReg) (x : Vec) : Regs := { g with v := g.v.set r.toNat x r.isLt }

def Regs.setM (g : Regs) (r : MReg) (x : MaskWord) : Regs :=
  if r = 0 then g else { g with m := g.m.set r.toNat x r.isLt }

def Regs.setQ (g : Regs) (r : QReg) (x : Quire) : Regs := { g with q := g.q.set r.toNat x r.isLt }

def Regs.setK (g : Regs) (r : KReg) (x : Word) : Regs := { g with k := g.k.set r.toNat x r.isLt }

/-- A register write (R59, R72): a write to s0, p0 or m0 is discarded. -/
def Regs.write (g : Regs) : Write → Regs
  | .s r x => g.setS r x
  | .p r x => g.setP r x
  | .v r x => g.setV r x
  | .m r x => g.setM r x
  | .q r x => g.setQ r x
  | .k r x => g.setK r x

/-! ### Landing (R59) -/

/-- An entry whose value is known when it is made. -/
def Landing.ready (w : Write) (due : Word) (gtc : Nat) (pos : Pos) : Landing :=
  { write := w, due := due, arrived := true, arrivedAt := gtc, tag := 0, flags := 0, pos := pos, chain := false
    overflow := false, poison := none, event := none, logAt := none, key := 0 }

/-- An entry that waits for its value. -/
def Landing.waiting (w : Write) (due : Word) (tag : Nat) (pos : Pos) : Landing :=
  { write := w, due := due, arrived := false, arrivedAt := 0, tag := tag, flags := 0, pos := pos, chain := false
    overflow := false, poison := none, event := none, logAt := none, key := 0 }

def Context.addLanding (c : Context) (l : Landing) : Context := { c with landing := c.landing ++ [l] }

/-- `Land(dst, value, L)` of the syllable at the cursor. -/
def State.land (s : State) (w : Write) (lat : Nat) : State :=
  s.modMe fun c => c.addLanding (Landing.ready w (c.bcnt + BitVec.ofNat 64 lat) s.gtc.toNat s.cur.pos)

/-- `Land` with FSTAT flags (R117). -/
def State.landFlags (s : State) (w : Write) (lat : Nat) (fl : BitVec 7) : State :=
  s.modMe fun c => c.addLanding
    { Landing.ready w (c.bcnt + BitVec.ofNat 64 lat) s.gtc.toNat s.cur.pos with flags := fl }

/-- `Land` with a tag for a value still in its unit. -/
def State.landTag (s : State) (w : Write) (lat : Nat) (tag : Nat) : State :=
  s.modMe fun c => c.addLanding (Landing.waiting w (c.bcnt + BitVec.ofNat 64 lat) tag s.cur.pos)

/-! ### Traps -/

/-- The codes of Table 16-1. -/
def TrapName.code : TrapName → BitVec 8
  | .illegalOp => 0x01
  | .illegalBundle => 0x02
  | .slotMismatch => 0x03
  | .priv => 0x04
  | .occupancy => 0x08
  | .mxuOwner => 0x09
  | .loopNest => 0x0A
  | .align => 0x10
  | .bankConflict => 0x11
  | .translation => 0x12
  | .protection => 0x13
  | .memData => 0x14
  | .divZero => 0x18
  | .quireOverflow => 0x19
  | .scaleRange => 0x1A
  | .counterDecrease => 0x20
  | .counterWrap => 0x21
  | .queueConfig => 0x22
  | .promiseMissed => 0x28
  | .stampOverrun => 0x29
  | .packOverrun => 0x2A
  | .ruleOrder => 0x30
  | .ruleDepth => 0x31
  | .ruleFile => 0x32
  | .ruleRange => 0x33
  | .replicaMismatch => 0x38
  | .voteMinority => 0x39
  | .dieLost => 0x3A
  | .launchFormat => 0x3C
  | .sys => 0x3D
  | .brk => 0x3E

/-- The trap name of a code. -/
def TrapName.all : List TrapName :=
  [.illegalOp, .illegalBundle, .slotMismatch, .priv, .occupancy, .mxuOwner, .loopNest, .align, .bankConflict,
   .translation, .protection, .memData, .divZero, .quireOverflow, .scaleRange, .counterDecrease, .counterWrap,
   .queueConfig, .promiseMissed, .stampOverrun, .packOverrun, .ruleOrder, .ruleDepth, .ruleFile, .ruleRange,
   .replicaMismatch, .voteMinority, .dieLost, .launchFormat, .sys, .brk]

def TrapName.ofCode (x : BitVec 8) : Option TrapName := TrapName.all.find? (fun n => n.code == x)

/-- The distance of a landing bundle from the trapping bundle (R99). -/
def Landing.toDistance (b : Word) (l : Landing) : Landing := { l with due := l.due - b }

def Redirect.toDistance (b : Word) (r : Redirect) : Redirect := { r with due := r.due - b }

def Landing.fromDistance (b : Word) (l : Landing) : Landing := { l with due := b + l.due }

def Redirect.fromDistance (b : Word) (r : Redirect) : Redirect := { r with due := b + r.due }

/-- An entry put into a list that is sorted by landing bundle, behind the entries of the same bundle. -/
def insertDue (b : Word) (l : Landing) : List Landing → List Landing
  | [] => [l]
  | x :: xs => if (l.due - b).toNat < (x.due - b).toNat then l :: x :: xs else x :: insertDue b l xs

/-- The entries in the order of their landing bundles. -/
def sortDue (b : Word) (ls : List Landing) : List Landing := ls.foldl (fun acc l => insertDue b l acc) []

/-- TCAUSE after a trap: LOST stays until it is cleared (Table 16-3). -/
def tcauseOf (old : Word) (name : TrapName) (async insup lost : Bool) : Word :=
  (if lost then 0x10000 else old &&& 0x10000) ||| (if async then 0x8000 else 0) ||| (if insup then 0x4000 else 0)
    ||| name.code.setWidth 64

/-- Taking a trap (R302): in user mode the landing state becomes the trap shadow (R99); in supervisor mode the handler's
entries commit before the first bundle at TVEC and its redirects are discarded: they are due at that bundle, and a wait for
one that has not arrived is a late-landing stall like any other (DESIGN CHOICE, unsafe; log entry 59). TCAUSE, TVAL and EPC
are written, and the next bundle is the one at TVEC. -/
def Context.enterTrap (c : Context) (tr : Trap) (async : Bool) : Context :=
  let lost := async && c.lostEvent
  let sp := { c.special with
    tcause := tcauseOf c.special.tcause tr.name async c.sup lost
    tval := tr.tval
    epc := c.pc }
  let c1 :=
    if c.sup then
      { c with landing := (sortDue c.bcnt c.landing).map (fun l => { l with due := c.bcnt }), redirects := [] }
    else
      { c with
        shadow := some { landing := c.landing.map (Landing.toDistance c.bcnt)
                         redirects := c.redirects.map (Redirect.toDistance c.bcnt) }
        landing := [], redirects := [] }
  { c1 with
    special := sp, sup := true, pc := c.special.tvec &&& ~~~(0x1F : Word), deferred := [], committed := false
    poisoned := none, answer := none, observed := none, cleared := none
    lostEvent := if async then false else c.lostEvent }

/-- Return from a trap (R99, R302, R339), at the end of the bundle of ERET: the next bundle is the one at EPC, and the
shadow stands at its distances from it, before the handler's own pending entries. The handler's redirects are discarded. -/
def Context.leaveTrap (c : Context) : Context :=
  let b := c.bcnt + 1
  let (ls, rs) := match c.shadow with
    | some sh => (sh.landing.map (Landing.fromDistance b), sh.redirects.map (Redirect.fromDistance b))
    | none => ([], [])
  { c with
    landing := ls ++ c.landing, redirects := rs, shadow := none, sup := false
    pc := c.special.epc &&& ~~~(0x1F : Word) }

/-! ### Blocking (R60) -/

/-- The context of the cursor blocks: no syllable has acted. Its age restarts (R30). -/
def State.blockOn (s : State) (bc : BlockCond) : State :=
  s.modMe fun c => { c with status := .blocked bc, age := s.gtc.toNat }

/-- The status of a context whose block has ended, in its bank. -/
def unblocked : Bank → CtxStatus
  | .primary => .ready
  | .second => .readyOut

/-! ### Fault events (R313, R314) -/

/-- The words of Table 16-8. -/
def FaultEvent.words (e : FaultEvent) : List Word :=
  [e.cls.setWidth 64 <<< 56 ||| e.code.setWidth 64 <<< 48 ||| e.tile.setWidth 64 <<< 32 ||| e.slot.setWidth 64 <<< 30
     ||| e.asid.setWidth 64,
   e.w1, e.w2, e.gtc]

/-- Records of the event ring; none while SIZE disables it. -/
def Platform.ringSize (p : Platform) : Nat := if p.evqSize.toNat < 16 then 2 ^ (7 + p.evqSize.toNat) else 0

/-- Records that the host has not consumed. -/
def Platform.ringUsed (p : Platform) : Nat := (p.evqProd - p.evqCons).toNat

def Platform.ringFull (p : Platform) : Bool := decide (p.ringSize ≤ p.ringUsed)

/-- Evsol writes one record to the ring and signals MSI-X vector 1. -/
def State.ringWrite (s : State) (e : FaultEvent) : State :=
  let p := s.platform
  let place := p.evqBase + BitVec.ofNat 64 (p.evqProd.toNat % p.ringSize * 32)
  { s with
    platform := { p with evqProd := p.evqProd + 1 }
    out := s.out ++ [.event place e.words, .msix 1] }

/-- A class of dropped records put into class order. -/
def insertDropped (d : Dropped) : List Dropped → List Dropped
  | [] => [d]
  | x :: xs => if d.cls < x.cls then d :: x :: xs else x :: insertDropped d xs

/-- A class that lost records when the reserve was full: its first and last record and their count. One whose last record
has been delivered begins anew. -/
def dropEvent (ds : List Dropped) (e : FaultEvent) : List Dropped :=
  if ds.any (fun d => d.cls == e.cls && decide (d.sent < 2)) then
    replaceFirst (fun d => d.cls == e.cls && decide (d.sent < 2)) (fun d => { d with last := e, count := d.count + 1 }) ds
  else insertDropped { cls := e.cls, first := e, last := e, count := 1, sent := 0 } ds

/-- Nothing can be delivered to the ring: it is full, or a warm reset is in progress (Table 16-10). -/
def Platform.ringHeld (p : Platform) : Bool := p.ringFull || p.resetting.isSome

/-- A fault event is posted: to the ring, else to the reserve, else it is counted with its class. -/
def State.postFault (s : State) (e : FaultEvent) : State :=
  let p := s.platform
  if p.reserve.isEmpty && p.dropped.isEmpty && !p.ringHeld then s.ringWrite e
  else if p.reserve.length < 4096 then
    { s with platform := { p with reserve := p.reserve ++ [e], evqOvf := true } }
  else { s with platform := { p with dropped := dropEvent p.dropped e, evqOvf := true } }

/-- An event record whose tile, slot, ASID and second word the free word x and the free word y give (log entry 1). -/
def openEvent (cls code : BitVec 8) (w1 gtc x y : Word) : FaultEvent :=
  { cls := cls, code := code, tile := fld x 32 10, slot := fld x 30 2, asid := fld x 0 12, w1 := w1, w2 := y, gtc := gtc }

/-- The next record of a class with dropped records: the first, the last, and the summary (R314), which has the GTC of the
last record. (DEDUCED, unsafe; log entry 43.) -/
def Dropped.record (d : Dropped) (x y : Word) : FaultEvent :=
  if d.sent = 0 then d.first
  else if d.sent = 1 then d.last
  else openEvent 15 d.cls (BitVec.ofNat 64 d.count) d.last.gtc x y

/-- The class delivers one record; the summary is its last. -/
def State.deliverDropped (s : State) (d : Dropped) (ds : List Dropped) : State :=
  let (x, s1) := s.freeWord
  let (y, s2) := s1.freeWord
  let rest := if d.sent < 2 then { d with sent := d.sent + 1 } :: ds else ds
  { s2 with platform := { s2.platform with dropped := rest } }.ringWrite (d.record x y)

/-- Evsol delivers what it keeps while the ring has room, the reserve first: n records at most. -/
def State.drainEvents (s : State) : Nat → State
  | 0 => s
  | n + 1 =>
    if s.platform.ringHeld then s
    else match s.platform.reserve, s.platform.dropped with
      | e :: rest, _ => State.drainEvents ({ s with platform := { s.platform with reserve := rest } }.ringWrite e) n
      | [], d :: ds => State.drainEvents (s.deliverDropped d ds) n
      | [], [] => s

/-- A fault event of a tile's context. -/
def mkFault (s : State) (cls code : BitVec 8) (t : Nat) (k : SlotNo) (asid : BitVec 12) (w1 w2 : Word) : FaultEvent :=
  { cls := cls, code := code, tile := BitVec.ofNat 10 t, slot := k, asid := asid, w1 := w1, w2 := w2, gtc := s.gtc }

/-- A fault event of which the spec gives only these parts: the others are free (log entry 1). -/
def State.postOpen (s : State) (cls : BitVec 8) (code : Option (BitVec 8)) (place : Option (Nat × SlotNo))
    (asid : Option (BitVec 12)) (w1 w2 : Option Word) : State :=
  let (x, s1) := s.freeWord
  let (a, s2) := s1.freeWord
  let (b, s3) := s2.freeWord
  let free := openEvent cls (code.getD (fld x 48 8)) (w1.getD a) s.gtc x (w2.getD b)
  s3.postFault { free with
    tile := (place.map (fun p => BitVec.ofNat 10 p.1)).getD free.tile
    slot := (place.map (fun p => p.2)).getD free.slot
    asid := asid.getD free.asid }

/-! ### Raising -/

/-- A trap of the context of the cursor is taken; MEM_DATA is also posted as a trap report (R313). -/
def State.takeTrap (s : State) (tr : Trap) (async : Bool) : State :=
  let c := s.me
  let s1 := s.modMe (fun c => c.enterTrap tr async)
  if tr.name = .memData then
    s1.postFault (mkFault s 1 tr.name.code s.cur.tile.toNat s.cur.slot c.asid tr.tval c.pc)
  else s1

/-- The syllable at the cursor raises a trap (R61). -/
def State.raise (s : State) (tr : Trap) : State := s.takeTrap tr false

/-! ### Asynchronous events (R304) -/

/-- Whether an event is delivered to a context as it stands. -/
def Context.delivers (c : Context) (tr : Trap) : Bool := !c.sup || tr.name == .dieLost

/-- The next event that a presentation delivers: DIE_LOST first, then the oldest. -/
def Context.nextEvent (c : Context) : Option Trap :=
  match c.events.find? (fun e => e.name == .dieLost) with
  | some e => some e
  | none => if c.sup then none else c.events.head?

/-- An event taken from the pending ones. -/
def Context.takeEvent (c : Context) (tr : Trap) : Context := { c with events := c.events.erase tr }

/-- An event becomes pending in a context: a Blocked one becomes Ready where the event is delivered. -/
def Context.addEvent (c : Context) (b : Bank) (tr : Trap) : Context :=
  let c1 := { c with events := c.events ++ [tr] }
  match c.status with
  | .blocked _ => if c.delivers tr then { c1 with status := unblocked b } else c1
  | _ => c1

/-- An asynchronous trap of a context. A 17th event, and one whose context is Draining or gone, is posted instead.
(DEDUCED, unsafe; log entry 34.) -/
def State.postEvent (s : State) (t : Nat) (k : SlotNo) (uid : Nat) (asid : BitVec 12) (tr : Trap) : State :=
  let report (cls : BitVec 8) (pc : Word) := s.postFault (mkFault s cls tr.name.code t k asid tr.tval pc)
  match (s.tile t).bankOf k uid with
  | none => s.postOpen 1 (some tr.name.code) (some (t, k)) (some asid) (some tr.tval) none
  | some b =>
    let c := s.ctx t k b
    if c.status == .draining || !c.status.resident then report 1 c.pc
    else if 16 ≤ c.events.length then
      (s.setCtx t k b { c with lostEvent := true }).postFault (mkFault s 9 tr.name.code t k asid tr.tval c.pc)
    else s.setCtx t k b (c.addEvent b tr)

end Sys2Proof.Machine
end

