-- ==== Sys2Proof/Machine/Flags.lean ====
section
/-! DEFINITION. The status computations: FSTAT and QSTAT (R117, R118, R125), the conditions of CMP and SEL, the
predicate and mask logic, and LSTALL (R97). -/

namespace Sys2Proof

/-- Table 18-5. -/
def CmpCond.holds (cc : CmpCond) (a b : Word) : Bool :=
  match cc with
  | .eq => a == b
  | .ne => a != b
  | .lt => a.slt b
  | .ge => !a.slt b
  | .ltn => a.ult b
  | .gen => !a.ult b
  | .tst => (a &&& b) != 0

/-- Table 19-9. -/
def SelCond.holds (cc : SelCond) (a : Word) : Bool :=
  match cc with
  | .z => a == 0
  | .nz => a != 0
  | .neg => a.msb
  | .nneg => !a.msb
  | .pos => !a.msb && a != 0
  | .npos => a.msb || a == 0
  | .odd => a.getLsbD 0

/-- Table 19-4. -/
def PlogOp.apply (op : PlogOp) (a b : Bool) : Bool :=
  match op with
  | .and => a && b
  | .or => a || b
  | .xor => a != b
  | .andn => a && !b
  | .orn => a || !b
  | .nand => !(a && b)
  | .nor => !(a || b)
  | .xnor => a == b

end Sys2Proof

namespace Sys2Proof.Machine

/-- Flags ORed into FSTAT. -/
def orFstat (f : Word) (fl : BitVec 7) : Word := f ||| fl.setWidth 64

/-- Bit i of a list of Bools, from a bit position upward. -/
def flagBits (bs : List Bool) (lo : Nat) : Word :=
  match bs with
  | [] => 0
  | b :: rest => (if b then (1 : Word) <<< lo else 0) ||| flagBits rest (lo + 1)

/-- QSTAT as the quires hold it (Table 6-1). -/
def Context.qstat (c : Context) : Word :=
  flagBits (c.regs.q.toList.map Quire.nar) 0 ||| flagBits (c.regs.q.toList.map Quire.ovf) 16

/-- A write of QSTAT: both flags of every quire. -/
def writeQstat (g : Regs) (x : Word) : Regs :=
  { g with q := g.q.mapIdx (fun i q => { q with nar := x.getLsbD i, ovf := x.getLsbD (16 + i) }) }

/-- A mask where a truth-table entry holds: TT[2·a + b] for each bit (R359). -/
def maskLogic (tt : BitVec 4) (a b : MaskWord) : MaskWord :=
  (if tt.getLsbD 0 then ~~~a &&& ~~~b else 0) ||| (if tt.getLsbD 1 then ~~~a &&& b else 0)
    ||| (if tt.getLsbD 2 then a &&& ~~~b else 0) ||| (if tt.getLsbD 3 then a &&& b else 0)

/-- One more stalled cycle, and one more event where the stall begins: both fields saturate (R97). -/
def lstallTick (x : Word) (first : Bool) : Word :=
  let ev := (x >>> 40).toNat
  let cy := (x &&& 0xFFFFFFFFFF).toNat
  let ev' := if first then Nat.min (ev + 1) (2 ^ 24 - 1) else ev
  BitVec.ofNat 64 (ev' * 2 ^ 40 + Nat.min (cy + 1) (2 ^ 40 - 1))

end Sys2Proof.Machine
end

