-- ==== Sys2Proof/Machine/Operands.lean ====
section
/-! DEFINITION. The operand forms: type codes (R324), immediates and offsets (R45, R325), effective addresses (R136),
lanes and masks (R354, R390), and the TVAL of a syllable (R63). -/

namespace Sys2Proof

/-! ### Type codes -/

/-- The width of a type code in bits. -/
def TypeCode.width : TypeCode → Nat
  | .x64 => 64
  | .i32 | .n32 => 32
  | .i16 | .n16 => 16
  | .i8 | .n8 => 8

/-- The access size of a memory type code, in bytes (R325). -/
def TypeCode.bytes (x : TypeCode) : Nat := TypeCode.width x / 8

/-- Whether Ext extends by the sign. -/
def TypeCode.isSigned : TypeCode → Bool
  | .i32 | .i16 | .i8 => true
  | .x64 | .n32 | .n16 | .n8 => false

/-- Ext(v[w−1:0], X). -/
def TypeCode.ext (x : TypeCode) (v : Word) : Word :=
  match x with
  | .x64 => v
  | .i32 => (v.setWidth 32).signExtend 64
  | .n32 => (v.setWidth 32).setWidth 64
  | .i16 => (v.setWidth 16).signExtend 64
  | .n16 => (v.setWidth 16).setWidth 64
  | .i8 => (v.setWidth 8).signExtend 64
  | .n8 => (v.setWidth 8).setWidth 64

/-- The low w bits as a natural number. -/
def TypeCode.low (x : TypeCode) (v : Word) : Nat := v.toNat % 2 ^ TypeCode.width x

/-- The low w bits as a signed integer. -/
def TypeCode.lowInt (x : TypeCode) (v : Word) : Int := Machine.signedOf (TypeCode.width x) (TypeCode.low x v)

/-- Ext of the low w bits of a natural number. -/
def TypeCode.extNat (x : TypeCode) (n : Nat) : Word := TypeCode.ext x (BitVec.ofNat 64 n)

/-- Ext of the low w bits of an integer. -/
def TypeCode.extInt (x : TypeCode) (n : Int) : Word := TypeCode.ext x (BitVec.ofInt 64 n)

end Sys2Proof

namespace Sys2Proof.Machine

/-! ### Immediates and addresses -/

/-- An immediate, sign-extended from its own width, or from 24 bits (R45). -/
def litSigned {n : Nat} : Lit n → Word
  | .short v => v.signExtend 64
  | .long v => v.signExtend 64

/-- An immediate, zero-extended. -/
def litUnsigned {n : Nat} : Lit n → Word
  | .short v => v.setWidth 64
  | .long v => v.setWidth 64

/-- The effective address (s_A + off·size) mod 2^64. -/
def effAddr {n : Nat} (c : Context) (a : SReg) (off : Lit n) (size : Nat) : Word :=
  c.sreg a + litSigned off * BitVec.ofNat 64 size

/-- The same for an offset that takes no LIMM. -/
def effAddrB {n : Nat} (c : Context) (a : SReg) (off : BitVec n) (size : Nat) : Word :=
  c.sreg a + off.signExtend 64 * BitVec.ofNat 64 size

/-- The offset of an N address, s_A[20:0] + off·size, formed without carry into other bits (R367). -/
def nOffset {n : Nat} (base : Word) (off : BitVec n) (size : Nat) : Int :=
  (base.toNat % 2 ^ 21 : Nat) + off.toInt * size

/-- Bits [63:42] and [31:21] of an N address are zero (R138). -/
def nAddrOk (base : Word) : Bool := base &&& 0xFFFFFC00FFE00000 == 0

/-! ### Lanes -/

/-- The n fields of w bits from the lowest upward. -/
def splitNat (w x : Nat) : Nat → List Nat
  | 0 => []
  | n + 1 => x % 2 ^ w :: splitNat w (x >>> w) n

/-- Fields of w bits put together, the first lowest. -/
def joinNat (w : Nat) : List Nat → Nat
  | [] => 0
  | x :: xs => x % 2 ^ w + (joinNat w xs <<< w)

/-- The lanes of a vector. -/
def vecLanes (w : LaneW) (v : Vec) : List Nat := splitNat w.bits v.toNat w.lanes

/-- A vector from its lanes. -/
def vecOf (w : LaneW) (xs : List Nat) : Vec := BitVec.ofNat 2048 (joinNat w.bits xs)

/-- The 256 bytes of a vector. -/
def vecBytes (v : Vec) : List Byte := bytesOfNat 256 v.toNat

/-- A vector from its bytes. -/
def bytesVec (bs : List Byte) : Vec := BitVec.ofNat 2048 (natOfBytes bs)

/-- Which lanes are active: bit ⌊ℓ·w/32⌋ of the mask (R354). -/
def activeLanes (w : LaneW) (m : MaskWord) : List Bool :=
  (List.range w.lanes).map (fun l => m.getLsbD (l * w.bits / 32))

/-- Results in active lanes, and the old value of v_D in the others (R390). -/
def mergeLanes (act : List Bool) (res old : List Nat) : List Nat :=
  (act.zip (res.zip old)).map (fun x => if x.1 then x.2.1 else x.2.2)

/-- A lane of a list of lanes. -/
def laneAt (xs : List Nat) (i : Nat) : Nat := xs.getD i 0

/-- The OR of the flags of the active lanes. -/
def activeFlags (act : List Bool) (fls : List Flags) : Flags :=
  (act.zip fls).foldl (fun acc x => if x.1 then acc ||| x.2 else acc) 0

/-- A mask from its 64 bits. -/
def maskOf (bs : List Bool) : MaskWord := flagBits bs 0

/-! ### The TVAL of a syllable (R63) -/

/-- The syllable, zero-extended, above the slot number. -/
def sylTval (bits : BitVec 29) (p : Pos) : Word :=
  (bits.setWidth 64 <<< 32) ||| BitVec.ofNat 64 p.toNat

/-- The bits of an instruction's syllable. -/
def instrBits (i : Instr) : BitVec 29 := match encode i with
  | some y => y.bits
  | none => 0

end Sys2Proof.Machine
end

