-- ==== Sys2Proof/Machine/Issue.lean ====
section
/-! DEFINITION. How the syllables of a bundle issue (R58 to R62): what a syllable reads, waits on, checks and does, and
the steps that all active syllables of a bundle take together. An instruction alone is a bundle with one syllable. -/

namespace Sys2Proof.Machine

/-- The condition under which an access misses translation: who asks for what (R169, R171). -/
abbrev Misses := List Need

/-- What one instruction does at the steps of R62. Each function reads the state at the start of the bundle. -/
structure Meaning where
  /-- An ILLEGAL_OP condition that the state decides (R452). -/
  illegal : State → Bool := fun _ => false
  /-- The queue heads it reads. -/
  heads : List HReg := []
  /-- The condition of R29 that it meets. -/
  block : State → Option BlockCond := fun _ => none
  /-- What its blocked presentation has done: an arrival at a barrier (R378). -/
  onBlock : State → State := fun s => s
  /-- What its access lacks in the translation cache. -/
  misses : State → Misses := fun _ => []
  /-- TVAL of that access (R170). -/
  missTval : State → Word := fun _ => 0
  /-- Its execute checks. -/
  check : State → Option Trap := fun _ => none
  /-- The quire it names as the destination of QADD, QDOT, QACC, QNEG or QCLR (R131). -/
  quire : Option QReg := none
  /-- The queue into which it delivers a load, and the queue that it configures (R345). -/
  delivers : Option HReg := none
  configures : Option HReg := none
  /-- Its effect, from the state at the start of the bundle and the present one. -/
  effect : State → State → State

/-! ### Queues (R44, R101, R327, R344) -/

def Context.queue (c : Context) (q : HReg) : Queue := c.queues[q.toNat]'q.isLt

def Context.setQueue (c : Context) (q : HReg) (x : Queue) : Context :=
  { c with queues := c.queues.set q.toNat x q.isLt }

/-- The fields of the HQ word (Table 18-9). -/
def Queue.configured (q : Queue) : Bool := q.word != 0
def Queue.esz (q : Queue) : Nat := natBits q.word.toNat 61 2
def Queue.lsz (q : Queue) : Nat := natBits q.word.toNat 57 4
def Queue.base (q : Queue) : Nat := natBits q.word.toNat 32 21

/-- The element size: 8, 64 or 256 bytes. -/
def Queue.elemBytes (q : Queue) : Nat :=
  match q.esz with
  | 0 => 8
  | 1 => 64
  | _ => 256

/-- C = 2^(8+LSZ) / e. -/
def Queue.capacity (q : Queue) : Nat := 2 ^ (8 + q.lsz) / q.elemBytes

/-- The S offset of element j. -/
def Queue.place (q : Queue) (j : Nat) : Nat := q.base + j % q.capacity * q.elemBytes

/-- Held elements and reservations fill the queue. -/
def Queue.full (q : Queue) : Bool := decide (q.capacity ≤ q.held.length + q.resv.length)

/-- The head is valid in a cycle: its element was complete at least one cycle before (R101). -/
def Queue.headValid (q : Queue) (gtc : Nat) : Bool :=
  match q.held with
  | e :: _ => decide (e.complete < gtc)
  | [] => false

/-- The poison mark of a valid head (R307). -/
def Queue.headPoison (q : Queue) (gtc : Nat) : Option Word :=
  match q.held with
  | e :: _ => if e.complete < gtc then e.poison else none
  | [] => none

/-- Reserved elements at the front that are done become held, and PROD advances over them. -/
def Queue.settle (q : Queue) : List QResv → Queue
  | r :: rest =>
    match r.done with
    | some e => Queue.settle { q with held := q.held ++ [e], prod := q.prod + 1, resv := rest } rest
    | none => { q with resv := r :: rest }
  | [] => { q with resv := [] }

/-- One element leaves the queue. -/
def Queue.pop (q : Queue) : Queue :=
  match q.held with
  | _ :: rest => { q with held := rest, cons := q.cons + 1, latched := false }
  | [] => q

/-- The head latch takes the bytes of an element that has become the oldest (R72, R101); nothing else writes it. -/
def Queue.load (q : Queue) (bs : List Byte) : Queue :=
  if q.latched || q.held.isEmpty then q else { q with latch := BitVec.ofNat 2048 (natOfBytes bs), latched := true }

/-- A reservation at the tail. -/
def Queue.reserve (q : Queue) (id : Nat) : Queue := { q with resv := q.resv ++ [{ id := id, done := none, logAt := none }] }

/-- The index of the element of a reservation, counted from PROD. -/
def resvIndex (id : Nat) : List QResv → Nat
  | [] => 0
  | r :: rest => if r.id = id then 0 else resvIndex id rest + 1

/-- The element of a reservation is complete. -/
def Queue.complete (q : Queue) (id : Nat) (e : QElem) : Queue :=
  q.settle (replaceFirst (fun r => r.id == id) (fun r => { r with done := some { e with hist := r.hist } }) q.resv)

/-- The HQ word as software reads it. -/
def Queue.image (q : Queue) : Word :=
  if q.word = 0 then 0 else q.word ||| (q.prod.setWidth 64 <<< 16) ||| q.cons.setWidth 64

/-! ### The steps of R62 after the checks of the header and the syllables -/

/-- What becomes of a presentation: it ends, or its syllables have taken effect. -/
inductive Issue where
  | ended (s : State)
  | issued (s : State)

/-- The state in either case. -/
def Issue.state : Issue → State
  | .ended s => s
  | .issued s => s

/-- An active syllable. -/
abbrev Active := Pos × Meaning

/-- The queues named by POP bits, in order. -/
def popList (pops : BitVec 16) : List HReg :=
  (List.range 16).filterMap (fun i => if pops.getLsbD i then some (BitVec.ofNat 4 i) else none)

/-- The heads that the bundle reads: those of its syllables in slot order, then the POP bits. -/
def readHeads (acts : List Active) (pops : BitVec 16) : List HReg :=
  acts.flatMap (fun a => a.2.heads) ++ popList pops

/-- MEM_DATA of a poisoned head: before any effect, and before the block check (R307, R316). -/
def poisonTrap (c : Context) (gtc : Nat) (hs : List HReg) : Option Trap :=
  (hs.findSome? (fun q => (c.queue q).headPoison gtc)).map (fun v => { name := .memData, tval := v })

/-- An empty head that the bundle reads. An unconfigured queue has no head to wait for: it is checked later. -/
def headBlock (c : Context) (gtc : Nat) (hs : List HReg) : Option BlockCond :=
  hs.findSome? (fun q =>
    if (c.queue q).configured && !(c.queue q).headValid gtc then some (.headEmpty q) else none)

/-- The first condition of R29 that the bundle meets, with what the presentation does for it. -/
def blockOf (acts : List Active) (pops : BitVec 16) (s : State) : Option (BlockCond × (State → State)) :=
  match headBlock s.me s.gtc.toNat (readHeads acts pops) with
  | some b => some (b, fun st => st)
  | none => acts.findSome? (fun a => (a.2.block (s.atPos a.1)).map (fun b => (b, a.2.onBlock)))

/-- What a blocked presentation leaves behind: a watch at the home of an N or D counter (R337), or a cut for a write
that does not fit (R278), made where no earlier cut is pending. (DEDUCED, unsafe; log entry 30.) -/
def State.waitOn (s : State) (b : BlockCond) : State :=
  let c := s.me
  match b with
  | .watch p thr =>
    { s with
      nextId := s.nextId + 1
      watches := s.watches.filter (fun w => w.uid != c.uid) ++
        [{ id := s.nextId, tile := s.cur.tile, slot := s.cur.slot, uid := c.uid, place := p, asid := c.asid, thr := thr
           due := s.gtc.toNat + 1 }] }
  | .releaseFull _ =>
    if !c.replica.cuts.isEmpty then s
    else s.modMe (fun c => { c with replica := { c.replica with
      cuts := c.replica.cuts ++
        [{ kind := .full, n := c.replica.count, sig := c.replica.sig, tag := 0, at_ := c.bcnt }] } })
  | _ => s

/-- OCCUPANCY of two vector syllables with one quire (R131), and QUEUE_CONFIG of HCFG beside a load (R345). -/
def crossCheck (acts : List Active) (a : Active) : Option Trap :=
  let quire := match a.1, a.2.quire with
    | .vb, some q => if acts.any (fun b => b.1 == .va && b.2.quire == some q) then
        some ({ name := .occupancy, tval := q.setWidth 64 } : Trap) else none
    | _, _ => none
  let config := match a.2.configures with
    | some q => if acts.any (fun b => b.2.delivers == some q) then
        some ({ name := .queueConfig, tval := q.setWidth 64 + 0x100 } : Trap) else none
    | none => none
  match quire with
  | some t => some t
  | none => config

/-- The first execute check that fails, in slot order. -/
def checkOf (acts : List Active) (s : State) : Option Trap :=
  acts.findSome? (fun a =>
    match a.2.check (s.atPos a.1) with
    | some t => some t
    | none => crossCheck acts a)

/-- The context's part of SFC.FRAME (Table 4-7). -/
def frameOf (s : State) (c : Context) : Nat :=
  match c.pulseAt with
  | some p => Nat.min (s.gtc.toNat - p) (2 ^ 48 - 1)
  | none => 0

/-- Parking on a translation fault (R32): no slot takes effect. The context moves to the second bank in 8 cycles where
that bank is free, and otherwise stays. -/
def State.park (s : State) (needs : List Need) (tval : Word) : State :=
  let t := s.cur.tile.toNat
  let k := s.cur.slot
  let c := s.me
  let fid := s.nextId
  let parked := { c with status := .parked fid, earliest := s.gtc.toNat + 8 }
  let rec_ : FaultRec :=
    { id := fid, who := .ctx s.cur.tile k c.uid, asid := c.asid, needs := needs, stack := BitVec.ofNat 2 (stackOf t)
      tval := tval, stage := .walking, due := s.gtc.toNat + 420 }
  let s1 := { s with nextId := fid + 1, mmp := { s.mmp with faults := s.mmp.faults ++ [rec_] } }
  let sl := (s1.tile t).slot k
  match sl.second.status with
  | .free =>
    s1.modTile t (fun x => x.setSlot k
      { primary := Context.reset, second := parked, moving := s.gtc.toNat + 8 })
  | _ => s1.setMe parked

/-- TVAL of the first access of a bundle that misses. -/
def missedTval (acts : List Active) (s : State) : Word :=
  match acts.find? (fun a => !(a.2.misses (s.atPos a.1)).isEmpty) with
  | some a => a.2.missTval (s.atPos a.1)
  | none => 0

/-- The steps from the block check to the effects, for the active syllables of a bundle (R62). -/
def issueActive (acts : List Active) (pops : BitVec 16) (stamp : BitVec 16) (s : State) : Issue :=
  match poisonTrap s.me s.gtc.toNat (readHeads acts pops) with
  | some t => .ended (s.raise t)
  | none =>
    match blockOf acts pops s with
    | some (b, f) => .ended ((f (s.waitOn b)).blockOn b)
    | none =>
      let frame := frameOf s s.me
      if s.me.det && stamp != 0 && decide (stamp.toNat < frame) then
        .ended (s.raise { name := .stampOverrun, tval := stamp.setWidth 64 })
      else if s.me.det && stamp != 0 && decide (frame < stamp.toNat) then .ended s
      else
        match acts.flatMap (fun a => a.2.misses (s.atPos a.1)) with
        | n :: ns => .ended (s.park (n :: ns) (missedTval acts s))
        | [] =>
          match checkOf acts s with
          | some t => .ended (s.raise t)
          | none => .issued (acts.foldl (fun st a => a.2.effect (s.atPos a.1) (st.atPos a.1)) s)

/-- One instruction at the cursor, under a true guard: its syllable checks, then the steps of R62. -/
def runSyllable (i : Instr) (m : Meaning) (s : State) : Host.Outcome State Fault Refusal :=
  if !i.wf || m.illegal s then
    .next (s.raise { name := .illegalOp, tval := sylTval (instrBits i) s.cur.pos })
  else if (i.saOnly && s.cur.pos != .sa) || (i.vbOnly && s.cur.pos != .vb) then
    .next (s.raise { name := .slotMismatch, tval := sylTval (instrBits i) s.cur.pos })
  else .next (issueActive [(s.cur.pos, m)] 0 0 s).state

/-- The PRIV trap of an instruction at the cursor (R306). -/
def privTrap (i : Instr) (s : State) : Trap := { name := .priv, tval := sylTval (instrBits i) s.cur.pos }

/-- An effect that is deferred to the end of the bundle. -/
def State.defer (s : State) (d : Deferred) : State := s.modMe (fun c => { c with deferred := c.deferred ++ [d] })

end Sys2Proof.Machine
end

