-- ==== Sys2Proof/Machine/Tables.lean ====
section
/-! DEFINITION. Translation: ASID entries, descriptors and the layout unit (R153 to R160), the capacity table and the
host windows (R166, R167), the tile's translation cache (R169), and the parts into which an access is cut (R155, R184).
Descriptors and tile tables lie in HBM at the physical addresses that the ASID entry names. -/

namespace Sys2Proof.Machine

/-! ### Physical memory -/

/-- 384 GiB of HBM, and 1 TiB of LPDDR-6 (Table 7-12). -/
def hbmBytes : Nat := 384 * 2 ^ 30
def lpddrBytes : Nat := 2 ^ 40

/-- n bytes of HBM as a little-endian number. -/
def hbmWord (s : State) (a n : Nat) : Nat := natOfBytes (Memory.readN s.hbm a n)

def State.writeHbm (s : State) (a : Nat) (bs : List Byte) : State := { s with hbm := Memory.writeN s.hbm a bs }

def State.writeLpddr (s : State) (a : Nat) (bs : List Byte) : State := { s with lpddr := Memory.writeN s.lpddr a bs }

def State.writeHbmWord (s : State) (a : Nat) (x : Word) : State := s.writeHbm a (bytesOfNat 8 x.toNat)

/-! ### ASID entries -/

def State.asidEntry (s : State) (a : BitVec 12) : Option AsidEntry := s.mmp.asids.find? (fun e => e.id == a)

def State.modAsid (s : State) (a : BitVec 12) (f : AsidEntry → AsidEntry) : State :=
  { s with mmp := { s.mmp with asids := replaceFirst (fun e => e.id == a) f s.mmp.asids } }

/-! ### Descriptors (Table 7-8) -/

/-- The fields of a descriptor. -/
structure Desc where
  valid : Bool
  t     : Bool
  ndim  : Nat
  layout : Nat
  fmt   : Nat
  node  : BitVec 21
  ext   : List Nat
  lt    : List Nat
  fill  : Nat
  ttb   : Nat
  ntiles : Nat
  deriving DecidableEq, Repr

def descOf (w : Vector Word 8) : Desc :=
  { valid := w[0].getLsbD 63, t := w[0].getLsbD 62, ndim := natBits w[0].toNat 60 2 + 1
    layout := natBits w[0].toNat 58 2, fmt := natBits w[0].toNat 51 5, node := fld w[0] 0 21
    ext := splitNat 16 w[1].toNat 4, lt := splitNat 4 w[2].toNat 4, fill := w[3].toNat
    ttb := natBits w[4].toNat 3 49 * 8, ntiles := natBits w[5].toNat 0 32 }

/-- The element size of a format code (R153). -/
def fmtElemBytes (fmt : Nat) : Nat := if fmt = 3 ∨ fmt = 7 then 8 else 4 / 2 ^ (fmt % 4)

def Desc.elemBytes (d : Desc) : Nat := fmtElemBytes d.fmt

/-- Whether loads of the format extend by the sign (R342). -/
def fmtSigned (fmt : Nat) : Bool := decide (fmt < 4)

/-- A format code that a descriptor may name. -/
def descFmtOk (fmt : Nat) : Bool := (Fmt.ofCode (BitVec.ofNat 5 fmt)).isSome || fmt == 3 || fmt == 7

/-- Eight words of memory. -/
def hbmWords8 (s : State) (a : Nat) : Vector Word 8 :=
  Vector.ofFn (fun i : Fin 8 => BitVec.ofNat 64 (hbmWord s (a + 8 * i.val) 8))

/-- Descriptor i of an address space, as the tables hold it; none at DCOUNT and above. -/
def tableDesc (s : State) (asid : BitVec 12) (i : Nat) : Option (Vector Word 8) :=
  match s.asidEntry asid with
  | some e => if i < e.dcount then some (hbmWords8 s (e.dtb + 64 * i)) else none
  | none => none

def ceilDiv (a b : Nat) : Nat := (a + b - 1) / b

/-- G_i: tiles along each dimension. -/
def Desc.grid (d : Desc) : List Nat := List.zipWith (fun e l => ceilDiv (e + 1) (2 ^ l)) d.ext d.lt

/-- The checks of R154. A descriptor with V = 0, which R154 does not list, is rejected too. (DESIGN CHOICE, unsafe; log entry 56.) -/
def descAccepted (w : Vector Word 8) : Bool :=
  let d := descOf w
  let size := 2 ^ d.lt.sum * d.elemBytes
  d.valid && descFmtOk d.fmt && decide (d.layout < 2)
    && ((d.ext.zip d.lt).drop d.ndim).all (fun x => x.1 == 0 && x.2 == 0)
    && decide (64 ≤ size ∧ size ≤ 65536)
    && (w[0] &&& 0x0307FFFFFFE00000 == 0) && (w[2] >>> 16 == 0) && (w[4] &&& 0xFFF0000000000007 == 0)
    && (w[5] >>> 32 == 0) && (w[6] == 0) && (w[7] == 0)
    && decide (d.fill < 2 ^ (8 * d.elemBytes)) && d.ntiles == d.grid.foldl (fun acc x => acc * x) 1

/-- Coordinates 0 and 1 exchanged in a transposed view. -/
def swapFirst {α : Type} (t : Bool) (c : List α) : List α :=
  match t, c with
  | true, c0 :: c1 :: rest => c1 :: c0 :: rest
  | _, _ => c

/-- Mixed-radix number of digits with their radices, the first fastest. -/
def mixedRadix : List (Nat × Nat) → Nat
  | [] => 0
  | (x, r) :: rest => x + r * mixedRadix rest

/-- Where an element lies: its tile-table entry and its byte within the frame; none is OUTSIDE (R155). -/
def Desc.place (d : Desc) (coords : List Nat) : Option (Nat × Nat) :=
  let c := swapFirst d.t coords
  if (c.zip d.ext).any (fun x => decide (x.2 < x.1)) then none
  else
    let g := List.zipWith (fun x l => x / 2 ^ l) c d.lt
    let o := List.zipWith (fun x l => (x % 2 ^ l, 2 ^ l)) c d.lt
    let ord := if d.layout = 0 then o else swapFirst true o
    some (mixedRadix (g.zip d.grid), mixedRadix ord * d.elemBytes)

/-- The place of an element as one number of bytes; 0 OUTSIDE. -/
def Desc.placeByte (d : Desc) (coords : List Nat) : Nat :=
  match d.place coords with
  | some (tn, o) => tn * 65536 + o
  | none => 0

/-- The four coordinates of a register. -/
def coordsOf (w : Word) : List Nat := splitNat 16 w.toNat 4

/-- The coordinates of the i-th element at consecutive c0. -/
def stepC0 (c : List Nat) (i : Nat) : List Nat :=
  match c with
  | c0 :: rest => (c0 + i) :: rest
  | [] => []

/-! ### Tile-table entries (Table 7-9) -/

def tteValid (w : Word) : Bool := w.getLsbD 63 && natBits w.toNat 58 2 != 3 && decide (natBits w.toNat 60 3 < 3)
def tteTier (w : Word) : Nat := natBits w.toNat 60 3
def ttePlace (w : Word) : Nat := natBits w.toNat 58 2
def tteStack (w : Word) : Nat := natBits w.toNat 56 2
def ttePerm (w : Word) : BitVec 4 := fld w 52 4
def tteFrame (w : Word) : Nat := natBits w.toNat 16 36
def tteAcnt (w : Word) : Nat := natBits w.toNat 8 8

/-- An entry word from its fields. -/
def tteWord (tier place stack : Nat) (perm : BitVec 4) (frame acnt flags : Nat) : Word :=
  BitVec.ofNat 64 (2 ^ 63 + tier * 2 ^ 60 + place * 2 ^ 58 + stack * 2 ^ 56 + perm.toNat * 2 ^ 52 + frame * 2 ^ 16
    + acnt * 2 ^ 8 + flags)

/-- The XOR of the two-bit fields of PA[47:12] (R160). -/
def interleave (pa : Nat) : Nat := (splitNat 2 (pa / 4096) 18).foldl (fun acc x => acc ^^^ x) 0

/-- The home stack of a byte of the HBM tier. -/
def homeStack (w : Word) (pa : Nat) : Nat := if ttePlace w = 0 then interleave pa else tteStack w

/-- Where a byte of a frame lies. -/
def frameHome (w : Word) (off : Nat) : Home :=
  match tteTier w with
  | 0 => .hbm (tteFrame w * 65536 + off)
  | 1 => .lpddr (tteFrame w * 65536 + off)
  | _ => .host (BitVec.ofNat 64 (tteFrame w * 65536 + off))

/-! ### Capacity table and host windows -/

/-- The address of the level-2 entry of a C address; none beyond the space or where level 1 is not valid (R166). -/
def capEntryAddr (s : State) (e : AsidEntry) (a : Nat) : Option Nat :=
  let l1 := hbmWord s (e.cpt + natBits a 34 14 * 8) 8
  if a < 2 ^ 48 ∧ l1.testBit 63 = true then some (natBits l1 16 36 * 65536 + natBits a 21 13 * 8) else none

/-- The physical address of a C byte through a level-2 entry. -/
def capHome (w : Word) (a : Nat) : Home := .lpddr (natBits w.toNat 21 31 * 2 ^ 21 + a % 2 ^ 21)

/-- The window that holds a host address (R167). -/
def windowOf (ws : List HostWindow) (a : Word) : Option HostWindow :=
  ws.find? (fun w => decide (w.hva.toNat ≤ a.toNat ∧ a.toNat < w.hva.toNat + w.pages.toNat * 4096))

def windowHome (w : HostWindow) (a : Word) : Home := .host (w.bus + (a - w.hva))

/-! ### What the tables hold for a need -/

/-- The physical address of the table entry of a tensor tile or a flat frame. -/
def entryAddr (s : State) (asid : BitVec 12) : Need → Option Nat
  | .tile id tn => (tableDesc s asid id).map (fun w => (descOf w).ttb + 8 * tn)
  | .flat frame =>
    match s.asidEntry asid with
    | some e => if frame < e.fntiles then some (e.fttb + 8 * frame) else none
    | none => none
  | .page n =>
    match s.asidEntry asid with
    | some e => capEntryAddr s e (n * 2 ^ 21)
    | none => none
  | .desc _ | .window _ => none

/-- The entry word of a need, where the tables hold a valid one. -/
def tableEntry (s : State) (asid : BitVec 12) (n : Need) : Option Word :=
  match entryAddr s asid n with
  | some a =>
    let w := BitVec.ofNat 64 (hbmWord s a 8)
    match n with
    | .page _ => if w.getLsbD 63 then some w else none
    | .desc _ | .tile _ _ | .flat _ | .window _ => if tteValid w then some w else none
  | none => none

/-- The window of a need, where it is valid and resident. -/
def tableWindow (s : State) (asid : BitVec 12) (a : Word) : Option HostWindow :=
  match s.asidEntry asid with
  | some e => (windowOf e.windows a).filter (fun w => w.valid && w.resident)
  | none => none

/-! ### The translation cache of a tile -/

def Tile.desc (x : Tile) (asid : BitVec 12) (id : Nat) : Option (Vector Word 8) :=
  (x.descs.find? (fun d => d.asid == asid && d.id == id)).map (fun d => d.words)

def Tile.entry (x : Tile) (asid : BitVec 12) (k : EntryKey) : Option CachedEntry :=
  x.entries.find? (fun e => e.asid == asid && e.key == k)

def Tile.windowEntry (x : Tile) (asid : BitVec 12) (a : Word) : Option HostWindow :=
  windowOf ((x.entries.filter (fun e => e.asid == asid)).filterMap (fun e => e.win)) a

/-- A filled cache keeps the 32 youngest descriptors and the 512 youngest entries. -/
def Tile.fillDesc (x : Tile) (d : CachedDesc) : Tile :=
  { x with descs := (d :: x.descs.filter (fun e => !(e.asid == d.asid && e.id == d.id))).take 32 }

def Tile.fillEntry (x : Tile) (e : CachedEntry) : Tile :=
  { x with entries := (e :: x.entries.filter (fun f => !(f.asid == e.asid && f.key == e.key))).take 512 }

/-! ### The parts of an access -/

/-- Where a part of an access lies before translation. -/
inductive Span where
  /-- Through a tile-table entry, at a byte of its frame. -/
  | frame (need : Need) (off : Nat)
  | page (a : Nat)
  | host (a : Word)
  /-- OUTSIDE, with the bytes of FILL. -/
  | outside (fill : List Byte)
  /-- In another package. -/
  | remote (node : BitVec 21) (id : Nat) (coords : Word)
  | tile (t : TileId) (off : Nat)
  deriving DecidableEq, Repr

/-- `len` bytes from byte `off` of the access. -/
structure Part where
  off  : Nat
  len  : Nat
  span : Span
  /-- For a part in another package the byte of the tensor: tile number · 65,536 + byte of the frame. -/
  place : Nat := 0
  deriving DecidableEq, Repr

/-- Two neighbouring parts make one unit when they lie in one aligned 8-byte unit of one frame (R184). -/
def mergeable (a b : Part) : Bool :=
  match a.span, b.span with
  | .frame n o, .frame n' o' =>
    n == n' && o' == o + a.len && b.off == a.off + a.len && o / 8 == (o' + b.len - 1) / 8
  | .outside _, .outside _ => b.off == a.off + a.len && decide (a.len + b.len ≤ 8)
  | .remote n i _, .remote n' i' _ =>
    n == n' && i == i' && b.off == a.off + a.len && b.place == a.place + a.len && a.off / 8 == (b.off + b.len - 1) / 8
  | _, _ => false

def joinParts (a b : Part) : Part :=
  match a.span, b.span with
  | .outside x, .outside y => { a with len := a.len + b.len, span := .outside (x ++ y) }
  | _, _ => { a with len := a.len + b.len }

/-- Neighbouring parts put together. -/
def mergeParts : List Part → List Part
  | [] => []
  | p :: ps =>
    match mergeParts ps with
    | [] => [p]
    | q :: qs => if mergeable p q then joinParts p q :: qs else p :: q :: qs

/-- n bytes from a byte address of one space, cut at aligned 8-byte units: `mk` gives the place of a byte. -/
def cutUnits (mk : Nat → Span) (addr : Nat) (off : Nat) : Nat → Nat → List Part
  | 0, _ => []
  | _ + 1, 0 => []
  | fuel + 1, n =>
    let len := Nat.min n (8 - addr % 8)
    { off := off, len := len, span := mk addr } :: cutUnits mk (addr + len) (off + len) fuel (n - len)

/-- The bytes of the flat view (R157). -/
def flatParts (addr n : Nat) : List Part :=
  cutUnits (fun a => .frame (.flat (a / 65536)) (a % 65536)) addr 0 (n + 1) n

/-- One element of a tensor; one in another package is not translated here (R174). The descriptor decides what is OUTSIDE
(R156). -/
def elemPart (node : BitVec 21) (d : Desc) (id : Nat) (coords : List Nat) (off : Nat) : Part :=
  { off := off, len := d.elemBytes, place := d.placeByte coords
    span := match d.place coords with
      | some (tn, o) =>
        if d.node = node then .frame (.tile id tn) o
        else .remote d.node id (BitVec.ofNat 64 (mixedRadix (coords.map (fun c => (c, 65536)))))
      | none => .outside (bytesOfNat d.elemBytes d.fill) }

/-- The elements of a vector access: 256 bytes at consecutive c0 (R155). -/
def vectorParts (node : BitVec 21) (d : Desc) (id : Nat) (coords : Word) : List Part :=
  mergeParts ((List.range (256 / d.elemBytes)).map (fun i =>
    elemPart node d id (stepC0 (coordsOf coords) i) (i * d.elemBytes)))

/-- The 80 bytes of a quire line from the named element (R372). -/
def lineParts (node : BitVec 21) (d : Desc) (id : Nat) (coords : Word) : List Part :=
  [{ off := 0, len := 80, place := d.placeByte (coordsOf coords)
     span := match d.place (coordsOf coords) with
       | some (tn, o) => if d.node = node then .frame (.tile id tn) o else .remote d.node id coords
       | none => .outside [] }]

/-- The extent of a D access. -/
inductive DKind where
  | elem
  | vector
  | line
  deriving DecidableEq, Repr

/-- The parts of a D access through a descriptor. -/
def tensorParts (node : BitVec 21) (d : Desc) (id : Nat) (coords : Word) (k : DKind) : List Part :=
  match k with
  | .elem => [elemPart node d id (coordsOf coords) 0]
  | .vector => vectorParts node d id coords
  | .line => lineParts node d id coords

/-- The bytes of a flat D access. -/
def DKind.flatBytes : DKind → Nat
  | .elem => 8
  | .vector => 256
  | .line => 80

/-- The parts of a flat D access: the line of a QRED is one part, which its home performs whole (R133). -/
def flatAccess (addr : Nat) (k : DKind) : List Part :=
  match k with
  | .elem | .vector => flatParts addr k.flatBytes
  | .line => [{ off := 0, len := 80, span := .frame (.flat (addr / 65536)) (addr % 65536) }]

/-- n bytes of C or of H. -/
def capParts (a n : Nat) : List Part := cutUnits .page a 0 (n + 1) n

def hostParts (a n : Nat) : List Part := cutUnits (fun x => .host (BitVec.ofNat 64 x)) a 0 (n + 1) n

/-! ### Translating a part -/

/-- A translated part, or what it lacks. -/
inductive Trans where
  | miss (n : Need)
  | home (h : Home) (perm : BitVec 4) (entry : Option Nat) (word : Word)
  | none
  deriving DecidableEq, Repr

/-- The translation of a part through the cache of a tile. -/
def cacheTrans (s : State) (x : Tile) (asid : BitVec 12) (p : Part) : Trans :=
  match p.span with
  | .frame n o =>
    match entryAddr s asid n with
    | some a =>
      match x.entry asid (.tile a) with
      | some e => .home (frameHome e.word o) (ttePerm e.word) (some a) e.word
      | Option.none => .miss n
    | Option.none => .miss n
  | .page a =>
    match x.entry asid (.page (a / 2 ^ 21)) with
    | some e => .home (capHome e.word a) (ttePerm e.word) Option.none e.word
    | Option.none => .miss (.page (a / 2 ^ 21))
  | .host a =>
    match x.windowEntry asid a with
    | some w => .home (windowHome w a) w.perm Option.none 0
    | Option.none => .miss (.window a)
  | .remote nd id c => .home (.node nd id c) 0xF Option.none 0
  | .tile t o => .home (.scratch t o) 0xF Option.none 0
  | .outside _ => .none

/-- The translation of a part through the tables themselves, as a layout unit, an engine or the MMP makes it. -/
def tableTrans (s : State) (asid : BitVec 12) (p : Part) : Trans :=
  match p.span with
  | .frame n o =>
    match tableEntry s asid n with
    | some w => .home (frameHome w o) (ttePerm w) (entryAddr s asid n) w
    | Option.none => .miss n
  | .page a =>
    match tableEntry s asid (.page (a / 2 ^ 21)) with
    | some w => .home (capHome w a) (ttePerm w) Option.none w
    | Option.none => .miss (.page (a / 2 ^ 21))
  | .host a =>
    match tableWindow s asid a with
    | some w => .home (windowHome w a) w.perm Option.none 0
    | Option.none => .miss (.window a)
  | .remote nd id c => .home (.node nd id c) 0xF Option.none 0
  | .tile t o => .home (.scratch t o) 0xF Option.none 0
  | .outside _ => .none

/-- The needs that a list of translations lacks, each once. -/
def missesOf (ts : List Trans) : List Need :=
  (ts.filterMap (fun t => match t with
    | .miss n => some n
    | .home _ _ _ _ | .none => Option.none)).eraseDups

/-- Every translated part grants the required permission bits. -/
def permitted (need : BitVec 4) (ts : List Trans) : Bool :=
  ts.all (fun t => match t with
    | .home _ p _ _ => p &&& need == need
    | .miss _ | .none => true)

/-! ### Reading and writing through physical places -/

/-- Whether the package holds the memory (Table 7-12). -/
def homeExists (h : Home) (n : Nat) : Bool :=
  match h with
  | .hbm a => decide (a + n ≤ hbmBytes)
  | .lpddr a => decide (a + n ≤ lpddrBytes)
  | .scratch _ _ | .host _ | .node _ _ _ | .nowhere => true

end Sys2Proof.Machine
end

