-- ==== Sys2Proof/Machine/Order.lean ====
section
/-! DEFINITION. The order of accesses (R182 to R205): what is not yet performed, the history that a context carries and
that the places it writes hand on to their readers, and the scopes of releases. -/

namespace Sys2Proof.Machine

/-! ### What is not yet performed -/

/-- The context whose own access it is; 0 for an engine and for the scheduler. -/
def Issuer.uid : Issuer → Nat
  | .ctx _ _ u => u
  | .engine _ _ _ | .scheduler _ => 0

/-- The context on whose behalf an access runs. -/
def Issuer.owner : Issuer → Nat
  | .ctx _ _ u | .engine _ _ u => u
  | .scheduler _ => 0

/-- Some unit is not yet performed. -/
def Flight.isOpen (f : Flight) : Bool := f.units.any (fun u => !u.done)

/-- A write that a release buffer holds. -/
def State.heldOp (s : State) (id : Nat) : Bool :=
  s.tiles.any (fun x => allSlots.any (fun k => [Bank.primary, Bank.second].any (fun b =>
    (x.2.ctx k b).replica.buffer.any (fun h => h.id == id))))

/-- An access or a multicast store that is not yet performed; a held write is not before its commit (R203). -/
def State.openOp (s : State) (id : Nat) : Bool :=
  s.flights.any (fun f => f.id == id && f.isOpen) || s.mcasts.any (fun m => m.id == id) || s.heldOp id

/-- Those of some operations that are not yet performed, each once. -/
def State.stillOpen (s : State) (ids : List Nat) : List Nat := (ids.filter s.openOp).eraseDups

/-- Open writes of a context on their way, multicast stores among them. -/
def State.openWrites (s : State) (uid : Nat) : List Nat :=
  (s.flights.filter (fun f => f.writes && f.isOpen && f.issuer.uid == uid)).map Flight.id
    ++ (s.mcasts.filter (fun m => m.uid == uid)).map Mcast.id

/-- Open writes of a context in causal spaces. -/
def State.openCausal (s : State) (uid : Nat) : List Nat :=
  (s.flights.filter (fun f => f.causal && f.writes && f.isOpen && f.issuer.uid == uid)).map Flight.id

/-- Open reads of a context. -/
def State.openReads (s : State) (uid : Nat) : List Nat :=
  (s.flights.filter (fun f => f.isOpen && f.issuer.uid == uid && f.sink != .none)).map Flight.id

/-! ### Histories -/

/-- The open writes that happen before the next operation of a context: its own, and those that it knows by what it has
observed (R195). -/
def State.history (s : State) (c : Context) : List Nat := s.stillOpen (s.openWrites c.uid ++ c.known)

/-- A write that every reader behind it has to see: one in a causal space (R189), or one that a release-kind FENCE has
covered (R198). -/
def Flight.covers (f : Flight) : Bool := f.writes && (f.causal || f.fenced)

/-- Open writes that a context knows and that cover its reads. -/
def State.knownCover (s : State) (c : Context) : List Nat :=
  (s.flights.filter (fun f => f.covers && f.isOpen && c.known.contains f.id)).map Flight.id

/-- The context of the cursor observes values whose writers had some operations before them. -/
def State.observe (s : State) (ids : List Nat) : State :=
  if ids.isEmpty then s else s.modMe (fun c => { c with known := s.stillOpen (c.known ++ ids) })

/-- The aligned 8-byte unit of a place in this package (R184). -/
def Home.unit : Home → Option Home
  | .hbm a => some (.hbm (a / 8 * 8))
  | .lpddr a => some (.lpddr (a / 8 * 8))
  | .scratch t o => some (.scratch t (o / 8 * 8))
  | .host _ | .node _ _ _ | .nowhere => none

/-- A place n bytes further on. -/
def Home.add : Home → Nat → Home
  | .hbm a, n => .hbm (a + n)
  | .lpddr a, n => .lpddr (a + n)
  | .scratch t o, n => .scratch t (o + n)
  | h, _ => h

/-- The units of n bytes from a place, each with how many of the bytes lie in it. -/
def unitsAt (places : List Home) : List (Home × Nat) :=
  let us := places.filterMap Home.unit
  us.eraseDups.map (fun u => (u, us.count u))

def Home.bytes (h : Home) (n : Nat) : List Home := (List.range n).map h.add

/-- The history of a unit. -/
def marksOf (u : Home) (m : List (Home × List Nat)) : List Nat :=
  match m.find? (fun x => x.1 == u) with
  | some x => x.2
  | none => []

/-- What the readers of some bytes learn: the history of the last write of each unit. -/
def State.historyAt (s : State) (places : List Home) : List Nat :=
  if s.marks.isEmpty then []
  else s.stillOpen ((unitsAt places).flatMap (fun u => marksOf u.1 s.marks))

/-- A write leaves its history at the units of its bytes. A unit that it writes whole forgets what stood there, but a
read-modify-write keeps it: its value contains the earlier ones. -/
def State.mark (s : State) (places : List Home) (history : List Nat) (keeps : Bool) : State :=
  let hist := s.stillOpen history
  if hist.isEmpty && s.marks.isEmpty then s
  else
    { s with marks := (unitsAt places).foldl (fun (m : List (Home × List Nat)) u =>
        let old := marksOf u.1 m
        let new := s.stillOpen (if !keeps && u.2 == 8 then hist else old ++ hist)
        let rest := m.filter (fun x => x.1 != u.1)
        if new.isEmpty then rest else (u.1, new) :: rest) s.marks }

/-- A value on its way to a landing or to a reserved element carries what its reader will know. -/
def State.noteSeen (s : State) (t : Nat) (k : SlotNo) (uid tag : Nat) (q : Option HReg) (seen : List Nat) : State :=
  if seen.isEmpty then s
  else s.modUid t k uid (fun c => match q with
    | none =>
      let put (ls : List Landing) : List Landing :=
        replaceFirst (fun l => !l.arrived && l.tag == tag) (fun l => { l with hist := seen }) ls
      { c with landing := put c.landing, shadow := c.shadow.map (fun sh => { sh with landing := put sh.landing }) }
    | some q => c.setQueue q { c.queue q with
        resv := replaceFirst (fun r => r.id == tag) (fun r => { r with hist := seen }) (c.queue q).resv })

/-- The newest landing of the context of the cursor carries what its reader will know. -/
def State.noteRead (s : State) (seen : List Nat) : State :=
  if seen.isEmpty then s
  else s.modMe (fun c => { c with landing := match c.landing.reverse with
    | l :: ls => (ls.reverse ++ [{ l with hist := seen }])
    | [] => [] })

/-- What the values bring that a context has read and not yet observed: its landings, and the elements of its queues. -/
def Context.unobserved (c : Context) : List Nat :=
  let landed (ls : List Landing) : List Nat := ls.flatMap (fun l => l.hist)
  landed c.landing ++ (match c.shadow with
      | some sh => landed sh.landing
      | none => [])
    ++ c.queues.toList.flatMap (fun q => q.held.flatMap (fun e => e.hist) ++ q.resv.flatMap (fun r => r.hist
      ++ (match r.done with
        | some e => e.hist
        | none => [])))

/-- What the bundle learns from the heads that it reads. -/
def headHistory (c : Context) (hs : List HReg) : List Nat :=
  hs.flatMap (fun q => match (c.queue q).held with
    | e :: _ => e.hist
    | [] => [])

/-! ### Scopes (R192) -/

/-- Whether the instance of a scope that contains a tile of this package contains another; `region` holds the tiles of
the record's region. The package lies whole in the instance of each wider scope. -/
def scopeContains (sc : Scope) (region : List Nat) (t u : Nat) : Bool :=
  match sc with
  | .tile => t == u
  | .region => region.contains u
  | .stack => stackOf t == stackOf u
  | .pkg | .group | .pod | .sys => true

/-- A scope holds every tile of a multicast window. -/
def Mcast.within (m : Mcast) (sc : Scope) (region : List Nat) : Bool :=
  (List.range (m.y1 + 1 - m.y0)).all (fun j => (List.range (m.x1 + 1 - m.x0)).all (fun i =>
    scopeContains sc region m.tile.toNat ((m.y0 + j) * 32 + (m.x0 + i))))

/-- Of some operations those that a release at a scope follows: every one but a multicast store of which some tile lies
outside the scope (R194, R200). -/
def State.withinScope (s : State) (sc : Scope) (region : List Nat) (ids : List Nat) : List Nat :=
  ids.filter (fun id => s.mcasts.all (fun m => m.id != id || m.within sc region))

end Sys2Proof.Machine
end

