-- ==== Sys2Proof/Machine/Scratch.lean ====
section
/-! DEFINITION. The scratchpad of a tile: the bank mapping (R139 to R142), reads and writes with their limit and
SPMERR (R145 to R147), wake tokens (R417, R418), watermarks (R217), multicast windows (R149 to R152), and the elements
of queues (R327, R344, R347). -/

namespace Sys2Proof.Machine

/-! ### Mapping -/

/-- The bank number of BankOf (R140). -/
def bankOf (spmode keys : Word) (a : Nat) : Nat :=
  let row := natBits a 10 11
  let lz := natBits keys.toNat 16 6
  if spmode.getLsbD 0 = false ∨ (lz + 1) * 0x8000 ≤ a then natBits a 4 6
  else
    let h := natBits (row * (2 * natBits keys.toNat 6 10 + 1) % 2 ^ 11) 5 6
    natBits a 4 6 ^^^ h ^^^ natBits keys.toNat 0 6

/-- The physical byte of an S offset below 2 MiB: row, bank and byte of the word. -/
def physByte (spmode keys : Word) (a : Nat) : Nat := natBits a 10 11 * 1024 + bankOf spmode keys a * 16 + a % 16

/-- A mapping: the SPMODE and KEYS of a requester (Table 7-4). -/
structure Mapping where
  spmode : Word
  keys   : Word
  deriving DecidableEq, Repr

def Context.mapping (c : Context) : Mapping := { spmode := c.special.spmode, keys := c.special.keys }

/-- LINEAR. -/
def linear : Mapping := { spmode := 0, keys := 0 }

def Mapping.phys (m : Mapping) (a : Nat) : Nat := physByte m.spmode m.keys a

/-- The scratchpad limit: the release buffer takes the top 64 KiB while a replicated context is bound (R147). -/
def Tile.limit (x : Tile) : Nat :=
  if allSlots.any (fun k => [Bank.primary, Bank.second].any (fun b =>
      (x.ctx k b).status.bound && (x.ctx k b).replica.group != 0)) then 0x1F0000 else 0x200000

/-! ### Bytes -/

/-- One byte of S as a requester sees it: 0 out of range (R145). -/
def Tile.readByte (x : Tile) (m : Mapping) (limit a : Nat) : Byte :=
  if a < limit then Memory.read x.scratch (m.phys a) else 0

/-- n bytes from an S offset; addresses wrap at 2^64. -/
def Tile.readBytes (x : Tile) (m : Mapping) (limit : Nat) (a : Word) : Nat → List Byte
  | 0 => []
  | n + 1 => x.readByte m limit a.toNat :: Tile.readBytes x m limit (a + 1) n

/-- One byte of S written: dropped out of range. -/
def writeByte (mem : Memory) (m : Mapping) (limit a : Nat) (v : Byte) : Memory :=
  if a < limit then Memory.write mem (m.phys a) v else mem

/-- Bytes written from an S offset. -/
def writeBytes (mem : Memory) (m : Mapping) (limit : Nat) (a : Word) : List Byte → Memory
  | [] => mem
  | v :: vs => writeBytes (writeByte mem m limit a.toNat v) m limit (a + 1) vs

/-- The first byte of an access that lies at or above a limit. -/
def firstOut (limit : Nat) (a : Word) : Nat → Option Word
  | 0 => none
  | n + 1 => if a.toNat < limit then firstOut limit (a + 1) n else some a

/-! ### SPMERR (Table 7-5) -/

/-- The word of a capture. -/
def spmerrWord (wr remote : Bool) (tile : Nat) (a : Word) : Word :=
  (1 : Word) <<< 63 ||| (if wr then (1 : Word) <<< 62 else 0) ||| (if remote then (1 : Word) <<< 61 else 0)
    ||| BitVec.ofNat 64 (tile % 1024) <<< 48 ||| (a &&& 0xFFFFFFFFFFFF)

/-- The first out-of-range access fills the register; while V = 1 nothing changes it (R146). -/
def Context.captureSpm (c : Context) (wr remote : Bool) (tile : Nat) (a : Option Word) : Context :=
  match a with
  | some x =>
    if c.special.spmerr.getLsbD 63 then c
    else { c with special := { c.special with spmerr := spmerrWord wr remote tile x } }
  | none => c

/-! ### Wake tokens -/

/-- The first of n bytes from an S offset that lies in [lo, hi); addresses wrap at 2^64. -/
def firstIn (lo hi : Nat) (a : Nat) : Nat → Option Nat
  | 0 => none
  | n + 1 => if lo ≤ a ∧ a < hi then some a else firstIn lo hi ((a + 1) % 2 ^ 64) n

/-- The youngest queued token of a context. -/
def youngestToken (ts : List Token) (uid : Nat) : Option Token := ts.reverse.find? (fun t => t.uid == uid)

/-- The youngest token of a context counts one more matching write. -/
def bumpToken (uid : Nat) (ts : List Token) : List Token :=
  (replaceFirst (fun t => t.uid == uid)
    (fun t => { t with count := if t.count = 0xFFFF then t.count else t.count + 1 }) ts.reverse).reverse

/-- A context of the tile, whichever slot and bank it is in. -/
def Tile.modByUid (x : Tile) (uid : Nat) (f : Context → Context) : Tile :=
  allSlots.foldl (fun t k =>
    [Bank.primary, Bank.second].foldl (fun t' b =>
      let c := t'.ctx k b
      if c.uid = uid ∧ c.status.bound = true then t'.setCtx k b (f c) else t') t) x

/-- A matching write at comparator n (R418). -/
def addToken (x : Tile) (n : Nat) (cm : Comparator) (cls : BitVec 4) (off : Nat) (gtc : Nat) : Tile :=
  match youngestToken x.tokens cm.uid with
  | some t =>
    if t.cmp = BitVec.ofNat 3 n ∧ t.cls = cls then { x with tokens := bumpToken cm.uid x.tokens }
    else pushToken x
  | none => pushToken x
where
  pushToken (x : Tile) : Tile :=
    if x.tokens.length < 64 then
      { x with tokens := x.tokens ++
          [{ uid := cm.uid, cmp := BitVec.ofNat 3 n, cls := cls, off := BitVec.ofNat 21 off, count := 1, at_ := gtc }] }
    else x.modByUid cm.uid (fun c => { c with wakeLost := true })

/-- The group of a replicated context (R271). -/
def State.groupOf (s : State) (c : Context) : Option Group :=
  if c.replica.group = 0 then none else s.groups.find? (fun g => g.id == c.replica.group)

/-- A replica that is not the lead: it takes its inputs from Tongs (R273). -/
def State.nonLead (s : State) (c : Context) : Bool :=
  match s.groupOf c with
  | some g => g.lead != c.replica.stack
  | none => false

/-- The contexts of a tile whose comparators create no token (R420). -/
def State.muted (s : State) (t : Nat) : List Nat :=
  allSlots.flatMap (fun k => [Bank.primary, Bank.second].filterMap (fun b =>
    let c := s.ctx t k b
    if s.nonLead c then some c.uid else none))

/-- The comparators that a write of a cycle meets, with their numbers: those armed in an earlier cycle, and those that a WARM
of this cycle ends (R417). -/
def Tile.armed (x : Tile) (gtc : Nat) : List (Nat × Comparator) :=
  (List.range 8).flatMap (fun i =>
    ((x.ending.filter (fun y => y.1 == i && y.2.2 == gtc)).map (fun y => y.2.1)
      ++ (x.comparators.toList.getD i none).toList).filterMap (fun cm => if cm.since ≤ gtc then some (i, cm) else none))

/-- A write in tile order, of a class and by a context (0 for none), meets the comparators; `first lo hi` is its first
byte in a range. -/
def Tile.wakeBy (x : Tile) (mute : List Nat) (cls : BitVec 4) (writer : Nat) (first : Nat → Nat → Option Nat)
    (gtc : Nat) : Tile :=
  (x.armed gtc).foldl (fun t y =>
    if y.2.filter.getLsbD cls.toNat && !(cls == 3 && y.2.uid == writer) && !mute.contains y.2.uid then
      match first y.2.lo y.2.hi with
      | some off => addToken t y.1 y.2 cls off gtc
      | none => t
    else t) x

/-- A write of n bytes from an offset. -/
def Tile.wake (x : Tile) (mute : List Nat) (cls : BitVec 4) (writer : Nat) (a : Word) (n gtc : Nat) : Tile :=
  x.wakeBy mute cls writer (fun lo hi => firstIn lo hi a.toNat n) gtc

/-! ### Core accesses of the cursor's context -/

/-- The units of some flights that are still to be performed in the scratchpad of a tile. -/
def unitsFor (t : TileId) (fs : List Flight) : List AccessUnit :=
  fs.flatMap (fun f => f.units.filter (fun u => !u.done && (match u.home with
    | .scratch x _ => x == t
    | .hbm _ | .lpddr _ | .host _ | .node _ _ _ | .nowhere => false)))

/-- An N store or counter add as it will take effect in a scratchpad. -/
def unitApplied (limit : Nat) (mem : Memory) (u : AccessUnit) : Memory :=
  match u.home, u.op with
  | .scratch _ o, .store bs => writeBytes mem linear limit (BitVec.ofNat 64 o) bs
  | .scratch _ o, .cadd amt =>
    let old := natOfBytes (Memory.readN mem o 8)
    if o + 8 ≤ limit ∧ old + amt.toNat < 2 ^ 64 then
      writeBytes mem linear limit (BitVec.ofNat 64 o) (bytesOfNat 8 (old + amt.toNat)) else mem
  | _, _ => mem

/-- The tile as a context sees it: its own N writes to the tile, and those that it knows in causal order, stand before
every later read (R183, R189). -/
def State.seenBy (s : State) (t : TileId) (p : Flight → Bool) : Tile :=
  let x := s.tile t.toNat
  match unitsFor t (s.flights.filter (fun f => f.writes && p f)) with
  | [] => x
  | us => { x with scratch := us.foldl (unitApplied x.limit) x.scratch }

/-- The tile of the cursor as its context sees it. -/
def State.seenHere (s : State) : Tile :=
  let c := s.me
  s.seenBy s.cur.tile (fun f => f.issuer.uid == c.uid || (f.covers && c.known.contains f.id))

/-- The bytes that a core load reads. -/
def State.coreBytes (s : State) (a : Word) (n : Nat) : List Byte :=
  s.seenHere.readBytes s.me.mapping s.here.limit a n

/-- The places of n bytes of S under a mapping. -/
def scratchPlaces (t : TileId) (m : Mapping) (limit : Nat) (a : Word) (n : Nat) : List Home :=
  (List.range n).filterMap (fun i =>
    let x := (a + BitVec.ofNat 64 i).toNat
    if x < limit then some (.scratch t (m.phys x)) else none)

/-- What a core read of n bytes brings its context to know. -/
def State.coreHistory (s : State) (a : Word) (n : Nat) : List Nat :=
  if s.marks.isEmpty then [] else s.historyAt (scratchPlaces s.cur.tile s.me.mapping s.here.limit a n)

/-- The capture that a core load makes; its landing carries what the value brings its reader to know. -/
def State.coreLoadCapture (s : State) (a : Word) (n : Nat) : State :=
  let lim := s.here.limit
  (s.modMe (fun c => c.captureSpm false false 0 (firstOut lim a n))).noteRead (s.coreHistory a n)

/-- A core store in the issue cycle: bytes out of range are dropped and captured; comparators see the rest. -/
def State.coreStore (s : State) (a : Word) (bs : List Byte) : State :=
  let lim := s.here.limit
  let m := s.me.mapping
  let uid := s.me.uid
  let s1 := s.modHere (fun x =>
    { x with scratch := writeBytes x.scratch m lim a bs }.wake (s.muted s.cur.tile.toNat) 3 uid a bs.length s.gtc.toNat)
  (s1.modMe (fun c => c.captureSpm true false 0 (firstOut lim a bs.length))).mark
    (scratchPlaces s.cur.tile m lim a bs.length) (s.history s.me) false

/-- The TVAL of MEM_DATA for a core report (R308). (DEDUCED, unsafe; log entry 27.) -/
def memDataCore (space : Nat) (a : Word) : Word := BitVec.ofNat 64 (space * 2 ^ 61) ||| (a &&& 0xFFFFFFFFFFFFF)

/-- Whether a protected 16-byte word of the access holds an uncorrectable error (R164). -/
def State.scratchBad (s : State) (t : Nat) (m : Mapping) (limit : Nat) (a : Word) (n : Nat) : Bool :=
  !s.bad.isEmpty && (List.range n).any (fun i =>
    let x := (a + BitVec.ofNat 64 i).toNat
    decide (x < limit) && s.bad.any (fun b => b == .scratch t (m.phys x / 16)))

/-- The poison mark of a core S read. -/
def State.corePoison (s : State) (a : Word) (n : Nat) : Option Word :=
  if s.scratchBad s.cur.tile.toNat s.me.mapping s.here.limit a n then some (memDataCore 0 a) else none

/-! ### Commands -/

/-- The words of a command record. -/
def XCmd.word (x : XCmd) (i : Fin 8) : Word := x.words[i.val]'i.isLt

/-! ### Queue elements -/

/-- An element's bytes at its place in the ring, under the mapping of the context. -/
def writeElem (x : Tile) (m : Mapping) (q : Queue) (j : Nat) (bs : List Byte) : Tile :=
  { x with scratch := writeBytes x.scratch m x.limit (BitVec.ofNat 64 (q.place j)) bs }

/-- The bytes of element j of a queue in the ring. -/
def Tile.elemBytes (x : Tile) (m : Mapping) (q : Queue) (j : Nat) : List Byte :=
  x.readBytes m x.limit (BitVec.ofNat 64 (q.place j)) q.elemBytes

/-- The head latch of a queue is loaded where its oldest element is not in it yet. -/
def Context.latchHead (c : Context) (x : Tile) (q : HReg) : Context :=
  c.setQueue q ((c.queue q).load (x.elemBytes c.mapping (c.queue q) (c.queue q).cons.toNat))

def State.latchHead (s : State) (t : Nat) (k : SlotNo) (uid : Nat) (q : HReg) : State :=
  s.modUid t k uid (fun c => c.latchHead (s.tile t) q)

/-- Bytes cut or padded with zeros to a length. -/
def padBytes (n : Nat) (bs : List Byte) : List Byte := bs.take n ++ List.replicate (n - bs.length) 0

/-- The bytes of the head element of a queue of the cursor's context: those of its latch (R72). -/
def State.headBytes (s : State) (q : HReg) : List Byte :=
  (bytesOfNat 256 (s.me.queue q).latch.toNat).take (s.me.queue q).elemBytes

/-- The data of a reserved element arrive (R327): the element is written at its place, its comparators are met, and it
becomes held when every element reserved before it has. -/
def State.fillResv (s : State) (t : Nat) (k : SlotNo) (uid : Nat) (q : HReg) (id : Nat) (bs : List Byte)
    (poison : Option Word) : State :=
  match s.uidCtx t k uid with
  | none => s
  | some c =>
    let qu := c.queue q
    let j := qu.prod.toNat + resvIndex id qu.resv
    let at_ := BitVec.ofNat 64 (qu.place j)
    let s1 := s.modTile t (fun x =>
      (writeElem x c.mapping qu j (padBytes qu.elemBytes bs)).wake (s.muted t) 2 uid at_ qu.elemBytes s.gtc.toNat)
    (s1.modUid t k uid (fun c' =>
      c'.setQueue q ((c'.queue q).complete id { complete := s.gtc.toNat, poison := poison }))).latchHead t k uid q

/-- Where an element goes that precedes the reservations from a number on: before the first of them whose element, and
every later one, is still to come; otherwise at the tail. -/
def resvPlace (key : Option Nat) (rs : List QResv) : Nat :=
  match key with
  | none => rs.length
  | some n =>
    match rs.findIdx? (fun r => decide (n ≤ r.id)) with
    | some i => if (rs.drop i).all (fun r => r.done.isNone) then i else rs.length
    | none => rs.length

/-- An element enters a queue behind what is held and reserved there (R347), or before the reservations from a number
on. -/
def State.pushElem (s : State) (t : Nat) (k : SlotNo) (uid : Nat) (q : HReg) (key : Option Nat) (bs : List Byte)
    (poison : Option Word) : State :=
  match s.uidCtx t k uid with
  | none => s
  | some c =>
    let qu := c.queue q
    let i := resvPlace key qu.resv
    let j := qu.prod.toNat + i
    let e : QElem := { complete := s.gtc.toNat, poison := poison }
    let s1 := s.modTile t (fun x =>
      (writeElem x c.mapping qu j bs).wake (s.muted t) 2 uid (BitVec.ofNat 64 (qu.place j)) bs.length s.gtc.toNat)
    (s1.modUid t k uid (fun c =>
      let qu := c.queue q
      let rs := qu.resv.take i ++ { id := 0, done := some e, logAt := none } :: qu.resv.drop i
      c.setQueue q (qu.settle rs))).latchHead t k uid q

/-- A reservation is given up: the access delivers nothing (R174). -/
def State.dropResv (s : State) (t : Nat) (k : SlotNo) (uid : Nat) (q : HReg) (id : Nat) : State :=
  (s.modUid t k uid (fun c =>
    c.setQueue q ((c.queue q).settle ((c.queue q).resv.filter (fun r => r.id != id))))).latchHead t k uid q

end Sys2Proof.Machine
end

