-- ==== Sys2Proof/Machine/Commands.lean ====
section
/-! DEFINITION. The fields of a block-transfer command (Tables 10-1, 10-2, 10-4), its byte counts and its range, and the
watermark that guards the range (R217). -/

namespace Sys2Proof.Machine

/-! ### Fields -/

def XCmd.issue (x : XCmd) : Nat := (x.word 0).toNat
def XCmd.csp (x : XCmd) : Nat := natBits (x.word 1).toNat 46 2
def XCmd.dstSpace (x : XCmd) : Nat := natBits (x.word 1).toNat 43 3
def XCmd.srcSpace (x : XCmd) : Nat := natBits (x.word 1).toNat 40 3
def XCmd.np (x : XCmd) : Bool := (x.word 1).getLsbD 38
def XCmd.ord (x : XCmd) : Bool := (x.word 1).getLsbD 37
def XCmd.rel (x : XCmd) : Bool := (x.word 1).getLsbD 36
def XCmd.acq (x : XCmd) : Bool := (x.word 1).getLsbD 35
def XCmd.scope (x : XCmd) : Nat := natBits (x.word 1).toNat 32 3
def XCmd.stage (x : XCmd) : BitVec 32 := fld (x.word 1) 0 32
def XCmd.gather (x : XCmd) : Bool := x.stage.getLsbD 31
def XCmd.transpose (x : XCmd) : Bool := x.stage.getLsbD 30
def XCmd.convert (x : XCmd) : Bool := x.stage.getLsbD 29
def XCmd.compress (x : XCmd) : Bool := x.stage.getLsbD 28
def XCmd.expand (x : XCmd) : Bool := x.stage.getLsbD 27
def XCmd.fill (x : XCmd) : Bool := x.stage.getLsbD 26
def XCmd.checksum (x : XCmd) : Bool := x.stage.getLsbD 25
def XCmd.sfmt (x : XCmd) : Nat := natBits x.stage.toNat 20 5
def XCmd.dfmt (x : XCmd) : Nat := natBits x.stage.toNat 15 5
def XCmd.sat (x : XCmd) : Bool := x.stage.getLsbD 14
def XCmd.gq (x : XCmd) : HReg := fld x.stage 10 4
def XCmd.src (x : XCmd) : Word := x.word 2
def XCmd.scrd (x : XCmd) : Word := x.word 3
def XCmd.dst (x : XCmd) : Word := x.word 4
def XCmd.dcrd (x : XCmd) : Word := x.word 5
def XCmd.cnt (x : XCmd) : Word := x.word 6
def XCmd.slotUnits (x : XCmd) : Nat := natBits (x.word 7).toNat 32 16
def XCmd.len (x : XCmd) : Nat := natBits (x.word 7).toNat 0 32
def XCmd.map (x : XCmd) : Mapping := { spmode := x.spmode, keys := x.keys }

/-- A stage is set that uses SFMT (R207). -/
def XCmd.usesSfmt (x : XCmd) : Bool := x.gather || x.expand || x.transpose || x.convert || x.compress

/-- The source element size z: 1 when no stage uses SFMT. -/
def XCmd.zs (x : XCmd) : Nat := if x.usesSfmt then fmtElemBytes x.sfmt else 1

/-- The destination element size. -/
def XCmd.zd (x : XCmd) : Nat := if x.convert then fmtElemBytes x.dfmt else x.zs

/-- The D side of an XCPYT: tensor id and coordinates. -/
def XCmd.tensorSide (x : XCmd) : Nat × Word :=
  if x.srcSpace = 2 then (natBits x.src.toNat 0 20, x.scrd) else (natBits x.dst.toNat 0 20, x.dcrd)

/-- The descriptor of an XCPYT's tensor, as the tables hold it. -/
def XCmd.desc (s : State) (x : XCmd) : Option Desc := (tableDesc s x.asid x.tensorSide.1).map descOf

/-- The bytes of a tile. -/
def Desc.tileBytes (d : Desc) : Nat := 2 ^ d.lt.sum * d.elemBytes

/-- Bytes of uncompressed source elements: LEN, or the tile. -/
def XCmd.srcLen (s : State) (x : XCmd) : Nat :=
  if x.tiled then (match x.desc s with
    | some d => d.tileBytes
    | none => 0)
  else x.len

/-- Destination bytes without the checksum (Table 10-4). -/
def XCmd.bodyLen (s : State) (x : XCmd) : Nat :=
  if x.compress then x.slotUnits * 16 else x.srcLen s / x.zs * x.zd

/-- The bytes of a complete command (R216). -/
def XCmd.dstLen (s : State) (x : XCmd) : Nat := x.bodyLen s + (if x.checksum then 8 else 0)

/-! ### Watermarks -/

/-- The lowest destination address not yet written contiguously, in 32-byte steps (R217). -/
def watermarkOf (s : State) (x : XCmd) (done : Nat) : Nat :=
  let d := x.dst.toNat
  let w := x.dstLen s
  if w ≤ done then d + w
  else d + done / 32 * 32

/-- The commands of a tile whose ranges hold, with what each has written: accepted, running, or ended and not complete;
an aborted command has released its range. -/
def Tile.ranges (x : Tile) : List (XCmd × Nat) :=
  x.buffer.map (fun c => (c, 0))
    ++ x.channels.toList.filterMap (fun ch => ch.run.map (fun r => (r.cmd, r.done)))
    ++ x.done.filterMap (fun d => if d.status = 1 then some (d.cmd, 2 ^ 40) else none)

/-- The bytes at or above the watermark in some range that an access touches. -/
def touchesWatermark (s : State) (x : Tile) (a n : Nat) : Bool :=
  x.ranges.any (fun r =>
    r.1.dstSpace == 0 &&
      (let lo := watermarkOf s r.1 r.2
       let hi := r.1.dst.toNat + r.1.dstLen s
       decide (lo < hi ∧ a < hi ∧ lo < a + n)))

/-- The block of a core S access (R29, R217). -/
def State.watermarkBlock (s : State) (a : Word) (n : Nat) : Option BlockCond :=
  if touchesWatermark s s.here a.toNat n then some (.watermark a.toNat n) else none

end Sys2Proof.Machine
end

