-- ==== Sys2Proof/Machine/Mmp.lean ====
section
/-! DEFINITION. What the memory-management processor does to its tables: frames and pages, the service of one need
(Table 8-5), shoot-downs (R176, R177) and the log of a record (R283). -/

namespace Sys2Proof.Machine

/-! ### Frames and pages -/

/-- Frames of HBM and pages of LPDDR-6 that the package holds. -/
def maxFrames : Nat := hbmBytes / 65536
def maxPages : Nat := lpddrBytes / 2 ^ 21

/-- Memory with the bytes of a range zero. -/
def clearRange (m : Memory) (lo n : Nat) : Memory := m.filter (fun c => !(decide (lo ≤ c.1) && decide (c.1 < lo + n)))

/-- The bytes of a range, moved to another address. -/
def copyRange (m : Memory) (lo n dst : Nat) (into : Memory) : Memory :=
  m.foldl (fun acc c => if lo ≤ c.1 ∧ c.1 < lo + n then Memory.write acc (dst + (c.1 - lo)) c.2 else acc) into

def State.modMmp (s : State) (f : Mmp → Mmp) : State := { s with mmp := f s.mmp }

/-- The 16 KiB granules of an HBM4 (R11): 48 GiB. -/
def hbm4Granules : Nat := 48 * 2 ^ 30 / 2 ^ 14

/-- The granules that a frame takes of HBM4 2·t + b: those of its parity in its home stack, or in every stack where it is
interleaved (R11, R160). -/
def frameLoad (place stack f : Nat) (i : Nat) : Nat :=
  if i % 2 ≠ f % 2 then 0 else if place = 0 then 1 else if i / 2 = stack then 4 else 0

/-- Every HBM4 has room for a frame. -/
def Mmp.fits (m : Mmp) (place stack f : Nat) : Bool :=
  m.used.toList.zipIdx.all (fun u => decide (u.1 + frameLoad place stack f u.2 ≤ hbm4Granules))

/-- A frame counts against the capacity of its HBM4s. -/
def Mmp.charge (m : Mmp) (place stack f : Nat) : Mmp :=
  { m with used := Vector.ofFn (fun i : Fin 8 => m.used[i] + frameLoad place stack f i.val) }

def Mmp.discharge (m : Mmp) (place stack f : Nat) : Mmp :=
  { m with used := Vector.ofFn (fun i : Fin 8 => m.used[i] - frameLoad place stack f i.val) }

/-- A free frame for a place and a stack: the hinted one where it is free, or a freed one, or the next unused one of either
parity. (DESIGN CHOICE, unsafe; log entry 17.) -/
def State.takeFrame (s : State) (place stack hint : Nat) : Option (Nat × State) :=
  let m := s.mmp
  let taken (f : Nat) (m1 : Mmp) : Option (Nat × State) := some (f, { s with mmp := m1.charge place stack f })
  if m.freeFrames.contains hint && m.fits place stack hint then
    taken hint { m with freeFrames := m.freeFrames.erase hint }
  else match m.freeFrames.find? (m.fits place stack) with
    | some f => taken f { m with freeFrames := m.freeFrames.erase f }
    | none =>
      let n := m.nextFrame
      if n < maxFrames ∧ m.fits place stack n = true then taken n { m with nextFrame := n + 1 }
      else if n + 1 < maxFrames ∧ m.fits place stack (n + 1) = true then
        taken (n + 1) { m with nextFrame := n + 2, freeFrames := n :: m.freeFrames }
      else none

/-- n interleaved frames in a row, for a table: freed ones, or the next unused. -/
def State.takeFrames (s : State) (n : Nat) : Option (Nat × State) :=
  let m := s.mmp
  let run (f : Nat) : List Nat := (List.range n).map (fun i => f + i)
  let charged (f : Nat) : Mmp := (run f).foldl (fun (m : Mmp) i => m.charge 0 0 i) m
  let roomy (f : Nat) : Bool := (charged f).used.toList.all (fun u => decide (u ≤ hbm4Granules))
  let cleared (f : Nat) (m1 : Mmp) : Option (Nat × State) :=
    some (f, { s with mmp := m1, hbm := clearRange s.hbm (f * 65536) (n * 65536) })
  match m.freeFrames.find? (fun f => (run f).all (fun i => m.freeFrames.contains i) && roomy f) with
  | some f => cleared f { charged f with freeFrames := m.freeFrames.filter (fun i => !(run f).contains i) }
  | none =>
    if m.nextFrame + n ≤ maxFrames ∧ roomy m.nextFrame = true then
      cleared m.nextFrame { charged m.nextFrame with nextFrame := m.nextFrame + n }
    else none

/-- A free 2 MiB page of LPDDR-6. -/
def State.takePage (s : State) : Option (Nat × State) :=
  match s.mmp.freePages with
  | p :: rest => some (p, s.modMmp (fun m => { m with freePages := rest }))
  | [] =>
    if s.mmp.nextPage < maxPages then
      some (s.mmp.nextPage, s.modMmp (fun m => { m with nextPage := m.nextPage + 1 }))
    else none

/-- A frame of a place and a stack is free again. -/
def State.freeFrame (s : State) (place stack f : Nat) : State :=
  s.modMmp (fun m => { m.discharge place stack f with freeFrames := f :: m.freeFrames })

/-- The frame of an entry word is free again. -/
def State.freeEntryFrame (s : State) (w : Word) : State := s.freeFrame (ttePlace w) (tteStack w) (tteFrame w)

def State.freePage (s : State) (p : Nat) : State := s.modMmp (fun m => { m with freePages := p :: m.freePages })

/-! ### The service of a need (Table 8-5) -/

/-- What a service finds. -/
inductive Served where
  | mapped
  | refused (reason : BitVec 8)
  /-- The host is asked for pages at an address. -/
  | pin (addr : Word) (pages : Nat)
  /-- No frame is free for a place and a stack: a frame is evicted first (R177). -/
  | evict (place stack : Nat)
  /-- The entry is under shoot-down (R181). -/
  | wait
  deriving DecidableEq, Repr

/-- PLACE, STACK and PERM with which a need is mapped (R159): of an entry that a base and its aliases share, those of the
tensor id that faulted, since the spec does not say whose arguments apply. (DESIGN CHOICE, unsafe; log entry 52.) -/
def mapAttrs (e : AsidEntry) (n : Need) (stack : BitVec 2) : Nat × Nat × BitVec 4 :=
  match n with
  | .tile id _ =>
    match e.defs.find? (fun d => d.1 == id) with
    | some (_, pl, st, perm, _) =>
      if pl = 1 then (1, stack.toNat, perm) else if pl = 2 then (2, st.toNat, perm) else (0, 0, perm)
    | none => (0, 0, 0xF)
  | .flat _ | .desc _ | .page _ | .window _ => (0, 0, 0xF)

/-- First touch of a tile-table entry, or the return of an evicted one, which keeps the PLACE, STACK and ACNT of its entry
(R159, R160). -/
def State.mapFrame (s : State) (e : AsidEntry) (n : Need) (addr : Nat) (stack : BitVec 2) (hint : Nat) :
    State × Served :=
  let old := BitVec.ofNat 64 (hbmWord s addr 8)
  let page := assocGet addr e.evicted
  let (pl0, st0, perm) := mapAttrs e n stack
  let (pl, st) := if page.isSome then (ttePlace old, tteStack old) else (pl0, st0)
  match s.takeFrame pl st hint with
  | none => (s, .evict pl st)
  | some (f, s1) =>
    let clear := { s1 with hbm := clearRange s1.hbm (f * 65536) 65536 }
    let s2 :=
      match page with
      | some pg =>
        let back := { clear with hbm := copyRange clear.lpddr (pg * 2 ^ 21) 65536 (f * 65536) clear.hbm }
        (back.freePage pg).modAsid e.id (fun x => { x with evicted := x.evicted.filter (fun v => v.1 != addr) })
      | none => clear
    (s2.writeHbmWord addr (tteWord 0 pl st perm f (if page.isSome then tteAcnt old else 0) 0), .mapped)

/-- A C page inside a region that the host has mapped: both levels are written. Neither a rule nor CMAP gives PERM of a
capacity page, and the model grants all four bits; where no page of LPDDR-6 is free it refuses, with reason 2, for which
Table 8-5 gives no row. (DESIGN CHOICE, unsafe; log entry 53.) -/
def State.mapPage (s : State) (e : AsidEntry) (n : Nat) : State × Served :=
  let a := n * 2 ^ 21
  if e.cmaps.any (fun r => decide (r.1 ≤ a ∧ a < r.1 + r.2)) then
    match s.takePage with
    | none => (s, .refused 2)
    | some (pg, s1) =>
      let l1 := e.cpt + natBits a 34 14 * 8
      let s2? :=
        match capEntryAddr s1 e a with
        | some _ => some s1
        | none => (s1.takeFrame 0 0 0).map (fun (f, s') =>
            { s' with hbm := clearRange s'.hbm (f * 65536) 65536 }.writeHbmWord l1
              (BitVec.ofNat 64 (2 ^ 63 + f * 65536)))
      match s2? with
      | none => (s, .evict 0 0)
      | some s2 =>
        match capEntryAddr s2 e a with
        | none => (s, .refused 2)
        | some l2 =>
          let s3 := { s2 with lpddr := clearRange s2.lpddr (pg * 2 ^ 21) (2 ^ 21) }
          (s3.writeHbmWord l2 (BitVec.ofNat 64 (2 ^ 63 + 2 ^ 60 + 0xF * 2 ^ 52 + pg * 2 ^ 21)), .mapped)
  else (s, .refused 2)

/-- An entry word whose PLACE is 11 or whose TIER is 3 to 7 (reason 6). -/
def malformed (w : Word) : Bool := natBits w.toNat 58 2 == 3 || decide (3 ≤ natBits w.toNat 60 3)

/-- A tile of a tensor that has been freed: there is nothing to map, and the walker answers the access that is presented
again (R171). -/
def needFreed (s : State) (asid : BitVec 12) (n : Need) : Bool :=
  match n with
  | .tile id _ => match tableDesc s asid id with
    | some w => !(descOf w).valid
    | none => true
  | .flat _ | .desc _ | .page _ | .window _ => false

/-- What a service maps: two needs that name one frame, page or window are one (R172). -/
def needKey (s : State) (asid : BitVec 12) (n : Need) : Option EntryKey :=
  match n with
  | .tile _ _ | .flat _ => (entryAddr s asid n).map EntryKey.tile
  | .page p => some (.page p)
  | .window a =>
    match s.asidEntry asid with
    | some e => (windowOf e.windows a).map (fun w => .window w.hva)
    | none => none
  | .desc _ => none

def sameNeed (s : State) (asid : BitVec 12) (a b : Need) : Bool :=
  a == b || (match needKey s asid a, needKey s asid b with
    | some x, some y => x == y
    | _, _ => false)

/-- One need served. The spec does not say which host address a pin request for a host-backed tile-table entry names: the
model asks for its frame, 16 host pages at FRAME·2^16. (DESIGN CHOICE, unsafe; log entry 47.) -/
def State.serveNeed (s : State) (asid : BitVec 12) (stack : BitVec 2) (hint : Nat) (n : Need) : State × Served :=
  match s.asidEntry asid with
  | none => (s, .refused 2)
  | some e =>
    match n with
    | .desc _ => (s, .mapped)
    | .tile _ _ | .flat _ =>
      if needFreed s asid n then (s, .mapped)
      else match entryAddr s asid n with
      | none => (s, .refused 1)
      | some a =>
        let w := BitVec.ofNat 64 (hbmWord s a 8)
        if s.mmp.shoots.any (fun x => x.key == .tile a) then (s, .wait)
        else if malformed w then (s, .refused 6)
        else if w.getLsbD 63 then (s, .mapped)
        else if tteTier w = 2 then (s, .pin (BitVec.ofNat 64 (tteFrame w * 65536)) 16)
        else s.mapFrame e n a stack hint
    | .page p =>
      match tableEntry s asid n with
      | some _ => (s, .mapped)
      | none => s.mapPage e p
    | .window a =>
      match windowOf e.windows a with
      | none => (s, .refused 2)
      | some w =>
        if s.mmp.shoots.any (fun x => x.asid == asid && x.key == .window w.hva) then (s, .wait)
        else if w.valid && w.resident then (s, .mapped)
        else (s, .pin w.hva w.pages.toNat)

/-- The needs of one record served in order, each for the stack of its first requester, up to the first that is not
mapped. -/
def State.serveNeeds (s : State) (asid : BitVec 12) (stack : Need → BitVec 2) (hint : Nat) :
    List Need → State × Served × Option Need
  | [] => (s, .mapped, none)
  | n :: ns =>
    match s.serveNeed asid (stack n) hint n with
    | (s1, .mapped) => State.serveNeeds s1 asid stack hint ns
    | (s1, r) => (s1, r, some n)

/-- Whether a need is satisfied by the tables. -/
def needMapped (s : State) (asid : BitVec 12) (n : Need) : Bool :=
  match n with
  | .desc id => match tableDesc s asid id with
    | some w => (descOf w).valid
    | none => false
  | .window a => (tableWindow s asid a).isSome
  | .tile _ _ | .flat _ | .page _ => (tableEntry s asid n).isSome

/-! ### Filling a translation cache -/

/-- The cache of a tile takes what the tables hold for a need; a need that they do not hold is not filled. -/
def State.fillNeed (s : State) (t : Nat) (asid : BitVec 12) (n : Need) : State :=
  match n with
  | .desc id =>
    match tableDesc s asid id with
    | some w => if (descOf w).valid then s.modTile t (fun x => x.fillDesc { asid := asid, id := id, words := w }) else s
    | none => s
  | .tile _ _ | .flat _ =>
    match entryAddr s asid n, tableEntry s asid n with
    | some a, some w => s.modTile t (fun x => x.fillEntry { asid := asid, key := .tile a, word := w, win := none })
    | _, _ => s
  | .page p =>
    match tableEntry s asid n with
    | some w => s.modTile t (fun x => x.fillEntry { asid := asid, key := .page p, word := w, win := none })
    | none => s
  | .window a =>
    match tableWindow s asid a with
    | some w => s.modTile t (fun x => x.fillEntry { asid := asid, key := .window w.hva, word := 0, win := some w })
    | none => s

/-- Dropping what an invalidation names (R176). -/
def Tile.invalidate (x : Tile) (asid : BitVec 12) (k : EntryKey) : Tile :=
  { x with entries := x.entries.filter (fun e =>
      !(e.key == k && (match k with
        | .tile _ => true
        | .page _ | .window _ => e.asid == asid))) }

/-! ### Shoot-down -/

/-- The tiles whose cache holds an entry for a key: the agents that acknowledge. -/
def cachingTiles (s : State) (asid : BitVec 12) (k : EntryKey) : List Nat :=
  (s.tiles.filter (fun x => x.2.entries.any (fun e => e.key == k && (e.asid == asid ||
    (match k with
      | .tile _ => true
      | .page _ | .window _ => false))))).map Prod.fst

/-- Step 1 of R176 for a table entry, and the broadcast. Agent 0 is the layout units; agent t + 1 is tile t. -/
def State.shootEntry (s : State) (asid : BitVec 12) (addr : Nat) (work : ShootWork)
    (seq : Option (BitVec 16)) : State :=
  let w := BitVec.ofNat 64 (hbmWord s addr 8)
  let s1 := s.writeHbmWord addr (w &&& ~~~(1#64 <<< 63))
  let sd : Shootdown :=
    { id := s.nextId, asid := asid, key := .tile addr, old := w
      acks := 0 :: (cachingTiles s asid (.tile addr)).map (fun t => t + 1), work := work, seq := seq, due := s.gtc.toNat + 3000 }
  { s1 with nextId := s.nextId + 1 }.modMmp (fun m => { m with shoots := m.shoots ++ [sd] })

/-- The four words of a window (Table 8-2). -/
def HostWindow.words (w : HostWindow) : List Word :=
  [w.hva, w.pages.setWidth 64, w.bus,
   (if w.valid then (1 : Word) <<< 63 else 0) ||| (if w.resident then (1 : Word) <<< 62 else 0) |||
     w.perm.setWidth 64 <<< 52]

/-- The windows of an address space change, and its table in memory with them (R167). -/
def State.setWindows (s : State) (asid : BitVec 12) (f : List HostWindow → List HostWindow) : State :=
  match s.asidEntry asid with
  | none => s
  | some e =>
    let ws := f e.windows
    let cleared := { s with hbm := clearRange s.hbm e.hwt 32768 }
    ((ws.flatMap HostWindow.words).zipIdx.foldl (fun (st : State) x => st.writeHbmWord (e.hwt + 8 * x.2) x.1)
      cleared).modAsid asid (fun x => { x with windows := ws })

/-- The same for a host window. -/
def State.shootWindow (s : State) (asid : BitVec 12) (hva : Word) (seq : Option (BitVec 16)) : State :=
  let s1 := s.setWindows asid (fun ws => ws.map (fun w => if w.hva = hva then { w with valid := false } else w))
  let sd : Shootdown :=
    { id := s.nextId, asid := asid, key := .window hva, old := 0
      acks := 0 :: (cachingTiles s asid (.window hva)).map (fun t => t + 1), work := .removeWindow asid hva
      seq := seq, due := s.gtc.toNat + 3000 }
  { s1 with nextId := s.nextId + 1 }.modMmp (fun m => { m with shoots := m.shoots ++ [sd] })

/-- The same for a capacity page, whose level-2 entry stands at an address. -/
def State.shootPage (s : State) (asid : BitVec 12) (page addr : Nat) (seq : Option (BitVec 16)) : State :=
  let w := BitVec.ofNat 64 (hbmWord s addr 8)
  let s1 := s.writeHbmWord addr (w &&& ~~~(1#64 <<< 63))
  let sd : Shootdown :=
    { id := s.nextId, asid := asid, key := .page page, old := w
      acks := 0 :: (cachingTiles s asid (.page page)).map (fun t => t + 1), work := .free
      seq := seq, due := s.gtc.toNat + 3000 }
  { s1 with nextId := s.nextId + 1 }.modMmp (fun m => { m with shoots := m.shoots ++ [sd] })

/-- The table entries of an address space that are valid and interleaved or stack-local, with their addresses. -/
def evictable (s : State) : List (BitVec 12 × Nat × Word) :=
  s.mmp.asids.flatMap (fun e =>
    let tensor := e.defs.flatMap (fun d =>
      match d.2.2.2.2, tableDesc s e.id d.1 with
      | none, some w => (List.range (descOf w).ntiles).map (fun i => (descOf w).ttb + 8 * i)
      | _, _ => [])
    let flat := (List.range e.fntiles).map (fun i => e.fttb + 8 * i)
    ((tensor ++ flat).map (fun a => (e.id, a, BitVec.ofNat 64 (hbmWord s a 8)))).filter (fun x =>
      tteValid x.2.2 && tteTier x.2.2 == 0 && ttePlace x.2.2 != 2))

/-- One eviction for a place and a stack, among the frames whose entries a running transfer does not use: a frame whose
accessed flag is 0, or else, once a second pass has cleared that flag, the first frame (R177). FLAGS is the MMP's to
write (R159), and the spec does not say when it sets them: in the model nothing does. (DESIGN CHOICE, unsafe; log
entry 17.) -/
def State.startEviction (s : State) (inUse : List Nat) (place stack : Nat) : State :=
  let free := (evictable s).filter (fun x => !inUse.contains x.2.1)
  let here := free.filter (fun x => ttePlace x.2.2 != 0 && tteStack x.2.2 == stack)
  let cands := if place = 0 then free else here ++ free.filter (fun x => ttePlace x.2.2 == 0)
  match cands.find? (fun x => !x.2.2.getLsbD 1) with
  | some (a, addr, _) => s.shootEntry a addr (.evict addr) none
  | none =>
    match cands with
    | (a, addr, _) :: _ =>
      (cands.foldl (fun (st : State) x => st.writeHbmWord x.2.1 (x.2.2 &&& ~~~(2 : Word))) s).shootEntry a addr
        (.evict addr) none
    | [] => s

/-! ### C bytes written by the device itself -/

/-- n bytes at a C address, written through the tables; a page is mapped at first touch. -/
def State.writeCap (s : State) (asid : BitVec 12) (a : Nat) (bs : List Byte) : State :=
  let s1 := if needMapped s asid (.page (a / 2 ^ 21)) then s else (s.serveNeed asid 0 0 (.page (a / 2 ^ 21))).1
  match tableTrans s1 asid { off := 0, len := bs.length, span := .page a } with
  | .home (.lpddr p) _ _ _ => s1.writeLpddr p bs
  | .home _ _ _ _ | .miss _ | .none => s1

/-- n bytes at a C address, read through the tables. -/
def readCap (s : State) (asid : BitVec 12) (a n : Nat) : List Byte :=
  match tableTrans s asid { off := 0, len := n, span := .page a } with
  | .home (.lpddr p) _ _ _ => Memory.readN s.lpddr p n
  | .home _ _ _ _ | .miss _ | .none => List.replicate n 0

end Sys2Proof.Machine
end

