-- ==== Sys2Proof/Machine/Records.lean ====
section
/-! DEFINITION. Launch records as the machine reads them (R287, Table 15-1), the packages and the tiles of a record (R24, R25,
R27), its tile areas (R299, Table 15-3), and its withdrawal (R295, R298). -/

namespace Sys2Proof.Machine

def State.record (s : State) (rid : Nat) : Option Record := s.records.find? (fun r => r.rid == rid)

def State.modRecord (s : State) (rid : Nat) (f : Record → Record) : State :=
  { s with records := replaceFirst (fun r => r.rid == rid) f s.records }

/-! ### The record (Table 15-1) -/

/-- NLEV of a record. -/
def recNlev (ws : List Word) : Nat := natBits (ws.getD 1 0).toNat 12 4

/-- The domain of a level of a record, and its extent in instances. -/
def levelDomain (ws : List Word) (i : Nat) : Nat := natBits (ws.getD (3 + i) 0).toNat 0 3

def levelExtent (ws : List Word) (i : Nat) : Nat :=
  let w := (ws.getD (3 + i) 0).toNat
  if levelDomain ws i = 1 then (natBits w 32 5 + 1) * (natBits w 37 5 + 1) else natBits w 32 21 + 1

/-- How many contexts one instance of a level has. -/
def instanceSize (ws : List Word) (level : Nat) : Nat :=
  (List.range level).foldl (fun acc i => acc * levelExtent ws i) 1

/-- The lowest flat index of the level instance of a context. -/
def instanceBase (ws : List Word) (flat level : Nat) : Nat := flat / instanceSize ws level * instanceSize ws level

/-- Width and height of the region: 1×1 with one level. -/
def regionSize (ws : List Word) : Nat × Nat :=
  if recNlev ws ≤ 1 then (1, 1)
  else (natBits (ws.getD 4 0).toNat 32 5 + 1, natBits (ws.getD 4 0).toNat 37 5 + 1)

def recEntry (ws : List Word) : Word := ws.getD 0 0
/-- The ASID of a record. -/
def recAsid (ws : List Word) : BitVec 12 := fld (ws.getD 1 0) 0 12
def recSpSize (ws : List Word) : Nat := natBits (ws.getD 1 0).toNat 48 6
def recSpBase (ws : List Word) : Nat := natBits (ws.getD 1 0).toNat 40 5
def recRed (ws : List Word) : Nat := natBits (ws.getD 1 0).toNat 22 2
def recReplay (ws : List Word) : Bool := (ws.getD 1 0).getLsbD 21
def recLog (ws : List Word) : Bool := (ws.getD 1 0).getLsbD 20
def recDet (ws : List Word) : Bool := (ws.getD 1 0).getLsbD 19
def recPrio (ws : List Word) : BitVec 3 := fld (ws.getD 1 0) 16 3
def recNode0 (ws : List Word) : BitVec 21 := fld (ws.getD 11 0) 0 21
def recCamt (ws : List Word) : Word := ws.getD 26 0
def levelScope (ws : List Word) (i : Nat) : Nat := natBits (ws.getD (3 + i) 0).toNat 4 3

/-- A counter of a record: space, node and address; the word at i + 1 codes the first two. -/
structure RecCounter where
  space : Nat
  node  : BitVec 21
  addr  : Word
  deriving DecidableEq, Repr

def recCounter (ws : List Word) (i : Nat) : RecCounter :=
  { space := natBits (ws.getD (i + 1) 0).toNat 62 2, node := fld (ws.getD (i + 1) 0) 32 21, addr := ws.getD i 0 }

/-- The four dependences and the completion counter. -/
def recCounters (ws : List Word) : List RecCounter := [12, 15, 18, 21, 24].map (recCounter ws)

/-- Contexts of a tile. -/
def recContexts (ws : List Word) : Nat := levelExtent ws 0

/-- The product of the extents of the levels whose domain a test accepts. -/
def extentOf (ws : List Word) (p : Nat → Bool) : Nat :=
  (List.range (recNlev ws)).foldl (fun acc i => if p (levelDomain ws i) then acc * levelExtent ws i else acc) 1

/-- Regions in one package, and packages. -/
def recRegions (ws : List Word) : Nat := extentOf ws (fun d => d == 2 || d == 3)
def recPackages (ws : List Word) : Nat := extentOf ws (fun d => decide (4 ≤ d))

/-- The extent of the region level; 1 without one. -/
def regionExtent (ws : List Word) : Nat := extentOf ws (fun d => d == 2)

def hasStackLevel (ws : List Word) : Bool := (List.range (recNlev ws)).any (fun i => levelDomain ws i == 3)

/-- Contexts of the whole record. -/
def recTotal (ws : List Word) : Nat := extentOf ws (fun _ => true)

/-- Copies of each region (R271). -/
def recCopies (ws : List Word) : Nat := if recRed ws ≤ 1 then 1 else recRed ws

/-- The other packages of a record, in ascending order. -/
def otherNodes (s : State) (ws : List Word) : List Nat :=
  ((List.range (recPackages ws)).map (fun j => (recNode0 ws).toNat + j)).filter (fun n => n != s.node.toNat)

/-! ### Its tiles -/

/-- The tiles of a rectangle. -/
def rectTiles (x0 y0 x1 y1 : Nat) : List Nat :=
  (List.range (y1 + 1 - y0)).flatMap (fun j => (List.range (x1 + 1 - x0)).map (fun i => (y0 + j) * 32 + (x0 + i)))

/-- The tiles of a region from its north-west tile, in the order of their ordinals. -/
def regionTiles (ws : List Word) (nw : Nat) : List Nat :=
  let (w, h) := regionSize ws
  rectTiles (tileX nw) (tileY nw) (tileX nw + w - 1) (tileY nw + h - 1)

/-- The tiles of a placement. -/
def placedTiles (ws : List Word) (pl : Placement) : List Nat := pl.corners.flatMap (fun c => regionTiles ws c.2)

/-- The contexts that a placement has: tile, slot and flat index. -/
def placedContexts (r : Record) (pl : Placement) : List (Nat × SlotNo × Nat) :=
  let ws := r.words
  let (w, h) := regionSize ws
  pl.corners.flatMap (fun c => (regionTiles ws c.2).zipIdx.flatMap (fun t => (pl.slotsOf t.1).zipIdx.map (fun k =>
    (t.1, k.1, (((r.pkgIndex * recRegions ws + c.1) * (w * h) + t.2) * recContexts ws + k.2)))))

/-! ### Tile areas (R299, Table 15-3) -/

/-- Where the parts of a tile area begin, and its size: the header stands at 0. -/
structure AreaParts where
  scratch  : Nat
  acc      : Nat
  engines  : Nat
  contexts : Nat
  size     : Nat
  deriving DecidableEq, Repr

/-- The parts of an area for n contexts with a scratchpad range of some 64 KiB units: for RED ≥ 2 the slot parts of the
release buffer follow the range, and an accumulator image is there when the matrix unit is owned. -/
def areaParts (units : Nat) (replicated owned : Bool) (n : Nat) : AreaParts :=
  let acc := 0x1000 + units * 0x10000 + (if replicated then n * 0x4000 else 0)
  let engines := acc + (if owned then 324 * 1024 else 0)
  let contexts := engines + 0x8000
  { scratch := 0x1000, acc := acc, engines := engines, contexts := contexts, size := contexts + n * 0x18000 }

/-- The parts of the area of a record's tile. -/
def recParts (ws : List Word) (owned : Bool) : AreaParts :=
  areaParts (recSpSize ws) (decide (2 ≤ recRed ws)) owned (recContexts ws)

/-- The physical address of a byte of an area. -/
def TileArea.addr (a : TileArea) (off : Nat) : Nat := a.frames.getD (off / 65536) 0 * 65536 + off % 65536

/-- The bytes of an area from an offset. -/
def State.readArea (s : State) (a : TileArea) (off n : Nat) : List Byte :=
  (List.range n).map (fun i => Memory.read s.hbm (a.addr (off + i)))

def State.writeArea (s : State) (a : TileArea) (off : Nat) (bs : List Byte) : State :=
  { s with hbm := bs.zipIdx.foldl (fun (m : Memory) b => Memory.write m (a.addr (off + b.2)) b.1) s.hbm }

/-- The cells of an area that are not zero, in a range of offsets. -/
def State.areaCells (s : State) (a : TileArea) (off n : Nat) : List Host.Cell :=
  a.frames.zipIdx.flatMap (fun f => s.hbm.filterMap (fun c =>
    let o := f.2 * 65536 + (c.1 - f.1 * 65536)
    if c.1 / 65536 = f.1 ∧ off ≤ o ∧ o < off + n then some (o - off, c.2) else none))

/-- n frames of the home stack, zero. -/
def State.takeArea (s : State) (stack : Nat) : Nat → Option (List Nat × State)
  | 0 => some ([], s)
  | n + 1 =>
    match s.takeFrame 1 stack 0 with
    | none => none
    | some (f, s1) =>
      match State.takeArea { s1 with hbm := clearRange s1.hbm (f * 65536) 65536 } stack n with
      | none => none
      | some (fs, s2) => some (f :: fs, s2)

/-- The MMP reserves a tile area for each tile of a placement, in its home stack, with room for every part; none where a
stack has no room. (DESIGN CHOICE, unsafe; log entry 55.) -/
def State.reserveAreas (s : State) (ws : List Word) : List Nat → Option (List TileArea × State)
  | [] => some ([], s)
  | t :: ts =>
    match s.takeArea (stackOf t) (ceilDiv (recParts ws true).size 65536) with
    | none => none
    | some (fs, s1) =>
      match State.reserveAreas s1 ws ts with
      | none => none
      | some (as, s2) => some ({ tile := t, stack := stackOf t, frames := fs } :: as, s2)

/-- The areas of a record are free again. -/
def State.freeAreas (s : State) (r : Record) : State :=
  r.areas.foldl (fun (st : State) a => a.frames.foldl (fun (st : State) f => st.freeFrame 1 a.stack f) st) s

/-! ### Withdrawal (R295, R298, R301) -/

/-- The packages to which NODE0 has sent a reserve request for a record. -/
def askedNodes (s : State) (r : Record) : List Nat :=
  let all := otherNodes s r.words
  match r.phase with
  | .reserving left => all.take (all.length + 1 - left.length)
  | .reserved | .running | .saved | .ended => if r.pkgIndex = 0 then all else []
  | .pooled | .requested => []

/-- Some packages are told what has been done with a record. -/
def State.tellNodes (s : State) (ns : List Nat) (tgt : AbortTarget) (post : Bool) : State :=
  { s with out := s.out ++ ns.map (fun n => .abort (BitVec.ofNat 21 n) tgt post) }

/-- An abort is passed on to the schedulers that hold a part of the record: by NODE0 to the others, and by another package
to NODE0. -/
def State.tellParts (s : State) (r : Record) (post : Bool) : State :=
  if r.pkgIndex = 0 then s.tellNodes (askedNodes s r) (.part (recNode0 r.words) r.rid) post
  else s.tellNodes [(recNode0 r.words).toNat] (.part (recNode0 r.words) r.source.2) post

/-- An undispatched record leaves its pool, and every reservation is freed, in every package (R295). -/
def State.withdraw (s : State) (r : Record) : State :=
  let s1 := (s.tellNodes (askedNodes s r) (.withdrawn (recNode0 r.words) r.rid) false).freeAreas r
  { s1 with
    records := s1.records.filter (fun x => x.rid != r.rid)
    mmp := { s1.mmp with faults := s1.mmp.faults.filter (fun f => f.who != .scheduler r.rid) } }

end Sys2Proof.Machine
end

