-- ==== Sys2Proof/Machine/Inputs.lean ====
section
/-! DEFINITION. The inputs of a context (R273, R274): what a replica takes from its lead through Tongs, what LOG records
and REPLAY supplies (R283 to R285), the release buffer with its signature and cuts (R276 to R278), and VRAND.ent. -/

namespace Sys2Proof.Machine

/-! ### Replicas -/

/-- A context of a replica group. -/
def Context.replicated (c : Context) : Bool := c.replica.group != 0

/-- A replicated context holds its off-tile writes; the lead's handler of VOTE_MINORITY does not (R276, R281). -/
def Context.holds (c : Context) : Bool := c.replicated && !c.replica.direct

/-- An access, a landing or a command with this number was issued by the handler of VOTE_MINORITY that the context runs. -/
def Context.inHandler (c : Context) (n : Nat) : Bool := c.replica.direct && decide (c.replica.since ≤ n)

/-- The off-tile writes of a command are held: those of the handler's own commands are not. -/
def Context.holdsFor (c : Context) (cid : Nat) : Bool := c.replicated && !c.inHandler cid

/-- The key under which a replica waits for the value of an input: its bundle and slot. Keys stand above every object
number. -/
def tongsKey (b : Word) (p : Pos) : Nat := (b.toNat * 8 + p.toNat + 1) * 2 ^ 64

/-- A delivery of Tongs that writes a scratchpad without waiting for its context. -/
def TongsValue.writes : TongsValue → Bool
  | .bytes _ _ => true
  | .word _ _ _ _ | .vec _ | .elem _ _ _ _ | .report _ | .trap _ | .chunk _ _ _ _ => false

/-- One whose bytes go to a scratchpad: it comes behind the core accesses of its cycle (R186). -/
def TongsValue.atScratch : TongsValue → Bool
  | .bytes _ _ | .elem _ _ _ _ | .chunk _ _ _ _ => true
  | .word _ _ _ _ | .vec _ | .report _ | .trap _ => false

/-- The other live replicas of a lead. -/
def State.followers (s : State) (c : Context) : List (TileId × SlotNo × Nat) :=
  match s.groupOf c with
  | some g =>
    if g.lead = c.replica.stack then
      (g.members.filter (fun m => m.1 != c.replica.stack && g.live.getLsbD m.1.toNat)).map Prod.snd
    else []
  | none => []

/-- Tongs carries a value to each other live replica, at most 64 cycles later (R274); bytes come a cycle before a report that
follows them (R275). -/
def State.share (s : State) (c : Context) (at_ : Word) (src : Nat) (v : TongsValue) : State :=
  (s.followers c).foldl (fun st m =>
    { st with
      nextId := st.nextId + 1
      tongs := st.tongs ++
        [{ id := st.nextId, tile := m.1, slot := m.2.1, uid := m.2.2, at_ := at_, val := v, src := src
           due := s.gtc.toNat + (if v.atScratch then 63 else 64) }] }) s

/-- An input that the present bundle of a lead issues goes to the other replicas; one of the handler of VOTE_MINORITY does
not (R281). -/
def State.shareIssued (s : State) (c : Context) (src : Nat) (v : TongsValue) : State :=
  if c.replica.direct then s else s.share c c.bcnt src v

/-! ### Log streams -/

/-- The header of a log entry (Table 14-6). -/
def logHeader (cls : BitVec 8) (len : Nat) (b : Word) : Word :=
  cls.setWidth 64 <<< 56 ||| BitVec.ofNat 64 (len % 2 ^ 16) <<< 40 ||| (b &&& 0xFFFFFFFFFF)

/-- The words of an entry written at its place in C space. -/
def State.writeLog (s : State) (asid : BitVec 12) (place : Nat) (cls : BitVec 8) (b : Word) (ws : List Word) : State :=
  (logHeader cls ws.length b :: ws).zipIdx.foldl (fun st x =>
    st.writeCap asid (place + 8 * x.2) (bytesOfNat 8 x.1.toNat)) s

/-- Logging for a context: on, and not a replay. -/
def Context.logging (c : Context) : Bool := c.log.active && !c.log.replay

def Context.replaying (c : Context) : Bool := c.log.replay

/-- A change of a context and of the other live replicas of its group. -/
def State.modReplicas (s : State) (t : Nat) (k : SlotNo) (c : Context) (f : Context → Context) : State :=
  match s.groupOf c with
  | some g => (g.members.filter (fun m => g.live.getLsbD m.1.toNat)).foldl (fun (st : State) m =>
      st.modUid m.2.1.toNat m.2.2.1 m.2.2.2 f) s
  | none => s.modUid t k c.uid f

/-- A place for an entry of n data words in the stream of a context; a full stream stops the logging (R285). The replicas of
a context share its stream. -/
def State.logPlace (s : State) (t : Nat) (k : SlotNo) (uid n : Nat) : Option Nat × State :=
  match s.uidCtx t k uid with
  | none => (none, s)
  | some c =>
    if c.logging && !s.nonLead c then
      if c.log.pos + 8 * (n + 1) ≤ c.log.len then
        (some (c.log.base + c.log.pos),
          s.modReplicas t k c (fun c' => { c' with log := { c'.log with pos := c.log.pos + 8 * (n + 1) } }))
      else
        (none,
          (s.modReplicas t k c (fun c => { c with log := { c.log with active := false } })).postOpen
            8 none (some (t, k)) (some c.asid) none none)
    else (none, s)

/-- An entry whose words are known, written at the end of the stream. -/
def State.logEntry (s : State) (t : Nat) (k : SlotNo) (uid : Nat) (cls : BitVec 8) (b : Word) (ws : List Word) :
    State :=
  match s.logPlace t k uid ws.length with
  | (some p, s1) => match s1.uidCtx t k uid with
    | some c => s1.writeLog c.asid p cls b ws
    | none => s1
  | (none, s1) => s1

/-- A word of a log stream. -/
def logWord (s : State) (asid : BitVec 12) (a : Nat) : Word := BitVec.ofNat 64 (natOfBytes (readCap s asid a 8))

/-- The fields of the entry at a place: class, length and bundle. -/
def logClass (h : Word) : BitVec 8 := fld h 56 8
def logLen (h : Word) : Nat := natBits h.toNat 40 16
def logBundle (h : Word) : Nat := natBits h.toNat 0 40

/-- The data words of the entry at a place. -/
def logData (s : State) (asid : BitVec 12) (a n : Nat) : List Word :=
  (List.range n).map (fun i => logWord s asid (a + 8 * (i + 1)))

/-- REPLICA_MISMATCH in a context: no handler runs, and the context halts (R280, R284). -/
def State.haltMismatch (s : State) (t : Nat) (k : SlotNo) (uid : Nat) (tval : Word) : State :=
  match s.uidCtx t k uid with
  | none => s
  | some c =>
    (s.modUid t k uid (fun c =>
      { c with
        status := .halted
        special := { c.special with
          tcause := tcauseOf c.special.tcause .replicaMismatch true c.sup false, tval := tval, epc := c.pc } })).postFault
      (mkFault s 4 TrapName.replicaMismatch.code t k c.asid tval c.pc)

/-- A replay that does not find its input (R284). -/
def State.replayMismatch (s : State) (t : Nat) (k : SlotNo) (uid : Nat) : State :=
  match s.uidCtx t k uid with
  | none => s
  | some c => s.haltMismatch t k uid ((1 : Word) <<< 63 ||| (c.bcnt &&& 0xFFFFFFFFFF))

/-- The next entry of a replay, when it is of a class: its place, its bundle and its data. -/
def State.nextEntry (s : State) (c : Context) : Option (Nat × BitVec 8 × Nat × List Word) :=
  if c.replaying && decide (c.log.pos + 8 ≤ c.log.len) then
    let p := c.log.base + c.log.pos
    let h := logWord s c.asid p
    if c.log.pos + 8 * (logLen h + 1) ≤ c.log.len then
      some (p, logClass h, logBundle h, logData s c.asid p (logLen h))
    else none
  else none

/-- An entry is taken. -/
def Context.skipEntry (c : Context) (n : Nat) : Context := { c with log := { c.log with pos := c.log.pos + 8 * (n + 1) } }

/-! ### Inputs of the context of the cursor -/

/-- How the context of the cursor takes an input: a replica that replays reads the stream itself. -/
inductive InMode where
  | own
  | follow
  | replay
  deriving DecidableEq, Repr

/-- A new lead still follows where the former one has performed the input. -/
def State.inMode (s : State) : InMode :=
  let c := s.me
  if c.replaying then .replay
  else if s.nonLead c || (c.replicated && s.tongs.any (fun i => i.uid == c.uid && i.src == tongsKey c.bcnt s.cur.pos)) then
    .follow
  else .own

/-- An input of a class whose value the issue cycle knows, landing at L: the lead's own value, the lead's value through
Tongs, or the value of the stream. `pre` are the words of the entry before the value. -/
def State.landInput (s : State) (mk : Word → Write) (lat : Nat) (cls : BitVec 8) (pre : List Word) (x : Word)
    (poison : Option Word) : State :=
  let c := s.me
  let t := s.cur.tile.toNat
  let k := s.cur.slot
  match s.inMode with
  | .follow => s.landTag (mk 0) lat (tongsKey c.bcnt s.cur.pos)
  | .replay =>
    match s.nextEntry c with
    | some (_, cl, b, ws) =>
      if cl = cls ∧ b = c.bcnt.toNat % 2 ^ 40 ∧ ws.length = pre.length + 1 then
        (s.modMe (fun c => c.skipEntry ws.length)).land (mk (ws.getLastD 0)) lat
      else s.replayMismatch t k c.uid
    | none => s.replayMismatch t k c.uid
  | .own =>
    let s1 := s.modMe (fun c => c.addLanding
      { Landing.ready (mk x) (c.bcnt + BitVec.ofNat 64 lat) s.gtc.toNat s.cur.pos with poison := poison })
    (s1.shareIssued c (tongsKey c.bcnt s.cur.pos) (.word cls x poison none)).logEntry t k c.uid cls c.bcnt (pre ++ [x])

/-- The bundle of an entry for a value that the context of the cursor issues now and that arrives later: not before this
bundle, and, for a landing, not after the landing bundle. -/
def lateBundleOk (now : Word) (within : Option Nat) (b : Nat) : Bool :=
  let d := (b + 2 ^ 40 - now.toNat % 2 ^ 40) % 2 ^ 40
  match within with
  | some n => decide (d ≤ n)
  | none => decide (d < 2 ^ 39)

/-- A place for a value of n words that arrives later, for a landing within so many bundles: reserved in the log, or found in
the replayed stream. -/
def State.latePlace (s : State) (cls : BitVec 8) (n : Nat) (within : Option Nat := none) : Option Nat × State :=
  let c := s.me
  let t := s.cur.tile.toNat
  let k := s.cur.slot
  match s.inMode with
  | .follow => (none, s)
  | .own => s.logPlace t k c.uid n
  | .replay =>
    match s.nextEntry c with
    | some (p, cl, b, ws) =>
      if cl = cls ∧ ws.length = n ∧ lateBundleOk c.bcnt within b = true then (some p, s.modMe (fun c => c.skipEntry n))
      else (none, s.replayMismatch t k c.uid)
    | none => (none, s.replayMismatch t k c.uid)

/-- A landing that awaits a late input: the tag is the operation's, or the key of the Tongs delivery. -/
def State.landLate (s : State) (w : Write) (lat : Nat) (tag : Nat) : State :=
  let c := s.me
  let (place, s1) := s.latePlace 3 1 (some lat)
  let tag' := match s.inMode with
    | .own | .follow => tag
    | .replay => tongsKey c.bcnt s.cur.pos
  s1.modMe (fun c => c.addLanding
    { Landing.waiting w (c.bcnt + BitVec.ofNat 64 lat) tag' s.cur.pos with
      logAt := place, key := tongsKey c.bcnt s.cur.pos })

/-! ### Values that arrive -/

/-- A write of the same register with the value that has arrived. -/
def Write.withWord (w : Write) (x : Word) : Write :=
  match w with
  | .s r _ => .s r x
  | .k r _ => .k r x
  | .p r y => .p r y
  | .v r y => .v r y
  | .m r _ => .m r x
  | .q r y => .q r y

def Write.withVec (w : Write) (x : Vec) : Write :=
  match w with
  | .v r _ => .v r x
  | .s r y => .s r y
  | .p r y => .p r y
  | .m r y => .m r y
  | .q r y => .q r y
  | .k r y => .k r y

/-- The landing waits for an operation, or for a delivery of Tongs. -/
def Landing.isFor (l : Landing) (tag : Nat) : Bool := !l.arrived && (l.tag == tag || (l.key == tag && tag != 0))

/-- The landing of a tag has its value. -/
def Context.arrive (c : Context) (tag gtc : Nat) (f : Landing → Landing) : Context :=
  { c with
    landing := replaceFirst (fun l => l.isFor tag)
      (fun l => f { l with arrived := true, arrivedAt := gtc }) c.landing }

/-- The landing of a tag, while it waits. -/
def Context.awaits (c : Context) (tag : Nat) : Option Landing :=
  c.landing.find? (fun l => l.isFor tag)

/-- A late word arrives for a context (R96): it is recorded where the stream keeps its place and shared with the other
replicas. A landing in the trap shadow receives its value too. -/
def State.arriveWord (s : State) (t : Nat) (k : SlotNo) (uid tag : Nat) (x : Word) (poison : Option Word)
    (event : Option Trap) : State :=
  match s.uidCtx t k uid with
  | none => s
  | some c =>
    let upd := fun (l : Landing) => { l with write := l.write.withWord x, poison := poison, event := event }
    let here := c.awaits tag
    let shadowed := match c.shadow with
      | some sh => sh.landing.find? (fun l => l.isFor tag)
      | none => none
    let l? := match here with
      | some l => some l
      | none => shadowed
    let s1 := s.modUid t k uid (fun c =>
      match here with
      | some _ => c.arrive tag s.gtc.toNat upd
      | none =>
        { c with
          shadow := c.shadow.map (fun sh =>
            { sh with
              landing := replaceFirst (fun l => l.isFor tag)
                (fun l => upd { l with arrived := true, arrivedAt := s.gtc.toNat }) sh.landing }) })
    match l? with
    | none => s1
    | some l =>
      let s2 := match l.logAt with
        | some p => if c.replaying then s1 else s1.writeLog c.asid p 3 c.bcnt [x]
        | none => s1
      if tongsKey 0 .sa ≤ tag || c.inHandler tag then s2 else s2.share c c.bcnt l.key (.word 3 x poison event)

/-- A landing that will have no value is taken away (R174). -/
def State.dropLanding (s : State) (t : Nat) (k : SlotNo) (uid tag : Nat) : State :=
  s.modUid t k uid (fun c =>
    { c with
      landing := c.landing.filter (fun l => !l.isFor tag)
      shadow := c.shadow.map (fun sh =>
        { sh with landing := sh.landing.filter (fun l => !l.isFor tag) }) })

/-- The words of an element. -/
def wordsOfBytes (n : Nat) (bs : List Byte) : List Word :=
  (List.range n).map (fun i => BitVec.ofNat 64 (natOfBytes ((bs.drop (8 * i)).take 8)))

def bytesOfWords (ws : List Word) : List Byte := ws.flatMap (fun w => bytesOfNat 8 w.toNat)

/-- An element arrives for a reservation of a context: recorded, shared, and written to the queue (R327, R273). -/
def State.arriveElem (s : State) (t : Nat) (k : SlotNo) (uid : Nat) (q : HReg) (id : Nat) (cls : BitVec 8) (key : Nat)
    (bs : List Byte) (poison : Option Word) : State :=
  match s.uidCtx t k uid with
  | none => s
  | some c =>
    let s1 := match (c.queue q).resv.find? (fun r => r.id == id) with
      | some r => match r.logAt with
        | some p =>
          if c.replaying then s
          else s.writeLog c.asid p cls c.bcnt (wordsOfBytes ((c.queue q).elemBytes / 8) (padBytes (c.queue q).elemBytes bs))
        | none => s
      | none => s
    let s2 := if key = 0 || c.inHandler id then s1 else s1.share c c.bcnt key (.elem q bs poison 0)
    s2.fillResv t k uid q id bs poison

/-- The tail reservation of the queue of the cursor's context, for a load with an operation number. -/
def State.reserveIn (s : State) (q : HReg) (op : Nat) (cls : BitVec 8) : State :=
  let c := s.me
  let (place, s1) := s.latePlace cls ((c.queue q).elemBytes / 8)
  let id := match s.inMode with
    | .own => op
    | .follow | .replay => tongsKey c.bcnt s.cur.pos
  s1.modMe (fun c =>
    let qu := c.queue q
    c.setQueue q { qu with resv := qu.resv ++ [{ id := id, done := none, logAt := place }] })

/-! ### Replay at a presentation -/

/-- A scan of the tile on a channel has delivered its result. -/
def Tile.endScan (x : Tile) (ch : Option Chan) : Tile :=
  match ch with
  | some ch => { x with scans := x.scans.set ch.toNat ((x.scans[ch.toNat]'ch.isLt) - 1) ch.isLt }
  | none => x

/-- A scan of the tile on a channel has issued. -/
def Tile.beginScan (x : Tile) (ch : Chan) : Tile :=
  { x with scans := x.scans.set ch.toNat ((x.scans[ch.toNat]'ch.isLt) + 1) ch.isLt }

/-- Values whose entries name a bundle that the context has reached: the landing or the element of each place. -/
def State.replayLate (s : State) (t : Nat) (k : SlotNo) (c : Context) : State :=
  let ready (p : Nat) : Option (List Word) :=
    let h := logWord s c.asid p
    if logBundle h ≤ c.bcnt.toNat % 2 ^ 40 then some (logData s c.asid p (logLen h)) else none
  let s1 := c.landing.foldl (fun st l =>
    match l.logAt with
    | some p =>
      if l.arrived then st
      else match ready p with
        | some ws => st.arriveWord t k c.uid l.tag (ws.headD 0) none none
        | none => st
    | none => st) s
  let s2 := c.log.scans.foldl (fun st x =>
    match ready x.2.2 with
    | some ws =>
      match st.uidCtx t k c.uid with
      | some c' =>
        if (c'.queue x.1).full then st
        else
          ((st.pushElem t k c.uid x.1 none (bytesOfWords ws) none).modUid t k c.uid (fun c =>
            { c with log := { c.log with scans := c.log.scans.erase x } })).modTile t (fun y => y.endScan x.2.1)
      | none => st
    | none => st) s1
  (List.range 16).foldl (fun st i =>
    let q : HReg := BitVec.ofNat 4 i
    (c.queue q).resv.foldl (fun st r =>
      match r.logAt, r.done with
      | some p, none => match ready p with
        | some ws => st.fillResv t k c.uid q r.id (bytesOfWords ws) none
        | none => st
      | _, _ => st) st) s2

/-! ### The release buffer -/

/-- Multiplication by x in GF(2)[x] modulo x^128 + x^7 + x^2 + x + 1. -/
def gfDouble (a : BitVec 128) : BitVec 128 := (a <<< 1) ^^^ (if a.msb then 0x87 else 0)

/-- The product of R277, over the bits of the second factor from the highest down. -/
def gfMul (a h : BitVec 128) : Nat → BitVec 128 → BitVec 128
  | 0, acc => acc
  | n + 1, acc => gfMul a h n (gfDouble acc ^^^ (if h.getLsbD n then a else 0))

/-- One word folded into the signature. -/
def foldWord (h : BitVec 128) (sig : BitVec 128) (w : Word) : BitVec 128 := gfMul (sig ^^^ w.setWidth 128) h 128 0

/-- The group key of a launch record: words 28 and 29. -/
def State.groupKey (s : State) (c : Context) : BitVec 128 :=
  match s.records.find? (fun r => r.rid == c.rid) with
  | some r => (r.words.getD 29 0) ++ (r.words.getD 28 0)
  | none => 0

/-- The header of a held write (Table 14-4). (DEDUCED, unsafe; log entry 30.) -/
def heldHeader (kind size : Nat) (addr : Word) : Word :=
  BitVec.ofNat 64 kind <<< 60 ||| BitVec.ofNat 64 (size - 1) <<< 52 ||| (addr &&& 0xFFFFFFFFFFFFF)

/-- Bytes of the records in a slot's part of the buffer. -/
def Replica.used (r : Replica) : Nat := (r.buffer.map (fun h => h.words.length * 8)).sum

/-- The first data word XORed with the mask of RINJ (R282). -/
def injectAt (i : Nat) (mask : Word) (ws : List Word) : List Word := ws.mapIdx (fun j w => if j = i then w ^^^ mask else w)

/-- A record enters the release buffer under a number of its own: the mask of RINJ, the signature and the count (R276, R277, R282). `addrs` is
how many address words it has. -/
def State.holdRecord (s : State) (t : Nat) (k : SlotNo) (uid : Nat) (words : List Word) (addrs : Nat) (b : Word)
    (pos : Pos) (aux : Word) (coords : Word := 0) (num : Option Nat := none) (cmd : Nat := 0) (follows : List Nat := []) :
    State :=
  match s.uidCtx t k uid with
  | none => s
  | some c =>
    let r := c.replica
    let data := decide (1 + addrs < words.length)
    let ws := match r.inject with
      | some m => if data then injectAt (1 + addrs) m words else words
      | none => words
    let h := s.groupKey c
    let s1 := if num.isSome then s else { s with nextId := s.nextId + 1 }
    let rec_ : HeldWrite :=
      { words := ws, at_ := b, pos := pos, aux := aux, coords := coords, id := num.getD s.nextId, cmd := cmd
        follows := c.fenceRel ++ c.acquiring ++ follows }
    s1.modUid t k uid (fun c => { c with replica := { r with
      sig := ws.foldl (foldWord h) r.sig
      count := r.count + 1
      buffer := r.buffer ++ [rec_]
      inject := if data then none else r.inject } })

/-- The data words of a record: bytes padded with zeros to a multiple of 8. -/
def heldData (bs : List Byte) : List Word := wordsOfBytes ((bs.length + 7) / 8) bs

/-- A held write of the syllable at the cursor. -/
def State.holdWrite (s : State) (kind : Nat) (size : Nat) (addr : Word) (addrs : List Word) (bs : List Byte)
    (aux : Word) (coords : Word := 0) (num : Option Nat := none) : State :=
  let c := s.me
  s.holdRecord s.cur.tile.toNat s.cur.slot c.uid (heldHeader kind size addr :: addrs ++ heldData bs) addrs.length
    c.bcnt s.cur.pos aux coords num

/-- A cut in the buffer of a replica (R278). -/
def State.cutOf (s : State) (t : Nat) (k : SlotNo) (uid : Nat) (kind : CutKind) (tag : Nat) (b : Word) : State :=
  s.modUid t k uid (fun c => { c with replica := { c.replica with
    cuts := c.replica.cuts ++ [{ kind := kind, n := c.replica.count, sig := c.replica.sig, tag := tag, at_ := b }] } })

/-- A cut for a held write that does not fit, where no earlier one is pending. -/
def State.cutFull (s : State) (t : Nat) (k : SlotNo) (uid : Nat) : State :=
  match s.uidCtx t k uid with
  | some c => if c.replica.cuts.isEmpty then s.cutOf t k uid .full 0 c.bcnt else s
  | none => s

/-- A cut by the syllable at the cursor. -/
def State.cut (s : State) (kind : CutKind) (tag : Nat) : State :=
  if s.me.holds then s.cutOf s.cur.tile.toNat s.cur.slot s.me.uid kind tag s.me.bcnt else s

/-- Records of n words in all do not fit in the slot's part of 16 KiB. -/
def State.bufferBlock (s : State) (n : Nat) : Option BlockCond :=
  if s.me.holds && decide (16384 < s.me.replica.used + 8 * n) then some (.releaseFull n) else none

/-! ### Writes of other agents (R275) -/

/-- Every context that a tile holds replays: what other agents write there comes from the streams, in place of its source.
(DESIGN CHOICE, unsafe; log entry 61.) -/
def State.replayTile (s : State) (t : Nat) : Bool :=
  let cs := (allSlots.flatMap (fun k => [s.ctx t k .primary, s.ctx t k .second])).filter (fun c => c.status.bound)
  !cs.isEmpty && cs.all (fun c => c.replaying)

/-- Bytes that another agent wrote to a tile reach the other replicas of each lead on it, and their logs. -/
def State.shareBytes (s : State) (t : Nat) (off : Word) (bs : List Byte) : State :=
  allSlots.foldl (fun st k => [Bank.primary, Bank.second].foldl (fun st b =>
    let c := st.ctx t k b
    if c.status.bound && !st.nonLead c && (c.replicated || c.logging) then
      (st.share c c.bcnt 0 (.bytes off.toNat bs)).logEntry t k c.uid 10 c.bcnt
        (off :: wordsOfBytes ((bs.length + 7) / 8) bs)
    else st) st) s

/-! ### VRAND.ent (R411) -/

/-- The words of the lanes, from the entropy source of the tile. -/
def entropyLanes (from_ : Nat) : List Nat := (List.range 64).map (fun i => (Config.entropy (from_ + i)).toNat)

def vrandEntMeaning (d : VReg) (m : MReg) : Meaning :=
  { effect := fun st s =>
      let c := st.me
      let t := s.cur.tile.toNat
      let k := s.cur.slot
      let act := activeLanes .w32 (c.mreg m)
      let result := fun (xs : List Nat) => vecOf .w32 (mergeLanes act xs (vecLanes .w32 (c.vreg d)))
      match s.inMode with
      | .follow =>
        s.modMe (fun c' => c'.addLanding
          { Landing.waiting (.v d (c.vreg d)) (c'.bcnt + 4) (tongsKey c.bcnt s.cur.pos) s.cur.pos with lanes := c.mreg m })
      | .replay =>
        match s.nextEntry c with
        | some (_, cls, b, ws) =>
          if cls = 6 ∧ b = c.bcnt.toNat % 2 ^ 40 ∧ ws.length = 32 then
            (s.modMe (fun c => c.skipEntry 32)).land
              (.v d (result (vecLanes .w32 (bytesVec (bytesOfWords ws))))) 4
          else s.replayMismatch t k c.uid
        | none => s.replayMismatch t k c.uid
      | .own =>
        let words := entropyLanes s.drawn
        let s1 := { s with drawn := s.drawn + 64 }.land (.v d (result words)) 4
        (s1.shareIssued c (tongsKey c.bcnt s.cur.pos) (.vec (vecOf .w32 words))).logEntry t k c.uid 6 c.bcnt
          (wordsOfBytes 32 (vecBytes (vecOf .w32 words))) }

def execVrandEnt (d : VReg) (m : MReg) (s : State) : Host.Outcome State Fault Refusal :=
  runSyllable (.vrandEnt d m) (vrandEntMeaning d m) s

end Sys2Proof.Machine
end

