-- ==== Sys2Proof/Machine/Access.lean ====
section
/-! DEFINITION. Accesses that leave the tile (R136, R155 to R163, R169 to R174, R182 to R201): what an access needs and
touches, its flight, the order in which flights are performed, and what a home does with one unit. -/

namespace Sys2Proof.Machine

/-! ### What an access names -/

/-- The object of a D, C or H access: the whole s_A and the coordinates for D, the address and bytes for C and H. -/
inductive Target where
  | tensor (a coords : Word) (k : DKind)
  | cap (a : Word) (n : Nat)
  | host (a : Word) (n : Nat)
  deriving DecidableEq, Repr

/-- TVAL of a D access: the tensor id above the low word of the coordinates (R137, R170). -/
def dTval (a coords : Word) : Word := (a &&& 0xFFFFF) <<< 32 ||| (coords &&& 0xFFFFFFFF)

def Target.tval : Target → Word
  | .tensor a c _ => dTval a c
  | .cap a _ => a
  | .host a _ => a

def Target.space : Target → Space
  | .tensor _ _ _ => .d
  | .cap _ _ => .c
  | .host _ _ => .h

/-- The forms that need no table: tensor id bits, flat address bits, C address bits (R138, R157, R166), of every byte of the
access. A vector of the flat view whose last byte would lie at 2^48 or beyond is refused whole; a line there crosses a granule,
and has a check of its own (R372). (DESIGN CHOICE, unsafe; log entry 60.) -/
def Target.formTrap : Target → Option Trap
  | .tensor a c k =>
    if a >>> 20 ≠ 0 then some { name := .protection, tval := a }
    else if a = 0 ∧ 2 ^ 48 < c.toNat + (match k with
        | .elem => 8
        | .vector => 256
        | .line => 1) then some { name := .protection, tval := dTval a c }
    else none
  | .cap a n => if 2 ^ 48 < a.toNat + n then some { name := .protection, tval := a } else none
  | .host _ _ => none

/-- Alignment (R137): elements are aligned; the flat view follows its access size; lines have a rule of their own. -/
def Target.alignTrap : Target → Option Trap
  | .tensor a c k =>
    let z := match k with
      | .elem => 8
      | .vector => 16
      | .line => 1
    if a = 0 ∧ c.toNat % z ≠ 0 then some { name := .align, tval := dTval a c } else none
  | .cap a n => if a.toNat % Nat.min n 16 ≠ 0 then some { name := .align, tval := a } else none
  | .host a n => if a.toNat % Nat.min n 16 ≠ 0 then some { name := .align, tval := a } else none

/-- PROTECTION of a DET record: the tensor id or the address (R38). -/
def Target.detTval : Target → Word
  | .tensor a _ _ => a
  | .cap a _ => a
  | .host a _ => a

/-- The descriptor of the named tensor in the cache of a tile. -/
def cachedDesc (s : State) (t : Nat) (asid : BitVec 12) (a : Word) : Option Desc :=
  ((s.tile t).desc asid a.toNat).map descOf

/-- The parts of an access under a descriptor. -/
def Target.parts (s : State) (d : Option Desc) : Target → List Part
  | .tensor a c k =>
    if a = 0 then flatAccess c.toNat k
    else match d with
      | some d => tensorParts s.node d a.toNat c k
      | none => []
  | .cap a n => capParts a.toNat n
  | .host a n => hostParts a.toNat n

/-- The parts with their translations through the cache of a tile. -/
def Target.found (s : State) (t : Nat) (asid : BitVec 12) (g : Target) : List (Part × Trans) :=
  let d := match g with
    | .tensor a _ _ => cachedDesc s t asid a
    | .cap _ _ | .host _ _ => none
  (g.parts s d).map (fun p => (p, cacheTrans s (s.tile t) asid p))

/-- What the access lacks in the cache of a tile (R169, R171). -/
def Target.needs (s : State) (t : Nat) (asid : BitVec 12) (g : Target) : List Need :=
  if g.formTrap.isSome then []
  else match g with
    | .tensor a c k =>
      if a = 0 ∨ (cachedDesc s t asid a).isSome then missesOf ((g.found s t asid).map Prod.snd)
      else
        match (tableDesc s asid a.toNat).map descOf with
        | some d =>
          .desc a.toNat :: (if d.valid then
            missesOf (((Target.tensor a c k).parts s (some d)).map (cacheTrans s (s.tile t) asid)) else [])
        | none => [.desc a.toNat]
    | .cap _ _ | .host _ _ => missesOf ((g.found s t asid).map Prod.snd)

/-- The trap of an access that has been answered without a mapping (R171, R173). -/
def answerTrap (c : Context) (tval : Word) : Option Trap :=
  match c.answer with
  | some (.noDescriptor v) => some { name := .protection, tval := v }
  | some .refused => some { name := .translation, tval := tval ||| (1 : Word) <<< 62 }
  | none => none

/-- A denied permission (R170). -/
def permTrap (need : BitVec 4) (found : List (Part × Trans)) (tval : Word) : Option Trap :=
  if permitted need (found.map Prod.snd) then none else some { name := .protection, tval := tval }

/-- PROTECTION of a core access whose descriptor names a package of another pod: POD is bits [20:15] of a node id (R265). -/
def podTrap (node : BitVec 21) (d : Option Desc) (tval : Word) : Option Trap :=
  match d with
  | some d => if d.node >>> 15 = node >>> 15 then none else some { name := .protection, tval := tval }
  | none => none

/-- The descriptor of a tensor access through the cache of a tile; none for the flat view, C and H. -/
def Target.desc (s : State) (t : Nat) (asid : BitVec 12) : Target → Option Desc
  | .tensor a _ _ => if a = 0 then none else cachedDesc s t asid a
  | .cap _ _ | .host _ _ => none

/-- Whether some element lies OUTSIDE. -/
def anyOutside (found : List (Part × Trans)) : Bool :=
  found.any (fun x => match x.1.span with
    | .outside _ => true
    | .frame _ _ | .page _ | .host _ | .remote _ _ _ | .tile _ _ => false)

/-! ### Units and latencies -/

/-- The unloaded latency of a part from a tile (R163). -/
def partLatency (t : Nat) : Trans → Nat
  | .home (.hbm a) _ _ w =>
    let e := homeStack w a
    let h := stackOf t
    560 + 8 * ((if e % 2 = h % 2 then 0 else 1) + (if e / 2 = h / 2 then 0 else 1))
  | .home (.lpddr _) _ _ _ => 1100
  | .home (.scratch _ _) _ _ _ | .home (.host _) _ _ _ | .home (.node _ _ _) _ _ _ | .home .nowhere _ _ _ => 0
  | .miss _ | .none => 0

/-- The units of an access: an OUTSIDE part has none. -/
def unitsOf (op : Part → UnitOp) (found : List (Part × Trans)) : List AccessUnit :=
  found.filterMap (fun x => match x.2 with
    | .home h _ e _ => some { home := h, off := x.1.off, len := x.1.len, op := op x.1, done := false, entry := e, place := x.1.place }
    | .miss _ | .none => Option.none)

/-- The bytes that a load returns before its units are performed: FILL for OUTSIDE parts, zero elsewhere. -/
def fillBytes (found : List (Part × Trans)) : List Byte :=
  found.flatMap (fun x => match x.1.span with
    | .outside f => f
    | .frame _ _ | .page _ | .host _ | .remote _ _ _ | .tile _ _ => List.replicate x.1.len 0)

/-- Data bytes of a part. -/
def Part.slice (p : Part) (bs : List Byte) : List Byte := (bs.drop p.off).take p.len

/-- The latency of a whole access. -/
def accessLatency (t : Nat) (found : List (Part × Trans)) : Nat :=
  found.foldl (fun acc x => Nat.max acc (partLatency t x.2)) 0

/-! ### Request counts and dies (R161, R309) -/

/-- The 64-byte blocks of n bytes at a physical address, with their home stacks. -/
def blocksOf (w : Word) (a n : Nat) : List (Nat × Nat) :=
  (List.range ((a + n - 1) / 64 + 1 - a / 64)).map (fun i => (a / 64 + i, homeStack w (a / 64 * 64 + 64 * i)))

/-- The HBM requests of an access: each 64-byte block once, with its home stack. -/
def hbmRequests (found : List (Part × Trans)) : List (Nat × Nat) :=
  (found.flatMap (fun x => match x.2 with
    | .home (.hbm a) _ _ w => blocksOf w a x.1.len
    | .home (.lpddr _) _ _ _ | .home (.scratch _ _) _ _ _ | .home (.host _) _ _ _ | .home (.node _ _ _) _ _ _
    | .home .nowhere _ _ _ | .miss _ | .none => [])).eraseDups

/-- The aligned 64-byte blocks of another package's tensor that an access reaches, each once: they count in XREQ. -/
def remoteRequests (found : List (Part × Trans)) : List Nat :=
  (found.flatMap (fun x => match x.1.span with
    | .remote _ _ _ => (List.range ((x.1.place + x.1.len - 1) / 64 + 1 - x.1.place / 64)).map (fun i => x.1.place / 64 + i)
    | .frame _ _ | .page _ | .host _ | .outside _ | .tile _ _ => [])).eraseDups

def setTdm (c : Context) (bits : List Nat) : Context :=
  { c with special := { c.special with
      tdm := bits.foldl (fun acc i => acc ||| (1 : Word) <<< i) c.special.tdm } }

/-- The counts of this cycle. -/
def Tile.countsNow (x : Tile) (gtc : Nat) : Word × Word := if x.counted.1 = gtc then x.counted.2 else (0, 0)

/-- Requests are counted (R161); how many in this cycle is kept for an MTSR. -/
def Tile.count (x : Tile) (gtc near far : Nat) : Tile :=
  let n := BitVec.ofNat 64 near
  let f := BitVec.ofNat 64 far
  let old := x.countsNow gtc
  { x with lreq := x.lreq + n, xreq := x.xreq + f, counted := (gtc, old.1 + n, old.2 + f) }

/-- The counts of a D access by a tile, and the die bits of its context. (DEDUCED, unsafe; log entry 26.) -/
def State.countRequests (s : State) (t : Nat) (k : SlotNo) (uid : Nat) (found : List (Part × Trans)) : State :=
  let rs := hbmRequests found
  let near := (rs.filter (fun r => r.2 == stackOf t)).length
  let far := rs.length - near + (remoteRequests found).length
  let s1 := s.modTile t (fun x => x.count s.gtc.toNat near far)
  s1.modUid t k uid (fun c => setTdm c (rs.map (fun r => 9 + 2 * r.2 + r.1 * 64 / 65536 % 2)))

/-- The counts of a piece of a longer access: a 64-byte block that an earlier piece has reached is not counted again. -/
def State.countNew (s : State) (t : Nat) (k : SlotNo) (uid : Nat) (found before : List (Part × Trans)) : State :=
  let seen := hbmRequests before
  let rs := (hbmRequests found).filter (fun r => !seen.contains r)
  let near := (rs.filter (fun r => r.2 == stackOf t)).length
  let away := remoteRequests before
  let far := rs.length - near + ((remoteRequests found).filter (fun b => !away.contains b)).length
  let s1 := s.modTile t (fun x => x.count s.gtc.toNat near far)
  s1.modUid t k uid (fun c => setTdm c (rs.map (fun r => 9 + 2 * r.2 + r.1 * 64 / 65536 % 2)))

/-! ### Order -/

/-- Whether two places share a byte. -/
def Home.meets (a : Home) (n : Nat) (b : Home) (m : Nat) : Bool :=
  match a, b with
  | .hbm x, .hbm y => decide (x < y + m ∧ y < x + n)
  | .lpddr x, .lpddr y => decide (x < y + m ∧ y < x + n)
  | .scratch t x, .scratch u y => t == u && decide (x < y + m ∧ y < x + n)
  | .host x, .host y => decide (x.toNat < y.toNat + m ∧ y.toNat < x.toNat + n)
  | .node p i _, .node q j _ => p == q && i == j
  | _, _ => false

/-- Open accesses that a later one of a context to the same unit follows: its own (R183), and writes in causal order that
it knows (R189). -/
def State.overlapping (s : State) (c : Context) (us : List AccessUnit) : List Nat :=
  (s.flights.filter (fun f => (f.issuer.uid == c.uid || (f.covers && c.known.contains f.id)) &&
    f.units.any (fun u => !u.done && us.any (fun v => u.home.meets u.len v.home v.len)))).map Flight.id

/-- How an access takes part in the order of R182 to R200. -/
inductive OrderClass where
  /-- A load, or an atomic or CADD without an ordering modifier. -/
  | relaxed
  /-- A write in a causal space. -/
  | causal
  /-- A write outside the causal spaces. -/
  | plain
  | release (sc : Scope)
  deriving DecidableEq, Repr

/-- Whether a write of a class carries the history of its context (R188, R191). -/
def OrderClass.carries : OrderClass → Bool
  | .relaxed => false
  | .causal | .plain | .release _ => true

/-- Whether it takes part in causal order. -/
def OrderClass.isCausal : OrderClass → Bool
  | .causal | .release _ => true
  | .relaxed | .plain => false

/-- The tiles of the region of a context's record in which a tile lies (R25); the tile itself without a record. -/
def State.regionOf (s : State) (c : Context) (t : Nat) : List Nat :=
  match s.record c.rid with
  | some r =>
    match (r.placement.corners.map (fun x => regionTiles r.words x.2)).find? (fun ts => ts.contains t) with
    | some ts => ts
    | none => [t]
  | none => [t]

/-- The writes that a release of a context at a scope follows (R194, R200). -/
def State.releases (s : State) (c : Context) (t : Nat) (sc : Scope) : List Nat :=
  s.withinScope sc (s.regionOf c t) (s.history c)

/-- The accesses that one of a context on a tile follows. (DESIGN CHOICE, unsafe; log entry 11.) -/
def State.afterOf (s : State) (c : Context) (t : Nat) (us : List AccessUnit) (isWrite : Bool) (o : OrderClass) :
    List Nat :=
  let base := s.overlapping c us ++ c.acquiring ++ (if isWrite then c.fenceRel else [])
  let more := match o with
    | .relaxed | .plain => []
    | .causal => s.openCausal c.uid ++ s.knownCover c
    | .release sc => s.releases c t sc
  s.stillOpen (base ++ more)

/-! ### Flights -/

/-- An access of an engine for a DET context: a transfer timed for a communication step (R39, Table 13-3). -/
def State.timed (s : State) (i : Issuer) : Bool :=
  match i with
  | .engine t k uid => match s.uidCtx t.toNat k uid with
    | some c => c.det
    | none => false
  | .ctx _ _ _ | .scheduler _ => false

/-- A new flight. Requests to other packages leave as messages. -/
def State.addFlight (s : State) (f : Flight) : State :=
  { s with
    flights := s.flights ++ [f]
    out := s.out ++ f.units.filterMap (fun u => match u.home with
      | .node n _ _ => some (.request n f.id u (s.timed f.issuer))
      | .hbm _ | .lpddr _ | .scratch _ _ | .host _ | .nowhere => none) }

/-- An access of the context of the cursor starts, under a number of its own. -/
def State.fly (s : State) (id : Nat) (space : Space) (us : List AccessUnit) (isWrite : Bool) (o : OrderClass)
    (sink : Sink) (data : List Byte) (tval : Word) (lat : Nat) : State :=
  let c := s.me
  let outside := us.isEmpty
  s.addFlight
    { id := id, issuer := .ctx s.cur.tile s.cur.slot c.uid, space := space, asid := c.asid, units := us
      after := s.afterOf c s.cur.tile.toNat us isWrite o, sink := sink, data := data, poison := none, tval := tval
      hist := if o.carries && isWrite then s.history c else []
      causal := o.isCausal, writes := isWrite, at_ := c.bcnt, lat := if outside then 4 else lat
      due := s.gtc.toNat + (if outside then 4 else lat / 2) }

/-- A flight reaches its home in a cycle. -/
def State.dueAt (s : State) (id due : Nat) : State :=
  { s with flights := s.flights.map (fun (f : Flight) => if f.id = id then { f with due := due } else f) }

/-- An acquire of the context of the cursor: later accesses follow it (R194). -/
def State.acquire (s : State) (id : Nat) : State := s.modMe (fun c => { c with acquiring := c.acquiring ++ [id] })

def State.acquireIf (s : State) (b : Bool) (id : Nat) : State := if b then s.acquire id else s

/-- The part that an ordering nibble gives a write (R188, R194): one without a modifier carries no clock (R191). -/
def ordClass : Ord → OrderClass
  | .rel sc => .release sc
  | .acq _ => .causal
  | .relaxed => .relaxed

def ordAcq : Ord → Bool
  | .acq _ => true
  | .relaxed | .rel _ => false

def ordRel : Ord → Bool
  | .rel _ => true
  | .relaxed | .acq _ => false

/-! ### Performing a unit -/

/-- The first byte of n at a place whose protected word holds an uncorrectable error. -/
def badByte (s : State) (h : Home) (n : Nat) : Option Nat :=
  if s.bad.isEmpty then none
  else (List.range n).find? (fun i => match h with
    | .hbm a => s.bad.contains (.hbm ((a + i) / 32))
    | .lpddr a => s.bad.contains (.lpddr ((a + i) / 32))
    | .scratch t o =>
      decide (o + i < 0x200000) && s.bad.contains (.scratch t.toNat (linear.phys (o + i) / 16))
    | .node nd i' c => s.bad.contains (.away nd i' c)
    | .host _ | .nowhere => false)

def badAt (s : State) (h : Home) (n : Nat) : Bool := (badByte s h n).isSome

/-- Whether a virtual die is lost: a die map names no live die for it (R310, R311). -/
def State.dieLost (s : State) (map : Vector (Bool × BitVec 5) 17) (v : Nat) : Bool :=
  match map.toList[v]? with
  | some (ok, p) => !ok || !s.platform.dieLive.getLsbD p.toNat
  | none => false

/-- The die map under which an issuer runs: that of its binding or of its restore, since a write of DIE_MAP takes effect for
later restores (R312). -/
def State.mapOf (s : State) (i : Issuer) : Vector (Bool × BitVec 5) 17 :=
  match i with
  | .ctx t k uid | .engine t k uid =>
    match s.uidCtx t.toNat k uid with
    | some c => c.dieMap
    | none => s.platform.dieMap
  | .scheduler _ => s.platform.dieMap

/-- Whether a place lies on a lost die (R310): the HBM stack half of a frame, the IOD of LPDDR-6, the VSD of a tile.
(DEDUCED, unsafe; log entry 35.) -/
def State.lostHome (s : State) (map : Vector (Bool × BitVec 5) 17) (h : Home) (entry : Option Nat) : Bool :=
  match h with
  | .hbm a =>
    let st := match entry with
      | some e => homeStack (BitVec.ofNat 64 (hbmWord s e 8)) a
      | none => 0
    s.dieLost map (9 + 2 * st + a / 65536 % 2)
  | .lpddr _ => s.dieLost map 8
  | .scratch t _ => s.dieLost map (stackOf t.toNat)
  | .host _ | .node _ _ _ | .nowhere => false

/-- TVAL of MEM_DATA for n bytes of a place that a core access reads (R308): for D the physical address of the bad word of
32 bytes, otherwise the address of the access, as its trap value gives it. -/
def memDataWord (s : State) (sp : Space) (tval : Word) (h : Home) (n : Nat) : Word :=
  match sp with
  | .s => memDataCore 0 tval
  | .m | .n => memDataCore 1 tval
  | .d =>
    let i := (badByte s h n).getD 0
    match h with
    | .hbm a | .lpddr a => memDataCore 2 (BitVec.ofNat 64 ((a + i) / 32 * 32))
    | .scratch _ _ | .host _ | .node _ _ _ | .nowhere => memDataCore 2 tval
  | .c => memDataCore 3 tval
  | .h => memDataCore 4 tval

/-- TVAL of MEM_DATA for an access in flight. -/
def memDataTval (s : State) (f : Flight) (h : Home) (n : Nat) : Word := memDataWord s f.space f.tval h n

/-- MEM_DATA of a place that cannot be read for an issuer: its word holds an uncorrectable error, or its die is lost (R307,
R310). -/
def placeTrap (s : State) (i : Issuer) (sp : Space) (tval : Word) (h : Home) (entry : Option Nat) (n : Nat) : Option Trap :=
  if badAt s h n || s.lostHome (s.mapOf i) h entry then
    some { name := .memData, tval := memDataWord s sp tval h n }
  else none

/-- Reading a place: another tile's scratchpad answers 0 beyond its limit (R145). -/
def placeRead (s : State) (h : Home) (n : Nat) (ext : BitVec 640) : List Byte :=
  match h with
  | .hbm a => Memory.readN s.hbm a n
  | .lpddr a => Memory.readN s.lpddr a n
  | .scratch t o => (s.tile t.toNat).readBytes linear (s.tile t.toNat).limit (BitVec.ofNat 64 o) n
  | .host _ | .node _ _ _ | .nowhere => bytesOfNat n ext.toNat

/-- Writing a place. A write to another tile's scratchpad meets its comparators (class 0) and reaches the replicas of
the leads there. -/
def State.placeWrite (s : State) (h : Home) (bs : List Byte) : State :=
  match h with
  | .hbm a => s.writeHbm a bs
  | .lpddr a => s.writeLpddr a bs
  | .scratch t o =>
    let off := BitVec.ofNat 64 o
    if s.replayTile t.toNat then s
    else (s.modTile t.toNat (fun x =>
      { x with scratch := writeBytes x.scratch linear x.limit off bs }.wake (s.muted t.toNat) 0 0 off bs.length
        s.gtc.toNat)).shareBytes t.toNat off bs
  | .host b => { s with out := s.out ++ [.hostWrite b bs] }
  | .node _ _ _ | .nowhere => s

/-- A unit of a write at its place. A core store that has waited stays in its tile. -/
def State.unitWrite (s : State) (space : Space) (h : Home) (bs : List Byte) : State :=
  match space, h with
  | .s, .scratch t o =>
    s.modTile t.toNat (fun x => { x with scratch := writeBytes x.scratch linear x.limit (BitVec.ofNat 64 o) bs })
  | _, _ => s.placeWrite h bs

/-- The new value of an atomic (R328). -/
def atomicNew (op : BitVec 6) (signed : Bool) (e old v w : Nat) : Nat :=
  let sv := fun x => signedOf (8 * e) x
  let lt := fun x y => if signed then decide (sv x < sv y) else decide (x < y)
  match op.toNat with
  | 0x1C => (old + v) % 2 ^ (8 * e)
  | 0x1D => if old = v then w else old
  | 0x1E => if lt old v then v else old
  | 0x1F => if lt v old then v else old
  | 0x20 => v
  | _ => old ^^^ v

/-- The four counts of a hint, one more for a requesting stack. -/
def Hint.count (h : Hint) (st : Nat) : Hint :=
  { h with counts := h.counts.mapIdx (fun i n => if i = st ∧ n ≠ 0xFFFF then n + 1 else n) }

/-- ACNT and the hint table of the home layout unit (R159, R179). An interleaved frame has a home stack for each 4 KiB: its hint
stands with the stack whose unit brings ACNT to 255, and counts every atomic on the frame. (DESIGN CHOICE, unsafe; log entry
62.) -/
def State.countAtomic (s : State) (entry : Option Nat) (home : Nat) (asid : BitVec 12) (st : Nat) : State :=
  match entry with
  | none => s
  | some a =>
    let w := BitVec.ofNat 64 (hbmWord s a 8)
    let s1 := if tteAcnt w < 255 then s.writeHbmWord a (w + 0x100) else s
    if s.mmp.hints.any (fun h => h.entry == a) then
      s1.modMmp (fun m => { m with hints := replaceFirst (fun h => h.entry == a) (fun h => h.count st) m.hints })
    else if tteAcnt w = 254 ∧ (s.mmp.hints.filter (fun h => h.home == BitVec.ofNat 2 home)).length < 512 then
      s1.modMmp (fun m => { m with hints := m.hints ++
        [{ home := BitVec.ofNat 2 home, entry := a, counts := Vector.replicate 4 0, asid := asid }] })
    else s1

/-- The stack whose layout unit performs a unit. -/
def unitStack (s : State) (u : AccessUnit) : Nat :=
  match u.home, u.entry with
  | .hbm a, some e => homeStack (BitVec.ofNat 64 (hbmWord s e 8)) a
  | _, _ => 0

/-- Where the issuer of an access stands. -/
def Issuer.place : Issuer → Nat × SlotNo
  | .ctx t k _ | .engine t k _ => (t.toNat, k)
  | .scheduler _ => (0, 0)

/-- A counter that would pass 2^64 − 1 stays, and a class-1 event names the issuer (R333).
(DEDUCED, unsafe; log entry 41.) -/
def State.counterWrap (s : State) (i : Issuer) (asid : BitVec 12) (value addr : Word) : State :=
  s.postFault (mkFault s 1 TrapName.counterWrap.code i.place.1 i.place.2 asid value addr)

/-- One unit performed at its home: the state after it and the bytes it returns. The scheduler's adds, which come from no tile,
count as requests of stack 0. (DESIGN CHOICE, unsafe; log entry 62.) -/
def State.perform (s : State) (f : Flight) (u : AccessUnit) (ext : BitVec 640) : State × List Byte :=
  let n := u.len
  match u.op with
  | .load => (s, placeRead s u.home n ext)
  | .fill bs => (s, bs)
  | .store bs => (s.unitWrite f.space u.home bs, [])
  | .atomic op v w sg =>
    let old := natOfBytes (placeRead s u.home n ext)
    let new := atomicNew op sg n old (v.toNat % 2 ^ (8 * n)) (w.toNat % 2 ^ (8 * n))
    ((s.placeWrite u.home (bytesOfNat n new)).countAtomic u.entry (unitStack s u) f.asid (stackOf f.issuer.place.1),
      bytesOfNat n old)
  | .cadd amt =>
    match u.home with
    | .node _ _ _ => (s, [])
    | .hbm _ | .lpddr _ | .scratch _ _ | .host _ | .nowhere =>
      let dropped := match u.home with
        | .scratch t o => decide ((s.tile t.toNat).limit ≤ o)
        | .hbm _ | .lpddr _ | .host _ | .node _ _ _ | .nowhere => false
      let old := natOfBytes (placeRead s u.home 8 ext)
      let s1 := if dropped then s
        else if old + amt.toNat < 2 ^ 64 then s.unitWrite f.space u.home (bytesOfNat 8 (old + amt.toNat))
        else s.counterWrap f.issuer f.asid (BitVec.ofNat 64 old) f.tval
      (s1.countAtomic u.entry (unitStack s u) f.asid (stackOf f.issuer.place.1), [])
  | .qred image invalid =>
    let line : Quire := Quire.ofImage (BitVec.ofNat 640 (natOfBytes (placeRead s u.home 80 ext)))
    let src : Quire := { bits := image, nar := invalid, ovf := false }
    let r := (line.addTerms [if src.valid then some src.toInt else none]).1
    ((s.placeWrite u.home (bytesOfNat 80 r.image.toNat)).countAtomic u.entry (unitStack s u) f.asid
      (stackOf f.issuer.place.1), [])

/-- Bytes put into a list at a place. -/
def putBytes (data : List Byte) (off : Nat) (bs : List Byte) : List Byte :=
  data.take off ++ bs ++ data.drop (off + bs.length)

/-- Whether a unit may be performed now: it is not yet, and what the access follows has been performed. -/
def State.canPerform (s : State) (f : Flight) (i : Nat) : Bool :=
  match f.units[i]? with
  | some u => !u.done && !f.after.any (fun id => s.openOp id)
  | none => false

/-- The flight after one unit of it. One with no data to deliver leaves when every unit is performed. -/
def State.finishUnit (s : State) (f : Flight) (i : Nat) (u : AccessUnit) (bs : List Byte) (poison : Option Word)
    (seen : List Nat) : State :=
  let us := f.units.set i { u with done := true }
  let f1 := { f with
    units := us
    data := if bs.isEmpty then f.data else putBytes f.data u.off bs
    poison := f.poison.orElse (fun _ => poison)
    seen := f.seen ++ seen }
  if f1.isOpen then { s with flights := replaceFirst (fun g => g.id == f.id) (fun _ => f1) s.flights }
  else if f.sink = .none then { s with flights := s.flights.filter (fun g => g.id != f.id) }
  else
    { s with
      flights := replaceFirst (fun g => g.id == f.id)
        (fun _ => { f1 with due := s.gtc.toNat + (f.lat - f.lat / 2) }) s.flights }

/-- Whether a unit reads its place, writes it, and keeps what stood there in its value. -/
def UnitOp.reads : UnitOp → Bool
  | .load | .atomic _ _ _ _ | .cadd _ | .qred _ _ => true
  | .store _ | .fill _ => false

def UnitOp.writes : UnitOp → Bool
  | .store _ | .atomic _ _ _ _ | .cadd _ | .qred _ _ => true
  | .load | .fill _ => false

/-- An acquire has read: what its value's writers had before them comes before every later access of its context (R194,
R195). -/
def State.acquireSeen (s : State) (f : Flight) (seen : List Nat) : State :=
  match seen, f.issuer with
  | [], _ | _, .engine _ _ _ | _, .scheduler _ => s
  | _, .ctx t k uid =>
    match s.uidCtx t.toNat k uid with
    | some c =>
      if c.acquiring.contains f.id then
        { s.modUid t.toNat k uid (fun c => { c with known := s.stillOpen (c.known ++ seen) }) with
          flights := s.flights.map (fun (g : Flight) => if g.after.contains f.id then { g with after := g.after ++ seen } else g) }
      else s
    | none => s

/-- One unit of an access is performed at its home. A place on a lost die keeps nothing and returns nothing, and marks the
access (R310). What
the last writers of the unit had before them reaches the reader, and a write leaves its own history there (R195).
(DEDUCED, safe; log entry 16.) -/
def State.performUnit (s : State) (fid i : Nat) (ext : BitVec 640) : Host.Outcome State Fault Refusal :=
  match s.flights.find? (fun f => f.id == fid) with
  | none => .next s
  | some f =>
    match f.units[i]? with
    | none => .next s
    | some u =>
      if !s.canPerform f i then .next s
      else if !homeExists u.home u.len then .fault .absentMemory
      else
        let lost := s.lostHome (s.mapOf f.issuer) u.home u.entry
        let places := u.home.bytes u.len
        let seen := if u.op.reads then s.historyAt places else []
        let (s1, bs) := if lost then (s, List.replicate u.len 0) else s.perform f u ext
        let s2 := s1.finishUnit f i u bs
          (if u.op.reads && badAt s u.home u.len || lost then some (memDataTval s f u.home u.len) else none) seen
        let s3 := if u.op.writes && !lost then s2.mark places (f.hist ++ seen) u.op.reads else s2
        .next (s3.acquireSeen f seen)

/-! ### Traps that come between bundles (R304) -/

/-- An asynchronous trap of an access or an engine: the other replicas of a lead take it through Tongs at the same bundle
(R273), but for what the handler of VOTE_MINORITY has issued, by its number (R281), and a stream records it. A replica that is
not the lead raises none of its own. -/
def State.engineTrap (s : State) (t : Nat) (k : SlotNo) (uid : Nat) (asid : BitVec 12) (tr : Trap) (num : Nat := 0) : State :=
  match s.uidCtx t k uid with
  | none => s.postEvent t k uid asid tr
  | some c =>
    if s.nonLead c || c.replaying then s
    else
      let s1 := s.postEvent t k uid asid tr
      (if c.inHandler num then s1 else s1.share c c.bcnt 0 (.trap tr)).logEntry t k uid 9 c.bcnt
        [tr.name.code.setWidth 64, tr.tval]

end Sys2Proof.Machine
end

