-- ==== Sys2Proof/Machine/Local.lean ====
section
/-! DEFINITION. The memory family of MA on the context's own tile and windows: scalar, vector, quire and indexed
scratchpad accesses, multicast stores, wake comparators and tokens, and FENCE (R349, R373, R384, R385, R405, R406, R408,
R415 to R420, R149 to R152, R198). -/

namespace Sys2Proof.Machine

/-! ### Accesses to S that wait (R194, R198, R200) -/

/-- A core access to S of the context of the cursor cannot be performed in its issue cycle: an acquire, a full FENCE, or for a
write a release-kind FENCE, orders it behind an operation that is still open, or an earlier access to S waits so.
(DESIGN CHOICE, unsafe; log entry 11.) -/
def State.coreWaits (s : State) (isWrite : Bool) : Bool :=
  let c := s.me
  s.flights.any (fun f => f.space == .s && f.isOpen && f.issuer.uid == c.uid)
    || (c.acquiring ++ (if isWrite then c.fenceRel else [])).any s.openOp

/-- The units of some pieces of S of one length: those out of range have none. A write keeps the address in the place of the
offset, for the comparators. -/
def State.coreUnits (s : State) (pieces : List (Word × Nat)) (op : Nat → UnitOp) : List AccessUnit :=
  pieces.zipIdx.filterMap (fun x =>
    if x.1.1.toNat < s.here.limit then
      some { home := .scratch s.cur.tile (s.me.mapping.phys x.1.1.toNat)
             off := if (op x.2).writes then x.1.1.toNat else x.2 * x.1.2, len := x.1.2, op := op x.2
             done := false, entry := none }
    else none)

/-- A core access to S waits for what orders it, and for the earlier ones that wait. -/
def State.flyCore (s : State) (id : Nat) (us : List AccessUnit) (isWrite : Bool) (o : OrderClass) (sink : Sink)
    (data : List Byte) (tval : Word) : State :=
  let mine := (s.flights.filter (fun f => f.space == .s && f.isOpen && f.issuer.uid == s.me.uid)).map Flight.id
  let s1 := s.fly id .s us isWrite o sink data tval 0
  { s1 with flights := s1.flights.map (fun (f : Flight) => if f.id = id then { f with after := mine ++ f.after } else f) }

/-- n bytes from an address as aligned pieces of at most 8 bytes. -/
def corePieces (a : Word) (n : Nat) : List (Word × Nat) :=
  (List.range (ceilDiv n 8)).map (fun i => (a + BitVec.ofNat 64 (8 * i), Nat.min 8 (n - 8 * i)))

/-- A core store of some pieces, each with its bytes, that waits. -/
def State.storeLater (s : State) (pieces : List (Word × List Byte)) (o : OrderClass) : State :=
  let us := s.coreUnits (pieces.map (fun x => (x.1, x.2.length))) (fun i => .store ((pieces.getD i (0, [])).2))
  if us.isEmpty then s
  else
    let (id, s1) := s.fresh
    s1.flyCore id us true o .none [] ((pieces.headD (0, [])).1)

/-- A core store: in the issue cycle, or later where an earlier operation holds it (R185, R200). -/
def State.storeHere (s : State) (a : Word) (bs : List Byte) : State :=
  if s.coreWaits true then
    (s.modMe (fun c => c.captureSpm true false 0 (firstOut s.here.limit a bs.length))).storeLater
      ((corePieces a bs.length).zipIdx.map (fun x => (x.1.1, (bs.drop (8 * x.2)).take x.1.2))) .causal
  else s.coreStore a bs

/-- What a load of S makes of its bytes, in the register that its landing names. -/
def CoreDest.write (k : CoreDest) (w : Write) (bs : List Byte) : Write :=
  match k, w with
  | .word x, .s d _ => .s d (TypeCode.extNat x (natOfBytes bs))
  | .vec, .v d _ => .v d (bytesVec bs)
  | .wide x l, .v d _ =>
    .v d (vecOf l ((splitNat (8 * TypeCode.bytes x) (natOfBytes bs) l.lanes).map
      (fun v => (TypeCode.extNat x v).toNat % 2 ^ l.bits)))
  | .lanes l act old, .v d _ =>
    let z := l.bytes
    let got := ((act.zipIdx.filter (fun x => x.1)).map (fun x => x.2)).zipIdx.map
      (fun x => (x.1, natOfBytes ((bs.drop (z * x.2)).take z)))
    .v d (vecOf l (mergeLanes act ((List.range l.lanes).map (fun i => (assocGet i got).getD 0)) (vecLanes l old)))
  | .quire, .q d _ => .q d (Quire.ofImage (BitVec.ofNat 640 (natOfBytes bs)))
  | _, w => w

/-- A load of some pieces of S that waits: its landing receives the value when they are read. -/
def State.loadLater (s : State) (k : CoreDest) (w : Write) (lat : Nat) (pieces : List (Word × Nat)) : State :=
  let (id, s1) := s.fresh
  let n := (pieces.map Prod.snd).sum
  let us := s1.coreUnits pieces (fun _ => .load)
  (s1.modMe (fun c => c.addLanding (Landing.waiting w (c.bcnt + BitVec.ofNat 64 lat) id s.cur.pos))).flyCore id us false
    .relaxed (.core k) (List.replicate n 0) ((pieces.headD (0, 0)).1)

/-! ### Shared operations -/

/-- A landing with a poison mark where the read met an uncorrectable error (R307). -/
def State.landRead (s : State) (w : Write) (lat : Nat) (poison : Option Word) : State :=
  s.modMe fun c => c.addLanding
    { Landing.ready w (c.bcnt + BitVec.ofNat 64 lat) s.gtc.toNat s.cur.pos with poison := poison }

/-- ALIGN with the address as TVAL. -/
def alignTrap (a : Word) (z : Nat) : Option Trap :=
  if a.toNat % z ≠ 0 then some { name := .align, tval := a } else none

/-- A core read of n bytes at an address, with its alignment, watermark and landing. -/
def coreLoad (addr : Context → Word) (n al lat : Nat) (w : Write) (k : CoreDest) : Meaning :=
  { block := fun s => s.watermarkBlock (addr s.me) n
    check := fun s => alignTrap (addr s.me) al
    effect := fun st s =>
      let a := addr st.me
      if s.coreWaits false then
        (s.modMe (fun c => c.captureSpm false false 0 (firstOut s.here.limit a n))).loadLater k w lat (corePieces a n)
      else (s.landRead (k.write w (s.coreBytes a n)) lat (s.corePoison a n)).coreLoadCapture a n }

/-- The bytes of a vector-store source: the register, or the head element padded to n bytes (R415). -/
def vsrcBytes (src : VSrc) (s : State) (n : Nat) : List Byte :=
  match src with
  | .v r => (vecBytes (s.me.vreg r)).take n
  | .h q => padBytes n (s.headBytes q)

/-- The bytes that a source stores into S: 256, or the head element rounded up to 16. -/
def vsrcSize (src : VSrc) (c : Context) : Nat :=
  match src with
  | .v _ => 256
  | .h q => if (c.queue q).elemBytes = 8 then 16 else (c.queue q).elemBytes

def vsrcHeads : VSrc → List HReg
  | .v _ => []
  | .h q => [q]

/-- An h source of an unconfigured queue (R415). -/
def vsrcCheck (src : VSrc) (c : Context) : Option Trap :=
  match src with
  | .v _ => none
  | .h q => if (c.queue q).configured then none else some { name := .queueConfig, tval := q.setWidth 64 }

/-- MEM_DATA for a core read whose value no landing carries (R307). -/
def poisonCheck (s : State) (a : Word) (n : Nat) : Option Trap :=
  (s.corePoison a n).map (fun v => { name := .memData, tval := v })

/-- The first of two checks that fails. -/
def firstTrap (a b : Option Trap) : Option Trap :=
  match a with
  | some t => some t
  | none => b

/-! ### Scalar and vector loads and stores -/

def ldsMeaning (x : TypeCode) (d a : SReg) (off : Lit 7) : Meaning :=
  let z := TypeCode.bytes x
  coreLoad (fun c => effAddr c a off z) z z 4 (.s d 0) (.word x)

def stsMeaning (x : TypeCode) (d a : SReg) (off : Lit 7) : Meaning :=
  let z := TypeCode.bytes x
  { block := fun s => s.watermarkBlock (effAddr s.me a off z) z
    check := fun s => alignTrap (effAddr s.me a off z) z
    effect := fun st s => s.storeHere (effAddr st.me a off z) (bytesOfNat z (st.me.sreg d).toNat) }

def vldsMeaning (d : VReg) (a : SReg) (off : Lit 10) : Meaning :=
  coreLoad (fun c => effAddr c a off 16) 256 16 5 (.v d 0) .vec

def vldsxMeaning (x : TypeCode) (to16 : Bool) (d : VReg) (a : SReg) (off : Lit 6) : Meaning :=
  let w : LaneW := if to16 then .w16 else .w32
  let z := TypeCode.bytes x
  coreLoad (fun c => effAddr c a off 16) (w.lanes * z) 16 7 (.v d 0) (.wide x w)

/-- The offsets of the active lanes, in lane order. -/
def activeOffsets (act : List Bool) (addr : Nat → Word) : List (Nat × Word) :=
  ((act.zipIdx).filter (fun x => x.1)).map (fun x => (x.2, addr x.2))

/-- The first byte out of range of the first lane that has one. -/
def lanesOut (limit z : Nat) (ls : List (Nat × Word)) : Option Word := ls.findSome? (fun l => firstOut limit l.2 z)

def lanesBlock (s : State) (z : Nat) (ls : List (Nat × Word)) : Option BlockCond :=
  ls.findSome? (fun l => s.watermarkBlock l.2 z)

/-- A gather of lanes by a core read: results for active lanes, the old value elsewhere. -/
def State.gatherLanes (s : State) (w : LaneW) (d : VReg) (old : Vec) (act : List Bool) (ls : List (Nat × Word))
    (lat : Nat) : State :=
  let z := w.bytes
  let k : CoreDest := .lanes w act old
  let capture (s : State) := s.modMe (fun c => c.captureSpm false false 0 (lanesOut s.here.limit z ls))
  if s.coreWaits false then (capture s).loadLater k (.v d 0) lat (ls.map (fun l => (l.2, z)))
  else
    (capture (s.landRead (k.write (.v d 0) (ls.flatMap (fun l => s.coreBytes l.2 z))) lat
      (ls.findSome? (fun l => s.corePoison l.2 z)))).noteRead (ls.flatMap (fun l => s.coreHistory l.2 z))

def vldsmMeaning (d : VReg) (a : SReg) (m : MReg) (off : Lit 6) : Meaning :=
  let lanes := fun (c : Context) =>
    activeOffsets (activeLanes .w32 (c.mreg m)) (fun i => effAddr c a off 16 + BitVec.ofNat 64 (4 * i))
  { block := fun s => lanesBlock s 4 (lanes s.me)
    check := fun s => alignTrap (effAddr s.me a off 16) 16
    effect := fun st s =>
      s.gatherLanes .w32 d (st.me.vreg d) (activeLanes .w32 (st.me.mreg m)) (lanes st.me) 5 }

/-- The lanes of VGTS and VSCS (R405). -/
def indexedLanes (c : Context) (w : LaneW) (a : SReg) (i : BitVec 4) (m : MReg) : List (Nat × Word) :=
  let idx := vecLanes w (c.vreg (i.setWidth 5))
  activeOffsets (activeLanes w (c.mreg m))
    (fun l => c.sreg a + BitVec.ofNat 64 (w.bytes * laneAt idx l))

/-- The lowest lane that needs a second word in a bank: lanes in order against the words that earlier lanes took. -/
def bankClash (mp : Mapping) (limit : Nat) : List (Nat × Nat) → List (Nat × Word) → Option (Nat × Word × Nat)
  | _, [] => none
  | seen, (l, a) :: rest =>
    if a.toNat < limit then
      let b := bankOf mp.spmode mp.keys a.toNat
      let row := natBits a.toNat 10 11
      match assocGet b seen with
      | some r => if r = row then bankClash mp limit seen rest else some (l, a, b)
      | none => bankClash mp limit ((b, row) :: seen) rest
    else bankClash mp limit seen rest

/-- The checks of R405. -/
def indexedCheck (s : State) (w : LaneW) (a : SReg) (ls : List (Nat × Word)) : Option Trap :=
  firstTrap (alignTrap (s.me.sreg a) w.bytes)
    ((bankClash s.me.mapping s.here.limit [] ls).map (fun (x : Nat × Word × Nat) =>
      { name := .align
        tval := (1 : Word) <<< 63 ||| (x.2.1 &&& 0x1FFFFF) <<< 32 ||| BitVec.ofNat 64 (x.1 * 256 + x.2.2) }))

def vgtsMeaning (w : LaneW) (d : VReg) (a : SReg) (i : BitVec 4) (m : MReg) : Meaning :=
  { block := fun s => lanesBlock s w.bytes (indexedLanes s.me w a i m)
    check := fun s => indexedCheck s w a (indexedLanes s.me w a i m)
    effect := fun st s =>
      s.gatherLanes w d (st.me.vreg d) (activeLanes w (st.me.mreg m)) (indexedLanes st.me w a i m) 8 }

/-- The first byte of some lanes that lies in a range. -/
def firstLane (z : Nat) (ls : List (Nat × Word)) (lo hi : Nat) : Option Nat :=
  ls.findSome? (fun l => firstIn lo hi l.2.toNat z)

def vscsMeaning (w : LaneW) (src : VSrc) (a : SReg) (i : BitVec 4) (m : MReg) : Meaning :=
  { heads := vsrcHeads src
    block := fun s => lanesBlock s w.bytes (indexedLanes s.me w a i m)
    check := fun s => firstTrap (vsrcCheck src s.me) (indexedCheck s w a (indexedLanes s.me w a i m))
    effect := fun st s =>
      let z := w.bytes
      let ls := indexedLanes st.me w a i m
      let bs := vsrcBytes src st 256
      let lim := s.here.limit
      let mp := st.me.mapping
      if s.coreWaits true then
        (s.modMe (fun c => c.captureSpm true false 0 (lanesOut lim z ls))).storeLater
          (ls.map (fun l => (l.2, (bs.drop (z * l.1)).take z))) .causal
      else
      let s1 := s.modHere (fun x =>
        { x with
          scratch := ls.foldl (fun (mem : Memory) (l : Nat × Word) => writeBytes mem mp lim l.2 ((bs.drop (z * l.1)).take z)) x.scratch
        }.wakeBy (s.muted s.cur.tile.toNat) 3 st.me.uid (firstLane z ls) s.gtc.toNat)
      (s1.modMe (fun c => c.captureSpm true false 0 (lanesOut lim z ls))).mark
        (ls.flatMap (fun l => scratchPlaces s.cur.tile mp lim l.2 z)) (s.history st.me) false }

def vstsMeaning (src : VSrc) (a : SReg) (off : Lit 10) : Meaning :=
  { heads := vsrcHeads src
    block := fun s => s.watermarkBlock (effAddr s.me a off 16) (vsrcSize src s.me)
    check := fun s => firstTrap (vsrcCheck src s.me) (alignTrap (effAddr s.me a off 16) 16)
    effect := fun st s => s.storeHere (effAddr st.me a off 16) (vsrcBytes src st (vsrcSize src st.me)) }

/-! ### Quire images (R373) -/

def qsaveMeaning (d : QReg) (a : SReg) (off : Lit 10) : Meaning :=
  { block := fun s => s.watermarkBlock (effAddr s.me a off 80) 80
    check := fun s => alignTrap (effAddr s.me a off 80) 16
    effect := fun st s => s.storeHere (effAddr st.me a off 80) (bytesOfNat 80 (st.me.qreg d).image.toNat) }

def qrestMeaning (d : QReg) (a : SReg) (off : Lit 10) : Meaning :=
  coreLoad (fun c => effAddr c a off 80) 80 16 5 (.q d Quire.zero) .quire

/-! ### Multicast (R149 to R152) -/

/-- The fields of a window word (Table 7-7). -/
def winX0 (w : Word) : Nat := natBits w.toNat 58 5
def winY0 (w : Word) : Nat := natBits w.toNat 53 5
def winWm1 (w : Word) : Nat := natBits w.toNat 48 5
def winHm1 (w : Word) : Nat := natBits w.toNat 43 5
def winLat (w : Word) : Nat := natBits w.toNat 32 11
def winBase (w : Word) : Nat := natBits w.toNat 16 16 * 32
def winRange (w : Word) : Nat := (natBits w.toNat 0 16 + 1) * 32

/-- The bytes of a store that lie in the range of its window, with the window offset of the first. -/
def winBytes (w o : Word) (bs : List Byte) : Option (Nat × List Byte) :=
  let kept := (bs.zipIdx.map (fun x => ((o + BitVec.ofNat 64 x.2).toNat, x.1))).filter
    (fun x => decide (x.1 < winRange w))
  match kept with
  | (a, _) :: _ => some (a, kept.map Prod.snd)
  | [] => none

/-- The dies of the rectangle of a window. -/
def winDies (w : Word) : List Nat :=
  let xs := [winX0 w / 16, (winX0 w + winWm1 w) / 16]
  let ys := [winY0 w / 16, (winY0 w + winHm1 w) / 16]
  ys.flatMap (fun y => xs.map (fun x => 2 * y + x))

/-- A multicast store starts from a tile under a number: it lands everywhere WLAT cycles later, also behind a release-kind
FENCE: R199 fixes the cycle, and its write is ordered behind nothing. (DESIGN CHOICE, unsafe; log entry 11.) -/
def State.multicastAs (s : State) (id : Nat) (t : TileId) (uid : Nat) (w o : Word) (bs : List Byte) : State :=
  match winBytes w o bs with
  | some (a, kept) =>
    { s with
      mcasts := s.mcasts ++
        [{ id := id, tile := t, uid := uid, x0 := winX0 w, y0 := winY0 w, x1 := winX0 w + winWm1 w
           y1 := winY0 w + winHm1 w, off := winBase w + a, bytes := kept, land := s.gtc.toNat + winLat w }] }
  | none => s

/-- A multicast store under a new number. -/
def State.multicast (s : State) (t : TileId) (uid : Nat) (w o : Word) (bs : List Byte) : State :=
  { s with nextId := s.nextId + 1 }.multicastAs s.nextId t uid w o bs

/-- A multicast store of the context of the cursor: sent, or held as KIND 1. -/
def State.storeWindow (s : State) (w : Win) (word o : Word) (bs : List Byte) : State :=
  let c := s.me
  let s1 := s.modMe (fun c => setTdm
    (c.captureSpm true true (winY0 word * 32 + winX0 word) (firstOut (winRange word) o bs.length)) (winDies word))
  if c.holds then
    s1.holdWrite 1 bs.length (w.setWidth 64 <<< 48 ||| (o &&& 0xFFFFFFFFFFFF)) [] bs word
  else s1.multicast s.cur.tile c.uid word o bs

def Context.window (c : Context) (w : Win) : Word := c.windows[w.toNat]'w.isLt

/-- A disabled window (R150). -/
def windowCheck (c : Context) (w : Win) : Option Trap :=
  if (c.window w).msb then none else some { name := .queueConfig, tval := w.setWidth 64 + 16 }

def stmcMeaning (x : TypeCode) (w : Win) (d a : SReg) (off : Lit 4) : Meaning :=
  let z := TypeCode.bytes x
  { block := fun s => s.bufferBlock 2
    check := fun s => firstTrap (alignTrap (effAddr s.me a off z) z) (windowCheck s.me w)
    effect := fun st s =>
      s.storeWindow w (st.me.window w) (effAddr st.me a off z) (bytesOfNat z (st.me.sreg d).toNat) }

def vstmcMeaning (w : Win) (src : VSrc) (a : SReg) (off : Lit 7) : Meaning :=
  { heads := vsrcHeads src
    block := fun s => s.bufferBlock 33
    check := fun s => firstTrap (vsrcCheck src s.me)
      (firstTrap (alignTrap (effAddr s.me a off 16) 16) (windowCheck s.me w))
    effect := fun st s => s.storeWindow w (st.me.window w) (effAddr st.me a off 16) (vsrcBytes src st 256) }

/-! ### Wake (R417 to R420) -/

def Tile.comparator (x : Tile) (n : BitVec 3) : Option Comparator := x.comparators[n.toNat]'n.isLt

def Tile.setComparator (x : Tile) (n : BitVec 3) (cm : Option Comparator) : Tile :=
  { x with comparators := x.comparators.set n.toNat cm n.isLt }

/-- WARM takes effect for writes from the cycle after its issue: until then the former comparator stands (R417). -/
def Tile.rearm (x : Tile) (n : BitVec 3) (cm : Option Comparator) (gtc : Nat) : Tile :=
  { x.setComparator n cm with
    ending := x.ending.filter (fun y => y.2.2 == gtc)
      ++ (match x.comparator n with
        | some old => if old.since ≤ gtc then [(n.toNat, old, gtc)] else []
        | none => []) }

def warmMeaning (n : BitVec 3) (lo hi : SReg) (filter : BitVec 4) : Meaning :=
  { check := fun s =>
      let l := s.me.sreg lo
      let h := s.me.sreg hi
      firstTrap (firstTrap (alignTrap l 16) (alignTrap h 16))
        (if h.toNat ≤ l.toNat ∨ s.here.limit < h.toNat then
          some { name := .queueConfig, tval := 96 + n.setWidth 64 }
        else match s.here.comparator n with
          | some cm =>
            if cm.uid ≠ s.me.uid then some { name := .queueConfig, tval := 104 + n.setWidth 64 } else none
          | none => none)
    effect := fun st s =>
      s.modHere (fun x => x.rearm n (some
        { uid := st.me.uid, lo := (st.me.sreg lo).toNat, hi := (st.me.sreg hi).toNat, filter := filter
          since := s.gtc.toNat + 1 }) s.gtc.toNat) }

def warmOffMeaning (n : BitVec 3) : Meaning :=
  { effect := fun st s =>
      match s.here.comparator n with
      | some cm => if cm.uid = st.me.uid then s.modHere (fun x => x.rearm n none s.gtc.toNat) else s
      | none => s }

/-- The oldest token of a context that entered in an earlier cycle. -/
def Tile.oldestToken (x : Tile) (uid gtc : Nat) : Option Token :=
  x.tokens.find? (fun t => t.uid == uid && decide (t.at_ < gtc))

/-- The word of a token (Table 20-11). -/
def Token.word (t : Token) (lost : Bool) : Word :=
  (if lost then (1 : Word) <<< 63 else 0) ||| t.cmp.setWidth 64 <<< 57 ||| t.cls.setWidth 64 <<< 53
    ||| t.off.setWidth 64 <<< 32 ||| t.count.setWidth 64

/-- The block of an input that a follower awaits from its lead's report. (DEDUCED, safe; log entry 29.) -/
def State.reportBlock (s : State) : Option BlockCond :=
  if s.me.observed.isSome then none else some .reportAwaited

def wtokMeaning (d : SReg) : Meaning :=
  { block := fun s =>
      match s.inMode with
      | .follow => s.reportBlock
      | .replay => none
      | .own => if (s.here.oldestToken s.me.uid s.gtc.toNat).isSome then none else some .wakeEmpty
    effect := fun st s =>
      match s.inMode with
      | .follow => s.land (.s d (st.me.observed.getD 0)) 1
      | .replay => s.landInput (.s d) 1 7 [] 0 none
      | .own =>
        match s.here.oldestToken st.me.uid s.gtc.toNat with
        | none => s
        | some tok =>
          let c := st.me
          let x := tok.word c.wakeLost
          let s1 := (s.modHere (fun y => { y with tokens := y.tokens.erase tok })).modMe
            (fun c => { c with wakeLost := false })
          ((s1.land (.s d x) 1).shareIssued c 0 (.report x)).logEntry s.cur.tile.toNat s.cur.slot c.uid 7 c.bcnt [x] }

/-! ### FENCE (R198) -/

/-- The numbers of the writes that the release buffer of a context holds. -/
def Context.heldIds (c : Context) : List Nat := if c.holds then c.replica.buffer.map HeldWrite.id else []

/-- The writes that a release-kind FENCE of the context of the cursor covers at a scope: those that happen before it, and
those that its release buffer holds (R200, R203). -/
def State.fenced (s : State) (sc : Scope) : List Nat := s.releases s.me s.cur.tile.toNat sc ++ s.me.heldIds

/-- Every reader behind the fence has to see the writes that it covers. -/
def State.cover (s : State) (ws : List Nat) : State :=
  { s with flights := s.flights.map (fun (f : Flight) => if ws.contains f.id then { f with fenced := true } else f) }

def fenceMeaning (k : FenceKind) (sc : Scope) : Meaning :=
  { effect := fun _ s =>
      let ws := s.fenced sc
      let rel := k == .rel || k == .full
      let acq := k == .acq || k == .full
      let s1 := (s.observe (if acq then s.me.unobserved else [])).modMe (fun c => { c with
        fenceRel := if rel then s.stillOpen c.fenceRel ++ ws else c.fenceRel
        acquiring := c.acquiring ++ (if acq then s.openReads c.uid else []) ++ (if k == .full then ws else []) })
      if rel then (s1.cover ws).cut .fence 0 else s1 }

/-! ### Instructions -/
def execLds (x : TypeCode) (d a : SReg) (off : Lit 7) (s : State) : Host.Outcome State Fault Refusal :=
  runSyllable (.lds x d a off) (ldsMeaning x d a off) s
def execSts (x : TypeCode) (d a : SReg) (off : Lit 7) (s : State) : Host.Outcome State Fault Refusal :=
  runSyllable (.sts x d a off) (stsMeaning x d a off) s
def execVlds (d : VReg) (a : SReg) (off : Lit 10) (s : State) : Host.Outcome State Fault Refusal :=
  runSyllable (.vlds d a off) (vldsMeaning d a off) s
def execVldsm (d : VReg) (a : SReg) (m : MReg) (off : Lit 6) (s : State) : Host.Outcome State Fault Refusal :=
  runSyllable (.vldsm d a m off) (vldsmMeaning d a m off) s
def execVldsx (x : TypeCode) (to16 : Bool) (d : VReg) (a : SReg) (off : Lit 6) (s : State) : Host.Outcome State Fault Refusal :=
  runSyllable (.vldsx x to16 d a off) (vldsxMeaning x to16 d a off) s
def execVgts (w : LaneW) (d : VReg) (a : SReg) (i : BitVec 4) (m : MReg) (s : State) : Host.Outcome State Fault Refusal :=
  runSyllable (.vgts w d a i m) (vgtsMeaning w d a i m) s
def execVscs (w : LaneW) (src : VSrc) (a : SReg) (i : BitVec 4) (m : MReg) (s : State) : Host.Outcome State Fault Refusal :=
  runSyllable (.vscs w src a i m) (vscsMeaning w src a i m) s
def execVsts (src : VSrc) (a : SReg) (off : Lit 10) (s : State) : Host.Outcome State Fault Refusal :=
  runSyllable (.vsts src a off) (vstsMeaning src a off) s
def execQsave (d : QReg) (a : SReg) (off : Lit 10) (s : State) : Host.Outcome State Fault Refusal :=
  runSyllable (.qsave d a off) (qsaveMeaning d a off) s
def execQrest (d : QReg) (a : SReg) (off : Lit 10) (s : State) : Host.Outcome State Fault Refusal :=
  runSyllable (.qrest d a off) (qrestMeaning d a off) s
def execStmc (x : TypeCode) (w : Win) (d a : SReg) (off : Lit 4) (s : State) : Host.Outcome State Fault Refusal :=
  runSyllable (.stmc x w d a off) (stmcMeaning x w d a off) s
def execVstmc (w : Win) (src : VSrc) (a : SReg) (off : Lit 7) (s : State) : Host.Outcome State Fault Refusal :=
  runSyllable (.vstmc w src a off) (vstmcMeaning w src a off) s
def execWarm (n : BitVec 3) (lo hi : SReg) (filter : BitVec 4) (s : State) : Host.Outcome State Fault Refusal :=
  runSyllable (.warm n lo hi filter) (warmMeaning n lo hi filter) s
def execWarmOff (n : BitVec 3) (s : State) : Host.Outcome State Fault Refusal :=
  runSyllable (.warmOff n) (warmOffMeaning n) s
def execWtok (d : SReg) (s : State) : Host.Outcome State Fault Refusal :=
  runSyllable (.wtok d) (wtokMeaning d) s
def execFence (k : FenceKind) (sc : Scope) (s : State) : Host.Outcome State Fault Refusal :=
  runSyllable (.fence k sc) (fenceMeaning k sc) s

end Sys2Proof.Machine
end

