-- ==== Sys2Proof/Machine/Remote.lean ====
section
/-! DEFINITION. The memory family of MA beyond the context's own scratchpad: PUTN, VPUTN and GETN, loads into queues,
stores, atomics, QRED and counters (R326 to R328, R333, R336, R337, R342, R367, R368, R372, R384, R385, R407, R410,
R415, R416, R450). -/

namespace Sys2Proof.Machine

/-! ### N space -/

/-- The units of an N access at an offset of a tile, at most z bytes each. -/
def nUnitsOf (z : Nat) (t : TileId) (o : Word) (n : Nat) (op : Nat → Nat → UnitOp) : List AccessUnit :=
  (List.range (ceilDiv n z)).map (fun i =>
    let len := Nat.min z (n - z * i)
    { home := .scratch t (o + BitVec.ofNat 64 (z * i)).toNat, off := z * i, len := len, op := op (z * i) len
      done := false, entry := none })

/-- Units of 8 bytes (R184). -/
def nUnits (t : TileId) (o : Word) (n : Nat) (op : Nat → Nat → UnitOp) : List AccessUnit := nUnitsOf 8 t o n op

/-- The units of an N store: a VPUTN is sixteen of 16 bytes (R410). -/
def putUnits (t : TileId) (o : Word) (bs : List Byte) : List AccessUnit :=
  nUnitsOf (if bs.length = 256 then 16 else 8) t o bs.length (fun off len => .store ((bs.drop off).take len))

/-- The tile of an N address. -/
def nTileId (base : Word) : TileId := fld base 32 10

/-- The offset of an N access (R367): a sum below 0 is out of range. -/
def nOff {n : Nat} (base : Word) (off : BitVec n) (size : Nat) : Word := BitVec.ofInt 64 (nOffset base off size)

/-- A nonzero bit outside the fields of an N address (R138). -/
def nForm (base : Word) : Option Trap := if nAddrOk base then none else some { name := .protection, tval := base }

/-- PROTECTION in a DET record (R38). -/
def detTrap (c : Context) (tval : Word) : Option Trap :=
  if c.det then some { name := .protection, tval := tval } else none

/-- An N address as a record holds it (Table 14-4): the tile and 32 bits of the offset. -/
def nWord (t : TileId) (o : Word) : Word := t.setWidth 64 <<< 32 ||| (o &&& 0xFFFFFFFF)

/-- The register s_(A+1). -/
def nextReg (a : SReg) : SReg := a + 1

/-- The checks of PUTN and VPUTN (R367, R410). -/
def putnCheck (c : Context) (post : Bool) (a : SReg) (o : Word) (al : Nat) : Option Trap :=
  let base := c.sreg a
  let ctr := c.sreg (nextReg a)
  firstTrap (nForm base)
    (firstTrap (if post && ctr >>> 21 != 0 then some { name := .protection, tval := ctr } else none)
      (firstTrap (alignTrap o al)
        (firstTrap (if post then alignTrap ctr 8 else none) (detTrap c base))))

/-- The write of an N store and its post, from a tile by a context. -/
def State.putn (s : State) (target : TileId) (o : Word) (bs : List Byte) (post : Option Word) : State :=
  let t := s.cur.tile.toNat
  let lat := hopLatency t target.toNat
  let (id, s1) := s.fresh
  let s2 := s1.fly id .n (putUnits target o bs) true .causal
    .none [] (nWord target o) lat
  let s3 := s2.dueAt id (s.gtc.toNat + lat)
  match post with
  | none => s3
  | some ctr =>
    let (pid, s4) := s3.fresh
    let s5 := s4.fly pid .n (nUnits target ctr 8 (fun _ _ => .cadd (BitVec.ofNat 64 bs.length))) true (.release .pkg) .none []
      (nWord target ctr) lat
    s5.dueAt pid (s.gtc.toNat + lat)

/-- An N store of the context of the cursor: sent, or held as KIND 2 with its post as KIND 6. -/
def State.storeN (s : State) (base o : Word) (bs : List Byte) (post : Option Word) : State :=
  let c := s.me
  let target := nTileId base
  let lim := (s.tile target.toNat).limit
  let out (c : Context) : Context := match post with
    | some ctr => c.captureSpm true true target.toNat (firstOut lim ctr 8)
    | none => c
  let s1 := s.modMe (fun c => setTdm (out (c.captureSpm true true target.toNat (firstOut lim o bs.length)))
    [stackOf target.toNat])
  if c.holds then
    let s2 := s1.holdWrite 2 bs.length (nWord target o) [] bs 0
    match post with
    | some ctr =>
      s2.holdWrite 6 8 ((2 : Word) <<< 50 ||| nWord target ctr) [] (bytesOfNat 8 bs.length) 8
    | none => s2
  else s1.putn target o bs post

def putnMeaning (x : TypeCode) (post : Bool) (d a : SReg) (off : BitVec 6) : Meaning :=
  let z := TypeCode.bytes x
  { block := fun s => s.bufferBlock (if post then 4 else 2)
    check := fun s => putnCheck s.me post a (nOff (s.me.sreg a) off z) z
    effect := fun st s =>
      let c := st.me
      s.storeN (c.sreg a) (nOff (c.sreg a) off z) (bytesOfNat z (c.sreg d).toNat)
        (if post then some (c.sreg (nextReg a)) else none) }

def vputnMeaning (post : Bool) (src : VSrc) (a : SReg) (off : BitVec 6) : Meaning :=
  { heads := vsrcHeads src
    block := fun s => s.bufferBlock (if post then 35 else 33)
    check := fun s => firstTrap (vsrcCheck src s.me) (putnCheck s.me post a (nOff (s.me.sreg a) off 16) 16)
    effect := fun st s =>
      let c := st.me
      s.storeN (c.sreg a) (nOff (c.sreg a) off 16) (vsrcBytes src st 256)
        (if post then some (c.sreg (nextReg a)) else none) }

/-! ### Loads into queues (R327) -/

/-- An unconfigured queue, or one whose elements do not fit a vector load. -/
def queueCheck (c : Context) (q : HReg) (vec : Bool) : Option Trap :=
  if !(c.queue q).configured then some { name := .queueConfig, tval := q.setWidth 64 }
  else if vec && (c.queue q).elemBytes != 256 then some { name := .queueConfig, tval := q.setWidth 64 + 0x200 }
  else none

def queueBlock (c : Context) (q : HReg) : Option BlockCond := if (c.queue q).full then some (.queueFull q) else none

/-- Whether the context itself performs its inputs. -/
def State.performsInputs (s : State) : Bool := s.inMode == .own

/-- Alignment of a GETN: TVAL is the N address (R137). -/
def getnAlign (base : Word) (off : BitVec 7) (z : Nat) : Option Trap :=
  if (nOff base off z).toNat % z = 0 then none
  else some { name := .align, tval := nWord (nTileId base) (nOff base off z) }

def getnMeaning (x : TypeCode) (q : HReg) (a : SReg) (off : BitVec 7) : Meaning :=
  let z := TypeCode.bytes x
  { delivers := some q
    block := fun s => queueBlock s.me q
    check := fun s =>
      let base := s.me.sreg a
      firstTrap (queueCheck s.me q false)
        (firstTrap (nForm base) (firstTrap (getnAlign base off z) (detTrap s.me base)))
    effect := fun st s =>
      let c := st.me
      let base := c.sreg a
      let o := nOff base off z
      let target := nTileId base
      let d := hopLatency s.cur.tile.toNat target.toNat
      let (id, s1) := s.fresh
      let lim := (s.tile target.toNat).limit
      let s2 := (s1.reserveIn q id 1).modMe (fun c => c.captureSpm false true target.toNat (firstOut lim o z))
      if s.performsInputs then
        (s2.modMe (fun c => setTdm c [stackOf target.toNat])).fly id .n (nUnits target o z (fun _ _ => .load)) false .relaxed
            (.queue q (c.queue q).elemBytes z (TypeCode.isSigned x)) (List.replicate z 0) (nWord target o)
            (if target = s.cur.tile then 4 else 2 * d + 4)
      else s2 }

/-- What an access lacks, where the context performs it now (R171, R450): nothing is translated for a held write or a
follower's load, and an answered access raises its trap. -/
def missesFor (s : State) (active : Bool) (g : Target) : Misses :=
  if active && s.me.answer.isNone then g.needs s s.cur.tile.toNat s.me.asid else []

/-- The translations of an access of the context of the cursor. -/
def State.foundHere (s : State) (g : Target) : List (Part × Trans) := g.found s s.cur.tile.toNat s.me.asid

/-- The checks that need the tables: the answer of a refused access, then the permission. -/
def tableCheck (s : State) (active : Bool) (g : Target) (perm : BitVec 4) : Option Trap :=
  if active then firstTrap (answerTrap s.me g.tval)
    (firstTrap (podTrap s.node (g.desc s s.cur.tile.toNat s.me.asid) g.tval) (permTrap perm (s.foundHere g) g.tval)) else none

/-- The checks that need no table. -/
def formCheck (s : State) (g : Target) : Option Trap :=
  firstTrap g.alignTrap (firstTrap g.formTrap (detTrap s.me g.detTval))

/-- Size and signedness of a named element: those of the format; 8 and signed in the flat view (R328, R342). -/
def elemForm (s : State) (g : Target) : Nat × Bool :=
  match g with
  | .tensor a _ _ =>
    if a = 0 then (8, true)
    else match cachedDesc s s.cur.tile.toNat s.me.asid a with
      | some d => (d.elemBytes, fmtSigned d.fmt)
      | none => (8, true)
  | .cap _ n => (n, false)
  | .host _ n => (n, false)

/-- A load of D, C or H that delivers into a queue (R342, R407). `form` gives the size and signedness of a scalar. -/
def queueLoad (q : HReg) (vec : Bool) (g : Context → Target) (form : State → Nat × Bool) : Meaning :=
  { delivers := some q
    block := fun s => queueBlock s.me q
    misses := fun s => missesFor s s.performsInputs (g s.me)
    missTval := fun s => (g s.me).tval
    check := fun s => firstTrap (queueCheck s.me q vec)
      (firstTrap (formCheck s (g s.me)) (tableCheck s s.performsInputs (g s.me) 0b1000))
    effect := fun st s =>
      let gt := g st.me
      let (id, s1) := s.fresh
      let s2 := s1.reserveIn q id 1
      if s.performsInputs then
        let fo := s.foundHere gt
        let us := unitsOf (fun _ => .load) fo
        let (z, sg) := form st
        (s2.countRequests s.cur.tile.toNat s.cur.slot st.me.uid fo).fly id gt.space us false .relaxed
          (.queue q (st.me.queue q).elemBytes (if vec then 256 else z) sg) (fillBytes fo) gt.tval
          (accessLatency s.cur.tile.toNat fo)
      else s2 }

def tensorOf (a c : SReg) (k : DKind) (cx : Context) : Target := .tensor (cx.sreg a) (cx.sreg c) k

def lddMeaning (q : HReg) (a c : SReg) : Meaning :=
  queueLoad q false (tensorOf a c .elem) (fun st => elemForm st (tensorOf a c .elem st.me))
def vlddMeaning (q : HReg) (a c : SReg) : Meaning := queueLoad q true (tensorOf a c .vector) (fun _ => (256, false))
def ldcMeaning (x : TypeCode) (q : HReg) (a : SReg) (off : BitVec 7) : Meaning :=
  let z := TypeCode.bytes x
  queueLoad q false (fun c => .cap (effAddrB c a off z) z) (fun _ => (z, TypeCode.isSigned x))
def vldcMeaning (q : HReg) (a : SReg) (off : BitVec 10) : Meaning :=
  queueLoad q true (fun c => .cap (effAddrB c a off 16) 256) (fun _ => (256, false))
def ldhMeaning (x : TypeCode) (q : HReg) (a : SReg) (off : BitVec 7) : Meaning :=
  let z := TypeCode.bytes x
  queueLoad q false (fun c => .host (effAddrB c a off z) z) (fun _ => (z, TypeCode.isSigned x))
def vldhMeaning (q : HReg) (a : SReg) (off : BitVec 10) : Meaning :=
  queueLoad q true (fun c => .host (effAddrB c a off 16) 256) (fun _ => (256, false))

/-! ### Stores to D, C and H -/

/-- Whether a write of a target takes part in causal order: D and C at home in this package (R188). -/
def causalTarget (found : List (Part × Trans)) (g : Target) : OrderClass :=
  match g with
  | .host _ _ => .plain
  | .cap _ _ => .causal
  | .tensor _ _ _ => if (remoteRequests found).isEmpty then .causal else .plain

/-- A translated store, by the context of the cursor: bytes of OUTSIDE elements are dropped (R156). -/
def State.storeFound (s : State) (g : Target) (fo : List (Part × Trans)) (bs : List Byte) : State :=
  let us := unitsOf (fun p => .store (p.slice bs)) fo
  if us.isEmpty then s
  else
    let (id, s1) := s.fresh
    (s1.countRequests s.cur.tile.toNat s.cur.slot s.me.uid (match g with
      | .tensor _ _ _ => fo
      | .cap _ _ | .host _ _ => [])).fly id g.space us true (causalTarget fo g) .none [] g.tval
        (accessLatency s.cur.tile.toNat fo)

/-- The record of a held store (R276). -/
def State.holdStore (s : State) (g : Target) (bs : List Byte) : State :=
  match g with
  | .tensor a c _ => s.holdWrite 3 bs.length (a &&& 0xFFFFF) [c] bs 0
  | .cap a _ => s.holdWrite 4 bs.length a [] bs 0
  | .host a _ => s.holdWrite 5 bs.length 0 [a] bs 0

def targetStore (heads : List HReg) (src : State → Option Trap) (words : Nat) (g : Context → Target)
    (data : State → List Byte) : Meaning :=
  { heads := heads
    block := fun s => s.bufferBlock words
    misses := fun s => missesFor s (!s.me.holds) (g s.me)
    missTval := fun s => (g s.me).tval
    check := fun s => firstTrap (src s)
      (firstTrap (formCheck s (g s.me)) (tableCheck s (!s.me.holds) (g s.me) 0b0100))
    effect := fun st s =>
      if st.me.holds then s.holdStore (g st.me) (data st)
      else s.storeFound (g st.me) (s.foundHere (g st.me)) (data st) }

/-- The bytes that STD writes: a named element takes as many as it has, at the access or at the commit (R276, R277). -/
def stdBytes (s : State) (d : SReg) : List Byte := bytesOfNat 8 (s.me.sreg d).toNat

def stdMeaning (d a c : SReg) : Meaning :=
  targetStore [] (fun _ => none) 3 (tensorOf a c .elem) (fun s => stdBytes s d)
def vstdMeaning (src : VSrc) (a c : SReg) : Meaning :=
  targetStore (vsrcHeads src) (fun s => vsrcCheck src s.me) 34 (tensorOf a c .vector) (fun s => vsrcBytes src s 256)
def stcMeaning (x : TypeCode) (d a : SReg) (off : BitVec 7) : Meaning :=
  let z := TypeCode.bytes x
  targetStore [] (fun _ => none) 2 (fun c => .cap (effAddrB c a off z) z) (fun s => bytesOfNat z (s.me.sreg d).toNat)
def vstcMeaning (src : VSrc) (a : SReg) (off : BitVec 10) : Meaning :=
  targetStore (vsrcHeads src) (fun s => vsrcCheck src s.me) 33 (fun c => .cap (effAddrB c a off 16) 256)
    (fun s => vsrcBytes src s 256)
def sthMeaning (x : TypeCode) (d a : SReg) (off : BitVec 7) : Meaning :=
  let z := TypeCode.bytes x
  targetStore [] (fun _ => none) 3 (fun c => .host (effAddrB c a off z) z) (fun s => bytesOfNat z (s.me.sreg d).toNat)
def vsthMeaning (src : VSrc) (a : SReg) (off : BitVec 10) : Meaning :=
  targetStore (vsrcHeads src) (fun s => vsrcCheck src s.me) 34 (fun c => .host (effAddrB c a off 16) 256)
    (fun s => vsrcBytes src s 256)

/-! ### Atomics (R328) and QRED (R372) -/

/-- The format of the tensor of a D access; the flat view is signed and 8 bytes wide, as format 3. -/
def targetFmt (s : State) (asid : BitVec 12) (t : Nat) (a : Word) : Option Nat :=
  if a = 0 then some 3 else (cachedDesc s t asid a).map (fun d => d.fmt)

/-- PROTECTION for a format outside a list, or for an OUTSIDE element (R156, R326, R328). -/
def elementTrap (s : State) (t : Nat) (asid : BitVec 12) (a c : Word) (k : DKind) (fmts : List Nat) : Option Trap :=
  let bad : Trap := { name := .protection, tval := dTval a c }
  match targetFmt s asid t a with
  | some f =>
    if !fmts.contains f || anyOutside ((Target.tensor a c k).found s t asid) then some bad else none
  | none => none

/-- The checks of a D access that names one element exactly. -/
def dCheck (s : State) (active : Bool) (g : Target) (a c : Word) (k : DKind) (fmts : List Nat) (perm : BitVec 4) :
    Option Trap :=
  firstTrap (formCheck s g)
    (if active then
      firstTrap (answerTrap s.me g.tval)
        (firstTrap (elementTrap s s.cur.tile.toNat s.me.asid a c k fmts)
          (firstTrap (podTrap s.node (g.desc s s.cur.tile.toNat s.me.asid) g.tval) (permTrap perm (s.foundHere g) g.tval)))
     else none)

/-- The nibble of an ordering, in the operation word of KIND 8. -/
def ordBits (o : Ord) : Word := o.nibble.setWidth 64 <<< 8

/-- A translated atomic by the context of the cursor, under a number of its own. -/
def State.flyAtomic (s : State) (id : Nat) (g : Target) (fo : List (Part × Trans)) (op : UnitOp) (sink : Sink) (n : Nat)
    (o : Ord) : State :=
  let s1 := (s.countRequests s.cur.tile.toNat s.cur.slot s.me.uid fo).fly id g.space (unitsOf (fun _ => op) fo) true
    (ordClass o) sink (List.replicate n 0) g.tval (accessLatency s.cur.tile.toNat fo)
  if ordAcq o then s1.acquire id else s1

/-- An atomic: the operation performs old to new at the home and the old value lands at L = 8, late if necessary. -/
def atomicMeaning (code : BitVec 6) (d a c : SReg) (o : Ord) (second : Context → Option Word) : Meaning :=
  let g := tensorOf a c .elem
  { block := fun s => s.bufferBlock (if (second s.me).isSome then 5 else 4)
    misses := fun s => missesFor s (!s.me.holds && !s.nonLead s.me) (g s.me)
    missTval := fun s => (g s.me).tval
    check := fun s =>
      dCheck s (!s.me.holds && !s.nonLead s.me) (g s.me) (s.me.sreg a) (s.me.sreg c) .elem [0, 3, 4, 7] 0b1110
    effect := fun st s =>
      let cx := st.me
      let (id, s1) := s.fresh
      let s2 := s1.landLate (.s d 0) 8 id
      if cx.holds then
        let data := bytesOfNat 8 (cx.sreg d).toNat ++ (match second cx with
          | some w => bytesOfNat 8 w.toNat
          | none => [])
        (s2.holdWrite 8 data.length ((3 : Word) <<< 50 ||| (cx.sreg a &&& 0xFFFFF))
          [cx.sreg c, code.setWidth 64 ||| ordBits o] data (BitVec.ofNat 64 id) 0 (some id)).cut .atomic id
          |>.acquireIf (ordAcq o) id
      else if s.nonLead cx then s2
      else
        let fo := s.foundHere (g cx)
        let (z, sg) := elemForm st (g cx)
        s2.flyAtomic id (g cx) fo (.atomic code (cx.sreg d) ((second cx).getD 0) sg)
          (if s.performsInputs then .landing z sg else .none) z o }

def aaddMeaning (d a c : SReg) (o : Ord) : Meaning := atomicMeaning 0x1C d a c o (fun _ => none)
def acasMeaning (d a c : SReg) (o : Ord) : Meaning := atomicMeaning 0x1D d a c o (fun cx => some (cx.sreg (nextReg d)))
def amaxiMeaning (d a c : SReg) (o : Ord) : Meaning := atomicMeaning 0x1E d a c o (fun _ => none)
def aminiMeaning (d a c : SReg) (o : Ord) : Meaning := atomicMeaning 0x1F d a c o (fun _ => none)
def axchMeaning (d a c : SReg) (o : Ord) : Meaning := atomicMeaning 0x20 d a c o (fun _ => none)
def axorMeaning (d a c : SReg) (o : Ord) : Meaning := atomicMeaning 0x21 d a c o (fun _ => none)

/-- The byte of the line within its frame, as the descriptor places it. -/
def lineOffset (d : Desc) (c : Word) : Option Nat := (d.place (coordsOf c)).map Prod.snd

/-- A line off a 16-byte boundary or across a 4 KiB granule (R372). -/
def lineTrap (a : Word) (o : Nat) : Option Trap :=
  if o % 16 ≠ 0 ∨ o / 4096 ≠ (o + 79) / 4096 then
    some { name := .align, tval := (a &&& 0xFFFFF) <<< 32 ||| BitVec.ofNat 64 (o % 2 ^ 16) }
  else none

/-- The alignment check of a line: from the byte address in the flat view, from the place of the element elsewhere. -/
def lineCheck (d : Option Desc) (a c : Word) : Option Trap :=
  if a = 0 then lineTrap a (c.toNat % 65536)
  else (d.bind (fun d => lineOffset d c)).bind (lineTrap a)

def qredMeaning (d : QReg) (a c : SReg) (o : Ord) : Meaning :=
  let g := tensorOf a c .line
  { block := fun s => s.bufferBlock 11
    misses := fun s => missesFor s (!s.me.holds) (g s.me)
    missTval := fun s => (g s.me).tval
    check := fun s =>
      firstTrap
        (dCheck s (!s.me.holds) (g s.me) (s.me.sreg a) (s.me.sreg c) .line (List.range 32) 0b1110)
        (lineCheck (if s.me.holds then none else cachedDesc s s.cur.tile.toNat s.me.asid (s.me.sreg a)) (s.me.sreg a)
          (s.me.sreg c))
    effect := fun st s =>
      let cx := st.me
      let q := cx.qreg d
      if cx.holds then
        s.holdWrite 7 80 (cx.sreg a &&& 0xFFFFF) [] (bytesOfNat 80 q.image.toNat)
          (o.nibble.setWidth 64) (cx.sreg c)
      else
        let (id, s1) := s.fresh
        s1.flyAtomic id (g cx) (s.foundHere (g cx)) (.qred q.bits (!q.valid)) .none 0 o }

/-! ### Counters (R326) -/

/-- A counter reference. -/
inductive CounterRef where
  | d (a coords : Word)
  | s (off : Word)
  | n (addr : Word)
  deriving DecidableEq, Repr

def counterRef (cx : Context) (a c : SReg) : CounterRef :=
  if c ≠ 0 then .d (cx.sreg a) (cx.sreg c)
  else if (cx.sreg a).msb then .n (cx.sreg a &&& 0x7FFFFFFFFFFFFFFF)
  else .s (cx.sreg a)

def counterTarget (a c : Word) : Target := .tensor a c .elem

def CounterRef.needs (r : CounterRef) (s : State) (active : Bool) : Misses :=
  match r with
  | .d a c => missesFor s active (counterTarget a c)
  | .s _ | .n _ => []

/-- The checks of a counter reference; `sa` is s_A as the instruction reads it. -/
def CounterRef.check (r : CounterRef) (s : State) (active : Bool) (sa : Word) (perm : BitVec 4) : Option Trap :=
  match r with
  | .s o =>
    firstTrap (alignTrap o 8)
      (if s.here.limit ≤ o.toNat then some { name := .protection, tval := o } else none)
  | .n x =>
    firstTrap (if x.toNat % 8 ≠ 0 then some { name := .align, tval := sa } else none)
      (firstTrap (if nAddrOk x then none else some { name := .protection, tval := sa }) (detTrap s.me sa))
  | .d a c => dCheck s active (counterTarget a c) a c .elem [3, 7] perm

/-- The offset of an N counter. -/
def ctrOff (x : Word) : Word := x &&& 0x1FFFFF

/-- The value of an S counter through the mapping of the context. -/
def State.counterS (s : State) (o : Word) : Word := BitVec.ofNat 64 (natOfBytes (s.coreBytes o 8))

/-- The counter as it stands in the scratchpad, to which a CADD adds. -/
def State.counterHere (s : State) (o : Word) : Word :=
  BitVec.ofNat 64 (natOfBytes (s.here.readBytes s.me.mapping s.here.limit o 8))

/-- SPMERR of an access to an N counter in a release buffer (R146, R326). -/
def State.captureCounter (s : State) (wr : Bool) (x : Word) : State :=
  let target := nTileId x
  s.modMe (fun c => c.captureSpm wr true target.toNat (firstOut (s.tile target.toNat).limit (ctrOff x) 8))

/-- A CADD to a counter in S: a core access, which without a modifier hands no history on (R191). One that an earlier
operation holds is performed later, and an acquire learns what the counter's writers had before them (R194, R198). -/
def State.counterStore (s : State) (o amt : Word) (ord : Ord) : State :=
  if s.coreWaits true then
    let (id, s1) := s.fresh
    (s1.flyCore id (s1.coreUnits [(o, 8)] (fun _ => .cadd amt)) true (ordClass ord) .none [] o).acquireIf (ordAcq ord) id
  else
    let s1 := s.coreStore o (bytesOfNat 8 (s.counterHere o + amt).toNat)
    match ord with
    | .relaxed => { s1 with marks := s.marks }
    | .rel _ => s1
    | .acq _ => s1.observe (s.coreHistory o 8)

/-- The record of a held counter add (Table 14-4). -/
def State.holdCadd (s : State) (r : CounterRef) (amt : Word) (o : Ord) : State :=
  match r with
  | .s _ => s
  | .n x =>
    s.holdWrite 6 8 ((2 : Word) <<< 50 ||| nWord (nTileId x) (ctrOff x)) [] (bytesOfNat 8 amt.toNat)
      (o.nibble.setWidth 64)
  | .d a c =>
    s.holdWrite 6 8 ((3 : Word) <<< 50 ||| (a &&& 0xFFFFF)) [c] (bytesOfNat 8 amt.toNat) (o.nibble.setWidth 64)

/-- A CADD with a release nibble to an S counter waits for the writes that happen before it: first for the commit of those
that a replica holds, which its cut lets begin, then for those on their way (R333). (DEDUCED, unsafe; log entry 30.) -/
def caddMeaning (d a c : SReg) (o : Ord) : Meaning :=
  { block := fun s =>
      match counterRef s.me a c with
      | .s off =>
        match s.watermarkBlock off 8 with
        | some b => some b
        | none =>
          match o with
          | .rel sc =>
            if s.me.holds && !s.me.replica.buffer.isEmpty then some (.releaseFull 2048)
            else
              let ws := s.releases s.me s.cur.tile.toNat sc
              if ws.isEmpty then none else some (.releasePending ws)
          | .relaxed | .acq _ => none
      | .n _ => s.bufferBlock 2
      | .d _ _ => s.bufferBlock 3
    misses := fun s => (counterRef s.me a c).needs s (!s.me.holds)
    missTval := fun s => dTval (s.me.sreg a) (s.me.sreg c)
    check := fun s =>
      let amt := s.me.sreg d
      firstTrap (if amt.msb then some { name := .counterDecrease, tval := amt } else none)
        (firstTrap ((counterRef s.me a c).check s (!s.me.holds) (s.me.sreg a) 0b1110)
          (match counterRef s.me a c with
            | .s off =>
              if (s.corePoison off 8).isSome then poisonCheck s off 8
              else if 2 ^ 64 ≤ (s.counterS off).toNat + amt.toNat then
                some { name := .counterWrap, tval := s.counterS off } else none
            | .n _ | .d _ _ => none))
    effect := fun st s =>
      let cx := st.me
      let amt := cx.sreg d
      let r := counterRef cx a c
      let s1 := match r with
        | .s off => s.counterStore off amt o
        | .n x =>
          let s0 := (s.captureCounter true x).modMe (fun c => setTdm c [stackOf (nTileId x).toNat])
          if cx.holds then (s0.holdCadd r amt o).acquireIf (ordAcq o) s0.nextId
          else
            let target := nTileId x
            let lat := hopLatency s.cur.tile.toNat target.toNat
            let (id, s1) := s0.fresh
            let s2 := s1.fly id .n (nUnits target (ctrOff x) 8 (fun _ _ => .cadd amt)) true (ordClass o) .none []
              (nWord target (ctrOff x)) lat
            (s2.dueAt id (s.gtc.toNat + lat)).acquireIf (ordAcq o) id
        | .d p q =>
          if cx.holds then (s.holdCadd r amt o).acquireIf (ordAcq o) s.nextId
          else
            let (id, s1) := s.fresh
            s1.flyAtomic id (counterTarget p q) (s.foundHere (counterTarget p q)) (.cadd amt) .none 0 o
      match o with
      | .rel sc => s1.cut (.release sc) 0
      | .relaxed | .acq _ => s1 }

def creadMeaning (d a c : SReg) (o : Ord) : Meaning :=
  { block := fun s =>
      match counterRef s.me a c with
      | .s off => s.watermarkBlock off 8
      | .n _ | .d _ _ => none
    misses := fun s => (counterRef s.me a c).needs s s.performsInputs
    missTval := fun s => dTval (s.me.sreg a) (s.me.sreg c)
    check := fun s => (counterRef s.me a c).check s s.performsInputs (s.me.sreg a) 0b1000
    effect := fun st s =>
      match counterRef st.me a c with
      | .s off =>
        if s.performsInputs && s.coreWaits false then
          let (id, s1) := s.fresh
          ((s1.landLate (.s d 0) 8 id).flyCore id (s1.coreUnits [(off, 8)] (fun _ => .load)) false .relaxed
            (.landing 8 false) (List.replicate 8 0) off).acquireIf (ordAcq o) id
        else
          let s1 := (s.landInput (.s d) 8 3 [] (st.counterS off) (s.corePoison off 8)).noteRead (s.coreHistory off 8)
          if ordAcq o then s1.observe (s.coreHistory off 8) else s1
      | .n x =>
        let target := nTileId x
        let (id, s1) := (s.captureCounter false x).fresh
        let s2 := s1.landLate (.s d 0) 8 id
        if s.performsInputs then
          let s3 := (s2.modMe (fun c => setTdm c [stackOf target.toNat])).fly id .n
            (nUnits target (ctrOff x) 8 (fun _ _ => .load)) false .relaxed (.landing 8 false) (List.replicate 8 0)
            (nWord target (ctrOff x)) (2 * hopLatency s.cur.tile.toNat target.toNat + 4)
          if ordAcq o then s3.acquire id else s3
        else s2
      | .d p q =>
        let (id, s1) := s.fresh
        let s2 := s1.landLate (.s d 0) 8 id
        if s.performsInputs then
          let g := counterTarget p q
          let fo := s.foundHere g
          let s3 := (s2.countRequests s.cur.tile.toNat s.cur.slot st.me.uid fo).fly id .d
            (unitsOf (fun _ => .load) fo) false .relaxed (.landing 8 false) (List.replicate 8 0) g.tval
            (accessLatency s.cur.tile.toNat fo)
          if ordAcq o then s3.acquire id else s3
        else s2 }

/-! ### CWAIT (R337) -/

def waitThr (cx : Context) : WaitThr → Word
  | .reg r => cx.sreg5 r
  | .imm n => n.setWidth 64

/-- The place of an N or D counter as it can be watched; none while it is not translated or is no counter. -/
def watchPlace (s : State) (r : CounterRef) : Option AccessUnit :=
  match r with
  | .s _ => none
  | .n x => (nUnits (nTileId x) (ctrOff x) 8 (fun _ _ => .load)).head?
  | .d a c =>
    if (CounterRef.check (.d a c) s true a 0b1000).isSome ∨ (CounterRef.needs (.d a c) s true).isEmpty = false then none
    else (unitsOf (fun _ => .load) (s.foundHere (counterTarget a c))).head?

/-- A home in this package whose counter a presentation can read. -/
def Home.readable : Home → Bool
  | .hbm _ | .lpddr _ | .scratch _ _ => true
  | .host _ | .node _ _ _ | .nowhere => false

/-- The counter as a watch knows it. -/
def AccessUnit.watched (u : AccessUnit) (sp : Space) (tval : Word) : Watched :=
  { space := sp, home := u.home, entry := u.entry, tval := tval }

/-- MEM_DATA of a CWAIT that finds its counter at the presentation itself, where the word cannot be read (R307, R310); one
that has waited gets its value from the home. -/
def counterTrap (s : State) (r : CounterRef) : Option Trap :=
  let me : Issuer := .ctx s.cur.tile s.cur.slot s.me.uid
  let at_ (sp : Space) (tval : Word) : Option Trap :=
    (watchPlace s r).bind (fun u =>
      if u.home.readable then placeTrap s me sp tval u.home u.entry 8 else none)
  if s.me.observed.isSome || !s.performsInputs then none
  else match r with
    | .s off => poisonCheck s off 8
    | .n x => at_ .n (nWord (nTileId x) (ctrOff x))
    | .d p q => at_ .d (dTval p q)

/-- The value of a counter at a home in this package. -/
def counterAt (s : State) (u : AccessUnit) : Option Word :=
  if u.home.readable then some (BitVec.ofNat 64 (natOfBytes (placeRead s u.home 8 0))) else none

/-- The value that a presentation finds, where it may: no earlier access of the context to the counter, and no acquire,
is still open. -/
def watchValue (s : State) (u : AccessUnit) : Option Word :=
  if (s.afterOf s.me s.cur.tile.toNat [u] false .relaxed).isEmpty then counterAt s u else none

/-- SPMERR of a replica whose lead, or stream, brings the value of its counter: the capture is local (R146). -/
def State.captureRef (s : State) (r : CounterRef) : State :=
  match r with
  | .n x => s.captureCounter false x
  | .s _ | .d _ _ => s

/-- What a CWAIT does besides its wait: the request of a D counter is counted, the die bits and SPMERR of an N or D counter
are set, and the context knows what the counter's releases had before them (R146, R161, R195, R309). -/
def State.waited (s : State) (r : CounterRef) : State :=
  match r with
  | .s o => s.observe (s.coreHistory o 8)
  | .n x =>
    ((s.captureCounter false x).modMe (fun c => setTdm c [stackOf (nTileId x).toNat])).observe
      (s.historyAt ((Home.scratch (nTileId x) (ctrOff x).toNat).bytes 8))
  | .d a c =>
    let fo := s.foundHere (counterTarget a c)
    (s.countRequests s.cur.tile.toNat s.cur.slot s.me.uid fo).observe
      (s.historyAt ((unitsOf (fun _ => .load) fo).flatMap (fun u => u.home.bytes 8)))

/-- CWAIT. Its scope says with which releases it synchronises (R195); every release in the package waits for what precedes
it whatever the scope, so the wait is the same at each (log entry 11). -/
def cwaitMeaning (thr : WaitThr) (a c : SReg) (_sc : Scope) : Meaning :=
  { block := fun s =>
      match s.inMode with
      | .replay => none
      | .follow => s.reportBlock
      | .own =>
        if s.me.observed.isSome || waitThr s.me thr == 0 then none
        else
          let t := waitThr s.me thr
          match counterRef s.me a c with
          | .s off =>
            match s.watermarkBlock off 8 with
            | some b => some b
            | none => if (CounterRef.check (.s off) s true off 0).isNone && (s.coreWaits false || (s.counterS off).ult t) then
                some (.counterBelow off t) else none
          | .n x =>
            if (CounterRef.check (.n x) s true x 0).isSome then none
            else (watchPlace s (.n x)).bind (fun u => match watchValue s u with
              | some v => if v.ult t then some (.watch (u.watched .n x) t) else none
              | none => some (.watch (u.watched .n x) t))
          | .d p q =>
            (watchPlace s (.d p q)).bind (fun u => match watchValue s u with
              | some v => if v.ult t then some (.watch (u.watched .d (dTval p q)) t) else none
              | none => some (.watch (u.watched .d (dTval p q)) t))
    misses := fun s => (counterRef s.me a c).needs s s.performsInputs
    missTval := fun s => dTval (s.me.sreg a) (s.me.sreg c)
    check := fun s => firstTrap ((counterRef s.me a c).check s s.performsInputs (s.me.sreg a) 0b1000)
      (counterTrap s (counterRef s.me a c))
    effect := fun st s =>
      let cx := st.me
      let t := s.cur.tile.toNat
      let k := s.cur.slot
      match s.inMode with
      | .follow => (s.modMe (fun c => { c with observed := none })).captureRef (counterRef cx a c)
      | .replay =>
        let s := s.captureRef (counterRef cx a c)
        match s.nextEntry s.me with
        | some (_, cls, b, ws) =>
          if cls = 4 ∧ b = cx.bcnt.toNat % 2 ^ 40 then s.modMe (fun c => c.skipEntry ws.length)
          else s.replayMismatch t k cx.uid
        | none => s.replayMismatch t k cx.uid
      | .own =>
        let read : Option Word := match counterRef cx a c with
          | .s off => some (st.counterS off)
          | .n x => (watchPlace st (.n x)).bind (counterAt st)
          | .d p q => (watchPlace st (.d p q)).bind (counterAt st)
        let (v, s1) := match cx.observed, read with
          | some v, _ => (v, s)
          | none, some v => (v, s)
          | none, none => s.freeWord
        let s2 := (s1.modMe (fun c => { c with observed := none, cleared := none })).waited (counterRef cx a c)
        (s2.shareIssued cx 0 (.report v)).logEntry t k cx.uid 4 cx.bcnt [v] }

/-! ### Instructions -/

def execPutn (x : TypeCode) (post : Bool) (d a : SReg) (off : BitVec 6) (s : State) : Host.Outcome State Fault Refusal :=
  runSyllable (.putn x post d a off) (putnMeaning x post d a off) s
def execVputn (post : Bool) (src : VSrc) (a : SReg) (off : BitVec 6) (s : State) : Host.Outcome State Fault Refusal :=
  runSyllable (.vputn post src a off) (vputnMeaning post src a off) s
def execGetn (x : TypeCode) (q : HReg) (a : SReg) (off : BitVec 7) (s : State) : Host.Outcome State Fault Refusal :=
  runSyllable (.getn x q a off) (getnMeaning x q a off) s
def execLdd (q : HReg) (a c : SReg) (s : State) : Host.Outcome State Fault Refusal :=
  runSyllable (.ldd q a c) (lddMeaning q a c) s
def execStd (d a c : SReg) (s : State) : Host.Outcome State Fault Refusal :=
  runSyllable (.std d a c) (stdMeaning d a c) s
def execVldd (q : HReg) (a c : SReg) (s : State) : Host.Outcome State Fault Refusal :=
  runSyllable (.vldd q a c) (vlddMeaning q a c) s
def execVstd (src : VSrc) (a c : SReg) (s : State) : Host.Outcome State Fault Refusal :=
  runSyllable (.vstd src a c) (vstdMeaning src a c) s
def execAadd (d a c : SReg) (o : Ord) (s : State) : Host.Outcome State Fault Refusal :=
  runSyllable (.aadd d a c o) (aaddMeaning d a c o) s
def execAcas (d a c : SReg) (o : Ord) (s : State) : Host.Outcome State Fault Refusal :=
  runSyllable (.acas d a c o) (acasMeaning d a c o) s
def execAmaxi (d a c : SReg) (o : Ord) (s : State) : Host.Outcome State Fault Refusal :=
  runSyllable (.amaxi d a c o) (amaxiMeaning d a c o) s
def execAmini (d a c : SReg) (o : Ord) (s : State) : Host.Outcome State Fault Refusal :=
  runSyllable (.amini d a c o) (aminiMeaning d a c o) s
def execAxch (d a c : SReg) (o : Ord) (s : State) : Host.Outcome State Fault Refusal :=
  runSyllable (.axch d a c o) (axchMeaning d a c o) s
def execAxor (d a c : SReg) (o : Ord) (s : State) : Host.Outcome State Fault Refusal :=
  runSyllable (.axor d a c o) (axorMeaning d a c o) s
def execQred (d : QReg) (a c : SReg) (o : Ord) (s : State) : Host.Outcome State Fault Refusal :=
  runSyllable (.qred d a c o) (qredMeaning d a c o) s
def execCadd (d a c : SReg) (o : Ord) (s : State) : Host.Outcome State Fault Refusal :=
  runSyllable (.cadd d a c o) (caddMeaning d a c o) s
def execCwait (thr : WaitThr) (a c : SReg) (sc : Scope) (s : State) : Host.Outcome State Fault Refusal :=
  runSyllable (.cwait thr a c sc) (cwaitMeaning thr a c sc) s
def execCread (d a c : SReg) (o : Ord) (s : State) : Host.Outcome State Fault Refusal :=
  runSyllable (.cread d a c o) (creadMeaning d a c o) s
def execLdc (x : TypeCode) (q : HReg) (a : SReg) (off : BitVec 7) (s : State) : Host.Outcome State Fault Refusal :=
  runSyllable (.ldc x q a off) (ldcMeaning x q a off) s
def execStc (x : TypeCode) (d a : SReg) (off : BitVec 7) (s : State) : Host.Outcome State Fault Refusal :=
  runSyllable (.stc x d a off) (stcMeaning x d a off) s
def execVldc (q : HReg) (a : SReg) (off : BitVec 10) (s : State) : Host.Outcome State Fault Refusal :=
  runSyllable (.vldc q a off) (vldcMeaning q a off) s
def execVstc (src : VSrc) (a : SReg) (off : BitVec 10) (s : State) : Host.Outcome State Fault Refusal :=
  runSyllable (.vstc src a off) (vstcMeaning src a off) s
def execLdh (x : TypeCode) (q : HReg) (a : SReg) (off : BitVec 7) (s : State) : Host.Outcome State Fault Refusal :=
  runSyllable (.ldh x q a off) (ldhMeaning x q a off) s
def execSth (x : TypeCode) (d a : SReg) (off : BitVec 7) (s : State) : Host.Outcome State Fault Refusal :=
  runSyllable (.sth x d a off) (sthMeaning x d a off) s
def execVldh (q : HReg) (a : SReg) (off : BitVec 10) (s : State) : Host.Outcome State Fault Refusal :=
  runSyllable (.vldh q a off) (vldhMeaning q a off) s
def execVsth (src : VSrc) (a : SReg) (off : BitVec 10) (s : State) : Host.Outcome State Fault Refusal :=
  runSyllable (.vsth src a off) (vsthMeaning src a off) s

end Sys2Proof.Machine
end

