-- ==== Sys2Proof/Machine/System.lean ====
section
/-! DEFINITION. The system family of SA and SB: special registers (R73, R100, R117, R125, R357, R358), TRAP, ERET and
EXIT (R339, R340, R393). -/

namespace Sys2Proof.Machine

/-! ### Values of the special registers -/

def boolBit (b : Bool) (i : Nat) : Word := if b then (1 : Word) <<< i else 0

/-- CTX (Table 2-2). -/
def ctxWord (c : Context) (k : SlotNo) : Word :=
  c.nlev.setWidth 64 <<< 12 ||| boolBit c.det 11 ||| c.prio.setWidth 64 <<< 8 ||| boolBit c.sup 3 ||| k.setWidth 64

/-- TILE (Table 7-6). -/
def tileWord (node : BitVec 21) (t : TileId) : Word :=
  node.setWidth 64 <<< 32 ||| BitVec.ofNat 64 (stackOf t.toNat) <<< 10 ||| t.setWidth 64

/-- SFC (Table 4-7): 0 in a free-running record. -/
def sfcWord (s : State) (c : Context) : Word :=
  if c.det then c.sstep.setWidth 64 <<< 48 ||| BitVec.ofNat 64 (frameOf s c) else 0

/-- RGRP (Table 14-1). -/
def rgrpWord (s : State) (c : Context) : Word :=
  boolBit c.log.replay 7 ||| boolBit c.logging 6 |||
    (match s.groupOf c with
      | some g =>
        g.live.setWidth 64 <<< 12 ||| g.lead.setWidth 64 <<< 10 ||| c.replica.stack.setWidth 64 <<< 8
          ||| g.red.setWidth 64 <<< 2 ||| g.red0.setWidth 64
      | none => 0)

/-- The value that MFSR reads for its issuing bundle (R357). -/
def specRead (s : State) (r : SpecReg) : Word :=
  let c := s.me
  match r with
  | .gtc => s.gtc
  | .sfc => sfcWord s c
  | .bcnt => c.bcnt
  | .ctx => ctxWord c s.cur.slot
  | .tile => tileWord s.node s.cur.tile
  | .asid => c.asid.setWidth 64
  | .tdm => c.special.tdm
  | .rgrp => rgrpWord s c
  | .lreq => s.here.lreq
  | .xreq => s.here.xreq
  | .lstall => c.special.lstall
  | .spmerr => c.special.spmerr
  | .fstat => c.special.fstat
  | .qstat => c.qstat
  | .qcfg => c.special.qcfg
  | .keys => c.special.keys
  | .spmode => c.special.spmode
  | .tvec => c.special.tvec
  | .tcause => c.special.tcause
  | .epc => c.special.epc
  | .tval => c.special.tval
  | .emtr0 => s.platform.meters[0]
  | .emtr1 => s.platform.meters[1]
  | .emtr2 => s.platform.meters[2]
  | .emtr3 => s.platform.meters[3]
  | .emtr4 => s.platform.meters[4]
  | .ebud => s.platform.ebud

/-- The registers that Table 14-2 classes as replica-visible inputs. -/
def specInput : SpecReg → Bool
  | .gtc | .sfc | .ctx | .tile | .asid | .tdm | .lreq | .xreq | .lstall => true
  | .emtr0 | .emtr1 | .emtr2 | .emtr3 | .emtr4 | .ebud => true
  | .bcnt | .rgrp | .spmerr | .fstat | .qstat | .qcfg | .keys | .spmode => false
  | .tvec | .tcause | .epc | .tval => false

/-- The poison mark of a special register whose word holds an uncorrectable error (R307). R308 names no space and no address
for one: they are free, and the bits that it makes 0 are 0 (log entry 1). -/
def State.specPoison (s : State) (r : SpecReg) : Option Word × State :=
  if s.bad.contains (.special s.cur.tile.toNat s.cur.slot.toNat r.num.toNat) then
    let (x, s1) := s.freeWord
    (some (x &&& 0xE00FFFFFFFFFFFFF), s1)
  else (none, s)

def mfsrMeaning (d : SReg) (r : SpecReg) : Meaning :=
  { effect := fun st s =>
      let x := specRead { st with cur := s.cur } r
      let (poison, s1) := s.specPoison r
      if specInput r then s1.landInput (.s d) 1 5 [r.num.setWidth 64] x poison
      else s1.landRead (.s d x) 1 poison }

/-! ### Writes (Table 19-2) -/

/-- A register of the context takes a value; it holds from the next bundle. -/
def Context.writeSpec (c : Context) (r : SpecReg) (x : Word) : Context :=
  let sp := c.special
  match r with
  | .lstall => { c with special := { sp with lstall := x } }
  | .spmerr => { c with special := { sp with spmerr := if x.msb then sp.spmerr &&& 0x7FFFFFFFFFFFFFFF else sp.spmerr } }
  | .fstat => { c with special := { sp with fstat := x &&& 0x7F } }
  | .qstat => { c with regs := writeQstat c.regs x, special := { sp with qstatWritten := true } }
  | .qcfg => { c with special := { sp with qcfg := x &&& 1 } }
  | .keys => { c with special := { sp with keys := x &&& 0x3FFFFF } }
  | .spmode => { c with special := { sp with spmode := x &&& 1 } }
  | .tvec => { c with special := { sp with tvec := x &&& ~~~(0x1F : Word) } }
  | .tcause => { c with special := { sp with tcause := x &&& 0x1C0FF } }
  | .epc => { c with special := { sp with epc := x &&& ~~~(0x1F : Word) } }
  | .tval => { c with special := { sp with tval := x } }
  | .gtc | .sfc | .bcnt | .ctx | .tile | .asid | .tdm | .rgrp | .lreq | .xreq => c
  | .emtr0 | .emtr1 | .emtr2 | .emtr3 | .emtr4 | .ebud => c

/-- LREQ and XREQ belong to the tile: they are written in the issue cycle, and every count of that cycle is added to the
written value, whether it was made before or after (R161). -/
def mtsrMeaning (r : SpecReg) (a : SReg) : Meaning :=
  { check := fun s => if r.supervisorOnly && !s.me.sup then some (privTrap (.mtsr r a) s) else none
    effect := fun st s =>
      let x := st.me.sreg a
      match r with
      | .lreq => s.modHere (fun t => { t with lreq := x + (t.countsNow s.gtc.toNat).1 })
      | .xreq => s.modHere (fun t => { t with xreq := x + (t.countsNow s.gtc.toNat).2 })
      | _ => s.defer (.mtsr r x) }

/-! ### TRAP, ERET, EXIT -/

def trapMeaning (imm : BitVec 9) : Meaning :=
  { check := fun _ => some { name := .brk, tval := imm.setWidth 64 }
    effect := fun _ s => s }

def eretMeaning : Meaning :=
  { check := fun s => if s.me.sup then none else some (privTrap .eret s)
    effect := fun _ s => s.defer .eret }

/-- EXIT: the context drains; a replicated one makes a cut (R340). -/
def exitMeaning : Meaning := { effect := fun _ s => s.defer .exit }

/-! ### Instructions -/

def execMfsr (d : SReg) (r : SpecReg) (s : State) : Host.Outcome State Fault Refusal :=
  runSyllable (.mfsr d r) (mfsrMeaning d r) s
def execMtsr (r : SpecReg) (a : SReg) (s : State) : Host.Outcome State Fault Refusal :=
  runSyllable (.mtsr r a) (mtsrMeaning r a) s
def execTrap (imm : BitVec 9) (s : State) : Host.Outcome State Fault Refusal :=
  runSyllable (.trap imm) (trapMeaning imm) s
def execEret (s : State) : Host.Outcome State Fault Refusal :=
  runSyllable .eret eretMeaning s
def execExit (s : State) : Host.Outcome State Fault Refusal :=
  runSyllable .exit exitMeaning s

end Sys2Proof.Machine
end

