-- ==== Sys2Proof/Machine/Extended.lean ====
section
/-! DEFINITION. The extended family of XA but for its engines: queues and windows (R344 to R347, R149, R150), barriers
(R378, R379), SLEEPT, SYS, YIELD, the replica instructions (R282), LAUNCH and CANCEL (R290). -/

namespace Sys2Proof.Machine

/-! ### HCFG, HPUSH, HPOP -/

/-- The address of the word that HCFG loads from memory. -/
def hcfgAddr (c : Context) : HcfgSrc → Option Word
  | .reg _ => none
  | .mem a off => some (effAddr c a off 8)

/-- The word that HCFG loads. -/
def hcfgWord (s : State) (src : HcfgSrc) : Word :=
  match src with
  | .reg a => s.me.sreg a
  | .mem a off => BitVec.ofNat 64 (natOfBytes (s.coreBytes (effAddr s.me a off 8) 8))

/-- The fields of an HQ word that a load checks (R345). -/
def queueWordOk (w : Word) (limit : Nat) : Bool :=
  let esz := natBits w.toNat 61 2
  let lsz := natBits w.toNat 57 4
  let base := natBits w.toNat 32 21
  let cap := 2 ^ (8 + lsz) / (if esz = 0 then 8 else if esz = 1 then 64 else 256)
  let held := (natBits w.toNat 16 16 + 65536 - natBits w.toNat 0 16) % 65536
  w == 0 || (w.msb && esz != 3 && decide (lsz ≤ 8) && natBits w.toNat 53 4 == 0
    && base % 2 ^ (8 + lsz) == 0 && decide (base + 2 ^ (8 + lsz) ≤ limit) && decide (held ≤ cap))

/-- The largest unloaded latency from a tile to a rectangle (R150): at one of its corners. -/
def rectLatency (t x0 y0 x1 y1 : Nat) : Nat :=
  [y0 * 32 + x0, y0 * 32 + x1, y1 * 32 + x0, y1 * 32 + x1].foldl (fun acc c => Nat.max acc (hopLatency t c)) 0

/-- The checks of a window word (R150). -/
def windowWordOk (w : Word) (t : Nat) : Bool :=
  let x1 := winX0 w + winWm1 w
  let y1 := winY0 w + winHm1 w
  w == 0 || (w.msb && decide (x1 ≤ 31) && decide (y1 ≤ 31) && decide (winBase w + winRange w ≤ 0x200000)
    && decide (6 + rectLatency t (winX0 w) (winY0 w) x1 y1 ≤ winLat w))

/-- The queue that a target below 16 names, and the window that one from 16 to 23 names. -/
def hcfgQueue (tgt : BitVec 5) : Option HReg := if tgt.getLsbD 4 then none else some (fld tgt 0 4)
def hcfgWindow (tgt : BitVec 5) : Win := fld tgt 0 3

def hcfgMeaning (tgt : BitVec 5) (src : HcfgSrc) : Meaning :=
  { configures := hcfgQueue tgt
    block := fun s => (hcfgAddr s.me src).bind (fun a => s.watermarkBlock a 8)
    check := fun s =>
      let w := hcfgWord s src
      let addr := match hcfgAddr s.me src with
        | some a => firstTrap (alignTrap a 8) (poisonCheck s a 8)
        | none => none
      firstTrap addr
        (match hcfgQueue tgt with
          | some q =>
            if !queueWordOk w s.here.limit then some { name := .queueConfig, tval := tgt.setWidth 64 }
            else if !(s.me.queue q).resv.isEmpty then
              some { name := .queueConfig, tval := tgt.setWidth 64 + 0x100 }
            else none
          | none =>
            if windowWordOk w s.cur.tile.toNat then none
            else some { name := .queueConfig, tval := tgt.setWidth 64 })
    effect := fun st s =>
      let w := hcfgWord (st.atPos s.cur.pos) src
      let s1 := match hcfgAddr st.me src with
        | some a => s.coreLoadCapture a 8
        | none => s
      match hcfgQueue tgt with
      | some q => s1.defer (.hcfgQueue q w)
      | none => s1.defer (.hcfgWindow (hcfgWindow tgt) w) }

/-- The queue that a word configures: the bytes in the ring are its elements (R345). -/
def queueOfWord (w : Word) (gtc : Nat) : Queue :=
  let prod : BitVec 16 := fld w 16 16
  let cons : BitVec 16 := fld w 0 16
  { word := w &&& ~~~(0xFFFFFFFF : Word), prod := prod, cons := cons
    held := List.replicate (prod - cons).toNat { complete := gtc, poison := none }, resv := [], latch := 0, latched := false }

/-- The bytes that HPUSH writes. -/
def pushBytes (c : Context) (q : HReg) (src : SvReg) : List Byte :=
  match src with
  | .s r => padBytes (c.queue q).elemBytes (bytesOfNat 8 (c.sreg r).toNat)
  | .v r => (vecBytes (c.vreg r)).take (c.queue q).elemBytes

def hpushMeaning (q : HReg) (src : SvReg) : Meaning :=
  { block := fun s => if (s.me.queue q).configured then queueBlock s.me q else none
    check := fun s => queueCheck s.me q false
    effect := fun st s =>
      let bs := pushBytes st.me q src
      let qu := s.me.queue q
      let j := qu.prod.toNat + qu.resv.length
      let e : QElem := { complete := s.gtc.toNat, poison := none }
      let s1 := s.modHere (fun x =>
        (writeElem x st.me.mapping qu j bs).wake (s.muted s.cur.tile.toNat) 3 st.me.uid
          (BitVec.ofNat 64 (qu.place j)) bs.length s.gtc.toNat)
      s1.modMe (fun c =>
        let qu := c.queue q
        (c.setQueue q (if qu.resv.isEmpty then { qu with held := qu.held ++ [e], prod := qu.prod + 1 }
          else { qu with resv := qu.resv ++ [{ id := 0, done := some e, logAt := none }] })).latchHead s1.here q) }

def hpopMeaning (q : HReg) (dst : SvReg) : Meaning :=
  { heads := [q]
    check := fun s => queueCheck s.me q false
    effect := fun st s =>
      let bs := st.headBytes q
      (match dst with
        | .s r => s.land (.s r (BitVec.ofNat 64 (natOfBytes (bs.take 8)))) 1
        | .v r => s.land (.v r (bytesVec (padBytes 256 bs))) 1).defer (.pop q) }

/-! ### Barriers (R378) -/

/-- The contexts of a record that stand in slots, with their tiles. -/
def State.bound (s : State) (rid : Nat) : List (Nat × SlotNo × Bank × Context) :=
  s.tiles.flatMap (fun x => allSlots.flatMap (fun k => [Bank.primary, Bank.second].filterMap (fun b =>
    let c := x.2.ctx k b
    if c.status.bound && c.rid == rid then some (x.1, k, b, c) else none)))

/-- The largest latency from the north-west tile of some tiles to any of them. -/
def spreadLatency (ts : List Nat) : Nat :=
  match ts with
  | [] => 0
  | t :: rest =>
    let x := rest.foldl (fun acc u => Nat.min acc (tileX u)) (tileX t)
    let y := rest.foldl (fun acc u => Nat.min acc (tileY u)) (tileY t)
    (t :: rest).foldl (fun acc u => Nat.max acc (hopLatency (y * 32 + x) u)) 0

def Context.barrierCount (c : Context) (level : BitVec 3) : Nat := c.barriers[level.toNat]'level.isLt

/-- The instance whose contexts a barrier joins: that of its level, or the whole record in a DET record (R39), by its
lowest flat index and its size. -/
def barrierInst (ws : List Word) (flat level : Nat) : Nat := if recDet ws then 0 else instanceBase ws flat level

def barrierSize (ws : List Word) (level : Nat) : Nat := if recDet ws then recTotal ws else instanceSize ws level

/-- The barrier that the next SBAR of a context joins. -/
def State.barrierOf (s : State) (c : Context) (level : BitVec 3) : Option Barrier :=
  match s.record c.rid with
  | some r =>
    s.barriers.find? (fun b => b.rid == c.rid && b.level == level
      && b.inst == barrierInst r.words c.flat level.toNat && b.n == c.barrierCount level)
  | none => none

/-- Every context of the instance has arrived or exited. -/
def barrierFull (r : Record) (b : Barrier) : Bool :=
  (List.range (barrierSize r.words b.level.toNat)).all (fun i =>
    b.arrived.contains (b.inst + i) || r.exited.contains (b.inst + i))

/-- A barrier whose instance spans packages: its release comes from outside. -/
def spansPackages (r : Record) (level : Nat) : Bool :=
  if recDet r.words then decide (1 < recPackages r.words) else decide (5 ≤ levelDomain r.words level)

/-- The release time of a barrier that the last arrival completes. -/
def State.settleBarrier (s : State) (r : Record) (b : Barrier) : Barrier :=
  if b.due.isNone && barrierFull r b && !spansPackages r b.level.toNat then
    let ts := ((placedContexts r r.placement).filter (fun x =>
      decide (b.inst ≤ x.2.2 ∧ x.2.2 < b.inst + barrierSize r.words b.level.toNat))).map (fun x => x.1)
    { b with due := some (s.gtc.toNat + 40 + spreadLatency ts) }
  else b

/-- What an arrival at a barrier of a level releases: it is a release at the scope of that level, so a multicast store of
which some tile lies outside it is not waited for (R200, R378). The end of a superstep covers every M landing (R379). -/
def State.arrivalReleases (s : State) (r : Record) (c : Context) (level : BitVec 3) : List Nat :=
  match Scope.ofCode (BitVec.ofNat 3 (levelScope r.words level.toNat)), recDet r.words with
  | some sc, false =>
    let t := match (placedContexts r r.placement).find? (fun x => x.2.2 == c.flat) with
      | some x => x.1
      | none => 0
    s.releases c t sc
  | _, _ => s.history c

/-- One arrival of a context at the barrier of its next SBAR at a level. -/
def State.arriveBarrier (s : State) (c : Context) (level : BitVec 3) : State :=
  match s.record c.rid with
  | none => s
  | some r =>
    let open_ := s.arrivalReleases r c level
    match s.barrierOf c level with
    | some b =>
      let b1 := if b.arrived.contains c.flat then b
        else { b with arrived := c.flat :: b.arrived, after := b.after ++ open_ }
      { s with barriers := replaceFirst (fun x => x.id == b.id) (fun _ => s.settleBarrier r b1) s.barriers }
    | none =>
      let b : Barrier :=
        { id := s.nextId, rid := c.rid, level := level, inst := barrierInst r.words c.flat level.toNat
          n := c.barrierCount level, arrived := [c.flat], after := open_, due := none }
      { s with
        nextId := s.nextId + 1
        barriers := s.barriers ++ [s.settleBarrier r b]
        out := if spansPackages r level.toNat then s.out ++ [.arrive c.rid level] else s.out }

/-- Each barrier of a record looks again at who has arrived: a context has exited. -/
def State.settleBarriers (s : State) (rid : Nat) : State :=
  match s.record rid with
  | some r => { s with barriers := s.barriers.map (fun b => if b.rid = rid then s.settleBarrier r b else b) }
  | none => s

/-- N and M stores of those who arrived still have to land. -/
def State.barrierHeld (s : State) (b : Barrier) : Bool :=
  b.after.any (fun id => s.mcasts.any (fun m => m.id == id)
    || s.flights.any (fun f => f.id == id && f.isOpen && f.space == .n))

/-- The barrier has released its contexts. -/
def State.barrierOpen (s : State) (c : Context) (level : BitVec 3) : Bool :=
  match s.barrierOf c level with
  | some b => match b.due with
    | some d => decide (d ≤ s.gtc.toNat) && !s.barrierHeld b
    | none => false
  | none => false

/-- The cut of a replicated SBAR stands, or its group has arrived. -/
def barrierCut (s : State) (c : Context) (level : BitVec 3) : Bool :=
  c.replica.cuts.any (fun x => x.kind == .barrier && x.tag == c.barrierCount level * 8 + level.toNat)
    || (match s.barrierOf c level with
      | some b => b.arrived.contains c.flat
      | none => false)

/-- The presentation of a blocked SBAR arrives, once; a replicated context makes its cut and arrives when the vote on it
has committed. -/
def sbarArrive (level : BitVec 3) (s : State) : State :=
  let c := s.me
  if c.holds then
    if barrierCut s c level then s
    else s.cutOf s.cur.tile.toNat s.cur.slot c.uid .barrier (c.barrierCount level * 8 + level.toNat) c.bcnt
  else s.arriveBarrier c level

def sbarMeaning (level : BitVec 3) : Meaning :=
  { illegal := fun s =>
      decide (s.me.nlev.toNat ≤ level.toNat) || (s.me.det && level.toNat + 1 != s.me.nlev.toNat)
    block := fun s =>
      if s.me.det then (if s.me.released then none else some .superstep)
      else if s.barrierOpen s.me level then none else some (.barrier level)
    onBlock := sbarArrive level
    effect := fun st s =>
      let after := match s.barrierOf st.me level with
        | some b => b.after
        | none => []
      s.modMe (fun c => { c with
        released := false
        earliest := if c.det then s.gtc.toNat + 3 else c.earliest
        barriers := c.barriers.set level.toNat (c.barrierCount level + 1) level.isLt
        acquiring := c.acquiring ++ after, known := c.known ++ after }) }

/-! ### SLEEPT, SYS, YIELD -/

def sleeptMeaning (a : SReg) : Meaning :=
  { block := fun s => if s.gtc.ult (s.me.sreg a) then some (.sleep (s.me.sreg a)) else none
    effect := fun _ s => s }

def sysMeaning (imm : BitVec 16) : Meaning :=
  { check := fun _ => some { name := .sys, tval := imm.setWidth 64 }
    effect := fun _ s => s }

def yieldMeaning : Meaning := { effect := fun _ s => s.defer .yield }

/-! ### Replica instructions (R282, R376) -/

/-- The signature or the count at the end of the previous bundle; 0 outside a replicated or logging record. -/
def rsigValue (c : Context) (sel : RsigSel) : Word :=
  if c.replicated || c.log.active then
    match sel with
    | .lo => fld c.replica.sig 0 64
    | .hi => fld c.replica.sig 64 64
    | .cnt => c.replica.count.setWidth 64
  else 0

def rsigMeaning (sel : RsigSel) (d : SReg) : Meaning :=
  { effect := fun st s => s.land (.s d (rsigValue st.me sel)) 1 }

def rvoteMeaning (d : SReg) : Meaning :=
  { effect := fun st s =>
      if st.me.holds then
        let (id, s1) := s.fresh
        ((s1.landLate (.s d 0) 8 id)).cut .rvote id
      else s.landInput (.s d) 8 3 [] 0 none }

def rinjMeaning (a b : SReg) : Meaning :=
  { check := fun s => if s.me.sup then none else some (privTrap (.rinj a b) s)
    effect := fun st s =>
      let c := st.me
      if c.replicated && c.replica.stack == fld (c.sreg a) 0 2 then
        s.modMe (fun c' => { c' with replica := { c'.replica with inject := some (c.sreg b) } })
      else s }

/-! ### LAUNCH and CANCEL (R290) -/

def State.queueOf (s : State) (q : BitVec 3) : LaunchQueue := s.queues[q.toNat]'q.isLt

def State.setQueueOf (s : State) (q : BitVec 3) (x : LaunchQueue) : State :=
  { s with queues := s.queues.set q.toNat x q.isLt }

/-- Records in a launch queue of 256. -/
def LaunchQueue.used (q : LaunchQueue) : Nat := (q.prod - q.cons).toNat

/-- The launch queue that LAUNCH fills. -/
def launchQueue (q : BitVec 2) : BitVec 3 := 4 + q.setWidth 3

/-- A record enters a launch queue. -/
def LaunchQueue.push (q : LaunchQueue) (ws : List Word) (tag : Nat) : LaunchQueue :=
  { q with slots := assocSet (q.prod.toNat % 256) ws q.slots, prod := q.prod + 1, tags := q.tags ++ [tag] }

def launchMeaning (d a : SReg) (q : BitVec 2) : Meaning :=
  { block := fun s =>
      match s.watermarkBlock (s.me.sreg a) 256 with
      | some b => some b
      | none =>
        if s.performsInputs && decide (256 ≤ (s.queueOf (launchQueue q)).used) then some (.launchFull q) else none
    check := fun s =>
      if s.me.det then some { name := .protection, tval := 0 }
      else firstTrap (alignTrap (s.me.sreg a) 64) (poisonCheck s (s.me.sreg a) 256)
    effect := fun st s =>
      let addr := st.me.sreg a
      let ws := wordsOfBytes 32 ((st.atPos s.cur.pos).coreBytes addr 256)
      let (id, s1) := s.fresh
      let s2 := (s1.landLate (.s d addr) 8 id).coreLoadCapture addr 256
      if s.performsInputs then
        s2.setQueueOf (launchQueue q) ((s2.queueOf (launchQueue q)).push ws id)
      else s2 }

/-- The record that a handle names, among those of an address space. -/
def State.byHandle (s : State) (h : Word) (asid : BitVec 12) : Option Record :=
  if h >>> 53 = 0 ∧ (fld h 32 21 : BitVec 21) = s.node ∧ (fld h 0 32 : BitVec 32) ≠ 0 then
    s.records.find? (fun r => r.seq == fld h 0 32 && recAsid r.words == asid && r.phase != .ended)
  else none

/-- A record that has been dispatched. -/
def Phase.dispatched : Phase → Bool
  | .running | .saved => true
  | .pooled | .requested | .reserving _ | .reserved | .ended => false

/-- The code that CANCEL lands, and the record that it withdraws. -/
def cancelCode (s : State) (h : Word) (asid : BitVec 12) : Word × Option Record :=
  match s.byHandle h asid with
  | some r => if r.phase.dispatched then (1, none) else (0, some r)
  | none => (2, none)

def cancelMeaning (d a : SReg) : Meaning :=
  { check := fun s => if s.me.det then some { name := .protection, tval := 0 } else none
    effect := fun st s =>
      let h := st.me.sreg a
      let c := st.me
      if h >>> 53 = 0 ∧ (fld h 32 21 : BitVec 21) ≠ s.node ∧ s.platform.nodes.contains (fld h 32 21) then
        let (id, s1) := s.fresh
        let s2 := s1.landLate (.s d 0) 8 id
        if s.performsInputs then { s2 with out := s2.out ++ [.cancel (fld h 32 21) h id] } else s2
      else
        let (code, gone) := cancelCode s h c.asid
        let s1 := s.landInput (.s d) 8 3 [] code none
        if s.performsInputs then
          match gone with
          | some r => s1.withdraw r
          | none => s1
        else s1 }

/-! ### Instructions -/

def execSleept (a : SReg) (s : State) : Host.Outcome State Fault Refusal :=
  runSyllable (.sleept a) (sleeptMeaning a) s
def execHcfg (tgt : BitVec 5) (src : HcfgSrc) (s : State) : Host.Outcome State Fault Refusal :=
  runSyllable (.hcfg tgt src) (hcfgMeaning tgt src) s
def execHpush (q : HReg) (src : SvReg) (s : State) : Host.Outcome State Fault Refusal :=
  runSyllable (.hpush q src) (hpushMeaning q src) s
def execHpop (q : HReg) (dst : SvReg) (s : State) : Host.Outcome State Fault Refusal :=
  runSyllable (.hpop q dst) (hpopMeaning q dst) s
def execSbar (level : BitVec 3) (s : State) : Host.Outcome State Fault Refusal :=
  runSyllable (.sbar level) (sbarMeaning level) s
def execRsig (sel : RsigSel) (d : SReg) (s : State) : Host.Outcome State Fault Refusal :=
  runSyllable (.rsig sel d) (rsigMeaning sel d) s
def execRvote (d : SReg) (s : State) : Host.Outcome State Fault Refusal :=
  runSyllable (.rvote d) (rvoteMeaning d) s
def execRinj (a b : SReg) (s : State) : Host.Outcome State Fault Refusal :=
  runSyllable (.rinj a b) (rinjMeaning a b) s
def execLaunch (d a : SReg) (q : BitVec 2) (s : State) : Host.Outcome State Fault Refusal :=
  runSyllable (.launch d a q) (launchMeaning d a q) s
def execCancel (d a : SReg) (s : State) : Host.Outcome State Fault Refusal :=
  runSyllable (.cancel d a) (cancelMeaning d a) s
def execYield (s : State) : Host.Outcome State Fault Refusal :=
  runSyllable .yield yieldMeaning s
def execSys (imm : BitVec 16) (s : State) : Host.Outcome State Fault Refusal :=
  runSyllable (.sys imm) (sysMeaning imm) s

end Sys2Proof.Machine
end

