-- ==== Sys2Proof/Machine/Engines.lean ====
section
/-! DEFINITION. What the engines of a tile share (R201, R202, R216, R304): the accesses that a command follows, the
commands that ORD waits for, an engine's access to the world, its counter post and its traps. -/

namespace Sys2Proof.Machine

/-! ### Commands in general -/

/-- The number and the context of a grammar command. -/
def GeuCmd.cid : GeuCmd → Nat
  | .load _ _ cid _ _ _ _ _ => cid
  | .run _ _ cid _ _ _ _ _ _ _ _ _ _ => cid

def GeuCmd.slot : GeuCmd → SlotNo
  | .load k _ _ _ _ _ _ _ => k
  | .run k _ _ _ _ _ _ _ _ _ _ _ _ => k

def GeuCmd.uid : GeuCmd → Nat
  | .load _ uid _ _ _ _ _ _ => uid
  | .run _ uid _ _ _ _ _ _ _ _ _ _ _ => uid

/-- The commands of a tile that have not posted, each with its context. -/
def Tile.commands (x : Tile) : List (Nat × Nat) :=
  x.buffer.map (fun c => (c.cid, c.uid))
    ++ x.channels.toList.filterMap (fun ch => ch.run.map (fun r => (r.cmd.cid, r.cmd.uid)))
    ++ x.done.map (fun d => (d.cmd.cid, d.cmd.uid))
    ++ (match x.mxu.run with
      | some r => [(r.cid, r.uid)]
      | none => [])
    ++ x.mxu.ops.map (fun o => (o.cid, o.uid))
    ++ x.geu.queue.map (fun g => (g.cid, g.uid))

/-- The earlier commands of a context (R202). -/
def Tile.earlierOf (x : Tile) (uid : Nat) : List Nat :=
  ((x.commands.filter (fun c => c.2 == uid)).map Prod.fst).eraseDups

/-- A command of the tile that has not posted. -/
def Tile.pending (x : Tile) (cid : Nat) : Bool := x.commands.any (fun c => c.1 == cid)

/-- Every command of some has posted: none is left in the tile, and none of their posts is on its way (R202). -/
def State.postedAll (s : State) (x : Tile) (cids : List Nat) : Bool :=
  !cids.any (fun c => x.pending c) && !s.flights.any (fun f => f.cmd != 0 && f.isOpen && cids.contains f.cmd)

/-- A release buffer of the tile still holds the post of a command of some. -/
def Tile.holdsPost (x : Tile) (cids : List Nat) : Bool :=
  allSlots.any (fun k => [Bank.primary, Bank.second].any (fun b =>
    (x.ctx k b).replica.buffer.any (fun h => h.cmd != 0 && cids.contains h.cmd)))

/-- Every command of some has posted, and no post of theirs is held: what ORD asks of a post that is made at once. -/
def State.postsMade (s : State) (x : Tile) (cids : List Nat) : Bool := s.postedAll x cids && !x.holdsPost cids

/-- The accesses that the next command of a context follows (R201): its own open ones, the acquires that it waits for, and
the writes that happen before what it has observed. -/
def State.ownOpen (s : State) (c : Context) : List Nat :=
  s.stillOpen ((s.flights.filter (fun f => f.isOpen && f.issuer.uid == c.uid)).map Flight.id
    ++ (s.mcasts.filter (fun m => m.uid == c.uid)).map Mcast.id ++ c.acquiring ++ c.known)

/-- An access on its way, as against a write that is still held. -/
def State.onWay (s : State) (id : Nat) : Bool :=
  s.flights.any (fun f => f.id == id && f.isOpen) || s.mcasts.any (fun m => m.id == id)

/-! ### Flags of engines (R304) -/

/-- Flags that an engine ORs into FSTAT. -/
def State.engineFlags (s : State) (t : Nat) (k : SlotNo) (uid : Nat) (fl : BitVec 7) : State :=
  s.modUid t k uid (fun c => { c with special := { c.special with fstat := orFstat c.special.fstat fl } })

/-! ### Writes of engines -/

/-- The SPMERR capture of an engine's access for its context (R146). -/
def State.captureEngine (s : State) (t : Nat) (k : SlotNo) (uid : Nat) (wr remote : Bool) (tile : Nat) (a : Option Word) :
    State :=
  if a.isNone then s else s.modUid t k uid (fun c => c.captureSpm wr remote tile a)

/-- An engine's write into its own tile: class 2 (R418). Its readers learn what the command followed (R187). -/
def State.engineStore (s : State) (t : Nat) (m : Mapping) (a : Word) (bs : List Byte) (hist : List Nat := []) : State :=
  let lim := (s.tile t).limit
  (s.modTile t (fun x =>
    { x with scratch := writeBytes x.scratch m x.limit a bs }.wake (s.muted t) 2 0 a bs.length s.gtc.toNat)).mark
      (scratchPlaces (BitVec.ofNat 10 t) m lim a bs.length) hist false

/-- An access of an engine on its way: `lat` is its way to the home. -/
def State.engineFlight (s : State) (t : TileId) (k : SlotNo) (uid : Nat) (asid : BitVec 12) (space : Space)
    (us : List AccessUnit) (after : List Nat) (release : Bool) (tval : Word) (lat : Nat) (cmd : Nat := 0)
    (report : Word := 0) : Nat × State :=
  let id := s.nextId
  (id, { s with nextId := id + 1 }.addFlight
    { id := id, issuer := .engine t k uid, space := space, asid := asid, units := us, after := after.filter s.openOp
      sink := .none, data := [], poison := none, tval := tval
      causal := space == Space.d || space == Space.c || space == Space.n || release, writes := true
      at_ := match s.uidCtx t.toNat k uid with
        | some c => c.bcnt
        | none => 0
      lat := lat, due := s.gtc.toNat + lat, cmd := cmd, report := report })

/-! ### Counter posts (R201, R216, R333) -/

/-- Where an engine posts. -/
inductive PostRef where
  | none
  | s (off : Word)
  | n (addr : Word)
  | flat (addr : Word)
  deriving DecidableEq, Repr

/-- The form that CSP names. -/
def postRef (csp : Nat) (cnt : Word) : PostRef :=
  match csp with
  | 1 => .s cnt
  | 2 => .n cnt
  | 3 => .flat cnt
  | _ => .none

/-- Whether the counter can be used at all (R208, R326): alignment, then its form, then in a DET record its space (R38). -/
def PostRef.check (r : PostRef) (s : State) (t : Nat) : Option Trap :=
  match r with
  | .none => Option.none
  | .s o =>
    firstTrap (alignTrap o 8)
      (if (s.tile t).limit ≤ o.toNat then some { name := .protection, tval := o } else Option.none)
  | .n x => firstTrap (alignTrap x 8) (firstTrap (nForm x) (detTrap s.me x))
  | .flat x =>
    firstTrap (alignTrap x 8)
      (firstTrap (if x >>> 48 ≠ 0 then some { name := .protection, tval := x } else Option.none) (detTrap s.me 0))

/-- The counter of the flat view as an access. -/
def flatPart (x : Word) : Part := { off := 0, len := 8, span := .frame (.flat (x.toNat / 65536)) (x.toNat % 65536) }

/-- What a command brings to its post: its number, those that it follows under ORD, its writes, every access that its issue
followed (R201, R202), and what a report of it names (R308). -/
structure Poster where
  cid     : Nat
  earlier : List Nat
  writes  : List Nat
  after   : List Nat
  report  : Word := 0
  deriving DecidableEq, Repr

/-- An add to a counter in the scratchpad of the tile, by an engine: who observes it learns what the command followed (R187).
A bad word is reported and keeps what it holds. (DEDUCED, unsafe; log entry 35.) -/
def State.postScratch (s : State) (t : Nat) (k : SlotNo) (uid : Nat) (asid : BitVec 12) (m : Mapping) (o amt : Word)
    (p : Poster) : State :=
  let old := natOfBytes ((s.tile t).readBytes m (s.tile t).limit o 8)
  if s.scratchBad t m (s.tile t).limit o 8 then
    s.engineTrap t k uid asid { name := .memData, tval := (1 : Word) <<< 60 ||| p.report } p.cid
  else if old + amt.toNat < 2 ^ 64 then s.engineStore t m o (bytesOfNat 8 (old + amt.toNat)) p.after
  else s.postFault (mkFault s 1 TrapName.counterWrap.code t k asid (BitVec.ofNat 64 old) o)

/-- The records of a release buffer that a post follows: the command's own writes, and the posts of earlier commands. -/
def Poster.heldBefore (p : Poster) (c : Context) : List Nat :=
  (c.replica.buffer.filter (fun h => p.writes.contains h.id || (h.cmd != 0 && p.earlier.contains h.cmd))).map HeldWrite.id

/-- The record of a held post has room in its part of the buffer (R278). -/
def postRoom (s : State) (t : Nat) (k : SlotNo) (uid cid : Nat) (r : PostRef) : Bool :=
  let words := match r with
    | .none | .s _ => 0
    | .n _ => 2
    | .flat _ => 3
  match s.uidCtx t k uid with
  | some c => !c.holdsFor cid || decide (c.replica.used + 8 * words ≤ 16384) || words == 0
  | none => true

/-- A replica's post into S under REL is a release of what its context holds: its cut has still to be made (R203, R278). -/
def State.mustCut (s : State) (t : Nat) (k : SlotNo) (uid cid : Nat) (rel : Bool) : Bool :=
  match s.uidCtx t k uid with
  | some c => rel && c.holdsFor cid && !c.replica.posts.any (fun p => p.1 == cid)
  | none => false

/-- The cut of such a post: the commit performs the records that stand before it. -/
def State.cutPost (s : State) (t : Nat) (k : SlotNo) (uid cid : Nat) : State :=
  match s.uidCtx t k uid with
  | some c =>
    (s.cutOf t k uid .enginePost 0 c.bcnt).modUid t k uid (fun c => { c with replica := { c.replica with
      posts := (cid, c.replica.buffer.map HeldWrite.id) :: c.replica.posts } })
  | none => s

/-- The cut of a post is made, and what stood before it is still to be performed. -/
def State.awaitsCut (s : State) (t : Nat) (k : SlotNo) (uid cid : Nat) : Bool :=
  match s.uidCtx t k uid with
  | some c => c.replica.posts.any (fun p => p.1 == cid && p.2.any s.openOp)
  | none => false

/-- The post of a command: made at once in S, sent to N and D, or held by a replica as KIND 6, with a cut under REL
(R276, R278). A post to D is counted as a request, and a post sets the die bits of its counter (R161, R309). -/
def State.enginePost (s : State) (t : TileId) (k : SlotNo) (uid : Nat) (asid : BitVec 12) (m : Mapping) (r : PostRef)
    (amt : Word) (rel : Bool) (p : Poster) : State :=
  let c := s.uidCtx t.toNat k uid
  let holds := match c with
    | some c => c.holdsFor p.cid
    | Option.none => false
  let at_ : Word := match c with
    | some c => c.bcnt
    | Option.none => 0
  let follows : List Nat := match c with
    | some c => p.heldBefore c
    | Option.none => []
  let after := if rel then p.after else []
  let s1 := match r with
    | .none => s
    | .s o =>
      (s.modUid t.toNat k uid (fun c => { c with replica := { c.replica with
        posts := c.replica.posts.filter (fun x => x.1 != p.cid) } })).postScratch t.toNat k uid asid m o amt p
    | .n x =>
      let s0 := (s.modUid t.toNat k uid (fun c => setTdm c [stackOf (nTileId x).toNat])).captureEngine t.toNat k uid true true
        (nTileId x).toNat (firstOut (s.tile (nTileId x).toNat).limit (ctrOff x) 8)
      if holds then
        s0.holdRecord t.toNat k uid
          (heldHeader 6 8 ((2 : Word) <<< 50 ||| nWord (nTileId x) (ctrOff x)) :: heldData (bytesOfNat 8 amt.toNat)) 0
          at_ .xa (if rel then 7 else 0) 0 Option.none p.cid (follows ++ after)
      else
        (s0.engineFlight t k uid asid .n (nUnits (nTileId x) (ctrOff x) 8 (fun _ _ => .cadd amt)) after rel
          (nWord (nTileId x) (ctrOff x)) (hopLatency t.toNat (nTileId x).toNat) p.cid p.report).2
    | .flat x =>
      if holds then
        s.holdRecord t.toNat k uid
          (heldHeader 6 8 ((3 : Word) <<< 50) :: x :: heldData (bytesOfNat 8 amt.toNat)) 1 at_ .xa (if rel then 7 else 0) 0
          Option.none p.cid (follows ++ after)
      else
        let found := [(flatPart x, tableTrans s asid (flatPart x))]
        ((s.countRequests t.toNat k uid found).engineFlight t k uid asid .d (unitsOf (fun _ => .cadd amt) found) after rel x
          280 p.cid p.report).2
  if rel && holds && (match r with
      | .n _ | .flat _ => true
      | .none | .s _ => false) then s1.cutOf t.toNat k uid .enginePost 0 at_ else s1

/-! ### Faults of engines -/

/-- The fault record that an engine's translation miss sends (R175, R218). -/
def State.channelMiss (s : State) (t : TileId) (ch : Chan) (cid : Nat) (asid : BitVec 12) (needs : List Need)
    (tval : Word) : Nat × State :=
  let fid := s.nextId
  (fid, { s with
    nextId := fid + 1
    mmp := { s.mmp with faults := s.mmp.faults ++
      [{ id := fid, who := .channel t ch cid, asid := asid, needs := needs, stack := BitVec.ofNat 2 (stackOf t.toNat)
         tval := tval, stage := .walking, due := s.gtc.toNat + 420 }] } })

end Sys2Proof.Machine
end

