-- ==== Sys2Proof/Machine/Transfer.lean ====
section
/-! DEFINITION. Block transfers: XCPY, XCPYT, XPROM, XWMK (R206 to R209, R421, R423), the start of a command (R211), its
chunks with their stages, misses and retention (R207, R210, R215, R218, R451, R453), and its completion (R213, R214,
R216, R453). -/

namespace Sys2Proof.Machine

/-! ### Elements and their conversion -/

/-- The value of an element of a format code: codes 3 and 7 are 64-bit integers. -/
def codeVal (code bits : Nat) : Val :=
  if code = 3 ∨ code = 7 then
    let v : Int := if code = 3 then signedOf 64 bits else bits
    if v = 0 then .zero false else .fin { m := v, e := 0 }
  else match Fmt.ofCode (BitVec.ofNat 5 code) with
    | some f => decodeFmt f bits
    | none => .zero false

/-- A format for the source of a conversion: only whether it is an integer format counts. -/
def codeFmt (code : Nat) : Fmt := if code = 3 ∨ code = 7 then .int true .w32 else (Fmt.ofCode (BitVec.ofNat 5 code)).getD .f32

/-- Convert to a 64-bit integer, by the rule of R119 for integer formats. -/
def convert64 (x : Val) (srcInt sg sat : Bool) : Rounded :=
  let bound (neg : Bool) := wrapInt 64 (if neg then intMin sg 64 else intMax sg 64)
  match x with
  | .zero _ => (0, 0)
  | .fin d =>
    let (y, fl) := roundToInt .nearest d
    if intMin sg 64 ≤ y ∧ y ≤ intMax sg 64 then (wrapInt 64 y, fl)
    else if srcInt then
      if sat then (bound (decide (y < 0)), fl ||| flClmp) else (wrapInt 64 y, fl)
    else if sat then (bound (decide (y < 0)), fl ||| flInv ||| flClmp)
    else (2 ^ 63, fl ||| flInv)
  | .inf neg => if sat then (bound neg, flInv ||| flClmp) else (2 ^ 63, flInv)
  | .nan _ | .nar => (if sat then 0 else 2 ^ 63, flInv)

/-- Convert(SFMT → DFMT, SAT, nearest) of one element (Table 10-4). -/
def convertCode (src dst : Nat) (sat : Bool) (bits : Nat) : Rounded :=
  if dst = 3 ∨ dst = 7 then convert64 (codeVal src bits) (codeFmt src).isInt (dst == 3) sat
  else convertVal (codeVal src bits) (codeFmt src) (codeFmt dst) sat .nearest

/-- n elements of z bytes. -/
def elemsOf (z : Nat) (bs : List Byte) : Nat → List Nat
  | 0 => []
  | n + 1 => natOfBytes (bs.take z) :: elemsOf z (bs.drop z) n

/-- CONVERT over the elements of a chunk. -/
def convertBytes (x : XCmd) (bs : List Byte) : List Byte × BitVec 7 :=
  (elemsOf x.zs bs (bs.length / x.zs)).foldl (fun acc e =>
    let (y, fl) := convertCode x.sfmt x.dfmt x.sat e
    (acc.1 ++ bytesOfNat x.zd y, acc.2 ||| fl)) ([], 0)

/-! ### CRC-32C -/

def crcBits : Nat → BitVec 32 → BitVec 32
  | 0, c => c
  | n + 1, c => crcBits n (if c.getLsbD 0 then (c >>> 1) ^^^ 0x82F63B78 else c >>> 1)

def crcBytes (c : BitVec 32) (bs : List Byte) : BitVec 32 := bs.foldl (fun c b => crcBits 8 (c ^^^ b.setWidth 32)) c

/-- The 8 bytes that CHECKSUM appends. -/
def crcTail (c : BitVec 32) : List Byte := bytesOfNat 8 (~~~c).toNat

/-! ### Fields that a channel checks (R208, R209) -/

/-- A record as a command. -/
def cmdOfRecord (bs : List Byte) : Vector Word 8 := Vector.ofFn (fun i : Fin 8 => (wordsOfBytes 8 bs).getD i.val 0)

/-- TVAL of QUEUE_CONFIG for a record. -/
def recordTval (recOff : Word) (ch : Chan) : Word := (recOff &&& 0x1FFFFF) <<< 32 ||| (32 + ch.setWidth 64)

/-- The rules of R208 that need no descriptor. (DEDUCED, safe; log entry 21.) -/
def recordOk (s : State) (x : XCmd) : Bool :=
  let w1 := x.word 1
  let z := x.zs
  (w1 >>> 48 == 0) && !w1.getLsbD 39 && (fld x.stage 0 10 == (0 : BitVec 10)) && (fld (x.word 7) 48 8 == (0 : BitVec 8))
    && decide (x.srcSpace ≤ 4 ∧ x.dstSpace ≤ 4) && (x.srcSpace == 0 || x.dstSpace == 0)
    && ((x.acq || x.rel) == (x.scope != 0)) && !(x.compress && x.expand)
    && ((x.slotUnits != 0) == (x.compress || x.expand))
    && (!x.fill || (x.srcSpace == 0 && !x.usesSfmt))
    && (!x.gather || (!x.tiled && (x.srcSpace == 0 || x.srcSpace == 2))) && (!x.transpose || x.tiled)
    && (!x.tiled || ((x.srcSpace == 2) != (x.dstSpace == 2) && x.tensorSide.1 != 0))
    && (if x.usesSfmt then descFmtOk x.sfmt else x.sfmt == 0) && (if x.convert then descFmtOk x.dfmt else x.dfmt == 0)
    && (if x.tiled then x.len == 0 else x.len != 0 && x.len % z == 0)
    && decide (x.issue ≤ s.gtc.toNat + 2 ^ 32)
    && (x.srcSpace == 2 || x.scrd == 0) && (x.dstSpace == 2 || x.dcrd == 0) && (x.csp != 0 || x.cnt == 0)
    && (x.np || (x.srcSpace != 4 && x.dstSpace != 4))

/-- The rules of R208 and R209 about the tile of an XCPYT. -/
def tileOk (x : XCmd) (d : Desc) : Bool :=
  (!x.usesSfmt || x.sfmt == d.fmt) && (!x.transpose || decide (d.tileBytes ≤ 4096))

/-- The n bytes of a side as a core access would be checked (R138, R154, R157). -/
def sideTrap (s : State) (asid : BitVec 12) (tiled : Bool) (space : Nat) (addr crd : Word) (n : Nat) : Option Trap :=
  match space with
  | 1 => nForm addr
  | 2 =>
    if addr >>> 20 ≠ 0 then some { name := .protection, tval := addr }
    else if addr = 0 && !tiled then
      if 2 ^ 48 < crd.toNat + n then some { name := .protection, tval := dTval addr crd } else none
    else match tableDesc s asid addr.toNat with
      | some w => if (descOf w).valid then none else some { name := .protection, tval := addr }
      | none => some { name := .protection, tval := addr }
  | 3 => Target.formTrap (.cap addr n)
  | _ => none

/-- The bytes of the source that a command names at most: none of FILL, one element of a gather. -/
def XCmd.readLen (s : State) (x : XCmd) : Nat :=
  if x.fill then 0 else if x.gather then x.zs else if x.expand then x.slotUnits * 16 else x.srcLen s

/-- Whether the coordinates of an XCPYT name a tile (R209). -/
def tileAligned (d : Desc) (crd : Word) : Bool :=
  ((swapFirst d.t (coordsOf crd)).zip d.lt).all (fun x => x.1 % 2 ^ x.2 == 0)

/-- The checks of an issuing XCPY or XCPYT, in the order of R208. -/
def transferCheck (s : State) (x : XCmd) (recOff : Word) : Option Trap :=
  let config : Trap := { name := .queueConfig, tval := recordTval recOff x.ch }
  firstTrap (alignTrap recOff 64)
    (if !recordOk s x then some config
     else if s.me.det && (decide (3 ≤ x.srcSpace) || decide (3 ≤ x.dstSpace)) then
       some { name := .protection, tval := recOff }
     else
       firstTrap (sideTrap s x.asid x.tiled x.srcSpace x.src x.scrd (x.readLen s))
         (firstTrap (sideTrap s x.asid x.tiled x.dstSpace x.dst x.dcrd (x.dstLen s))
           (firstTrap
             (match x.tiled, x.desc s with
               | true, some d =>
                 if !tileAligned d x.tensorSide.2 then some { name := .align, tval := x.tensorSide.2 }
                 else if tileOk x d then none else some config
               | _, _ => none)
             ((postRef x.csp x.cnt).check s s.cur.tile.toNat))))

/-! ### Latencies and promises (R212) -/

/-- Whether a D side lies in another package. -/
def XCmd.farTensor (s : State) (x : XCmd) (addr : Word) : Bool :=
  match tableDesc s x.asid addr.toNat with
  | some w => addr != 0 && (descOf w).node != s.node
  | none => false

/-- Table 10-3. -/
def baseLatency (s : State) (t : TileId) (x : XCmd) (space : Nat) (addr : Word) (rd : Bool) : Nat :=
  match space with
  | 0 => 4
  | 1 =>
    let d := hopLatency t.toNat (nTileId addr).toNat
    if rd then 2 * d + 4 else d + 4
  | 2 => if x.farTensor s addr then (if rd then 2880 else 1440) else if rd then 640 else 320
  | 3 => if rd then 1100 else 600
  | _ => 0

/-- The stage latencies of Table 10-4. -/
def stageLatency (s : State) (x : XCmd) : Nat :=
  (if x.gather then 16 else 0) + (if x.expand then 12 else 0) + (if x.transpose then 16 + x.srcLen s / 32 else 0)
    + (if x.convert then 3 else 0) + (if x.compress then 12 else 0) + (if x.checksum then 8 else 0)

def XCmd.latency (s : State) (t : TileId) (x : XCmd) : Nat :=
  baseLatency s t x x.srcSpace x.src true + baseLatency s t x x.dstSpace x.dst false + stageLatency s x

/-- B of R212. -/
def XCmd.traffic (s : State) (x : XCmd) : Nat :=
  Nat.max (if x.fill then 0 else if x.expand then x.slotUnits * 16 else x.srcLen s) (x.dstLen s)

def promiseOf (s : State) (t : TileId) (x : XCmd) (prev : Nat) : Nat :=
  Nat.max (Nat.max x.issue (x.accepted + 1)) prev + x.latency s t + ceilDiv (x.traffic s) 32

/-! ### Channels -/

def Tile.channel (x : Tile) (ch : Chan) : Channel := x.channels[ch.toNat]'ch.isLt

def Tile.setChannel (x : Tile) (ch : Chan) (c : Channel) : Tile := { x with channels := x.channels.set ch.toNat c ch.isLt }

def Tile.setRun (x : Tile) (ch : Chan) (r : XRun) : Tile := x.setChannel ch { x.channel ch with run := some r }

/-- A command enters the time-sorted buffer: by ISSUE, then by acceptance (R211). -/
def insertCmd (x : XCmd) : List XCmd → List XCmd
  | [] => [x]
  | y :: ys => if x.issue < y.issue then x :: y :: ys else y :: insertCmd x ys

/-! ### XCPY, XCPYT, XPROM, XWMK -/

/-- The command of the record at s_A, as the context of the cursor issues it. -/
def cmdAt (s : State) (st : State) (tiled : Bool) (ch : Chan) (a : SReg) : XCmd :=
  let c := st.me
  let off := c.sreg a
  { cid := s.nextId, ch := ch, slot := s.cur.slot, uid := c.uid, asid := c.asid, tiled := tiled
    words := cmdOfRecord (st.coreBytes off 64), recOff := (off &&& 0x1FFFFF).toNat, keys := c.special.keys
    spmode := c.special.spmode, accepted := s.gtc.toNat, promise := 0, missed := false
    earlier := s.here.earlierOf c.uid, after := s.ownOpen c, key := tongsKey c.bcnt .xa }

def transferMeaning (tiled : Bool) (ch : Chan) (a : SReg) : Meaning :=
  { block := fun s =>
      match s.watermarkBlock (s.me.sreg a) 64 with
      | some b => some b
      | none => if 32 ≤ s.here.buffer.length then some .transferFull else none
    check := fun s =>
      let x := cmdAt s s tiled ch a
      firstTrap (alignTrap (s.me.sreg a) 64)
        (firstTrap (poisonCheck s (s.me.sreg a) 64) (transferCheck s x (s.me.sreg a)))
    effect := fun st s =>
      let s1 := s.coreLoadCapture (st.me.sreg a) 64
      let x0 := cmdAt s1 (st.atPos s.cur.pos) tiled ch a
      let chan := s1.here.channel ch
      let p := promiseOf s1 s.cur.tile x0 chan.prev
      let x := { x0 with promise := p }
      ({ s1 with nextId := s1.nextId + 1 }.modHere (fun t =>
        { t with buffer := insertCmd x t.buffer }.setChannel ch { chan with prev := p })).modMe (fun c =>
          { c with promises := c.promises.set ch.toNat (some (x.cid, p)) ch.isLt }) }

def xcpyMeaning (ch : Chan) (a : SReg) : Meaning := transferMeaning false ch a
def xcpytMeaning (ch : Chan) (a : SReg) : Meaning := transferMeaning true ch a

def xpromMeaning (d : SReg) (ch : Chan) : Meaning :=
  { effect := fun st s =>
      let p : Word := match st.me.promises[ch.toNat]'ch.isLt with
        | some (_, p) => BitVec.ofNat 64 p
        | none => 0
      s.landInput (.s d) 1 3 [] p none }

/-- The watermark word of the oldest incomplete command of a context on a channel (R423); an aborted one has no range any
more (R217). -/
def watermarkWord (s : State) (x : Tile) (uid : Nat) (ch : Chan) : Word :=
  let mine := x.done.filterMap (fun d => if d.cmd.uid = uid ∧ d.cmd.ch = ch ∧ d.status = 1
      then some (d.cmd, d.cmd.dstLen s) else none)
    ++ (match (x.channel ch).run with
      | some r => if r.cmd.uid = uid then [(r.cmd, r.done)] else []
      | none => [])
    ++ x.buffer.filterMap (fun c => if c.uid = uid ∧ c.ch = ch then some (c, 0) else none)
  let old := mine.foldl (fun (acc : Option (XCmd × Nat)) y =>
    if y.1.dstSpace ≠ 0 then acc
    else match acc with
      | some z => if y.1.cid < z.1.cid then some y else acc
      | none => some y) none
  match old with
  | some (c, n) => (1 : Word) <<< 63 ||| BitVec.ofNat 64 (watermarkOf s c n % 2 ^ 21)
  | none => 0

def xwmkMeaning (d : SReg) (ch : Chan) : Meaning :=
  { effect := fun st s => s.landInput (.s d) 1 3 [] (watermarkWord st st.here st.me.uid ch) none }

/-! ### The start of a command (R211) -/

/-- The next buffered command of a channel and the cycle START. -/
def nextCommand (x : Tile) (ch : Chan) : Option (XCmd × Nat) :=
  (x.buffer.find? (fun c => c.ch == ch)).map (fun c =>
    (c, Nat.max (Nat.max c.issue (c.accepted + 1)) (x.channel ch).freeAt))

def execTransferStart (t : TileId) (ch : Chan) (s : State) : Host.Outcome State Fault Refusal :=
  let x := s.tile t.toNat
  match (x.channel ch).run, nextCommand x ch with
  | none, some (c, start) =>
    if start ≤ s.gtc.toNat then
      let r : XRun :=
        { cmd := c, start := s.gtc.toNat, done := 0, taken := 0, crc := BitVec.allOnes 32, indices := [], mask := []
          packed := [], values := 0, flags := 0, held := [], writes := [], fault := none, ended := none }
      .next (s.setTile t.toNat
        ({ x with buffer := x.buffer.filter (fun y => y.cid != c.cid) }.setRun ch r))
    else .next s
  | _, _ => .next s

/-! ### Where the bytes of a side lie -/

/-- The digits of an element number over tile extents, the first fastest. -/
def tileDigits : List Nat → Nat → List Nat
  | [], _ => []
  | l :: ls, m => m % 2 ^ l :: tileDigits ls (m / 2 ^ l)

/-- The order in which dimensions vary: dim1 first in layout 1. -/
def layoutOrder {α : Type} (layout : Nat) (xs : List α) : List α := swapFirst (layout != 0) xs

/-- Coordinates within a tile of the element at a place of the off order (R155). -/
def tilePlace (layout : Nat) (lts : List Nat) (m : Nat) : List Nat :=
  layoutOrder layout (tileDigits (layoutOrder layout lts) m)

/-- The place in the off order of coordinates within a tile. -/
def tileIndex (layout : Nat) (lts os : List Nat) : Nat :=
  mixedRadix (layoutOrder layout (List.zipWith (fun o l => (o, 2 ^ l)) os lts))

/-- The coordinates, in the view, of the element of a tile at a place of the off order. -/
def tileCoords (d : Desc) (crd : Word) (m : Nat) : List Nat :=
  swapFirst d.t (List.zipWith (fun b o => b + o) (swapFirst d.t (coordsOf crd)) (tilePlace d.layout d.lt m))

/-- A slice of one element, wherever its tensor lies. -/
def slicePart (s : State) (d : Desc) (id : Nat) (coords : List Nat) (lo len off : Nat) : Part :=
  match d.place coords with
  | none => { off := off, len := len, span := .outside (((bytesOfNat d.elemBytes d.fill).drop lo).take len) }
  | some (tn, o) =>
    if d.node = s.node then { off := off, len := len, span := .frame (.tile id tn) (o + lo) }
    else
      { off := off, len := len, place := tn * 65536 + o + lo
        span := .remote d.node id (BitVec.ofNat 64 (joinNat 16 coords)) }

/-- n bytes from byte `from_` of a run of elements. -/
def runParts (s : State) (d : Desc) (id : Nat) (coordsAt : Nat → List Nat) (from_ n : Nat) : List Part :=
  let e := d.elemBytes
  let first := from_ / e
  mergeParts ((List.range (ceilDiv (from_ + n) e - first)).map (fun j =>
    let i := first + j
    let lo := Nat.max from_ (i * e)
    let hi := Nat.min (from_ + n) ((i + 1) * e)
    slicePart s d id (coordsAt i) (lo - i * e) (hi - lo) (lo - from_)))

/-- n bytes from a byte behind the elements of a tile, which CHECKSUM appends there (R212): they follow in the tile's frame;
what would lie behind the frame is dropped. (DESIGN CHOICE, unsafe; log entry 22.) -/
def behindTile (s : State) (d : Desc) (id : Nat) (crd : Word) (from_ n : Nat) : List Part :=
  match d.place (coordsOf crd) with
  | none => [{ off := 0, len := n, span := .outside (List.replicate n 0) }]
  | some (tn, _) =>
    if d.node ≠ s.node then
      [{ off := 0, len := n, place := tn * 65536 + from_
         span := if from_ + n ≤ 65536 then .remote d.node id crd else .outside (List.replicate n 0) }]
    else (cutUnits (fun a => .frame (.tile id tn) a) from_ 0 (n + 1) n).map (fun p =>
      if from_ + p.off < 65536 then p else { p with span := .outside (List.replicate p.len 0) })

/-- n bytes from byte `from_` of a tile, and of what is appended to it. -/
def tileParts (s : State) (d : Desc) (id : Nat) (crd : Word) (from_ n : Nat) : List Part :=
  let k := Nat.min n (d.tileBytes - from_)
  (if k = 0 then [] else runParts s d id (tileCoords d crd) from_ k)
    ++ (if k = n then [] else (behindTile s d id crd (from_ + k) (n - k)).map (fun p => { p with off := p.off + k }))

/-- n bytes from byte `from_` of a side that is not the scratchpad of the tile (R56, R155, R209). -/
def XCmd.sideParts (s : State) (x : XCmd) (space : Nat) (addr crd : Word) (from_ n : Nat) : List Part :=
  match space with
  | 1 => cutUnits (fun a => .tile (nTileId addr) a) ((addr &&& 0x1FFFFF).toNat + from_) 0 (n + 1) n
  | 2 =>
    if addr = 0 then flatParts (crd.toNat + from_) n
    else match (tableDesc s x.asid addr.toNat).map descOf with
      | some d =>
        if x.tiled then tileParts s d addr.toNat crd from_ n
        else runParts s d addr.toNat (stepC0 (coordsOf crd)) from_ n
      | none => []
  | 3 => cutUnits .page (addr.toNat + from_) 0 (n + 1) n
  | _ => cutUnits (fun a => .host (BitVec.ofNat 64 a)) (addr.toNat + from_) 0 (n + 1) n

/-- TVAL of R170 for a byte of a side: the coordinates of its element, or its address. -/
def XCmd.sideTval (s : State) (x : XCmd) (space : Nat) (addr crd : Word) (from_ : Nat) : Word :=
  match space with
  | 2 =>
    if addr = 0 then dTval 0 (crd + BitVec.ofNat 64 from_)
    else if x.tiled then dTval addr crd
    else match (tableDesc s x.asid addr.toNat).map descOf with
      | some d => dTval addr (crd + BitVec.ofNat 64 (from_ / d.elemBytes))
      | none => dTval addr crd
  | _ => addr + BitVec.ofNat 64 from_

/-- MEM_DATA of a channel's read (R308). -/
def XCmd.dataTrap (x : XCmd) : Trap :=
  { name := .memData
    tval := BitVec.ofNat 64 (x.srcSpace * 2 ^ 61 + 2 ^ 60 + x.recOff % 2 ^ 21 * 2 ^ 32) ||| x.ch.setWidth 64 }

/-- TVAL of PACK_OVERRUN and PROMISE_MISSED (R216). -/
def XCmd.cmdTval (x : XCmd) : Word := BitVec.ofNat 64 (x.recOff % 2 ^ 21 * 2 ^ 32) ||| x.ch.setWidth 64

/-! ### Reading source bytes -/

/-- What a read of the source yields. -/
inductive Fetched where
  | wait
  | miss (ns : List Need)
  | stop (status : BitVec 8) (tr : Trap)
  | absent
  | got (bs : List Byte) (found : List (Part × Trans))

/-- Bytes that come from outside the package. -/
def isExternal : Trans → Bool
  | .home (.host _) _ _ _ | .home (.node _ _ _) _ _ _ => true
  | .home (.hbm _) _ _ _ | .home (.lpddr _) _ _ _ | .home (.scratch _ _) _ _ _ | .home .nowhere _ _ _ => false
  | .miss _ | .none => false

/-- The bytes of translated parts; those from outside are taken in order. -/
def gatherParts (s : State) : List (Part × Trans) → List Byte → List Byte
  | [], _ => []
  | (p, tr) :: rest, ext =>
    match p.span, tr with
    | .outside f, _ => f ++ gatherParts s rest ext
    | _, .home h _ _ _ =>
      if isExternal tr then padBytes p.len (ext.take p.len) ++ gatherParts s rest (ext.drop p.len)
      else placeRead s h p.len 0 ++ gatherParts s rest ext
    | _, _ => List.replicate p.len 0 ++ gatherParts s rest ext

/-- Parts read through the tables, with the engine's permission (R453). -/
def XCmd.fetchParts (s : State) (t : TileId) (x : XCmd) (parts : List Part) (tval : Part → Word) (ext : List Byte) : Fetched :=
  let found := parts.map (fun p => (p, tableTrans s x.asid p))
  match missesOf (found.map Prod.snd) with
  | n :: ns => .miss (n :: ns)
  | [] =>
    match found.find? (fun f => !permitted 0b1001 [f.2]) with
    | some f => .stop 0x84 { name := .protection, tval := tval f.1 ||| (1 : Word) <<< 61 }
    | none =>
      let need := ((found.filter (fun f => isExternal f.2)).map (fun f => f.1.len)).sum
      if ext.length < need then .wait
      else if found.any (fun f => match f.2 with
          | .home h _ _ _ => !homeExists h f.1.len
          | .miss _ | .none => false) then .absent
      else if found.any (fun f => match f.2 with
          | .home h _ e _ => badAt s h f.1.len || s.lostHome (s.mapOf (.engine t x.slot x.uid)) h e
          | .miss _ | .none => false) then .stop 0x83 x.dataTrap
      else .got (gatherParts s found ext) found

/-- A side whose tensor has been freed while its command runs: R175 gives no outcome. As for a core access whose walk finds
V = 0 (R171), it is PROTECTION with the tensor id, and the command ends as on a denied permission (R453).
(DESIGN CHOICE, unsafe; log entry 58.) -/
def XCmd.freedTrap (s : State) (x : XCmd) (space : Nat) (addr : Word) : Option Trap :=
  if space = 2 ∧ addr ≠ 0 then
    match tableDesc s x.asid addr.toNat with
    | some w => if (descOf w).valid then none else some { name := .protection, tval := addr }
    | none => some { name := .protection, tval := addr }
  else none

/-- n bytes from byte `from_` of a source that is not gathered. -/
def XCmd.readSource (s : State) (t : TileId) (x : XCmd) (from_ n : Nat) (ext : List Byte) : Fetched :=
  if x.srcSpace = 0 then
    let tile := s.tile t.toNat
    let a := x.src + BitVec.ofNat 64 from_
    if s.scratchBad t.toNat x.map tile.limit a n then .stop 0x83 x.dataTrap
    else .got (tile.readBytes x.map tile.limit a n) []
  else match x.freedTrap s x.srcSpace x.src with
  | some tr => .stop 0x84 tr
  | none =>
    x.fetchParts s t (x.sideParts s x.srcSpace x.src x.scrd from_ n)
      (fun p => x.sideTval s x.srcSpace x.src x.scrd (from_ + p.off)) ext

/-- The byte of the source at which element i of a gather lies: SRC + i·z in S and in the flat view, c0 + i in a
tensor. -/
def XCmd.gatherOff (s : State) (x : XCmd) (i : Nat) : Nat :=
  if x.srcSpace = 2 ∧ x.src ≠ 0 then
    match (tableDesc s x.asid x.src.toNat).map descOf with
    | some d => i * d.elemBytes
    | none => 0
  else i * x.zs

/-- The elements of a list of indices. -/
def XCmd.readGather (s : State) (t : TileId) (x : XCmd) (idx : List Nat) (ext : List Byte) : Fetched :=
  if x.srcSpace = 0 then
    let tile := s.tile t.toNat
    let at_ (i : Nat) := x.src + BitVec.ofNat 64 (x.gatherOff s i)
    if idx.any (fun i => s.scratchBad t.toNat x.map tile.limit (at_ i) x.zs) then .stop 0x83 x.dataTrap
    else .got (idx.flatMap (fun i => tile.readBytes x.map tile.limit (at_ i) x.zs)) []
  else match x.freedTrap s x.srcSpace x.src with
  | some tr => .stop 0x84 tr
  | none =>
    let parts := (idx.zipIdx).flatMap (fun (i, j) =>
      (x.sideParts s x.srcSpace x.src x.scrd (x.gatherOff s i) x.zs).map (fun p =>
        { p with off := p.off + j * x.zs }))
    x.fetchParts s t parts
      (fun p => x.sideTval s x.srcSpace x.src x.scrd (x.gatherOff s (idx.getD (p.off / x.zs) 0) + p.off % x.zs)) ext

/-- n bytes of the element stream at byte `from_`: a gathered stream takes the next indices. -/
def XCmd.readStream (s : State) (t : TileId) (r : XRun) (from_ n : Nat) (ext : List Byte) : Fetched × XRun :=
  let x := r.cmd
  if x.gather then
    let m := ceilDiv n x.zs
    if r.indices.length < m then (.wait, r)
    else (x.readGather s t (r.indices.take m) ext, { r with indices := r.indices.drop m })
  else (x.readSource s t from_ n ext, r)

/-! ### Stages (R207, R215, R451) -/

/-- What staging the next chunk yields. -/
inductive Staged where
  | wait
  | miss (ns : List Need)
  | stop (status : BitVec 8) (tr : Trap)
  | absent
  | ready (r : XRun) (found : List (Part × Trans))

def roundUp16 (n : Nat) : Nat := ceilDiv n 16 * 16

/-- MB of Table 10-5a. -/
def maskBytes (n : Nat) : Nat := roundUp16 (ceilDiv n 8)

/-- Bits as bytes, eight to a byte. -/
def packBits (bs : List Bool) : List Byte :=
  bytesOfNat (ceilDiv bs.length 8) (bs.foldr (fun b acc => 2 * acc + (if b then 1 else 0)) 0)

/-- The bits of bytes. -/
def unpackBits (n : Nat) (bs : List Byte) : List Bool :=
  let x := natOfBytes bs
  (List.range n).map (fun i => x.testBit i)

/-- The elements at the input of COMPRESS, or of the packed block that EXPAND reads. -/
def XCmd.count (s : State) (x : XCmd) : Nat := x.srcLen s / x.zs

def XCmd.limitBytes (x : XCmd) : Nat := x.slotUnits * 16

/-- PACK_OVERRUN of a command. -/
def XCmd.packTrap (x : XCmd) : Trap := { name := .packOverrun, tval := x.cmdTval }

/-- The next bytes of a sequential destination: the checksum goes with the last. It covers the bytes of OUTSIDE elements too,
which a store to a tile drops: R212 takes every destination byte. (DESIGN CHOICE, unsafe; log entry 22.) -/
def stageBytes (s : State) (r : XRun) (bs : List Byte) (fl : BitVec 7) : XRun :=
  let x := r.cmd
  let body := x.bodyLen s
  let last := decide (body ≤ r.done + bs.length)
  let crc := crcBytes r.crc bs
  { r with
    crc := crc, flags := r.flags ||| fl
    held := (r.done, bs) :: (if last && x.checksum then [(body, crcTail crc)] else [])
    ended := if last then some (1, none) else none }

/-- TRANSPOSE: the tile with dimensions 0 and 1 exchanged. -/
def transposeTile (x : XCmd) (d : Desc) (bs : List Byte) : List Byte :=
  let src := if x.srcSpace = 2 then d.lt else swapFirst true d.lt
  let dst := swapFirst true src
  let es := (elemsOf x.zs bs (bs.length / x.zs))
  (List.range es.length).flatMap (fun j =>
    bytesOfNat x.zs (es.getD (tileIndex d.layout src (swapFirst true (tilePlace d.layout dst j))) 0))

/-- The elements after TRANSPOSE, which takes the whole tile at once. -/
def XCmd.turned (s : State) (x : XCmd) (bs : List Byte) : List Byte :=
  match x.transpose, x.desc s with
  | true, some d => transposeTile x d bs
  | _, _ => bs

/-- The elements of an expanded chunk. -/
def spread (z : Nat) : List Bool → List Byte → List Byte
  | [], _ => []
  | true :: ms, vs => padBytes z (vs.take z) ++ spread z ms (vs.drop z)
  | false :: ms, vs => List.replicate z 0 ++ spread z ms vs

/-- The check of a packed block's header and mask (R215). -/
def blockOk (s : State) (x : XCmd) (head : List Byte) (mask : List Bool) (rest : List Byte) : Bool :=
  let nnz := natOfBytes (head.take 4)
  let n := natOfBytes ((head.drop 4).take 4)
  nnz != 0xFFFFFFFF && n * x.zs == x.srcLen s && natOfBytes ((head.drop 8).take 1) == x.sfmt
    && (mask.filter (fun b => b)).length + ((unpackBits (8 * rest.length) rest).filter (fun b => b)).length == nnz
    && decide (16 + maskBytes n + roundUp16 (nnz * x.zs) ≤ x.limitBytes)

/-- Header and mask of EXPAND, read and checked first. -/
def stageHeader (s : State) (t : TileId) (r : XRun) (ext : List Byte) : Staged :=
  let x := r.cmd
  let n := x.count s
  match XCmd.readStream s t r 0 (Nat.min x.limitBytes (16 + maskBytes n)) ext with
  | (.wait, _) => .wait
  | (.miss ns, _) => .miss ns
  | (.stop st tr, _) => .stop st tr
  | (.absent, _) => .absent
  | (.got bs found, r1) =>
    let mask := unpackBits n ((bs.drop 16).take (ceilDiv n 8))
    if blockOk s x (bs.take 16) mask ((bs.drop 16).drop (ceilDiv n 8)) then
      .ready { r1 with mask := mask, values := 16 + maskBytes n } found
    else .stop 0x81 x.packTrap

/-- Destination elements that the next chunk of at most 4 KiB may have. -/
def chunkElems (s : State) (r : XRun) : Nat :=
  let left := (r.cmd.bodyLen s - r.done) / r.cmd.zd
  if r.cmd.transpose then left else Nat.min left (4096 / r.cmd.zd)

/-- The destination bytes of one sequential chunk: a gather takes as many elements as it has indices. -/
def stageNext (s : State) (t : TileId) (r : XRun) (ext : List Byte) : Staged :=
  let x := r.cmd
  let cnt := if x.gather && !x.expand then Nat.min (chunkElems s r) r.indices.length else chunkElems s r
  let e0 := r.done / x.zd
  if cnt = 0 then .wait
  else if x.fill then
    let pat := bytesOfNat 8 x.src.toNat
    .ready (stageBytes s r ((List.range cnt).map (fun i => pat.getD ((r.done + i) % 8) 0)) 0) []
  else
    let bits := (r.mask.drop e0).take cnt
    let k := (bits.filter (fun b => b)).length
    let (from_, n) := if x.expand then (r.values, k * x.zs) else (e0 * x.zs, cnt * x.zs)
    match XCmd.readStream s t r from_ n ext with
    | (.wait, _) => .wait
    | (.miss ns, _) => .miss ns
    | (.stop st tr, _) => .stop st tr
    | (.absent, _) => .absent
    | (.got bs found, r1) =>
      let turned := x.turned s (if x.expand then spread x.zs bits bs else bs)
      let (out, fl) := if x.convert then convertBytes x turned else (turned, 0)
      .ready (stageBytes s { r1 with values := if x.expand then r1.values + n else r1.values } out fl) found

/-- Bytes at a place of a packed block, cut at its slot. -/
def clipPiece (limit : Nat) (p : Nat × List Byte) : Nat × List Byte := (p.1, p.2.take (limit - p.1))

/-- The whole packed block, for its checksum. -/
def blockBytes (head : List Byte) (limit n : Nat) (mask : List Bool) (vals : List Byte) : List Byte :=
  padBytes limit (head ++ padBytes (maskBytes n) (packBits mask) ++ vals)

/-- Elements that the next segment of COMPRESS may take: under TRANSPOSE the whole tile, else the last segment, or a multiple
of 8, so that mask bytes are whole. -/
def segmentElems (s : State) (r : XRun) (avail : Nat) : Nat :=
  let left := r.cmd.count s - r.taken
  let cnt := if r.cmd.transpose then left else Nat.min left (Nat.min (4096 * 8 / (1 + 8 * r.cmd.zd) / 8 * 8) avail)
  if cnt = left then cnt else cnt / 8 * 8

/-- One step of COMPRESS: a segment, padding, or the header (R215, R451). -/
def stagePack (s : State) (t : TileId) (r : XRun) (ext : List Byte) : Staged :=
  let x := r.cmd
  let n := x.count s
  let zd := x.zd
  let limit := x.limitBytes
  let vbase := 16 + maskBytes n
  if r.taken < n then
    let cnt := segmentElems s r (if x.gather then r.indices.length else n)
    if cnt = 0 then .wait
    else match XCmd.readStream s t r (r.taken * x.zs) (cnt * x.zs) ext with
    | (.wait, _) => .wait
    | (.miss ns, _) => .miss ns
    | (.stop st tr, _) => .stop st tr
    | (.absent, _) => .absent
    | (.got bs found, r1) =>
      let turned := x.turned s bs
      let (out, fl) := if x.convert then convertBytes x turned else (turned, 0)
      let es := elemsOf zd out cnt
      let bits := es.map (fun e => e != 0)
      let vals := (es.filter (fun e => e != 0)).flatMap (bytesOfNat zd)
      let maskAt := 16 + r.taken / 8
      let maskPart := packBits bits
      let maskFull := if r.taken + cnt = n then padBytes (vbase - maskAt) maskPart else maskPart
      .ready { r1 with
        taken := r.taken + cnt, mask := r.mask ++ bits, packed := r.packed ++ vals, flags := r.flags ||| fl
        values := Nat.min limit (vbase + r.packed.length + vals.length)
        held := ([(maskAt, maskFull), (vbase + r.packed.length, vals)].map (clipPiece limit)).filter (fun p =>
          !p.2.isEmpty) } found
  else if r.values < limit then
    let k := Nat.min 4096 (limit - r.values)
    .ready { r with values := r.values + k, held := [(r.values, List.replicate k 0)] } []
  else
    let nnz := (r.mask.filter (fun b => b)).length
    let fits := decide (vbase + roundUp16 (nnz * zd) ≤ limit)
    let head := bytesOfNat 4 (if fits then nnz else 0xFFFFFFFF) ++ bytesOfNat 4 n
      ++ padBytes 8 (bytesOfNat 1 (if x.convert then x.dfmt else x.sfmt))
    let crc := crcBytes (BitVec.allOnes 32) (blockBytes head limit n r.mask r.packed)
    .ready { r with
      held := (0, head) :: (if fits && x.checksum then [(limit, crcTail crc)] else [])
      ended := some (if fits then (1, none) else (0x81, some x.packTrap)) } []

/-- Every element of the tile lies OUTSIDE (R210). -/
def XCmd.allOutside (s : State) (x : XCmd) : Bool :=
  x.tiled && (match x.desc s with
    | some d => ((swapFirst d.t (coordsOf x.tensorSide.2)).zip d.ext).any (fun y => decide (y.2 < y.1))
    | none => false)

/-- FILL, of a tile that lies OUTSIDE, where a packed block would have been read (R210). -/
def stageOutside (s : State) (r : XRun) : Staged :=
  let cnt := chunkElems s r
  let pat := match r.cmd.desc s with
    | some d => bytesOfNat d.elemBytes d.fill
    | none => []
  .ready (stageBytes s r ((List.range (cnt * r.cmd.zd)).map (fun i => pat.getD ((r.done + i) % pat.length) 0)) 0) []

/-- The next chunk. (DESIGN CHOICE, unsafe; log entry 22.) -/
def stageChunk (s : State) (t : TileId) (r : XRun) (ext : List Byte) : Staged :=
  if r.cmd.compress then stagePack s t r ext
  else if r.cmd.expand && r.cmd.allOutside s then stageOutside s r
  else if r.cmd.expand && r.values == 0 then stageHeader s t r ext
  else stageNext s t r ext

/-- The first byte beyond the limit among those that a step of a run has read, and the tile, which is another for N
(R146). -/
def XRun.readOut (s : State) (t : TileId) (r r2 : XRun) : Option Word :=
  let x := r.cmd
  let (from_, n) :=
    if x.fill then (0, 0)
    else if x.compress then (r.taken * x.zs, (r2.taken - r.taken) * x.zs)
    else if x.expand then (r.values, r2.values - r.values)
    else (r.done / x.zd * x.zs, (match r2.held with
      | (_, bs) :: _ => bs.length / x.zd * x.zs
      | [] => 0))
  match x.srcSpace with
  | 0 =>
    let lim := (s.tile t.toNat).limit
    if x.gather then
      (r.indices.take (r.indices.length - r2.indices.length)).findSome? (fun i =>
        firstOut lim (x.src + BitVec.ofNat 64 (x.gatherOff s i)) x.zs)
    else firstOut lim (x.src + BitVec.ofNat 64 from_) n
  | 1 => firstOut (s.tile (nTileId x.src).toNat).limit ((x.src &&& 0x1FFFFF) + BitVec.ofNat 64 from_) n
  | _ => none

/-- Source elements that the next step of a command can take. -/
def neededElems (s : State) (r : XRun) : Nat :=
  let x := r.cmd
  if x.compress then segmentElems s r (x.count s)
  else if x.expand && r.values == 0 then ceilDiv (Nat.min x.limitBytes (16 + maskBytes (x.count s))) x.zs
  else if x.expand then (((r.mask.drop (r.done / x.zd)).take (chunkElems s r)).filter (fun b => b)).length
  else chunkElems s r

/-! ### Indices of GATHER -/

/-- Heads of queue GQ of the issuing context taken as indices, while they are valid. -/
def popIndices (s : State) (t : TileId) (r : XRun) : Nat → Option Trap × XRun × State
  | 0 => (none, r, s)
  | n + 1 =>
    let x := r.cmd
    match s.uidCtx t.toNat x.slot x.uid with
    | none => (none, r, s)
    | some c =>
      let q := c.queue x.gq
      match q.held with
      | [] => (none, r, s)
      | e :: _ =>
        if s.gtc.toNat ≤ e.complete then (none, r, s)
        else if e.poison.isSome then (some { x.dataTrap with tval := x.dataTrap.tval &&& 0x1FFFFFFFFFFFFFFF }, r, s)
        else
          let bs := (bytesOfNat 256 q.latch.toNat).take 8
          popIndices (s.modUid t.toNat x.slot x.uid (fun c =>
              (c.setQueue x.gq (c.queue x.gq).pop).latchHead (s.tile t.toNat) x.gq)) t
            { r with indices := r.indices ++ [natOfBytes bs] } n

/-! ### Writing destination bytes -/

/-- What writing the held pieces yields. -/
inductive Wrote where
  | ok (r : XRun) (s : State)
  | miss (r : XRun) (s : State) (ns : List Need)
  | stop (status : BitVec 8) (tr : Trap) (r : XRun) (s : State)

/-- Bytes of a record of a held transfer write, from a byte of the destination (R276). -/
def XCmd.recordStep (s : State) (x : XCmd) (from_ : Nat) : Nat :=
  if x.dstSpace = 2 ∧ x.dst ≠ 0 then
    match (tableDesc s x.asid x.dst.toNat).map descOf with
    | some d =>
      if x.tiled then
        if d.tileBytes ≤ from_ then 8
        else if d.t == (d.layout != 0) then
          let row := 2 ^ ((layoutOrder d.layout d.lt).headD 0) * d.elemBytes
          Nat.min 256 (row - from_ % row)
        else d.elemBytes
      else 256
    | none => 256
  else 256

/-- The header and address words of a held transfer write. -/
def XCmd.recordWords (s : State) (x : XCmd) (from_ n : Nat) : List Word :=
  match x.dstSpace with
  | 1 => [heldHeader 2 n (nWord (nTileId x.dst) ((x.dst &&& 0x1FFFFF) + BitVec.ofNat 64 from_))]
  | 2 =>
    let coords : Word :=
      if x.dst = 0 then x.dcrd + BitVec.ofNat 64 from_
      else match (tableDesc s x.asid x.dst.toNat).map descOf with
        | some d => BitVec.ofNat 64 (joinNat 16 (if x.tiled then
            tileCoords d x.dcrd (if d.tileBytes ≤ from_ then 0 else from_ / d.elemBytes)
            else stepC0 (coordsOf x.dcrd) (from_ / d.elemBytes)))
        | none => x.dcrd
    [heldHeader 3 n (x.dst &&& 0xFFFFF), coords]
  | 3 => [heldHeader 4 n (x.dst + BitVec.ofNat 64 from_)]
  | _ => [heldHeader 5 n 0, x.dst + BitVec.ofNat 64 from_]

/-- What the commit needs beside a record of a transfer: 1, or, for bytes behind a tile, 2 and eight times their place. -/
def XCmd.recordAux (s : State) (x : XCmd) (from_ : Nat) : Word :=
  match x.dstSpace, x.tiled, x.desc s with
  | 2, true, some d => if d.tileBytes ≤ from_ then BitVec.ofNat 64 (2 + 8 * from_) else 1
  | _, _, _ => 1

/-- Bytes cut into the records that a replica holds, while they fit its part of the buffer; what does not fit. -/
def holdPieces (s : State) (t : TileId) (x : XCmd) (from_ : Nat) (bs : List Byte) : Nat → List Byte × State
  | 0 => (bs, s)
  | fuel + 1 =>
    if bs.isEmpty then ([], s)
    else
      let k := Nat.min bs.length (x.recordStep s from_)
      let ws := x.recordWords s from_ k
      let data := heldData (bs.take k)
      match s.uidCtx t.toNat x.slot x.uid with
      | none => ([], s)
      | some c =>
        if 16384 < c.replica.used + 8 * (ws.length + data.length) then
          (bs, s.cutFull t.toNat x.slot x.uid)
        else
          holdPieces (s.holdRecord t.toNat x.slot x.uid (ws ++ data) (ws.length - 1) c.bcnt .xa (x.recordAux s from_) 0 none 0 x.after) t x
            (from_ + k) (bs.drop k) fuel

/-- The parts of a destination before the first that is not translated. -/
def untilMiss : List (Part × Trans) → List (Part × Trans)
  | [] => []
  | (_, .miss _) :: _ => []
  | f :: rest => f :: untilMiss rest

/-- One piece written at its place. -/
def writePiece (s : State) (t : TileId) (r : XRun) (off : Nat) (bs : List Byte) : Wrote × List Byte :=
  let x := r.cmd
  let holds := match s.uidCtx t.toNat x.slot x.uid with
    | some c => c.holdsFor x.cid
    | none => false
  let a := x.dst + BitVec.ofNat 64 off
  let s := match x.dstSpace with
    | 0 => s.captureEngine t.toNat x.slot x.uid true false 0 (firstOut (s.tile t.toNat).limit a bs.length)
    | 1 => s.captureEngine t.toNat x.slot x.uid true true (nTileId x.dst).toNat
        (firstOut (s.tile (nTileId x.dst).toNat).limit ((x.dst &&& 0x1FFFFF) + BitVec.ofNat 64 off) bs.length)
    | _ => s
  if x.dstSpace = 0 then (.ok r (s.engineStore t.toNat x.map a bs), [])
  else if holds then
    let (rest, s1) := holdPieces s t x off bs (bs.length + 1)
    let s1 := if x.dstSpace = 1 then s1.modUid t.toNat x.slot x.uid (fun c => setTdm c [stackOf (nTileId x.dst).toNat])
      else s1
    (.ok { r with writes := r.writes ++ List.range' s.nextId (s1.nextId - s.nextId) } s1, rest)
  else match x.freedTrap s x.dstSpace x.dst with
  | some tr => (.stop 0x84 tr r s, bs)
  | none =>
    let found := (x.sideParts s x.dstSpace x.dst x.dcrd off bs.length).map (fun p => (p, tableTrans s x.asid p))
    match found.find? (fun f => !permitted 0b0101 [f.2]) with
    | some f =>
      (.stop 0x84 { name := .protection
                    tval := x.sideTval s x.dstSpace x.dst x.dcrd (off + f.1.off) ||| (1 : Word) <<< 61 } r s, bs)
    | none =>
      let pre := untilMiss found
      let n := (pre.map (fun f => f.1.len)).sum
      let us := unitsOf (fun p => .store (p.slice bs)) pre
      let space : Space := match x.dstSpace with
        | 1 => .n
        | 2 => .d
        | 3 => .c
        | _ => .h
      let lat := baseLatency s t x x.dstSpace x.dst false
      let (w, s1) :=
        if us.isEmpty then ([], s)
        else
          let (id, s1) := s.engineFlight t x.slot x.uid x.asid space us [] false
            (x.sideTval s x.dstSpace x.dst x.dcrd off) lat
          ([id], if x.dstSpace = 1 then s1.modUid t.toNat x.slot x.uid (fun c =>
              setTdm c [stackOf (nTileId x.dst).toNat])
            else s1.countNew t.toNat x.slot x.uid (if x.dstSpace = 2 then pre else [])
              ((x.sideParts s x.dstSpace x.dst x.dcrd (off - Nat.min off 64) (Nat.min off 64)).map (fun p =>
                (p, tableTrans s x.asid p))))
      let r1 := { r with writes := r.writes ++ w }
      match missesOf (found.map Prod.snd) with
      | [] => (.ok r1 s1, [])
      | ns => (.miss r1 s1 ns, bs.drop n)

/-- The first n bytes of held pieces, and the rest. -/
def splitHeld : Nat → List (Nat × List Byte) → List (Nat × List Byte) × List (Nat × List Byte)
  | _, [] => ([], [])
  | n, (off, bs) :: rest =>
    if n = 0 then ([], (off, bs) :: rest)
    else if bs.length ≤ n then
      let (now, later) := splitHeld (n - bs.length) rest
      ((off, bs) :: now, later)
    else ([(off, bs.take n)], (off + n, bs.drop n) :: rest)

/-- Pieces written in order; what a full release buffer or a miss leaves stays held. `done` counts what a sequential
destination has got. -/
def writeHeld (s : State) (t : TileId) (r : XRun) (later : List (Nat × List Byte)) : List (Nat × List Byte) → Wrote
  | [] =>
    .ok { r with
      held := later
      done := if r.cmd.compress && r.ended.isSome && later.isEmpty then r.cmd.dstLen s else r.done } s
  | (off, bs) :: rest =>
    let step (r : XRun) (n : Nat) := if r.cmd.compress then r else { r with done := off + n }
    match writePiece s t r off bs with
    | (.ok r1 s1, []) => writeHeld s1 t (step r1 bs.length) later rest
    | (.ok r1 s1, more) =>
      .ok { step r1 (bs.length - more.length) with
        held := (off + (bs.length - more.length), more) :: (rest ++ later) } s1
    | (.miss r1 s1 ns, more) =>
      .miss { step r1 (bs.length - more.length) with
        held := (off + (bs.length - more.length), more) :: (rest ++ later) } s1 ns
    | (.stop st tr r1 s1, _) => .stop st tr { r1 with held := [] } s1

/-! ### A chunk -/

/-- The channel's command has ended: its range and the channel are free (R211, R216). (DEDUCED, safe; log entry 23.) -/
def State.endCommand (s : State) (t : TileId) (ch : Chan) (r : XRun) (status : BitVec 8) (tr : Option Trap) : State :=
  let d : XDone :=
    { cmd := r.cmd, status := status, trap := tr, flags := r.flags, writes := r.writes, fault := none, noPost := false
      endedAt := s.gtc.toNat }
  s.modTile t.toNat (fun x =>
    { x with done := x.done ++ [d] }.setChannel ch
      { run := none, prev := (x.channel ch).prev, freeAt := s.gtc.toNat + 1 })

/-- A run after a step: it goes on, or the command has ended. -/
def State.putRun (s : State) (t : TileId) (ch : Chan) (r : XRun) : State :=
  match r.held, r.ended with
  | [], some (st, tr) => s.endCommand t ch r st tr
  | _, _ => s.modTile t.toNat (fun x => x.setRun ch r)

/-- A transfer whose source is a replica-visible input: one into S, and every gather, from outside the replica
(Table 14-2). -/
def XCmd.input (x : XCmd) : Bool := x.srcSpace != 0 && (x.dstSpace == 0 || x.gather)

/-- What the lead's channel has brought in goes to the other replicas, and bytes into S go to the log (R273, R283). -/
def State.shareChunk (s : State) (t : TileId) (r : XRun) (pieces : List (Nat × List Byte)) (pops : Nat) : State :=
  let x := r.cmd
  match s.uidCtx t.toNat x.slot x.uid with
  | none => s
  | some c =>
    if !x.input || s.nonLead c || (c.replaying && x.dstSpace == 0) then s
    else
      let s1 := if c.inHandler x.cid then s else s.share c c.bcnt x.key (.chunk pieces r.ended r.flags pops)
      if x.dstSpace = 0 then
        pieces.foldl (fun st p =>
          st.logEntry t.toNat x.slot x.uid 2 c.bcnt ((x.dst + BitVec.ofNat 64 p.1) :: heldData p.2)) s1
      else s1

/-- A command ends on an error: the channels of the other replicas end theirs (R273). -/
def State.stopCommand (s : State) (t : TileId) (ch : Chan) (r : XRun) (status : BitVec 8) (tr : Trap) : State :=
  (s.shareChunk t { r with ended := some (status, some tr) } [] 0).endCommand t ch { r with held := [] } status (some tr)

/-- An input that this context does not read itself: the lead's channel supplies it, or, for bytes into S, the stream. -/
def suppliedRun (s : State) (t : TileId) (r : XRun) : Option Bool :=
  match s.uidCtx t.toNat r.cmd.slot r.cmd.uid with
  | some c =>
    if !r.cmd.input then none
    else if c.replaying && r.cmd.dstSpace == 0 then some true
    else if s.nonLead c then some false
    else none
  | none => none

/-- A channel may process a chunk: it has a run, waits on no fault, and what its command follows has been performed. -/
def chunkReady (s : State) (r : XRun) : Bool := r.fault.isNone && !r.cmd.after.any (fun id => s.openOp id)

/-- The side and byte at which a run stands: TVAL of a refusal names the first byte of the source chunk, for a gather its first
index, whichever byte of it missed. (DESIGN CHOICE, unsafe; log entry 22.) -/
def XRun.missTval (s : State) (r : XRun) : Word :=
  let x := r.cmd
  match r.held with
  | (off, _) :: _ => x.sideTval s x.dstSpace x.dst x.dcrd off
  | [] =>
    if x.srcSpace = 0 then x.sideTval s x.dstSpace x.dst x.dcrd r.done
    else x.sideTval s x.srcSpace x.src x.scrd
      (if x.gather then x.gatherOff s (r.indices.headD 0)
       else if x.compress then r.taken * x.zs
       else if x.expand then r.values
       else r.done / x.zd * x.zs)

def State.chunkMiss (s : State) (t : TileId) (ch : Chan) (r : XRun) (ns : List Need) : State :=
  let (fid, s1) := s.channelMiss t ch r.cmd.cid r.cmd.asid ns (r.missTval s)
  s1.modTile t.toNat (fun x => x.setRun ch { r with fault := some (fid, s.gtc.toNat) })

/-- A requester of the third place of R143 is granted. -/
def State.grant (s : State) (t : Nat) (who : BitVec 3) : State := s.modTile t (fun x => { x with granted := who })

/-- At most `len` held bytes go to their places. -/
def State.writeChunk (s : State) (t : TileId) (ch : Chan) (r : XRun) (len : Nat) : State :=
  let (now, later) := splitHeld len r.held
  match writeHeld (if now.isEmpty then s else s.grant t.toNat (ch.setWidth 3)) t r later now with
  | .ok r1 s1 => s1.putRun t ch r1
  | .miss r1 s1 ns => s1.chunkMiss t ch r1 ns
  | .stop st tr r1 s1 => s1.stopCommand t ch r1 st tr

/-- A replayed input, whose bytes the stream brings: its indices are taken, and the command ends. The stream names no flags of
the stages and no status, so none is raised. (DESIGN CHOICE, unsafe; log entry 61.) -/
def State.replayInput (s : State) (t : TileId) (ch : Chan) (r : XRun) : State :=
  let x := r.cmd
  let total := if x.gather then (if x.expand then ceilDiv x.limitBytes x.zs else x.count s) else 0
  let (_, r1, s1) := popIndices s t { r with indices := [] } (total - r.taken)
  let r2 := { r1 with taken := r.taken + r1.indices.length, indices := [] }
  if total ≤ r2.taken then s1.endCommand t ch { r2 with done := x.dstLen s } 1 none
  else s1.modTile t.toNat (fun y => y.setRun ch r2)

/-- A channel takes the next chunk of its source, or writes at most `len` bytes of the chunk that it holds. -/
def execTransferChunk (t : TileId) (ch : Chan) (len : Nat) (ext : List Byte) (s : State) :
    Host.Outcome State Fault Refusal :=
  match ((s.tile t.toNat).channel ch).run with
  | none => .next s
  | some r =>
    if !chunkReady s r then .next s
    else if !r.held.isEmpty then .next (s.writeChunk t ch r len)
    else if r.cmd.srcSpace == 0 && r.cmd.allOutside s then .next (s.endCommand t ch r 1 none)
    else match suppliedRun s t r with
    | some false => .next s
    | some true => .next (s.replayInput t ch r)
    | none =>
      let (tr, r1, s1) :=
        if r.cmd.gather then popIndices s t r (neededElems s r - r.indices.length) else (none, r, s)
      match tr with
      | some tr => .next (s1.stopCommand t ch r1 0x83 tr)
      | none =>
        match stageChunk s1 t r1 ext with
        | .wait => .next (s1.modTile t.toNat (fun x => x.setRun ch r1))
        | .miss ns => .next (s1.chunkMiss t ch r1 ns)
        | .stop st tr => .next (s1.stopCommand t ch r1 st tr)
        | .absent => .fault .absentMemory
        | .ready r2 found =>
          let x := r.cmd
          let s2 := if x.srcSpace = 2 then s1.countRequests t.toNat x.slot x.uid found else s1
          let s3 := if x.srcSpace = 1 then s2.modUid t.toNat x.slot x.uid (fun c =>
            setTdm c [stackOf (nTileId x.src).toNat]) else s2
          let s4 := s3.captureEngine t.toNat x.slot x.uid false (x.srcSpace == 1) (nTileId x.src).toNat
            (r1.readOut s1 t r2)
          .next ((s4.shareChunk t r2 r2.held (r1.indices.length - r2.indices.length)).writeChunk t ch r2 len)

/-- The lead's chunk arrives at another replica: its channel takes as many indices, holds the bytes and writes them (R273,
R274). (DEDUCED, unsafe; log entry 32.) -/
def State.followChunk (s : State) (t : TileId) (uid key : Nat) (pieces : List (Nat × List Byte))
    (ended : Option (BitVec 8 × Option Trap)) (fl : BitVec 7) (pops : Nat) : Option State :=
  ([0, 1, 2, 3] : List Chan).findSome? (fun ch =>
    match ((s.tile t.toNat).channel ch).run with
    | some r =>
      if r.cmd.uid = uid ∧ r.cmd.key = key then
        let (_, r1, s1) := popIndices s t { r with indices := [] } pops
        if r1.indices.length < pops then none
        else some (s1.putRun t ch { r with held := r.held ++ pieces, ended := ended, flags := fl })
      else none
    | none => none)

/-! ### Faults and promises -/

/-- A command and every later one on its channel get a later promise (R214). -/
def Tile.reissue (x : Tile) (ch : Chan) (cid g : Nat) : Tile :=
  let later (c : XCmd) : XCmd := if c.ch = ch ∧ cid ≤ c.cid then { c with promise := c.promise + g } else c
  let chan := x.channel ch
  let x0 : Tile :=
    { x with
      buffer := x.buffer.map later
      done := x.done.map (fun (d : XDone) => { d with cmd := later d.cmd }) }
  let x1 := x0.setChannel ch
      { chan with prev := chan.prev + g, run := chan.run.map (fun (r : XRun) => { r with cmd := later r.cmd }) }
  allSlots.foldl (fun y k => [Bank.primary, Bank.second].foldl (fun z b =>
    let c := z.ctx k b
    match c.promises[ch.toNat]'ch.isLt with
    | some (id, p) =>
      if cid ≤ id ∧ c.status.bound = true then
        z.setCtx k b { c with promises := c.promises.set ch.toNat (some (id, p + g)) ch.isLt }
      else z
    | none => z) y) x1

/-- The answered fault of a channel. -/
def answeredChannel (s : State) (t : TileId) (ch : Chan) : Option (FaultRec × Option AnswerKind) :=
  s.mmp.faults.findSome? (fun f =>
    match f.who, f.stage with
    | .channel t' ch' _, .answered a => if t' = t ∧ ch' = ch then some (f, a) else none
    | _, _ => none)

def State.dropFault (s : State) (fid : Nat) : State :=
  s.modMmp (fun m => { m with faults := m.faults.filter (fun f => f.id != fid) })

/-- TVAL of a refusal: the access that missed, with bit 62. -/
def refusalTrap (tval : Word) : Trap := { name := .translation, tval := tval ||| (1 : Word) <<< 62 }

/-- The answer of a fault that a channel sent (R175, R214, R218): the command resumes with a later promise, or it is
aborted, or its counter is refused (R453); the status and the trap of a refused counter take the place of those of a command
that was aborted before. (DESIGN CHOICE, unsafe; log entry 65.) -/
def execChannelFaultAnswer (t : TileId) (ch : Chan) (s : State) : Host.Outcome State Fault Refusal :=
  match answeredChannel s t ch with
  | none => .next s
  | some (f, a) =>
    let s1 := (if a.isNone then f.needs.foldl (fun st n => st.fillNeed t.toNat f.asid n) s else s).dropFault f.id
    let x := s1.tile t.toNat
    match (x.channel ch).run, x.done.find? (fun d => d.fault.map Prod.fst == some f.id) with
    | _, some d =>
      let g := s.gtc.toNat - (d.fault.map Prod.snd).getD 0
      let s2 := s1.modTile t.toNat (fun y =>
        { y with done := y.done.map (fun (e : XDone) => if e.cmd.cid = d.cmd.cid then
            (if a.isNone then { e with fault := none }
             else { e with fault := none, noPost := true, status := 0x82
                           trap := some (refusalTrap (dTval 0 d.cmd.cnt)) })
            else e) }.reissue ch d.cmd.cid g)
      .next s2
    | some r, none =>
      match r.fault with
      | some (fid, f0) =>
        if fid = f.id then
          let g := s.gtc.toNat - f0
          let s2 := s1.modTile t.toNat (fun y => y.reissue ch r.cmd.cid g)
          match ((s2.tile t.toNat).channel ch).run with
          | some r1 =>
            let r2 := { r1 with fault := none, start := r1.start + g }
            if a.isNone then .next (s2.modTile t.toNat (fun y => y.setRun ch r2))
            else .next (s2.stopCommand t ch r2 0x82 (refusalTrap (r.missTval s)))
          | none => .next s2
        else .next s1
      | none => .next s1
    | none, none => .next s1

/-! ### Promises that are missed -/

/-- The tile on which a command stands. -/
def State.tileOfCmd (s : State) (cid : Nat) : Option Nat :=
  (s.tiles.find? (fun x => x.2.buffer.any (fun c => c.cid == cid) || x.2.done.any (fun d => d.cmd.cid == cid)
    || x.2.channels.toList.any (fun ch => match ch.run with
      | some r => r.cmd.cid == cid
      | none => false))).map Prod.fst

/-- The accepted, running and ended commands of a tile. -/
def Tile.cmds (x : Tile) : List XCmd :=
  x.buffer ++ x.channels.toList.filterMap (fun ch => ch.run.map (fun r => r.cmd)) ++ x.done.map (fun d => d.cmd)

/-- A fault of a channel that is still to be answered reissues the promise of every command from its own on (R214). -/
def Tile.faulting (x : Tile) (c : XCmd) : Bool :=
  (match (x.channel c.ch).run with
    | some r => r.fault.isSome && decide (r.cmd.cid ≤ c.cid)
    | none => false)
    || x.done.any (fun d => d.fault.isSome && d.cmd.ch == c.ch && decide (d.cmd.cid ≤ c.cid))

def promiseOver (s : State) (x : Tile) (c : XCmd) : Bool :=
  !c.np && !c.missed && decide (c.promise < s.gtc.toNat) && !x.faulting c

/-- The mark of a raised PROMISE_MISSED. -/
def Tile.markMissed (x : Tile) (cid : Nat) : Tile :=
  let mark (c : XCmd) : XCmd := if c.cid = cid then { c with missed := true } else c
  { x with
    buffer := x.buffer.map mark
    done := x.done.map (fun (d : XDone) => { d with cmd := mark d.cmd })
    channels := x.channels.map (fun (ch : Channel) => { ch with run := ch.run.map (fun (r : XRun) => { r with cmd := mark r.cmd }) }) }

def execPromiseExpiry (cid : Nat) (s : State) : Host.Outcome State Fault Refusal :=
  match s.tileOfCmd cid with
  | none => .next s
  | some t =>
    match (s.tile t).cmds.find? (fun c => c.cid == cid) with
    | none => .next s
    | some c =>
      if promiseOver s (s.tile t) c then
        .next ((s.modTile t (fun x => x.markMissed cid)).engineTrap t c.slot c.uid c.asid
          { name := .promiseMissed, tval := c.cmdTval } cid)
      else .next s

/-! ### Completion (R216, R428, R453) -/

/-- The bytes that a completion posts. -/
def XCmd.postCount (s : State) (x : XCmd) : Nat := if x.allOutside s then x.srcLen s else x.dstLen s

/-- A command may complete: its writes are performed, or held; under ORD every earlier command has posted (R202). Held writes
are not performed before their commit (R203): a post into S waits for it, and under REL for that of its cut. -/
def completionReady (s : State) (t : Nat) (d : XDone) : Bool :=
  let c := d.cmd
  let x := s.tile t
  d.fault.isNone && !d.writes.any (fun id => s.onWay id) && (!c.ord || s.postedAll x c.earlier)
    && (c.csp != 1 || d.noPost || ((!c.ord || !x.holdsPost c.earlier) &&
      (s.mustCut t c.slot c.uid c.cid c.rel || (!d.writes.any (fun id => s.openOp id) && !s.awaitsCut t c.slot c.uid c.cid))))

def XDone.poster (d : XDone) : Poster :=
  { cid := d.cmd.cid, earlier := if d.cmd.ord then d.cmd.earlier else [], writes := d.writes, after := d.cmd.after
    report := d.cmd.cmdTval }

/-- STATUS, post, flags and trap, in one cycle. -/
def State.complete (s : State) (t : TileId) (d : XDone) : State :=
  let x := d.cmd
  let s1 := s.modTile t.toNat (fun y => { y with done := y.done.filter (fun e => e.cmd.cid != x.cid) })
  let at_ := BitVec.ofNat 64 (x.recOff + 63)
  let s2 := (s1.captureEngine t.toNat x.slot x.uid true false 0 (firstOut (s1.tile t.toNat).limit at_ 1)).engineStore t.toNat
    x.map at_ [d.status]
  let s3 := if d.noPost then s2
    else s2.enginePost t x.slot x.uid x.asid x.map (postRef x.csp x.cnt) (BitVec.ofNat 64 (x.postCount s)) x.rel d.poster
  let s4 := s3.engineFlags t.toNat x.slot x.uid d.flags
  match d.trap with
  | some tr => s4.engineTrap t.toNat x.slot x.uid x.asid tr x.cid
  | none => s4

/-- The translation of a CSP 3 counter: none where no table is asked. -/
def counterNeeds (s : State) (t : TileId) (d : XDone) : Option Trans :=
  let holds := match s.uidCtx t.toNat d.cmd.slot d.cmd.uid with
    | some c => c.holdsFor d.cmd.cid
    | none => false
  if d.cmd.csp = 3 ∧ d.noPost = false ∧ holds = false then some (tableTrans s d.cmd.asid (flatPart d.cmd.cnt)) else none

/-- A completion: the cut of a release in S, the translation of a CSP 3 counter, or STATUS, post and trap. A counter that is
denied replaces the status and the trap of a command aborted before. (DESIGN CHOICE, unsafe; log entry 65.) -/
def execTransferComplete (cid : Nat) (s : State) : Host.Outcome State Fault Refusal :=
  match s.tileOfCmd cid with
  | none => .next s
  | some t =>
    let tid := BitVec.ofNat 10 t
    match (s.tile t).done.find? (fun d => d.cmd.cid == cid) with
    | none => .next s
    | some d =>
      if !completionReady s t d then .next s
      else if d.cmd.csp == 1 && !d.noPost && s.mustCut t d.cmd.slot d.cmd.uid d.cmd.cid d.cmd.rel then
        .next (s.cutPost t d.cmd.slot d.cmd.uid d.cmd.cid)
      else if !d.noPost && !postRoom s t d.cmd.slot d.cmd.uid d.cmd.cid (postRef d.cmd.csp d.cmd.cnt) then
        .next (s.cutFull t d.cmd.slot d.cmd.uid)
      else match counterNeeds s tid d with
      | some (.miss n) =>
        let (fid, s1) := s.channelMiss tid d.cmd.ch cid d.cmd.asid [n] (dTval 0 d.cmd.cnt)
        .next (s1.modTile t (fun x => { x with done := x.done.map (fun (e : XDone) =>
          if e.cmd.cid = cid then { e with fault := some (fid, s.gtc.toNat) } else e) }))
      | some tr =>
        if permitted 0b0101 [tr] then .next (s.complete tid d)
        else .next (s.complete tid { d with
          noPost := true, status := 0x84
          trap := some { name := .protection, tval := dTval 0 d.cmd.cnt ||| (1 : Word) <<< 61 } })
      | none => .next (s.complete tid d)

/-! ### What no instruction awaits in a replayed stream (R284) -/

/-- The status of the command whose recorded trap a stream brings, where the trap names a channel's record (R216, R308). -/
def abortStatus (tr : Trap) : Option (BitVec 8) :=
  match tr.name with
  | .packOverrun => some 0x81
  | .memData => if tr.tval.getLsbD 60 && (fld tr.tval 56 2 : BitVec 2) == 0 then some 0x83 else none
  | _ => none

/-- The command of a recorded trap takes its status in the replay: it ends, or its STATUS byte is written again. (DESIGN
CHOICE, unsafe; log entry 61.) -/
def State.replayAbort (s : State) (t : Nat) (k : SlotNo) (c : Context) (tr : Trap) : State :=
  match abortStatus tr with
  | none => s
  | some st =>
    let off := natBits tr.tval.toNat 32 21
    let ch : Chan := tr.tval.setWidth 2
    let mine (x : XCmd) : Bool := x.uid == c.uid && x.slot == k && x.recOff % 2 ^ 21 == off && x.ch == ch
    match (((s.tile t).channel ch).run).filter (fun r => mine r.cmd), (s.tile t).done.any (fun d => mine d.cmd) with
    | some r, _ => s.endCommand (BitVec.ofNat 10 t) ch { r with held := [] } st none
    | none, true => s.modTile t (fun x => { x with
        done := x.done.map (fun (d : XDone) => if mine d.cmd then { d with status := st } else d) })
    | none, false => s.engineStore t c.mapping (BitVec.ofNat 64 (off + 63)) [st]

/-- Entries that no instruction awaits: bytes for S and asynchronous traps (classes 2, 9 and 10), taken at the bundle
that they name. -/
def State.replayAsync (s : State) (t : Nat) (k : SlotNo) (uid : Nat) : Nat → State
  | 0 => s
  | n + 1 =>
    match s.uidCtx t k uid with
    | none => s
    | some c =>
      match s.nextEntry c with
      | some (_, cls, b, ws) =>
        if b ≤ c.bcnt.toNat % 2 ^ 40 ∧ (cls = 2 ∨ cls = 9 ∨ cls = 10) then
          let s1 := s.modUid t k uid (fun c => c.skipEntry ws.length)
          let s2 :=
            if cls = 9 then
              match TrapName.ofCode ((ws.headD 0).setWidth 8) with
              | some nm =>
                let tr : Trap := { name := nm, tval := (ws.drop 1).headD 0 }
                (s1.replayAbort t k c tr).postEvent t k uid c.asid tr
              | none => s1
            else
              s1.modTile t (fun x => { x with
                scratch := writeBytes x.scratch (if cls = 2 then c.mapping else linear) x.limit (ws.headD 0)
                  (bytesOfWords (ws.drop 1)) })
          State.replayAsync s2 t k uid n
        else s
      | none => s

/-! ### Instructions -/

def execXcpy (ch : Chan) (a : SReg) (s : State) : Host.Outcome State Fault Refusal :=
  runSyllable (.xcpy ch a) (xcpyMeaning ch a) s
def execXcpyt (ch : Chan) (a : SReg) (s : State) : Host.Outcome State Fault Refusal :=
  runSyllable (.xcpyt ch a) (xcpytMeaning ch a) s
def execXprom (d : SReg) (ch : Chan) (s : State) : Host.Outcome State Fault Refusal :=
  runSyllable (.xprom d ch) (xpromMeaning d ch) s
def execXwmk (d : SReg) (ch : Chan) (s : State) : Host.Outcome State Fault Refusal :=
  runSyllable (.xwmk d ch) (xwmkMeaning d ch) s

end Sys2Proof.Machine
end

