-- ==== Sys2Proof/Machine/Matrix.lean ====
section
/-! DEFINITION. The matrix unit: MCLAIM, MFREE, MPAR, MCALL and MPLD (R221 to R230, R356), the operations of a routine
(R231 to R236) and their completion. An operation reads its operands whole when it starts; core–gather conflicts (R144)
arise where a core access issues (DESIGN CHOICE, safe; log entry 12). -/

namespace Sys2Proof.Machine

/-! ### Microwords (R226 to R228) -/

/-- A microword (Table 11-3). -/
structure MicroOp where
  seq    : Nat
  target : Nat
  rep    : Nat
  opa    : Nat
  fmt    : BitVec 5
  sat    : Bool
  ka : KReg
  kb : KReg
  ko : KReg
  ks : KReg
  kg : KReg
  kp : KReg
  kr : KReg
  ainc   : Int
  binc   : Int
  deriving DecidableEq, Repr

def microOf (w : BitVec 128) : MicroOp :=
  { seq := natBits w.toNat 126 2, target := natBits w.toNat 114 12, rep := natBits w.toNat 106 8
    opa := natBits w.toNat 102 4, fmt := fld w 97 5, sat := w.getLsbD 96, ka := fld w 93 3, kb := fld w 90 3
    ko := fld w 87 3, ks := fld w 84 3, kg := fld w 81 3, kp := fld w 78 3, kr := fld w 75 3
    ainc := (fld w 32 32 : BitVec 32).toInt, binc := (fld w 0 32 : BitVec 32).toInt }

/-- The single microword of a fixed routine. -/
def fixedOp (opa : Nat) (fmt : BitVec 5) (sat : Bool) : MicroOp :=
  { seq := 2, target := 0, rep := 0, opa := opa, fmt := fmt, sat := sat, ka := 0, kb := 1, ko := 2, ks := 3, kg := 4
    kp := 5, kr := 6, ainc := 0, binc := 0 }

/-- FMT is legal for the operation (R228). -/
def microFmtOk (opa : Nat) (fmt : BitVec 5) : Bool :=
  match opa with
  | 0 | 4 => fmt == 0
  | 1 => match Fmt.ofCode fmt with
    | some f => f.isProduct
    | none => false
  | 2 => [10, 14, 18, 22, 26, 30].contains fmt.toNat
  | 3 => match Fmt.ofCode fmt with
    | some f => f.isFloat
    | none => false
  | _ => false

/-- The fixed routines of Table 11-2, where the index is legal. -/
def fixedRoutine (n : Nat) : Option MicroOp :=
  let m :=
    if n = 0 then some (fixedOp 4 0 false)
    else if n < 32 then some (fixedOp 1 (BitVec.ofNat 5 n) false)
    else if n < 64 then some (fixedOp 2 (BitVec.ofNat 5 (n - 32)) false)
    else if n < 96 then some (fixedOp 3 (BitVec.ofNat 5 (n - 64)) false)
    else if n < 128 then some (fixedOp 3 (BitVec.ofNat 5 (n - 96)) true)
    else none
  m.filter (fun m => microFmtOk m.opa m.fmt)

/-- The checks of MPLD on one microword. -/
def microOk (w : BitVec 128) : Bool :=
  let m := microOf w
  m.seq != 3 && decide (m.opa ≤ 4) && microFmtOk m.opa m.fmt && (fld w 64 11 == (0 : BitVec 11))

/-- The microword at an address: a fixed one below 1,024, then what MPLD has loaded. A word that nothing has loaded is 0
(DESIGN CHOICE, unsafe; log entry 13). -/
def Mxu.microAt (m : Mxu) (a : Nat) : MicroOp :=
  if a < 1024 then
    if a % 4 = 0 then (fixedRoutine (a / 4)).getD (microOf 0) else microOf 0
  else microOf ((assocGet a m.store).getD 0)

/-- A routine that MCALL may call. -/
def Mxu.callable (m : Mxu) (routine : BitVec 10) : Bool :=
  if routine.toNat < 256 then (fixedRoutine routine.toNat).isSome else m.loaded.contains routine.toNat

/-! ### Parameter words (Table 11-1, R225) -/

/-- The bits that a parameter word may hold, by its use: A, B, output, scale, gather, post, random. -/
def paramBits : Nat → Word
  | 0 | 1 => 0x0000FFFF001FFFFF
  | 2 => 0xC000FFFF001FFFFF
  | 3 => 0x001FFFFF001FFFFF
  | 4 => 0xE01FFFFF0000000F
  | 5 => 0x00000000003FFFFF
  | _ => 0x00000000001FFFFF

def wordOff (w : Word) : Nat := natBits w.toNat 0 21
def wordStride (w : Word) : Nat := natBits w.toNat 32 16
def wordHigh (w : Word) : Nat := natBits w.toNat 32 21
def gatherOn (w : Word) : Bool := w.getLsbD 63
def gatherQueue (w : Word) : HReg := fld w 0 4
def gatherSpn (w : Word) : Nat := natBits w.toNat 61 2

/-- The multiples of a word's offsets and strides; a sparse step uses only OFF of the B word. -/
def paramAligned (use opa : Nat) (w : Word) : Bool :=
  match use with
  | 1 => wordOff w % 16 == 0 && (opa == 2 || wordStride w % 16 == 0)
  | 0 | 2 => wordOff w % 16 == 0 && wordStride w % 16 == 0
  | 3 => wordOff w % 16 == 0 && wordHigh w % 4 == 0
  | 4 => wordHigh w % 16 == 0
  | 5 => wordOff w % 8 == 0
  | _ => wordOff w % 16 == 0

/-- One parameter word in its use: QUEUE_CONFIG before ALIGN. -/
def paramTrap (c : Context) (use opa : Nat) (r : KReg) (w : Word) : Option Trap :=
  let iq := c.queue (gatherQueue w)
  if w &&& ~~~(paramBits use) ≠ 0
      ∨ (use = 4 ∧ (gatherSpn w = 3 ∨ iq.elemBytes ≠ 8 ∨ (gatherOn w = true ∧ iq.configured = false))) then
    some { name := .queueConfig, tval := 48 + r.setWidth 64 }
  else if paramAligned use opa w then none
  else some { name := .align, tval := w }

/-- A format to whose steps scales apply (R234). -/
def scaled (fmt : BitVec 5) : Bool := fmt == 10 || fmt == 14

def kword (k : Vector Word 8) (r : KReg) : Word := k[r.toNat]'r.isLt

/-- The words that an operation uses, in the order of the microword's fields. -/
def microUses (m : MicroOp) (k : Vector Word 8) : List (Nat × KReg) :=
  match m.opa with
  | 1 | 2 => [(0, m.ka), (1, m.kb)] ++ (if scaled m.fmt then [(3, m.ks)] else []) ++ [(4, m.kg)]
  | 3 => [(2, m.ko), (5, m.kp)] ++ (if (kword k m.ko).getLsbD 63 then [(6, m.kr)] else [])
  | _ => []

/-- The first failing word. -/
def microTrap (c : Context) (m : MicroOp) (k : Vector Word 8) : Option Trap :=
  (microUses m k).findSome? (fun u => paramTrap c u.1 m.opa u.2 (kword k u.2))

/-! ### Ownership and calls -/

/-- MXU_OWNER (R222). -/
def ownerTrap (s : State) : Option Trap :=
  match s.here.mxu.owner with
  | some (k, uid) => if uid = s.me.uid then none else some { name := .mxuOwner, tval := k.setWidth 64 }
  | none => some { name := .mxuOwner, tval := 0x100 }

/-- The unit is inside an occupancy, or inside a routine. -/
def Mxu.busy (m : Mxu) (gtc : Nat) : Bool := m.run.isSome || decide (gtc < m.busyUntil)

/-- The accumulators hold results of another address space (R221). -/
def Mxu.mustClear (m : Mxu) (asid : BitVec 12) : Bool :=
  match m.lastAsid with
  | some a => a != asid
  | none => false

def Tile.owns (x : Tile) (uid : Nat) : Bool :=
  match x.mxu.owner with
  | some (_, u) => u == uid
  | none => false

/-- A claim waits for the owner, and for the clear of another ASID's results. -/
def mclaimMeaning : Meaning :=
  { block := fun s =>
      let m := s.here.mxu
      match m.owner with
      | some (_, uid) => if uid = s.me.uid then none else some .mxuOwned
      | none => if m.clearing.isSome || m.mustClear s.me.asid then some .mxuOwned else none
    onBlock := fun s =>
      let c := s.me
      s.modHere (fun x =>
        if x.mxu.owner.isNone && x.mxu.clearing.isNone && x.mxu.mustClear c.asid then
          { x with mxu := { x.mxu with clearing := some (s.cur.slot, c.uid, 0) } }
        else x)
    effect := fun st s =>
      if s.here.owns st.me.uid then s
      else
        (s.modHere (fun x =>
          { x with mxu := { x.mxu with owner := some (s.cur.slot, st.me.uid), lastAsid := some st.me.asid } })).modMe
            (fun c => setTdm c [4 + stackOf s.cur.tile.toNat]) }

def mfreeMeaning : Meaning :=
  { check := ownerTrap
    effect := fun _ s => s.defer .mfree }

def mparValue (c : Context) : MparSrc → Word
  | .reg a => c.sreg a
  | .imm v => litSigned v

def mparMeaning (k : KReg) (src : MparSrc) : Meaning :=
  { check := ownerTrap
    effect := fun st s => s.land (.k k (mparValue st.me src)) 1 }

/-- The first microword of a routine. -/
def firstMicro (m : Mxu) (routine : BitVec 10) : MicroOp := m.microAt (4 * routine.toNat)

/-- Indices that the gather of an operation lacks (R233). -/
def gatherShort (c : Context) (gtc : Nat) (m : MicroOp) (k : Vector Word 8) : Option HReg :=
  let w := kword k m.kg
  let q := c.queue (gatherQueue w)
  if (m.opa == 1 || m.opa == 2) && gatherOn w && q.configured && q.elemBytes == 8
      && decide ((q.held.takeWhile (fun e => decide (e.complete < gtc))).length < 64) then
    some (gatherQueue w)
  else none

/-- Microwords with OPA 0 take a cycle for each repeat; the run stands at a word with an operation, has ended, or has
executed 4,096 words. (DEDUCED, unsafe; log entry 24.) -/
def Mxu.advance (m : Mxu) : Nat → Mxu
  | 0 => m
  | fuel + 1 =>
    match m.run with
    | none => m
    | some r =>
      let w := m.microAt r.pc
      if w.opa ≠ 0 ∨ 4096 < r.words then m
      else
        let busy := m.busyUntil + w.rep + 1
        if w.seq = 2 then { m with busyUntil := busy, run := none }
        else if 4096 ≤ r.words then { m with busyUntil := busy, run := some { r with words := r.words + 1 } }
        else
          let pc := if w.seq = 1 then w.target else (r.pc + 1) % 4096
          Mxu.advance { m with busyUntil := busy
                               run := some { r with pc := pc, rep := 0, words := r.words + 1, ainc := 0, binc := 0 } } fuel

/-- The run after one operation of the word at which it stands. -/
def Mxu.stepWord (m : Mxu) (r : MxuRun) (w : MicroOp) : Mxu :=
  if r.rep < w.rep then
    { m with run := some { r with rep := r.rep + 1, ainc := r.ainc + w.ainc, binc := r.binc + w.binc } }
  else if w.seq = 2 then { m with run := none }
  else if 4096 ≤ r.words then { m with run := some { r with words := r.words + 1 } }
  else
    let pc := if w.seq = 1 then w.target else (r.pc + 1) % 4096
    Mxu.advance { m with run := some { r with pc := pc, rep := 0, words := r.words + 1, ainc := 0, binc := 0 } } 4096

def mcallMeaning (routine : BitVec 10) (o : CmdOrd) : Meaning :=
  { illegal := fun s => !s.here.mxu.callable routine
    block := fun s =>
      let m := s.here.mxu
      let c := s.me
      if m.busy s.gtc.toNat then some .mxuBusy
      else if s.here.owns c.uid then (gatherShort c s.gtc.toNat (firstMicro m routine) c.regs.k).map .gatherEmpty
      else none
    check := fun s =>
      firstTrap (ownerTrap s) (microTrap s.me (firstMicro s.here.mxu routine) s.me.regs.k)
    effect := fun st s =>
      let c := st.me
      let r : MxuRun :=
        { slot := s.cur.slot, uid := c.uid, cid := s.nextId, asid := c.asid, keys := c.special.keys
          spmode := c.special.spmode, k := c.regs.k, pc := 4 * routine.toNat, rep := 0, words := 1, ainc := 0, binc := 0
          ord := o, earlier := s.here.earlierOf c.uid, after := s.ownOpen c }
      { s with nextId := s.nextId + 1 }.modHere (fun x =>
        { x with mxu := Mxu.advance { x.mxu with run := some r, busyUntil := s.gtc.toNat } 4096 }) }

/-- The four words of MPLD. -/
def mpldWords (s : State) (a : SReg) : List (BitVec 128) :=
  let bs := s.coreBytes (s.me.sreg a) 64
  (List.range 4).map (fun i => BitVec.ofNat 128 (natOfBytes ((bs.drop (16 * i)).take 16)))

def mpldMeaning (routine : BitVec 10) (a : SReg) : Meaning :=
  { block := fun s =>
      match s.watermarkBlock (s.me.sreg a) 64 with
      | some b => some b
      | none => if s.here.mxu.busy s.gtc.toNat then some .mxuRoutine else none
    check := fun s =>
      firstTrap (ownerTrap s)
        (firstTrap (alignTrap (s.me.sreg a) 64)
          (firstTrap (poisonCheck s (s.me.sreg a) 64)
            (match (mpldWords s a).findIdx? (fun w => !microOk w) with
              | some i =>
                some { name := .illegalOp
                       tval := sylTval (instrBits (.mpld routine a)) s.cur.pos ||| BitVec.ofNat 64 (i * 256) }
              | none => none)))
    effect := fun st s =>
      let ws := mpldWords (st.atPos s.cur.pos) a
      (s.coreLoadCapture (st.me.sreg a) 64).modHere (fun x =>
        { x with mxu := { x.mxu with
            store := ws.zipIdx.foldl (fun acc w => assocSet (4 * routine.toNat + w.2) w.1 acc) x.mxu.store
            loaded := if x.mxu.loaded.contains routine.toNat then x.mxu.loaded else routine.toNat :: x.mxu.loaded } }) }

/-! ### Accumulators -/

def Mxu.accAt (m : Mxu) (i : Nat) : Quire := (assocGet i m.acc).getD Quire.zero

/-- All 4,096 quires after a change; those that are zero are not listed. -/
def Mxu.mapAcc (m : Mxu) (f : Nat → Quire → Quire) : Mxu :=
  { m with acc := (List.range 4096).filterMap (fun i =>
      let q := f i (m.accAt i)
      if q = Quire.zero then none else some (i, q)) }

/-! ### The array step (R130, R232, R234, R235) -/

/-- K of Table 6-4. -/
def blockK (f : Fmt) : Nat :=
  match f.width with
  | .w8 => 128
  | .w16 => 32
  | .w32 => 8

/-- L of R130: the granule exponent of Table 6-3. -/
def granuleExp (f : Fmt) : Int :=
  match f with
  | .tap .w8 es => -(12 * 2 ^ es.toNat : Nat)
  | .tap .w16 es => -(28 * 2 ^ es.toNat : Nat)
  | .tap .w32 es => -(60 * 2 ^ es.toNat : Nat)
  | .bf16 => -266
  | .e4m3 | .e5m2 => -206
  | .f32 | .int _ _ => 0

/-- The number of block sums of Table 6-4. -/
def bandCount (f : Fmt) : Nat :=
  match f with
  | .tap .w8 es => if es = 3 then 2 else 1
  | .tap .w16 es => if es = 3 then 3 else if es = 2 then 2 else 1
  | .tap .w32 es => if es = 2 then 3 else if es = 1 then 2 else 1
  | .bf16 => 4
  | .e4m3 | .e5m2 => 3
  | .f32 | .int _ _ => 1

/-- An operand; none for NaR, NaN and infinities. -/
def operandOf (f : Fmt) (bits : Nat) : Option Dyadic :=
  match decodeFmt f bits with
  | .zero _ => some { m := 0, e := 0 }
  | .fin d => some d
  | .inf _ | .nan _ | .nar => none

/-- BandPart: bits [168t + 167 : 168t] of |P| in units of 2^L, with P's sign. -/
def bandPart (l : Int) (t : Nat) (p : Dyadic) : Int :=
  let part : Int := natBits (shiftInt p.m.natAbs (p.e - l)).toNat (168 * t) 168
  if p.m < 0 then -part else part

/-- One output of a step: the sums of its bands promoted in order, or block NaR. -/
def promoteTerms (f : Fmt) (scale : Dyadic) (q : Quire) (terms : List (Option Dyadic × Option Dyadic)) : Quire :=
  let ps := terms.map (fun x => match x with
    | (some a, some b) => some ((a.mul b).mul scale)
    | _ => none)
  if ps.any Option.isNone then q.promote BlockSum.nar
  else
    let l := granuleExp f
    (List.range (bandCount f)).foldl (fun q t =>
      q.promote (BlockSum.of (ps.map (fun p => match p with
        | some d => bandPart l t d
        | none => 0)).sum (l + 168 * t))) q

/-- The FP32 values of scales: +0 for either zero, and none where a scale is illegal. -/
def scaleOf (bits : Nat) : Option Dyadic :=
  match decodeFmt .f32 bits with
  | .zero _ => some { m := 0, e := 0 }
  | .fin d =>
    let e : Int := d.m.natAbs.log2 + d.e
    if -64 ≤ e ∧ e ≤ 63 then some d else none
  | .inf _ | .nan _ | .nar => none

def scaleAt (scales : List Byte) (i : Nat) : Dyadic :=
  if scales.isEmpty then { m := 1, e := 0 }
  else (scaleOf (natOfBytes ((scales.drop (4 * i)).take 4))).getD { m := 1, e := 0 }

def elemAt (z : Nat) (bs : List Byte) (i : Nat) : Nat := natOfBytes ((bs.drop (i * z)).take z)

/-- The terms of output (i, j) of a dense step. -/
def denseTerms (f : Fmt) (a b : List Byte) (i j : Nat) : List (Option Dyadic × Option Dyadic) :=
  let z := fmtBytes f
  let k := blockK f
  (List.range k).map (fun x => (operandOf f (elemAt z a (i * k + x)), operandOf f (elemAt z b (x * 64 + j))))

/-- Positions of the first n set bits of a 16-byte mask. -/
def maskPositions (n : Nat) (mask : List Byte) : List Nat :=
  let x := natOfBytes mask
  ((List.range 128).filter (fun p => x.testBit p)).take n

/-- The terms of output (i, j) of a sparse step: each group's values paired by rank. -/
def sparseTerms (f : Fmt) (spn : Nat) (a b masks : List Byte) (i j : Nat) : List (Option Dyadic × Option Dyadic) :=
  let n := 128 / 2 ^ spn
  let groups := 2 ^ spn
  (List.range groups).flatMap (fun g =>
    let c := g * 64 + j
    (maskPositions n ((masks.drop (c * 16)).take 16)).zipIdx.map (fun x =>
      (operandOf f (elemAt 1 a (i * 128 * groups + 128 * g + x.1)), operandOf f (elemAt 1 b (c * n + x.2)))))

/-- The promotions of a completed step. -/
def Mxu.applyStep (m : Mxu) (f : Fmt) (scales : List Byte)
    (terms : Nat → Nat → List (Option Dyadic × Option Dyadic)) : Mxu :=
  m.mapAcc (fun x q =>
    let i := x / 64
    promoteTerms f ((scaleAt scales i).mul (scaleAt scales 64)) q (terms i (x % 64)))

/-! ### The start of an operation -/

/-- The mapping of the gather unit: that of the claiming context, or the one of the call after MFREE (Table 7-4). -/
def gatherMap (s : State) (t : Nat) (r : MxuRun) : Mapping :=
  match (s.tile t).mxu.owner with
  | some (k, uid) => match s.uidCtx t k uid with
    | some c => c.mapping
    | none => { spmode := r.spmode, keys := r.keys }
  | none => { spmode := r.spmode, keys := r.keys }

/-- Reads of the gather unit behind some accesses, each an address and a length: their bytes, whether one is bad, and the first out of range. -/
def gatherReads (s : State) (t : Nat) (after : List Nat) (m : Mapping) (rs : List (Word × Nat)) :
    List Byte × Bool × Option Word :=
  let x := s.seenBy (BitVec.ofNat 10 t) (fun f => after.contains f.id)
  (rs.flatMap (fun r => x.readBytes m x.limit r.1 r.2),
   rs.any (fun r => s.scratchBad t m x.limit r.1 r.2),
   rs.findSome? (fun r => firstOut x.limit r.1 r.2))

/-- The offset of a row. -/
def rowAddr (off : Nat) (inc : Int) (row : Word) (stride : Nat) : Word :=
  BitVec.ofInt 64 (off + inc) + row * BitVec.ofNat 64 stride

/-- The 64 indices at the head of queue IQ, and whether one is poisoned. -/
def headIndices (s : State) (t : Nat) (c : Context) (q : HReg) : List Word × Bool :=
  let qu := c.queue q
  ((List.range 64).map (fun i =>
    BitVec.ofNat 64 (natOfBytes (if i = 0 then (bytesOfNat 256 qu.latch.toNat).take 8
      else ((s.tile t).elemBytes c.mapping qu (qu.cons.toNat + i)).take 8))),
   (qu.held.take 64).any (fun e => e.poison.isSome))

/-- n elements leave a queue. -/
def Queue.popN (q : Queue) : Nat → Queue
  | 0 => q
  | n + 1 => Queue.popN q.pop n

/-- The first illegal scale: its bits and its S offset. -/
def badScale (asOff bsOff : Nat) (scales : List Byte) : Option (Nat × Nat) :=
  ((List.range 65).map (fun i => (elemAt 4 scales i, if i < 64 then asOff + 4 * i else bsOff))).find? (fun x =>
    (scaleOf x.1).isNone)

/-- MEM_DATA of the unit (R308): in the scratchpad, and in the SRAM of the MXD. -/
def mxuDataTrap : Trap := { name := .memData, tval := BitVec.ofNat 64 (2 ^ 60 + 2 ^ 56) }

def mxdDataTrap : Trap := { name := .memData, tval := BitVec.ofNat 64 (5 * 2 ^ 61 + 2 ^ 60 + 2 ^ 56) }

/-- The MXD of a tile is lost to the caller of a routine (R310). -/
def mxdLost (s : State) (t : Nat) (r : MxuRun) : Bool :=
  s.dieLost (s.mapOf (.engine (BitVec.ofNat 10 t) r.slot r.uid)) (4 + stackOf t)

/-- The accumulators of a tile's unit cannot be read: some word of them holds an uncorrectable error, or the tile's MXD is
lost (R241, R310). -/
def mxdBad (s : State) (t : Nat) (r : MxuRun) : Bool :=
  mxdLost s t r || s.bad.any (fun b => match b with
    | .mxd u _ => u == t
    | .scratch _ _ | .hbm _ | .lpddr _ | .code _ _ | .special _ _ _ | .away _ _ _ => false)

/-- The run of a tile's unit at a word whose operation may start now. -/
def mxuReady (s : State) (t : Nat) (opa : Nat) : Option (MxuRun × MicroOp) :=
  let m := (s.tile t).mxu
  match m.run with
  | none => none
  | some r =>
    let w := m.microAt r.pc
    if w.opa = opa ∧ m.busyUntil ≤ s.gtc.toNat ∧ r.words ≤ 4096 then some (r, w) else none

/-- Whether the caller's queue has the indices of a gather. -/
def gatherWaits (s : State) (t : Nat) (r : MxuRun) (w : MicroOp) : Bool :=
  match s.uidCtx t r.slot r.uid with
  | some c => (gatherShort c s.gtc.toNat w r.k).isSome
  | none => false

def CmdOrd.releases : CmdOrd → Bool
  | .rel _ => true
  | .none | .acq _ | .ord => false

def CmdOrd.waits : CmdOrd → Bool
  | .ord => true
  | .none | .acq _ | .rel _ => false

/-- An operation starts: it occupies the unit for 128 cycles and is complete by +150. -/
def State.startOp (s : State) (t : Nat) (r : MxuRun) (w : MicroOp) (start : Nat) (work : MxuWork) : State :=
  let op : MxuOp :=
    { work := work, slot := r.slot, uid := r.uid, cid := r.cid, asid := r.asid, keys := r.keys, spmode := r.spmode
      due := start + 150, rel := CmdOrd.releases r.ord, earlier := if CmdOrd.waits r.ord then r.earlier else []
      after := r.after }
  s.modTile t (fun x =>
    { x with mxu := Mxu.stepWord { x.mxu with ops := x.mxu.ops ++ [op], busyUntil := start + 128 } r w })

/-- A suppressed operation occupies the unit; its trap is raised at the owner's next presented bundle (R234, R241). -/
def State.suppressOp (s : State) (t : Nat) (r : MxuRun) (w : MicroOp) (start : Nat) (tr : Trap) : State :=
  (s.startOp t r w start .suppressed).engineTrap t r.slot r.uid r.asid tr r.cid

/-- A microword after the first whose words fail ends the routine (R225). -/
def State.failMicro (s : State) (t : Nat) (r : MxuRun) (tr : Trap) : State :=
  (s.modTile t (fun x => { x with mxu := { x.mxu with run := none } })).engineTrap t r.slot r.uid r.asid tr r.cid

/-- The checks of the word, then the operands of a step. -/
def State.startStep (s : State) (t : Nat) (r : MxuRun) (w : MicroOp) (sparse : Bool) : State :=
  match s.uidCtx t r.slot r.uid, Fmt.ofCode w.fmt with
  | some c, some f =>
    match (if r.rep = 0 ∧ r.words ≠ 1 then microTrap c w r.k else none) with
    | some tr => s.failMicro t r tr
    | none =>
      let m := gatherMap s t r
      let z := fmtBytes f
      let kg := kword r.k w.kg
      let ks := kword r.k w.ks
      let (rows, badIdx) :=
        if gatherOn kg then headIndices s t c (gatherQueue kg)
        else ((List.range 64).map (fun i => (BitVec.ofNat 64 i : Word)), false)
      let s0 := if gatherOn kg then s.modUid t r.slot r.uid (fun c =>
          (c.setQueue (gatherQueue kg) ((c.queue (gatherQueue kg)).popN 64)).latchHead (s.tile t) (gatherQueue kg)) else s
      let spn := gatherSpn kg
      let groups := 2 ^ spn
      let kk := if sparse then 128 * groups else blockK f
      let wa := kword r.k w.ka
      let wb := kword r.k w.kb
      let aReads := rows.map (fun i => (rowAddr (wordOff wa) r.ainc i (wordStride wa), kk * z))
      let bReads :=
        if sparse then [(rowAddr (wordOff wb) r.binc 0 0, groups * 64 * (128 / groups) * z)]
        else (List.range kk).map (fun i =>
          (rowAddr (wordOff wb) r.binc (BitVec.ofNat 64 i) (wordStride wb), 64 * z))
      let mReads := if sparse then [((BitVec.ofNat 64 (wordHigh kg) : Word), groups * 64 * 16)] else []
      let sReads := if scaled w.fmt then
          [((BitVec.ofNat 64 (wordOff ks) : Word), 256), ((BitVec.ofNat 64 (wordHigh ks) : Word), 4)] else []
      let (a, bad1, out1) := gatherReads s t r.after m aReads
      let (b, bad2, out2) := gatherReads s t r.after m bReads
      let (masks, bad3, out3) := gatherReads s t r.after m mReads
      let (scales, bad4, out4) := gatherReads s t r.after m sReads
      let out := [out1, out2, out3, out4].findSome? (fun o => o)
      let s1 := s0.modUid t r.slot r.uid (fun c => c.captureSpm false false 0 out)
      if badIdx || bad1 || bad2 || bad3 || bad4 then s1.suppressOp t r w s.gtc.toNat mxuDataTrap
      else match (if scaled w.fmt then badScale (wordOff ks) (wordHigh ks) scales else none) with
        | some (x, o) =>
          s1.suppressOp t r w s.gtc.toNat
            { name := .scaleRange, tval := BitVec.ofNat 64 (o % 2 ^ 21 * 2 ^ 32 + x) }
        | none =>
          if mxdBad s t r then s1.suppressOp t r w s.gtc.toNat mxdDataTrap
          else s1.startOp t r w s.gtc.toNat (if sparse then .sparse f spn a b masks scales else .dense f a b scales)
  | _, _ => s.modTile t (fun x => { x with mxu := { x.mxu with run := none } })

def execMxuDenseStep (t : TileId) (s : State) : Host.Outcome State Fault Refusal :=
  match mxuReady s t.toNat 1 with
  | some (r, w) => if gatherWaits s t.toNat r w then .next s else .next (s.startStep t.toNat r w false)
  | none => .next s

def execMxuSparseStep (t : TileId) (s : State) : Host.Outcome State Fault Refusal :=
  match mxuReady s t.toNat 2 with
  | some (r, w) => if gatherWaits s t.toNat r w then .next s else .next (s.startStep t.toNat r w true)
  | none => .next s

/-! ### Write-out and clear (R236) -/

/-- An earlier operation that still changes the accumulators. -/
def MxuOp.pendingAcc (o : MxuOp) : Bool :=
  match o.work with
  | .dense _ _ _ _ | .sparse _ _ _ _ _ _ | .clear => true
  | .writeOut _ _ _ | .suppressed => false

/-- One row of rounded quires with its flags. -/
def writeRow (m : Mxu) (f : Fmt) (sat : Bool) (rnd : Option (List Byte)) (i : Nat) : List Byte × BitVec 7 :=
  (List.range 64).foldl (fun acc j =>
    let n := 64 * i + j
    let mode : RMode := match rnd with
      | some bs => .stochastic (BitVec.ofNat 32 (elemAt 4 bs n))
      | none => .nearest
    let (y, fl) := (m.accAt n).round f sat mode
    (acc.1 ++ bytesOfNat (fmtBytes f) y, acc.2 ||| fl)) ([], 0)

/-- The 64 rows written in order; bytes out of range are dropped and captured. -/
def State.writeRows (s : State) (t : Nat) (r : MxuRun) (f : Fmt) (sat : Bool) (ko : Word) (rnd : Option (List Byte)) :
    State × BitVec 7 :=
  let m := gatherMap s t r
  let u := (s.tile t).mxu
  let lim := (s.tile t).limit
  (List.range 64).foldl (fun acc i =>
    let (bs, fl) := writeRow u f sat rnd i
    let a := rowAddr (wordOff ko) 0 (BitVec.ofNat 64 i) (wordStride ko)
    let s1 := (acc.1.engineStore t m a bs r.after).modUid t r.slot r.uid (fun c =>
      c.captureSpm true false 0 (firstOut lim a bs.length))
    (s1, acc.2 ||| fl)) (s, 0)

def State.startWriteOut (s : State) (t : Nat) (r : MxuRun) (w : MicroOp) : State :=
  match s.uidCtx t r.slot r.uid, Fmt.ofCode w.fmt with
  | some c, some f =>
    match (if r.rep = 0 ∧ r.words ≠ 1 then microTrap c w r.k else none) with
    | some tr => s.failMicro t r tr
    | none =>
      let ko := kword r.k w.ko
      let kp := kword r.k w.kp
      let (rbs, bad, out) := gatherReads s t r.after (gatherMap s t r)
        (if ko.getLsbD 63 then [((BitVec.ofNat 64 (wordOff (kword r.k w.kr)) : Word), 16384)] else [])
      let s0 := s.modUid t r.slot r.uid (fun c => c.captureSpm false false 0 out)
      let start := (s.tile t).mxu.busyUntil
      if bad then s0.suppressOp t r w start mxuDataTrap
      else if mxdBad s t r then s0.suppressOp t r w start mxdDataTrap
      else
        let (s1, fl) := s0.writeRows t r f w.sat ko (if ko.getLsbD 63 then some rbs else none)
        let s2 := if ko.getLsbD 62 then s1.modTile t (fun x => { x with mxu := { x.mxu with acc := [] } }) else s1
        s2.startOp t r w start
          (.writeOut (4096 * fmtBytes f) fl (if kp.getLsbD 21 then some (wordOff kp) else none))
  | _, _ => s.modTile t (fun x => { x with mxu := { x.mxu with run := none } })

/-- A write-out reads the accumulators after every earlier promotion. -/
def execMxuWriteOut (t : TileId) (s : State) : Host.Outcome State Fault Refusal :=
  match mxuReady s t.toNat 3 with
  | some (r, w) =>
    if (s.tile t.toNat).mxu.ops.any MxuOp.pendingAcc then .next s else .next (s.startWriteOut t.toNat r w)
  | none => .next s

def execMxuClear (t : TileId) (s : State) : Host.Outcome State Fault Refusal :=
  match mxuReady s t.toNat 4 with
  | some (r, w) =>
    .next (if mxdLost s t.toNat r then s.suppressOp t.toNat r w s.gtc.toNat mxdDataTrap
      else s.startOp t.toNat r w s.gtc.toNat .clear)
  | none => .next s

/-! ### Completion (R231) -/

/-- An operation that posts when it completes. -/
def MxuOp.posts (o : MxuOp) : Bool :=
  match o.work with
  | .writeOut _ _ (some _) => true
  | .writeOut _ _ none | .dense _ _ _ _ | .sparse _ _ _ _ _ _ | .clear | .suppressed => false

/-- The first operation that may complete: its cycle has come, under ORD every earlier command has posted (R202), and under
REL what its call followed is performed (R201), in a replica by the commit of its cut (R203). -/
def completableOp (s : State) (t : Nat) : Option MxuOp :=
  let x := s.tile t
  x.mxu.ops.find? (fun o => decide (o.due ≤ s.gtc.toNat) &&
    (!o.posts || (s.postsMade x o.earlier && !(o.rel && o.after.any (fun id => s.openOp id))
      && !s.awaitsCut t o.slot o.uid o.cid)))

def execMxuOperationComplete (t : TileId) (s : State) : Host.Outcome State Fault Refusal :=
  match completableOp s t.toNat with
  | none => .next s
  | some o =>
    let s1 := s.modTile t.toNat (fun x => { x with mxu := { x.mxu with ops := x.mxu.ops.erase o } })
    if o.posts && s.mustCut t.toNat o.slot o.uid o.cid o.rel then .next (s.cutPost t.toNat o.slot o.uid o.cid)
    else match o.work with
    | .dense f a b scales =>
      .next (s1.modTile t.toNat (fun x => { x with mxu := x.mxu.applyStep f scales (denseTerms f a b) }))
    | .sparse f spn a b masks scales =>
      .next (s1.modTile t.toNat (fun x => { x with mxu := x.mxu.applyStep f scales (sparseTerms f spn a b masks) }))
    | .clear => .next (s1.modTile t.toNat (fun x => { x with mxu := { x.mxu with acc := [] } }))
    | .writeOut n fl post =>
      let s2 := s1.engineFlags t.toNat o.slot o.uid fl
      match post with
      | some off =>
        .next (s2.enginePost t o.slot o.uid o.asid { spmode := o.spmode, keys := o.keys } (.s (BitVec.ofNat 64 off))
          (BitVec.ofNat 64 n) o.rel 
          { cid := o.cid, earlier := o.earlier, writes := [], after := o.after, report := (1 : Word) <<< 56 })
      | none => .next s2
    | .suppressed => .next s1

/-- A routine that has executed 4,096 microwords, once the last of them has taken its time (R228). -/
def execMxuRoutineRunaway (t : TileId) (s : State) : Host.Outcome State Fault Refusal :=
  let m := (s.tile t.toNat).mxu
  match m.run with
  | some r =>
    if m.busyUntil ≤ s.gtc.toNat ∧ 4096 < r.words then
      .next (s.failMicro t.toNat r { name := .illegalOp, tval := BitVec.ofNat 64 r.pc })
    else .next s
  | none => .next s

/-- The claims that wait on a tile. -/
def Tile.claims (x : Tile) : List (SlotNo × Context) :=
  allSlots.flatMap (fun k => ([Bank.primary, Bank.second].map (fun b => (k, x.ctx k b))).filter (fun y =>
    y.2.status == .blocked .mxuOwned))

/-- The claim that a free unit is to be cleared for: the first that waits, while none waits that needs no clear. -/
def Tile.clearFor (x : Tile) : Option (SlotNo × Nat) :=
  if x.mxu.owner.isNone && x.claims.all (fun y => x.mxu.mustClear y.2.asid) then
    x.claims.head?.map (fun y => (y.1, y.2.uid))
  else none

/-- The clear of another address space's results (R221): it starts when every routine has ended, takes 128 cycles, and
then lets the claim complete. Of claims that wait, those of the last owner's ASID come first. (DEDUCED, unsafe; log entry
24.) -/
def execMxuAsidClear (t : TileId) (s : State) : Host.Outcome State Fault Refusal :=
  let x := s.tile t.toNat
  let m := x.mxu
  match m.clearing with
  | none =>
    match x.clearFor with
    | some (k, uid) => .next (s.setTile t.toNat { x with mxu := { m with clearing := some (k, uid, 0) } })
    | none => .next s
  | some (k, uid, until_) =>
    if until_ = 0 then
      if !m.busy s.gtc.toNat && !m.ops.any MxuOp.pendingAcc then
        .next (s.setTile t.toNat
          { x with mxu := { m with acc := [], clearing := some (k, uid, s.gtc.toNat + 128) } })
      else .next s
    else if until_ ≤ s.gtc.toNat then
      .next (s.setTile t.toNat { x with mxu := { m with
        clearing := none, lastAsid := (s.uidCtx t.toNat k uid).map (fun c => c.asid) } })
    else .next s

/-! ### Instructions -/

def execMcall (routine : BitVec 10) (o : CmdOrd) (s : State) : Host.Outcome State Fault Refusal :=
  runSyllable (.mcall routine o) (mcallMeaning routine o) s
def execMclaim (s : State) : Host.Outcome State Fault Refusal :=
  runSyllable .mclaim mclaimMeaning s
def execMfree (s : State) : Host.Outcome State Fault Refusal :=
  runSyllable .mfree mfreeMeaning s
def execMpar (k : KReg) (src : MparSrc) (s : State) : Host.Outcome State Fault Refusal :=
  runSyllable (.mpar k src) (mparMeaning k src) s
def execMpld (routine : BitVec 10) (a : SReg) (s : State) : Host.Outcome State Fault Refusal :=
  runSyllable (.mpld routine a) (mpldMeaning routine a) s

end Sys2Proof.Machine
end

