-- ==== Sys2Proof/Machine/Grammar.lean ====
section
/-! DEFINITION. The grammar evaluation unit: GLOAD and GRUN (R248, R249, R343), the check of an image (R242 to R246), the
run (R250), its delivery (R251) and the end of a command (R255, R444). -/

namespace Sys2Proof.Machine

/-! ### Images (R242 to R246) -/

/-- A checked image. -/
structure Image where
  vfmt  : Nat
  ncols : Nat
  rules : List (List Nat)
  rows  : List (List Nat)
  deriving DecidableEq, Repr

/-- What the check of an image finds: its content, or the first failure with the NROWS that R444 uses. -/
inductive Checked where
  | ok (i : Image)
  | fail (tr : Trap) (nrows : Nat)
  deriving DecidableEq, Repr

/-- The formats of terminal values and of x. -/
def grammarFmts : List Nat := [17, 18, 21, 22]

/-- A reader of the tile's scratchpad under a mapping. -/
abbrev Reader := Nat → Nat → List Byte

def tileReader (x : Tile) (m : Mapping) : Reader := fun a n => x.readBytes m x.limit (BitVec.ofNat 64 a) n

def leAt (rd : Reader) (a n : Nat) : Nat := natOfBytes (rd a n)

/-- QUEUE_CONFIG for the 8-byte word that holds a fault. -/
def imageConfig (a : Nat) : Trap := { name := .queueConfig, tval := BitVec.ofNat 64 (a / 8 * 8 % 2 ^ 21 * 2 ^ 32 + 64) }

/-- TVAL of a rule or row and a position. -/
def grammarTval (row : Bool) (i pos : Nat) : Word :=
  BitVec.ofNat 64 (i + pos % 2 ^ 16 * 2 ^ 32 + (if row then 2 ^ 63 else 0))

/-- The header check: QUEUE_CONFIG word by word, then RULE_FILE. -/
def headerTrap (rd : Reader) (base : Nat) : Option Trap :=
  let w := fun i => leAt rd (base + 8 * i) 8
  if natBits (w 0) 40 8 ≠ 0 ∨ (w 0).testBit 63 = true ∨ grammarFmts.contains (natBits (w 0) 32 8) = false
      ∨ natBits (w 0) 16 16 = 0 then some (imageConfig base)
  else if natBits (w 1) 0 32 % 8 ≠ 0 ∨ natBits (w 1) 32 32 % 8 ≠ 0 then some (imageConfig (base + 8))
  else if natBits (w 2) 0 32 % 4 ≠ 0 then some (imageConfig (base + 16))
  else match [3, 4, 5, 6, 7].find? (fun i => w i != 0) with
    | some i => some (imageConfig (base + 8 * i))
    | none =>
      if 8192 < natBits (w 0) 0 16 then
        some { name := .ruleFile, tval := BitVec.ofNat 64 (natBits (w 0) 0 16) }
      else none

/-- A symbol names a rule. -/
def isRuleSym (y : Nat) : Bool := y.testBit 31
def symRule (y : Nat) : Nat := natBits y 0 13
def symCol (y : Nat) : Nat := natBits y 16 15
def symVal (y : Nat) : Nat := natBits y 0 16

/-- The checks of one symbol at an address: reserved bits, then the rule it names or its column. -/
def symTrap (vfmt ncols limit : Nat) (row : Bool) (i pos a y : Nat) : Option Trap :=
  if isRuleSym y then
    if natBits y 13 18 ≠ 0 then some (imageConfig a)
    else if limit ≤ symRule y then some { name := .ruleOrder, tval := grammarTval row i pos }
    else none
  else if (vfmt = 18 ∨ vfmt = 22) ∧ natBits y 8 8 ≠ 0 then some (imageConfig a)
  else if ncols < symCol y then
    some { name := .ruleRange, tval := grammarTval row i pos ||| (1 : Word) <<< 62 }
  else none

/-- The slots of a rule in order: their traps, the depth and the term count so far. -/
def ruleSlots (vfmt ncols r a cnt : Nat) (rd : Reader) (known : List (Nat × Nat)) : List Nat → Nat → Nat →
    Option Trap × Nat × Nat
  | [], d, t => (none, d, t)
  | j :: js, d, t =>
    let at_ := a + 8 + 4 * j
    let y := leAt rd at_ 4
    if cnt ≤ j then
      if y ≠ 0 then (some (imageConfig at_), d, t) else ruleSlots vfmt ncols r a cnt rd known js d t
    else match symTrap vfmt ncols r false r j at_ y with
      | some tr => (some tr, d, t)
      | none =>
        let (d', t') := if isRuleSym y then
            let k := known.getD (symRule y) (0, 0)
            (Nat.max d (k.1 + 1), t + k.2)
          else (d, t + 1)
        if 2 ^ 24 < t' then (some { name := .ruleRange, tval := grammarTval false r j }, d', t')
        else ruleSlots vfmt ncols r a cnt rd known js d' t'

/-- The rules in ascending number: the first failure, or the symbols of each. -/
def checkRules (vfmt ncols ruleBase : Nat) (rd : Reader) : List Nat → List (Nat × Nat) → List (List Nat) →
    Option Trap × List (List Nat)
  | [], _, acc => (none, acc)
  | r :: rs, known, acc =>
    let a := ruleBase + 72 * r
    let h := leAt rd a 8
    let cnt := natBits h 0 5
    let dep := natBits h 8 8
    if h ≠ cnt + dep * 256 ∨ cnt = 0 ∨ 16 < cnt then (some (imageConfig a), acc)
    else match ruleSlots vfmt ncols r a cnt rd known (List.range 16) 0 0 with
      | (some tr, _, _) => (some tr, acc)
      | (none, d, t) =>
        if 63 < d ∨ d ≠ dep then
          (some { name := .ruleDepth, tval := grammarTval false r 0 ||| BitVec.ofNat 64 (Nat.min d 255 * 2 ^ 48) }, acc)
        else
          checkRules vfmt ncols ruleBase rd rs (known ++ [(d, t)])
            (acc ++ [(List.range cnt).map (fun j => leAt rd (a + 8 + 4 * j) 4)])

/-- The rows in ascending number, each with its symbols. -/
def checkRows (vfmt ncols nrules nsym rowBase symBase : Nat) (rd : Reader) : List Nat → List (List Nat) →
    Option Trap × List (List Nat)
  | [], acc => (none, acc)
  | i :: is_, acc =>
    let a := rowBase + 8 * i
    let e := leAt rd a 8
    let start := natBits e 0 32
    let cnt := natBits e 32 16
    if natBits e 48 16 ≠ 0 ∨ nsym < start + cnt then (some (imageConfig a), acc)
    else
      let symAt (j : Nat) := symBase + 4 * (start + j)
      match (List.range cnt).findSome? (fun j =>
          symTrap vfmt ncols nrules true i j (symAt j) (leAt rd (symAt j) 4)) with
      | some tr => (some tr, acc)
      | none =>
        checkRows vfmt ncols nrules nsym rowBase symBase rd is_
          (acc ++ [(List.range cnt).map (fun j => leAt rd (symAt j) 4)])

/-- The check of an image in the order of R246. -/
def checkImage (rd : Reader) (base : Nat) : Checked :=
  match headerTrap rd base with
  | some tr => .fail tr 0
  | none =>
    let nrules := leAt rd base 2
    let nrows := leAt rd (base + 2) 2
    let vfmt := leAt rd (base + 4) 1
    let ncols := leAt rd (base + 6) 2 % 2 ^ 15
    match checkRules vfmt ncols (base + leAt rd (base + 8) 4) rd (List.range nrules) [] [] with
    | (some tr, _) => .fail tr nrows
    | (none, rules) =>
      match checkRows vfmt ncols nrules (leAt rd (base + 20) 4) (base + leAt rd (base + 12) 4)
          (base + leAt rd (base + 16) 4) rd (List.range nrows) [] with
      | (some tr, _) => .fail tr nrows
      | (none, rows) => .ok { vfmt := vfmt, ncols := ncols, rules := rules, rows := rows }

/-- Whether a word that the check reads holds an uncorrectable error: header, rules, directory or symbols. -/
def imageBad (s : State) (t : Nat) (m : Mapping) (base : Nat) : Bool :=
  let x := s.tile t
  let rd := tileReader x m
  let bad (a n : Nat) := s.scratchBad t m x.limit (BitVec.ofNat 64 a) n
  !s.bad.isEmpty &&
    (bad base 64 || bad (base + leAt rd (base + 8) 4) (72 * Nat.min 8192 (leAt rd base 2))
      || bad (base + leAt rd (base + 12) 4) (8 * leAt rd (base + 2) 2)
      || bad (base + leAt rd (base + 16) 4) (4 * Nat.min (leAt rd (base + 20) 4) (2 ^ 19)))

/-- NROWS of an image in which a word is bad: 0 where the header check fails, or its words cannot be read (R444). -/
def readableRows (s : State) (t : Nat) (m : Mapping) (base : Nat) : Nat :=
  let x := s.tile t
  let rd := tileReader x m
  if s.scratchBad t m x.limit (BitVec.ofNat 64 base) 64 || (headerTrap rd base).isSome then 0 else leAt rd (base + 2) 2

/-! ### A run (R247, R250) -/

/-- The exponent of minpos (R247). -/
def minposExp (fmt : Nat) : Int :=
  match fmt with
  | 17 => -14
  | 18 => -6
  | 21 => -28
  | _ => -12

/-- The element size of x and of terminal values. -/
def grammarBytes (fmt : Nat) : Nat := fmtElemBytes fmt

/-- A value in units of 2^L; none for NaR. -/
def termUnits (l : Int) (a b : Val) : Option Int :=
  match a, b with
  | .fin x, .fin y => some (shiftInt (x.m * y.m) (x.e + y.e - l))
  | .zero _, .fin _ | .fin _, .zero _ | .zero _, .zero _ => some 0
  | .inf _, _ | .nan _, _ | .nar, _ | _, .inf _ | _, .nan _ | _, .nar => none

def symUnits (vfmt : Nat) (l : Int) (xs : List Val) (vals : List (Option Int)) (y : Nat) : Option Int :=
  if isRuleSym y then vals.getD (symRule y) none
  else termUnits l (codeVal vfmt (symVal y)) (xs.getD (symCol y) .nar)

/-- The exact sum of terms; NaR where one is. -/
def sumUnits (ts : List (Option Int)) : Option Int :=
  ts.foldl (fun acc t => match acc, t with
    | some a, some b => some (a + b)
    | _, _ => none) (some 0)

/-- The values of all rules, in ascending number. -/
def ruleValues (vfmt : Nat) (l : Int) (xs : List Val) : List (List Nat) → List (Option Int) → List (Option Int)
  | [], vals => vals
  | r :: rs, vals => ruleValues vfmt l xs rs (vals ++ [sumUnits (r.map (symUnits vfmt l xs vals))])

/-- One row: a promotion for each symbol, then one rounding. -/
def rowResult (img : Image) (l : Int) (xs : List Val) (vals : List (Option Int)) (f : Fmt) (sat : Bool)
    (row : List Nat) : Rounded :=
  (row.foldl (fun (q : Quire) y =>
    q.promote (BlockSum.ofUnits (symUnits img.vfmt l xs vals y) l)) Quire.zero).round f sat .nearest

/-- Every row of a run, with the OR of the flags. -/
def runRows (img : Image) (xfmt : Nat) (xs : List Val) (f : Fmt) (sat : Bool) : List (List Byte) × BitVec 7 :=
  let l := minposExp img.vfmt + minposExp xfmt
  let vals := ruleValues img.vfmt l xs img.rules []
  img.rows.foldl (fun acc row =>
    let (y, fl) := rowResult img l xs vals f sat row
    (acc.1 ++ [bytesOfNat (fmtBytes f) y], acc.2 ||| fl)) ([], 0)

/-- Bytes cut into elements of a size, the last padded with zeros (R251). -/
def packElems (e : Nat) : Nat → List Byte → List (List Byte)
  | 0, _ => []
  | fuel + 1, bs => if bs.isEmpty then [] else padBytes e bs :: packElems e fuel (bs.drop e)

/-- The bytes that a run of n rows delivers. -/
def deliveredBytes (q : Option Queue) (f : Fmt) (nrows : Nat) : Nat :=
  match q with
  | some q => ceilDiv (nrows * fmtBytes f) q.elemBytes * q.elemBytes
  | none => nrows * fmtBytes f

/-! ### Fields of GRUN (Table 12-3) -/

def grunQo (a : Word) : Bool := a.getLsbD 63
def grunXfmt (a : Word) : Nat := natBits a.toNat 58 5
def grunQn (a : Word) : HReg := fld a 54 4
def grunYoff (a : Word) : Nat := natBits a.toNat 32 21
def grunXoff (a : Word) : Nat := natBits a.toNat 0 21

/-- The queue that takes the results. -/
def grunQueue (c : Context) (a : Word) : Option Queue := if grunQo a then some (c.queue (grunQn a)) else none

/-! ### GLOAD and GRUN -/

/-- A command enters the queue; the first one starts now (R253). -/
def Geu.push (g : Geu) (c : GeuCmd) (gtc : Nat) : Geu :=
  { g with queue := g.queue ++ [c], startAt := if g.queue.isEmpty then gtc else g.startAt }

def geuBlock (s : State) : Option BlockCond := if 4 ≤ s.here.geu.queue.length then some .geuFull else none

def gloadMeaning (a : SReg) : Meaning :=
  { block := geuBlock
    check := fun s => alignTrap (s.me.sreg a) 16
    effect := fun st s =>
      let c := st.me
      let cmd : GeuCmd := .load s.cur.slot c.uid s.nextId (c.sreg a).toNat c.special.keys c.special.spmode
        (s.here.earlierOf c.uid) (s.ownOpen c)
      { s with nextId := s.nextId + 1 }.modHere (fun x => { x with geu := x.geu.push cmd s.gtc.toNat }) }

/-- A GLOAD of the context is queued. -/
def Geu.loads (g : Geu) (uid : Nat) : Bool :=
  g.queue.any (fun c => match c with
    | .load _ u _ _ _ _ _ _ => u == uid
    | .run _ _ _ _ _ _ _ _ _ _ _ _ _ => false)

/-- The execute checks of GRUN (R249). -/
def grunCheck (s : State) (a c : SReg) : Option Trap :=
  let x := s.me.sreg a
  let ctr := s.me.sreg c
  if grunXoff x % 16 ≠ 0 ∨ (grunQo x = false ∧ grunYoff x % 16 ≠ 0) then some { name := .align, tval := x }
  else if c ≠ 0 ∧ ctr.toNat % 8 ≠ 0 then some { name := .align, tval := ctr }
  else if x &&& 0x00200000FFE00000 ≠ 0 ∨ grammarFmts.contains (grunXfmt x) = false then
    some { name := .queueConfig, tval := 64 }
  else if grunQo x = true ∧ (s.me.queue (grunQn x)).configured = false then
    some { name := .queueConfig, tval := (grunQn x).setWidth 64 }
  else if s.me.binding.isNone ∧ s.here.geu.loads s.me.uid = false then some { name := .queueConfig, tval := 65 }
  else none

def grunMeaning (sat : Bool) (f : Fmt) (a c : SReg) (o : CmdOrd) : Meaning :=
  { block := geuBlock
    check := fun s => grunCheck s a c
    effect := fun st s =>
      let cx := st.me
      let cmd : GeuCmd := .run s.cur.slot cx.uid s.nextId (cx.sreg a) (if c = 0 then none else some (cx.sreg c)) sat f o
        cx.special.keys cx.special.spmode (s.here.earlierOf cx.uid) (s.ownOpen cx) 0
      { s with nextId := s.nextId + 1 }.modHere (fun x => { x with geu := x.geu.push cmd s.gtc.toNat }) }

/-! ### The unit at work -/

/-- MEM_DATA of the unit (R308). -/
def geuDataTrap : Trap := { name := .memData, tval := BitVec.ofNat 64 (2 ^ 60 + 2 ^ 57) }

def State.modGeu (s : State) (t : Nat) (f : Geu → Geu) : State := s.modTile t (fun x => { x with geu := f x.geu })

/-- The cycles of a GLOAD and of a GRUN (R252). -/
def loadCycles (rd : Reader) (base : Nat) : Nat := 16 + 2 * leAt rd base 2 + ceilDiv (leAt rd (base + 20) 4) 4

def runCycles (img : Image) (f : Fmt) : Nat :=
  32 + ceilDiv (img.rules.map List.length).sum 4 + ceilDiv (img.rows.map List.length).sum 4
    + ceilDiv (img.rows.length * fmtBytes f) 16

/-- The front command may start: what it follows has been performed. -/
def geuFree (s : State) (g : Geu) (after : List Nat) : Bool :=
  g.running.isNone && !after.any (fun id => s.openOp id)

/-- GLOAD at the front: the image is read and checked, and the binding recorded; a failure leaves none. -/
def execGeuLoad (t : TileId) (s : State) : Host.Outcome State Fault Refusal :=
  let g := (s.tile t.toNat).geu
  match g.queue with
  | .load k uid _ base keys spmode _ after :: _ =>
    if geuFree s g after then
      let m : Mapping := { spmode := spmode, keys := keys }
      let rd := tileReader (s.tile t.toNat) m
      let due := Nat.max g.startAt s.gtc.toNat + loadCycles rd base
      let run (tr : Option Trap) (n : Nat) : GeuRunning :=
        { pieces := [], next := 0, flags := 0, bytes := 0, trap := tr, nrows := n, due := due }
      let (b, r) := if imageBad s t.toNat m base then (none, run (some geuDataTrap) (readableRows s t.toNat m base))
        else match checkImage rd base with
          | .ok _ => (some ({ base := base, keys := keys, spmode := spmode } : Binding), run none 0)
          | .fail tr n => (none, run (some tr) n)
      .next ((s.modUid t.toNat k uid (fun c => { c with binding := b })).modGeu t.toNat (fun g =>
        { g with running := some r }))
    else .next s
  | _ => .next s

/-- GRUN at the front: every rule is evaluated, and every row summed and rounded (R250). A restored run resumes at its
first undelivered row (R256). (DEDUCED, safe; log entry 25.) -/
def execGeuRun (t : TileId) (s : State) : Host.Outcome State Fault Refusal :=
  let x := s.tile t.toNat
  let g := x.geu
  match g.queue with
  | .run k uid _ a _ sat f _ keys spmode _ after resume :: _ =>
    if geuFree s g after then
      match s.uidCtx t.toNat k uid with
      | none => .next s
      | some c =>
        let q := grunQueue c a
        let m : Mapping := { spmode := spmode, keys := keys }
        let put (r : GeuRunning) := s.modGeu t.toNat (fun g => { g with running := some r })
        let aborted (tr : Option Trap) (n : Nat) : GeuRunning :=
          { pieces := [], next := 0, flags := 0, bytes := deliveredBytes q f n, trap := tr, nrows := n, due := Nat.max g.startAt s.gtc.toNat + 32 }
        match c.binding with
        | none => .next (put (aborted none 0))
        | some b =>
          let bm : Mapping := { spmode := b.spmode, keys := b.keys }
          let rd := tileReader x bm
          let nrows := leAt rd (b.base + 2) 2
          if imageBad s t.toNat bm b.base then .next (put (aborted (some geuDataTrap) nrows))
          else match checkImage rd b.base with
            | .fail tr n => .next (put (aborted (some tr) n))
            | .ok img =>
              let z := grammarBytes (grunXfmt a)
              let xo : Word := BitVec.ofNat 64 (grunXoff a)
              if s.scratchBad t.toNat m x.limit xo ((img.ncols + 1) * z) then
                .next (put (aborted (some geuDataTrap) nrows))
              else
                let xs := (elemsOf z (x.readBytes m x.limit xo ((img.ncols + 1) * z)) (img.ncols + 1)).map
                  (codeVal (grunXfmt a))
                let (rows, fl) := runRows img (grunXfmt a) xs f sat
                let left := rows.drop resume
                let pieces := match q with
                  | some q => packElems q.elemBytes (left.length + 1) left.flatten
                  | none => left
                .next (put
                  { pieces := pieces, next := 0, flags := fl, bytes := deliveredBytes q f img.rows.length, trap := none
                    nrows := img.rows.length, due := Nat.max g.startAt s.gtc.toNat + runCycles img f })
    else .next s
  | _ => .next s

/-- The next row of the run is written, or the next element pushed where its queue has room (R251). -/
def execGeuRowDeliver (t : TileId) (s : State) : Host.Outcome State Fault Refusal :=
  let g := (s.tile t.toNat).geu
  match g.queue, g.running with
  | .run k uid _ a _ _ f _ keys spmode _ after resume :: _, some r =>
    match r.pieces[r.next]?, s.uidCtx t.toNat k uid with
    | some bs, some c =>
      let step (s : State) := s.modGeu t.toNat (fun g => { g with running := some { r with next := r.next + 1 } })
      if grunQo a then
        if (c.queue (grunQn a)).full then .next s
        else .next (step (s.pushElem t.toNat k uid (grunQn a) none bs none))
      else
        .next (step (s.engineStore t.toNat { spmode := spmode, keys := keys }
          (BitVec.ofNat 64 (grunYoff a + (resume + r.next) * fmtBytes f)) bs after))
    | _, _ => .next s
  | _, _ => .next s

/-! ### The end of a command (R255, R444) -/

/-- The post of a GRUN. -/
def State.postRun (s : State) (t : TileId) (cmd : GeuCmd) (n : Nat) : State :=
  match cmd with
  | .run k uid cid _ (some ctr) _ _ o keys spmode earlier after _ =>
    let asid := match s.uidCtx t.toNat k uid with
      | some c => c.asid
      | none => 0
    s.enginePost t k uid asid { spmode := spmode, keys := keys } (.s ctr) (BitVec.ofNat 64 n) (CmdOrd.releases o)
      { cid := cid, earlier := earlier, writes := [], after := after, report := (1 : Word) <<< 57 }
  | .run _ _ _ _ none _ _ _ _ _ _ _ _ | .load _ _ _ _ _ _ _ _ => s

/-- A command's trap and flags. -/
def State.endGeu (s : State) (t : Nat) (k : SlotNo) (uid cid : Nat) (r : GeuRunning) : State :=
  let asid := match s.uidCtx t k uid with
    | some c => c.asid
    | none => 0
  let s1 := s.engineFlags t k uid r.flags
  match r.trap with
  | some tr => s1.engineTrap t k uid asid tr cid
  | none => s1

/-- The bytes that an aborted GRUN posts. -/
def abortBytes (s : State) (t : Nat) (cmd : GeuCmd) (nrows : Nat) : Nat :=
  match cmd with
  | .run k uid _ a _ _ f _ _ _ _ _ _ =>
    match s.uidCtx t k uid with
    | some c => deliveredBytes (grunQueue c a) f nrows
    | none => nrows * fmtBytes f
  | .load _ _ _ _ _ _ _ _ => 0

/-- Under ORD, every earlier command has posted (R202); under REL, what the issue followed is performed, and a cut is committed. -/
def geuOrdered (s : State) (t : Nat) (x : Tile) (cmd : GeuCmd) : Bool :=
  match cmd with
  | .run k uid cid _ (some _) _ _ o _ _ earlier after _ =>
    (!CmdOrd.waits o || s.postsMade x earlier) && !(CmdOrd.releases o && after.any (fun id => s.openOp id))
      && !s.awaitsCut t k uid cid
  | .run _ _ _ _ none _ _ _ _ _ _ _ _ | .load _ _ _ _ _ _ _ _ => true

def GeuCmd.isLoad : GeuCmd → Bool
  | .load _ _ _ _ _ _ _ _ => true
  | .run _ _ _ _ _ _ _ _ _ _ _ _ _ => false

/-- Every GRUN of a context among some commands (R255). -/
def runsBehind (uid : Nat) (cs : List GeuCmd) : List GeuCmd := cs.filter (fun c => c.uid == uid && !c.isLoad)

/-- A tile without some grammar commands: they have posted. -/
def Tile.withoutGeu (x : Tile) (cmds : List GeuCmd) : Tile :=
  { x with geu := { x.geu with queue := x.geu.queue.filter (fun d => !cmds.any (fun c => c.cid == d.cid)) } }

/-- The posts of some GRUNs behind a failed GLOAD may be made together: under ORD every earlier command but these has
posted, and under REL what they follow has been performed. The GLOAD's trap event waits for that cycle, since R444 puts it and
every post in one. (DESIGN CHOICE, unsafe; log entry 67.) -/
def runsOrdered (s : State) (t : Nat) (x : Tile) (front : GeuCmd) (cmds : List GeuCmd) : Bool :=
  cmds.all (geuOrdered s t (x.withoutGeu (front :: cmds)))

/-- A GRUN whose release in a replica has still to make its cut (R203, R278). -/
def geuMustCut (s : State) (t : Nat) (cmd : GeuCmd) : Bool :=
  match cmd with
  | .run k uid cid _ (some _) _ _ o _ _ _ _ _ => s.mustCut t k uid cid (CmdOrd.releases o)
  | .run _ _ _ _ none _ _ _ _ _ _ _ _ | .load _ _ _ _ _ _ _ _ => false

/-- The GRUNs behind a failed GLOAD: each posts what a complete run would have (R444). -/
def State.abortRuns (s : State) (t : TileId) (cmds : List GeuCmd) (nrows : Nat) : State :=
  cmds.foldl (fun st c =>
    (st.modTile t.toNat (fun x => x.withoutGeu [c])).postRun t c (abortBytes st t.toNat c nrows)) s

/-- The front command leaves, and the next one starts. -/
def State.popGeu (s : State) (t : Nat) : State :=
  s.modGeu t (fun g => { g with queue := g.queue.tail, running := none, startAt := s.gtc.toNat })

/-- The end of the front command: its flags, post and trap; a GLOAD that failed aborts the GRUNs behind it. -/
def execGeuComplete (t : TileId) (s : State) : Host.Outcome State Fault Refusal :=
  let x := s.tile t.toNat
  let g := x.geu
  match g.queue with
  | [] => .next s
  | cmd :: rest =>
    match g.running with
    | none => .next s
    | some r =>
      let aborted := if r.trap.isSome && cmd.isLoad then runsBehind cmd.uid rest else []
      if s.gtc.toNat < r.due ∨ r.next < r.pieces.length ∨ geuOrdered s t.toNat x cmd = false
          ∨ runsOrdered s t.toNat x cmd aborted = false then .next s
      else if (cmd :: aborted).any (geuMustCut s t.toNat) then
        .next (((cmd :: aborted).filter (geuMustCut s t.toNat)).foldl (fun st c => st.cutPost t.toNat c.slot c.uid c.cid) s)
      else match cmd with
        | .load k uid cid _ _ _ _ _ =>
          .next (((s.popGeu t.toNat).endGeu t.toNat k uid cid r).abortRuns t aborted r.nrows)
        | .run k uid cid _ _ _ _ _ _ _ _ _ _ =>
          .next (((s.popGeu t.toNat).postRun t cmd r.bytes).endGeu t.toNat k uid cid r)

/-! ### Instructions -/

def execGload (a : SReg) (s : State) : Host.Outcome State Fault Refusal :=
  runSyllable (.gload a) (gloadMeaning a) s
def execGrun (sat : Bool) (f : Fmt) (a c : SReg) (o : CmdOrd) (s : State) : Host.Outcome State Fault Refusal :=
  runSyllable (.grun sat f a c o) (grunMeaning sat f a c o) s

end Sys2Proof.Machine
end

