-- ==== Sys2Proof/Machine/Scan.lean ====
section
/-! DEFINITION. The scan plane: SCAN and SCANA (R258, R259, R380, R381), the start of an operation, its results (R260 to
R263, R439) and the state channels between packages (R264, R440). -/

namespace Sys2Proof.Machine

/-! ### Regions (R25, R27) -/

/-- The region instance of a context, and the ordinal of its tile in the region. -/
def regionOf (ws : List Word) (flat : Nat) : Nat × Nat :=
  let e := levelExtent ws 0
  let (w, h) := regionSize ws
  (flat / (e * (w * h)), flat / e % (w * h))

/-! ### SCAN and SCANA -/

def ScanaFmt.fmt : ScanaFmt → Fmt
  | .f32 => .f32
  | .t32es0 => .tap .w32 0
  | .t32es1 => .tap .w32 1
  | .t32es2 => .tap .w32 2

/-- What a command gives besides its place. -/
structure ScanArgs where
  q      : HReg
  ch     : Chan
  affine : Bool
  fmt    : Fmt
  carry  : Bool
  rel    : Bool

/-- Elements of one result. -/
def scanElems (affine : Bool) : Nat := if affine then 2 else 1

/-- n places in the log stream for 256-byte elements. -/
def State.scanPlaces (s : State) : Nat → List Nat × State
  | 0 => ([], s)
  | n + 1 =>
    match s.latePlace 8 32 with
    | (some p, s1) =>
      let (ps, s2) := State.scanPlaces s1 n
      (p :: ps, s2)
    | (none, s1) => State.scanPlaces s1 n

/-- The operation that a tile of a region joins next on a channel: the first that it has not joined. -/
def State.joinable (s : State) (rid region ordinal : Nat) (ch : Chan) : Option ScanOp :=
  s.scans.find? (fun o => o.rid == rid && o.region == region && o.ch == ch && o.started.isNone
    && !o.contributions.any (fun c => c.ordinal == ordinal))

/-- A contribution joins its operation. -/
def State.contribute (s : State) (rid region w h : Nat) (ch : Chan) (c : Contribution) : State :=
  match s.joinable rid region c.ordinal ch with
  | some o =>
    { s with
      scans := replaceFirst (fun x => x.id == o.id)
        (fun x => { x with contributions := x.contributions ++ [c], lastAt := s.gtc.toNat }) s.scans }
  | none =>
    let k := (s.scans.filter (fun o => o.rid == rid && o.region == region && o.ch == ch)).length
    { s with
      nextId := s.nextId + 1
      scans := s.scans ++
        [{ id := s.nextId, rid := rid, region := region, ch := ch, k := k, w := w, h := h, contributions := [c]
           lastAt := s.gtc.toNat, started := none, mixed := false, carryIn := none, sent := false }] }

/-- The command of a scan: the lead contributes; another replica and a replay await the result. -/
def scanEffect (g : ScanArgs) (a b : Context → Vec) (m : MReg) (st s : State) : State :=
  let c := st.me
  let s0 := s.modHere (fun x => x.beginScan g.ch)
  match s0.inMode with
  | .follow => s0
  | .replay =>
    let n := scanElems g.affine
    let (ps, s1) := s0.scanPlaces n
    s1.modMe (fun c => { c with log := { c.log with
      scans := c.log.scans ++ ps.zipIdx.map (fun p => (g.q, if p.2 + 1 = n then some g.ch else none, p.1)) } })
  | .own =>
    let (ps, s1) := s0.scanPlaces (scanElems g.affine)
    let ws := match s1.record c.rid with
      | some r => r.words
      | none => []
    let (region, ordinal) := regionOf ws c.flat
    let (w, h) := regionSize ws
    s1.contribute c.rid region w h g.ch
      { ordinal := ordinal, tile := s.cur.tile, slot := s.cur.slot, uid := c.uid, q := g.q, affine := g.affine
        fmt := g.fmt, carry := g.carry, a := a c, b := b c, mask := c.mreg m
        after := if g.rel then s1.history c else [], places := ps, given := 0, num := s.nextId }

/-- An issued scan of a channel that has not delivered: four at most (R380). -/
def scanBlock (s : State) (ch : Chan) : Option BlockCond :=
  if 4 ≤ s.here.scans[ch.toNat]'ch.isLt then some (.scanFull ch) else none

/-- The queue of a scan holds 256-byte elements (Table 13-1). -/
def scanCheck (c : Context) (q : HReg) : Option Trap :=
  if (c.queue q).configured && (c.queue q).elemBytes == 256 then none
  else some { name := .queueConfig, tval := q.setWidth 64 }

def scanMeaning (f : Fmt) (a : VReg) (q : HReg) (ch : Chan) (carry : Bool) (m : MReg) (_acq rel : Bool) : Meaning :=
  { block := fun s => scanBlock s ch
    check := fun s => scanCheck s.me q
    effect := scanEffect { q := q, ch := ch, affine := false, fmt := f, carry := carry, rel := rel }
      (fun c => c.vreg a) (fun _ => 0) m }

def scanaMeaning (f : ScanaFmt) (a b : VReg) (q : HReg) (ch : Chan) (carry : Bool) (m : MReg) : Meaning :=
  { block := fun s => scanBlock s ch
    check := fun s => scanCheck s.me q
    effect := scanEffect { q := q, ch := ch, affine := true, fmt := ScanaFmt.fmt f, carry := carry, rel := false }
      (fun c => c.vreg a) (fun c => c.vreg b) m }

/-! ### Links of the state channels

Links 0–3 stand on the west side, 4–7 on the east, 8–11 on the north, 12–15 on the south and 16–47 are the switch
ports; the spec numbers none (PRESUMED, unsafe; log entry 14). -/

/-- Some link of a side of four is up. -/
def Platform.sideUp (p : Platform) (first : Nat) : Bool :=
  (List.range 4).any (fun i => p.linksUp.getLsbD (first + i))

/-- The grid position of a node in its group (R265). -/
def nodeGx (n : BitVec 21) : Nat := natBits n.toNat 0 3

/-- The west and the east neighbour, where there is a connected one. -/
def State.westNode (s : State) : Option (BitVec 21) :=
  if nodeGx s.node ≠ 0 ∧ s.platform.nodes.contains (s.node - 1) = true ∧ s.platform.sideUp 0 = true then some (s.node - 1)
  else none

def State.eastNode (s : State) : Option (BitVec 21) :=
  if nodeGx s.node ≠ 7 ∧ s.platform.nodes.contains (s.node + 1) = true ∧ s.platform.sideUp 4 = true then some (s.node + 1)
  else none

/-! ### The start of an operation (R258, R259, R264, R440) -/

/-- Some tile gave `.carry`. -/
def ScanOp.carries (o : ScanOp) : Bool := o.contributions.any (fun c => c.carry)

/-- Every tile of the region has contributed. -/
def ScanOp.full (o : ScanOp) : Bool := decide (o.w * o.h ≤ o.contributions.length)

/-- Every tile has its result. -/
def ScanOp.delivered (o : ScanOp) : Bool :=
  o.started.isSome && o.contributions.all (fun c => decide (scanElems c.affine ≤ c.given))

/-- The tiles differ in kind, format or carry. -/
def mixedScan (cs : List Contribution) : Bool :=
  match cs with
  | [] => false
  | c :: rest => rest.any (fun d => d.affine != c.affine || d.fmt != c.fmt || d.carry != c.carry)

/-- Another operation uses the state channel. -/
def State.channelTaken (s : State) (o : ScanOp) : Bool :=
  s.scans.any (fun x => x.id != o.id && x.ch == o.ch && x.started.isSome && x.carries && !x.delivered)

/-- The one of a format, as a component of the identity pair. -/
def oneOf (f : Fmt) : Nat := (roundT f .nearest { m := 1, e := 0 }).1

/-- The carry that a package with no connected west neighbour takes. -/
def identityCarry (c : Contribution) : Carry :=
  if c.affine then
    { valid := true, sums := [], marks := []
      pairs := List.replicate 64 (BitVec.ofNat 32 (oneOf c.fmt), 0) }
  else
    let n := c.fmt.width.lanes
    { valid := true, sums := List.replicate n Quire.zero, marks := List.replicate n 0, pairs := [] }

def State.modScan (s : State) (id : Nat) (f : ScanOp → ScanOp) : State :=
  { s with scans := replaceFirst (fun o => o.id == id) f s.scans }

/-- The carry of a list of words: for a SCAN eleven words a lane, the ten of the exact sum and the marks; for a SCANA
one word a lane, b above a. No words are an invalid carry. -/
def carryOfWords (affine : Bool) (lanes : Nat) (ws : List Word) : Carry :=
  if ws.isEmpty then { valid := false, sums := [], marks := [], pairs := [] }
  else if affine then
    { valid := true, sums := [], marks := []
      pairs := (List.range 64).map (fun i => (fld (ws.getD i 0) 0 32, fld (ws.getD i 0) 32 32)) }
  else
    { valid := true
      sums := (List.range lanes).map (fun i =>
        { bits := BitVec.ofNat 640 (natOfBytes (bytesOfWords ((ws.drop (11 * i)).take 10))), nar := false, ovf := false })
      marks := (List.range lanes).map (fun i => fld (ws.getD (11 * i + 10) 0) 0 5)
      pairs := [] }

/-- The words of a carry in the format of an operation. -/
def Contribution.takeCarry (c : Contribution) (ws : List Word) : Carry :=
  carryOfWords c.affine c.fmt.width.lanes ws

/-- The operation starts in the cycle after the last command: a `.carry` operation waits for its state channel, and takes
the identity where there is no west neighbour. A mixed operation waits for no carry. -/
def execScanOperationStart (oid : Nat) (s : State) : Host.Outcome State Fault Refusal :=
  match s.scans.find? (fun o => o.id == oid) with
  | none => .next s
  | some o =>
    let mixed := mixedScan o.contributions
    if o.started.isSome || !o.full || decide (s.gtc.toNat ≤ o.lastAt) || (o.carries && !mixed && s.channelTaken o) then
      .next s
    else
      let held := if o.carries then s.carries.find? (fun h => h.ch == o.ch && h.k == o.k) else none
      let carryIn := match o.carryIn, held, o.contributions with
        | some c, _, _ => some c
        | none, some h, c :: _ => some (c.takeCarry h.words, h.at_)
        | none, none, c :: _ =>
          if s.westNode.isNone && o.carries then some (identityCarry c, s.gtc.toNat) else none
        | none, _, [] => none
      let s1 : State := { s.modScan oid (fun o => { o with started := some s.gtc.toNat, mixed := mixed, carryIn := carryIn }) with
        carries := s.carries.filter (fun h => some h != held) }
      .next (if mixed then
          o.contributions.foldl (fun st c =>
            let asid := match st.uidCtx c.tile.toNat c.slot c.uid with
              | some x => x.asid
              | none => 0
            st.engineTrap c.tile.toNat c.slot c.uid asid { name := .queueConfig, tval := 80 + o.ch.setWidth 64 } c.num) s1
        else s1)

/-! ### Results -/

/-- Span of R262, from the rectangle of the region. -/
def ScanOp.span (o : ScanOp) : Nat :=
  let (x0, y0) := match o.contributions with
    | c :: _ => (tileX c.tile.toNat - c.ordinal % o.w, tileY c.tile.toNat - c.ordinal / o.w)
    | [] => (0, 0)
  let edge (a n : Nat) : Nat := if a / 16 = (a + n - 1) / 16 then 0 else 1
  2 * (o.w + o.h - 2) + 6 * (edge x0 o.w + edge y0 o.h)

/-- ⌈log2 n⌉. -/
def ceilLog2 (n : Nat) : Nat := if n ≤ 1 then 0 else (n - 1).log2 + 1

/-- T of Table 13-2. -/
def ScanOp.latency (o : ScanOp) (affine : Bool) : Nat :=
  let n := o.w * o.h
  let lam := if n ≤ 1 then 0 else 2 * ceilLog2 n - 1
  20 + o.span + (if affine then 10 else 4) * lam

/-- The cycle in which a result may reach its tile: s + T, or after the carry (R440); none before the carry has come. -/
def ScanOp.dueFor (o : ScanOp) (affine : Bool) : Option Nat :=
  match o.started with
  | none => none
  | some s0 =>
    let t := s0 + o.latency affine
    if o.carries && !o.mixed then
      o.carryIn.map (fun c => Nat.max t c.2 + (if affine then 10 else 4))
    else some t

/-- The contribution of an ordinal. -/
def ScanOp.ordinal (o : ScanOp) (i : Nat) : Option Contribution := o.contributions.find? (fun c => c.ordinal == i)

/-- The exact prefix of a carry. -/
def Carry.prefixes (c : Carry) : List Prefix :=
  (c.sums.zip c.marks).map (fun x =>
    { sum := x.1.toInt, nan := x.2.getLsbD 0, posInf := x.2.getLsbD 1, negInf := x.2.getLsbD 2
      allNegZero := !x.2.getLsbD 3, any := x.2.getLsbD 4 })

/-- A carry of exact prefixes. -/
def carryOfPrefixes (ps : List Prefix) : Carry :=
  { valid := true
    sums := ps.map (fun p => { bits := BitVec.ofInt 640 p.sum, nar := false, ovf := false })
    marks := ps.map (fun p => (flagBits [p.nan, p.posInf, p.negInf, !p.allNegZero, p.any] 0).setWidth 5)
    pairs := [] }

/-- Each lane's exact prefix over the ordinals up to one, after the carry. -/
def ScanOp.scanPrefixes (o : ScanOp) (f : Fmt) (i : Nat) : List Prefix :=
  let n := f.width.lanes
  let start := match o.carries, o.carryIn with
    | true, some (c, _) => c.prefixes
    | _, _ => List.replicate n Prefix.empty
  (List.range (i + 1)).foldl (fun acc j =>
    match o.ordinal j with
    | none => acc
    | some c =>
      let vals := (activeLanes f.width c.mask).zip (vecLanes f.width c.a)
      (acc.zip vals).map (fun x => x.1.add (if x.2.1 then decodeFmt f x.2.2 else .zero false))) start

/-- A pair of each lane, with the flags on which it depends (R439). -/
abbrev PairVec := List (Nat × Nat) × Flags

/-- One combine, the earlier pair on the left (R261). -/
def combinePair (f : Fmt) (p q : Nat × Nat) : (Nat × Nat) × Flags :=
  let (x, fx) := laneMul f q.1 p.1
  let (y, fy) := laneFma f false q.1 p.2 q.2
  ((x, y), fx ||| fy)

def combineVec (f : Fmt) (p q : PairVec) : PairVec :=
  let rs := (p.1.zip q.1).map (fun x => combinePair f x.1 x.2)
  (rs.map Prod.fst, rs.foldl (fun acc r => acc ||| r.2) (p.2 ||| q.2))

/-- The pairs that a contribution gives: (1, 0) in inactive lanes. -/
def Contribution.pairs (c : Contribution) : PairVec :=
  ((activeLanes .w32 c.mask).zip ((vecLanes .w32 c.a).zip (vecLanes .w32 c.b)) |>.map (fun x =>
    if x.1 then x.2 else (oneOf c.fmt, 0)), 0)

/-- x[i] := x[i − d] ∘ x[i] for the indices of a sweep. -/
def sweep (f : Fmt) (d : Nat) (xs : List PairVec) (is : List Nat) : List PairVec :=
  is.foldl (fun acc i =>
    match acc[i - d]?, acc[i]? with
    | some p, some q => acc.set i (combineVec f p q)
    | _, _ => acc) xs

/-- The fixed order of R261. -/
def scanaOrder (f : Fmt) (xs : List PairVec) : List PairVec :=
  let n := xs.length
  let l := ceilLog2 n
  let up := (List.range l).foldl (fun acc d =>
    sweep f (2 ^ d) acc ((List.range n).filter (fun i => decide (2 ^ (d + 1) - 1 ≤ i) && (i + 1) % 2 ^ (d + 1) == 0))) xs
  (List.range (l - 1)).reverse.foldl (fun acc d =>
    sweep f (2 ^ d) acc
      ((List.range n).filter (fun i => decide (3 * 2 ^ d - 1 ≤ i) && (i + 1 + 2 ^ d) % 2 ^ (d + 1) == 0))) up

/-- The pairs of every ordinal, the carry combined in where there is one. -/
def ScanOp.scanaPairs (o : ScanOp) (f : Fmt) : List PairVec :=
  let xs := (List.range (o.w * o.h)).map (fun i => match o.ordinal i with
    | some c => c.pairs
    | none => (List.replicate 64 (oneOf f, 0), 0))
  let rs := scanaOrder f xs
  match o.carries, o.carryIn with
  | true, some (c, _) =>
    let cs : PairVec := (c.pairs.map (fun p => (p.1.toNat, p.2.toNat)), 0)
    rs.map (fun r => combineVec f cs r)
  | _, _ => rs

/-- The canonical NaN, or NaR, in every lane. -/
def nanVec (f : Fmt) : List Byte := vecBytes (vecOf f.width (List.replicate f.width.lanes (canonicalNan f false)))

/-- The elements of a tile's result and their flags: those of every lane, also of the lanes whose own mask bit is 0, since the
prefix in them depends on the active lanes of other tiles (R118, R439). (DESIGN CHOICE, unsafe; log entry 66.) -/
def ScanOp.result (o : ScanOp) (c : Contribution) : List (List Byte) × Flags :=
  let invalid := match o.carryIn with
    | some (x, _) => o.carries && !x.valid
    | none => false
  if o.mixed || invalid then (List.replicate (scanElems c.affine) (nanVec c.fmt), 0)
  else if c.affine then
    match (o.scanaPairs c.fmt)[c.ordinal]? with
    | some r => ([vecBytes (vecOf .w32 (r.1.map Prod.fst)), vecBytes (vecOf .w32 (r.1.map Prod.snd))], r.2)
    | none => ([], 0)
  else
    let rs := (o.scanPrefixes c.fmt c.ordinal).map (fun p => p.result c.fmt)
    ([vecBytes (vecOf c.fmt.width (rs.map Prod.fst))], rs.foldl (fun acc r => acc ||| r.2) 0)

/-- The carry-out: C with the whole region's sum or C ∘ x[n − 1]; marked invalid where the operation is mixed or its
carry-in was. -/
def ScanOp.carryOut (o : ScanOp) : Carry :=
  let last := o.w * o.h - 1
  let invalid : Carry := { valid := false, sums := [], marks := [], pairs := [] }
  let bad := match o.carryIn with
    | some (x, _) => !x.valid
    | none => false
  if o.mixed || bad then invalid
  else match o.contributions with
    | [] => invalid
    | c :: _ =>
      if c.affine then
        match (o.scanaPairs c.fmt)[last]? with
        | some r =>
          { valid := true, sums := [], marks := []
            pairs := r.1.map (fun p => (BitVec.ofNat 32 p.1, BitVec.ofNat 32 p.2)) }
        | none => invalid
      else carryOfPrefixes (o.scanPrefixes c.fmt last)

/-! ### Delivery (R262, R263) -/

/-- A result whose element may be delivered now. -/
def deliverable (s : State) (o : ScanOp) (t : TileId) : Option (Contribution × List Byte) :=
  match o.contributions.find? (fun c => c.tile == t && decide (c.given < scanElems c.affine)) with
  | none => none
  | some c =>
    match o.dueFor c.affine with
    | none => none
    | some due =>
      if due ≤ s.gtc.toNat ∧ (o.contributions.flatMap Contribution.after).any (fun id => s.openOp id) = false then
        ((o.result c).1[c.given]?).map (fun bs => (c, bs))
      else none

/-- The context of a record that a pre-emption has saved. -/
def State.savedCtx (s : State) (rid uid : Nat) : Option SavedCtx :=
  (s.record rid).bind (fun r => r.savedCtxs.find? (fun x => x.ctx.uid == uid))

/-- An element written into the saved queue image of a context (Table 13-6). -/
def State.pushSaved (s : State) (rid : Nat) (x : SavedCtx) (q : HReg) (bs : List Byte) (fl : Flags) : State :=
  let qu := x.ctx.queue q
  let j := qu.prod.toNat + qu.resv.length
  let e : QElem := { complete := s.gtc.toNat, poison := none }
  let c1 := x.ctx.setQueue q ((qu.settle (qu.resv ++ [{ id := 0, done := some e, logAt := none }])).load bs)
  let c2 := { c1 with special := { c1.special with fstat := orFstat c1.special.fstat fl } }
  let s1 := s.modRecord rid (fun r => { r with
    savedCtxs := r.savedCtxs.map (fun (y : SavedCtx) => if y.ctx.uid = x.ctx.uid then { y with ctx := c2 } else y) })
  match s.record rid with
  | none => s1
  | some r =>
    let lo := recSpBase r.words * 65536
    let off := qu.place j
    match r.areas.find? (fun a => a.tile == x.tile) with
    | some a => if lo ≤ off ∧ off + bs.length ≤ lo + recSpSize r.words * 65536 then
        s1.writeArea a ((recParts r.words false).scratch + (off - lo)) bs else s1
    | none => s1

/-- The carry-out leaves east at the completion of its operation (R264). -/
def State.sendCarry (s : State) (o : ScanOp) : State :=
  let due := match o.contributions with
    | c :: _ => o.dueFor c.affine
    | [] => none
  match due with
  | some d =>
    if o.carries && !o.sent && decide (d ≤ s.gtc.toNat) then
      let s1 := s.modScan o.id (fun o => { o with sent := true })
      match s.eastNode with
      | some _ => { s1 with out := s1.out ++ [.carry o.ch o.k o.carryOut] }
      | none => s1
    else s
  | none => s

/-- The bookkeeping of one delivered element. -/
def State.scanGiven (s : State) (o : ScanOp) (c : Contribution) (resident : Bool) : State :=
  let s1 := s.modScan o.id (fun o => { o with
    contributions := replaceFirst (fun d => d.ordinal == c.ordinal) (fun d => { d with given := d.given + 1 })
      o.contributions })
  if resident && c.given + 1 == scanElems c.affine then
    s1.modTile c.tile.toNat (fun x => x.endScan (some o.ch))
  else s1

/-- An element of a lead's result goes to the other replicas, which a save has left waiting too, and into the log; what the
handler of VOTE_MINORITY has issued stays with the lead (R263, R273, R281). -/
def State.scanInput (s : State) (x : Context) (o : ScanOp) (c : Contribution) (bs : List Byte) (fl : Flags) : State :=
  let s1 := if x.inHandler c.num then s
    else s.share x x.bcnt (if c.given + 1 = scanElems c.affine then 1 + o.ch.toNat else 0) (.elem c.q bs none fl)
  match c.places[c.given]? with
  | some p => s1.writeLog x.asid p 8 x.bcnt (wordsOfBytes 32 bs)
  | none => s1

/-- A result reaches the queue of a tile, where it has room; its flags land with its last element. The lead's result
goes to the other replicas and into the log. The first delivery of an operation at its completion sends its carry-out. -/
def execScanDelivery (oid : Nat) (t : TileId) (s0 : State) : Host.Outcome State Fault Refusal :=
  match s0.scans.find? (fun o => o.id == oid) with
  | none => .next s0
  | some o =>
    let s := s0.sendCarry o
    match deliverable s o t with
    | none => .next s
    | some (c, bs) =>
      let last := decide (c.given + 1 = scanElems c.affine)
      let fl : Flags := if last then (o.result c).2 else 0
      match s.uidCtx t.toNat c.slot c.uid with
      | some x =>
        if (x.queue c.q).full then .next s
        else
          let s1 := s.pushElem t.toNat c.slot c.uid c.q none bs none
          let s2 := s1.engineFlags t.toNat c.slot c.uid fl
          .next ((s2.scanInput x o c bs fl).scanGiven o c true)
      | none =>
        match s.savedCtx o.rid c.uid with
        | some x =>
          if (x.ctx.queue c.q).full then .next s
          else .next (((s.pushSaved o.rid x c.q bs fl).scanInput x.ctx o c bs fl).scanGiven o c false)
        | none => .next (s.scanGiven o c false)

/-! ### Carries from the west (R264, R440) -/

/-- The operation that a carry names, of those that have not delivered. -/
def carryNames (x : CarryFor) (o : ScanOp) : Bool :=
  match x with
  | .op oid => o.id == oid
  | .channel ch k => o.ch == ch && o.k == k && !o.delivered

/-- A carry arrives for an operation; one that comes before any tile has joined its operation is held by its channel until
the operation starts. Each operation takes one. (DEDUCED, safe; log entry 49.) -/
def execCarryArrival (op : CarryFor) (carry : List Word) (s : State) : Host.Outcome State Fault Refusal :=
  match s.scans.find? (carryNames op) with
  | some o =>
    match o.carryIn, o.contributions with
    | none, c :: _ => .next (s.modScan o.id (fun o => { o with carryIn := some (c.takeCarry carry, s.gtc.toNat) }))
    | _, _ => .next s
  | none =>
    match op with
    | .op _ => .next s
    | .channel ch k =>
      .next (if s.carries.any (fun h => h.ch == ch && h.k == k) then s
        else { s with carries := s.carries ++ [{ ch := ch, k := k, words := carry, at_ := s.gtc.toNat }] })

/-! ### Instructions -/

def execScan (f : Fmt) (a : VReg) (q : HReg) (ch : Chan) (carry : Bool) (m : MReg) (acq rel : Bool) (s : State) :
    Host.Outcome State Fault Refusal :=
  runSyllable (.scan f a q ch carry m acq rel) (scanMeaning f a q ch carry m acq rel) s
def execScana (f : ScanaFmt) (a b : VReg) (q : HReg) (ch : Chan) (carry : Bool) (m : MReg) (s : State) :
    Host.Outcome State Fault Refusal :=
  runSyllable (.scana f a b q ch carry m) (scanaMeaning f a b q ch carry m) s

end Sys2Proof.Machine
end

