-- ==== Sys2Proof/Machine/Retire.lean ====
section
/-! DEFINITION. How a context leaves its slot: what it gives back when it becomes Free, at the end of its drain (R35) or
when a vote, an abort or a reset takes it away (R219, R256, R280, R298, R315), and the condition of its drain. -/

namespace Sys2Proof.Machine

/-! ### What a context holds -/

/-- Transfer, grammar and matrix commands of a context end without STATUS writes or posts. -/
def Tile.dropCommands (x : Tile) (uid gtc : Nat) : Tile :=
  let chans := x.channels.map (fun (ch : Channel) =>
    match ch.run with
    | some r => if r.cmd.uid = uid then { ch with run := none, freeAt := gtc + 1 } else ch
    | none => ch)
  let front := match x.geu.queue with
    | c :: _ => c.uid == uid
    | [] => false
  let run := match x.mxu.run with
    | some r => if r.uid = uid then none else some r
    | none => none
  { x with
    buffer := x.buffer.filter (fun c => c.uid != uid)
    channels := chans
    done := x.done.filter (fun d => d.cmd.uid != uid)
    mxu := { x.mxu with run := run, ops := x.mxu.ops.filter (fun o => o.uid != uid) }
    geu := { x.geu with
      queue := x.geu.queue.filter (fun c => c.uid != uid)
      running := if front then none else x.geu.running
      startAt := if front then gtc else x.geu.startAt } }

/-- The claim of a context is released; `clear` also clears the accumulators. -/
def Tile.dropClaim (x : Tile) (uid : Nat) (clear : Bool) : Tile :=
  let m := x.mxu
  let waiting := match m.clearing with
    | some (_, u, _) => u == uid
    | none => false
  let m1 := if waiting then { m with clearing := none } else m
  if x.owns uid then { x with mxu := { m1 with owner := none, acc := if clear then [] else m1.acc } }
  else { x with mxu := m1 }

/-- Wake comparators and tokens of a context. -/
def Tile.dropWake (x : Tile) (uid : Nat) : Tile :=
  { x with
    comparators := x.comparators.map (fun (c : Option Comparator) => c.filter (fun c => c.uid != uid))
    ending := x.ending.filter (fun y => y.2.1.uid != uid)
    tokens := x.tokens.filter (fun t => t.uid != uid) }

/-- Whether a replicated context is bound on a tile. -/
def Tile.replicated (x : Tile) : Bool :=
  allSlots.any (fun k => [Bank.primary, Bank.second].any (fun b =>
    (x.ctx k b).status.bound && (x.ctx k b).replica.group != 0))

/-- The slot of a context is free again; when the last replicated context has left, the release buffer reads as zeros
(R147). -/
def Tile.freeSlot (x : Tile) (k : SlotNo) (b : Bank) : Tile :=
  let y := x.setCtx k b Context.reset
  if x.replicated && !y.replicated then { y with scratch := clearRange y.scratch 0x1F0000 0x10000 } else y

/-! ### Loads in flight -/

/-- Loads of a context deliver nothing more; its writes go on. -/
def State.dropLoads (s : State) (uid : Nat) : State :=
  { s with
    flights := (s.flights.filter (fun f => !(f.issuer.uid == uid && f.sink != .none && (!f.writes || !f.isOpen)))).map
      (fun f => if f.issuer.uid = uid then { f with sink := .none } else f)
    watches := s.watches.filter (fun w => w.uid != uid)
    tongs := s.tongs.filter (fun i => i.uid != uid)
    mmp := { s.mmp with faults := s.mmp.faults.filter (fun f => match f.who with
      | .ctx _ _ u => u != uid
      | .commit _ _ u => u != uid
      | .channel _ _ _ | .scheduler _ => true) } }

/-- A contribution whose result a context awaits: its own, or that of the lead of its group. -/
def State.scanOf (s : State) (c : Contribution) (uid : Nat) : Bool :=
  c.uid == uid || s.groups.any (fun g => g.members.any (fun m => m.2.2.2 == uid) && g.members.any (fun m => m.2.2.2 == c.uid))

/-- The scans of a context that are not delivered no longer count against its tile. -/
def State.dropScans (s : State) (t uid : Nat) : State :=
  s.scans.foldl (fun st o => o.contributions.foldl (fun st c =>
    if s.scanOf c uid && decide (c.given < scanElems c.affine) then st.modTile t (fun x => x.endScan (some o.ch)) else st) st) s

/-! ### A context becomes Free -/

/-- The record no longer has the context. -/
def State.leaveRecord (s : State) (c : Context) : State :=
  s.modRecord c.rid (fun r => { r with left := r.left.filter (fun u => u != c.uid) })

/-- A context becomes Free at the end of its drain (R35): its claim is released. -/
def State.retire (s : State) (t : Nat) (k : SlotNo) (b : Bank) : State :=
  let c := s.ctx t k b
  ((s.leaveRecord c).modTile t (fun x => ((x.dropClaim c.uid false).dropWake c.uid).freeSlot k b))

/-- A context becomes Free whatever its state: its commands, loads and scans end with it. -/
def State.remove (s : State) (t : Nat) (k : SlotNo) (b : Bank) : State :=
  let c := s.ctx t k b
  (((s.leaveRecord c).dropScans t c.uid).dropLoads c.uid).modTile t (fun x =>
    (((x.dropCommands c.uid s.gtc.toNat).dropClaim c.uid true).dropWake c.uid).freeSlot k b)

/-! ### The drain (R35) -/

/-- An access on behalf of a context, or a multicast store of it. -/
def State.inFlight (s : State) (uid : Nat) : Bool :=
  s.flights.any (fun f => f.issuer.owner == uid) || s.mcasts.any (fun m => m.uid == uid)

/-- The drain of a context is complete: nothing is pending in its landing queue, every command of it has posted, and
what it issued has been performed; in a replica, the last vote has committed. -/
def drained (s : State) (t : Nat) (k : SlotNo) (b : Bank) : Bool :=
  let c := s.ctx t k b
  c.status == .draining && c.landing.all (fun l => l.arrived) && !(s.tile t).commands.any (fun x => x.2 == c.uid)
    && !s.inFlight c.uid && c.replica.cuts.isEmpty && c.replica.buffer.isEmpty

/-- What the engines of a Draining replica wrote after its EXIT is held behind the last cut: the drain makes one more, so
that the vote covers it, and a transfer that waits for its own held writes can post. (DEDUCED, unsafe; log entry 33.) -/
def drainHolds (s : State) (t : Nat) (k : SlotNo) (b : Bank) : Bool :=
  let c := s.ctx t k b
  let x := s.tile t
  c.status == .draining && !x.commands.any (fun y => y.2 == c.uid && !x.done.any (fun d => d.cmd.cid == y.1))
    && c.replica.cuts.isEmpty && !c.replica.buffer.isEmpty

/-- The pending landings of a Draining context commit in the order of their landing bundles; QUIRE_OVERFLOW and MEM_DATA
of them are posted (R313). -/
def State.drainLandings (s : State) (t : Nat) (k : SlotNo) (b : Bank) : State :=
  let c := s.ctx t k b
  (sortDue c.bcnt c.landing).foldl (fun st l =>
    match l.poison with
    | some v => st.postFault (mkFault st 1 TrapName.memData.code t k c.asid v c.pc)
    | none =>
      match l.event with
      | some tr => st.postFault (mkFault st 1 tr.name.code t k c.asid tr.tval c.pc)
      | none =>
        match l.write with
        | .q r _ =>
          if l.overflow && c.special.qcfg.getLsbD 0 then
            st.postFault (mkFault st 1 TrapName.quireOverflow.code t k c.asid (r.setWidth 64) c.pc)
          else st
        | .s _ _ | .p _ _ | .v _ _ | .m _ _ | .k _ _ => st) s

/-- A Draining context becomes Free, and its record may be complete; or its last held writes are cut for their vote. -/
def execDrainComplete (t : TileId) (k : SlotNo) (s : State) : Host.Outcome State Fault Refusal :=
  if drained s t.toNat k .primary then .next ((s.drainLandings t.toNat k .primary).retire t.toNat k .primary)
  else if drained s t.toNat k .second then .next ((s.drainLandings t.toNat k .second).retire t.toNat k .second)
  else
    .next (([Bank.primary, Bank.second] : List Bank).foldl (fun st b =>
      let c := st.ctx t.toNat k b
      if drainHolds st t.toNat k b then st.cutOf t.toNat k c.uid .exit 0 c.bcnt else st) s)

end Sys2Proof.Machine
end

