-- ==== Sys2Proof/Machine/Replica.lean ====
section
/-! DEFINITION. Replica groups at work: the deliveries of Tongs (R273 to R275), votes and what they commit (R278 to R281,
R286, R447, R450), and the loss of a die (R309, R310). -/

namespace Sys2Proof.Machine

/-! ### Tongs (R274) -/

def State.dropTongs (s : State) (id : Nat) : State := { s with tongs := s.tongs.filter (fun i => i.id != id) }

/-- A landing of a context that awaits a tag, in its queue or in its trap shadow. -/
def Context.awaitsAny (c : Context) (tag : Nat) : Bool :=
  (c.awaits tag).isSome || (match c.shadow with
    | some sh => sh.landing.any (fun l => l.isFor tag)
    | none => false)

/-- A vector arrives for a landing: the lanes of its mask are written. -/
def State.arriveVec (s : State) (t : Nat) (k : SlotNo) (uid tag : Nat) (x : Vec) : State :=
  let merged (l : Landing) : Write :=
    match l.write with
    | .v _ old => l.write.withVec (vecOf .w32 (mergeLanes (activeLanes .w32 l.lanes) (vecLanes .w32 x) (vecLanes .w32 old)))
    | .s _ _ | .p _ _ | .m _ _ | .q _ _ | .k _ _ => l.write
  let upd (l : Landing) : Landing := { l with write := merged l, arrived := true, arrivedAt := s.gtc.toNat }
  s.modUid t k uid (fun c =>
    if (c.awaits tag).isSome then c.arrive tag s.gtc.toNat (fun l => { l with write := merged l })
    else
      { c with shadow := c.shadow.map (fun sh =>
          { sh with landing := replaceFirst (fun l => l.isFor tag) upd sh.landing }) })

/-- What a delivery does to its context; none while the context does not yet await it. -/
def State.tongsInto (s : State) (i : TongsItem) (c : Context) : Option State :=
  let t := i.tile.toNat
  match i.val with
  | .word _ x poison ev => if c.awaitsAny i.src then some (s.arriveWord t i.slot i.uid i.src x poison ev) else none
  | .vec x => if c.awaitsAny i.src then some (s.arriveVec t i.slot i.uid i.src x) else none
  | .elem q bs poison fl =>
    if tongsKey 0 .sa ≤ i.src then
      if (c.queue q).resv.any (fun r => r.id == i.src) then some (s.fillResv t i.slot i.uid q i.src bs poison) else none
    else if c.bcnt.ult i.at_ || (c.queue q).full then none
    else
      some (((s.pushElem t i.slot i.uid q (some (tongsKey i.at_ .sa)) bs poison).engineFlags t i.slot i.uid fl).modTile t (fun x =>
        x.endScan (if i.src = 0 then none else some (BitVec.ofNat 2 (i.src - 1)))))
  | .report x =>
    match (s.tile t).bankOf i.slot i.uid with
    | some b =>
      if c.status == .blocked .reportAwaited && c.bcnt == i.at_ then
        some (s.modUid t i.slot i.uid (fun c =>
          { c with observed := some x, status := unblocked b, cleared := some .reportAwaited }))
      else none
    | none => none
  | .trap x => if c.bcnt.ult i.at_ then none else some (s.postEvent t i.slot i.uid c.asid x)
  | .bytes off bs =>
    some (s.modTile t (fun x => { x with
      scratch := writeBytes x.scratch linear x.limit (BitVec.ofNat 64 off) bs }.wake (s.muted t) 2 0 (BitVec.ofNat 64 off)
        bs.length s.gtc.toNat))
  | .chunk pieces ended fl pops => s.followChunk i.tile i.uid i.src pieces ended fl pops

/-- Bytes for the scratchpad of a replica that come before a delivery: they are written first (R275). -/
def State.bytesBefore (s : State) (i : TongsItem) : Bool :=
  s.tongs.any (fun j => j.uid == i.uid && j.val.writes && decide (j.id < i.id))

/-- Tongs delivers a value of the lead to another live replica, once that replica awaits it; what a saved one has still to
receive waits for its restore. -/
def execTongsDelivery (id : Nat) (s : State) : Host.Outcome State Fault Refusal :=
  match s.tongs.find? (fun i => i.id == id) with
  | none => .next s
  | some i =>
    match s.uidCtx i.tile.toNat i.slot i.uid with
    | none =>
      .next (if s.records.any (fun r => r.savedCtxs.any (fun x => x.ctx.uid == i.uid)) then s else s.dropTongs id)
    | some c =>
      if !i.val.writes && s.bytesBefore i then .next s
      else match s.tongsInto i c with
        | some s1 => .next (s1.dropTongs id)
        | none => .next s

/-! ### Held records at a commit (R203, R276, R450) -/

/-- What performing one record comes to. -/
inductive Commit where
  | done (s : State)
  /-- Needs that the MMP has still to serve, with TVAL of the access. -/
  | wait (ns : List Need) (tval : Word)
  | trap (s : State) (tr : Trap)

/-- The fields of a record's header (Table 14-4). -/
def heldKind (h : HeldWrite) : Nat := natBits (h.words.headD 0).toNat 60 4
def heldSize (h : HeldWrite) : Nat := natBits (h.words.headD 0).toNat 52 8 + 1
def heldAddr (h : HeldWrite) : Word := h.words.headD 0 &&& 0xFFFFFFFFFFFFF
def heldWord (h : HeldWrite) (i : Nat) : Word := (h.words.drop i).headD 0

/-- A record of the bytes of a transfer into D (R276). -/
def HeldWrite.ofTransfer (h : HeldWrite) : Bool := heldKind h == 3 && h.aux != 0

/-- The data bytes behind n address words. -/
def heldBytes (h : HeldWrite) (n : Nat) : List Byte := (bytesOfWords (h.words.drop (n + 1))).take (heldSize h)

/-- A write of a committed record on its way, under the number of its record: it follows what it followed when it was held,
and what an access issued now would (R203). -/
def State.commitFlight (s : State) (t : TileId) (k : SlotNo) (c : Context) (h : HeldWrite) (space : Space)
    (us : List AccessUnit) (o : OrderClass) (sink : Sink) (n : Nat) (tval : Word) (lat : Nat) : State :=
  if us.isEmpty then s
  else
    let c0 := { c with fenceRel := h.follows, acquiring := [] }
    s.addFlight
      { id := h.id, issuer := .ctx t k c.uid, space := space, asid := c.asid, units := us
        after := s.afterOf c0 t.toNat us true o, sink := sink, data := List.replicate n 0, poison := none, tval := tval
        hist := if o.carries then s.history c else [], cmd := h.cmd
        causal := o.isCausal, writes := true, at_ := h.at_, lat := lat
        due := s.gtc.toNat + (if space = .n then lat else lat / 2) }

/-- The fault record of a commit that the MMP has refused. -/
def FaultRec.refusedFor (f : FaultRec) (uid : Nat) (ns : List Need) : Bool :=
  match f.who, f.stage with
  | .commit _ _ u, .answered (some _) => u == uid && f.needs.any (fun n => ns.contains n)
  | _, _ => false

/-- A translated write: the checks of R450, then the access. (DEDUCED, unsafe; log entry 33.) -/
def State.commitParts (s : State) (t : TileId) (k : SlotNo) (c : Context) (h : HeldWrite) (g : Target)
    (parts : List Part) (perm : BitVec 4) (exact : Bool) (op : Part → UnitOp) (o : OrderClass) (sink : Sink) (n : Nat) :
    Commit :=
  let ns := missesOf (parts.map (tableTrans s c.asid))
  if s.mmp.faults.any (fun f => f.refusedFor c.uid ns) then
    .trap { s with mmp := { s.mmp with faults := s.mmp.faults.filter (fun f => !f.refusedFor c.uid ns) } }
      { name := .translation, tval := g.tval ||| (1 : Word) <<< 62 }
  else if !ns.isEmpty then .wait ns g.tval
  else
    let found := parts.map (fun p => (p, tableTrans s c.asid p))
    let far := match g with
      | .tensor a _ _ => if a = 0 then none else (tableDesc s c.asid a.toNat).map descOf
      | .cap _ _ | .host _ _ => none
    if exact && anyOutside found then .trap s { name := .protection, tval := g.tval }
    else if (podTrap s.node far g.tval).isSome && !h.ofTransfer then .trap s { name := .protection, tval := g.tval }
    else if !permitted perm (found.map Prod.snd) then .trap s { name := .protection, tval := g.tval }
    else
      let order := if o = .plain then causalTarget found g else o
      let s2 := match g with
        | .tensor _ _ _ => s.countRequests t.toNat k c.uid found
        | .cap _ _ | .host _ _ => s
      .done (s2.commitFlight t k c h g.space (unitsOf op found) order sink n g.tval (accessLatency t.toNat found))

/-- The descriptor of a D record, where the flat view needs none: none of V = 0. -/
def commitDesc (s : State) (asid : BitVec 12) (a : Word) : Option (Option Desc) :=
  if a = 0 then some none
  else match tableDesc s asid a.toNat with
    | some w => if (descOf w).valid then some (some (descOf w)) else none
    | none => none

/-- The parts of a D record. A transfer's record holds bytes of consecutive elements. -/
def commitDParts (s : State) (d : Option Desc) (a coords : Word) (kind : DKind) (chunk : Option Nat)
    (behind : Option Nat := none) : List Part :=
  match d, chunk with
  | none, some n => flatParts coords.toNat n
  | none, none => flatAccess coords.toNat kind
  | some d, some n =>
    match behind with
    | some o => behindTile s d a.toNat coords o n
    | none => runParts s d a.toNat (stepC0 (coordsOf coords)) 0 n
  | some d, none => tensorParts s.node d a.toNat coords kind

/-- The order of a KIND 6, 7 or 8 record by its nibble; the post of an engine under REL has that of `.rel.sys`, and 8, which no
nibble has, stands for the post of a PUTN, a release at package scope (R194). -/
def nibbleClass (x : Word) : OrderClass :=
  if x = 8 then .release .pkg
  else match Ord.ofNibble (fld x 0 4) with
  | some o => ordClass o
  | none => .relaxed

/-- A D record that names one element: its size, and its descriptor's formats. A line of QRED that is not aligned in its tensor
raises ALIGN at the commit, in every replica, as what R450 applies there. (DEDUCED, unsafe; log entry 33.) -/
def State.commitExact (s : State) (t : TileId) (k : SlotNo) (c : Context) (h : HeldWrite) (a coords : Word) (kind : DKind)
    (fmts : List Nat) (op : Nat → Bool → UnitOp) (nib : Word) (sink : Nat → Bool → Sink) : Commit :=
  let g : Target := .tensor a coords kind
  match commitDesc s c.asid a with
  | none => .trap s { name := .protection, tval := g.tval }
  | some d =>
    let fmt := match d with
      | some d => d.fmt
      | none => 3
    let z := match d with
      | some d => d.elemBytes
      | none => 8
    if !fmts.contains fmt then .trap s { name := .protection, tval := g.tval }
    else match (if kind = .line then lineCheck d a coords else none) with
      | some tr => .trap s tr
      | none =>
        let sk := sink z (fmtSigned fmt)
        let n := if sk = .none then 0 else z
        s.commitParts t k c h g (commitDParts s d a coords kind none) 0b1110 true (fun _ => op z (fmtSigned fmt))
          (nibbleClass nib) sk n

/-- One held record performed by the lead. The header keeps 48 bits of a window offset and 32 of an N offset, and the write goes
there. (DEDUCED, unsafe; log entry 30.) -/
def State.commitRecord (s : State) (t : TileId) (k : SlotNo) (c : Context) (h : HeldWrite) : Commit :=
  let addr := heldAddr h
  match heldKind h with
  | 1 => .done (s.multicastAs h.id t c.uid h.aux (addr &&& 0xFFFFFFFFFFFF) (heldBytes h 0))
  | 2 =>
    let target := nTileId addr
    let o := addr &&& 0xFFFFFFFF
    let bs := heldBytes h 0
    .done (s.commitFlight t k c h .n (if h.aux = 0 then putUnits target o bs
        else nUnits target o bs.length (fun off len => .store ((bs.drop off).take len)))
      .causal .none 0 (nWord target o) (hopLatency t.toNat target.toNat))
  | 3 =>
    let a := addr &&& 0xFFFFF
    let coords := heldWord h 1
    let bs := padBytes (Nat.max 8 (heldSize h)) (heldBytes h 1)
    let kind : DKind := if bs.length = 8 then .elem else .vector
    match commitDesc s c.asid a with
    | none => .trap s { name := .protection, tval := dTval a coords }
    | some d =>
      s.commitParts t k c h (.tensor a coords kind)
        (commitDParts s d a coords kind (if h.aux = 0 then none else some (heldSize h))
          (if fld h.aux 0 3 = (2 : BitVec 3) then some (h.aux.toNat / 8) else none)) 0b0100 false
        (fun p => .store (p.slice bs)) .plain .none 0
  | 4 =>
    let bs := heldBytes h 0
    s.commitParts t k c h (.cap addr bs.length) (capParts addr.toNat bs.length) 0b0100 false
      (fun p => .store (p.slice bs)) .plain .none 0
  | 5 =>
    let bs := heldBytes h 1
    let a := heldWord h 1
    s.commitParts t k c h (.host a bs.length) (hostParts a.toNat bs.length) 0b0100 false
      (fun p => .store (p.slice bs)) .plain .none 0
  | 6 =>
    if natBits addr.toNat 50 2 = 2 then
      let target := nTileId addr
      let o := ctrOff addr
      let amt := BitVec.ofNat 64 (natOfBytes (heldBytes h 0))
      .done (s.commitFlight t k c h .n (nUnits target o 8 (fun _ _ => .cadd amt)) (nibbleClass h.aux) .none 0
        (nWord target o) (hopLatency t.toNat target.toNat))
    else
      s.commitExact t k c h (addr &&& 0xFFFFF) (heldWord h 1) .elem [3, 7]
        (fun _ _ => .cadd (BitVec.ofNat 64 (natOfBytes (heldBytes h 1)))) h.aux (fun _ _ => .none)
  | 7 =>
    let image : Quire := Quire.ofImage (BitVec.ofNat 640 (natOfBytes (heldBytes h 0)))
    s.commitExact t k c h (addr &&& 0xFFFFF) h.coords .line (List.range 32)
      (fun _ _ => .qred image.bits image.nar) h.aux (fun _ _ => .none)
  | 8 =>
    let op := heldWord h 2
    let ds := heldBytes h 2
    let v := BitVec.ofNat 64 (natOfBytes (ds.take 8))
    let w := BitVec.ofNat 64 (natOfBytes (ds.drop 8))
    s.commitExact t k c h (addr &&& 0xFFFFF) (heldWord h 1) .elem [0, 3, 4, 7]
      (fun _ sg => .atomic (fld op 0 6) v w sg) (op >>> 8) (fun z sg => .landing z sg)
  | _ => .done s

/-- The records of a commit in order. A record that traps is not performed. The last part is what the MMP has still to serve
for the first record that waits, with its TVAL. -/
def State.commitRecords (s : State) (t : TileId) (k : SlotNo) (uid : Nat) :
    List HeldWrite → State × List (HeldWrite × Trap) × Option (List Need × Word)
  | [] => (s, [], none)
  | h :: hs =>
    match s.uidCtx t.toNat k uid with
    | none => (s, [], none)
    | some c =>
      match s.commitRecord t k c h with
      | .wait ns v => (s, [], some (ns, v))
      | .done s1 => State.commitRecords s1 t k uid hs
      | .trap s1 tr =>
        let (s2, ts, w) := State.commitRecords s1 t k uid hs
        (s2, (h, tr) :: ts, w)

/-! ### Groups -/

/-- A member of a group: stack, tile, slot and context. -/
abbrev Member := BitVec 2 × TileId × SlotNo × Nat

def Group.liveMembers (g : Group) : List Member := g.members.filter (fun m => g.live.getLsbD m.1.toNat)

/-- The members that take part in a vote: a replica that a die loss has struck does not. -/
def Group.voters (g : Group) : List Member := g.liveMembers.filter (fun m => !g.lost.getLsbD m.1.toNat)

def State.member (s : State) (m : Member) : Option Context := s.uidCtx m.2.1.toNat m.2.2.1 m.2.2.2

def State.modMember (s : State) (m : Member) (f : Context → Context) : State := s.modUid m.2.1.toNat m.2.2.1 m.2.2.2 f

def State.modGroup (s : State) (id : Nat) (f : Group → Group) : State :=
  { s with groups := replaceFirst (fun g => g.id == id) f s.groups }

/-- The front cut of a member. -/
def State.frontCut (s : State) (m : Member) : Option Cut := (s.member m).bind (fun c => c.replica.cuts.head?)

/-- The lowest-numbered live stack (R272). -/
def Group.chooseLead (g : Group) : BitVec 2 :=
  match ([0, 1, 2, 3] : List (BitVec 2)).find? (fun t => g.live.getLsbD t.toNat) with
  | some t => t
  | none => g.lead

/-- A vote starts when every live replica has reached the cut (R278). -/
def execVoteStart (gid : Nat) (s : State) : Host.Outcome State Fault Refusal :=
  match s.groups.find? (fun g => g.id == gid) with
  | none => .next s
  | some g =>
    if g.voting.isNone && !g.voters.isEmpty && g.voters.all (fun m => (s.frontCut m).isSome) then
      .next (s.modGroup gid (fun g => { g with voting := some (s.gtc.toNat + 200), votes := g.votes + 1 }))
    else .next s

/-! ### The result of a vote (R280) -/

/-- What the comparison finds. -/
inductive Verdict where
  | agree
  | minority (m : Member)
  | mismatch
  deriving DecidableEq, Repr

def sameCut (a b : Option Cut) : Bool :=
  match a, b with
  | some x, some y => x.sig == y.sig && x.n == y.n
  | _, _ => false

def verdict (s : State) (g : Group) : Verdict :=
  let struck := g.liveMembers.find? (fun m => g.lost.getLsbD m.1.toNat)
  match g.voters, struck with
  | [a, b, c], none =>
    let ab := sameCut (s.frontCut a) (s.frontCut b)
    let ac := sameCut (s.frontCut a) (s.frontCut c)
    let bc := sameCut (s.frontCut b) (s.frontCut c)
    if ab && ac then .agree
    else if ab then .minority c
    else if ac then .minority b
    else if bc then .minority a
    else .mismatch
  | [a, b], none => if sameCut (s.frontCut a) (s.frontCut b) then .agree else .mismatch
  | [a, b], some m => if sameCut (s.frontCut a) (s.frontCut b) then .minority m else .mismatch
  | [_], none => .agree
  | _, _ => .mismatch

/-- The group halts: REPLICA_MISMATCH in each replica, and buffers are discarded. -/
def State.haltGroup (s : State) (g : Group) : State :=
  (g.liveMembers.foldl (fun st m =>
    (st.modMember m (fun c => { c with replica := { c.replica with buffer := [], cuts := [] } })).haltMismatch
      m.2.1.toNat m.2.2.1 m.2.2.2 (BitVec.ofNat 64 g.votes)) s).modGroup g.id (fun g => { g with voting := none })

/-- The inputs that a fenced lead has under way go to the new lead (R272, R273). -/
def State.inheritInputs (s : State) (old new : Member) : State :=
  match s.member old with
  | none => s
  | some o =>
    let waiting := o.landing ++ (match o.shadow with
      | some sh => sh.landing
      | none => [])
    let uncommitted (tag : Nat) : Bool :=
      o.replica.cuts.any (fun x => (x.kind == .atomic || x.kind == .rvote) && x.tag == tag)
    let retag (ls : List Landing) : List Landing := ls.map (fun l =>
      if l.arrived then l
      else match waiting.find? (fun w =>
          !w.arrived && !uncommitted w.tag && w.key != 0 && (w.key == l.key || w.key == l.tag)) with
        | some w => { l with tag := w.tag, key := w.key, logAt := w.logAt }
        | none => l)
    let mine := s.flights.filter (fun f => f.issuer.uid == old.2.2.2)
    let reid (q : Queue) : Queue := { q with resv := q.resv.map (fun r =>
      match mine.find? (fun f => tongsKey f.at_ .ma == r.id) with
      | some f => { r with id := f.id, logAt := (o.queues.toList.flatMap (fun (x : Queue) => x.resv)).findSome? (fun x =>
          if x.id = f.id then x.logAt else none) }
      | none => r) }
    let s1 := s.modMember new (fun c => { c with
      landing := retag c.landing
      shadow := c.shadow.map (fun sh => { sh with landing := retag sh.landing })
      queues := c.queues.map reid })
    let moved (o : ScanOp) (c : Contribution) : Option Contribution :=
      if c.uid ≠ old.2.2.2 then some c
      else if 0 < ((s.tile new.2.1.toNat).scans[o.ch.toNat]'o.ch.isLt) then
        some { c with tile := new.2.1, slot := new.2.2.1, uid := new.2.2.2 }
      else if o.started.isNone then none
      else some c
    { s1 with
      scans := s1.scans.map (fun o => { o with contributions := o.contributions.filterMap (moved o) })
      flights := s1.flights.map (fun f =>
        if f.issuer.uid = old.2.2.2 then { f with issuer := .ctx new.2.1 new.2.2.1 new.2.2.2 } else f) }

/-- The minority is fenced: it becomes Free, its LIVE bit clears, and the lead is chosen again. -/
def State.fence (s : State) (g : Group) (m : Member) : State :=
  let live := g.live &&& ~~~((1 : BitVec 4) <<< m.1.toNat)
  let lead := Group.chooseLead { g with live := live }
  let s1 := match g.members.find? (fun x => x.1 == lead) with
    | some n => if m.1 = g.lead then s.inheritInputs m n else s
    | none => s
  let s2 := match (s1.tile m.2.1.toNat).bankOf m.2.2.1 m.2.2.2 with
    | some b => s1.remove m.2.1.toNat m.2.2.1 b
    | none => s1
  s2.modGroup g.id (fun g => { g with live := live, lead := lead, red := 2, lost := g.lost &&& live })

/-- The records of a cut leave the buffer of a member. -/
def freeRecords (n : BitVec 32) (c : Context) : Context :=
  let r := c.replica
  { c with replica := { r with
      buffer := r.buffer.drop (n.toNat - r.freed), freed := n.toNat, cuts := r.cuts.tail } }

/-- What a commit of a cut brings besides its records: the count for RVOTE, the arrival at a barrier. -/
def State.afterCommit (s : State) (lead : Member) (cut : Cut) (committed : Nat) : State :=
  match cut.kind with
  | .rvote => s.arriveWord lead.2.1.toNat lead.2.2.1 lead.2.2.2 cut.tag (BitVec.ofNat 64 committed) none none
  | .barrier => match s.member lead with
    | some c => s.arriveBarrier c (BitVec.ofNat 3 (cut.tag % 8))
    | none => s
  | .release _ | .fence | .enginePost | .exit | .atomic | .full => s

/-- A record that trapped: an atomic that lands nothing is dropped in every replica. -/
def State.dropHeld (s : State) (g : Group) (lead : Member) (h : HeldWrite) : State :=
  if heldKind h = 8 then
    g.members.foldl (fun st m =>
      st.dropLanding m.2.1.toNat m.2.2.1 m.2.2.2 (if m.1 = lead.1 then h.aux.toNat else tongsKey h.at_ h.pos)) s
  else s

/-- The commit by the lead: its records up to the cut are performed and freed in every replica, and the trap of the first
refused record is raised in every replica (R450). It waits while the MMP serves a need. -/
def State.commitVote (s : State) (g : Group) (lead : Member) : Option State :=
  match s.member lead, s.frontCut lead with
  | some c, some cut =>
    let n := cut.n.toNat - c.replica.freed
    match s.commitRecords lead.2.1 lead.2.2.1 lead.2.2.2 (c.replica.buffer.take n) with
    | (_, _, some _) => none
    | (s1, traps, none) =>
      let s2 := g.liveMembers.foldl (fun st m => st.modMember m (freeRecords cut.n)) s1
      let s3 := traps.foldl (fun st x => st.dropHeld g lead x.1) s2
      let s4 := match traps with
        | (_, tr) :: _ => s3.engineTrap lead.2.1.toNat lead.2.2.1 lead.2.2.2 c.asid tr
        | [] => s3
      some (s4.afterCommit lead cut n)
  | _, _ => some s

/-- A commit that waits asks the MMP for what its first untranslated record lacks, in a fault record like any other (R172,
R450). -/
def State.commitWaits (s : State) (g : Group) (lead : Member) : State :=
  match s.member lead, s.frontCut lead with
  | some c, some cut =>
    match s.commitRecords lead.2.1 lead.2.2.1 lead.2.2.2 (c.replica.buffer.take (cut.n.toNat - c.replica.freed)) with
    | (_, _, some (ns, v)) =>
      let s1 := s.modGroup g.id (fun g => { g with voting := some (s.gtc.toNat + 1) })
      let who : Requester := .commit lead.2.1 lead.2.2.1 lead.2.2.2
      if s.mmp.faults.any (fun f => f.who == who) then s1
      else
        { s1 with
          nextId := s1.nextId + 1
          mmp := { s1.mmp with faults := s1.mmp.faults ++
            [{ id := s1.nextId, who := who, asid := c.asid, needs := ns
               stack := BitVec.ofNat 2 (stackOf lead.2.1.toNat), tval := v, stage := .walking
               due := s.gtc.toNat + 420 }] } }
    | _ => s
  | _, _ => s

/-- VOTE_MINORITY becomes pending in the lead, and the other live replica will be held at the lead's bundle (R281). -/
def State.raiseMinority (s : State) (gid : Nat) (fenced : BitVec 2) (lost : Bool) : State :=
  match s.groups.find? (fun g => g.id == gid) with
  | none => s
  | some g =>
    match g.members.find? (fun m => m.1 == g.lead) with
    | none => s
    | some m =>
      match s.member m with
      | none => s
      | some c =>
        let tval : Word := BitVec.ofNat 64 (g.votes % 2 ^ 32 * 2 ^ 32) ||| boolBit lost 8 ||| fenced.setWidth 64
        let s1 := if c.sup then s else s.modGroup gid (fun g => { g with holdAt := some c.bcnt })
        (s1.postEvent m.2.1.toNat m.2.2.1 m.2.2.2 c.asid { name := .voteMinority, tval := tval }).postFault
          (mkFault s 1 TrapName.voteMinority.code m.2.1.toNat m.2.2.1 c.asid tval c.pc)

/-- A vote ends: commit, commit with a fenced minority, or halt. -/
def execVoteResult (gid : Nat) (s : State) : Host.Outcome State Fault Refusal :=
  match s.groups.find? (fun g => g.id == gid) with
  | none => .next s
  | some g =>
    match g.voting with
    | none => .next s
    | some due =>
      if s.gtc.toNat < due then .next s
      else match verdict s g with
        | .mismatch => .next (s.haltGroup g)
        | .agree =>
          match g.members.find? (fun m => m.1 == g.lead) with
          | none => .next s
          | some lead =>
            match s.commitVote g lead with
            | some s1 => .next (s1.modGroup gid (fun g => { g with voting := none }))
            | none => .next (s.commitWaits g lead)
        | .minority m =>
          let leadStack := Group.chooseLead { g with live := g.live &&& ~~~((1 : BitVec 4) <<< m.1.toNat) }
          match g.members.find? (fun x => x.1 == leadStack) with
          | none => .next s
          | some lead =>
            match (s.fence g m).commitVote { g with live := g.live &&& ~~~((1 : BitVec 4) <<< m.1.toNat) } lead with
            | some s1 =>
              .next ((s1.modGroup gid (fun g => { g with voting := none })).raiseMinority gid m.1
                (g.lost.getLsbD m.1.toNat))
            | none => .next (s.commitWaits g lead)

/-! ### The loss of a die (R309, R310, R286) -/

/-- The virtual dies that a physical die stands for under a die map. -/
def virtualOf (map : Vector (Bool × BitVec 5) 17) (d : BitVec 5) : List Nat :=
  (List.range 17).filter (fun v => match map.toList[v]? with
    | some (ok, x) => ok && x == d
    | none => false)

/-- A context stands on a die that is lost: it halts. -/
def State.haltOn (s : State) (t : Nat) (k : SlotNo) (uid : Nat) (v : Nat) : State :=
  match s.uidCtx t k uid with
  | none => s
  | some c =>
    (s.modUid t k uid (fun c => { c with status := .halted })).postFault
      (mkFault s 4 TrapName.dieLost.code t k c.asid (BitVec.ofNat 64 v) c.pc)

/-- What the loss of virtual die v does to one context. -/
def State.loseDie (s : State) (t : Nat) (k : SlotNo) (b : Bank) (v : Nat) : State :=
  let c := s.ctx t k b
  if c.status.resident && c.special.tdm.getLsbD v then
    let own := decide (v = stackOf t)
    match s.groupOf c with
    | some g =>
      if g.liveMembers.length ≤ 2 then
        g.liveMembers.foldl (fun st m => st.haltOn m.2.1.toNat m.2.2.1 m.2.2.2 v) s
      else
        let s1 := s.modGroup g.id (fun g => { g with lost := g.lost ||| (1 : BitVec 4) <<< c.replica.stack.toNat })
        if own then s1.haltOn t k c.uid v
        else (s1.postEvent t k c.uid c.asid { name := .dieLost, tval := BitVec.ofNat 64 v }).postFault
          (mkFault s 5 TrapName.dieLost.code t k c.asid (BitVec.ofNat 64 v) c.pc)
    | none =>
      if own then s.haltOn t k c.uid v
      else (s.postEvent t k c.uid c.asid { name := .dieLost, tval := BitVec.ofNat 64 v }).postFault
        (mkFault s 5 TrapName.dieLost.code t k c.asid (BitVec.ofNat 64 v) c.pc)
  else s

/-- A command of a grammar unit keeps its matrix die when a physical die is lost. -/
def State.keepsDie (s : State) (t : Nat) (d : BitVec 5) (g : GeuCmd) : Bool :=
  !(virtualOf (s.mapOf (.engine (BitVec.ofNat 10 t) g.slot g.uid)) d).contains (4 + stackOf t)

/-- The grammar units on a lost matrix die discard their commands (Table 12-4). -/
def State.dropGrammar (s : State) (d : BitVec 5) : State :=
  { s with tiles := s.tiles.map (fun x =>
      let g := x.2.geu
      (x.1, { x.2 with geu := { g with
        queue := g.queue.filter (s.keepsDie x.1 d)
        running := g.running.filter (fun _ => (g.queue.take 1).all (s.keepsDie x.1 d)) } })) }

/-- A physical die is lost: DIE_LOST in exactly the contexts whose TDM holds a virtual die mapped to it. -/
def execDieLoss (d : BitVec 5) (s : State) : Host.Outcome State Fault Refusal :=
  let s1 := { s.dropGrammar d with
    platform := { s.platform with dieLive := s.platform.dieLive &&& ~~~((1 : BitVec 17) <<< d.toNat) } }
  .next (s.tiles.foldl (fun st x => allSlots.foldl (fun st k =>
    [Bank.primary, Bank.second].foldl (fun st b =>
      (virtualOf (st.ctx x.1 k b).dieMap d).foldl (fun st v => st.loseDie x.1 k b v) st) st) st) s1)

end Sys2Proof.Machine
end

