-- ==== Sys2Proof/Machine/Arrival.lean ====
section
/-! DEFINITION. Events of memory: an access reaches its home (R143, R160, R186), a late value or a queue element arrives
(R96, R327), a multicast store lands (R151, R152), the home of a watched counter answers (R337), and another package
refuses an access (R174). -/

namespace Sys2Proof.Machine

/-! ### A unit at its home -/

/-- A write through the N port of a tile, as against every other request. -/
def AccessUnit.nWrite (u : AccessUnit) : Bool :=
  match u.home, u.op with
  | .scratch _ _, .load => false
  | .scratch _ _, _ => true
  | _, _ => false

/-- The unit of a flight, where it is or is not a write through an N port. -/
def State.unitAt (s : State) (fid i : Nat) (nWrite : Bool) : Option (Flight × AccessUnit) :=
  match s.flights.find? (fun f => f.id == fid) with
  | some f =>
    match f.units[i]? with
    | some u => if u.nWrite == nWrite then some (f, u) else none
    | none => none
  | none => none

/-- The N port of the tile of a place is granted (R143). -/
def State.grantPort (s : State) : Home → State
  | .scratch t _ => s.grant t.toNat 4
  | .hbm _ | .lpddr _ | .host _ | .node _ _ _ | .nowhere => s

/-- A write of a transfer fails: its command ends with a status and a trap. -/
def State.refuseWrite (s : State) (t : TileId) (fid : Nat) (status : BitVec 8) (tr : XCmd → Trap) : State :=
  let s1 := ([0, 1, 2, 3] : List Chan).foldl (fun st ch =>
    match ((st.tile t.toNat).channel ch).run with
    | some r =>
      if r.writes.contains fid then st.endCommand t ch { r with held := [] } status (some (tr r.cmd)) else st
    | none => st) s
  s1.modTile t.toNat (fun x => { x with
    done := x.done.map (fun (d : XDone) =>
      if d.writes.contains fid && d.status == 1 then { d with status := status, trap := some (tr d.cmd) } else d) })

/-- MEM_DATA of a channel's write (R308). -/
def XCmd.writeTrap (x : XCmd) : Trap :=
  { name := .memData
    tval := BitVec.ofNat 64 (x.dstSpace * 2 ^ 61 + 2 ^ 60 + x.recOff % 2 ^ 21 * 2 ^ 32) ||| x.ch.setWidth 64 }

/-- MEM_DATA of an access that brings nothing back, once its last unit is performed: in its context at the next bundle, or in
the engine whose command it is. (DEDUCED, unsafe; log entry 35.) -/
def State.raiseUnheard (s : State) (f : Flight) (i : Nat) (u : AccessUnit) : State :=
  let own : Option Word := if u.op.reads && badAt s u.home u.len || s.lostHome (s.mapOf f.issuer) u.home u.entry then
    some (memDataTval s f u.home u.len) else none
  match f.poison.orElse (fun _ => own) with
  | none => s
  | some v =>
    if f.sink ≠ .none ∨ (f.units.zipIdx.any (fun x => x.2 != i && !x.1.done)) = true then s
    else match f.issuer with
      | .ctx t k uid => s.engineTrap t.toNat k uid f.asid { name := .memData, tval := v } f.id
      | .engine t k uid =>
        if f.cmd = 0 then s.refuseWrite t f.id 0x83 XCmd.writeTrap
        else s.engineTrap t.toNat k uid f.asid
          { name := .memData, tval := (v &&& (7 : Word) <<< 61) ||| (1 : Word) <<< 60 ||| f.report } f.cmd
      | .scheduler _ => s

/-- A core access to S that has waited is performed whole (R184): its units together, and a write meets the comparators once,
as class 3 (R418). -/
def State.performCore (s : State) (f : Flight) : Host.Outcome State Fault Refusal :=
  let t := f.issuer.place.1
  let done := (List.range f.units.length).foldl (fun (acc : Host.Outcome State Fault Refusal) j =>
    match acc with
    | .next st => st.performUnit f.id j 0
    | .fault e => .fault e
    | .refused r => .refused r) (.next s)
  match done with
  | .next s1 =>
    if f.writes && s.canPerform f 0 then
      .next (s1.modTile t (fun x => x.wakeBy (s1.muted t) 3 f.issuer.uid
        (fun lo hi => f.units.findSome? (fun u => firstIn lo hi u.off u.len)) s.gtc.toNat))
    else .next s1
  | .fault e => .fault e
  | .refused r => .refused r

/-- A unit is performed at its home, and what its access then reports. -/
def State.performHome (s : State) (f : Flight) (i : Nat) (u : AccessUnit) (ext : BitVec 640) :
    Host.Outcome State Fault Refusal :=
  match (if f.space = .s then s.performCore f else (s.grantPort u.home).performUnit f.id i ext) with
  | .next s1 => .next (if s.canPerform f i then s1.raiseUnheard f i u else s1)
  | .fault e => .fault e
  | .refused r => .refused r

/-- A request reaches its home and is performed there; `ext` is what a home outside the package returns. -/
def execHomePortAccess (fid unit : Nat) (ext : BitVec 640) (s : State) : Host.Outcome State Fault Refusal :=
  match s.unitAt fid unit false with
  | some (f, u) => s.performHome f unit u ext
  | none => .next s

/-- A write through the N port is granted at its bank and performed in the order of its tile. -/
def execIncomingNWrite (fid unit : Nat) (s : State) : Host.Outcome State Fault Refusal :=
  match s.unitAt fid unit true with
  | some (f, u) => s.performHome f unit u 0
  | none => .next s

/-! ### Data that arrive -/

/-- A loaded scalar of z bytes, extended to 64 bits as its type gives. -/
def extendLoad (z : Nat) (signed : Bool) (bs : List Byte) : Word :=
  let x := natOfBytes (bs.take z)
  if signed then BitVec.ofInt 64 (signedOf (8 * z) x) else BitVec.ofNat 64 x

def State.dropFlight (s : State) (id : Nat) : State := { s with flights := s.flights.filter (fun f => f.id != id) }

/-- The context that issued an access. -/
def Issuer.ctx? : Issuer → Option (TileId × SlotNo × Nat)
  | .ctx t k uid => some (t, k, uid)
  | .engine _ _ _ | .scheduler _ => none

/-- A context that waits for the value of a tag. -/
def State.awaiting (s : State) (tag : Nat) : Option (Nat × SlotNo × Context) :=
  s.tiles.findSome? (fun x => allSlots.findSome? (fun k => [Bank.primary, Bank.second].findSome? (fun b =>
    let c := x.2.ctx k b
    if c.status.bound && c.awaitsAny tag then some (x.1, k, c) else none)))

/-- A reply of another package's scheduler is due for a tag: of a CANCEL, or of a LAUNCH whose record went there. -/
def State.askedElsewhere (s : State) (tag : Nat) : Bool :=
  s.out.any (fun m => match m with
    | .cancel _ _ t => t == tag
    | .record _ _ o => o.node == s.node && o.tag == tag
    | _ => false)

/-- What another package's scheduler returns: for a CANCEL one of its three codes, for a LAUNCH a handle of that package
with a nonzero sequence number, or 0, which raises LAUNCH_FORMAT at the landing bundle with a reason of Table 15-2
(R290). Within these bounds the value is free (log entry 1). -/
def State.replyElsewhere (s : State) (t : Nat) (k : SlotNo) (uid tag : Nat) (addr : Word) : State :=
  let (x, s1) := s.freeWord
  let launched : Option (BitVec 21) := s.out.findSome? (fun m => match m with
    | .record n _ o => if o.node = s.node ∧ o.tag = tag then some n else none
    | _ => none)
  match launched with
  | none => s1.arriveWord t k uid tag (BitVec.ofNat 64 (x.toNat % 3)) none none
  | some n =>
    if (x.setWidth 32 : BitVec 32) = 0 then
      let (r, s2) := s1.freeWord
      s2.arriveWord t k uid tag 0 none
        (some { name := .launchFormat, tval := (addr &&& 0x1FFFFF) <<< 32 ||| BitVec.ofNat 64 (r.toNat % 10 + 1) })
    else s1.arriveWord t k uid tag (n.setWidth 64 <<< 32 ||| (x &&& 0xFFFFFFFF)) none none

/-- The word with which a landing was made: the record's address for a LAUNCH. -/
def Write.word : Write → Word
  | .s _ x => x
  | .k _ x => x
  | .p _ _ | .v _ _ | .m _ _ | .q _ _ => 0

/-- The landing of a tag, in the landing queue or in the trap shadow. -/
def Context.landingOf (c : Context) (tag : Nat) : Option Landing :=
  match c.awaits tag with
  | some l => some l
  | none => match c.shadow with
    | some sh => sh.landing.find? (fun l => l.isFor tag)
    | none => none

/-- A load of S that has waited: its landing, in the queue or in the trap shadow, takes the value. -/
def State.arriveCore (s : State) (t : Nat) (k : SlotNo) (uid : Nat) (f : Flight) (d : CoreDest) : State :=
  let upd (l : Landing) : Landing := { l with write := d.write l.write f.data, poison := f.poison }
  s.modUid t k uid (fun c =>
    if (c.awaits f.id).isSome then c.arrive f.id s.gtc.toNat upd
    else
      let ls (q : List Landing) : List Landing :=
        replaceFirst (fun l => l.isFor f.id) (fun l => upd { l with arrived := true, arrivedAt := s.gtc.toNat }) q
      { c with shadow := c.shadow.map (fun sh => { sh with landing := ls sh.landing }) })

/-- A late value arrives from its unit (R96): the data of an access whose units are all performed, or the reply of
another package's scheduler. -/
def execLateValueArrival (fid : Nat) (s : State) : Host.Outcome State Fault Refusal :=
  match s.flights.find? (fun f => f.id == fid) with
  | some f =>
    match f.issuer.ctx?, f.sink with
    | some (t, k, uid), .landing z sg =>
      if f.isOpen then .next s
      else .next (((s.noteSeen t.toNat k uid fid none f.seen).arriveWord t.toNat k uid fid (extendLoad z sg f.data) f.poison
        none).dropFlight fid)
    | some (t, k, uid), .core d =>
      if f.isOpen then .next s
      else .next (((s.noteSeen t.toNat k uid fid none f.seen).arriveCore t.toNat k uid f d).dropFlight fid)
    | _, _ => .next s
  | none =>
    match s.awaiting fid with
    | some (t, k, c) =>
      if s.askedElsewhere fid then
        .next (s.replyElsewhere t k c.uid fid (match c.landingOf fid with
          | some l => l.write.word
          | none => 0))
      else .next s
    | none => .next s

/-- The data of a queue-delivering load complete its reserved element (R327). -/
def execQueueElementDelivery (fid : Nat) (s : State) : Host.Outcome State Fault Refusal :=
  match s.flights.find? (fun f => f.id == fid) with
  | some f =>
    match f.issuer.ctx?, f.sink with
    | some (t, k, uid), .queue q eb z sg =>
      if f.isOpen then .next s
      else
        let bs := if z = 256 then f.data else padBytes eb (bytesOfNat 8 (extendLoad z sg f.data).toNat)
        .next (((s.noteSeen t.toNat k uid fid (some q) f.seen).arriveElem t.toNat k uid q fid 1 (tongsKey f.at_ .ma) bs f.poison).dropFlight fid)
    | _, _ => .next s
  | none => .next s

/-! ### Multicast landings -/

/-- The order of landings in one cycle: by issuing tile, then by bundle (R152). -/
def Mcast.before (a b : Mcast) : Bool :=
  decide (a.land < b.land) || (a.land == b.land && (decide (a.tile.toNat < b.tile.toNat)
    || (a.tile == b.tile && decide (a.id < b.id))))

/-- The slot whose context issued a multicast store. -/
def State.mcastSlot (s : State) (m : Mcast) : Option SlotNo :=
  allSlots.find? (fun k => ((s.tile m.tile.toNat).bankOf k m.uid).isSome)

/-- Whether a tile is lost to a multicast store (R310). -/
def State.mcastMisses (s : State) (m : Mcast) (t : Nat) : Bool :=
  s.dieLost (s.mapOf (.ctx m.tile ((s.mcastSlot m).getD 0) m.uid)) (stackOf t)

/-- A multicast store lands at one tile; a lost one keeps nothing (R310), nor does one that replays (R284). -/
def State.landAt (s : State) (m : Mcast) (t : Nat) : State :=
  let off := BitVec.ofNat 64 m.off
  if s.mcastMisses m t || s.replayTile t then s
  else ((s.modTile t (fun x =>
    { x with scratch := writeBytes x.scratch linear x.limit off m.bytes }.wake (s.muted t) 1 0 off m.bytes.length
      s.gtc.toNat)).mark ((Home.scratch (BitVec.ofNat 10 t) m.off).bytes m.bytes.length) [] false).shareBytes t off m.bytes

/-- MEM_DATA of a multicast store of which some tile is lost, at the lowest of them (R310). -/
def State.mcastLost (s : State) (m : Mcast) (ts : List Nat) : State :=
  match ts.find? (s.mcastMisses m), s.mcastSlot m with
  | some t, some k =>
    let asid : BitVec 12 := match s.uidCtx m.tile.toNat k m.uid with
      | some c => c.asid
      | none => 0
    s.engineTrap m.tile.toNat k m.uid asid
      { name := .memData, tval := memDataCore 1 (nWord (BitVec.ofNat 10 t) (BitVec.ofNat 64 m.off)) }
  | _, _ => s

/-- A multicast store lands at every tile of its window, after those that land before it. -/
def execMulticastLanding (mid : Nat) (s : State) : Host.Outcome State Fault Refusal :=
  match s.mcasts.find? (fun m => m.id == mid) with
  | none => .next s
  | some m =>
    if s.gtc.toNat < m.land || s.mcasts.any (fun n => n.before m) then .next s
    else
      let ts := rectTiles m.x0 m.y0 m.x1 m.y1
      .next ((ts.foldl (fun (st : State) t => st.landAt m t)
        { s with mcasts := s.mcasts.filter (fun n => n.id != mid) }).mcastLost m ts)

/-! ### Watches (R337) -/

/-- Where a watched counter lies now: the home of its frame, or, while its entry is under shoot-down or evicted, the copy
that holds its bytes (R176, R179). -/
def Watch.homeNow (s : State) (w : Watch) : Home :=
  match w.place.entry, w.place.home with
  | some a, .hbm p | some a, .lpddr p =>
    let word := BitVec.ofNat 64 (hbmWord s a 8)
    if tteValid word then frameHome word (p % 65536)
    else match s.mmp.shoots.find? (fun x => x.key == .tile a) with
      | some sd => frameHome sd.old (p % 65536)
      | none =>
        match (s.asidEntry w.asid).bind (fun e => assocGet a e.evicted) with
        | some pg => .lpddr (pg * 2 ^ 21 + p % 65536)
        | none => w.place.home
  | _, h => h

/-- What a watch reads at its home; `ext` is what a home outside the package reports. -/
def Watch.unit (s : State) (w : Watch) : AccessUnit :=
  { home := w.homeNow s, off := 0, len := 8, op := .load, done := false, entry := w.place.entry }

/-- The value with which the home of a watch can answer: at least the threshold, and read after what the context's
access follows. -/
def watchAnswer (s : State) (w : Watch) (c : Context) (ext : Word) : Option Word :=
  let v := BitVec.ofNat 64 (natOfBytes (placeRead s (w.homeNow s) 8 (ext.setWidth 640)))
  if w.thr.ule v && (s.afterOf c w.tile.toNat [w.unit s] false .relaxed).isEmpty then some v else none

/-- A watched counter that cannot be read: its die is lost, or its word holds an uncorrectable error (R307, R310). -/
def watchTrap (s : State) (w : Watch) : Option Trap :=
  placeTrap s (.ctx w.tile w.slot w.uid) w.place.space w.place.tval (w.homeNow s) w.place.entry 8

/-- The home of a watched counter answers once the value reaches the threshold, and the context becomes Ready; where the
counter cannot be read, MEM_DATA comes between bundles. -/
def execCounterWatchAnswer (wid : Nat) (ext : Word) (s : State) : Host.Outcome State Fault Refusal :=
  match s.watches.find? (fun w => w.id == wid) with
  | none => .next s
  | some w =>
    match (s.tile w.tile.toNat).bankOf w.slot w.uid with
    | none => .next { s with watches := s.watches.filter (fun x => x.id != wid) }
    | some b =>
      let c := s.ctx w.tile.toNat w.slot b
      if c.status = .blocked (.watch w.place w.thr) then
        match watchTrap s w, watchAnswer s w c ext with
        | some tr, _ =>
          .next (({ s.setCtx w.tile.toNat w.slot b { c with status := unblocked b } with
            watches := s.watches.filter (fun x => x.id != wid) } : State).engineTrap w.tile.toNat w.slot w.uid c.asid tr)
        | none, some v =>
          .next { s.setCtx w.tile.toNat w.slot b
              { c with status := unblocked b, observed := some v, cleared := some (.watch w.place w.thr) } with
            watches := s.watches.filter (fun x => x.id != wid) }
        | none, none => .next s
      else .next { s with watches := s.watches.filter (fun x => x.id != wid) }

/-! ### Refusals of other packages (R174) -/

/-- The refusal of another package, with both bits of R174. -/
def remoteTrap (tval : Word) : Trap :=
  { name := .translation, tval := tval ||| (1 : Word) <<< 63 ||| (1 : Word) <<< 62 }

/-- The class-3 event of a refusal by another package, reason 5 (R313): R173 gives the place of the requester, and the model
posts the event in the issuer's package. (DEDUCED, unsafe; log entry 54.) -/
def State.remoteEvent (s : State) (t : TileId) (k : SlotNo) (uid : Nat) (asid : BitVec 12) (tval : Word) : State :=
  let pc : Word := match s.uidCtx t.toNat k uid with
    | some c => c.pc
    | none => 0
  s.postFault (mkFault s 3 5 t.toNat k asid (remoteTrap tval).tval pc)

/-- The other replicas of a context do not receive what a refused access would have brought. -/
def State.dropShared (s : State) (c : Context) (q : Option HReg) (key : Nat) : State :=
  (s.followers c).foldl (fun st m => match q with
    | some q => st.dropResv m.1.toNat m.2.1 m.2.2 q key
    | none => st.dropLanding m.1.toNat m.2.1 m.2.2 key) s

/-- An access of a context is refused: it delivers nothing, and TRANSLATION is raised at the next bundle. -/
def State.refuseCtx (s : State) (f : Flight) (t : TileId) (k : SlotNo) (uid : Nat) : State :=
  let s1 := match s.uidCtx t.toNat k uid, f.sink with
    | some c, .landing _ _ =>
      let key := match c.landingOf f.id with
        | some l => l.key
        | none => 0
      (s.dropShared c none key).dropLanding t.toNat k uid f.id
    | some c, .queue q _ _ _ => (s.dropShared c (some q) (tongsKey f.at_ .ma)).dropResv t.toNat k uid q f.id
    | some _, .none | some _, .core _ | none, _ => s
  (s1.dropFlight f.id).engineTrap t.toNat k uid f.asid (remoteTrap f.tval)

/-- A home in another package. -/
def Home.away : Home → Bool
  | .node _ _ _ => true
  | .hbm _ | .lpddr _ | .scratch _ _ | .host _ | .nowhere => false

/-- A refused access in flight. -/
def State.refuseFlight (s : State) (f : Flight) : State :=
  match f.issuer with
  | .ctx t k uid => (s.refuseCtx f t k uid).remoteEvent t k uid f.asid f.tval
  | .engine t k uid => ((s.refuseWrite t f.id 0x82 (fun _ => remoteTrap f.tval)).dropFlight f.id).remoteEvent t k uid f.asid f.tval
  | .scheduler _ => s.dropFlight f.id

/-- A refused watch: the context presents its CWAIT again, behind the trap. -/
def State.refuseWatch (s : State) (w : Watch) : State :=
  let s1 : State := { s with watches := s.watches.filter (fun x => x.id != w.id) }
  let s2 := match (s1.tile w.tile.toNat).bankOf w.slot w.uid with
    | some b => s1.modCtx w.tile.toNat w.slot b (fun c =>
        if c.status = CtxStatus.blocked (.watch w.place w.thr) then { c with status := unblocked b } else c)
    | none => s1
  (s2.engineTrap w.tile.toNat w.slot w.uid w.asid (remoteTrap w.place.tval)).remoteEvent w.tile w.slot w.uid w.asid
    w.place.tval

/-- A running command whose source is in another package, by its number. -/
def State.remoteReader (s : State) (cid : Nat) : Option (TileId × Chan × XRun) :=
  s.tiles.findSome? (fun x => ([0, 1, 2, 3] : List Chan).findSome? (fun ch =>
    match (x.2.channel ch).run with
    | some r =>
      if r.cmd.cid = cid ∧ (r.cmd.sideParts s r.cmd.srcSpace r.cmd.src r.cmd.scrd 0 1).any (fun p => match p.span with
          | .remote _ _ _ => true
          | .frame _ _ | .page _ | .host _ | .outside _ | .tile _ _ => false) = true
      then some (BitVec.ofNat 10 x.1, ch, r) else none
    | none => none))

/-- A refused read of a channel: the command ends with STATUS 0x82. -/
def State.refuseRead (s : State) (t : TileId) (ch : Chan) (r : XRun) : State :=
  let tv := dTval r.cmd.src r.cmd.scrd
  (s.stopCommand t ch r 0x82 (remoteTrap tv)).remoteEvent t r.cmd.slot r.cmd.uid r.cmd.asid tv

/-- Another package's MMP refuses an access: one in flight, the watch of a CWAIT, or the source read of a channel, by its
number. -/
def execRemoteRefusal (fid : Nat) (s : State) : Host.Outcome State Fault Refusal :=
  match s.flights.find? (fun f => f.id == fid) with
  | some f => .next (if f.isOpen && f.units.any (fun u => u.home.away) then s.refuseFlight f else s)
  | none =>
    match s.watches.find? (fun w => w.id == fid) with
    | some w => .next (if w.place.home.away then s.refuseWatch w else s)
    | none =>
      match s.remoteReader fid with
      | some (t, ch, r) => .next (s.refuseRead t ch r)
      | none => .next s

end Sys2Proof.Machine
end

