-- ==== Sys2Proof/Machine/Service.lean ====
section
/-! DEFINITION. Events of translation: the walker's answer (R171), the service and the answer of a fault (R172, R173, R33),
shoot-downs (R176, R177, R181) and migration (R179). -/

namespace Sys2Proof.Machine

/-! ### Fault records -/

def State.fault (s : State) (id : Nat) : Option FaultRec := s.mmp.faults.find? (fun f => f.id == id)

def State.modFault (s : State) (id : Nat) (g : FaultRec → FaultRec) : State :=
  s.modMmp (fun m => { m with faults := replaceFirst (fun f => f.id == id) g m.faults })

/-- A fault record is answered; its answer arrives later. -/
def FaultRec.answer (f : FaultRec) (a : Option AnswerKind) (gtc : Nat) : FaultRec :=
  { f with stage := .answered a, due := gtc + 50 }

/-- Where the requester of a fault stands (R173): its slot, for a commit that of the lead, the slot of the context that issued the
command, or tile 0 slot 0; and the pc of its context. -/
def requesterPlace (s : State) (f : FaultRec) : Nat × SlotNo × Word :=
  let pcOf (t : TileId) (k : SlotNo) (uid : Nat) : Word := match s.uidCtx t.toNat k uid with
    | some c => c.pc
    | none => 0
  match f.who with
  | .ctx t k uid | .commit t k uid => (t.toNat, k, pcOf t k uid)
  | .channel t _ cid =>
    match (s.tile t.toNat).cmds.find? (fun c => c.cid == cid) with
    | some c => (t.toNat, c.slot, pcOf t c.slot c.uid)
    | none => (t.toNat, 0, 0)
  | .scheduler _ => (0, 0, 0)

/-- A refused service posts one class-3 event for each requester (R173). -/
def State.refusalEvent (s : State) (f : FaultRec) (reason : BitVec 8) : State :=
  let (t, k, pc) := requesterPlace s f
  s.postFault (mkFault s 3 reason t k f.asid (f.tval ||| (1 : Word) <<< 62) pc)

/-! ### The walker (R171) -/

/-- The tensor id of a descriptor that a walk finds with V = 0. -/
def missingDesc (s : State) (f : FaultRec) : Option Nat :=
  f.needs.findSome? (fun n => match n with
    | .desc id => if needMapped s f.asid n then none else some id
    | .tile _ _ | .flat _ | .page _ | .window _ => none)

/-- The walker ends its walk: it answers a missing descriptor itself, or fills the cache, or sends the record on. -/
def execWalkerAnswer (id : Nat) (s : State) : Host.Outcome State Fault Refusal :=
  match s.fault id with
  | none => .next s
  | some f =>
    if f.stage ≠ .walking then .next s
    else match missingDesc s f with
      | some d => .next (s.modFault id (fun f => f.answer (some (.noDescriptor (BitVec.ofNat 64 d))) s.gtc.toNat))
      | none =>
        if f.needs.all (needMapped s f.asid) then
          let s1 := match f.who with
            | .ctx t _ _ => f.needs.foldl (fun (st : State) n => st.fillNeed t.toNat f.asid n) s
            | .channel _ _ _ | .scheduler _ | .commit _ _ _ => s
          .next (s1.modFault id (fun f => f.answer none s.gtc.toNat))
        else .next (s.modFault id (fun f => { f with stage := .queued, due := s.gtc.toNat + 3480 }))

/-! ### Service (R172, R178) -/

/-- The queued records, oldest first. -/
def Mmp.queuedFaults (m : Mmp) : List FaultRec := m.faults.filter (fun f => f.stage == .queued)

/-- The stack of the first requester of a need of a record (Table 8-5). -/
def firstStack (s : State) (f : FaultRec) (n : Need) : BitVec 2 :=
  match s.mmp.queuedFaults.find? (fun g => g.asid == f.asid && g.needs.any (sameNeed s f.asid n)) with
  | some g => g.stack
  | none => f.stack

/-- Everything that a record asks for is in the tables, or is no longer there to be mapped. -/
def served (s : State) (f : FaultRec) : Bool := f.needs.all (fun n => needMapped s f.asid n || needFreed s f.asid n)

/-- The queued records of an address space that name the frame, page or window of a need (R172). -/
def FaultRec.naming (s : State) (f : FaultRec) (asid : BitVec 12) (n : Need) : Bool :=
  f.stage == .queued && f.asid == asid && f.needs.any (sameNeed s asid n)

/-- One service answers every queued record that it satisfies. -/
def State.answerServed (s : State) (asid : BitVec 12) : State :=
  { s with mmp := { s.mmp with faults := s.mmp.faults.map (fun f =>
      if f.stage == .queued && f.asid == asid && served s f then f.answer none s.gtc.toNat else f) } }

/-- A refused need refuses every queued record that names it. -/
def State.refuseNeed (s : State) (asid : BitVec 12) (n : Need) (reason : BitVec 8) : State :=
  let hit := s.mmp.faults.filter (fun f => f.naming s asid n)
  let s1 := { s with mmp := { s.mmp with faults := s.mmp.faults.map (fun f =>
      if f.naming s asid n then f.answer (some .refused) s.gtc.toNat else f) } }
  hit.foldl (fun st f => st.refusalEvent f reason) s1

/-- A pin request to the host (R178), unless one for the same need stands. -/
def State.askPin (s : State) (asid : BitVec 12) (n : Need) (addr : Word) (pages : Nat) : State :=
  let wait (req : Nat) (st : State) : State :=
    { st with mmp := { st.mmp with faults := st.mmp.faults.map (fun f =>
        if f.naming s asid n then { f with stage := .pinning req } else f) } }
  match s.mmp.pins.find? (fun p => p.asid == asid && sameNeed s asid p.need n) with
  | some p => wait p.req s
  | none =>
    let req := s.nextId
    wait req
      { s with
        nextId := req + 1
        out := s.out ++ [.pin req asid addr pages]
        mmp := { s.mmp with pins := s.mmp.pins ++ [{ req := req, asid := asid, need := n }] } }

/-- The table entries through which a side of a transfer lies, n bytes long. -/
def XCmd.sideEntries (s : State) (x : XCmd) (space : Nat) (addr crd : Word) (n : Nat) : List Nat :=
  if space = 2 then
    (x.sideParts s space addr crd 0 n).filterMap (fun p => match tableTrans s x.asid p with
      | .home _ _ e _ => e
      | .miss _ | .none => none)
  else []

/-- The frames under the running transfer commands (R177); of a gather, the elements whose indices it holds. -/
def transferEntries (s : State) : List Nat :=
  s.tiles.flatMap (fun t => t.2.channels.toList.flatMap (fun ch => match ch.run with
    | some r =>
      let x := r.cmd
      let src := if x.gather then
          r.indices.flatMap (fun i =>
            (x.sideParts s x.srcSpace x.src x.scrd (x.gatherOff s i) x.zs).filterMap (fun p =>
              match tableTrans s x.asid p with
              | .home _ _ e _ => e
              | .miss _ | .none => none))
        else x.sideEntries s x.srcSpace x.src x.scrd (if x.expand then x.limitBytes else x.srcLen s)
      (src ++ x.sideEntries s x.dstSpace x.dst x.dcrd (x.dstLen s)).eraseDups
    | none => []))

/-- An eviction is under way. -/
def State.evicting (s : State) : Bool := s.mmp.shoots.any (fun x => match x.work with
  | .evict _ => true
  | .free | .migrate _ _ | .removeWindow _ _ => false)

/-- The MMP serves a fault record, among the eight oldest; `frame` is the frame that it would take.
(DESIGN CHOICE, unsafe; log entry 48.) -/
def execFaultService (id frame : Nat) (s : State) : Host.Outcome State Fault Refusal :=
  match (s.mmp.queuedFaults.take 8).find? (fun f => f.id == id) with
  | none => .next s
  | some f =>
    match s.serveNeeds f.asid (firstStack s f) frame f.needs with
    | (s1, .mapped, _) => .next (s1.answerServed f.asid)
    | (s1, .refused r, some n) => .next (s1.refuseNeed f.asid n r)
    | (s1, .pin a p, some n) => .next (s1.askPin f.asid n a p)
    | (_, .evict pl st, _) => .next (if s.evicting then s else s.startEviction (transferEntries s) pl st)
    | _ => .next s

/-! ### The answer (R33, R173, R181) -/

/-- An answer for a context that has been saved: a refusal is kept for its next presentation. -/
def State.answerSaved (s : State) (uid : Nat) (a : Option AnswerKind) : State :=
  { s with records := s.records.map (fun r => { r with savedCtxs := r.savedCtxs.map (fun x =>
      if x.ctx.uid = uid then { x with ctx := { x.ctx with answer := a } } else x) }) }

/-- A fault answer or a refusal reaches a parked context. -/
def execFaultAnswer (id : Nat) (s : State) : Host.Outcome State Fault Refusal :=
  match s.fault id with
  | none => .next s
  | some f =>
    match f.stage, f.who with
    | .answered a, .ctx t k uid =>
      let s1 := s.dropFault id
      match (s1.tile t.toNat).bankOf k uid with
      | none => .next (s1.answerSaved uid a)
      | some b =>
        let s2 := if a.isNone then f.needs.foldl (fun (st : State) n => st.fillNeed t.toNat f.asid n) s1 else s1
        .next (s2.modCtx t.toNat k b (fun c =>
          { c with answer := a, status := if c.status = .parked id then unblocked b else c.status }))
    | .answered a, .scheduler _ | .answered a, .commit _ _ _ => .next (if a.isNone then s.dropFault id else s)
    | _, _ => .next s

/-! ### Shoot-down (R176) -/

/-- Whether a unit of an access was translated through the entry of a shoot-down. -/
def throughEntry (s : State) (sd : Shootdown) (f : Flight) (u : AccessUnit) : Bool :=
  !u.done && (match sd.key, u.home with
    | .tile a, _ => u.entry == some a
    | .page _, .lpddr p => p / 2 ^ 21 == natBits sd.old.toNat 21 31
    | .window hva, .host b =>
      f.asid == sd.asid && (match s.asidEntry sd.asid with
        | some e => e.windows.any (fun w => w.hva == hva
            && decide (w.bus.toNat ≤ b.toNat ∧ b.toNat < w.bus.toNat + w.pages.toNat * 4096))
        | none => false)
    | _, _ => false)

/-- The tile that translated an access; none for one that a layout unit or the MMP translated. -/
def Issuer.tile? : Issuer → Option Nat
  | .ctx t _ _ => some t.toNat
  | .engine _ _ _ | .scheduler _ => none

/-- An agent's requests through the old entry have been accepted by their home ports. Agent 0 is the layout units; agent
t + 1 is tile t. -/
def ackReady (s : State) (sd : Shootdown) (agent : Nat) : Bool :=
  s.flights.all (fun f =>
    (match f.issuer.tile? with
      | some t => agent != 0 && t + 1 != agent
      | none => agent != 0) || !f.units.any (throughEntry s sd f))

/-- An agent drops its matching entries and acknowledges. -/
def execShootdownAck (sid agent : Nat) (s : State) : Host.Outcome State Fault Refusal :=
  match s.mmp.shoots.find? (fun x => x.id == sid) with
  | none => .next s
  | some sd =>
    if sd.acks.contains agent && ackReady s sd agent then
      let s1 := match agent with
        | 0 => s
        | t + 1 => s.modTile t (fun x => x.invalidate sd.asid sd.key)
      .next (s1.modMmp (fun m => { m with shoots := m.shoots.map (fun x =>
        if x.id = sid then { x with acks := x.acks.erase agent } else x) }))
    else .next s

/-- The entry of a frame that has been moved to a page of LPDDR-6: TIER 1 and V = 0; ACNT is not the MMP's to write (R159). -/
def evictedWord (old : Word) (page : Nat) : Word :=
  tteWord 1 (ttePlace old) (tteStack old) (ttePerm old) (page * 32) (tteAcnt old) 0 &&& ~~~(1#64 <<< 63)

/-- Orders of accesses follow a frame that is copied. -/
def State.moveMarks (s : State) (lo : Nat) (target : Nat → Home) : State :=
  { s with marks := s.marks.map (fun m => match m.1 with
    | .hbm a => if lo ≤ a ∧ a < lo + 65536 then (target (a - lo), m.2) else m
    | .lpddr _ | .scratch _ _ | .host _ | .node _ _ _ | .nowhere => m) }

/-- Step 4 of R176. -/
def State.finishShoot (s : State) (sd : Shootdown) : State :=
  let lo := tteFrame sd.old * 65536
  match sd.work with
  | .free =>
    match sd.key with
    | .tile _ => if tteTier sd.old = 0 then s.freeEntryFrame sd.old else s
    | .page _ => s.freePage (natBits sd.old.toNat 21 31)
    | .window _ => s
  | .evict addr =>
    match s.takePage with
    | none => s.writeHbmWord addr sd.old
    | some (pg, s1) =>
      let s2 := { s1 with lpddr := copyRange s1.hbm lo 65536 (pg * 2 ^ 21) (clearRange s1.lpddr (pg * 2 ^ 21) (2 ^ 21)) }.moveMarks
        lo (fun o => .lpddr (pg * 2 ^ 21 + o))
      ((s2.freeEntryFrame sd.old).writeHbmWord addr (evictedWord sd.old pg)).modAsid sd.asid (fun e =>
        { e with evicted := (addr, pg) :: e.evicted })
  | .migrate addr st =>
    match s.takeFrame 1 st.toNat 0 with
    | none => s.writeHbmWord addr sd.old
    | some (f, s1) =>
      let s2 := { s1 with hbm := copyRange s1.hbm lo 65536 (f * 65536) (clearRange s1.hbm (f * 65536) 65536) }.moveMarks
        lo (fun o => .hbm (f * 65536 + o))
      (s2.freeEntryFrame sd.old).writeHbmWord addr
        (tteWord 0 1 st.toNat (ttePerm sd.old) f 0 (natBits sd.old.toNat 0 8))
  | .removeWindow asid hva =>
    s.setWindows asid (fun ws => ws.filter (fun w => w.hva != hva))

/-- The layout units drop what their hint tables hold of an entry that is shot down (R176, R179). -/
def State.dropHint (s : State) (k : EntryKey) : State :=
  match k with
  | .tile a => s.modMmp (fun m => { m with hints := m.hints.filter (fun h => h.entry != a) })
  | .page _ | .window _ => s

def State.modPlatform (s : State) (f : Platform → Platform) : State := { s with platform := f s.platform }

/-- The words of a response: the sequence number and the status in word 0, then the results. -/
def responseWords (seq : BitVec 16) (status : BitVec 8) (ws : List Word) : List Word :=
  (seq.setWidth 64 <<< 16 ||| status.setWidth 64 <<< 32) :: ws

/-- A reply in the response area, with MSI-X vector 0 (R269). -/
def State.reply (s : State) (seq : BitVec 16) (status : BitVec 8) (ws : List Word) : State :=
  { s with
    platform := { s.platform with response := responseWords seq status ws }
    out := s.out ++ [.mailbox seq status ws, .msix 0] }

/-- The frames of a table of n bytes from an address are free again. -/
def State.freeTable (s : State) (addr n : Nat) : State :=
  (List.range (ceilDiv n 65536)).foldl (fun st i => st.freeFrame 0 0 (addr / 65536 + i)) s

/-- A command whose last shoot-down is complete releases its tables and is answered (R176). -/
def State.replyShot (s : State) (seq : Option (BitVec 16)) : State :=
  match seq with
  | none => s
  | some q =>
    if s.mmp.pending = some q ∧ s.mmp.shoots.all (fun x => x.seq != some q) then
      let s1 := (s.mmp.tables.filter (fun t => t.1 == q)).foldl (fun (st : State) t => st.freeTable t.2.1 t.2.2) s
      (s1.modMmp (fun m => { m with pending := none, tables := m.tables.filter (fun t => t.1 != q) })).reply q 0 []
    else s

/-- After all acknowledgements the MMP copies or releases the memory and writes the new entry. -/
def execShootdownComplete (sid : Nat) (s : State) : Host.Outcome State Fault Refusal :=
  match s.mmp.shoots.find? (fun x => x.id == sid) with
  | none => .next s
  | some sd =>
    if sd.acks.isEmpty then
      .next ((((s.finishShoot sd).dropHint sd.key).modMmp (fun m => { m with shoots := m.shoots.filter (fun x => x.id != sid) })).replyShot
        sd.seq)
    else .next s

/-! ### Migration (R179) -/

def Hint.count_ (h : Hint) (st : Nat) : Nat := (h.counts.toList.getD st 0).toNat

/-- The stack to which a frame moves: among those that meet the conditions, the one with the highest count, and of
equals the lowest. -/
def Hint.target (h : Hint) : Option Nat :=
  ([0, 1, 2, 3].filter (fun t => t != h.home.toNat && decide (1024 ≤ h.count_ t)
      && decide (2 * h.count_ h.home.toNat ≤ h.count_ t))).foldl
    (fun best t => match best with
      | some b => if h.count_ b < h.count_ t then some t else some b
      | none => some t) none

/-- The frame of a hint may move: its entry is valid, in HBM, not pinned and not under shoot-down, and its address space
migrates. -/
def migratable (s : State) (h : Hint) : Bool :=
  let w := BitVec.ofNat 64 (hbmWord s h.entry 8)
  tteValid w && tteTier w == 0 && ttePlace w != 2 && !s.mmp.shoots.any (fun x => x.key == .tile h.entry)
    && (match s.asidEntry h.asid with
      | some e => !e.nomig
      | none => false)

/-- Every 2^24 cycles the MMP reads and clears the hint tables. -/
def execMigrationScan (s : State) : Host.Outcome State Fault Refusal :=
  if s.gtc.toNat % 2 ^ 24 ≠ 0 then .next s
  else
    .next (s.mmp.hints.foldl (fun st h =>
      match h.target with
      | some t => if migratable st h then st.shootEntry h.asid h.entry (.migrate h.entry (BitVec.ofNat 2 t)) none else st
      | none => st) (s.modMmp (fun m => { m with hints := [] })))

end Sys2Proof.Machine
end

