-- ==== Sys2Proof/Machine/Mailbox.lean ====
section
/-! DEFINITION. The commands of the host to the memory-management processor but for RECORD_ABORT (R178, R180, R269,
R318): address spaces, tensors, C ranges, host windows, pins, STATUS and LOG_READ. -/

namespace Sys2Proof.Machine

/-! ### The mailbox (R269, R318) -/

/-- MMP core 0 takes the request of an earlier cycle's doorbell. -/
def State.takeRequest (s : State) : State :=
  match s.platform.rung with
  | some (true, _) => s.modPlatform (fun p => { p with rung := none })
  | some (false, _) | none => s

/-- A command is carried out, unless the module is in the safe state (status 6) or a request is unanswered (status 4). -/
def State.command (s0 : State) (seq : BitVec 16) (act : State → State) : State :=
  let s := s0.takeRequest
  if s.platform.safe then s.reply seq 6 []
  else if s.mmp.pending.isSome then s.reply seq 4 []
  else act s

/-- The bad-argument reply. -/
def State.badArgument (s : State) (seq : BitVec 16) : State := s.reply seq 5 []

/-- A live address space. -/
def State.liveAsid (s : State) (a : BitVec 12) : Option AsidEntry := (s.asidEntry a).filter (fun e => e.valid)

/-- One that takes new definitions: it is not retiring. -/
def State.openAsid (s : State) (a : BitVec 12) : Option AsidEntry := (s.liveAsid a).filter (fun e => !e.retiring)

/-- The command of the request area: its code and sequence number in word 0, and its arguments in the words that follow, one
each in the order of Table 8-7, but eight for a descriptor. BASE and BUS are valid with bit 63 of their word, and a target of
RECORD_ABORT stands behind 0 for a handle, 1 for a launch queue and record index, 2 for an ASID. (DESIGN CHOICE, unsafe; log
entry 63.) -/
def Platform.requestCommand (p : Platform) : Option Instr :=
  let w (i : Nat) : Word := (assocGet (8 * i) p.request).getD 0
  let seq : BitVec 16 := fld (w 0) 16 16
  let asid : BitVec 12 := (w 1).setWidth 12
  match ((w 0).setWidth 8 : BitVec 8).toNat with
  | 0x01 => some (.asidCreate seq ((w 1).getLsbD 0) ((w 2).setWidth 32))
  | 0x02 => some (.asidRetire seq asid)
  | 0x03 => some (.tensorDefine seq asid ((w 2).setWidth 20) (Vector.ofFn (fun i => w (3 + i.val))) ((w 11).setWidth 2)
      ((w 12).setWidth 2) ((w 13).setWidth 4) (if (w 14).msb then some ((w 14).setWidth 20) else none))
  | 0x04 => some (.tensorFree seq asid ((w 2).setWidth 20))
  | 0x05 => some (.cmap seq asid (w 2) (w 3))
  | 0x06 => some (.hwinAdd seq asid (w 2) ((w 3).setWidth 32) ((w 4).setWidth 4))
  | 0x07 => some (.hwinRemove seq asid (w 2))
  | 0x08 => some (.pinAnswer seq (w 1).toNat (if (w 2).msb then some (w 2 &&& 0x7FFFFFFFFFFFFFFF) else none))
  | 0x09 =>
    let post := (w 4).getLsbD 0
    match ((w 1).setWidth 2 : BitVec 2).toNat with
    | 0 => some (.recordAbort seq (.handle (w 2)) post)
    | 1 => some (.recordAbort seq (.queueIndex ((w 2).setWidth 3) (w 3).toNat) post)
    | 2 => some (.recordAbort seq (.asid ((w 2).setWidth 12)) post)
    | _ => none
  | 0x40 => some (.status seq)
  | 0x41 => some (.logRead seq (w 1).toNat)
  | _ => none

/-- The doorbell: MMP core 0 takes the request in the next cycle. A code that Table 8-7 does not list is a bad argument; a
doorbell beside a request of the same cycle is answered busy. (DESIGN CHOICE, unsafe; log entry 63.) -/
def State.ringDoorbell (s : State) : State :=
  let seq : BitVec 16 := fld ((assocGet 0 s.platform.request).getD 0) 16 16
  match s.platform.rung, s.platform.requestCommand with
  | some _, _ => s.reply seq 4 []
  | none, some i => s.modPlatform (fun p => { p with rung := some (false, i) })
  | none, none => s.command seq (fun s => s.badArgument seq)

/-! ### Address spaces -/

/-- The lowest ASID from 1 that has no entry. (DESIGN CHOICE, unsafe; log entry 17.) -/
def freeAsid (es : List AsidEntry) : Option (BitVec 12) :=
  ((List.range 4095).find? (fun i => !es.any (fun e => e.id.toNat == i + 1))).map (fun i => BitVec.ofNat 12 (i + 1))

/-- Frames that a table of n bytes takes. -/
def tableFrames (n : Nat) : Nat := ceilDiv n 65536

/-- ASID_CREATE: an entry, its flat tile table with every V = 0, the level-1 capacity table and the host window table. -/
def execAsidCreate (seq : BitVec 16) (nomig : Bool) (fntiles : BitVec 32) (s : State) :
    Host.Outcome State Fault Refusal :=
  .next (s.command seq (fun s =>
    match freeAsid s.mmp.asids with
    | none => s.reply seq 2 []
    | some id =>
      match s.takeFrames 2 with
      | none => s.reply seq 3 []
      | some (cpt, s1) =>
        match (s1.takeFrames 1).bind (fun (h, s2) =>
            (s2.takeFrames (tableFrames (8 * fntiles.toNat))).map (fun (f, s3) => (h, f, s3))) with
        | none => s.reply seq 3 []
        | some (hwt, fttb, s2) =>
          let e : AsidEntry :=
            { id := id, valid := true, retiring := false, nomig := nomig, dcount := 0, dtb := 0, fttb := fttb * 65536
              fntiles := fntiles.toNat, cpt := cpt * 65536, hwt := hwt * 65536, windows := [], cmaps := [], defs := [], evicted := [] }
          (s2.modMmp (fun m => { m with asids := m.asids ++ [e] })).reply seq 0 [id.setWidth 64]))

/-- ASID_RETIRE: RETIRING is set. (DEDUCED, unsafe; log entry 19.) -/
def execAsidRetire (seq : BitVec 16) (asid : BitVec 12) (s : State) : Host.Outcome State Fault Refusal :=
  .next (s.command seq (fun s =>
    match s.openAsid asid with
    | none => s.badArgument seq
    | some _ => (s.modAsid asid (fun e => { e with retiring := true })).reply seq 0 []))

/-- The records that a launch queue still holds, by their record numbers. -/
def LaunchQueue.waiting (q : LaunchQueue) : List (Nat × List Word) :=
  (List.range q.used).map (fun i => (q.cons.toNat + i, (assocGet ((q.cons.toNat + i) % 256) q.slots).getD (List.replicate 32 0)))

/-- A record with an ASID is queued or bound. -/
def State.asidInUse (s : State) (a : BitVec 12) : Bool :=
  s.records.any (fun r => recAsid r.words == a)
    || s.queues.toList.any (fun q => q.waiting.any (fun x => !q.withdrawn.contains x.1 && recAsid x.2 == a))

/-- The level-2 addresses of the capacity entries of an address space that are valid, with their pages, each once however many
C ranges take it in. -/
def capEntries (s : State) (e : AsidEntry) : List (Nat × Nat) :=
  (e.cmaps.flatMap (fun r => (List.range (r.2 / 2 ^ 21)).filterMap (fun i =>
    let a := r.1 + i * 2 ^ 21
    match capEntryAddr s e a with
    | some l2 => if (hbmWord s l2 8).testBit 63 then some (a / 2 ^ 21, l2) else none
    | none => none))).eraseDups

/-- The table entries of the tensors of an address space that own their table, and of its flat view. -/
def tileEntries (s : State) (e : AsidEntry) : List Nat :=
  e.defs.flatMap (fun d => match d.2.2.2.2, tableDesc s e.id d.1 with
    | none, some w => (List.range (descOf w).ntiles).map (fun i => (descOf w).ttb + 8 * i)
    | _, _ => [])
    ++ (List.range e.fntiles).map (fun i => e.fttb + 8 * i)

/-- The tables of an address space, and the pages of what was evicted. -/
def State.freeTables (s : State) (e : AsidEntry) : State :=
  let s1 := e.evicted.foldl (fun (st : State) v => st.freePage v.2) s
  let s2 := e.defs.foldl (fun (st : State) d => match d.2.2.2.2, tableDesc s e.id d.1 with
    | none, some w => st.freeTable (descOf w).ttb (8 * (descOf w).ntiles)
    | _, _ => st) s1
  let s3 := (List.range (2 ^ 14)).foldl (fun (st : State) i =>
    let l1 := hbmWord s (e.cpt + 8 * i) 8
    if l1.testBit 63 then st.freeFrame 0 0 (natBits l1 16 36) else st) s2
  (((s3.freeTable e.fttb (8 * e.fntiles)).freeTable e.cpt (2 ^ 17)).freeTable e.hwt 32768).freeTable e.dtb
    (64 * e.dcount.toNat)

/-- The translation caches drop everything of an address space, whose number may be given again (R169, R176). -/
def State.forgetAsid (s : State) (asid : BitVec 12) : State :=
  { s with tiles := s.tiles.map (fun x => (x.1, { x.2 with
      descs := x.2.descs.filter (fun d => d.asid != asid), entries := x.2.entries.filter (fun e => e.asid != asid) })) }

/-- Once no record of a retiring address space is queued or bound, every valid entry is shot down; when the shoot-downs
are complete, its memory is freed and V is clear. -/
def execAsidRetireComplete (asid : BitVec 12) (s : State) : Host.Outcome State Fault Refusal :=
  match s.liveAsid asid with
  | none => .next s
  | some e =>
    if !e.retiring || s.asidInUse asid || s.mmp.shoots.any (fun x => x.asid == asid) then .next s
    else
      let tiles := (tileEntries s e).filter (fun a => (hbmWord s a 8).testBit 63)
      let caps := capEntries s e
      let wins := e.windows.filter (fun w => w.valid)
      if tiles.isEmpty && caps.isEmpty && wins.isEmpty then
        .next (((s.freeTables e).forgetAsid asid).modMmp (fun m =>
          { m with asids := m.asids.filter (fun x => x.id != asid) }))
      else
        let s1 := tiles.foldl (fun (st : State) a => st.shootEntry asid a .free none) s
        let s2 := caps.foldl (fun (st : State) c => st.shootPage asid c.1 c.2 none) s1
        .next (wins.foldl (fun (st : State) w => st.shootWindow asid w.hva none) s2)

/-! ### Tensors (R154, R158, R159) -/

/-- A descriptor table that holds id: the present one, or a longer copy of it. -/
def State.growDescs (s : State) (e : AsidEntry) (id : Nat) : Option State :=
  let old := e.dcount.toNat
  if id < old then some s
  else
    let n := id + 1
    match s.takeFrames (tableFrames (64 * n)) with
    | none => none
    | some (f, s1) =>
      let s2 := { s1 with hbm := copyRange s1.hbm e.dtb (64 * old) (f * 65536) s1.hbm }
      some ((s2.freeTable e.dtb (64 * old)).modAsid e.id (fun x =>
        { x with dcount := BitVec.ofNat 20 n, dtb := f * 65536 }))

/-- The eight words of a descriptor written in its place. -/
def State.writeDesc (s : State) (asid : BitVec 12) (id : Nat) (w : Vector Word 8) : State :=
  match s.asidEntry asid with
  | none => s
  | some e => w.toList.zipIdx.foldl (fun (st : State) x => st.writeHbmWord (e.dtb + 64 * id + 8 * x.2) x.1) s

/-- A descriptor with its tile table. -/
def withTable (w : Vector Word 8) (ttb ntiles : Nat) : Vector Word 8 :=
  (w.set 4 (BitVec.ofNat 64 ttb)).set 5 (BitVec.ofNat 64 ntiles)

/-- The fields that an alias shares with its base (R158). -/
def sameShape (a b : Desc) : Bool :=
  a.t && a.ext == b.ext && a.lt == b.lt && a.layout == b.layout && a.fmt == b.fmt && a.node == b.node

/-- A tile table of n entries that are not valid, each with PLACE, STACK and PERM. -/
def State.newTileTable (s : State) (n : Nat) (place stack : BitVec 2) (perm : BitVec 4) : Option (Nat × State) :=
  (s.takeFrames (tableFrames (8 * n))).map (fun (f, s1) =>
    let w := tteWord 0 place.toNat (if place = 2 then stack.toNat else 0) perm 0 0 0 &&& ~~~(1#64 <<< 63)
    (f * 65536, (List.range n).foldl (fun (st : State) i => st.writeHbmWord (f * 65536 + 8 * i) w) s1))

/-- TENSOR_DEFINE. DCOUNT has 20 bits, so the largest id that it can bound is 0xFFFFE; a definition of 0xFFFFF is a bad
argument. (DESIGN CHOICE, unsafe; log entry 17.) -/
def execTensorDefine (seq : BitVec 16) (asid : BitVec 12) (id : BitVec 20) (desc : Vector Word 8) (place stack : BitVec 2)
    (perm : BitVec 4) (base : Option (BitVec 20)) (s : State) : Host.Outcome State Fault Refusal :=
  .next (s.command seq (fun s =>
    match s.openAsid asid with
    | none => s.badArgument seq
    | some e =>
      if id = 0 ∨ id = 0xFFFFF ∨ place = 3 ∨ e.defs.any (fun d => d.1 == id.toNat) then s.badArgument seq
      else
        let record (st : State) (b : Option Nat) : State :=
          st.modAsid asid (fun x => { x with defs := x.defs ++ [(id.toNat, place, stack, perm, b)] })
        match base with
        | some b =>
          match (tableDesc s asid b.toNat).filter (fun w => (descOf w).valid) with
          | none => s.badArgument seq
          | some bw =>
            let w := withTable desc (descOf bw).ttb (descOf bw).ntiles
            if !sameShape (descOf desc) (descOf bw) || !descAccepted w then s.reply seq 1 []
            else match s.growDescs e id.toNat with
              | none => s.reply seq 3 []
              | some s1 => (record (s1.writeDesc asid id.toNat w) (some b.toNat)).reply seq 0 []
        | none =>
          if !descAccepted desc then s.reply seq 1 []
          else match s.growDescs e id.toNat with
            | none => s.reply seq 3 []
            | some s1 =>
              match s1.newTileTable (descOf desc).ntiles place stack perm with
              | none => s.reply seq 3 []
              | some (ttb, s2) =>
                (record (s2.writeDesc asid id.toNat (withTable desc ttb (descOf desc).ntiles)) none).reply seq 0 []))

/-- The tensors that go with one: a base takes its aliases with it, and theirs, each defined behind its base. -/
def freedWith (e : AsidEntry) (id : Nat) : List Nat :=
  e.defs.foldl (fun acc d => match d.2.2.2.2 with
    | some b => if acc.contains b then acc ++ [d.1] else acc
    | none => acc) [id]

/-- V of descriptors clears, in the table and in the caches. -/
def State.clearDescs (s : State) (asid : BitVec 12) (ids : List Nat) : State :=
  let s1 := ids.foldl (fun (st : State) i => match tableDesc st asid i with
    | some w => st.writeDesc asid i (w.set 0 (w[0] &&& 0x7FFFFFFFFFFFFFFF))
    | none => st) s
  { s1 with tiles := s1.tiles.map (fun x =>
      (x.1, { x.2 with descs := x.2.descs.filter (fun d => !(d.asid == asid && ids.contains d.id)) })) }

/-- The frames of a tensor: every valid entry is shot down; one whose shoot-down is under way is freed by it; the page of
an evicted one is free. -/
def State.shootTensor (s : State) (asid : BitVec 12) (d : Desc) (seq : BitVec 16) : State :=
  let inTable (a : Nat) : Bool := decide (d.ttb ≤ a ∧ a < d.ttb + 8 * d.ntiles)
  let s1 := s.modMmp (fun m => { m with shoots := m.shoots.map (fun (x : Shootdown) => match x.key with
    | .tile a => if inTable a then { x with work := .free, seq := some seq } else x
    | .page _ | .window _ => x) })
  let s2 := (List.range d.ntiles).foldl (fun (st : State) i =>
    let a := d.ttb + 8 * i
    if (hbmWord st a 8).testBit 63 then st.shootEntry asid a .free (some seq) else st) s1
  match s2.asidEntry asid with
  | none => s2
  | some e =>
    ((e.evicted.filter (fun v => inTable v.1)).foldl (fun (st : State) v => st.freePage v.2) s2).modAsid asid
      (fun x => { x with evicted := x.evicted.filter (fun v => !inTable v.1) })

/-- TENSOR_FREE: it is answered when the last shoot-down is complete. Freeing an alias frees no frame. -/
def execTensorFree (seq : BitVec 16) (asid : BitVec 12) (id : BitVec 20) (s : State) :
    Host.Outcome State Fault Refusal :=
  .next (s.command seq (fun s =>
    match s.liveAsid asid, (tableDesc s asid id.toNat).filter (fun w => (descOf w).valid) with
    | some e, some w =>
      match e.defs.find? (fun d => d.1 == id.toNat) with
      | none => s.badArgument seq
      | some df =>
        let ids := freedWith e id.toNat
        let drop (st : State) : State :=
          (st.clearDescs asid ids).modAsid asid (fun x => { x with defs := x.defs.filter (fun d => !ids.contains d.1) })
        if df.2.2.2.2.isSome then (drop s).reply seq 0 []
        else
          let d := descOf w
          ((drop (s.shootTensor asid d seq)).modMmp (fun m => { m with
            pending := some seq, tables := m.tables ++ [(seq, d.ttb, 8 * d.ntiles)] })).replyShot (some seq)
    | _, _ => s.badArgument seq))

/-! ### C ranges and host windows -/

/-- CMAP: a 2 MiB-aligned C range is mapped on first touch. -/
def execCmap (seq : BitVec 16) (asid : BitVec 12) (addr len : Word) (s : State) : Host.Outcome State Fault Refusal :=
  .next (s.command seq (fun s =>
    match s.openAsid asid with
    | none => s.badArgument seq
    | some _ =>
      let a := addr.toNat
      let n := len.toNat
      if a % 2 ^ 21 ≠ 0 ∨ n % 2 ^ 21 ≠ 0 ∨ n = 0 ∨ 2 ^ 48 < a + n then s.badArgument seq
      else (s.modAsid asid (fun e => { e with cmaps := e.cmaps ++ [(a, n)] })).reply seq 0 []))

/-- A window put into the table by base. -/
def insertWindow (w : HostWindow) : List HostWindow → List HostWindow
  | [] => [w]
  | x :: xs => if w.hva.ult x.hva then w :: x :: xs else x :: insertWindow w xs

/-- Two windows share an address. -/
def HostWindow.overlaps (a b : HostWindow) : Bool :=
  decide (a.hva.toNat < b.hva.toNat + b.pages.toNat * 4096 ∧ b.hva.toNat < a.hva.toNat + a.pages.toNat * 4096)

/-- HWIN_ADD: a window with RES = 0. -/
def execHwinAdd (seq : BitVec 16) (asid : BitVec 12) (hva : Word) (pages : BitVec 32) (perm : BitVec 4) (s : State) :
    Host.Outcome State Fault Refusal :=
  .next (s.command seq (fun s =>
    match s.openAsid asid with
    | none => s.badArgument seq
    | some e =>
      let w : HostWindow := { hva := hva, pages := pages, bus := 0, valid := true, resident := false, perm := perm }
      if hva.toNat % 4096 ≠ 0 ∨ pages = 0 ∨ 2 ^ 64 < hva.toNat + pages.toNat * 4096
          ∨ e.windows.any (fun x => w.overlaps x) then s.badArgument seq
      else if 1024 ≤ e.windows.length then s.reply seq 3 []
      else (s.setWindows asid (insertWindow w)).reply seq 0 []))

/-- HWIN_REMOVE: it is answered when the shoot-down is complete. -/
def execHwinRemove (seq : BitVec 16) (asid : BitVec 12) (hva : Word) (s : State) : Host.Outcome State Fault Refusal :=
  .next (s.command seq (fun s =>
    match s.liveAsid asid with
    | none => s.badArgument seq
    | some e =>
      if e.windows.any (fun w => w.hva == hva && w.valid) then
        (s.shootWindow asid hva (some seq)).modMmp (fun m => { m with pending := some seq })
      else s.badArgument seq))

/-! ### Pins (R178) -/

/-- What the host's answer writes: BUS and RES = 1, or V = 1 of a host-backed entry.
(DESIGN CHOICE, unsafe; log entry 47.) -/
def State.writePin (s : State) (p : PinReq) (bus : Word) : State :=
  match p.need with
  | .window a =>
    s.setWindows p.asid (fun ws => ws.map (fun (w : HostWindow) =>
      if w.hva.toNat ≤ a.toNat ∧ a.toNat < w.hva.toNat + w.pages.toNat * 4096 then
        { w with bus := bus &&& ~~~(0xFFF : Word), resident := true } else w))
  | .tile _ _ | .flat _ =>
    match entryAddr s p.asid p.need with
    | some a => s.writeHbmWord a (BitVec.ofNat 64 (hbmWord s a 8) ||| 1#64 <<< 63)
    | none => s
  | .desc _ | .page _ => s

/-- Records that wait on a pin return to the MMP. -/
def State.unpinWaiters (s : State) (req : Nat) : State :=
  { s with mmp := { s.mmp with faults := s.mmp.faults.map (fun f =>
      if f.stage = .pinning req then { f with stage := .queued, due := s.gtc.toNat } else f) } }

/-- PIN_ANSWER: the bus address, or a decline, which refuses the fault. -/
def execPinAnswer (seq : BitVec 16) (req : Nat) (bus : Option Word) (s : State) : Host.Outcome State Fault Refusal :=
  .next (s.command seq (fun s =>
    match s.mmp.pins.find? (fun p => p.req == req) with
    | none => s.badArgument seq
    | some p =>
      let s1 := (s.modMmp (fun m => { m with pins := m.pins.filter (fun x => x.req != req) })).unpinWaiters req
      (match bus with
        | some b => (s1.writePin p b).answerServed p.asid
        | none => s1.refuseNeed p.asid p.need 4).reply seq 0 []))

/-! ### STATUS and LOG_READ (R318) -/

/-- TEMPER_STAT (Table 17-5): DONE, PASS and CODE. -/
def temperStat (p : Platform) : Word :=
  boolBit p.temperDone 63 ||| boolBit p.temperPass 62 ||| p.temper.setWidth 64

/-- STATUS is answered in every state. -/
def execStatus (seq : BitVec 16) (s0 : State) : Host.Outcome State Fault Refusal :=
  let s := s0.takeRequest
  .next (if s.mmp.pending.isSome then s.reply seq 4 []
    else s.reply seq 0 [temperStat s.platform, s.platform.temperStep.setWidth 64])

/-- n words that nothing constrains. -/
def State.freeWords (s : State) : Nat → List Word × State
  | 0 => ([], s)
  | n + 1 =>
    let (x, s1) := s.freeWord
    let (xs, s2) := State.freeWords s1 n
    (x :: xs, s2)

/-- LOG_READ is answered in every state: at most 4 KiB of the Temper log, whose contents the spec does not give. -/
def execLogRead (seq : BitVec 16) (_offset : Nat) (s0 : State) : Host.Outcome State Fault Refusal :=
  let s := s0.takeRequest
  if s.mmp.pending.isSome then .next (s.reply seq 4 [])
  else
    let (n, s1) := s.freeWord
    let (ws, s2) := s1.freeWords (n.toNat % 513)
    .next (s2.reply seq 0 ws)

end Sys2Proof.Machine
end

