-- ==== Sys2Proof/Machine/Launch.lean ====
section
/-! DEFINITION. Launch records (R287, R288, R24 to R26), launch queues and acceptance (R268, R289, R290), admission and
placement (R27, R271, R291, R292, R320), and binding (R23, R293, R294, R297). -/

namespace Sys2Proof.Machine

/-! ### Rejection (Table 15-2) -/

/-- The bits of word i that Table 15-1 lists. -/
def recMask (ws : List Word) (i : Nat) : Word :=
  if i = 1 then 0x003F1F0000FFFFFF
  else if i = 11 then 0x1FFFFF
  else if i = 13 ∨ i = 16 ∨ i = 19 ∨ i = 22 ∨ i = 25 then 0xC01FFFFF00000000
  else if 3 ≤ i ∧ i < 11 then
    if recNlev ws ≤ i - 3 then 0
    else if levelDomain ws (i - 3) = 1 then 0x000003FF00000077
    else 0x001FFFFF00000077
  else BitVec.allOnes 64

def reservedBits (ws : List Word) : Bool := (List.range 32).any (fun i => (ws.getD i 0) &&& ~~~(recMask ws i) != 0)

/-- The domain of the level above; none for the outermost. -/
def nextDomain (ws : List Word) (i : Nat) : Option Nat := if i + 1 < recNlev ws then some (levelDomain ws (i + 1)) else none

/-- The extent limit of Table 2-4 with R25. -/
def extentOk (ws : List Word) (i : Nat) : Bool :=
  let (w, h) := regionSize ws
  let lim := if hasStackLevel ws then 16 else 32
  let e := levelExtent ws i
  match levelDomain ws i with
  | 0 => decide (e ≤ 4)
  | 1 => decide (w ≤ lim ∧ h ≤ lim)
  | 2 => decide (e ≤ lim / w * (lim / h))
  | 3 => decide (e ≤ 4)
  | 4 => match nextDomain ws i with
    | some 5 => decide (e ≤ 64)
    | some 6 => decide (e ≤ 32768)
    | _ => decide (e ≤ 2097152)
  | 7 => decide (e ≤ 1)
  | _ => true

/-- The level rules of R24 and R25. -/
def levelsOk (ws : List Word) : Bool :=
  let n := recNlev ws
  decide (1 ≤ n ∧ n ≤ 8) && levelDomain ws 0 == 0 && (n == 1 || levelDomain ws 1 == 1)
    && (List.range (n - 1)).all (fun i => decide (levelDomain ws i < levelDomain ws (i + 1)))
    && (List.range n).all (extentOk ws)

/-- How far the instances of a level reach within one instance of the next level (R26): one tile; a region, which lies in
one stack or may lie across two; the regions of a stack; a package, a group, a pod, or more. -/
inductive Reach where
  | tile
  | region (inStack : Bool)
  | stack
  | pkg
  | group
  | pod
  | sys
  deriving DecidableEq, Repr

/-- A scope of Table 9-1, by its code, contains what reaches so far. -/
def Reach.within (r : Reach) (sc : Nat) : Bool :=
  match r with
  | .tile => decide (1 ≤ sc)
  | .region st => sc == 2 || decide ((if st then 3 else 4) ≤ sc)
  | .stack => decide (3 ≤ sc)
  | .pkg => decide (4 ≤ sc)
  | .group => decide (5 ≤ sc)
  | .pod => decide (6 ≤ sc)
  | .sys => decide (7 ≤ sc)

/-- How far n packages reach from a node on. -/
def packageReach (first n : Nat) : Reach :=
  let last := first + n - 1
  if n ≤ 1 then .pkg else if first / 64 = last / 64 then .group else if first / 32768 = last / 32768 then .pod else .sys

/-- The reach of a level, from that of the level below. A level of extent 1 reaches as far as what it holds. -/
def reachStep (ws : List Word) (r : Reach) (i : Nat) : Reach :=
  let d := levelDomain ws i
  let e := levelExtent ws i
  if d = 0 then .tile
  else if d = 1 then (if e = 1 then .tile else .region (hasStackLevel ws || decide (2 ≤ recRed ws)))
  else if d = 2 then (if e = 1 then r else if hasStackLevel ws then .stack else .pkg)
  else if d = 3 then (if e = 1 then r else .pkg)
  else
    let n := (List.range (i + 1)).foldl (fun acc j => if 4 ≤ levelDomain ws j then acc * levelExtent ws j else acc) 1
    let blocks := (List.range (recPackages ws / n)).map (fun b => packageReach ((recNode0 ws).toNat + b * n) n)
    if n = 1 then r else if blocks.contains .sys then .sys else if blocks.contains .pod then .pod else .group

/-- The reach of a level within one instance of the next, or within the record for the outermost (R26). -/
def levelReach (ws : List Word) (i : Nat) : Reach :=
  (List.range (i + 1)).foldl (reachStep ws) .tile

def scopesOk (ws : List Word) : Bool :=
  (List.range (recNlev ws)).all (fun i => (levelReach ws i).within (levelScope ws i))

/-- A counter fails its check: space 1, alignment, or a node outside the pod of NODE0. -/
def counterBad (ws : List Word) (c : RecCounter) : Bool :=
  c.space != 0 && (c.space == 1 || c.addr.toNat % 8 != 0 || c.node.toNat / 32768 != (recNode0 ws).toNat / 32768)

/-- The reason for which a record is rejected; 0 for none. The checks are made in table order. -/
def launchReason (s : State) (ws : List Word) : Nat :=
  let (w, h) := regionSize ws
  let red := decide (2 ≤ recRed ws)
  let key := ws.getD 28 0 == 0 && ws.getD 29 0 == 0
  let logs := recLog ws || recReplay ws
  if reservedBits ws || recEntry ws == 0 || (recEntry ws).toNat % 32 != 0 then 1
  else if recAsid ws == 0 || (s.openAsid (recAsid ws)).isNone then 2
  else if !levelsOk ws then 3
  else if !scopesOk ws then 4
  else if recDet ws && decide (6 ≤ levelDomain ws (recNlev ws - 1)) then 5
  else if red && (key || decide (16 < w) || decide (16 < h) || recDet ws) then 6
  else if (recLog ws && recReplay ws) || (logs && (ws.getD 31 0 == 0
      || (ws.getD 30 0).toNat % 2 ^ 21 != 0 || (ws.getD 31 0).toNat % 2 ^ 21 != 0)) then 7
  else if recSpSize ws == 0 || decide ((if red then 31 else 32) < recSpBase ws + recSpSize ws) then 8
  else if (recCounters ws).any (counterBad ws) then 9
  else if (List.range (recPackages ws)).any (fun j =>
      !s.platform.nodes.contains (BitVec.ofNat 21 ((recNode0 ws).toNat + j))) then 10
  else 0

/-! ### Launch queues (R268) -/

def State.modQueue (s : State) (q : BitVec 3) (f : LaunchQueue → LaunchQueue) : State := s.setQueueOf q (f (s.queueOf q))

/-- Records that the host has written, from the slot of PROD on. -/
def LaunchQueue.fillSlots (q : LaunchQueue) (records : List (List Word)) : LaunchQueue :=
  { q with slots := records.zipIdx.foldl (fun acc x =>
      assocSet ((q.prod.toNat + x.2) % 256) ((x.1 ++ List.replicate 32 0).take 32) acc) q.slots }

/-- A write of a pointer register: PROD, unless it passes CONS by more than 256 or moves backward, or the queue is one
that LAUNCH fills. -/
def LaunchQueue.writeProd (q : LaunchQueue) (device : Bool) (v : Word) : LaunchQueue :=
  let p : BitVec 31 := fld v 0 31
  if device || decide (256 < (p - q.cons).toNat) || decide ((p - q.cons).toNat < q.used) then { q with err := true }
  else { q with prod := p }

def execLaunchQueueProdWrite (q : BitVec 3) (v : Word) (records : List (List Word)) (s : State) :
    Host.Outcome State Fault Refusal :=
  .next (if s.platform.safe then s
    else if q.getLsbD 2 then s.modQueue q (fun x => x.writeProd true v)
    else s.modQueue q (fun x => (x.fillSlots records).writeProd false v))

/-- A write of 1 to ERR clears it. -/
def execLaunchQueueErrClear (q : BitVec 3) (v : Word) (s : State) : Host.Outcome State Fault Refusal :=
  .next (if v.msb && !s.platform.safe then s.modQueue q (fun x => { x with err := false }) else s)

/-! ### Acceptance (R288 to R290) -/

/-- Records in the pool: those that are not bound. -/
def State.poolCount (s : State) : Nat :=
  (s.records.filter (fun r => match r.phase with
    | .pooled | .requested | .reserving _ | .reserved | .saved => true
    | .running | .ended => false)).length

/-- The queue from which the scheduler takes the next record. -/
def State.nextQueue (s : State) : Option (BitVec 3) :=
  ((List.range 8).map (fun i => s.rotation + BitVec.ofNat 3 i)).find? (fun q => decide (0 < (s.queueOf q).used))

/-- A record enters the pool: its handle has a nonzero sequence number (R290). -/
def State.pool (s : State) (ws : List Word) (launcher : Nat) (source : Nat × Nat) (after : List Nat) : State × Word :=
  let seq := s.nextSeq
  let r : Record :=
    { rid := s.nextId, words := ws, seq := seq, order := s.nextId, launcher := launcher, source := source
      phase := .pooled, passed := 0, placement := { corners := [], slots := [] }, left := [], exited := []
      pkgIndex := s.node.toNat - (recNode0 ws).toNat, savedCtxs := [], areas := []
      seen := Vector.replicate 4 0, unbound := [], dispatchedAt := 0, after := after }
  ({ s with
      nextId := s.nextId + 1
      nextSeq := if seq + 1 = 0 then 1 else seq + 1
      records := s.records ++ [r] },
   s.node.setWidth 64 <<< 32 ||| seq.setWidth 64)

/-- The LAUNCH_FORMAT event (class 6). (DEDUCED, unsafe; log entry 40.) -/
def State.launchEvent (s : State) (asid : BitVec 12) (reason : Nat) : State :=
  s.postOpen 6 (some (BitVec.ofNat 8 reason)) none (some asid) none none

/-- What a LAUNCH lands: the handle, or 0 with the trap of R290. -/
def State.landHandle (s : State) (tag : Nat) (h : Word) (reason : Nat) : State :=
  match s.awaiting tag with
  | none => s
  | some (t, k, c) =>
    if reason = 0 then s.arriveWord t k c.uid tag h none none
    else
      let addr : Word := match c.landingOf tag with
        | some l => l.write.word
        | none => 0
      s.arriveWord t k c.uid tag 0 none
        (some { name := .launchFormat, tval := (addr &&& 0x1FFFFF) <<< 32 ||| BitVec.ofNat 64 reason })

/-- What LAUNCH releases (R294): the launcher's writes before it, its multicast stores among them, and what it has
observed. -/
def launchAfter (s : State) (tag : Nat) : List Nat :=
  match s.awaiting tag with
  | some (_, _, c) => (s.history c).filter (fun id => decide (id < tag))
  | none => []

/-- The scheduler takes a record: it is forwarded to NODE0 once what its LAUNCH released has been performed (R294),
rejected, or pooled. -/
def State.accept (s : State) (ws : List Word) (tag : Nat) (source : Nat × Nat) : State :=
  let n0 := recNode0 ws
  if n0 ≠ s.node ∧ s.platform.nodes.contains n0 then
    { s with relayed := s.relayed ++
        [{ words := ws, src := { node := s.node, queue := BitVec.ofNat 3 source.1, index := source.2, tag := tag }
           after := launchAfter s tag }] }
  else
    let reason := launchReason s ws
    if reason ≠ 0 then (s.landHandle tag 0 reason).launchEvent (recAsid ws) reason
    else
      let (s1, h) := s.pool ws tag source (launchAfter s tag)
      s1.landHandle tag h 0

/-- One record of a queue is accepted, in rotation, while the pool has room; one that RECORD_ABORT has withdrawn only
leaves the queue. A slot that nothing has written reads 0. -/
def execRecordAcceptance (q : BitVec 3) (s : State) : Host.Outcome State Fault Refusal :=
  if s.nextQueue ≠ some q ∨ 4096 ≤ s.poolCount then .next s
  else
    let x := s.queueOf q
    let ws := (assocGet (x.cons.toNat % 256) x.slots).getD (List.replicate 32 0)
    let tag := if q.getLsbD 2 then x.tags.headD 0 else 0
    let s1 := { s.setQueueOf q { x with
        cons := x.cons + 1, tags := x.tags.tail, withdrawn := x.withdrawn.filter (fun n => n != x.cons.toNat) } with
      rotation := q + 1 }
    if x.withdrawn.contains x.cons.toNat then .next s1 else .next (s1.accept ws tag (q.toNat, x.cons.toNat))

/-- A record that stands between two packages. -/
def State.relayOf (s : State) (ws : List Word) (src : Origin) : Option Relay :=
  s.relayed.find? (fun y => y.words == ws && y.src == src)

/-- It stands there no longer. -/
def State.dropRelay (s : State) (ws : List Word) (src : Origin) : State :=
  { s with relayed := s.relayed.filter (fun y => !(y.words == ws && y.src == src)) }

/-- The record of an outgoing relay leaves, once what its LAUNCH released has been performed (R294). -/
def State.sendRelay (s : State) (ws : List Word) (src : Origin) : State :=
  match s.relayOf ws src with
  | some y =>
    if y.after.all (fun id => !s.openOp id) then
      let s1 := s.dropRelay ws src
      { s1 with out := s1.out ++ [.record (recNode0 ws) ws src] }
    else s
  | none => s

/-- What the launching package learns of a forwarded record: its LAUNCH lands the handle, or 0 with the reason. -/
def State.tellLauncher (s : State) (src : Origin) (h : Word) (reason : Nat) : State :=
  if src.tag = 0 then s
  else { s with out := s.out ++ [.handle src.node src.tag h (BitVec.ofNat 8 reason)] }

/-- A record on its way between two packages (R289, R294, R301). One for NODE0 elsewhere leaves; one that another package's
scheduler forwards enters the pool, is rejected, or waits while the pool is full. -/
def execForwardedRecord (words : List Word) (src : Origin) (s : State) : Host.Outcome State Fault Refusal :=
  let ws := (words ++ List.replicate 32 0).take 32
  if recNode0 ws ≠ s.node then .next (s.sendRelay ws src)
  else if 4096 ≤ s.poolCount then
    .next (if (s.relayOf ws src).isSome then s
      else { s with relayed := s.relayed ++ [{ words := ws, src := src, after := [] }] })
  else
    let s0 := s.dropRelay ws src
    let reason := launchReason s ws
    if reason ≠ 0 then .next ((s0.launchEvent (recAsid ws) reason).tellLauncher src 0 reason)
    else
      let (s1, h) := s0.pool ws 0 (8, 0) []
      .next ((s1.modRecord s0.nextId (fun r => { r with origin := some src })).tellLauncher src h 0)

/-! ### Dependences (R291, R36) -/

/-- The value of a counter: at its place in this package, where it is translated; none otherwise. -/
def counterValue (s : State) (asid : BitVec 12) (c : RecCounter) (ext : Word) : Option Word :=
  if c.node ≠ s.node then some ext
  else if c.space = 2 then
    let o := (ctrOff c.addr).toNat
    some (BitVec.ofNat 64 (natOfBytes (placeRead s (.scratch (nTileId c.addr) o) 8 0)))
  else
    match tableTrans s asid (flatPart c.addr) with
    | .home h _ _ _ => some (BitVec.ofNat 64 (natOfBytes (placeRead s h 8 0)))
    | .miss _ | .none => none

/-- The used dependences of a record, with their thresholds and the values that other packages report. -/
def recDeps (ws : List Word) (ext : Vector Word 4) : List (RecCounter × Word × Word) :=
  ([0, 1, 2, 3].map (fun d => (recCounter ws (12 + 3 * d), ws.getD (14 + 3 * d) 0, ext.toList.getD d 0))).filter
    (fun x => x.1.space != 0)

/-- Every dependence holds, as far as the tables translate them: an unmapped counter reads 0 only once it is mapped. -/
def depsHold (s : State) (ws : List Word) (ext : Vector Word 4) : Bool :=
  (recDeps ws ext).all (fun x => match counterValue s (recAsid ws) x.1 x.2.2 with
    | some v => x.2.1.ule v
    | none => false)

/-- The first flat frame of a dependence of this package that is not mapped. -/
def depMiss (s : State) (ws : List Word) : Option (Need × Word) :=
  (recDeps ws (Vector.replicate 4 0)).findSome? (fun x =>
    if x.1.node = s.node ∧ x.1.space = 3 ∧ (counterValue s (recAsid ws) x.1 0).isNone then
      some (.flat (x.1.addr.toNat / 65536), dTval 0 x.1.addr) else none)

/-- The MMP has been asked for a need of a record and has not mapped it: it is at work, or has refused for good. -/
def askedFor (s : State) (rid : Nat) (n : Need) : Bool :=
  s.mmp.faults.any (fun f => f.who == .scheduler rid && f.needs.contains n)

/-- A miss of the scheduler is served like any fault, merged with others of the same frame (R36, R172). A refusal stays on
record. -/
def State.touchCounter (s : State) (rid : Nat) (asid : BitVec 12) (n : Need) (tval : Word) : State :=
  ({ s with nextId := s.nextId + 1 } : State).modMmp (fun m => { m with faults := m.faults ++
    [{ id := s.nextId, who := .scheduler rid, asid := asid, needs := [n], stack := 0, tval := tval, stage := .walking
       due := s.gtc.toNat + 420 }] })

/-! ### Energy (R291, R320) -/

/-- Tiles that a record takes in the package. -/
def recTiles (ws : List Word) : Nat := let (w, h) := regionSize ws; w * h * recRegions ws * recCopies ws

/-- The power estimate of a record in milliwatts. -/
def recPower (ws : List Word) : Rat :=
  let etime := natBits (ws.getD 27 0).toNat 32 32
  let emj := natBits (ws.getD 27 0).toNat 0 32
  if etime = 0 then mkRat (2800000 * recTiles ws) 1024 else mkRat (emj * 3125000) etime

/-- BUDGET in milliwatts. -/
def Platform.budget (p : Platform) : Nat := natBits p.ebud.toNat 0 32

/-- The records that run in the package. -/
def State.running (s : State) : List Record := s.records.filter (fun r => r.phase == .running)

/-- The records whose estimates count against the budget: those that run, and those admitted and not yet bound. -/
def State.charged (s : State) : List Record :=
  s.records.filter (fun r => match r.phase with
    | .running => !r.left.isEmpty
    | .reserving _ | .reserved => true
    | .pooled | .requested | .saved | .ended => false)

/-- The energy condition: never while the measured power exceeds the budget; a record alone may exceed it. -/
def energyFits (s : State) (ws : List Word) : Bool :=
  let run := s.charged
  decide (s.platform.measured ≤ s.platform.budget)
    && (run.isEmpty || decide ((run.map (fun r => recPower r.words)).foldl (· + ·) (recPower ws) ≤ (s.platform.budget : Rat)))

/-! ### Placement (R27, R271, R291) -/

/-- A rectangle lies in the grid, and in one stack where it must. -/
def regionFits (ws : List Word) (nw : Nat) : Bool :=
  let (w, h) := regionSize ws
  let lim := if hasStackLevel ws || decide (2 ≤ recRed ws) then 16 else 32
  decide (nw < 1024 ∧ tileX nw % lim + w ≤ lim ∧ tileY nw % lim + h ≤ lim)

/-- The stacks of the copies of a region. -/
def copyStacks (pl : Placement) (i : Nat) : List Nat := (pl.corners.filter (fun c => c.1 == i)).map (fun c => stackOf c.2)

/-- The regions of one instance of a stack level share the stacks of their copies, and those of two instances share
none. -/
def instancesApart (ws : List Word) (pl : Placement) (n : Nat) : Bool :=
  (List.range n).all (fun i => (List.range n).all (fun j =>
    let same := i / regionExtent ws == j / regionExtent ws
    (copyStacks pl i).all (fun t => (copyStacks pl j).contains t == same)))

/-- Offsets within the stack of the copies of a region. -/
def copyOffsets (pl : Placement) (i : Nat) : List (Nat × Nat) :=
  ((pl.corners.filter (fun c => c.1 == i)).map (fun c => (tileX c.2 % 16, tileY c.2 % 16))).eraseDups

/-- The stacks of a group: 0 and 3, or 1 and 2, or any three (R271). -/
def groupStacksOk (red : Nat) (ss : List Nat) : Bool :=
  if red = 2 then ss == [0, 3] || ss == [3, 0] || ss == [1, 2] || ss == [2, 1]
  else ss.length == 3 && decide ss.Nodup

/-- Each region is placed once, or once in each stack of its group; the instances of a stack level lie in stacks of
their own. -/
def regionsPlaced (ws : List Word) (pl : Placement) : Bool :=
  let n := recRegions ws
  pl.corners.length == n * recCopies ws
    && (List.range n).all (fun i => decide ((copyStacks pl i).length = recCopies ws))
    && pl.corners.all (fun c => regionFits ws c.2)
    && (!decide (2 ≤ recRed ws) || (List.range n).all (fun i =>
        groupStacksOk (recRed ws) (copyStacks pl i) && (copyOffsets pl i).length == 1))
    && (!hasStackLevel ws || instancesApart ws pl n)

/-- The records that hold a scratchpad range on a tile: those that run, or have a reserved placement there. -/
def State.recordsOn (s : State) (t : Nat) : List Record :=
  s.records.filter (fun r => match r.phase with
    | .running | .reserving _ | .reserved => (placedTiles r.words r.placement).contains t
    | .pooled | .requested | .saved | .ended => false)

/-- The range of a record meets no range of another record there, and no release buffer (R147, R291). -/
def rangeFits (ws : List Word) (others : List (List Word)) : Bool :=
  let lo := recSpBase ws
  let hi := lo + recSpSize ws
  others.all (fun o =>
    let ol := recSpBase o
    let oh := ol + recSpSize o
    !(decide (lo < oh ∧ ol < hi)) && !(decide (2 ≤ recRed ws) && decide (31 < oh))
      && !(decide (2 ≤ recRed o) && decide (31 < hi)))

/-- The slot of a tile whose primary bank is free, and which no reservation holds. -/
def slotFree (s : State) (t : Nat) (k : SlotNo) : Bool :=
  let sl := (s.tile t).slot k
  sl.primary.status == .free && decide (sl.moving ≤ s.gtc.toNat)
    && !s.records.any (fun r => (match r.phase with
      | .reserving _ | .reserved => true
      | .pooled | .requested | .running | .saved | .ended => false)
      && (r.placement.slotsOf t).contains k && (placedTiles r.words r.placement).contains t)

/-! ### What a saved record needs of its new tiles (R19, R240, R300) -/

/-- Where a tile of the old placement lies in the new one: the same tile of the same copy of its region. -/
def relocateTile (r : Record) (pl : Placement) (t : Nat) : Nat :=
  match r.placement.corners.findSome? (fun c =>
      ((r.placement.copiesOf c.1).zip (pl.copiesOf c.1)).findSome? (fun y =>
        ((regionTiles r.words y.1).zip (regionTiles r.words y.2)).findSome? (fun x =>
          if x.1 = t then some x.2 else none))) with
  | some u => u
  | none => t

/-- What the saved contexts of a tile need of a new one: their slots, which they keep (R19); a matrix unit without an
owner for a saved accumulator image (R240); free channels, room in the buffer and in the grammar queue, and their
comparators. -/
def tileTakes (s : State) (r : Record) (old t : Nat) : Bool :=
  let on := r.savedCtxs.filter (fun x => x.tile == old)
  let y := s.tile t
  on.all (fun x =>
    slotFree s t x.slot
      && (x.acc.isNone || (y.mxu.owner.isNone && y.mxu.clearing.isNone))
      && x.runs.all (fun z => (y.channel z.1).run.isNone)
      && x.armed.all (fun z => (y.comparators.toList.getD z.1 none).isNone))
    && decide (y.geu.queue.length + (on.flatMap (fun x => x.geu)).length ≤ 4)
    && decide (y.buffer.length + (on.flatMap (fun x => x.buffered)).length ≤ 32)

/-- A placement is free for a record; for a saved record it gives each tile the slots of the old one. -/
def placementFree (s : State) (r : Record) (pl : Placement) : Bool :=
  let ts := placedTiles r.words pl
  regionsPlaced r.words pl && decide ts.Nodup
    && ts.all (fun t => rangeFits r.words ((s.recordsOn t).map (fun o => o.words)))
    && (if r.phase = .saved then
          (placedTiles r.words r.placement).all (fun t =>
            pl.slotsOf (relocateTile r pl t) == r.placement.slotsOf t && tileTakes s r t (relocateTile r pl t))
        else ts.all (fun t =>
          decide (pl.slotsOf t).Nodup && (pl.slotsOf t).length == recContexts r.words && (pl.slotsOf t).all (slotFree s t)))

/-! ### A search for a placement -/

/-- The first n free slots of a tile. -/
def freeSlots (s : State) (n t : Nat) : List SlotNo := (allSlots.filter (slotFree s t)).take n

/-- The slots that a record takes of a tile: the first free ones, or those of its old tile. -/
def slotsAt (s : State) (r : Record) (old t : Nat) : Option (List SlotNo) :=
  if r.phase = .saved then (if tileTakes s r old t then some (r.placement.slotsOf old) else none)
  else
    let ks := freeSlots s (recContexts r.words) t
    if ks.length = recContexts r.words then some ks else none

/-- The old tile that the o-th tile of the j-th copy of region i had; 0 for a record that has none. -/
def oldTile (r : Record) (i j o : Nat) : Nat :=
  match (r.placement.copiesOf i)[j]? with
  | some nw => (regionTiles r.words nw).getD o 0
  | none => 0

/-- The j-th copy of region i at a north-west tile, beside the tiles already taken: its tiles with their slots. -/
def regionFree (s : State) (r : Record) (taken : List Nat) (i j nw : Nat) : Option (List (Nat × List SlotNo)) :=
  if regionFits r.words nw then
    (regionTiles r.words nw).zipIdx.mapM (fun t =>
      if taken.contains t.1 then none
      else if rangeFits r.words ((s.recordsOn t.1).map (fun o => o.words)) then
        (slotsAt s r (oldTile r i j t.2) t.1).map (fun ks => (t.1, ks))
      else none)
  else none

/-- The stacks in which the copies of a region may lie. -/
def stackChoices (ws : List Word) : List (List Nat) :=
  if recRed ws = 2 then [[0, 3], [1, 2]]
  else if recRed ws = 3 then [[0, 1, 2], [0, 1, 3], [0, 2, 3], [1, 2, 3]]
  else []

/-- A tile by its stack and its offset in it. -/
def stackTile (st o : Nat) : Nat := (o / 16 + 16 * (st / 2)) * 32 + (o % 16 + 16 * (st % 2))

/-- The copies of region i at some north-west tiles. -/
def copiesFree (s : State) (r : Record) (taken : List Nat) (i : Nat) (nws : List Nat) : Option Placement :=
  (nws.zipIdx.mapM (fun n => regionFree s r taken i n.2 n.1)).map (fun fs =>
    { corners := nws.map (fun n => (i, n)), slots := fs.flatten })

/-- Where region i may lie: lists of the north-west tiles of its copies, from a first offset on. With copies or under a
stack level they lie at one offset of the stacks that the choice for its instance gives. -/
def regionSpots (ws : List Word) (inst : List (List Nat)) (i first : Nat) : List (List Nat) :=
  let at_ (sss : List (List Nat)) : List (List Nat) :=
    (List.range 256).flatMap (fun o => if o < first then [] else sss.map (fun ss => ss.map (fun st => stackTile st o)))
  if hasStackLevel ws then at_ [inst.getD (i / regionExtent ws) []]
  else if 2 ≤ recRed ws then at_ (stackChoices ws)
  else (List.range 1024).filterMap (fun t => if t < first then none else some [t])

/-- The first offset that remains for the next region: the regions of an unsaved record that may change places are taken
in rising order. -/
def nextSpot (r : Record) (i : Nat) (nws : List Nat) : Nat :=
  if r.phase = .saved ∨ (2 ≤ recRed r.words ∧ hasStackLevel r.words = false)
      ∨ (hasStackLevel r.words = true ∧ (i + 1) % regionExtent r.words = 0) then 0
  else match nws with
    | t :: _ => if hasStackLevel r.words then tileY t % 16 * 16 + tileX t % 16 + 1 else t + 1
    | [] => 0

/-- The regions of a record, one after the other, each at every spot that its forerunners leave free until all are
placed; some tiles are taken. -/
def placeRegions (s : State) (r : Record) (inst : List (List Nat)) (taken : List Nat) :
    List Nat → Nat → Placement → Option Placement
  | [], _, acc => some acc
  | i :: is, first, acc =>
    (regionSpots r.words inst i first).findSome? (fun nws =>
      if nws.isEmpty then none
      else match copiesFree s r (taken ++ placedTiles r.words acc) i nws with
        | some p => placeRegions s r inst taken is (nextSpot r i nws)
            { corners := acc.corners ++ p.corners, slots := acc.slots ++ p.slots }
        | none => none)

/-- The orders in which stack instances may take the four stacks. -/
def stackOrders : List (List Nat) :=
  [0, 1, 2, 3].flatMap (fun a => [0, 1, 2, 3].flatMap (fun b => [0, 1, 2, 3].flatMap (fun c => [0, 1, 2, 3].filterMap
    (fun d => if [a, b, c, d].Nodup then some [a, b, c, d] else none))))

/-- The stacks that the instances of a stack level may take: one for each, or with copies those of a group. -/
def instanceStacks (ws : List Word) : List (List (List Nat)) :=
  if hasStackLevel ws = false then [[]]
  else if recRed ws < 2 then stackOrders.map (fun o => o.map (fun t => [t]))
  else if recRed ws = 2 then [[[0, 3], [1, 2]], [[1, 2], [0, 3]]]
  else (stackChoices ws).map (fun ss => [ss])

/-- A placement beside some tiles: the first that the search finds, if the MMP can reserve the areas. Of the placements
that are free, which one the scheduler takes is its own choice (R27; DESIGN CHOICE, unsafe; log entry 18). -/
def placementBeside (s : State) (r : Record) (taken : List Nat) : Option Placement :=
  ((instanceStacks r.words).findSome? (fun st =>
    placeRegions s r st taken (List.range (recRegions r.words)) 0 { corners := [], slots := [] })).filter
    (fun pl => placementFree s r pl
      && (!r.areas.isEmpty || (s.reserveAreas r.words (placedTiles r.words pl)).isSome))

/-- A placement that is free. (DESIGN CHOICE, unsafe; log entry 18.) -/
def findPlacement (s : State) (r : Record) : Option Placement := placementBeside s r []

/-! ### Admission (R291, R292) -/

/-- A record waits for admission. -/
def Record.waits (r : Record) : Bool :=
  match r.phase with
  | .pooled | .saved => true
  | .requested | .reserving _ | .reserved | .running | .ended => false

/-- The dependences of a record hold; they are NODE0's to observe. -/
def depsMet (s : State) (r : Record) (ext : Vector Word 4) : Bool := r.pkgIndex != 0 || depsHold s r.words ext

/-- The package admits records: its compute dies are out of reset, and there is no thermal emergency (R317, R318, R321). -/
def State.admitting (s : State) : Bool := s.platform.released && !s.platform.emergency && !s.platform.safe

/-- Everything of R291 but the placement and the areas. What the launch and the observed posts released has been performed
(R294). A saved record is bound again under the same conditions (R296). -/
def otherwiseAdmissible (s : State) (r : Record) (ext : Vector Word 4) : Bool :=
  r.waits && s.admitting && depsMet s r ext && energyFits s r.words && r.after.all (fun id => !s.openOp id)

/-- A record comes before another: by priority, then by acceptance (R292). -/
def Record.before (a b : Record) : Bool :=
  decide (recPrio b.words < recPrio a.words) || (recPrio a.words == recPrio b.words && decide (a.order < b.order))

/-- A reserved record holds back those of its priority and below; of two, the older holds. -/
def gated (s : State) (r : Record) : Bool :=
  s.records.any (fun o => o.waits && decide (16 ≤ o.passed) && o.rid != r.rid && decide (recPrio r.words ≤ recPrio o.words)
    && !(decide (16 ≤ r.passed) && decide (r.order < o.order)))

/-- Every context of a DET record waits at SBAR (R296). -/
def allAtBarrier (s : State) (rid : Nat) : Bool := (s.bound rid).all (fun x => x.2.2.2.status == .blocked .superstep)

/-- The records that may be pre-empted for one of higher priority (R296). -/
def victims (s : State) (r : Record) : List Record :=
  s.running.filter (fun o => decide (recPrio o.words < recPrio r.words) && !o.left.isEmpty
    && (!recDet o.words || allAtBarrier s o.rid))

/-- The package without some running records, as far as a placement goes: they hold no slot and no range. -/
def State.without (s : State) (os : List Record) : State :=
  let s1 := os.foldl (fun (st : State) o => (st.bound o.rid).foldl (fun (st : State) x =>
    st.modTile x.1 (fun y => (y.dropClaim x.2.2.2.uid false).setSlot x.2.1 Slot.reset)) st) s
  { s1 with records := s1.records.filter (fun o => !os.any (fun v => v.rid == o.rid)) }

/-- A record that waits only for a placement, and to which the pre-emption of records of lower priority would give one
(R296). -/
def awaitsVictims (s : State) (o : Record) : Bool :=
  let vs := victims s o
  otherwiseAdmissible s o o.seen && !gated s o && (findPlacement s o).isNone && !vs.isEmpty
    && (findPlacement (s.without vs) o).isSome

/-- No record that comes first could be admitted instead. -/
def isFirst (s : State) (r : Record) : Bool :=
  s.records.all (fun o => !(o.before r && o.rid != r.rid && otherwiseAdmissible s o o.seen
    && !gated s o && (findPlacement s o).isSome))

/-- The tiles on which pre-emption makes room for a record that comes first: no later record takes them.
(DESIGN CHOICE, unsafe; log entry 18.) -/
def earmarked (s : State) (r : Record) : List Nat :=
  s.records.flatMap (fun o =>
    if o.before r && o.rid != r.rid && awaitsVictims s o then
      (match findPlacement (s.without (victims s o)) o with
        | some pl => placedTiles o.words pl
        | none => [])
    else [])

/-- The older records of equal or higher priority that an admission passes over because of placement or energy. -/
def State.passOver (s : State) (r : Record) : State :=
  { s with records := s.records.map (fun o =>
      if o.waits && o.rid != r.rid && decide (o.order < r.order) && decide (recPrio r.words ≤ recPrio o.words)
          && depsMet s o o.seen then { o with passed := o.passed + 1 } else o) }

/-- The checks that an admission makes of a placement. -/
def admits (s : State) (r : Record) (pl : Placement) (ext : Vector Word 4) : Bool :=
  otherwiseAdmissible s r ext && !gated s r && placementFree s r pl && isFirst s r
    && (earmarked s r).all (fun t => !(placedTiles r.words pl).contains t)

/-- A record takes a placement in this package, and the MMP reserves its areas. -/
def State.reserve (s : State) (r : Record) (pl : Placement) (ph : Phase) : Option State :=
  (s.reserveAreas r.words (placedTiles r.words pl)).map (fun (as, s1) =>
    s1.modRecord r.rid (fun r => { r with placement := pl, phase := ph, areas := as }))

/-- NODE0 asks the first package that has not answered (R293). -/
def State.askNext (s : State) (rid : Nat) : List Nat → State
  | [] => s
  | n :: _ => { s with out := s.out ++ [.reserve (BitVec.ofNat 21 n) rid] }

/-- A pooled record is admitted on a placement: it is reserved here, and asks the other packages one after the other in
ascending order; each answer comes as another admission of the record. A dependence in a frame that is not mapped is first
served; `ext` is what other packages report of theirs. -/
def execRecordAdmission (rid : Nat) (pl : Placement) (ext : Vector Word 4) (s : State) :
    Host.Outcome State Fault Refusal :=
  match s.record rid with
  | none => .next s
  | some r =>
    match r.phase with
    | .reserving (_ :: left) =>
      .next ((s.askNext rid left).modRecord rid (fun r => { r with
        phase := if left.isEmpty then .reserved else .reserving left }))
    | .pooled =>
      match depMiss s r.words with
      | some (n, tval) => .next (if askedFor s rid n then s else s.touchCounter rid (recAsid r.words) n tval)
      | none =>
        let s0 := s.modRecord rid (fun r => { r with seen := ext })
        if admits s r pl ext then
          let others := otherNodes s r.words
          match (s0.passOver r).reserve r pl (if others.isEmpty then .reserved else .reserving others) with
          | some s1 => .next (s1.askNext rid others)
          | none => .next s0
        else .next s0
    | .reserving [] | .requested | .reserved | .running | .saved | .ended => .next s

/-- NODE0's request with a number. -/
def State.requestOf (s : State) (node0 : BitVec 21) (rid : Nat) : Option Record :=
  s.records.find? (fun r => r.source == (8, rid) && recNode0 r.words == node0 && r.phase == .requested)

/-- A kept request is answered when the package can reserve its placement. -/
def State.answerRequest (s : State) (r : Record) (pl : Placement) : State :=
  if s.admitting = true ∧ launchReason s r.words = 0 ∧ energyFits s r.words = true ∧ placementFree s r pl = true then
    match s.reserve r pl .reserved with
    | some s1 => { s1 with out := s1.out ++ [.reserved (recNode0 r.words) r.source.2] }
    | none => s
  else s

/-- NODE0's scheduler asks for a reservation; the request is kept, and answered when the placement is free (R293). -/
def execReserveRequest (rid : Nat) (words : List Word) (pl : Placement) (s : State) : Host.Outcome State Fault Refusal :=
  let ws := (words ++ List.replicate 32 0).take 32
  let n0 := recNode0 ws
  match s.requestOf n0 rid with
  | some r => .next (s.answerRequest r pl)
  | none =>
    if n0.toNat < s.node.toNat ∧ s.node.toNat < n0.toNat + recPackages ws then
      let s1 := (s.pool ws 0 (8, rid) []).1.modRecord s.nextId (fun r => { r with phase := .requested })
      match s1.record s.nextId with
      | some r => .next (s1.answerRequest r pl)
      | none => .next s1
    else .next s

/-! ### Binding (R23, R293, R294) -/

/-- The indices of a context at the launch levels, from its flat index. -/
def indexAt (ws : List Word) (flat i : Nat) : Nat :=
  if i < recNlev ws then flat / instanceSize ws i % levelExtent ws i else 0

/-- SPMODE and KEYS of an entry procedure (R141). -/
def procWords (s : State) (asid : BitVec 12) (entry : Word) : Word × Word :=
  match s.procs.find? (fun p => p.asid == asid && p.entry == entry) with
  | some p => (p.spmode &&& 1, p.keys &&& 0x3FFFFF)
  | none => (0, 0)

/-- The registers at binding: s1 holds ARG, and s56 + i the index at level i. -/
def bindRegs (ws : List Word) (flat : Nat) : Regs :=
  (List.range 8).foldl (fun (g : Regs) i => g.setS (BitVec.ofNat 6 (56 + i)) (BitVec.ofNat 64 (indexAt ws flat i)))
    (Regs.reset.setS 1 (ws.getD 2 0))

/-- The log stream of a context (R283). -/
def bindLog (ws : List Word) (flat : Nat) : LogPos :=
  if recLog ws || recReplay ws then
    let size := (ws.getD 31 0).toNat / recTotal ws / 8 * 8
    { active := true, replay := recReplay ws, base := (ws.getD 30 0).toNat + flat * size, len := size, pos := 0, scans := [] }
  else LogPos.none

/-- A context as it is bound (R23). -/
def bindContext (s : State) (r : Record) (t uid flat group : Nat) : Context :=
  let ws := r.words
  let (spmode, keys) := procWords s (recAsid ws) (recEntry ws)
  { Context.reset with
    uid := uid, status := .ready, rid := r.rid, asid := recAsid ws, prio := recPrio ws, det := recDet ws
    nlev := BitVec.ofNat 4 (recNlev ws), index := Vector.ofFn (fun i : Fin 8 => indexAt ws flat i.val)
    pc := recEntry ws, regs := bindRegs ws flat
    special := { Special.reset with
      spmode := spmode, keys := keys, tvec := recEntry ws, tdm := (1 : Word) <<< 8 ||| (1 : Word) <<< stackOf t }
    age := s.gtc.toNat, earliest := s.gtc.toNat
    replica := { Replica.none with group := group, stack := BitVec.ofNat 2 (stackOf t) }
    log := bindLog ws flat, flat := flat, dieMap := s.platform.dieMap }

/-- A replica group for each flat index of a replicated record: the number of the group of a flat index is n + flat. -/
def State.addGroups (s : State) (r : Record) (n : Nat) (cs : List (Nat × SlotNo × Nat × Nat)) : State :=
  if recRed r.words < 2 then s
  else
    let flats := (cs.map (fun c => c.2.2.1)).eraseDups
    { s with groups := s.groups ++ flats.map (fun fl =>
        let ms := (cs.filter (fun c => c.2.2.1 == fl)).map (fun c =>
          ((BitVec.ofNat 2 (stackOf c.1) : BitVec 2), (BitVec.ofNat 10 c.1 : TileId), c.2.1, c.2.2.2))
        let live := ms.foldl (fun acc m => acc ||| (1 : BitVec 4) <<< m.1.toNat) 0
        let g : Group :=
          { id := n + fl, rid := r.rid, members := ms, live := live, lead := 0, red := BitVec.ofNat 2 (recRed r.words)
            red0 := BitVec.ofNat 2 (recRed r.words), votes := 0, voting := none, lost := 0, holdAt := none, resumeBy := none }
        { g with lead := g.chooseLead }) }

/-- A start pulse leaves the origin, the north-west tile of region 0 of package 0, for each tile of the record; the other
packages are told (R297). -/
def State.sendPulses (s : State) (r : Record) : State :=
  match r.placement.corners.find? (fun c => c.1 == 0) with
  | some o =>
    { s with
      pulses := s.pulses ++ (placedTiles r.words r.placement).map (fun t =>
        { rid := r.rid, tile := BitVec.ofNat 10 t, due := s.gtc.toNat + hopLatency o.2 t })
      out := s.out ++ (otherNodes s r.words).map (fun n => .pulse (BitVec.ofNat 21 n) r.rid o.2 s.gtc.toNat) }
  | none => s

/-- The first pulse leaves once every package has bound. -/
def State.firstPulse (s : State) (r : Record) : State :=
  if recDet r.words && r.pkgIndex == 0 && r.unbound.isEmpty then s.sendPulses r else s

/-- Every context of the package part of a record is bound in one cycle. -/
def State.bind (s : State) (r : Record) : State :=
  let cs := placedContexts r r.placement
  let gbase := s.nextId + cs.length
  let numbered := cs.zipIdx.map (fun c => (c.1.1, c.1.2.1, c.1.2.2, s.nextId + c.2))
  let red := decide (2 ≤ recRed r.words)
  let s1 := numbered.foldl (fun (st : State) c =>
    st.setCtx c.1 c.2.1 .primary
      (bindContext s r c.1 c.2.2.2 c.2.2.1 (if red then gbase + c.2.2.1 else 0))) s
  let s2 := { s1 with nextId := gbase + recTotal r.words + 1 }
  let s3 := s2.addGroups r gbase numbered
  let rest := if r.pkgIndex = 0 then otherNodes s r.words else []
  let s4 := (s3.firstPulse { r with unbound := rest }).modRecord r.rid (fun r => { r with
    phase := .running, left := numbered.map (fun c => c.2.2.2), dispatchedAt := s.gtc.toNat, unbound := rest, away := rest
    committed := false })
  if r.pkgIndex = 0 then { s4 with out := s4.out ++ rest.map (fun n => .commit (BitVec.ofNat 21 n) r.rid) }
  else { s4 with out := s4.out ++ [.bound (recNode0 r.words) r.source.2] }

/-- The slots of a reserved placement are still free. -/
def stillFree (s : State) (r : Record) : Bool :=
  (placedTiles r.words r.placement).all (fun t => (r.placement.slotsOf t).all (fun k =>
    ((s.tile t).slot k).primary.status == .free))

/-- A package reports that it has bound: with the last, the first start pulse leaves. -/
def State.boundElsewhere (s : State) (r : Record) : State :=
  let rest := r.unbound.tail
  (if r.unbound.isEmpty then s else s.firstPulse { r with unbound := rest }).modRecord r.rid (fun r => { r with unbound := rest })

/-- Dispatch: a one-package record binds, or NODE0 commits once every package has reserved, and each package binds; where a
slot is not free then, the commit stands until it is. A dispatch of a record that runs is the report of another package that
it has bound its part. -/
def execDispatch (rid : Nat) (s : State) : Host.Outcome State Fault Refusal :=
  match s.record rid with
  | none => .next s
  | some r =>
    match r.phase with
    | .reserved =>
      if s.platform.released && stillFree s r then .next (s.bind r)
      else .next (if r.pkgIndex = 0 then s else s.modRecord rid (fun r => { r with committed := true }))
    | .running => .next (s.boundElsewhere r)
    | .pooled | .requested | .reserving _ | .saved | .ended => .next s

end Sys2Proof.Machine
end

