-- ==== Sys2Proof/Machine/Area.lean ====
section
/-! DEFINITION. The images of a tile area (R299, Tables 15-3 and 15-4). The tables give where each part begins and what it
holds; the order of the words inside a part for which they give none is the table's order of naming (DESIGN CHOICE, unsafe;
log entry 55). -/

namespace Sys2Proof.Machine

/-- The bytes of some words. -/
def wordsBytes (ws : List Word) : List Byte := ws.flatMap (fun w => bytesOfNat 8 w.toNat)

/-- Numbers as the words of an image. -/
def natsBytes (ns : List Nat) : List Byte := ns.flatMap (bytesOfNat 8)

/-- The mapping under which the range of a record's tile is saved: that of its contexts there, or of its entry procedure
once they have all exited (R142, R299). -/
def rangeMapping (s : State) (r : Record) (xs : List SavedCtx) (t : Nat) : Mapping :=
  match xs.find? (fun x => x.tile == t) with
  | some x => x.ctx.mapping
  | none =>
    let (spmode, keys) := procWords s (recAsid r.words) (recEntry r.words)
    { Context.reset with special := { Special.reset with spmode := spmode, keys := keys } }.mapping

/-! ### The header -/

/-- The header of an area: the handle, the slots of its contexts, the offsets of the parts, the scratchpad range, and the
shape and index of the tile's region. -/
def headerImage (s : State) (r : Record) (xs : List SavedCtx) (parts : AreaParts) (t : Nat) : List Byte :=
  let (w, h) := regionSize r.words
  let index := ((r.placement.corners.find? (fun c => (regionTiles r.words c.2).contains t)).map Prod.fst).getD 0
  natsBytes ([s.node.toNat * 2 ^ 32 + r.seq.toNat, xs.length] ++ xs.map (fun x => x.slot.toNat)
    ++ [parts.scratch, parts.acc, parts.engines, parts.contexts, recSpBase r.words, recSpSize r.words, w, h, index])

/-! ### The engines -/

/-- A transfer command: its channel, slot, record, mapping and times. -/
def commandImage (c : XCmd) : List Byte :=
  natsBytes [c.ch.toNat, c.slot.toNat, if c.tiled then 1 else 0, c.recOff, c.accepted, c.promise]
    ++ wordsBytes (c.keys :: c.spmode :: c.words.toList)

/-- A running command with its watermark, its resume offset, its retention and the indices it has taken from its queue. -/
def runImage (x : Chan × XRun) : List Byte :=
  let r := x.2
  commandImage r.cmd ++ natsBytes ([r.start, r.done, r.taken, r.crc.toNat, r.values, r.flags.toNat, r.indices.length]
      ++ r.indices)
    ++ natsBytes [r.packed.length] ++ r.packed
    ++ r.held.flatMap (fun y => natsBytes [y.1, y.2.length] ++ y.2)

/-- A command of the grammar unit: GLOAD with its base, GRUN with its operands and the row from which it resumes (R256). -/
def geuImage : GeuCmd → List Byte
  | .load slot _ _ base keys spmode _ _ => natsBytes [0, slot.toNat, base, keys.toNat, spmode.toNat]
  | .run slot _ _ a c sat f o keys spmode _ _ resume =>
    natsBytes [1, slot.toNat, a.toNat, (c.map BitVec.toNat).getD 0, (if sat then 1 else 0), f.code.toNat,
      (if CmdOrd.waits o then 1 else 0) + (if CmdOrd.releases o then 2 else 0), keys.toNat, spmode.toNat, resume]

/-- The engine image of a tile, in the order of Table 15-3: channel commands, buffered entries, the grammar unit. -/
def engineImage (xs : List SavedCtx) : List Byte :=
  (natsBytes [(xs.flatMap SavedCtx.runs).length, (xs.flatMap SavedCtx.buffered).length, (xs.flatMap SavedCtx.geu).length]
    ++ (xs.flatMap SavedCtx.runs).flatMap runImage ++ (xs.flatMap SavedCtx.buffered).flatMap commandImage
    ++ (xs.flatMap SavedCtx.geu).flatMap geuImage).take 0x8000

/-! ### Context records -/

/-- The words of the held records of a context, in the slot part of its release buffer (R278). -/
def releaseBytes (c : Context) : List Byte := c.replica.buffer.flatMap (fun h => wordsBytes h.words)

/-- The saved state of a context, in the order of Table 2-3. -/
def CtxStatus.image : CtxStatus → Nat
  | .free => 0
  | .ready => 1
  | .issuing => 2
  | .blocked _ => 3
  | .parked _ => 4
  | .readyOut => 5
  | .draining => 6
  | .halted => 7

/-- The first 256 bytes of a context record: state, PC, BCNT and the pending redirects (R92). -/
def stateImage (c : Context) : List Byte :=
  (natsBytes [c.status.image, c.pc.toNat, c.bcnt.toNat, c.redirects.length]
    ++ c.redirects.flatMap (fun d => wordsBytes [d.due, d.target])).take 0x100

/-- The special registers with RW or RS access, the queues, the windows, the loops, the claim, TDM, and S and n. -/
def specialImage (x : SavedCtx) (lreq xreq : Word) : List Byte :=
  let c := x.ctx
  let sp := c.special
  (wordsBytes ([lreq, xreq, sp.lstall, sp.spmerr, sp.fstat, c.qstat, sp.qcfg, sp.keys, sp.spmode, sp.tvec, sp.tcause, sp.epc,
      sp.tval] ++ c.queues.toList.map Queue.image ++ c.windows.toList)
    ++ natsBytes [c.loops.length]
    ++ c.loops.flatMap (fun l => wordsBytes [l.top] ++ natsBytes [l.m, l.n, l.k, l.depth, l.i])
    ++ natsBytes [if x.acc.isSome then 1 else 0] ++ wordsBytes [sp.tdm]
    ++ bytesOfNat 16 c.replica.sig.toNat ++ bytesOfNat 8 c.replica.count.toNat).take 0x400

/-- The register of an entry: its file and its number. -/
def Write.register : Write → Nat × Nat
  | .s r _ => (0, r.toNat)
  | .p r _ => (1, r.toNat)
  | .v r _ => (2, r.toNat)
  | .m r _ => (3, r.toNat)
  | .q r _ => (4, r.toNat)
  | .k r _ => (5, r.toNat)

/-- The 256 bytes of the value of an entry. -/
def Write.valueBytes : Write → List Byte
  | .s _ x | .k _ x => bytesOfNat 256 x.toNat
  | .p _ x => bytesOfNat 256 (if x then 1 else 0)
  | .v _ x => vecBytes x
  | .m _ x => bytesOfNat 256 x.toNat
  | .q _ x => bytesOfNat 256 x.image.toNat

/-- An entry of the landing queue, or of the trap shadow, in 264 bytes: its register and the low bits of its landing bundle,
or of its distance, and its value. -/
def landingImage (l : Landing) : List Byte :=
  let (file, n) := l.write.register
  bytesOfNat 8 (file + 8 * n + 2 ^ 16 * (l.due.toNat % 2 ^ 48)) ++ l.write.valueBytes

/-- The 128 entries of a landing queue. -/
def landingsImage (ls : List Landing) : List Byte := ((ls.take 128).flatMap landingImage)

/-- The parts of a context record (Table 15-4), by offset. -/
def contextImage (x : SavedCtx) (lreq xreq : Word) : List (Nat × List Byte) :=
  let c := x.ctx
  [(0, stateImage c),
   (0x100, wordsBytes (c.regs.s.toList ++ [c.regs.p]) ++ c.regs.m.toList.flatMap (fun m => bytesOfNat 8 m.toNat)),
   (0x400, c.regs.v.toList.flatMap vecBytes),
   (0x2400, c.regs.q.toList.flatMap (fun q => bytesOfNat 80 q.image.toNat) ++ wordsBytes (c.qstat :: c.regs.k.toList)),
   (0x2A00, c.queues.toList.flatMap (fun q => vecBytes q.latch)),
   (0x3A00, specialImage x lreq xreq),
   (0x3E00, landingsImage c.landing),
   (0xC200, match c.shadow with
     | some sh => landingsImage sh.landing
     | none => [])]

/-! ### The area of a tile -/

/-- The accumulator image: 4,096 quire images, then the NAR and OVF pairs (R132, R240). -/
def State.writeAcc (s : State) (a : TileArea) (off : Nat) (acc : List (Nat × Quire)) : State :=
  acc.foldl (fun (st : State) x =>
    let s1 := st.writeArea a (off + 80 * x.1) (bytesOfNat 80 x.2.image.toNat)
    let at_ := off + 80 * 4096 + x.1 / 4
    let old := (s1.readArea a at_ 1).headD 0
    let pair := (if x.2.nar then 1 else 0) + (if x.2.ovf then 2 else 0)
    s1.writeArea a at_ [old ||| BitVec.ofNat 8 (pair * 2 ^ (2 * (x.1 % 4)))]) s

/-- The image of one tile of a record, written into its area (Table 15-3): header, scratchpad range, held records,
accumulators, engines and the records of its contexts, in slot order. A restore reads the scratchpad range from it, and the
rest from the saved contexts, of which it is the image. (DESIGN CHOICE, unsafe; log entry 55.) -/
def State.saveArea (s : State) (r : Record) (xs : List SavedCtx) (a : TileArea) : State :=
  let here := xs.filter (fun x => x.tile == a.tile)
  let tile := s.tile a.tile
  let owner := here.findSome? (fun x => x.acc)
  let parts := recParts r.words owner.isSome
  let lo := recSpBase r.words * 65536
  let hi := lo + recSpSize r.words * 65536
  let m := rangeMapping s r xs a.tile
  let s0 := { s with hbm := a.frames.foldl (fun (h : Memory) f => clearRange h (f * 65536) 65536) s.hbm }
  let range := tile.scratch.filter (fun c => decide (lo ≤ c.1 ∧ c.1 < hi))
  let s1 := { s0 with hbm := range.foldl (fun (h : Memory) c =>
    Memory.write h (a.addr (parts.scratch + (m.phys c.1 - lo))) c.2) s0.hbm }
  let s2 := if 2 ≤ recRed r.words then
      here.zipIdx.foldl (fun (st : State) x =>
        st.writeArea a (parts.scratch + recSpSize r.words * 65536 + 0x4000 * x.2) (releaseBytes x.1.ctx)) s1
    else s1
  let s3 := match owner with
    | some acc => s2.writeAcc a parts.acc acc
    | none => s2
  let s4 := (s3.writeArea a 0 (headerImage s r here parts a.tile)).writeArea a parts.engines (engineImage here)
  here.zipIdx.foldl (fun (st : State) x => (contextImage x.1 tile.lreq tile.xreq).foldl (fun (st : State) p =>
    st.writeArea a (parts.contexts + 0x18000 * x.2 + p.1) p.2) st) s4

end Sys2Proof.Machine
end

