-- ==== Sys2Proof/Machine/Preempt.lean ====
section
/-! DEFINITION. The end of a record (R36), pre-emption and restore (R34, R219, R240, R256, R286, R296, R299, R300, R311),
and RECORD_ABORT (R298). A context area is held as the record's saved contexts and saved tiles (Tables 15-3 and 15-4). -/

namespace Sys2Proof.Machine

/-! ### Completion (R36) -/

/-- What the scheduler keeps about a record goes with it. -/
def State.endRecord (s : State) (rid : Nat) : State :=
  let s := match s.record rid with
    | some r => s.freeAreas r
    | none => s
  { s with
    records := s.records.filter (fun r => r.rid != rid)
    barriers := s.barriers.filter (fun b => b.rid != rid)
    pulses := s.pulses.filter (fun p => p.rid != rid)
    groups := s.groups.filter (fun g => g.rid != rid)
    scans := s.scans.filter (fun o => o.rid != rid)
    mmp := { s.mmp with faults := s.mmp.faults.filter (fun f => f.who != .scheduler rid) } }

/-- The add on its way: a release, after every write of the record's address space. -/
def State.completionFlight (s : State) (r : Record) (space : Space) (us : List AccessUnit) (tval : Word) (lat : Nat) :
    State :=
  let asid := recAsid r.words
  { s with nextId := s.nextId + 1 }.addFlight
    { id := s.nextId, issuer := .scheduler r.rid, space := space, asid := asid, units := us
      after := (s.flights.filter (fun (f : Flight) => f.writes && f.isOpen && f.asid == asid)).map Flight.id
      sink := .none, data := [], poison := none, tval := tval, causal := true, writes := true, at_ := 0, lat := lat
      due := s.gtc.toNat + lat }

/-- The completion add of a record: made, dropped, or waiting on the MMP (none). -/
def State.postCompletion (s : State) (r : Record) : Option State × State :=
  let c := recCounter r.words 24
  let asid := recAsid r.words
  let amt := recCamt r.words
  let flat (st : State) : Option State :=
    match tableTrans st asid (flatPart c.addr) with
    | .home h p e w =>
      some (st.completionFlight r .d (unitsOf (fun _ => .cadd amt) [(flatPart c.addr, .home h p e w)]) (dTval 0 c.addr) 560)
    | .miss _ | .none => none
  if c.space = 0 then (some s, s)
  else if c.node ≠ s.node then
    (some { s with out := s.out ++ [.counterAdd c.node (BitVec.ofNat 2 c.space) asid c.addr amt] }, s)
  else if c.space = 2 then
    let t := nTileId c.addr
    (some (s.completionFlight r .n (nUnits t (ctrOff c.addr) 8 (fun _ _ => .cadd amt)) (nWord t (ctrOff c.addr))
      (iodLatency t.toNat)), s)
  else
    match flat s with
    | some s1 => (some s1, s)
    | none =>
      let n : Need := .flat (c.addr.toNat / 65536)
      if s.mmp.faults.any (fun f => f.who == .scheduler r.rid && f.needs.contains n && f.stage == .answered (some .refused))
      then (some s, s)
      else if askedFor s r.rid n then (none, s)
      else
        let s1 := s.touchCounter r.rid asid n (dTval 0 c.addr)
        (flat s1, s1)

/-- The completion amount of a record is added, and the record ends; where the add waits on the MMP, the record stays. -/
def State.completeRecord (s : State) (r : Record) : State :=
  match s.postCompletion r with
  | (some s1, _) => s1.endRecord r.rid
  | (none, s1) => s1

/-! ### What a save waits for -/

/-- A command that runs stands at the end of a chunk, or at a fault (R219). -/
def chunkDone (r : XRun) : Bool := r.fault.isSome || r.held.isEmpty

/-- The context can be saved now: every value of its landing queue has arrived, nothing that it issued is under way outside
its engines, its matrix routines have ended, its channels stand at the end of a chunk or at a fault, no vote of its group
has started, and no input of its lead is on its way. A late-landing stall is a bundle boundary (R96). -/
def savable (s : State) (t : Nat) (c : Context) : Bool :=
  let x := s.tile t
  c.landing.all (fun l => l.arrived)
    && (match c.shadow with
      | some sh => sh.landing.all (fun l => l.arrived)
      | none => true)
    && !s.inFlight c.uid
    && x.channels.toList.all (fun ch => match ch.run with
      | some r => r.cmd.uid != c.uid || chunkDone r
      | none => true)
    && (match x.mxu.run with
      | some r => r.uid != c.uid
      | none => true)
    && x.mxu.ops.all (fun o => o.uid != c.uid)
    && (!x.owns c.uid || !x.mxu.busy s.gtc.toNat)
    && (match s.groupOf c with
      | some g => g.voting.isNone
      | none => true)
    && s.tongs.all (fun i => i.uid != c.uid || !i.val.writes)

/-- A replica stands where a save of its group can take it: no live replica is ahead of it, but for a lead that runs its
handler of VOTE_MINORITY, and what its lead has issued is in Tongs. So the replicas are saved at one bundle. -/
def atSave (s : State) (c : Context) : Bool :=
  match s.groupOf c with
  | some g => g.liveMembers.all (fun m => match s.member m with
      | some x => x.replica.direct || decide (x.bcnt.toNat ≤ c.bcnt.toNat)
      | none => true)
  | none => true

/-- No bundle of the context is presented before the save: an Issuing context gives up the tile, at its late landing too. -/
def Context.freeze (c : Context) (gtc : Nat) : Context :=
  let c1 := { c with saving := true, stalled := none, committed := false }
  match c.status with
  | .issuing => { c1 with status := .ready, age := gtc }
  | .ready => { c1 with status := .ready }
  | .free | .blocked _ | .parked _ | .readyOut | .draining | .halted => { c with saving := true }

/-- The contexts of a record that is to be saved stop at their bundle boundaries (R34). -/
def State.freezeRecord (s : State) (rid : Nat) : State :=
  (s.bound rid).foldl (fun (st : State) x =>
    if !x.2.2.2.saving && atSave s x.2.2.2 then st.modCtx x.1 x.2.1 x.2.2.1 (fun c => c.freeze s.gtc.toNat) else st) s

/-- The victim is the record of the lowest priority, and of equals the youngest, that can be pre-empted for a record
(R296). -/
def isVictim (s : State) (o r : Record) : Bool :=
  let vs := victims s o
  vs.any (fun v => v.rid == r.rid) && vs.all (fun v => v.rid == r.rid
    || decide (recPrio r.words < recPrio v.words)
    || (recPrio r.words == recPrio v.words && decide (v.dispatchedAt < r.dispatchedAt
        ∨ (v.dispatchedAt = r.dispatchedAt ∧ v.order < r.order))))

/-- Why the scheduler may pre-empt a record (R34, R296, R321): for a record that needs a placement, in an emergency, or
because a DIE_MAP write remaps a die that one of its contexts touches: a restore that starts after the write uses the new
map (R311, R312). -/
def mayPreempt (s : State) (r : Record) (why : PreemptCause) : Bool :=
  match why with
  | .priority => s.records.any (fun o => awaitsVictims s o && isVictim s o r)
  | .thermal => s.platform.emergency
  | .remap => (s.bound r.rid).any (fun x => (s.platform.dieMapAt.toList.zipIdx).any (fun v =>
      x.2.2.2.special.tdm.getLsbD v.2 && decide (r.dispatchedAt < v.1)))

/-! ### The save -/

/-- The state in which a context is saved (R34): one whose CWAIT has been satisfied and has not issued is saved Blocked
(Table 9-4). -/
def CtxStatus.saved (st : CtxStatus) (cleared : Option BlockCond) : CtxStatus :=
  match st with
  | .issuing | .ready | .readyOut =>
    match cleared with
    | some bc => .blocked bc
    | none => .ready
  | .free => .free
  | .blocked c => .blocked c
  | .parked f => .parked f
  | .draining => .draining
  | .halted => .halted

/-- A grammar command at the row from which it resumes (R256). -/
def GeuCmd.resumeAt (g : GeuCmd) (c : Context) (next : Nat) : GeuCmd :=
  match g with
  | .load slot uid cid base keys spmode earlier after => .load slot uid cid base keys spmode earlier after
  | .run slot uid cid a cnt sat f o keys spmode earlier after resume =>
    let rows := match grunQueue c a with
      | some q => q.elemBytes / fmtBytes f
      | none => 1
    .run slot uid cid a cnt sat f o keys spmode earlier after (resume + next * rows)

/-- The grammar commands of a context, the one in progress at its resume row. -/
def savedGeu (x : Tile) (c : Context) : List GeuCmd :=
  match x.geu.queue, x.geu.running with
  | g :: rest, some r =>
    (if g.uid = c.uid then [g.resumeAt c r.next] else []) ++ rest.filter (fun g => g.uid == c.uid)
  | gs, _ => gs.filter (fun g => g.uid == c.uid)

/-- The state of a context as its area holds it: the condition of a CWAIT is evaluated afresh at the restore (R34, Table 9-4),
but for a replica whose lead has reported the value that it observed (R337). -/
def Context.saved (c : Context) : Context :=
  { c with
    status := c.status.saved c.cleared
    observed := if c.cleared = some .reportAwaited then c.observed else none
    cleared := none, stalled := none, committed := false, saving := false }

/-- The level of the barrier on which a context is blocked (R378). -/
def Context.blockedAt (c : Context) : Option (BitVec 3) :=
  match c.status with
  | .blocked (.barrier level) => some level
  | .blocked .superstep => some (BitVec.ofNat 3 (c.nlev.toNat - 1))
  | _ => none

/-- A blocked context has arrived at its barrier. -/
def State.arrivedAt (s : State) (c : Context) : Bool :=
  match c.blockedAt with
  | some level => match s.barrierOf c level with
    | some b => b.arrived.contains c.flat
    | none => false
  | none => false

/-- A pre-empted context has not arrived: the others wait until its restore (R378, R388). -/
def State.leaveBarrier (s : State) (c : Context) : State :=
  match c.blockedAt, s.record c.rid with
  | some level, some r =>
    let inst := barrierInst r.words c.flat level.toNat
    { s with barriers := s.barriers.map (fun (b : Barrier) =>
        if b.rid = c.rid ∧ b.level = level ∧ b.inst = inst ∧ b.n = c.barrierCount level then
          { b with
            arrived := b.arrived.filter (fun f => f != c.flat)
            due := if spansPackages r level.toNat then b.due else none }
        else b) }
  | _, _ => s

/-- A context that had arrived at its barrier arrives again after the restore. -/
def State.arriveAgain (s : State) (x : SavedCtx) : State :=
  match x.arrived, x.ctx.blockedAt with
  | true, some level => s.arriveBarrier x.ctx level
  | _, _ => s

/-- A context with what its tile holds for it. -/
def saveCtx (s : State) (t : Nat) (k : SlotNo) (b : Bank) : SavedCtx :=
  let x := s.tile t
  let c := x.ctx k b
  { tile := t, slot := k, bank := b, ctx := c.saved
    buffered := x.buffer.filter (fun y => y.uid == c.uid)
    runs := ([0, 1, 2, 3] : List Chan).filterMap (fun ch =>
      ((x.channel ch).run.filter (fun r => r.cmd.uid == c.uid)).map (fun r => (ch, { r with fault := none })))
    done := (x.done.filter (fun d => d.cmd.uid == c.uid)).map (fun d => { d with fault := none })
    geu := savedGeu x c
    acc := if x.owns c.uid then some x.mxu.acc else none
    armed := (x.comparators.toList.zipIdx.filterMap (fun y => y.1.map (fun cm => (y.2, cm)))).filter
      (fun y => y.2.uid == c.uid)
    tokens := x.tokens.filter (fun tk => tk.uid == c.uid)
    at_ := s.gtc.toNat
    waits := ([0, 1, 2, 3] : List Chan).filterMap (fun ch => match (x.channel ch).run with
        | some r => if r.cmd.uid = c.uid then r.fault.map (fun f => (ch, r.cmd.cid, f.2)) else none
        | none => none)
      ++ x.done.filterMap (fun d =>
        if d.cmd.uid = c.uid then d.fault.map (fun f => (d.cmd.ch, d.cmd.cid, f.2)) else none)
    arrived := s.arrivedAt c }

/-- A context leaves its slot for its context area. -/
def State.unbind (s : State) (t : Nat) (k : SlotNo) (b : Bank) : State :=
  let c := s.ctx t k b
  let cids := ((s.tile t).cmds.filter (fun x => x.uid == c.uid)).map (fun x => x.cid)
  let s1 := (s.dropScans t c.uid).modTile t (fun x =>
    (((x.dropCommands c.uid s.gtc.toNat).dropClaim c.uid false).dropWake c.uid).freeSlot k b)
  { s1 with
    watches := s1.watches.filter (fun w => w.uid != c.uid)
    mmp := { s1.mmp with faults := s1.mmp.faults.filter (fun f => match f.who with
      | .channel _ _ cid => !cids.contains cid
      | .ctx _ _ _ | .scheduler _ | .commit _ _ _ => true) } }

/-- A record's package part is saved: contexts, engines and scratchpad ranges; it returns to its pool with its age. -/
def State.saveRecord (s : State) (r : Record) : State :=
  let cs := s.bound r.rid
  let ctxs := cs.map (fun x => saveCtx s x.1 x.2.1 x.2.2.1)
  let s1 := r.areas.foldl (fun (st : State) a => st.saveArea r ctxs a) s
  let s2 := cs.foldl (fun (st : State) x => st.leaveBarrier x.2.2.2) s1
  (cs.foldl (fun (st : State) x => st.unbind x.1 x.2.1 x.2.2.1) s2).modRecord r.rid (fun r =>
    { r with phase := .saved, savedCtxs := ctxs, passed := 0, saving := false })

/-! ### The restore (R300) -/

/-- A promise that the save stopped: the restore cycle and the time that remained (R219). -/
def latePromise (save now p : Nat) : Nat := if save ≤ p then now + (p - save) else p

def XCmd.moved (c : XCmd) (k : SlotNo) (save now : Nat) : XCmd :=
  { c with slot := k, promise := latePromise save now c.promise }

def GeuCmd.moved (g : GeuCmd) (k : SlotNo) : GeuCmd :=
  match g with
  | .load _ uid cid base keys spmode earlier after => .load k uid cid base keys spmode earlier after
  | .run _ uid cid a cnt sat f o keys spmode earlier after resume =>
    .run k uid cid a cnt sat f o keys spmode earlier after resume

/-- The commands of a saved context, with the numbers by which XPROM knows them. -/
def SavedCtx.cids (x : SavedCtx) : List Nat :=
  x.buffered.map (fun c => c.cid) ++ x.runs.map (fun y => y.2.cmd.cid) ++ x.done.map (fun d => d.cmd.cid)

/-- The cycle in which a command stopped: that of the save, or of a fault on which it, or an earlier command of its channel,
was waiting (R214, R219). -/
def SavedCtx.stopAt (x : SavedCtx) (ch : Chan) (cid : Nat) : Nat :=
  (x.waits.filter (fun w => w.1 == ch && decide (w.2.1 ≤ cid))).foldl (fun n w => Nat.min n w.2.2) x.at_

/-- The promises of a restored context: those of its saved commands are reissued (R219, R423). -/
def SavedCtx.promises (x : SavedCtx) (now : Nat) : Vector (Option (Nat × Nat)) 4 :=
  x.ctx.promises.mapIdx (fun i p => p.map (fun q =>
    if x.cids.contains q.1 then (q.1, latePromise (x.stopAt (BitVec.ofNat 2 i) q.1) now q.2) else q))

/-- The virtual dies of a context that are lost raise DIE_LOST at its first bundle (R311). -/
def lostEvents (s : State) (c : Context) : List Trap :=
  (List.range 17).filterMap (fun v =>
    if c.special.tdm.getLsbD v && s.dieLost c.dieMap v then some { name := .dieLost, tval := BitVec.ofNat 64 v } else none)

/-- A context as it is restored at a tile, under the die map of the restore (R311, R312), but for the events of lost dies. -/
def restoredCtx (s : State) (x : SavedCtx) (t : Nat) : Context :=
  let c := x.ctx
  let now := s.gtc.toNat
  let open_ (f : Nat) : Bool := s.mmp.faults.any (fun r => r.id == f)
  { c with
    status := (match c.status with
      | .parked f => if open_ f then .parked f else .ready
      | st => st)
    earliest := now, dieMap := s.platform.dieMap
    special := { c.special with tdm := c.special.tdm ||| (1 : Word) <<< stackOf t }
    replica := (if c.replica.group = 0 then c.replica else { c.replica with stack := BitVec.ofNat 2 (stackOf t) })
    promises := x.promises now }

/-- The watch of a context that is restored Blocked at a CWAIT: the condition is evaluated afresh (R34, R337). -/
def State.watchAgain (s : State) (t : Nat) (k : SlotNo) (c : Context) : State :=
  match c.status with
  | .blocked (.watch p thr) =>
    { s with
      nextId := s.nextId + 1
      watches := s.watches ++ [{ id := s.nextId, tile := BitVec.ofNat 10 t, slot := k, uid := c.uid, place := p
                                 asid := c.asid, thr := thr, due := s.gtc.toNat + 1 }] }
  | _ => s

/-- The engines of a tile take up the commands of a restored context, its claim and its comparators. -/
def Tile.resume (y : Tile) (x : SavedCtx) (k : SlotNo) (now : Nat) : Tile :=
  let move (c : XCmd) : XCmd := c.moved k (x.stopAt c.ch c.cid) now
  let y0 := x.runs.foldl (fun (z : Tile) r => z.setRun r.1
    { r.2 with cmd := move r.2.cmd, start := r.2.start + (now - x.stopAt r.1 r.2.cmd.cid) }) y
  let y1 := ([0, 1, 2, 3] : List Chan).foldl (fun (z : Tile) ch => match (x.promises now)[ch.toNat]'ch.isLt with
    | some (_, p) => z.setChannel ch { z.channel ch with prev := Nat.max (z.channel ch).prev p }
    | none => z) y0
  let y2 := x.buffered.foldl (fun (z : Tile) c => { z with buffer := insertCmd (move c) z.buffer }) y1
  let y3 := x.armed.foldl (fun (z : Tile) a =>
    z.setComparator (BitVec.ofNat 3 a.1) (some { a.2 with since := now + 1 })) y2
  { y3 with
    done := y3.done ++ x.done.map (fun d => { d with cmd := move d.cmd })
    geu := { y3.geu with
      queue := y3.geu.queue ++ x.geu.map (fun g => g.moved k)
      startAt := if y3.geu.queue.isEmpty then now else y3.geu.startAt }
    tokens := y3.tokens ++ x.tokens
    mxu := (match x.acc with
      | some acc => { y3.mxu with owner := some (k, x.ctx.uid), lastAsid := some x.ctx.asid, acc := acc }
      | none => y3.mxu) }

/-- The scans of a restored context deliver at its new tile. -/
def State.moveScans (s : State) (uid : Nat) (t : Nat) (k : SlotNo) : State :=
  let s1 := s.scans.foldl (fun (st : State) o => o.contributions.foldl (fun (st : State) c =>
    if s.scanOf c uid && decide (c.given < scanElems c.affine) then st.modTile t (fun x => x.beginScan o.ch) else st) st) s
  { s1 with scans := s1.scans.map (fun o => { o with contributions := o.contributions.map (fun c =>
      if c.uid = uid then { c with tile := BitVec.ofNat 10 t, slot := k } else c) }) }

/-- One saved context returns to its slot, at its tile in the new placement: to the primary bank, a Parked one whose fault is
still open too (DESIGN CHOICE, unsafe; log entry 37). -/
def State.restoreCtx (s : State) (r : Record) (pl : Placement) (x : SavedCtx) : State :=
  let t := relocateTile r pl x.tile
  let k := x.slot
  let c := restoredCtx s x t
  let s1 := ((s.setCtx t k .primary c).watchAgain t k c)
  let s2 := s1.modTile t (fun y => y.resume x k s.gtc.toNat)
  let s3 := s2.moveScans x.ctx.uid t k
  let s4 : State := { s3 with
    mmp := { s3.mmp with faults := s3.mmp.faults.map (fun f => match f.who with
      | .ctx _ _ u => if u = x.ctx.uid then { f with who := .ctx (BitVec.ofNat 10 t) k u } else f
      | .channel _ _ _ | .scheduler _ | .commit _ _ _ => f) }
    tongs := s3.tongs.map (fun i => if i.uid = x.ctx.uid then { i with tile := BitVec.ofNat 10 t, slot := k } else i) }
  ((lostEvents s c).filter (fun e => !c.events.contains e)).foldl (fun (st : State) e =>
    st.postEvent t k c.uid c.asid e) s4

/-- The groups of a restored record: its live replicas stand on the stacks of the new placement. -/
def State.restoreGroups (s : State) (r : Record) (pl : Placement) : State :=
  { s with groups := s.groups.map (fun g =>
      if g.rid ≠ r.rid then g
      else
        let ms := g.liveMembers.map (fun m =>
          let t := relocateTile r pl m.2.1.toNat
          ((BitVec.ofNat 2 (stackOf t) : BitVec 2), (BitVec.ofNat 10 t : TileId), m.2.2.1, m.2.2.2))
        let bits (ss : List (BitVec 2)) : BitVec 4 := ss.foldl (fun acc x => acc ||| (1 : BitVec 4) <<< x.toNat) 0
        let lost := ((g.liveMembers.zip ms).filter (fun x => g.lost.getLsbD x.1.1.toNat)).map (fun x => x.2.1)
        let g1 := { g with members := ms, live := bits (ms.map Prod.fst), lost := bits lost }
        { g1 with lead := g1.chooseLead }) }

/-- The scratchpad range of a tile at the same S offsets, under the mapping that is restored. -/
def State.restoreTile (s : State) (r : Record) (pl : Placement) (a : TileArea) : State :=
  let lo := recSpBase r.words * 65536
  let n := recSpSize r.words * 65536
  let m := rangeMapping s r r.savedCtxs a.tile
  let cells := s.areaCells a (recParts r.words false).scratch n
  s.modTile (relocateTile r pl a.tile) (fun (y : Tile) =>
    let old := clearRange y.scratch lo n
    { y with scratch := cells.foldl (fun (acc : Memory) c => Memory.write acc (m.phys (lo + c.1)) c.2) old })

/-- A saved record is bound again on a new placement of the same shape, under the conditions of its admission.
(DESIGN CHOICE, unsafe; log entry 37.) -/
def execRestore (rid : Nat) (pl : Placement) (s : State) : Host.Outcome State Fault Refusal :=
  match s.record rid with
  | none => .next s
  | some r =>
    if r.phase ≠ .saved then .next s
    else match (if r.pkgIndex = 0 then depMiss s r.words else none) with
    | some (n, tval) => .next (if askedFor s rid n then s else s.touchCounter rid (recAsid r.words) n tval)
    | none =>
    if admits s r pl r.seen = true then
      let s1 := s.passOver r
      let s2 := r.areas.foldl (fun (st : State) a => st.restoreTile r pl a) s1
      let s3 := r.savedCtxs.foldl (fun (st : State) x => st.restoreCtx r pl x) s2
      let s4 := s3.restoreGroups r pl
      let s5 : State := { s4 with pulses := s4.pulses.map (fun (p : Pulse) =>
        if p.rid = rid then { p with tile := BitVec.ofNat 10 (relocateTile r pl p.tile.toNat) } else p) }
      let s6 := s5.modRecord rid (fun (q : Record) =>
        { q with phase := .running, placement := pl, savedCtxs := [], passed := 0, dispatchedAt := s.gtc.toNat
                 areas := q.areas.map (fun (a : TileArea) => { a with tile := relocateTile r pl a.tile }) })
      .next (r.savedCtxs.foldl (fun (st : State) x => st.arriveAgain x) s6)
    else .next s

/-! ### RECORD_ABORT (R298) -/

/-- Whether an abort names a record of the pool, or a bound one. -/
def AbortTarget.names (tgt : AbortTarget) (s : State) (r : Record) : Bool :=
  match tgt with
  | .handle h | .passedHandle h => (fld h 32 21 : BitVec 21) == s.node && r.seq == fld h 0 32 && h >>> 53 == 0
  | .queueIndex q j => decide (q.toNat < 4) && r.source == (q.toNat, j)
  | .asid a => recAsid r.words == a
  | .part n0 j => recNode0 r.words == n0 && (if r.pkgIndex = 0 then r.rid == j else r.source == (8, j))
  | .forwarded n q j => match r.origin with
    | some o => o.node == n && o.queue == q && o.index == j
    | none => false
  | .withdrawn n0 j => recNode0 r.words == n0 && r.pkgIndex != 0 && r.source == (8, j)

/-- Whether it names record j of a launch queue. -/
def AbortTarget.namesQueued (tgt : AbortTarget) (q j : Nat) (ws : List Word) : Bool :=
  match tgt with
  | .queueIndex q' j' => decide (q'.toNat < 4) && q'.toNat == q && j' == j
  | .asid a => recAsid ws == a
  | .handle _ | .passedHandle _ | .part _ _ | .forwarded _ _ _ | .withdrawn _ _ => false

/-- Whether it names a record that stands between two packages. -/
def AbortTarget.namesRelay (tgt : AbortTarget) (s : State) (y : Relay) : Bool :=
  match tgt with
  | .queueIndex q j => decide (q.toNat < 4) && y.src.node == s.node && y.src.queue == q && y.src.index == j
  | .asid a => recAsid y.words == a
  | .forwarded n q j => y.src.node == n && y.src.queue == q && y.src.index == j
  | .handle _ | .passedHandle _ | .part _ _ | .withdrawn _ _ => false

/-- A record that is withdrawn before a pool has taken it: its class-4 event, and the handle that its LAUNCH here lands.
(DEDUCED, unsafe; log entry 36.) -/
def State.withdrawEarly (s : State) (tag : Nat) (asid : BitVec 12) : State :=
  { s.landHandle tag (s.node.setWidth 64 <<< 32 ||| s.nextSeq.setWidth 64) 0 with
    nextSeq := if s.nextSeq + 1 = 0 then 1 else s.nextSeq + 1 }.postOpen 4 (some 0) none (some asid) none none

/-- The records that wait in a launch queue and that an abort names are withdrawn. (DEDUCED, unsafe; log entry 36.) -/
def State.abortQueue (s : State) (tgt : AbortTarget) (q : Nat) : State × Nat :=
  let qn : BitVec 3 := BitVec.ofNat 3 q
  let x := s.queueOf qn
  let hits := x.waiting.filter (fun y => !x.withdrawn.contains y.1 && AbortTarget.namesQueued tgt q y.1 y.2)
  let s1 := s.setQueueOf qn { x with withdrawn := x.withdrawn ++ hits.map Prod.fst }
  (hits.foldl (fun (st : State) y => st.withdrawEarly (x.tags.getD (y.1 - x.cons.toNat) 0) (recAsid y.2)) s1, hits.length)

/-- So are those that stand between two packages. -/
def State.abortRelays (s : State) (tgt : AbortTarget) : State × Nat :=
  let hits := s.relayed.filter (fun y => AbortTarget.namesRelay tgt s y)
  (hits.foldl (fun (st : State) y =>
    let s1 := st.dropRelay y.words y.src
    let s2 := s1.withdrawEarly (if y.src.node = s.node then y.src.tag else 0) (recAsid y.words)
    if y.src.node = s.node then s2
    else s2.tellLauncher y.src (s.node.setWidth 64 <<< 32 ||| s1.nextSeq.setWidth 64) 0) s, hits.length)

/-- The contexts of a record become Free, and everything that they and their engines have under way ends. -/
def State.abortContexts (s : State) (r : Record) : State :=
  let cs := s.bound r.rid
  let cids := cs.flatMap (fun x => ((s.tile x.1).cmds.filter (fun c => c.uid == x.2.2.2.uid)).map (fun c => c.cid))
  let s1 := cs.foldl (fun (st : State) x => st.remove x.1 x.2.1 x.2.2.1) s
  { s1 with
    mmp := { s1.mmp with faults := s1.mmp.faults.filter (fun f => match f.who with
      | .channel _ _ cid => !cids.contains cid
      | .ctx _ _ u => !r.savedCtxs.any (fun x => x.ctx.uid == u)
      | .scheduler _ | .commit _ _ _ => true) }
    tongs := s1.tongs.filter (fun i => !r.savedCtxs.any (fun x => x.ctx.uid == i.uid)) }

/-- One record is aborted, or withdrawn; the other packages that hold a part of it are told. Where the completion add of
POST = 1 waits on the MMP, the record stays until it is made. -/
def State.abortRecord (s : State) (r : Record) (post : Bool) : State :=
  let s1 := (s.tellParts r post).abortContexts r
  let s2 : State :=
    if post && r.pkgIndex == 0 then
      (match s1.postCompletion r with
        | (some s2, _) => s2.endRecord r.rid
        | (none, s2) => (s2.freeAreas r).modRecord r.rid (fun r =>
            { r with phase := .ended, left := [], areas := [], savedCtxs := [] }))
    else s1.endRecord r.rid
  s2.postOpen 4 (some 0) none (some (recAsid r.words)) none none

/-- A record that is chosen for pre-emption: its contexts stop, and it is saved once all of them can be. -/
def State.preempt (s : State) (r : Record) : State :=
  let s1 := (s.freezeRecord r.rid).modRecord r.rid (fun r => { r with saving := true })
  if (s1.bound r.rid).all (fun x => x.2.2.2.saving && savable s1 x.1 x.2.2.2) then s1.saveRecord r else s1

/-- The scheduler pre-empts a record. The save waits for what the contexts have under way (R98, R219, R240, R286, Table 9-4),
and they issue no bundle meanwhile; an abort that came meanwhile follows it (R298). -/
def execPreemption (rid : Nat) (why : PreemptCause) (s : State) : Host.Outcome State Fault Refusal :=
  match s.record rid with
  | none => .next s
  | some r =>
    if r.phase = .running ∧ r.left.isEmpty = false ∧ (r.saving = true ∨ mayPreempt s r why = true) then
      let s1 := s.preempt r
      .next (match s1.record rid with
        | some q => (match q.phase, q.aborting with
          | .saved, some post => s1.abortRecord q post
          | _, _ => s1)
        | none => s1)
    else .next s

/-- The last context of a record is Free: the completion amount is added, once. A part in another package than NODE0's
reports to it, and NODE0 adds the amount when every part has ended; at NODE0 the event is such a report while a part is
left. So is the amount of an aborted record added whose post waits on the MMP. -/
def execCompletionAdd (rid : Nat) (s : State) : Host.Outcome State Fault Refusal :=
  match s.record rid with
  | none => .next s
  | some r =>
    match r.phase, r.away with
    | .running, _ :: away | .saved, _ :: away => .next (s.modRecord rid (fun r => { r with away := away }))
    | .running, [] =>
      if r.left.isEmpty = false then .next s
      else match r.aborting with
        | some post => .next (s.abortRecord r post)
        | none =>
          if r.pkgIndex ≠ 0 then
            let s1 : State := { s with out := s.out ++ [.partDone (recNode0 r.words) r.source.2] }
            .next (s1.endRecord rid)
          else .next (s.completeRecord r)
    | .ended, _ => .next (s.completeRecord r)
    | .pooled, _ | .requested, _ | .reserving _, _ | .reserved, _ | .saved, [] => .next s

/-- An abort of a record that is being pre-empted waits until the save ends. -/
def State.abortOne (s : State) (r : Record) (post : Bool) : State :=
  if r.saving && r.phase == .running then s.modRecord r.rid (fun r => { r with aborting := some post })
  else s.abortRecord r post

/-- Where the command is passed on beside the parts of the records that it names here: to the node of a handle, and, for a
record that a host queue of this package has forwarded, to the schedulers that may hold it. -/
def AbortTarget.passedTo (tgt : AbortTarget) (s : State) (found : Bool) : List (Nat × AbortTarget) :=
  match tgt with
  | .handle h =>
    let n : BitVec 21 := fld h 32 21
    if n != s.node && s.platform.nodes.contains n then [(n.toNat, .passedHandle h)] else []
  | .queueIndex q j =>
    if found || decide (4 ≤ q.toNat) then []
    else (s.platform.nodes.filter (fun n => n != s.node)).map (fun n => (n.toNat, .forwarded s.node q j))
  | .asid _ | .passedHandle _ | .part _ _ | .forwarded _ _ _ | .withdrawn _ _ => []

/-- The records that an abort names end, in the pool, in the launch queues and between packages: the state and the result
of Table 8-7's RECORD_ABORT: 0 for withdrawn, 1 for aborted, 2 for no match. What another package finds is a free one of
these (log entry 1). -/
def State.abortAll (s : State) (tgt : AbortTarget) (post : Bool) : State × Word :=
  let hits := s.records.filter (fun r => r.phase != .ended && AbortTarget.names tgt s r)
  let (s1, n) := (List.range 8).foldl (fun (acc : State × Nat) q =>
    let (st, m) := acc.1.abortQueue tgt q
    (st, acc.2 + m)) (s, 0)
  let (s2, m) := s1.abortRelays tgt
  let s3 := hits.foldl (fun (st : State) r => st.abortOne r post) s2
  let found := !hits.isEmpty || n != 0 || m != 0
  let there := AbortTarget.passedTo tgt s found
  let s4 := there.foldl (fun (st : State) x => st.tellNodes [x.1] x.2 post) s3
  if hits.any (fun r => r.phase.dispatched) then (s4, 1)
  else if found then (s4, 0)
  else if there.isEmpty then (s4, 2)
  else
    let (x, s5) := s4.freeWord
    (s5, x % 3)

/-- A withdrawal that NODE0 passes on: the part or the request leaves the pool, and no event is posted (R295). -/
def State.withdrawAll (s : State) (tgt : AbortTarget) : State :=
  (s.records.filter (fun r => r.phase != .ended && AbortTarget.names tgt s r)).foldl (fun (st : State) r => st.withdraw r) s

/-- RECORD_ABORT: word 1 of the response is the result. What another package's scheduler passes on is no command of the
host, and has no answer. -/
def execRecordAbort (seq : BitVec 16) (tgt : AbortTarget) (post : Bool) (s : State) : Host.Outcome State Fault Refusal :=
  match tgt with
  | .withdrawn _ _ => .next (s.withdrawAll tgt)
  | .passedHandle _ | .part _ _ | .forwarded _ _ _ => .next (s.abortAll tgt post).1
  | .handle _ | .queueIndex _ _ | .asid _ => .next (s.command seq (fun s =>
      let (s1, result) := s.abortAll tgt post
      s1.reply seq 0 [result]))

end Sys2Proof.Machine
end

