-- ==== Sys2Proof/Machine/Scalar.lean ====
section
/-! DEFINITION. The scalar family of SA and SB: integer arithmetic, compares, predicate logic, constants, branches and
loops (R329 to R332, R334, R335, R338, R350, R351, R355, R360 to R366, R375, R377, R382, R386, R422). -/

namespace Sys2Proof.Machine

/-! ### Shared operations -/

/-- A result in s_D at latency L, computed from the context at bundle start. -/
def scalarMeaning (d : SReg) (lat : Nat) (f : Context → Word) : Meaning :=
  { effect := fun st s => s.land (.s d (f st.me)) lat }

/-- A result in p_D at L = 1. -/
def predMeaning (d : PReg) (f : Context → Bool) : Meaning :=
  { effect := fun st s => s.land (.p d (f st.me)) 1 }

/-- A two-operand operation on 64-bit values, written as Ext(r[w−1:0], X) (R324). -/
def alu2 (x : TypeCode) (d a b : SReg) (f : Word → Word → Word) : Meaning :=
  scalarMeaning d 1 (fun c => TypeCode.ext x (f (c.sreg a) (c.sreg b)))

/-- ROL within w bits (R377). -/
def rotlNat (w a n : Nat) : Nat := ((a <<< n) ||| (a >>> (w - n))) % 2 ^ w

/-- SHL, SHR, SRA and ROL of the low w bits by s_B mod w (R377). -/
def shiftValue (x : TypeCode) (a b : Word) (f : (w n : Nat) → Nat → Nat) : Word :=
  let w := TypeCode.width x
  TypeCode.extNat x (f w (b.toNat % w) (TypeCode.low x a))

/-- The exact product of the narrowed operands, signed or unsigned (R362). -/
def mulProduct (signed : Bool) (x : TypeCode) (a b : Word) : Int :=
  if signed then TypeCode.lowInt x a * TypeCode.lowInt x b else (TypeCode.low x a * TypeCode.low x b : Nat)

/-- P[2w−1:w]. -/
def mulHigh (signed : Bool) (x : TypeCode) (a b : Word) : Word :=
  TypeCode.extInt x (mulProduct signed x a b / 2 ^ TypeCode.width x)

/-- Leading zeros of the low n bits. -/
def clzNat (a : Nat) : Nat → Nat
  | 0 => 0
  | n + 1 => if a.testBit n then 0 else clzNat a n + 1

/-- Trailing zeros of n bits from bit i upward. -/
def ctzNat (a i : Nat) : Nat → Nat
  | 0 => 0
  | n + 1 => if a.testBit i then 0 else ctzNat a (i + 1) n + 1

/-- The 1 bits among the low n. -/
def popNat (a : Nat) : Nat → Nat
  | 0 => 0
  | n + 1 => popNat a n + if a.testBit n then 1 else 0

/-- A bit count of the low w bits (R334, R366). -/
def countMeaning (x : TypeCode) (d a : SReg) (f : Nat → Nat → Nat) : Meaning :=
  scalarMeaning d 1 (fun c => BitVec.ofNat 64 (f (TypeCode.low x (c.sreg a)) (TypeCode.width x)))

/-- The larger or the smaller of the narrowed operands (R355). -/
def pickValue (signed wantMax : Bool) (x : TypeCode) (a b : Word) : Word :=
  let lt := if signed then decide (TypeCode.lowInt x a < TypeCode.lowInt x b)
    else decide (TypeCode.low x a < TypeCode.low x b)
  TypeCode.ext x (if lt == wantMax then b else a)

/-- The divider of a scalar slot. -/
def dividerOf (p : Pos) : Fin 2 :=
  match p with
  | .sb => 1
  | .sa | .va | .vb | .ma | .xa => 0

/-- The quotient or remainder of the narrowed operands, truncated toward zero (R338, R375). -/
def divValue (signed rem : Bool) (x : TypeCode) (a b : Word) : Word :=
  let p : Int := if signed then TypeCode.lowInt x a else (TypeCode.low x a : Nat)
  let q : Int := if signed then TypeCode.lowInt x b else (TypeCode.low x b : Nat)
  TypeCode.extInt x (if rem then p.tmod q else p.tdiv q)

/-- The divider of the slot is still busy with a divide of the same context, issued at bundle b (R91).
(DEDUCED, safe; log entry 44.) -/
def dividerSpan (c : Context) (p : Pos) : Option Word :=
  match c.divider[(dividerOf p).val]'(dividerOf p).isLt with
  | some b => if (c.bcnt - b).toNat < 18 then some b else none
  | none => none

/-- DIV, DIVN, REM and REMN: latency and occupancy 18, one divider for each scalar slot. -/
def dividerMeaning (signed rem : Bool) (x : TypeCode) (d a b : SReg) : Meaning :=
  { block := fun s =>
      let busy := s.here.dividers[(dividerOf s.cur.pos).val]'(dividerOf s.cur.pos).isLt
      if busy.2 ≠ s.me.uid ∧ s.gtc.toNat < busy.1 then some (.divider s.cur.pos) else none
    check := fun s =>
      match dividerSpan s.me s.cur.pos with
      | some b0 => some { name := .occupancy, tval := b0 }
      | none =>
        if TypeCode.low x (s.me.sreg b) = 0 then
          some { name := .divZero, tval := BitVec.ofNat 64 s.cur.pos.toNat }
        else none
    effect := fun st s =>
      let v := divValue signed rem x (st.me.sreg a) (st.me.sreg b)
      let i := dividerOf s.cur.pos
      let s1 := s.land (.s d v) 18
      let s2 := s1.modMe (fun c => { c with divider := c.divider.set i.val (some c.bcnt) i.isLt })
      s2.modHere (fun t =>
        { t with dividers := t.dividers.set i.val (s.gtc.toNat + 18, st.me.uid) i.isLt }) }

/-! ### Meanings -/

def nopMeaning : Meaning := { effect := fun _ s => s }

def addMeaning (x : TypeCode) (d a b : SReg) : Meaning := alu2 x d a b (fun p q => p + q)
def subMeaning (x : TypeCode) (d a b : SReg) : Meaning := alu2 x d a b (fun p q => p - q)
def andMeaning (x : TypeCode) (d a b : SReg) : Meaning := alu2 x d a b (fun p q => p &&& q)
def andnMeaning (x : TypeCode) (d a b : SReg) : Meaning := alu2 x d a b (fun p q => p &&& ~~~q)
def orMeaning (x : TypeCode) (d a b : SReg) : Meaning := alu2 x d a b (fun p q => p ||| q)
def xorMeaning (x : TypeCode) (d a b : SReg) : Meaning := alu2 x d a b (fun p q => p ^^^ q)

def shlMeaning (x : TypeCode) (d a b : SReg) : Meaning :=
  scalarMeaning d 1 (fun c => shiftValue x (c.sreg a) (c.sreg b) (fun _ n v => v <<< n))
def shrMeaning (x : TypeCode) (d a b : SReg) : Meaning :=
  scalarMeaning d 1 (fun c => shiftValue x (c.sreg a) (c.sreg b) (fun _ n v => v >>> n))
def sraMeaning (x : TypeCode) (d a b : SReg) : Meaning :=
  scalarMeaning d 1 (fun c =>
    shiftValue x (c.sreg a) (c.sreg b) (fun w n v => wrapInt w (signedOf w v / 2 ^ n)))
def rolMeaning (x : TypeCode) (d a b : SReg) : Meaning :=
  scalarMeaning d 1 (fun c => shiftValue x (c.sreg a) (c.sreg b) (fun w n v => rotlNat w v n))

def mulMeaning (x : TypeCode) (d a b : SReg) : Meaning :=
  scalarMeaning d 3 (fun c => TypeCode.extInt x (mulProduct false x (c.sreg a) (c.sreg b)))
def mulhMeaning (x : TypeCode) (d a b : SReg) : Meaning :=
  scalarMeaning d 3 (fun c => mulHigh true x (c.sreg a) (c.sreg b))
def mulhnMeaning (x : TypeCode) (d a b : SReg) : Meaning :=
  scalarMeaning d 3 (fun c => mulHigh false x (c.sreg a) (c.sreg b))

def maxMeaning (x : TypeCode) (d a b : SReg) : Meaning :=
  scalarMeaning d 1 (fun c => pickValue true true x (c.sreg a) (c.sreg b))
def maxnMeaning (x : TypeCode) (d a b : SReg) : Meaning :=
  scalarMeaning d 1 (fun c => pickValue false true x (c.sreg a) (c.sreg b))
def minMeaning (x : TypeCode) (d a b : SReg) : Meaning :=
  scalarMeaning d 1 (fun c => pickValue true false x (c.sreg a) (c.sreg b))
def minnMeaning (x : TypeCode) (d a b : SReg) : Meaning :=
  scalarMeaning d 1 (fun c => pickValue false false x (c.sreg a) (c.sreg b))

def clzMeaning (x : TypeCode) (d a : SReg) : Meaning := countMeaning x d a clzNat
def ctzMeaning (x : TypeCode) (d a : SReg) : Meaning := countMeaning x d a (fun v n => ctzNat v 0 n)
def popcMeaning (x : TypeCode) (d a : SReg) : Meaning := countMeaning x d a popNat

def movMeaning (x : TypeCode) (d a : SReg) : Meaning := scalarMeaning d 1 (fun c => TypeCode.ext x (c.sreg a))
def selMeaning (cc : SelCond) (d a b : SReg) : Meaning :=
  scalarMeaning d 1 (fun c => if cc.holds (c.sreg a) then c.sreg b else c.sreg d)
def cmpMeaning (cc : CmpCond) (d : PReg) (a b : SReg) : Meaning :=
  predMeaning d (fun c => cc.holds (c.sreg a) (c.sreg b))
def cmpiMeaning (cc : CmpCond) (d : PReg) (a : SReg) (imm : Lit 6) : Meaning :=
  predMeaning d (fun c => cc.holds (c.sreg a) (litSigned imm))
def plogMeaning (op : PlogOp) (d a b : PReg) : Meaning := predMeaning d (fun c => op.apply (c.preg a) (c.preg b))

def addiMeaning (d a : SReg) (imm : Lit 9) : Meaning := scalarMeaning d 1 (fun c => c.sreg a + litSigned imm)
def andiMeaning (d a : SReg) (imm : Lit 9) : Meaning := scalarMeaning d 1 (fun c => c.sreg a &&& litSigned imm)
def oriMeaning (d a : SReg) (imm : Lit 9) : Meaning := scalarMeaning d 1 (fun c => c.sreg a ||| litUnsigned imm)
def xoriMeaning (d a : SReg) (imm : Lit 9) : Meaning := scalarMeaning d 1 (fun c => c.sreg a ^^^ litSigned imm)
def moviMeaning (d : SReg) (imm : Lit 9) : Meaning := scalarMeaning d 1 (fun _ => litSigned imm)
def movhiMeaning (d a : SReg) (imm : Lit 9) : Meaning :=
  scalarMeaning d 1 (fun c => (c.sreg a <<< 24) + litUnsigned imm)

def divMeaning (x : TypeCode) (d a b : SReg) : Meaning := dividerMeaning true false x d a b
def divnMeaning (x : TypeCode) (d a b : SReg) : Meaning := dividerMeaning false false x d a b
def remMeaning (x : TypeCode) (d a b : SReg) : Meaning := dividerMeaning true true x d a b
def remnMeaning (x : TypeCode) (d a b : SReg) : Meaning := dividerMeaning false true x d a b

/-! ### Branches and loops -/

/-- PC + 32·disp. -/
def branchTarget (pc : Word) (disp : Word) : Word := pc + disp * 32

def brMeaning (disp : Lit 9) : Meaning :=
  { effect := fun st s => s.defer (.branch (branchTarget st.me.pc (litSigned disp))) }
def brlMeaning (d : SReg) (disp : Lit 9) : Meaning :=
  { effect := fun st s =>
      (s.land (.s d (st.me.pc + 96)) 1).defer (.branch (branchTarget st.me.pc (litSigned disp))) }
def briMeaning (d a : SReg) : Meaning :=
  { check := fun s =>
      if (s.me.sreg a).toNat % 32 ≠ 0 then some { name := .align, tval := s.me.sreg a } else none
    effect := fun st s =>
      (if d = 0 then s else s.land (.s d (st.me.pc + 96)) 1).defer (.branch (st.me.sreg a)) }

/-- LOOP (R350). -/
def loopMeaning (d : SReg) (off : BitVec 9) : Meaning :=
  { effect := fun st s =>
      let t := st.me.sreg d - 1
      let s1 := s.land (.s d t) 1
      if t = 0 then s1 else s1.defer (.loopTo (branchTarget st.me.pc (off.signExtend 64))) }

/-- T = M·N·K. -/
def LoopState.total (l : LoopState) : Nat := l.m * l.n * l.k

/-- The stage value that the loop supplies (R239). -/
def LoopState.stage (l : LoopState) : Bool := decide (l.i < l.total)

/-- The s_D of a pass: m·2^32 + n·2^16 + kk, or 0 when i ≥ T. -/
def LoopState.index (l : LoopState) : Word :=
  if l.i < l.total then
    BitVec.ofNat 64 (l.i / (l.k * l.n) * 2 ^ 32 + l.i / l.k % l.n * 2 ^ 16 + l.i % l.k)
  else 0

/-- p_B and p_(B+1): the first and the last K-step of an output block. -/
def LoopState.first (l : LoopState) : Bool := l.stage && l.i % l.k == 0
def LoopState.last (l : LoopState) : Bool := l.stage && l.i % l.k == l.k - 1

/-- The register and predicate writes of either form for the pass that follows it. -/
def landPass (d : SReg) (b : PReg) (l : LoopState) (s : State) : State :=
  ((s.land (.s d l.index) 1).land (.p b l.first) 1).land (.p (b + 1) l.last) 1

/-- The counts of the start form (R238). -/
def loopCounts (a : Word) : LoopState :=
  { top := 0, m := natBits a.toNat 0 16, n := natBits a.toNat 16 16, k := natBits a.toNat 32 16
    depth := natBits a.toNat 48 3 + 1, i := 0 }

/-- p56 := 1 and p57 to p63 := 0, at L = 1. -/
def landStages (s : State) : State :=
  [57, 58, 59, 60, 61, 62, 63].foldl (fun st i => st.land (.p (BitVec.ofNat 6 i) false) 1) (s.land (.p 56 true) 1)

def loopmStartMeaning (d : SReg) (b : PReg) (a : SReg) : Meaning :=
  { check := fun s =>
      let v := s.me.sreg a
      let l := loopCounts v
      if l.m = 0 ∨ l.n = 0 ∨ l.k = 0 ∨ v >>> 51 ≠ 0 then some { name := .loopNest, tval := v }
      else if 2 ≤ s.me.loops.length then some { name := .loopNest, tval := 0 } else none
    effect := fun st s =>
      let l := loopCounts (st.me.sreg a)
      (landStages (landPass d b l s)).defer (.loopPush l) }

def loopmEndMeaning (d : SReg) (b : PReg) : Meaning :=
  { check := fun s => if s.me.loops.isEmpty then some { name := .loopNest, tval := 0 } else none
    effect := fun st s =>
      match st.me.loops with
      | [] => s
      | l0 :: _ =>
        let l := { l0 with i := l0.i + 1 }
        let s1 := landPass d b l s
        if l.i < l.total + l.depth - 1 then (s1.defer (.loopSet l)).defer (.loopTo l.top) else s1.defer .loopDrop }

/-! ### Instructions -/

def execNop (s : State) : Host.Outcome State Fault Refusal :=
  runSyllable .nop nopMeaning s
def execAdd (x : TypeCode) (d a b : SReg) (s : State) : Host.Outcome State Fault Refusal :=
  runSyllable (.add x d a b) (addMeaning x d a b) s
def execSub (x : TypeCode) (d a b : SReg) (s : State) : Host.Outcome State Fault Refusal :=
  runSyllable (.sub x d a b) (subMeaning x d a b) s
def execAnd (x : TypeCode) (d a b : SReg) (s : State) : Host.Outcome State Fault Refusal :=
  runSyllable (.and x d a b) (andMeaning x d a b) s
def execAndn (x : TypeCode) (d a b : SReg) (s : State) : Host.Outcome State Fault Refusal :=
  runSyllable (.andn x d a b) (andnMeaning x d a b) s
def execOr (x : TypeCode) (d a b : SReg) (s : State) : Host.Outcome State Fault Refusal :=
  runSyllable (.or x d a b) (orMeaning x d a b) s
def execXor (x : TypeCode) (d a b : SReg) (s : State) : Host.Outcome State Fault Refusal :=
  runSyllable (.xor x d a b) (xorMeaning x d a b) s
def execShl (x : TypeCode) (d a b : SReg) (s : State) : Host.Outcome State Fault Refusal :=
  runSyllable (.shl x d a b) (shlMeaning x d a b) s
def execShr (x : TypeCode) (d a b : SReg) (s : State) : Host.Outcome State Fault Refusal :=
  runSyllable (.shr x d a b) (shrMeaning x d a b) s
def execSra (x : TypeCode) (d a b : SReg) (s : State) : Host.Outcome State Fault Refusal :=
  runSyllable (.sra x d a b) (sraMeaning x d a b) s
def execRol (x : TypeCode) (d a b : SReg) (s : State) : Host.Outcome State Fault Refusal :=
  runSyllable (.rol x d a b) (rolMeaning x d a b) s
def execMul (x : TypeCode) (d a b : SReg) (s : State) : Host.Outcome State Fault Refusal :=
  runSyllable (.mul x d a b) (mulMeaning x d a b) s
def execMulh (x : TypeCode) (d a b : SReg) (s : State) : Host.Outcome State Fault Refusal :=
  runSyllable (.mulh x d a b) (mulhMeaning x d a b) s
def execMulhn (x : TypeCode) (d a b : SReg) (s : State) : Host.Outcome State Fault Refusal :=
  runSyllable (.mulhn x d a b) (mulhnMeaning x d a b) s
def execDiv (x : TypeCode) (d a b : SReg) (s : State) : Host.Outcome State Fault Refusal :=
  runSyllable (.div x d a b) (divMeaning x d a b) s
def execDivn (x : TypeCode) (d a b : SReg) (s : State) : Host.Outcome State Fault Refusal :=
  runSyllable (.divn x d a b) (divnMeaning x d a b) s
def execRem (x : TypeCode) (d a b : SReg) (s : State) : Host.Outcome State Fault Refusal :=
  runSyllable (.rem x d a b) (remMeaning x d a b) s
def execRemn (x : TypeCode) (d a b : SReg) (s : State) : Host.Outcome State Fault Refusal :=
  runSyllable (.remn x d a b) (remnMeaning x d a b) s
def execMax (x : TypeCode) (d a b : SReg) (s : State) : Host.Outcome State Fault Refusal :=
  runSyllable (.max x d a b) (maxMeaning x d a b) s
def execMaxn (x : TypeCode) (d a b : SReg) (s : State) : Host.Outcome State Fault Refusal :=
  runSyllable (.maxn x d a b) (maxnMeaning x d a b) s
def execMin (x : TypeCode) (d a b : SReg) (s : State) : Host.Outcome State Fault Refusal :=
  runSyllable (.min x d a b) (minMeaning x d a b) s
def execMinn (x : TypeCode) (d a b : SReg) (s : State) : Host.Outcome State Fault Refusal :=
  runSyllable (.minn x d a b) (minnMeaning x d a b) s
def execClz (x : TypeCode) (d a : SReg) (s : State) : Host.Outcome State Fault Refusal :=
  runSyllable (.clz x d a) (clzMeaning x d a) s
def execCtz (x : TypeCode) (d a : SReg) (s : State) : Host.Outcome State Fault Refusal :=
  runSyllable (.ctz x d a) (ctzMeaning x d a) s
def execPopc (x : TypeCode) (d a : SReg) (s : State) : Host.Outcome State Fault Refusal :=
  runSyllable (.popc x d a) (popcMeaning x d a) s
def execMov (x : TypeCode) (d a : SReg) (s : State) : Host.Outcome State Fault Refusal :=
  runSyllable (.mov x d a) (movMeaning x d a) s
def execSel (c : SelCond) (d a b : SReg) (s : State) : Host.Outcome State Fault Refusal :=
  runSyllable (.sel c d a b) (selMeaning c d a b) s
def execCmp (c : CmpCond) (d : PReg) (a b : SReg) (s : State) : Host.Outcome State Fault Refusal :=
  runSyllable (.cmp c d a b) (cmpMeaning c d a b) s
def execPlog (op : PlogOp) (d a b : PReg) (s : State) : Host.Outcome State Fault Refusal :=
  runSyllable (.plog op d a b) (plogMeaning op d a b) s
def execAddi (d a : SReg) (imm : Lit 9) (s : State) : Host.Outcome State Fault Refusal :=
  runSyllable (.addi d a imm) (addiMeaning d a imm) s
def execAndi (d a : SReg) (imm : Lit 9) (s : State) : Host.Outcome State Fault Refusal :=
  runSyllable (.andi d a imm) (andiMeaning d a imm) s
def execOri (d a : SReg) (imm : Lit 9) (s : State) : Host.Outcome State Fault Refusal :=
  runSyllable (.ori d a imm) (oriMeaning d a imm) s
def execXori (d a : SReg) (imm : Lit 9) (s : State) : Host.Outcome State Fault Refusal :=
  runSyllable (.xori d a imm) (xoriMeaning d a imm) s
def execCmpi (c : CmpCond) (d : PReg) (a : SReg) (imm : Lit 6) (s : State) : Host.Outcome State Fault Refusal :=
  runSyllable (.cmpi c d a imm) (cmpiMeaning c d a imm) s
def execMovi (d : SReg) (imm : Lit 9) (s : State) : Host.Outcome State Fault Refusal :=
  runSyllable (.movi d imm) (moviMeaning d imm) s
def execMovhi (d a : SReg) (imm : Lit 9) (s : State) : Host.Outcome State Fault Refusal :=
  runSyllable (.movhi d a imm) (movhiMeaning d a imm) s
def execBr (disp : Lit 9) (s : State) : Host.Outcome State Fault Refusal :=
  runSyllable (.br disp) (brMeaning disp) s
def execBrl (d : SReg) (disp : Lit 9) (s : State) : Host.Outcome State Fault Refusal :=
  runSyllable (.brl d disp) (brlMeaning d disp) s
def execBri (d a : SReg) (s : State) : Host.Outcome State Fault Refusal :=
  runSyllable (.bri d a) (briMeaning d a) s
def execLoop (d : SReg) (off : BitVec 9) (s : State) : Host.Outcome State Fault Refusal :=
  runSyllable (.loop d off) (loopMeaning d off) s
def execLoopmStart (d : SReg) (b : PReg) (a : SReg) (s : State) : Host.Outcome State Fault Refusal :=
  runSyllable (.loopmStart d b a) (loopmStartMeaning d b a) s
def execLoopmEnd (d : SReg) (b : PReg) (s : State) : Host.Outcome State Fault Refusal :=
  runSyllable (.loopmEnd d b) (loopmEndMeaning d b) s

end Sys2Proof.Machine
end

