-- ==== Sys2Proof/Machine/Contexts.lean ====
section
/-! DEFINITION. The contexts of a tile from cycle to cycle: selection (R30, R31), the end of a block (R29, R40), the return
from the second bank (R33), barriers (R378) and supersteps (R39, R102, R297, R379). -/

namespace Sys2Proof.Machine

/-! ### The end of a block (R29, R40) -/

/-- The state with a context in the primary bank of its slot, and the cursor on it: what its bundle would read. -/
def State.standing (s : State) (t : TileId) (k : SlotNo) (c : Context) : State :=
  { s.setCtx t.toNat k .primary c with cur := { tile := t, slot := k, pos := .ma } }

/-- A replica that waits for the lead's handler of VOTE_MINORITY has still to wait (R281). -/
def voteHeld (s : State) (c : Context) : Bool :=
  match s.groupOf c with
  | some g =>
    g.lead != c.replica.stack && (match g.holdAt with
      | some b => decide (b.toNat ≤ c.bcnt.toNat)
      | none => false)
  | none => false

/-- The condition on which a context is blocked is observed to have cleared. What a sleep, a watch, a barrier, a superstep
and a report wait for has an event of its own. (DEDUCED, safe; log entry 28.) -/
def blockCleared (s : State) (t : TileId) (k : SlotNo) (c : Context) (bc : BlockCond) : Bool :=
  let x := s.tile t.toNat
  let gtc := s.gtc.toNat
  match bc with
  | .headEmpty q => (c.queue q).headValid gtc
  | .queueFull q => !(c.queue q).full
  | .transferFull => decide (x.buffer.length < 32)
  | .geuFull => decide (x.geu.queue.length < 4)
  | .scanFull ch => decide (x.scans[ch.toNat]'ch.isLt < 4)
  | .releaseFull n => decide (c.replica.used + 8 * n ≤ 16384) || c.replica.cuts.isEmpty
  | .launchFull q => decide ((s.queueOf (launchQueue q)).used < 256)
  | .counterBelow off thr =>
    let st := s.standing t k c
    !st.coreWaits false && !(st.counterS off).ult thr
  | .wakeEmpty => (x.oldestToken c.uid gtc).isSome
  | .mxuOwned =>
    (match x.mxu.owner with
      | some (_, u) => u == c.uid
      | none => x.mxu.clearing.isNone && !x.mxu.mustClear c.asid)
  | .mxuBusy => !x.mxu.busy gtc
  | .mxuRoutine => !x.mxu.busy gtc
  | .gatherEmpty q => decide (64 ≤ ((c.queue q).held.takeWhile (fun e => decide (e.complete < gtc))).length)
  | .divider p =>
    let d := x.dividers[(dividerOf p).val]'(dividerOf p).isLt
    d.2 == c.uid || decide (d.1 ≤ gtc)
  | .releasePending ids => ids.all (fun id => !s.openOp id)
  | .watermark off len => !touchesWatermark s x off len
  | .reportAwaited => c.observed.isSome || !s.nonLead c
  | .voteHold => !voteHeld s c
  | .watch _ _ | .barrier _ | .superstep | .sleep _ => false

/-- A Blocked context becomes Ready in its bank. -/
def State.unblock (s : State) (t : Nat) (k : SlotNo) (b : Bank) : State :=
  s.modCtx t k b (fun c => { c with status := unblocked b })

/-- The condition of a CWAIT, which a save before its issue restores (Table 9-4). -/
def BlockCond.ofCwait : BlockCond → Option BlockCond
  | .counterBelow off thr => some (.counterBelow off thr)
  | .watch p thr => some (.watch p thr)
  | .reportAwaited => some .reportAwaited
  | _ => none

/-- The condition of a Blocked context is observed to clear. -/
def execBlockConditionClears (t : TileId) (k : SlotNo) (b : Bank) (s : State) : Host.Outcome State Fault Refusal :=
  let c := s.ctx t.toNat k b
  match c.status with
  | .blocked bc =>
    if blockCleared s t k c bc then
      .next (s.modCtx t.toNat k b (fun c => { c with status := unblocked b, cleared := bc.ofCwait }))
    else .next s
  | _ => .next s

/-- GTC reaches the time of a SLEEPT. -/
def execSleepExpiry (t : TileId) (k : SlotNo) (b : Bank) (s : State) : Host.Outcome State Fault Refusal :=
  match (s.ctx t.toNat k b).status with
  | .blocked (.sleep u) => if s.gtc.ult u then .next s else .next (s.unblock t.toNat k b)
  | _ => .next s

/-! ### Selection (R30) -/

/-- A late-landing stall or a wait for a stamp holds the tile: the bundle has been presented and stands. A context that has
been blocked stands at a bundle boundary, whatever of its bundle has committed. -/
def Context.holdsTile (c : Context) : Bool := c.stalled.isSome || (c.committed && c.status == .issuing)

/-- A Ready context that can be selected in this cycle. -/
def Slot.selectable (sl : Slot) (gtc : Nat) : Bool :=
  sl.primary.status == .ready && !sl.primary.saving && decide (sl.moving ≤ gtc) && decide (sl.primary.earliest ≤ gtc)

/-- R30 among Ready contexts: priority, then age, then the lower slot. -/
def Context.precedes (a b : Context) : Bool :=
  decide (b.prio < a.prio) || (a.prio == b.prio && decide (a.age < b.age))

/-- The Ready context that R30 selects. -/
def Tile.best (x : Tile) (gtc : Nat) : Option (SlotNo × Context) :=
  allSlots.foldl (fun acc k =>
    if (x.slot k).selectable gtc then
      match acc with
      | none => some (k, (x.slot k).primary)
      | some b => if (x.slot k).primary.precedes b.2 then some (k, (x.slot k).primary) else acc
    else acc) none

/-- The slot of the Issuing context. -/
def Tile.issuing (x : Tile) : Option SlotNo := allSlots.find? (fun k => (x.slot k).primary.status == .issuing)

def Tile.setStatus (x : Tile) (k : SlotNo) (st : CtxStatus) : Tile :=
  x.setCtx k .primary { (x.slot k).primary with status := st }

/-- What the selection of a cycle does to a tile. -/
def Tile.select (x : Tile) (gtc : Nat) : Tile :=
  match x.best gtc, x.issuing with
  | none, _ => x
  | some (k, _), none => x.setStatus k .issuing
  | some (k, c), some j =>
    let d := (x.slot j).primary
    if d.prio < c.prio ∧ d.holdsTile = false then
      (x.setCtx j .primary { d with status := .ready, age := gtc }).setStatus k .issuing
    else x

/-- The issue unit of a tile selects. -/
def execIssueSelect (t : TileId) (s : State) : Host.Outcome State Fault Refusal :=
  .next (s.modTile t.toNat (fun x => x.select s.gtc.toNat))

/-! ### The return from the second bank (R33) -/

/-- A context displaced from the primary bank. -/
def Context.displaced (c : Context) (gtc : Nat) : Context :=
  match c.status with
  | .issuing => { c with status := .readyOut, age := gtc }
  | .ready => { c with status := .readyOut }
  | .free | .blocked _ | .parked _ | .readyOut | .draining | .halted => c

/-- Whether a returning context takes the primary bank of its slot: none while it does not, else whether the two
exchange. -/
def Slot.returns (sl : Slot) (gtc : Nat) : Option Bool :=
  if sl.second.status = .readyOut ∧ sl.second.saving = false ∧ sl.moving ≤ gtc then
    match sl.primary.status with
    | .free => some false
    | .blocked _ | .parked _ => some true
    | .issuing | .ready =>
      if sl.primary.prio < sl.second.prio ∧ sl.primary.holdsTile = false then some true else none
    | .readyOut | .draining | .halted => none
  else none

/-- A Ready-out context returns to the primary bank in 8 cycles, as Table 21-7 has it for a free bank and R33 for an exchange;
its first bundle comes in the cycle after (Table 21-7). -/
def execBankReturn (t : TileId) (k : SlotNo) (s : State) : Host.Outcome State Fault Refusal :=
  let sl := (s.tile t.toNat).slot k
  match sl.returns s.gtc.toNat with
  | none => .next s
  | some exchange =>
    .next (s.modTile t.toNat (fun x => x.setSlot k
      { primary := { sl.second with status := .ready, earliest := Nat.max sl.second.earliest (s.gtc.toNat + 9) }
        second := if exchange then sl.primary.displaced s.gtc.toNat else Context.reset
        moving := s.gtc.toNat + 8 }))

/-! ### Barriers (R378) -/

/-- A context that waits at a barrier. -/
def Barrier.waiter (b : Barrier) (r : Record) (c : Context) : Bool :=
  c.status == .blocked (.barrier b.level) && c.rid == b.rid && c.barrierCount b.level == b.n
    && barrierInst r.words c.flat b.level.toNat == b.inst

/-- Every context of the record in this package has arrived or exited: what other packages lack comes from outside. -/
def localFull (s : State) (b : Barrier) (r : Record) : Bool :=
  (s.bound b.rid).all (fun x =>
    barrierInst r.words x.2.2.2.flat b.level.toNat != b.inst || b.arrived.contains x.2.2.2.flat
      || r.exited.contains x.2.2.2.flat)

/-- A transfer command of a record that has not completed (R39). -/
def State.transfersOpen (s : State) (rid : Nat) : Bool :=
  (s.bound rid).any (fun x => (s.tile x.1).cmds.any (fun c => c.uid == x.2.2.2.uid))

/-- The contexts that wait at a barrier become Ready. -/
def State.releaseWaiters (s : State) (b : Barrier) (r : Record) : State :=
  (s.bound b.rid).foldl (fun (st : State) x =>
    if b.waiter r x.2.2.2 then st.unblock x.1 x.2.1 x.2.2.1 else st) s

/-- A barrier releases its contexts, all in the same cycle; the barrier of a DET record starts the next superstep. Across
packages the release comes from outside. -/
def execBarrierRelease (bid : Nat) (s : State) : Host.Outcome State Fault Refusal :=
  match s.barriers.find? (fun b => b.id == bid) with
  | none => .next s
  | some b =>
    match s.record b.rid with
    | none => .next s
    | some r =>
      let due? := match b.due with
        | some d => if d ≤ s.gtc.toNat then some d else none
        | none => if spansPackages r b.level.toNat ∧ localFull s b r = true then some s.gtc.toNat else none
      match due? with
      | none => .next s
      | some d =>
        if s.barrierHeld b then .next s
        else if recDet r.words then
          if s.transfersOpen b.rid then .next s
          else
            let s1 : State := { s with barriers := s.barriers.filter (fun x => x.id != bid) }
            .next (if r.pkgIndex = 0 then s1.sendPulses r else s1)
        else
          let s1 : State := { s with
            barriers := replaceFirst (fun x => x.id == bid) (fun x => { x with due := some d }) s.barriers }
          .next (s1.releaseWaiters b r)

/-! ### Start pulses (R102, R379) -/

/-- A start pulse reaches a context: FRAME restarts, and from the second pulse on SSTEP advances and the SBAR at which the
context waits is released. (DEDUCED, safe; log entry 38.) -/
def Context.pulse (c : Context) (b : Bank) (gtc : Nat) : Context :=
  match c.pulseAt with
  | none => { c with pulseAt := some gtc }
  | some _ =>
    { c with
      pulseAt := some gtc, sstep := c.sstep + 1, released := true
      status := if c.status = .blocked .superstep then unblocked b else c.status }

/-- Mesh-edge links between two packages of a group (R265, R297). -/
def edgeLinks (a b : BitVec 21) : Nat :=
  let d (x y : Nat) : Nat := (x - y) + (y - x)
  d (natBits a.toNat 0 3) (natBits b.toNat 0 3) + d (natBits a.toNat 3 3) (natBits b.toNat 3 3)

/-- A start pulse reaches a tile, and FRAME counts from the cycle in which it is due there. In a package without the origin
it is one that left the origin tile in the cycle `p.left`, and is due after the latency of R15 and 512 cycles for each
mesh-edge link crossed (R297). -/
def execStartPulse (rid : Nat) (p : PulseAt) (s : State) : Host.Outcome State Fault Refusal :=
  let t := p.tile
  match s.record rid with
  | none => .next s
  | some r =>
    let mine (q : Pulse) : Bool := q.rid == rid && q.tile == t && decide (q.due ≤ s.gtc.toNat)
    let come := p.left + hopLatency p.origin.toNat t.toNat + 512 * edgeLinks (recNode0 r.words) s.node
    if r.phase = .running ∧ recDet r.words = true ∧
        (s.pulses.any mine = true ∨ (r.pkgIndex ≠ 0 ∧ come ≤ s.gtc.toNat)) then
      let (s1, due) : State × Nat := match s.pulses.find? mine with
        | some x => ({ s with pulses := s.pulses.filter (fun q => q.rid != rid || q.tile != t || q.due != x.due) }, x.due)
        | none => (s, come)
      .next ((s.bound rid).foldl (fun (st : State) x =>
        if x.1 = t.toNat then st.modCtx x.1 x.2.1 x.2.2.1 (fun c => c.pulse x.2.2.1 due) else st) s1)
    else .next s

end Sys2Proof.Machine
end

