-- ==== Sys2Proof/Machine/Platform.lean ====
section
/-! DEFINITION. Resets and Temper (R315 to R318), the event-ring registers (R312, R314), energy and heat (R319 to R323),
the links (R266, R270) and the clock (R88). -/

namespace Sys2Proof.Machine

/-! ### Event records of the platform -/

/-- An event of no tile. The spec gives no other field of its record. -/
def State.platformEvent (s : State) (cls code : BitVec 8) : State := s.postOpen cls (some code) none none none none

/-- The same, of a code that the spec does not give. -/
def State.openEvent (s : State) (cls : BitVec 8) : State := s.postOpen cls none none none none none

/-! ### Resets (Table 16-9) -/

/-- A tile after a warm reset: contexts and engines are cleared, the scratchpad is kept. -/
def Tile.warm (x : Tile) : Tile :=
  { Tile.reset with
    scratch := if x.replicated then clearRange x.scratch 0x1F0000 0x10000 else x.scratch
    lreq := x.lreq, xreq := x.xreq, descs := x.descs, entries := x.entries }

/-- What a warm reset clears: contexts, context areas, pools, launch queues, commands and everything under way. -/
def State.clearRun (s0 : State) : State :=
  let s := s0.records.foldl (fun (st : State) r => st.freeAreas r) s0
  { s with
    tiles := s.tiles.map (fun x => (x.1, x.2.warm))
    flights := [], mcasts := [], watches := [], barriers := [], pulses := [], scans := [], groups := [], tongs := []
    carries := [], records := [], relayed := [], queues := Vector.replicate 8 LaunchQueue.reset, rotation := 0
    mmp := { s.mmp with faults := [] } }

/-- A warm reset starts; one in progress, and the safe state, ignore it. (DESIGN CHOICE, unsafe; log entry 42.) -/
def execWarmReset (s : State) : Host.Outcome State Fault Refusal :=
  if s.platform.resetting.isSome || s.platform.safe then .next s
  else .next (s.clearRun.modPlatform (fun p => { p with resetting := some (s.gtc.toNat + 2 ^ 20) }))

/-- What Evsol has still to deliver, with three records for each class with dropped ones. -/
def Platform.backlog (p : Platform) : Nat := p.reserve.length + 3 * p.dropped.length

/-- A warm reset is complete: RESET_STAT reads 0, and the delivery of fault events resumes (Table 16-10). -/
def execWarmResetComplete (s : State) : Host.Outcome State Fault Refusal :=
  if s.platform.resetting.isSome then
    let s1 := s.modPlatform (fun p => { p with resetting := none })
    .next (s1.drainEvents s1.platform.backlog)
  else .next s

/-- The Temper step that a failure code names; 0xF0 may end any step. -/
def temperStepOf (code : BitVec 8) : Option (BitVec 4) :=
  let c := code.toNat
  if c = 0 then some 8
  else if c = 2 then some 2
  else if c = 3 then some 3
  else if 0x10 ≤ c ∧ c < 0x18 then some 4
  else if c = 0x20 then some 5
  else if 0x30 ≤ c ∧ c < 0xF0 then some 6
  else none

/-- The class-7 events of the link ports that Temper could not train. -/
def State.linkEvents (s : State) (up : BitVec 48) : State :=
  (List.range 48).foldl (fun (st : State) i => if up.getLsbD i then st else st.openEvent 7) s

/-- A cold reset and its Temper run, with its result: on a pass the link ports that came up and the node id; the compute
dies are released and GTC starts at 0. A failure leaves the safe state with the compute dies in reset, before any link is
trained. Memory holds nothing that was written (DESIGN CHOICE, unsafe; log entry 2). -/
def execColdReset (temperCode : BitVec 8) (node : BitVec 21) (live : LiveParts) (s : State) :
    Host.Outcome State Fault Refusal :=
  let (x, s1) := s.freeWord
  let pass := temperCode == 0
  let stepNo := match temperStepOf temperCode with
    | some n => n
    | none => BitVec.ofNat 4 (x.toNat % 8 + 1)
  let s2 : State := { State.reset with
    agenda := s1.agenda, drawn := s1.drawn, nextId := s1.nextId, out := s1.out, outAt := s1.out.length, node := if pass then node else 0
    platform := { Platform.reset with
      safe := !pass, temper := temperCode, temperPass := pass, temperDone := true, temperStep := stepNo, released := pass
      dieLive := live.dies, nodes := if pass then node :: live.nodes else [0], linksUp := if pass then live.links else 0 } }
  .next (if pass then s2.linkEvents live.links else s2)

/-! ### The event ring (R312, R314) -/

def execEvqConsWrite (v : Word) (s : State) : Host.Outcome State Fault Refusal :=
  if s.platform.safe then .next s
  else
    let s1 := s.modPlatform (fun p => { p with evqCons := v.setWidth 32 })
    .next (s1.drainEvents s1.platform.backlog)

def execEvqSizeWrite (v : Word) (s : State) : Host.Outcome State Fault Refusal :=
  let n : BitVec 5 := v.setWidth 5
  if s.platform.safe || (decide (16 ≤ n.toNat) && decide (n.toNat ≤ 30)) then .next s
  else .next (s.modPlatform (fun p => { p with evqSize := n }))

/-- A write of 1 to OVF clears it while RESV is 0. -/
def execEvqStatWrite (v : Word) (s : State) : Host.Outcome State Fault Refusal :=
  if v.msb && s.platform.reserve.isEmpty && !s.platform.safe then
    .next (s.modPlatform (fun p => { p with evqOvf := false }))
  else .next s

/-! ### Registers of BAR 0 (Tables 16-7 and 17-5) -/

/-- A write of DIE_MAPv or EVQ_BASE; the other writable registers of BAR 0 have events of their own, and an offset that no
table lists ignores writes. -/
def State.writeBar0 (s : State) (o : Nat) (v : Word) : State :=
  if s.platform.safe then s
  else if o = 0x100 then s.modPlatform (fun p => { p with evqBase := v &&& ~~~(0xFFF : Word) })
  else if h : 0x40 ≤ o ∧ o % 8 = 0 ∧ (o - 0x40) / 8 < 17 then
    s.modPlatform (fun p => { p with
      dieMap := p.dieMap.set ((o - 0x40) / 8) (v.msb, v.setWidth 5) h.2.2
      dieMapAt := p.dieMapAt.set ((o - 0x40) / 8) s.gtc.toNat h.2.2 })
  else s

/-- A write of a word of BAR 2: of a record in a launch queue that the host fills. The pointer registers have events of
their own. -/
def State.writeBar2 (s : State) (o : Nat) (v : Word) : State :=
  if s.platform.safe ∨ o % 8 ≠ 0 ∨ 0x40000 ≤ o then s
  else
    let slot := o % 0x10000 / 256
    s.modQueue (BitVec.ofNat 3 (o / 0x10000)) (fun q =>
      { q with slots := assocSet slot (((assocGet slot q.slots).getD (List.replicate 32 0)).set (o % 256 / 8) v) q.slots })

/-- A write of a word of BAR 4: of the request area, or of the doorbell. -/
def State.writeBar4 (s : State) (o : Nat) (v : Word) : State :=
  if 0x1000 ≤ o ∨ o % 8 ≠ 0 then s
  else
    let s1 := s.modPlatform (fun p => { p with request := assocSet o v p.request })
    if o = 0xFF8 then s1.ringDoorbell else s1

/-- A host write to a register, or a word, of a BAR that has no event of its own (Table 13-4). -/
def execRegisterWrite (off : BarOffset) (v : Word) (s : State) : Host.Outcome State Fault Refusal :=
  .next (if off.bar = 0 then s.writeBar0 off.off.toNat v
    else if off.bar = 2 then s.writeBar2 off.off.toNat v
    else if off.bar = 4 then s.writeBar4 off.off.toNat v
    else s)

/-- The word that the host reads at an offset of BAR 0. -/
def bar0Read (p : Platform) (off : BitVec 16) : Word :=
  let o := off.toNat
  let early := o = 0x1000 ∨ o = 0x1008
  if p.safe ∧ ¬early then 0
  else if o = 0x008 then boolBit p.resetting.isSome 0
  else if o = 0x010 then p.dieLive.setWidth 64
  else if 0x40 ≤ o ∧ o % 8 = 0 ∧ (o - 0x40) / 8 < 17 then
    match p.dieMap.toList[(o - 0x40) / 8]? with
    | some (ok, d) => boolBit ok 63 ||| d.setWidth 64
    | none => 0
  else if o = 0x100 then p.evqBase
  else if o = 0x108 then p.evqSize.setWidth 64
  else if o = 0x110 then p.evqProd.setWidth 64
  else if o = 0x118 then p.evqCons.setWidth 64
  else if o = 0x120 then boolBit p.evqOvf 63 ||| BitVec.ofNat 64 (p.reserve.length % 2 ^ 13)
  else if o = 0x1000 then temperStat p
  else if o = 0x1008 then p.temperStep.setWidth 64
  else if o = 0x1010 then p.ebudNext.getD p.ebud
  else if 0x1020 ≤ o ∧ o % 8 = 0 ∧ (o - 0x1020) / 8 < 5 then p.meters.toList.getD ((o - 0x1020) / 8) 0
  else if o = 0x1050 then boolBit p.emergency 63 ||| p.outlet.setWidth 64 <<< 8 ||| p.hottest.setWidth 64
  else 0

/-- The pointer register of a launch queue (Table 13-5). -/
def LaunchQueue.pointer (q : LaunchQueue) : Word := boolBit q.err 63 ||| q.cons.setWidth 64 <<< 32 ||| q.prod.setWidth 64

/-- The word that the host reads at an offset of BAR 2: the records of the launch queues, then the pointer page; the rest
reads 0, and all of it in the safe state. -/
def bar2Read (s : State) (off : BitVec 20) : Word :=
  let o := off.toNat
  if s.platform.safe ∨ o % 8 ≠ 0 then 0
  else if o < 0x80000 then
    ((assocGet (o % 0x10000 / 256) (s.queueOf (BitVec.ofNat 3 (o / 0x10000))).slots).getD []).getD (o % 256 / 8) 0
  else if o < 0x80040 then (s.queueOf (BitVec.ofNat 3 ((o - 0x80000) / 8))).pointer
  else 0

/-- The word that the host reads at an offset of BAR 4: the request area with the doorbell, then the response area. -/
def bar4Read (p : Platform) (off : BitVec 20) : Word :=
  let o := off.toNat
  if o < 0x1000 then (assocGet o p.request).getD 0 else p.response.getD ((o - 0x1000) / 8) 0

/-- The events that a host write to a register of a BAR stands for: the writes of a launch queue's pointer clear ERR first
and then set PROD. RESET_CTL = 2 runs Temper, whose result comes from outside: it is COLD_RESET. -/
def barEvents (bar : BitVec 3) (off : BitVec 20) (v : Word) : List Instr :=
  let o := off.toNat
  let q : BitVec 3 := BitVec.ofNat 3 ((o - 0x80000) / 8)
  if bar = 0 then
    if o = 0 then (if (v.setWidth 2 : BitVec 2) = 1 then [.warmReset] else [])
    else if o = 0x108 then [.evqSizeWrite v]
    else if o = 0x118 then [.evqConsWrite v]
    else if o = 0x120 then [.evqStatWrite v]
    else if o = 0x1010 then [.ebudSetWrite v]
    else [.registerWrite { bar := bar, off := off } v]
  else if bar = 2 ∧ 0x80000 ≤ o ∧ o < 0x80040 ∧ o % 8 = 0 then [.launchQueueErrClear q v, .launchQueueProdWrite q v []]
  else [.registerWrite { bar := bar, off := off } v]

/-! ### Energy (R319, R320, R322) -/

/-- EBUD_SET: written into EBUD in the next cycle; a zero field, or a BUDGET above 2,800,000, is ignored. -/
def execEbudSetWrite (v : Word) (s : State) : Host.Outcome State Fault Refusal :=
  let budget := natBits v.toNat 0 32
  if s.platform.safe || natBits v.toNat 32 16 == 0 || budget == 0 || decide (2800000 < budget) then .next s
  else .next (s.modPlatform (fun p => { p with ebudNext := some (v &&& 0xFFFFFFFFFFFF) }))

/-- The meters advance in every 1,024th cycle. -/
def execMeterAdvance (delta : Vector Word 5) (s : State) : Host.Outcome State Fault Refusal :=
  if s.gtc.toNat % 1024 = 0 ∧ s.platform.safe = false then
    .next (s.modPlatform (fun p => { p with meters := Vector.ofFn (fun i => p.meters[i] + delta[i]) }))
  else .next s

/-- The sum of the meters. -/
def Platform.energy (p : Platform) : Word := p.meters.toList.foldl (· + ·) 0

/-- The cycles of a window. -/
def Platform.window (p : Platform) : Nat := natBits p.ebud.toNat 32 16 * 1024

/-- A window ends. 3,200,000 cycles are a millisecond (Table 17-3), so milliwatts are microjoules in a millisecond; a part
of a milliwatt counts as one, so that the comparison with BUDGET is exact. (DEDUCED, unsafe; log entry 46.) -/
def execPowerWindowEnd (s : State) : Host.Outcome State Fault Refusal :=
  let p := s.platform
  let len := s.gtc.toNat - p.windowAt
  if p.safe || len = 0 || decide (len < p.window) then .next s
  else
    let used := (p.energy - BitVec.ofNat 64 p.windowSum).toNat
    .next (s.modPlatform (fun p => { p with
      windowSum := p.energy.toNat, windowAt := s.gtc.toNat, measured := (used * 3200000 + (len - 1)) / len }))

/-! ### Heat (R321) -/

/-- The sensors are read: the hottest junction and the outlet. -/
def State.sense (s : State) (hottest outlet : BitVec 8) : State :=
  s.modPlatform (fun p => { p with
    hottest := hottest, outlet := outlet
    coolSince := if hottest.toNat ≤ 95 ∧ outlet.toNat ≤ 55 then some (p.coolSince.getD s.gtc.toNat) else none })

/-- A reading of the sensors. With a junction at 105 °C or the outlet at 65 °C the emergency begins. Running records are
pre-empted by PREEMPTION. -/
def execThermalEmergency (hottest outlet : BitVec 8) (s : State) : Host.Outcome State Fault Refusal :=
  if s.platform.safe then .next s
  else
    let s1 := s.sense hottest outlet
    if hottest.toNat < 105 ∧ outlet.toNat < 65 then .next s1
    else
      let s2 := s1.modPlatform (fun p => { p with emergency := true })
      .next (if s.platform.emergency then s2 else s2.openEvent 10)

/-- Every reading for 2^24 cycles. -/
def Platform.cooled (p : Platform) (gtc : Nat) : Bool :=
  match p.coolSince with
  | some n => decide (n + 2 ^ 24 ≤ gtc)
  | none => false

/-- A reading of the sensors: when they have stood at 95 °C and 55 °C or below for 2^24 cycles, the emergency ends and
admission resumes. -/
def execThermalEmergencyEnd (hottest outlet : BitVec 8) (s : State) : Host.Outcome State Fault Refusal :=
  if s.platform.safe then .next s
  else
    let s1 := s.sense hottest outlet
    if s.platform.emergency && s1.platform.cooled s.gtc.toNat then
      .next ((s1.modPlatform (fun p => { p with emergency := false })).platformEvent 10 0)
    else .next s1

/-- A junction at 115 °C: the compute dies are put in reset, and the module enters the safe state. Temper, where it runs,
ends (Table 17-6). -/
def execThermalShutdown (hottest outlet : BitVec 8) (s : State) : Host.Outcome State Fault Refusal :=
  if s.platform.safe || decide (hottest.toNat < 115) then .next s
  else
    .next ((s.openEvent 11).clearRun.modPlatform (fun p => { p with
      hottest := hottest, outlet := outlet, coolSince := none, safe := true, temper := 0xF0, temperPass := false
      temperDone := true }))

/-! ### Corrected errors (R313) -/

/-- In every 2^24th cycle a count of corrected errors is posted. -/
def execCorrectedErrorReport (count : Word) (s : State) : Host.Outcome State Fault Refusal :=
  if s.gtc.toNat % 2 ^ 24 = 0 ∧ s.platform.safe = false then
    .next (s.postOpen 2 none none none (some count) none)
  else .next s

/-! ### Links (R266, R270) -/

/-- The links over which traffic for a node leaves (R265): the mesh-edge links of one side within the group, first in x,
then in y; the switch ports otherwise. Links 0 to 15 are those of the west, east, north and south sides, and the others the
switch ports. (PRESUMED, unsafe; log entry 14.) -/
def linksTo (here dest : BitVec 21) : List Nat :=
  let side (i : Nat) : List Nat := (List.range 4).map (fun j => 4 * i + j)
  let x (n : BitVec 21) : Nat := natBits n.toNat 0 3
  let y (n : BitVec 21) : Nat := natBits n.toNat 3 3
  if here.toNat / 64 ≠ dest.toNat / 64 then (List.range 32).map (fun j => 16 + j)
  else if x dest < x here then side 0
  else if x here < x dest then side 1
  else if y dest < y here then side 2
  else side 3

/-- The links that a message to another package may take, and its virtual channel (Table 13-3); none for the host's. -/
def OutMsg.channel (here : BitVec 21) : OutMsg → Option (List Nat × BitVec 3)
  | .msix _ | .mailbox _ _ _ | .event _ _ | .hostWrite _ _ | .pin _ _ _ _ => none
  | .request n _ _ det => some (linksTo here n, if det then 4 else 0)
  | .counterAdd n _ _ _ _ => some (linksTo here n, 1)
  | .carry _ _ _ => some ([4, 5, 6, 7], 3)
  | .record n _ _ | .reserve n _ | .commit n _ | .handle n _ _ _ | .cancel n _ _ | .reserved n _ | .partDone n _ | .abort n _ _
  | .bound n _ | .pulse n _ _ _ => some (linksTo here n, 5)
  | .arrive _ _ => some (List.range 48, 5)

/-- Every link that a message may take is stopped for its virtual channel, which then holds it (R266). -/
def State.holdsBack (s : State) (m : OutMsg) : Bool :=
  match m.channel s.node with
  | none => false
  | some (links, vc) =>
    let up := links.filter (fun l => s.platform.linksUp.getLsbD l)
    !up.isEmpty && up.all (fun l => s.platform.stopped.contains (BitVec.ofNat 6 l, vc))

/-- A receiver signals stop, or go, for a virtual channel of a link; with go, what it held leaves. -/
def execStopGo (link : BitVec 6) (vc : BitVec 3) (stop : Bool) (s : State) : Host.Outcome State Fault Refusal :=
  let s1 := s.modPlatform (fun p =>
    let others := p.stopped.filter (fun x => x != (link, vc))
    { p with stopped := if stop then others ++ [(link, vc)] else others })
  .next { s1 with
    out := s1.out ++ s1.linkHeld.filter (fun m => !s1.holdsBack m), linkHeld := s1.linkHeld.filter s1.holdsBack }

/-- The messages of a cycle leave at its end, but for those that a stopped virtual channel holds. -/
def State.sendOut (s : State) : State :=
  let new := s.out.drop s.outAt
  let out := s.out.take s.outAt ++ new.filter (fun m => !s.holdsBack m)
  { s with out := out, outAt := out.length, linkHeld := s.linkHeld ++ new.filter s.holdsBack }

/-- A scan that waits for its carry on the lost side takes the identity. -/
def ScanOp.loseCarry (o : ScanOp) (gtc : Nat) : ScanOp :=
  match o.contributions with
  | c :: _ =>
    if o.started.isSome && o.carries && !o.mixed && o.carryIn.isNone then { o with carryIn := some (identityCarry c, gtc) }
    else o
  | [] => o

/-- A link is lost: an event is posted, and a carry that waits for the west side becomes the identity. -/
def execLinkLoss (link : BitVec 6) (s : State) : Host.Outcome State Fault Refusal :=
  if link.toNat < 48 && s.platform.linksUp.getLsbD link.toNat then
    let s1 := s.modPlatform (fun p => { p with linksUp := p.linksUp &&& ~~~((1 : BitVec 48) <<< link.toNat) })
    let s2 := if link.toNat < 4 then { s1 with scans := s1.scans.map (fun o => o.loseCarry s.gtc.toNat) } else s1
    .next (s2.openEvent 7)
  else .next s

/-- An answer of the mailbox, or its interrupt. -/
def OutMsg.answer : OutMsg → Bool
  | .mailbox _ _ _ => true
  | .msix v => v == 0
  | _ => false

/-- MMP core 0 resets: a mailbox request that is not answered is discarded, and the host sees no answer of this cycle
(Table 13-6). -/
def execMmpCoreReset (core : BitVec 3) (s : State) : Host.Outcome State Fault Refusal :=
  if core = 0 then
    let now := s.out.drop s.outAt
    .next { s with
      out := s.out.take s.outAt ++ now.filter (fun m => !m.answer)
      mmp := { s.mmp with pending := none }
      platform := { s.platform with
        rung := none, response := if now.any OutMsg.answer then [] else s.platform.response } }
  else .next s

/-! ### The clock (R88) -/

/-- The next cycle: EBUD takes the value of EBUD_SET. GTC counts once the compute dies are released (Table 17-1); while it
stands, what is to come from outside comes nearer by a cycle. -/
def State.tick (s0 : State) : State :=
  let s := s0.sendOut
  { s with
    gtc := if s.platform.released then s.gtc + 1 else s.gtc
    turn := 0, admitted := false
    agenda := if s.platform.released then s.agenda else s.agenda.map (fun x => (x.1 - 1, x.2))
    platform := { s.platform with
      ebud := s.platform.ebudNext.getD s.platform.ebud, ebudNext := none
      rung := s.platform.rung.map (fun x => (true, x.2)) } }

end Sys2Proof.Machine
end

