-- ==== Sys2Proof/Machine/Vector.lean ====
section
/-! DEFINITION. The vector family of VA and VB: bitwise and integer lanes, lane arithmetic in every format, moves,
conversions, reductions, functions, mask logic and quires (R354, R359, R369 to R371, R374, R390 to R404, R409 to R414).
VRAND.ent stands with the inputs of a context. -/

namespace Sys2Proof.Machine

/-! ### Shared operations -/

/-- A whole register landed from its lanes: results in active lanes, v_D as read elsewhere (R390). -/
def laneMeaning (w : LaneW) (d : VReg) (m : MReg) (lat : Nat) (f : Context → List Rounded) : Meaning :=
  { effect := fun st s =>
      let c := st.me
      let act := activeLanes w (c.mreg m)
      let rs := f c
      s.landFlags (.v d (vecOf w (mergeLanes act (rs.map Prod.fst) (vecLanes w (c.vreg d))))) lat
        (activeFlags act (rs.map Prod.snd)) }

/-- Lanes without flags. -/
def plainLanes (w : LaneW) (d : VReg) (m : MReg) (lat : Nat) (f : Context → List Nat) : Meaning :=
  laneMeaning w d m lat (fun c => (f c).map (fun x => (x, 0)))

/-- A result for each lane of one source. -/
def lanes1 (w : LaneW) (d a : VReg) (m : MReg) (lat : Nat) (f : Nat → Rounded) : Meaning :=
  laneMeaning w d m lat (fun c => (vecLanes w (c.vreg a)).map f)

/-- A result for each pair of lanes. -/
def lanes2 (w : LaneW) (d a b : VReg) (m : MReg) (lat : Nat) (f : Nat → Nat → Rounded) : Meaning :=
  laneMeaning w d m lat (fun c => List.zipWith f (vecLanes w (c.vreg a)) (vecLanes w (c.vreg b)))

/-- A mask at a latency. -/
def maskMeaning (d : MReg) (lat : Nat) (f : Context → MaskWord) : Meaning :=
  { effect := fun st s => s.land (.m d (f st.me)) lat }

/-- The latency of an operation in integer formats and in the others (Table 4-3). -/
def fmtLatency (f : Fmt) (int other : Nat) : Nat := if f.isInt then int else other

/-- Integer lanes wrap (R112). -/
def wrapLane (f : Fmt) (x : Int) : Rounded := (wrapInt (fmtBits f) x, 0)

/-! ### Bitwise, counts, moves -/

def vandMeaning (d a b : VReg) (m : MReg) : Meaning := lanes2 .w32 d a b m 1 (fun x y => (x &&& y, 0))
def vorMeaning (d a b : VReg) (m : MReg) : Meaning := lanes2 .w32 d a b m 1 (fun x y => (x ||| y, 0))
def vxorMeaning (d a b : VReg) (m : MReg) : Meaning := lanes2 .w32 d a b m 1 (fun x y => (x ^^^ y, 0))

/-- VSEL writes every lane: the mask selects (R396). -/
def vselMeaning (d a b : VReg) (m : MReg) : Meaning :=
  { effect := fun st s =>
      let c := st.me
      s.land (.v d (vecOf .w32
        (mergeLanes (activeLanes .w32 (c.mreg m)) (vecLanes .w32 (c.vreg a)) (vecLanes .w32 (c.vreg b))))) 1 }

/-- The 1 bits of a lane. -/
def laneOnes (w x : Nat) : Nat := ((List.range w).filter (fun i => x.testBit i)).length

def vcntMeaning (w : LaneW) (d a : VReg) (m : MReg) : Meaning := lanes1 w d a m 1 (fun x => (laneOnes w.bits x, 0))

def vmovsMeaning (w : LaneW) (d : VReg) (a : SReg5) (m : MReg) : Meaning :=
  plainLanes w d m 1 (fun c => List.replicate w.lanes ((c.sreg5 a).toNat % 2 ^ w.bits))

/-- Mix of R411, modulo 2^32. -/
def mix (seed : BitVec 32) (l : Nat) : BitVec 32 :=
  let h := seed + 0x9E3779B9 * BitVec.ofNat 32 (l + 1)
  let h := (h ^^^ (h >>> 16)) * 0x7FEB352D
  let h := (h ^^^ (h >>> 15)) * 0x846CA68B
  h ^^^ (h >>> 16)

def vrandMeaning (d a : VReg) (m : MReg) : Meaning :=
  plainLanes .w32 d m 4 (fun c =>
    (vecLanes .w32 (c.vreg a)).mapIdx (fun l x => (mix (BitVec.ofNat 32 x) l).toNat))

/-- A lane shift (R414). -/
def laneShl (w a n : Nat) : Nat := (a <<< n) % 2 ^ w
def laneShr (_w a n : Nat) : Nat := a >>> n
def laneSra (w a n : Nat) : Nat := wrapInt w (signedOf w a / 2 ^ n)

def shiftLanes (w : LaneW) (d a b : VReg) (m : MReg) (f : Nat → Nat → Nat → Nat) : Meaning :=
  lanes2 w d a b m 1 (fun x y => (f w.bits x (y % w.bits), 0))

def shiftLanesImm (w : LaneW) (d a : VReg) (n : BitVec 5) (m : MReg) (f : Nat → Nat → Nat → Nat) : Meaning :=
  lanes1 w d a m 1 (fun x => (f w.bits x n.toNat, 0))

def vshlMeaning (w : LaneW) (d a b : VReg) (m : MReg) : Meaning := shiftLanes w d a b m laneShl
def vshrMeaning (w : LaneW) (d a b : VReg) (m : MReg) : Meaning := shiftLanes w d a b m laneShr
def vsraMeaning (w : LaneW) (d a b : VReg) (m : MReg) : Meaning := shiftLanes w d a b m laneSra
def vshlImmMeaning (w : LaneW) (d a : VReg) (c : BitVec 5) (m : MReg) : Meaning := shiftLanesImm w d a c m laneShl
def vshrImmMeaning (w : LaneW) (d a : VReg) (c : BitVec 5) (m : MReg) : Meaning := shiftLanesImm w d a c m laneShr
def vsraImmMeaning (w : LaneW) (d a : VReg) (c : BitVec 5) (m : MReg) : Meaning := shiftLanesImm w d a c m laneSra

/-- The VPERM index form (R403). -/
def vpermMeaning (w : LaneW) (d a b : VReg) (m : MReg) : Meaning :=
  plainLanes w d m 2 (fun c =>
    let src := vecLanes w (c.vreg a)
    (vecLanes w (c.vreg b)).map (fun i => laneAt src (i % w.lanes)))

/-- The source lane of a pattern (Table 20-5): lanes of v_A, then lanes of v_B. -/
def permSource (k : PermKind) (n p l : Nat) : Nat :=
  match k with
  | .bcast => p
  | .rev => l ^^^ (2 ^ p - 1)
  | .ziplo => if l % 2 = 0 then l / 2 else n + (l - 1) / 2
  | .ziphi => if l % 2 = 0 then n / 2 + l / 2 else n + n / 2 + (l - 1) / 2
  | .even => 2 * l
  | .odd => 2 * l + 1
  | .shift => l + p
  | .swap => l ^^^ 2 ^ p

def vpermPatternMeaning (w : LaneW) (d a b : VReg) (m : MReg) (kind : PermKind) (param : BitVec 8) : Meaning :=
  plainLanes w d m 2 (fun c =>
    let src := vecLanes w (c.vreg a) ++ vecLanes w (c.vreg b)
    (List.range w.lanes).map (fun l => laneAt src (permSource kind w.lanes param.toNat l)))

/-- VEXT: rotation of lanes by an unsigned 64-bit count (R403). -/
def vextMeaning (w : LaneW) (d a : VReg) (b : SReg5) (m : MReg) : Meaning :=
  plainLanes w d m 2 (fun c =>
    let src := vecLanes w (c.vreg a)
    (List.range w.lanes).map (fun l => laneAt src ((l + (c.sreg5 b).toNat) % w.lanes)))

/-- VCOMPR: the selected lanes moved to the front, then zeros: every lane is written (R399). -/
def vcomprMeaning (d a : VReg) (m : MReg) : Meaning :=
  { effect := fun st s =>
      let c := st.me
      let sel := (((activeLanes .w32 (c.mreg m)).zip (vecLanes .w32 (c.vreg a))).filter (fun x => x.1)).map Prod.snd
      s.land (.v d (vecOf .w32 (sel ++ List.replicate (64 - sel.length) 0))) 2 }

/-- The lanes of the source spread over the selected lanes, the old value in the others. -/
def expandLanes : List Bool → List Nat → List Nat → List Nat
  | true :: sel, x :: xs, _ :: old => x :: expandLanes sel xs old
  | true :: sel, [], _ :: old => 0 :: expandLanes sel [] old
  | false :: sel, xs, o :: old => o :: expandLanes sel xs old
  | _, _, [] => []
  | [], _, _ => []

def vexpdMeaning (d a : VReg) (m : MReg) : Meaning :=
  { effect := fun st s =>
      let c := st.me
      s.land (.v d (vecOf .w32
        (expandLanes (activeLanes .w32 (c.mreg m)) (vecLanes .w32 (c.vreg a)) (vecLanes .w32 (c.vreg d))))) 2 }

def mlogMeaning (tt : BitVec 4) (d a b : MReg) : Meaning := maskMeaning d 1 (fun c => maskLogic tt (c.mreg a) (c.mreg b))

/-! ### Lane arithmetic -/

def vaddMeaning (f : Fmt) (d a b : VReg) (m : MReg) : Meaning :=
  lanes2 f.width d a b m (fmtLatency f 1 4)
    (fun x y => if f.isInt then wrapLane f ((x : Int) + y) else laneAdd f x y)
def vsubMeaning (f : Fmt) (d a b : VReg) (m : MReg) : Meaning :=
  lanes2 f.width d a b m (fmtLatency f 1 4)
    (fun x y => if f.isInt then wrapLane f ((x : Int) - y) else laneSub f x y)
def vmulMeaning (f : Fmt) (d a b : VReg) (m : MReg) : Meaning :=
  lanes2 f.width d a b m (fmtLatency f 1 4)
    (fun x y => if f.isInt then wrapLane f ((x : Int) * y) else laneMul f x y)

/-- VFMA and VFMS read v_D as the addend (R394). -/
def fusedMeaning (sub : Bool) (f : Fmt) (d a b : VReg) (m : MReg) : Meaning :=
  laneMeaning f.width d m 4 (fun c =>
    List.zipWith (fun (x : Nat × Nat) z => laneFma f sub x.1 x.2 z)
      ((vecLanes f.width (c.vreg a)).zip (vecLanes f.width (c.vreg b))) (vecLanes f.width (c.vreg d)))

def vfmaMeaning (f : Fmt) (d a b : VReg) (m : MReg) : Meaning := fusedMeaning false f d a b m
def vfmsMeaning (f : Fmt) (d a b : VReg) (m : MReg) : Meaning := fusedMeaning true f d a b m

def vmaxMeaning (f : Fmt) (d a b : VReg) (m : MReg) : Meaning :=
  lanes2 f.width d a b m (fmtLatency f 1 2) (fun x y => (laneMaxMin f true x y, 0))
def vminMeaning (f : Fmt) (d a b : VReg) (m : MReg) : Meaning :=
  lanes2 f.width d a b m (fmtLatency f 1 2) (fun x y => (laneMaxMin f false x y, 0))
def vabsMeaning (f : Fmt) (d a : VReg) (m : MReg) : Meaning :=
  lanes1 f.width d a m (fmtLatency f 1 2) (fun x => (laneAbs f x, 0))
def vnegMeaning (f : Fmt) (d a : VReg) (m : MReg) : Meaning :=
  lanes1 f.width d a m (fmtLatency f 1 2) (fun x => (laneNeg f x, 0))

/-- Runs of k conditions folded by AND or OR. -/
def foldRuns (any : Bool) (k : Nat) : Nat → List Bool → List Bool
  | 0, _ => []
  | n + 1, bs =>
    (if any then (bs.take k).any id else (bs.take k).all id) :: foldRuns any k n (bs.drop k)

def vcmpMeaning (any : Bool) (rel : CmpRel) (f : Fmt) (d : MReg) (a b : VReg) : Meaning :=
  maskMeaning d (fmtLatency f 1 2) (fun c =>
    maskOf (foldRuns any (32 / fmtBits f) 64
      (List.zipWith (laneCmp f rel) (vecLanes f.width (c.vreg a)) (vecLanes f.width (c.vreg b)))))

/-! ### Reductions -/

/-- The sum of the active lanes. -/
def activeSum (act : List Bool) (xs : List Nat) : Nat :=
  (act.zip xs).foldl (fun acc x => if x.1 then acc + x.2 else acc) 0

def vrediMeaning (f : Fmt) (d a : VReg) (m : MReg) : Meaning :=
  plainLanes f.width d m 3 (fun c =>
    let act := activeLanes f.width (c.mreg m)
    List.replicate f.width.lanes (activeSum act (vecLanes f.width (c.vreg a)) % 2 ^ fmtBits f))

/-- Inclusive integer prefixes over the active lanes. -/
def intPrefixes (w : Nat) : Nat → List (Bool × Nat) → List Rounded
  | _, [] => []
  | acc, (on, x) :: rest =>
    let acc' := if on then (acc + x) % 2 ^ w else acc
    (acc', 0) :: intPrefixes w acc' rest

/-- Inclusive exact prefixes, each rounded once (R413). -/
def floatPrefixes (f : Fmt) : Prefix → List (Bool × Nat) → List Rounded
  | _, [] => []
  | acc, (on, x) :: rest =>
    let acc' := if on then acc.add (decodeFmt f x) else acc
    acc'.result f :: floatPrefixes f acc' rest

def vscanMeaning (f : Fmt) (d a : VReg) (m : MReg) : Meaning :=
  laneMeaning f.width d m 6 (fun c =>
    let xs := (activeLanes f.width (c.mreg m)).zip (vecLanes f.width (c.vreg a))
    if f.isInt then intPrefixes (fmtBits f) 0 xs else floatPrefixes f Prefix.empty xs)

/-! ### Conversions and functions -/

/-- The destination lanes of a conversion: n lanes converted, and zeros above them (R400). -/
def convLanes (dst : Fmt) (n : Nat) (xs : List Rounded) : List Rounded :=
  xs.take n ++ List.replicate (dst.width.lanes - n) (0, 0)

def vcvtMeaning (sat : Bool) (dst src : Fmt) (d a : VReg) (m : MReg) : Meaning :=
  laneMeaning dst.width d m 3 (fun c =>
    convLanes dst (2048 / Nat.max (fmtBits src) (fmtBits dst))
      ((vecLanes src.width (c.vreg a)).map (fun x => convertLane x src dst sat .nearest)))

def vcvtsMeaning (sat : Bool) (dst : Fmt) (d a b : VReg) (m : MReg) : Meaning :=
  laneMeaning dst.width d m 3 (fun c =>
    convLanes dst 64
      (List.zipWith (fun x r => convert x .f32 dst sat (.stochastic (BitVec.ofNat 32 r)))
        (vecLanes .w32 (c.vreg a)) (vecLanes .w32 (c.vreg b))))

/-- A function of R122 in every active lane, at L = 10 (R402). -/
def fnMeaning (fn : Fn) (f : Fmt) (d a : VReg) (m : MReg) : Meaning := lanes1 f.width d a m 10 (laneFn fn f)

def vrcpMeaning (f : Fmt) (d a : VReg) (m : MReg) : Meaning := fnMeaning .rcp f d a m
def vrsqMeaning (f : Fmt) (d a : VReg) (m : MReg) : Meaning := fnMeaning .rsq f d a m
def vsqrtMeaning (f : Fmt) (d a : VReg) (m : MReg) : Meaning := fnMeaning .sqrt f d a m
def vexp2Meaning (f : Fmt) (d a : VReg) (m : MReg) : Meaning := fnMeaning .exp2 f d a m
def vlog2Meaning (f : Fmt) (d a : VReg) (m : MReg) : Meaning := fnMeaning .log2 f d a m
def vtanhMeaning (f : Fmt) (d a : VReg) (m : MReg) : Meaning := fnMeaning .tanh f d a m
def vsigmMeaning (f : Fmt) (d a : VReg) (m : MReg) : Meaning := fnMeaning .sigm f d a m

/-! ### Quires -/

/-- The latest pending entry of a quire from QADD, QDOT or QACC of a slot (R95). -/
def pendingChain (c : Context) (q : QReg) (p : Pos) : Option Quire :=
  c.landing.reverse.findSome? (fun l =>
    match l.write with
    | .q r x => if r = q ∧ l.chain = true ∧ l.pos = p then some x else none
    | .s _ _ | .p _ _ | .v _ _ | .m _ _ | .k _ _ => none)

/-- Some entry of a quire is pending from the other vector slot. -/
def pendingElsewhere (c : Context) (q : QReg) (p : Pos) : Bool :=
  c.landing.any (fun l =>
    match l.write with
    | .q r _ => r == q && ((p == .va && l.pos == .vb) || (p == .vb && l.pos == .va))
    | .s _ _ | .p _ _ | .v _ _ | .m _ _ | .k _ _ => false)

/-- OCCUPANCY of a vector operation whose destination quire has an entry pending from the other slot (R95). -/
def quireTaken (d : QReg) (s : State) : Option Trap :=
  if pendingElsewhere s.me d s.cur.pos then some { name := .occupancy, tval := d.setWidth 64 } else none

/-- One QuireAdd onto the chained or the committed value, landing at L = 6 (R369). -/
def accumulateMeaning (d : QReg) (f : Context → Quire → Quire × Bool) : Meaning :=
  { quire := some d
    check := quireTaken d
    effect := fun st s =>
      let c := st.me
      let base := (pendingChain c d s.cur.pos).getD (c.qreg d)
      let r := f c base
      s.modMe (fun c' => c'.addLanding
        { Landing.ready (.q d r.1) (c'.bcnt + 6) s.gtc.toNat s.cur.pos with chain := true, overflow := r.2 }) }

/-- The terms of the active lanes. -/
def activeTerms (act : List Bool) (ts : List (Option Int)) : List (Option Int) :=
  ((act.zip ts).filter (fun x => x.1)).map Prod.snd

def qaddMeaning (f : Fmt) (d : QReg) (a : VReg) (m : MReg) : Meaning :=
  accumulateMeaning d (fun c base =>
    base.addTerms (activeTerms (activeLanes f.width (c.mreg m))
      ((vecLanes f.width (c.vreg a)).map (addendUnits f))))

def qdotMeaning (f : Fmt) (d : QReg) (a b : VReg) (m : MReg) : Meaning :=
  accumulateMeaning d (fun c base =>
    base.addTerms (activeTerms (activeLanes f.width (c.mreg m))
      (List.zipWith (productUnits f) (vecLanes f.width (c.vreg a)) (vecLanes f.width (c.vreg b)))))

def qaccMeaning (d a : QReg) : Meaning :=
  accumulateMeaning d (fun c base =>
    if (c.qreg a).valid then base.addInt (c.qreg a).toInt else (base.addNar, false))

def qclrMeaning (d : QReg) : Meaning :=
  { quire := some d, check := quireTaken d, effect := fun _ s => s.land (.q d Quire.zero) 1 }

/-- QNEG: −2^639 wraps and counts as an overflowing landing (R371). -/
def qnegMeaning (d a : QReg) : Meaning :=
  { quire := some d
    check := quireTaken d
    effect := fun st s =>
      let q := st.me.qreg a
      let wraps := q.bits == invalidPattern
      s.modMe (fun c => c.addLanding
        { Landing.ready (.q d { bits := -q.bits, nar := q.nar, ovf := q.ovf || wraps }) (c.bcnt + 1) s.gtc.toNat
            s.cur.pos with overflow := wraps }) }

/-- The word of QTEST (Table 19-7). -/
def qtestWord (q : Quire) : Word :=
  let x := q.toInt
  let top : Nat := if q.valid && x != 0 then x.natAbs.log2 else 0
  BitVec.ofNat 64 (top <<< 16) ||| (if q.ovf then 8 else 0) ||| (if q.nar then 4 else 0)
    ||| (if q.valid && decide (x < 0) then 2 else 0) ||| (if q.valid && x == 0 then 1 else 0)

def qtestMeaning (d : SReg5) (a : QReg) : Meaning :=
  { effect := fun st s => s.land (.s (d.setWidth 6) (qtestWord (st.me.qreg a))) 1 }

/-- QRND: one rounding into every active lane (R374). -/
def qrndMeaning (sat : Bool) (f : Fmt) (d : VReg) (a : QReg) (b : VReg) (m : MReg) : Meaning :=
  laneMeaning f.width d m 5 (fun c =>
    let mode := if b = 0 then RMode.nearest else RMode.stochastic ((c.vreg b).setWidth 32)
    List.replicate f.width.lanes ((c.qreg a).round f sat mode))

/-! ### Instructions -/

def execVand (d a b : VReg) (m : MReg) (s : State) : Host.Outcome State Fault Refusal :=
  runSyllable (.vand d a b m) (vandMeaning d a b m) s
def execVor (d a b : VReg) (m : MReg) (s : State) : Host.Outcome State Fault Refusal :=
  runSyllable (.vor d a b m) (vorMeaning d a b m) s
def execVxor (d a b : VReg) (m : MReg) (s : State) : Host.Outcome State Fault Refusal :=
  runSyllable (.vxor d a b m) (vxorMeaning d a b m) s
def execVsel (d a b : VReg) (m : MReg) (s : State) : Host.Outcome State Fault Refusal :=
  runSyllable (.vsel d a b m) (vselMeaning d a b m) s
def execVcnt (w : LaneW) (d a : VReg) (m : MReg) (s : State) : Host.Outcome State Fault Refusal :=
  runSyllable (.vcnt w d a m) (vcntMeaning w d a m) s
def execVmovs (w : LaneW) (d : VReg) (a : SReg5) (m : MReg) (s : State) : Host.Outcome State Fault Refusal :=
  runSyllable (.vmovs w d a m) (vmovsMeaning w d a m) s
def execVrand (d a : VReg) (m : MReg) (s : State) : Host.Outcome State Fault Refusal :=
  runSyllable (.vrand d a m) (vrandMeaning d a m) s
def execVshl (w : LaneW) (d a b : VReg) (m : MReg) (s : State) : Host.Outcome State Fault Refusal :=
  runSyllable (.vshl w d a b m) (vshlMeaning w d a b m) s
def execVshr (w : LaneW) (d a b : VReg) (m : MReg) (s : State) : Host.Outcome State Fault Refusal :=
  runSyllable (.vshr w d a b m) (vshrMeaning w d a b m) s
def execVsra (w : LaneW) (d a b : VReg) (m : MReg) (s : State) : Host.Outcome State Fault Refusal :=
  runSyllable (.vsra w d a b m) (vsraMeaning w d a b m) s
def execVshlImm (w : LaneW) (d a : VReg) (c : BitVec 5) (m : MReg) (s : State) : Host.Outcome State Fault Refusal :=
  runSyllable (.vshlImm w d a c m) (vshlImmMeaning w d a c m) s
def execVshrImm (w : LaneW) (d a : VReg) (c : BitVec 5) (m : MReg) (s : State) : Host.Outcome State Fault Refusal :=
  runSyllable (.vshrImm w d a c m) (vshrImmMeaning w d a c m) s
def execVsraImm (w : LaneW) (d a : VReg) (c : BitVec 5) (m : MReg) (s : State) : Host.Outcome State Fault Refusal :=
  runSyllable (.vsraImm w d a c m) (vsraImmMeaning w d a c m) s
def execVperm (w : LaneW) (d a b : VReg) (m : MReg) (s : State) : Host.Outcome State Fault Refusal :=
  runSyllable (.vperm w d a b m) (vpermMeaning w d a b m) s
def execVpermPattern (w : LaneW) (d a b : VReg) (m : MReg) (kind : PermKind) (param : BitVec 8) (s : State) : Host.Outcome State Fault Refusal :=
  runSyllable (.vpermPattern w d a b m kind param) (vpermPatternMeaning w d a b m kind param) s
def execVext (w : LaneW) (d a : VReg) (b : SReg5) (m : MReg) (s : State) : Host.Outcome State Fault Refusal :=
  runSyllable (.vext w d a b m) (vextMeaning w d a b m) s
def execVcompr (d a : VReg) (m : MReg) (s : State) : Host.Outcome State Fault Refusal :=
  runSyllable (.vcompr d a m) (vcomprMeaning d a m) s
def execVexpd (d a : VReg) (m : MReg) (s : State) : Host.Outcome State Fault Refusal :=
  runSyllable (.vexpd d a m) (vexpdMeaning d a m) s
def execMlog (tt : BitVec 4) (d a b : MReg) (s : State) : Host.Outcome State Fault Refusal :=
  runSyllable (.mlog tt d a b) (mlogMeaning tt d a b) s
def execQclr (d : QReg) (s : State) : Host.Outcome State Fault Refusal :=
  runSyllable (.qclr d) (qclrMeaning d) s
def execQneg (d a : QReg) (s : State) : Host.Outcome State Fault Refusal :=
  runSyllable (.qneg d a) (qnegMeaning d a) s
def execQtest (d : SReg5) (a : QReg) (s : State) : Host.Outcome State Fault Refusal :=
  runSyllable (.qtest d a) (qtestMeaning d a) s
def execQacc (d a : QReg) (s : State) : Host.Outcome State Fault Refusal :=
  runSyllable (.qacc d a) (qaccMeaning d a) s
def execVadd (f : Fmt) (d a b : VReg) (m : MReg) (s : State) : Host.Outcome State Fault Refusal :=
  runSyllable (.vadd f d a b m) (vaddMeaning f d a b m) s
def execVsub (f : Fmt) (d a b : VReg) (m : MReg) (s : State) : Host.Outcome State Fault Refusal :=
  runSyllable (.vsub f d a b m) (vsubMeaning f d a b m) s
def execVmul (f : Fmt) (d a b : VReg) (m : MReg) (s : State) : Host.Outcome State Fault Refusal :=
  runSyllable (.vmul f d a b m) (vmulMeaning f d a b m) s
def execVfma (f : Fmt) (d a b : VReg) (m : MReg) (s : State) : Host.Outcome State Fault Refusal :=
  runSyllable (.vfma f d a b m) (vfmaMeaning f d a b m) s
def execVfms (f : Fmt) (d a b : VReg) (m : MReg) (s : State) : Host.Outcome State Fault Refusal :=
  runSyllable (.vfms f d a b m) (vfmsMeaning f d a b m) s
def execVmax (f : Fmt) (d a b : VReg) (m : MReg) (s : State) : Host.Outcome State Fault Refusal :=
  runSyllable (.vmax f d a b m) (vmaxMeaning f d a b m) s
def execVmin (f : Fmt) (d a b : VReg) (m : MReg) (s : State) : Host.Outcome State Fault Refusal :=
  runSyllable (.vmin f d a b m) (vminMeaning f d a b m) s
def execVabs (f : Fmt) (d a : VReg) (m : MReg) (s : State) : Host.Outcome State Fault Refusal :=
  runSyllable (.vabs f d a m) (vabsMeaning f d a m) s
def execVneg (f : Fmt) (d a : VReg) (m : MReg) (s : State) : Host.Outcome State Fault Refusal :=
  runSyllable (.vneg f d a m) (vnegMeaning f d a m) s
def execVcmp (any : Bool) (rel : CmpRel) (f : Fmt) (d : MReg) (a b : VReg) (s : State) : Host.Outcome State Fault Refusal :=
  runSyllable (.vcmp any rel f d a b) (vcmpMeaning any rel f d a b) s
def execVscan (f : Fmt) (d a : VReg) (m : MReg) (s : State) : Host.Outcome State Fault Refusal :=
  runSyllable (.vscan f d a m) (vscanMeaning f d a m) s
def execVredi (f : Fmt) (d a : VReg) (m : MReg) (s : State) : Host.Outcome State Fault Refusal :=
  runSyllable (.vredi f d a m) (vrediMeaning f d a m) s
def execVcvt (sat : Bool) (dst src : Fmt) (d a : VReg) (m : MReg) (s : State) : Host.Outcome State Fault Refusal :=
  runSyllable (.vcvt sat dst src d a m) (vcvtMeaning sat dst src d a m) s
def execVcvts (sat : Bool) (dst : Fmt) (d a b : VReg) (m : MReg) (s : State) : Host.Outcome State Fault Refusal :=
  runSyllable (.vcvts sat dst d a b m) (vcvtsMeaning sat dst d a b m) s
def execQadd (f : Fmt) (d : QReg) (a : VReg) (m : MReg) (s : State) : Host.Outcome State Fault Refusal :=
  runSyllable (.qadd f d a m) (qaddMeaning f d a m) s
def execQdot (f : Fmt) (d : QReg) (a b : VReg) (m : MReg) (s : State) : Host.Outcome State Fault Refusal :=
  runSyllable (.qdot f d a b m) (qdotMeaning f d a b m) s
def execQrnd (sat : Bool) (f : Fmt) (d : VReg) (a : QReg) (b : VReg) (m : MReg) (s : State) : Host.Outcome State Fault Refusal :=
  runSyllable (.qrnd sat f d a b m) (qrndMeaning sat f d a b m) s
def execVrcp (f : Fmt) (d a : VReg) (m : MReg) (s : State) : Host.Outcome State Fault Refusal :=
  runSyllable (.vrcp f d a m) (vrcpMeaning f d a m) s
def execVrsq (f : Fmt) (d a : VReg) (m : MReg) (s : State) : Host.Outcome State Fault Refusal :=
  runSyllable (.vrsq f d a m) (vrsqMeaning f d a m) s
def execVsqrt (f : Fmt) (d a : VReg) (m : MReg) (s : State) : Host.Outcome State Fault Refusal :=
  runSyllable (.vsqrt f d a m) (vsqrtMeaning f d a m) s
def execVexp2 (f : Fmt) (d a : VReg) (m : MReg) (s : State) : Host.Outcome State Fault Refusal :=
  runSyllable (.vexp2 f d a m) (vexp2Meaning f d a m) s
def execVlog2 (f : Fmt) (d a : VReg) (m : MReg) (s : State) : Host.Outcome State Fault Refusal :=
  runSyllable (.vlog2 f d a m) (vlog2Meaning f d a m) s
def execVtanh (f : Fmt) (d a : VReg) (m : MReg) (s : State) : Host.Outcome State Fault Refusal :=
  runSyllable (.vtanh f d a m) (vtanhMeaning f d a m) s
def execVsigm (f : Fmt) (d a : VReg) (m : MReg) (s : State) : Host.Outcome State Fault Refusal :=
  runSyllable (.vsigm f d a m) (vsigmMeaning f d a m) s

end Sys2Proof.Machine
end

