-- ==== Sys2Proof/Machine/Present.lean ====
section
/-! DEFINITION. The presentation of a bundle (R62): landings, checks, the delivery of an event, the block check, the wait
for a stamp, parking, the effects of the active syllables, and the end of the bundle. -/

namespace Sys2Proof.Machine

/-- What an instruction of the instruction set does; none for an event of the machine. -/
def meaningOf (i : Instr) : Option Meaning :=
  match i with
  | .nop => some (nopMeaning)
  | .add x d a b => some (addMeaning x d a b)
  | .sub x d a b => some (subMeaning x d a b)
  | .and x d a b => some (andMeaning x d a b)
  | .andn x d a b => some (andnMeaning x d a b)
  | .or x d a b => some (orMeaning x d a b)
  | .xor x d a b => some (xorMeaning x d a b)
  | .shl x d a b => some (shlMeaning x d a b)
  | .shr x d a b => some (shrMeaning x d a b)
  | .sra x d a b => some (sraMeaning x d a b)
  | .rol x d a b => some (rolMeaning x d a b)
  | .mul x d a b => some (mulMeaning x d a b)
  | .mulh x d a b => some (mulhMeaning x d a b)
  | .mulhn x d a b => some (mulhnMeaning x d a b)
  | .div x d a b => some (divMeaning x d a b)
  | .divn x d a b => some (divnMeaning x d a b)
  | .rem x d a b => some (remMeaning x d a b)
  | .remn x d a b => some (remnMeaning x d a b)
  | .max x d a b => some (maxMeaning x d a b)
  | .maxn x d a b => some (maxnMeaning x d a b)
  | .min x d a b => some (minMeaning x d a b)
  | .minn x d a b => some (minnMeaning x d a b)
  | .clz x d a => some (clzMeaning x d a)
  | .ctz x d a => some (ctzMeaning x d a)
  | .popc x d a => some (popcMeaning x d a)
  | .mov x d a => some (movMeaning x d a)
  | .sel c d a b => some (selMeaning c d a b)
  | .cmp c d a b => some (cmpMeaning c d a b)
  | .plog op d a b => some (plogMeaning op d a b)
  | .addi d a imm => some (addiMeaning d a imm)
  | .andi d a imm => some (andiMeaning d a imm)
  | .ori d a imm => some (oriMeaning d a imm)
  | .xori d a imm => some (xoriMeaning d a imm)
  | .cmpi c d a imm => some (cmpiMeaning c d a imm)
  | .movi d imm => some (moviMeaning d imm)
  | .movhi d a imm => some (movhiMeaning d a imm)
  | .br disp => some (brMeaning disp)
  | .brl d disp => some (brlMeaning d disp)
  | .bri d a => some (briMeaning d a)
  | .loop d off => some (loopMeaning d off)
  | .loopmStart d b a => some (loopmStartMeaning d b a)
  | .loopmEnd d b => some (loopmEndMeaning d b)
  | .mfsr d r => some (mfsrMeaning d r)
  | .mtsr r a => some (mtsrMeaning r a)
  | .trap imm => some (trapMeaning imm)
  | .eret => some (eretMeaning)
  | .exit => some (exitMeaning)
  | .vand d a b m => some (vandMeaning d a b m)
  | .vor d a b m => some (vorMeaning d a b m)
  | .vxor d a b m => some (vxorMeaning d a b m)
  | .vsel d a b m => some (vselMeaning d a b m)
  | .vcnt w d a m => some (vcntMeaning w d a m)
  | .vmovs w d a m => some (vmovsMeaning w d a m)
  | .vrand d a m => some (vrandMeaning d a m)
  | .vrandEnt d m => some (vrandEntMeaning d m)
  | .vshl w d a b m => some (vshlMeaning w d a b m)
  | .vshr w d a b m => some (vshrMeaning w d a b m)
  | .vsra w d a b m => some (vsraMeaning w d a b m)
  | .vshlImm w d a c m => some (vshlImmMeaning w d a c m)
  | .vshrImm w d a c m => some (vshrImmMeaning w d a c m)
  | .vsraImm w d a c m => some (vsraImmMeaning w d a c m)
  | .vperm w d a b m => some (vpermMeaning w d a b m)
  | .vpermPattern w d a b m kind param => some (vpermPatternMeaning w d a b m kind param)
  | .vext w d a b m => some (vextMeaning w d a b m)
  | .vcompr d a m => some (vcomprMeaning d a m)
  | .vexpd d a m => some (vexpdMeaning d a m)
  | .mlog tt d a b => some (mlogMeaning tt d a b)
  | .qclr d => some (qclrMeaning d)
  | .qneg d a => some (qnegMeaning d a)
  | .qtest d a => some (qtestMeaning d a)
  | .qacc d a => some (qaccMeaning d a)
  | .vadd f d a b m => some (vaddMeaning f d a b m)
  | .vsub f d a b m => some (vsubMeaning f d a b m)
  | .vmul f d a b m => some (vmulMeaning f d a b m)
  | .vfma f d a b m => some (vfmaMeaning f d a b m)
  | .vfms f d a b m => some (vfmsMeaning f d a b m)
  | .vmax f d a b m => some (vmaxMeaning f d a b m)
  | .vmin f d a b m => some (vminMeaning f d a b m)
  | .vabs f d a m => some (vabsMeaning f d a m)
  | .vneg f d a m => some (vnegMeaning f d a m)
  | .vcmp any rel f d a b => some (vcmpMeaning any rel f d a b)
  | .vscan f d a m => some (vscanMeaning f d a m)
  | .vredi f d a m => some (vrediMeaning f d a m)
  | .vcvt sat dst src d a m => some (vcvtMeaning sat dst src d a m)
  | .vcvts sat dst d a b m => some (vcvtsMeaning sat dst d a b m)
  | .qadd f d a m => some (qaddMeaning f d a m)
  | .qdot f d a b m => some (qdotMeaning f d a b m)
  | .qrnd sat f d a b m => some (qrndMeaning sat f d a b m)
  | .vrcp f d a m => some (vrcpMeaning f d a m)
  | .vrsq f d a m => some (vrsqMeaning f d a m)
  | .vsqrt f d a m => some (vsqrtMeaning f d a m)
  | .vexp2 f d a m => some (vexp2Meaning f d a m)
  | .vlog2 f d a m => some (vlog2Meaning f d a m)
  | .vtanh f d a m => some (vtanhMeaning f d a m)
  | .vsigm f d a m => some (vsigmMeaning f d a m)
  | .lds x d a off => some (ldsMeaning x d a off)
  | .sts x d a off => some (stsMeaning x d a off)
  | .vlds d a off => some (vldsMeaning d a off)
  | .vldsm d a m off => some (vldsmMeaning d a m off)
  | .vldsx x to16 d a off => some (vldsxMeaning x to16 d a off)
  | .vgts w d a i m => some (vgtsMeaning w d a i m)
  | .vscs w src a i m => some (vscsMeaning w src a i m)
  | .vsts src a off => some (vstsMeaning src a off)
  | .qsave d a off => some (qsaveMeaning d a off)
  | .qrest d a off => some (qrestMeaning d a off)
  | .stmc x w d a off => some (stmcMeaning x w d a off)
  | .vstmc w src a off => some (vstmcMeaning w src a off)
  | .putn x post d a off => some (putnMeaning x post d a off)
  | .vputn post src a off => some (vputnMeaning post src a off)
  | .getn x q a off => some (getnMeaning x q a off)
  | .warm n lo hi filter => some (warmMeaning n lo hi filter)
  | .warmOff n => some (warmOffMeaning n)
  | .wtok d => some (wtokMeaning d)
  | .ldd q a c => some (lddMeaning q a c)
  | .std d a c => some (stdMeaning d a c)
  | .vldd q a c => some (vlddMeaning q a c)
  | .vstd src a c => some (vstdMeaning src a c)
  | .aadd d a c o => some (aaddMeaning d a c o)
  | .acas d a c o => some (acasMeaning d a c o)
  | .amaxi d a c o => some (amaxiMeaning d a c o)
  | .amini d a c o => some (aminiMeaning d a c o)
  | .axch d a c o => some (axchMeaning d a c o)
  | .axor d a c o => some (axorMeaning d a c o)
  | .qred d a c o => some (qredMeaning d a c o)
  | .cadd d a c o => some (caddMeaning d a c o)
  | .cwait thr a c sc => some (cwaitMeaning thr a c sc)
  | .cread d a c o => some (creadMeaning d a c o)
  | .fence k sc => some (fenceMeaning k sc)
  | .ldc x q a off => some (ldcMeaning x q a off)
  | .stc x d a off => some (stcMeaning x d a off)
  | .vldc q a off => some (vldcMeaning q a off)
  | .vstc src a off => some (vstcMeaning src a off)
  | .ldh x q a off => some (ldhMeaning x q a off)
  | .sth x d a off => some (sthMeaning x d a off)
  | .vldh q a off => some (vldhMeaning q a off)
  | .vsth src a off => some (vsthMeaning src a off)
  | .mcall routine o => some (mcallMeaning routine o)
  | .mclaim => some (mclaimMeaning)
  | .mfree => some (mfreeMeaning)
  | .mpar k src => some (mparMeaning k src)
  | .mpld routine a => some (mpldMeaning routine a)
  | .gload a => some (gloadMeaning a)
  | .grun sat f a c o => some (grunMeaning sat f a c o)
  | .xcpy ch a => some (xcpyMeaning ch a)
  | .xcpyt ch a => some (xcpytMeaning ch a)
  | .xprom d ch => some (xpromMeaning d ch)
  | .xwmk d ch => some (xwmkMeaning d ch)
  | .sleept a => some (sleeptMeaning a)
  | .hcfg tgt src => some (hcfgMeaning tgt src)
  | .hpush q src => some (hpushMeaning q src)
  | .hpop q dst => some (hpopMeaning q dst)
  | .scan f a q ch carry m acq rel => some (scanMeaning f a q ch carry m acq rel)
  | .scana f a b q ch carry m => some (scanaMeaning f a b q ch carry m)
  | .sbar level => some (sbarMeaning level)
  | .rsig sel d => some (rsigMeaning sel d)
  | .rvote d => some (rvoteMeaning d)
  | .rinj a b => some (rinjMeaning a b)
  | .launch d a q => some (launchMeaning d a q)
  | .cancel d a => some (cancelMeaning d a)
  | .yield => some (yieldMeaning)
  | .sys imm => some (sysMeaning imm)
  | .bundlePresentation _ | .issueSelect _ | .lateValueArrival _ | .blockConditionClears _ _ _
  | .stampReached _ | .sleepExpiry _ _ _ | .startPulse _ _ | .barrierRelease _ | .walkerAnswer _
  | .faultService _ _ | .faultAnswer _ | .bankReturn _ _ | .remoteRefusal _ | .shootdownAck _ _
  | .shootdownComplete _ | .migrationScan | .homePortAccess _ _ _ | .counterWatchAnswer _ _
  | .incomingNWrite _ _ | .queueElementDelivery _ | .multicastLanding _ | .transferStart _ _
  | .transferChunk _ _ _ _ | .channelFaultAnswer _ _ | .promiseExpiry _ | .transferComplete _ | .mxuDenseStep _
  | .mxuSparseStep _ | .mxuWriteOut _ | .mxuClear _ | .mxuOperationComplete _ | .mxuRoutineRunaway _
  | .mxuAsidClear _ | .geuLoad _ | .geuRun _ | .geuRowDeliver _ | .geuComplete _ | .scanOperationStart _
  | .scanDelivery _ _ | .carryArrival _ _ | .tongsDelivery _ | .voteStart _ | .voteResult _ | .dieLoss _
  | .drainComplete _ _ | .completionAdd _ | .preemption _ _ | .restore _ _ | .launchQueueProdWrite _ _ _
  | .launchQueueErrClear _ _ | .recordAcceptance _ | .forwardedRecord _ _ | .recordAdmission _ _ _
  | .reserveRequest _ _ _ | .dispatch _ | .asidCreate _ _ _ | .asidRetire _ _ | .asidRetireComplete _
  | .tensorDefine _ _ _ _ _ _ _ _ | .tensorFree _ _ _ | .cmap _ _ _ _ | .hwinAdd _ _ _ _ _ | .hwinRemove _ _ _
  | .pinAnswer _ _ _ | .recordAbort _ _ _ | .status _ | .logRead _ _ | .warmReset | .warmResetComplete
  | .coldReset _ _ _ | .evqConsWrite _ | .evqSizeWrite _ | .evqStatWrite _ | .ebudSetWrite _
  | .registerWrite _ _ | .correctedErrorReport _ | .meterAdvance _ | .powerWindowEnd | .thermalEmergency _ _
  | .thermalEmergencyEnd _ _ | .thermalShutdown _ _ | .linkLoss _ | .stopGo _ _ _ | .mmpCoreReset _ => none

/-! ### Landings (R59, R96, R97, R118, R125, R126, R307) -/

/-- The entries that land at the bundle. -/
def Context.dueNow (c : Context) : List Landing := c.landing.filter (fun l => l.due == c.bcnt)

/-- A value that has not arrived, or that arrived in this cycle, stalls the bundle. -/
def Context.late (c : Context) (gtc : Nat) : Bool := c.dueNow.any (fun l => !l.arrived || decide (gtc ≤ l.arrivedAt))

/-- A cycle of a late-landing stall. -/
def Context.stallTick (c : Context) (gtc : Nat) : Context :=
  { c with
    stalled := some (c.stalled.getD gtc)
    special := { c.special with lstall := lstallTick c.special.lstall c.stalled.isNone } }

/-- A quire lands: `keep` adds its flags to those that stand. (DEDUCED, safe; log entry 20.) -/
def Regs.landQuire (g : Regs) (r : QReg) (x : Quire) (keep : Bool) : Regs :=
  let old := g.q[r.toNat]'r.isLt
  g.setQ r (if keep then { x with nar := x.nar || old.nar, ovf := x.ovf || old.ovf } else x)

/-- The lowest quire that overflows. -/
def lowerQuire (old : Option QReg) (r : QReg) : QReg :=
  match old with
  | some q => if q < r then q else r
  | none => r

/-- One entry commits. A poisoned one leaves its register as it is. -/
def Context.commitEntry (c : Context) (l : Landing) : Context :=
  match l.poison with
  | some v => { c with poisoned := some (c.poisoned.getD v) }
  | none =>
    let c1 := { c with known := if l.hist.isEmpty then c.known else c.known ++ l.hist, special := { c.special with fstat := c.special.fstat ||| l.flags.setWidth 64 } }
    match l.write with
    | .q r x =>
      { c1 with
        regs := c1.regs.landQuire r x (l.chain || c1.special.qstatWritten)
        overflow := if l.overflow && c1.special.qcfg.getLsbD 0 then some (lowerQuire c1.overflow r) else c1.overflow }
    | .s _ _ | .p _ _ | .v _ _ | .m _ _ | .k _ _ => { c1 with regs := c1.regs.write l.write }

/-- The entries of the bundle commit in the order of their issue, and in slot order. -/
def Context.commitDue (c : Context) : Context :=
  let c1 := c.dueNow.foldl Context.commitEntry c
  { c1 with
    landing := c.landing.filter (fun l => l.due != c.bcnt), committed := true, stalled := none
    special := { c1.special with qstatWritten := false } }

/-- An event of the context of the cursor becomes pending. -/
def State.pend (s : State) (tr : Trap) : State :=
  s.postEvent s.cur.tile.toNat s.cur.slot s.me.uid s.me.asid tr

def quireTrap (q : QReg) : Trap := { name := .quireOverflow, tval := q.setWidth 64 }

/-- A QUIRE_OVERFLOW that a synchronous trap has kept from delivery stays pending. -/
def State.keepOverflow (s : State) : State :=
  match s.me.overflow with
  | some q => (s.modMe (fun c => { c with overflow := none })).pend (quireTrap q)
  | none => s

/-- The landings of the bundle commit; what a landing raises becomes pending. -/
def State.commitLandings (s : State) : State :=
  let s0 := if s.me.committed then s else s.keepOverflow
  let evs := s0.me.dueNow.filterMap (fun l => l.event)
  let c := s0.me
  evs.foldl (fun (st : State) e =>
    (st.pend e).logEntry st.cur.tile.toNat st.cur.slot c.uid 9 c.bcnt [e.name.code.setWidth 64, e.tval]) (s0.modMe Context.commitDue)

/-! ### The checks of the header and of the syllables -/

/-- The bundle at the PC (R42). (DESIGN CHOICE, safe; log entry 15.) -/
def State.fetch (s : State) : Bundle :=
  let c := s.me
  Bundle.ofBytes (Memory.readN ((assocGet c.asid.toNat s.code).getD []) c.pc.toNat 32)

/-- An uncorrectable fetch (R307, R308). -/
def fetchTrap (s : State) : Option Trap :=
  let c := s.me
  if s.bad.contains (.code c.asid.toNat (c.pc.toNat / 32)) then
    some { name := .memData, tval := (6 : Word) <<< 61 ||| (c.pc &&& 0xFFFFFFFFFFFFF) }
  else none

/-- QUEUE_CONFIG of the lowest POP bit that names an unconfigured queue (R44). -/
def popTrap (c : Context) (pops : BitVec 16) : Option Trap :=
  ((popList pops).find? (fun q => !(c.queue q).configured)).map (fun q =>
    { name := .queueConfig, tval := q.setWidth 64 })

/-- The check of one slot (R52, R53, R452): ILLEGAL_OP, then SLOT_MISMATCH, whatever the guard. -/
def slotTrap (s : State) (b : Bundle) (p : Pos) : Option Trap :=
  let illegal : Trap := { name := .illegalOp, tval := sylTval (b.syl p) p }
  let decided (i : Instr) (ok : Option Trap) : Option Trap :=
    match meaningOf i with
    | some m => if m.illegal (s.atPos p) then some illegal else ok
    | none => some illegal
  match b.decodeAt p with
  | .empty => none
  | .illegalOp => some illegal
  | .slotMismatch i => decided i (some { name := .slotMismatch, tval := sylTval (b.syl p) p })
  | .ok i => decided i none

/-- The first check that fails, in the order of R62. (DEDUCED, safe; log entry 39.) -/
def bundleTrap (s : State) (b : Bundle) : Option Trap :=
  if !b.headerOk s.me.det then some { name := .illegalBundle, tval := b.w0 }
  else match popTrap s.me b.pop with
    | some t => some t
    | none => slotOrder.findSome? (slotTrap s b)

/-- A pair's guard (R51). -/
def guardOn (c : Context) (g : BitVec 7) : Bool := c.preg (fld g 0 6) != g.getLsbD 6

/-- The active syllables of a bundle, in slot order. -/
def activeOf (c : Context) (b : Bundle) : List Active :=
  slotOrder.filterMap (fun p =>
    match b.decodeAt p with
    | .ok i => if guardOn c (b.guard p) then (meaningOf i).map (fun m => (p, m)) else none
    | .empty | .illegalOp | .slotMismatch _ => none)

/-! ### The delivery of events (R304, R281) -/

/-- Engine traps of the lead that Tongs has brought for the bundles up to this one. -/
def State.pullTraps (s : State) : State :=
  let c := s.me
  (s.tongs.filter (fun i => i.uid == c.uid && decide (i.at_.toNat ≤ c.bcnt.toNat))).foldl (fun (st : State) i =>
    match i.val with
    | .trap tr => (st.dropTongs i.id).pend tr
    | .word _ _ _ _ | .vec _ | .elem _ _ _ _ | .report _ | .bytes _ _ | .chunk _ _ _ _ => st) s

/-- The event that the presentation delivers: QUIRE_OVERFLOW of its own landings, then DIE_LOST, then the oldest. -/
def Context.delivery (c : Context) : Option Trap :=
  match c.overflow, c.sup with
  | some q, false => some (quireTrap q)
  | _, _ => c.nextEvent

/-- The lead takes VOTE_MINORITY: its handler writes directly, and the other live replica waits for it. -/
def State.takeMinority (s : State) : State :=
  let c := s.me
  match s.groupOf c with
  | some g =>
    (s.modGroup g.id (fun g => { g with holdAt := some c.bcnt })).modMe (fun c =>
      { c with replica := { c.replica with direct := true, since := s.nextId } })
  | none => s

/-- One event is delivered as a trap. -/
def State.deliver (s : State) (tr : Trap) : State :=
  let own := s.me.overflow.isSome && !s.me.sup
  let s1 := s.modMe (fun c => if own then { c with overflow := none } else c.takeEvent tr)
  (if tr.name = .voteMinority then s1.takeMinority else s1).takeTrap tr true

/-! ### The end of a bundle (R44, R46, R62) -/

/-- The address of the next bundle: a redirect that takes effect, the top of a loop, or the next in sequence. -/
def nextPc (c : Context) : Word :=
  match c.redirects.find? (fun r => r.due == c.bcnt + 1) with
  | some r => r.target
  | none =>
    match c.deferred.findSome? (fun d => match d with
      | .loopTo t => some t
      | _ => none) with
    | some t => t
    | none => c.pc + 32

/-- EXIT: a replicated context makes its cut, and the context counts as arrived at every later barrier. -/
def State.exitContext (s : State) : State :=
  let c := s.me
  let s1 := s.cut .exit 0
  let s2 := if s1.nonLead c then s1 else s1.modRecord c.rid (fun (r : Record) => { r with exited := c.flat :: r.exited })
  s2.settleBarriers c.rid

/-- An effect that was put off to the end of the bundle. (DEDUCED, safe; log entry 50.) -/
def State.applyDeferred (s : State) (d : Deferred) : State :=
  match d with
  | .mtsr r x => s.modMe (fun c => c.writeSpec r x)
  | .hcfgQueue q x => s.modMe (fun c => (c.setQueue q { queueOfWord x s.gtc.toNat with latch := (c.queue q).latch }).latchHead s.here q)
  | .hcfgWindow w x => s.modMe (fun c => { c with windows := c.windows.set w.toNat x w.isLt })
  | .mfree => s.modHere (fun x => x.dropClaim s.me.uid false)
  | .branch t => s.modMe (fun c => { c with redirects := c.redirects ++ [{ due := c.bcnt + 3, target := t }] })
  | .loopPush l => s.modMe (fun c => { c with loops := { l with top := nextPc c } :: c.loops })
  | .loopSet l => s.modMe (fun c => { c with loops := l :: c.loops.tail })
  | .loopDrop => s.modMe (fun c => { c with loops := c.loops.tail })
  | .exit => s.exitContext
  | .pop _ | .loopTo _ | .eret | .yield => s

/-- The queues that POP bits and HPOP name advance once each, and their latches take the next elements. -/
def Context.popQueues (c : Context) (x : Tile) (pops : BitVec 16) : Context :=
  (List.range 16).foldl (fun (c : Context) i =>
    let q : HReg := BitVec.ofNat 4 i
    if pops.getLsbD i || c.deferred.contains (.pop q) then (c.setQueue q (c.queue q).pop).latchHead x q else c) c

/-- The stage value of the innermost loop. -/
def Context.stage (c : Context) : Bool :=
  match c.loops with
  | l :: _ => l.stage
  | [] => false

/-- p57 to p63 take p56 to p62, and p56 the stage value (R46). -/
def Context.rotate (c : Context) : Context :=
  let p := c.regs.p
  let q := (p &&& 0xFFFFFFFFFFFFFF) ||| (p >>> 56 <<< 57)
  { c with regs := { c.regs with p := setBit q 56 c.stage } }

/-- The status after a bundle (R31, R35). -/
def Context.statusAfter (c : Context) : CtxStatus :=
  if c.deferred.contains .exit then .draining else if c.deferred.contains .yield then .ready else c.status

/-- BCNT and PC advance. -/
def Context.advance (c : Context) (gtc : Nat) : Context :=
  let c1 :=
    if c.deferred.contains .eret then c.leaveTrap
    else { c with pc := nextPc c, redirects := c.redirects.filter (fun r => r.due != c.bcnt + 1) }
  { c1 with
    bcnt := c.bcnt + 1
    status := c.statusAfter
    redirects := if c.deferred.contains .exit then [] else c1.redirects
    age := if c.deferred.contains .yield then gtc else c.age
    deferred := [], committed := false, observed := none, cleared := none, answer := none, poisoned := none }

/-- The key of an input that a bundle at or behind h has issued, n bundles later. -/
def shiftKey (h n : Word) (key : Nat) : Nat := if tongsKey h .sa ≤ key then key + n.toNat * 8 * 2 ^ 64 else key

/-- A bundle at or behind h, n bundles later. -/
def shiftAt (h n b : Word) : Word := if h.toNat ≤ b.toNat then b + n else b

/-- A replica that waited at bundle h, or behind it, while the lead's handler issued n bundles (R281): its BCNT and its
landing bundles advance, and what it has issued from h on is known under the lead's later bundles. -/
def Context.shift (c : Context) (b : Bank) (h n : Word) : Context :=
  { c with
    bcnt := c.bcnt + n
    landing := c.landing.map (fun (l : Landing) =>
      { l with due := l.due + n, tag := shiftKey h n l.tag, key := shiftKey h n l.key })
    redirects := c.redirects.map (fun (r : Redirect) => { r with due := r.due + n })
    queues := c.queues.map (fun q => { q with resv := q.resv.map (fun r => { r with id := shiftKey h n r.id }) })
    owed := c.owed.map (fun o => { o with at_ := shiftAt h n o.at_, tag := shiftKey h n o.tag, key := shiftKey h n o.key })
    replica := { c.replica with buffer := c.replica.buffer.map (fun w => { w with at_ := shiftAt h n w.at_ }) }
    status := if c.status = .blocked .voteHold then unblocked b else c.status }

/-- The transfers of a replica that it has issued from bundle h on. -/
def Tile.shiftCmds (x : Tile) (uid : Nat) (h n : Word) : Tile :=
  let move (c : XCmd) : XCmd := if c.uid = uid then { c with key := shiftKey h n c.key } else c
  { x with
    buffer := x.buffer.map move
    channels := x.channels.map (fun ch => { ch with run := ch.run.map (fun r => { r with cmd := move r.cmd }) }) }

/-- A replica of a group goes on from the lead's BCNT. -/
def State.shiftReplica (s : State) (gid t : Nat) (k : SlotNo) (b : Bank) (h n : Word) : State :=
  ((s.modTile t (fun x => x.shiftCmds (x.ctx k b).uid h n)).modCtx t k b (fun c => c.shift b h n)).modGroup gid
    (fun g => { g with holdAt := none, resumeBy := none })

/-- The lead's handler of VOTE_MINORITY has returned: the other live replica goes on from the same BCNT, whether it is held or
is Blocked for a reason of its own; one that has not come to the lead's bundle yet does so when it presents it. -/
def State.resumeGroup (s : State) : State :=
  let c := s.me
  let s1 := s.modMe (fun c => { c with replica := { c.replica with direct := false } })
  match s1.groupOf c with
  | none => s1
  | some g =>
    match g.holdAt with
    | none => s1
    | some h =>
      let n := c.bcnt - h
      match g.liveMembers.find? (fun m => m.1 != c.replica.stack) with
      | none => s1.modGroup g.id (fun g => { g with holdAt := none })
      | some m =>
        match (s1.member m).map (fun x => decide (h.toNat ≤ x.bcnt.toNat)), (s1.tile m.2.1.toNat).bankOf m.2.2.1 m.2.2.2 with
        | some true, some b => s1.shiftReplica g.id m.2.1.toNat m.2.2.1 b h n
        | _, _ => s1.modGroup g.id (fun g => { g with resumeBy := some n })

/-- The lead's handler of VOTE_MINORITY has returned before a replica has come to its bundle: by how much the replica
advances there. -/
def resumed (s : State) (c : Context) : Option Word := (s.groupOf c).bind (fun g => g.resumeBy)

/-- The end of a bundle whose syllables have taken effect. -/
def State.endBundle (s : State) (b : Bundle) : State :=
  let returns := s.me.deferred.contains .eret && s.me.replica.direct
  let s1 := s.modMe (fun c => c.popQueues s.here b.pop)
  let s2 := s1.me.deferred.foldl State.applyDeferred s1
  let s3 := if b.rsp then s2.modMe Context.rotate else s2
  let s4 := s3.modMe (fun c => c.advance s.gtc.toNat)
  if returns then s4.resumeGroup else s4

/-! ### Inputs that a new lead performs in place of a fenced one (R272, R274) -/

/-- A context still waits for an input. -/
def Context.waitsFor (c : Context) (tag key : Nat) : Bool :=
  let late (ls : List Landing) : Bool := ls.any (fun l => !l.arrived && l.tag == tag && (l.key == key || tag == key))
  late c.landing || (match c.shadow with
    | some sh => late sh.landing
    | none => false) || c.queues.toList.any (fun q => q.resv.any (fun r => r.id == key && r.done.isNone))

/-- What the lead does for a replica besides the commit of its buffer: not the atomics and RVOTE, which a cut performs. -/
def performedAtCut : Instr → Bool
  | .aadd _ _ _ _ | .acas _ _ _ _ | .amaxi _ _ _ _ | .amini _ _ _ _ | .axch _ _ _ _ | .axor _ _ _ _ | .rvote _ => true
  | _ => false

/-- The tag under which a landing waits for a key; the key itself for an element of a queue. -/
def Context.tagOf (c : Context) (key : Nat) : Nat :=
  match c.landing.find? (fun l => !l.arrived && (l.key == key || l.tag == key)) with
  | some l => l.tag
  | none => key

/-- The inputs of a bundle that a replica awaits after its issue; `old` is the context before the effects. -/
def owedBy (old c : Context) (b : Bundle) : List Owed :=
  slotOrder.filterMap (fun p =>
    let key := tongsKey old.bcnt p
    match b.decodeAt p with
    | .ok i =>
      if guardOn old (b.guard p) && !performedAtCut i && c.waitsFor (c.tagOf key) key then
        some { instr := i, pos := p, at_ := old.bcnt, regs := old.regs, tag := c.tagOf key, key := key }
      else none
    | .empty | .illegalOp | .slotMismatch _ => none)

/-! ### Core–gather conflicts (R144) -/

/-- The bytes of S that an MA or XA syllable reaches as a core access (R142, R406): offsets and lengths. The XA ones are the
records of transfers and launches, microwords, and the word of HCFG. -/
def coreSpans (c : Context) : Instr → List (Word × Nat)
  | .lds x _ a off | .sts x _ a off => [(effAddr c a off (TypeCode.bytes x), TypeCode.bytes x)]
  | .vlds _ a off => [(effAddr c a off 16, 256)]
  | .vldsm _ a m off =>
    (activeOffsets (activeLanes .w32 (c.mreg m)) (fun i => effAddr c a off 16 + BitVec.ofNat 64 (4 * i))).map
      (fun l => (l.2, 4))
  | .vldsx x to16 _ a off =>
    [(effAddr c a off 16, (if to16 then LaneW.w16 else LaneW.w32).lanes * TypeCode.bytes x)]
  | .vgts w _ a i m | .vscs w _ a i m => (indexedLanes c w a i m).map (fun l => (l.2, w.bytes))
  | .vsts src a off => [(effAddr c a off 16, vsrcSize src c)]
  | .qsave _ a off | .qrest _ a off => [(effAddr c a off 80, 80)]
  | .cadd _ a x _ | .cread _ a x _ | .cwait _ a x _ =>
    match counterRef c a x with
    | .s off => [(off, 8)]
    | .d _ _ | .n _ => []
  | .hcfg _ src =>
    match hcfgAddr c src with
    | some a => [(a, 8)]
    | none => []
  | .mpld _ a | .xcpy _ a | .xcpyt _ a => [(c.sreg a, 64)]
  | .launch _ a _ => [(c.sreg a, 256)]
  | _ => []

/-- The core accesses to S of a bundle: those of its MA and its XA syllable. -/
def bundleSpans (c : Context) (b : Bundle) : List (Word × Nat) :=
  ([.ma, .xa] : List Pos).flatMap (fun p =>
    match b.decodeAt p with
    | .ok i => if guardOn c (b.guard p) then coreSpans c i else []
    | .empty | .illegalOp | .slotMismatch _ => [])

/-- The first bank of a set that the access needs, with the offset of its span. -/
def refusedBank (mp : Mapping) (limit : Nat) (asked : Word) (spans : List (Word × Nat)) : Option (Nat × Word) :=
  spans.findSome? (fun x =>
    ((List.range x.2).find? (fun i =>
        decide ((x.1 + BitVec.ofNat 64 i).toNat < limit)
          && asked.getLsbD (bankOf mp.spmode mp.keys (x.1 + BitVec.ofNat 64 i).toNat))).map
      (fun i => (bankOf mp.spmode mp.keys (x.1 + BitVec.ofNat 64 i).toNat, x.1)))

/-- An operation of the unit that reads or writes the scratchpad, inside its occupancy (R231). -/
def MxuOp.gathers (gtc : Nat) (o : MxuOp) : Bool :=
  (match o.work with
    | .dense _ _ _ _ | .sparse _ _ _ _ _ _ | .writeOut _ _ _ => true
    | .clear | .suppressed => false) && decide (gtc + 22 < o.due)

/-- A refusal moves the end of the occupancy and the completion later by a cycle. -/
def Mxu.delayed (m : Mxu) (gtc : Nat) : Mxu :=
  { m with
    busyUntil := m.busyUntil + 1
    ops := m.ops.map (fun o => if o.gathers gtc then { o with due := o.due + 1 } else o) }

/-- BANK_CONFLICT in the context that holds the claim, if it ran LINEAR in that cycle; the first before its next bundle
counts. -/
def State.raiseConflict (s : State) (old : Context) (bank : Nat) (a : Word) : State :=
  match s.here.mxu.owner with
  | none => s
  | some (k, uid) =>
    match s.uidCtx s.cur.tile.toNat k uid with
    | none => s
    | some o =>
      if (if uid = old.uid then old else o).special.spmode.getLsbD 0 || o.events.any (fun e => e.name == .bankConflict) then s
      else
        s.engineTrap s.cur.tile.toNat k uid o.asid
          { name := .bankConflict
            tval := (a &&& 0x1FFFFF) <<< 32 ||| BitVec.ofNat 64 (k.toNat * 4096 + s.cur.slot.toNat * 256 + bank) }

/-- A core access is granted before the gather unit (R143), which waits for a bank that both ask for. The spec does not
give the banks that the gather unit asks for in a cycle of its operation: they are a free value (DESIGN CHOICE, safe; log entry 12). -/
def State.gatherConflict (s : State) (old : Context) (b : Bundle) : State :=
  let spans := bundleSpans old b
  if s.here.mxu.ops.any (MxuOp.gathers s.gtc.toNat) && !spans.isEmpty then
    let (asked, s1) := s.freeWord
    match refusedBank old.mapping s.here.limit asked spans with
    | some (bank, a) => (s1.modHere (fun x => { x with mxu := x.mxu.delayed s.gtc.toNat })).raiseConflict old bank a
    | none => s1
  else s

/-! ### What a bundle leaves behind at its issue -/

/-- A replica that is not the lead remembers what it awaits. -/
def State.noteOwed (s : State) (old : Context) (b : Bundle) : State :=
  if s.nonLead old && !old.replaying then
    s.modMe (fun c => { c with owed := c.owed.filter (fun o => c.waitsFor o.tag o.key) ++ owedBy old c b })
  else s

/-- The landing, or the reservation, that a performed input has made takes the place of the one that waited. -/
def Context.takePlace (c made : Context) (o : Owed) : Context :=
  let waits (l : Landing) : Bool := !l.arrived && l.tag == o.tag && (l.key == o.key || o.tag == o.key)
  let put (ls : List Landing) : List Landing :=
    match (made.landing.drop c.landing.length).head? with
    | some n => replaceFirst waits (fun l => { n with due := l.due }) ls
    | none => ls
  let queue (q new : Queue) : Queue :=
    if q.resv.length < new.resv.length then
      match new.resv.getLast? with
      | some r => { new with resv := replaceFirst (fun x => x.id == o.key) (fun _ => r) q.resv }
      | none => new
    else new
  { made with
    regs := c.regs, bcnt := c.bcnt, landing := put c.landing
    shadow := made.shadow.map (fun sh => { sh with landing := put sh.landing })
    queues := Vector.zipWith queue c.queues made.queues }

/-- The need of an input that is still to be translated goes to the MMP, once. -/
def State.askFor (s : State) (needs : List Need) (tval : Word) : State :=
  let t := s.cur.tile
  let k := s.cur.slot
  if s.mmp.faults.any (fun f => f.who == .ctx t k s.me.uid) then s
  else
    let rec_ : FaultRec :=
      { id := s.nextId, who := .ctx t k s.me.uid, asid := s.me.asid, needs := needs
        stack := BitVec.ofNat 2 (stackOf t.toNat), tval := tval, stage := .walking, due := s.gtc.toNat + 420 }
    { s with nextId := s.nextId + 1, mmp := { s.mmp with faults := s.mmp.faults ++ [rec_] } }

/-- An input that will have no value is taken away. -/
def State.forgetOwed (s : State) (o : Owed) : State :=
  let t := s.cur.tile.toNat
  let k := s.cur.slot
  let uid := s.me.uid
  (List.range 16).foldl (fun (st : State) i => st.dropResv t k uid (BitVec.ofNat 4 i) o.key) (s.dropLanding t k uid o.tag)

/-- The new lead performs one input, with the registers of its issue. (DESIGN CHOICE, unsafe; log entry 31.) -/
def State.performOwed (s : State) (o : Owed) : State :=
  match meaningOf o.instr with
  | none => s
  | some m =>
    let c := s.me
    let st := (s.setMe { c with regs := o.regs, bcnt := o.at_ }).atPos o.pos
    match m.misses st with
    | n :: ns => s.askFor (n :: ns) (m.missTval st)
    | [] =>
      match m.check st with
      | some tr => ((s.forgetOwed o).modMe (fun c => { c with answer := none })).pend tr
      | none => (m.effect st st).modMe (fun made => c.takePlace made o)

/-- What a lead still owes to itself and to its group. -/
def State.settleOwed (s : State) : State :=
  let c := s.me
  if c.status.bound && c.status != .halted && !c.owed.isEmpty && !s.nonLead c then
    let s1 := c.owed.foldl (fun (st : State) o =>
      if st.me.waitsFor o.tag o.key && !st.tongs.any (fun i => i.uid == c.uid && i.src == o.key) then st.performOwed o
      else st) s
    s1.modMe (fun c => { c with owed := c.owed.filter (fun o => c.waitsFor o.tag o.key) })
  else s

/-! ### The presentation -/

/-- From the block check to the end of the bundle, which observes the heads that it reads (R182). A conflict with the gather
unit counts at the owner's next bundle (R144). -/
def State.issueBundle (s : State) (b : Bundle) : State :=
  let acts := activeOf s.me b
  match issueActive acts b.pop b.stamp (s.observe (headHistory s.me (readHeads acts b.pop))) with
  | .ended s1 => s1
  | .issued s1 => ((s1.noteOwed s.me b).endBundle b).gatherConflict s.me b

/-- From the fetch: the checks, then one event, then the issue. -/
def State.presentBundle (s : State) : State :=
  match fetchTrap s with
  | some t => s.raise t
  | none =>
    match bundleTrap s s.fetch with
    | some t => s.raise t
    | none =>
      let s1 := if s.me.sup then s.pullTraps.keepOverflow else s.pullTraps
      match s1.me.delivery with
      | some t => s1.deliver t
      | none => s1.issueBundle s.fetch

/-- A replica presents the bundle at which the lead has taken VOTE_MINORITY: it waits, or, where the handler has returned,
goes on from the lead's BCNT (R281). -/
def State.atHold (s : State) : State :=
  let c := s.me
  match s.groupOf c, resumed s c with
  | some g, some n =>
    (s.shiftReplica g.id s.cur.tile.toNat s.cur.slot .primary (g.holdAt.getD c.bcnt) n).presentBundle
  | _, _ => s.blockOn .voteHold

/-- What a replayed stream brings to the bundle (R284). -/
def State.replayPump (s : State) : State :=
  let c := s.me
  if c.replaying then
    let t := s.cur.tile.toNat
    let s1 := s.replayAsync t s.cur.slot c.uid (c.log.len / 8 + 1)
    s1.replayLate t s.cur.slot s1.me
  else s

/-- The context of the cursor presents its next bundle. -/
def State.present (s : State) : State :=
  let s0 := s.replayPump
  if s0.me.late s0.gtc.toNat then s0.modMe (fun c => c.stallTick s0.gtc.toNat)
  else
    let s1 := s0.commitLandings
    match s1.me.poisoned with
    | some v => s1.raise { name := .memData, tval := v }
    | none => if voteHeld s1 s1.me then s1.atHold else s1.presentBundle

/-- The Issuing context of a tile, once its slot and its pipeline admit a bundle. -/
def State.presenter (s : State) (t : Nat) : Option SlotNo :=
  match (s.tile t).issuing with
  | some k =>
    let sl := (s.tile t).slot k
    if sl.moving ≤ s.gtc.toNat ∧ sl.primary.earliest ≤ s.gtc.toNat then some k else none
  | none => none

/-- The inputs that the contexts of a tile owe. -/
def State.settleTile (s : State) (t : TileId) : State :=
  allSlots.foldl (fun (st : State) k =>
    if (((st.tile t.toNat).slot k).primary).owed.isEmpty then st
    else
      let s1 : State := { st with cur := { tile := t, slot := k, pos := .sa } }
      s1.settleOwed) s

/-- The Issuing context of a tile presents its next bundle. -/
def State.presentTile (s0 : State) (t : TileId) : State :=
  let s := s0.settleTile t
  match s.presenter t.toNat with
  | some k => { s with cur := { tile := t, slot := k, pos := .sa } }.present
  | none => s

def execBundlePresentation (t : TileId) (s : State) : Host.Outcome State Fault Refusal := .next (s.presentTile t)

/-- FRAME has reached the stamp for which a DET context holds its tile: the bundle is presented again, and issues. -/
def execStampReached (t : TileId) (s : State) : Host.Outcome State Fault Refusal :=
  match s.presenter t.toNat with
  | some k =>
    let s1 : State := { s with cur := { tile := t, slot := k, pos := .sa } }
    let c := s1.me
    if c.det && c.committed && s1.fetch.stamp != 0 && decide (frameOf s1 c = s1.fetch.stamp.toNat) then .next s1.present
    else .next s
  | none => .next s

end Sys2Proof.Machine
end

