-- ==== Sys2Proof/Machine/Dispatch.lean ====
section
/-! DEFINITION. The dispatch: one arm for each instruction and each event, with one call of its meaning. -/

namespace Sys2Proof.Machine

def exec (i : Instr) (s : State) : Host.Outcome State Fault Refusal :=
  match i with
  -- events of bundles and contexts
  | .bundlePresentation t => Sys2Proof.Machine.execBundlePresentation t s
  | .issueSelect t => Sys2Proof.Machine.execIssueSelect t s
  | .lateValueArrival fid => Sys2Proof.Machine.execLateValueArrival fid s
  | .blockConditionClears t k b => Sys2Proof.Machine.execBlockConditionClears t k b s
  | .stampReached t => Sys2Proof.Machine.execStampReached t s
  | .sleepExpiry t k b => Sys2Proof.Machine.execSleepExpiry t k b s
  | .startPulse rid t => Sys2Proof.Machine.execStartPulse rid t s
  | .barrierRelease bid => Sys2Proof.Machine.execBarrierRelease bid s
  | .walkerAnswer id => Sys2Proof.Machine.execWalkerAnswer id s
  | .faultService id frame => Sys2Proof.Machine.execFaultService id frame s
  | .faultAnswer id => Sys2Proof.Machine.execFaultAnswer id s
  | .bankReturn t k => Sys2Proof.Machine.execBankReturn t k s
  | .remoteRefusal fid => Sys2Proof.Machine.execRemoteRefusal fid s
  | .shootdownAck sid agent => Sys2Proof.Machine.execShootdownAck sid agent s
  | .shootdownComplete sid => Sys2Proof.Machine.execShootdownComplete sid s
  | .migrationScan => Sys2Proof.Machine.execMigrationScan s
  -- events of memory
  | .homePortAccess fid unit ext => Sys2Proof.Machine.execHomePortAccess fid unit ext s
  | .counterWatchAnswer wid ext => Sys2Proof.Machine.execCounterWatchAnswer wid ext s
  | .incomingNWrite fid unit => Sys2Proof.Machine.execIncomingNWrite fid unit s
  | .queueElementDelivery fid => Sys2Proof.Machine.execQueueElementDelivery fid s
  | .multicastLanding mid => Sys2Proof.Machine.execMulticastLanding mid s
  -- events of the engines
  | .transferStart t ch => Sys2Proof.Machine.execTransferStart t ch s
  | .transferChunk t ch len ext => Sys2Proof.Machine.execTransferChunk t ch len ext s
  | .channelFaultAnswer t ch => Sys2Proof.Machine.execChannelFaultAnswer t ch s
  | .promiseExpiry cid => Sys2Proof.Machine.execPromiseExpiry cid s
  | .transferComplete cid => Sys2Proof.Machine.execTransferComplete cid s
  | .mxuDenseStep t => Sys2Proof.Machine.execMxuDenseStep t s
  | .mxuSparseStep t => Sys2Proof.Machine.execMxuSparseStep t s
  | .mxuWriteOut t => Sys2Proof.Machine.execMxuWriteOut t s
  | .mxuClear t => Sys2Proof.Machine.execMxuClear t s
  | .mxuOperationComplete t => Sys2Proof.Machine.execMxuOperationComplete t s
  | .mxuRoutineRunaway t => Sys2Proof.Machine.execMxuRoutineRunaway t s
  | .mxuAsidClear t => Sys2Proof.Machine.execMxuAsidClear t s
  | .geuLoad t => Sys2Proof.Machine.execGeuLoad t s
  | .geuRun t => Sys2Proof.Machine.execGeuRun t s
  | .geuRowDeliver t => Sys2Proof.Machine.execGeuRowDeliver t s
  | .geuComplete t => Sys2Proof.Machine.execGeuComplete t s
  | .scanOperationStart oid => Sys2Proof.Machine.execScanOperationStart oid s
  | .scanDelivery oid t => Sys2Proof.Machine.execScanDelivery oid t s
  | .carryArrival op carry => Sys2Proof.Machine.execCarryArrival op carry s
  | .tongsDelivery id => Sys2Proof.Machine.execTongsDelivery id s
  | .voteStart gid => Sys2Proof.Machine.execVoteStart gid s
  | .voteResult gid => Sys2Proof.Machine.execVoteResult gid s
  | .dieLoss d => Sys2Proof.Machine.execDieLoss d s
  -- events of the scheduler
  | .drainComplete t k => Sys2Proof.Machine.execDrainComplete t k s
  | .completionAdd rid => Sys2Proof.Machine.execCompletionAdd rid s
  | .preemption rid why => Sys2Proof.Machine.execPreemption rid why s
  | .restore rid pl => Sys2Proof.Machine.execRestore rid pl s
  | .launchQueueProdWrite q v records => Sys2Proof.Machine.execLaunchQueueProdWrite q v records s
  | .launchQueueErrClear q v => Sys2Proof.Machine.execLaunchQueueErrClear q v s
  | .recordAcceptance q => Sys2Proof.Machine.execRecordAcceptance q s
  | .forwardedRecord words launcher => Sys2Proof.Machine.execForwardedRecord words launcher s
  | .recordAdmission rid pl ext => Sys2Proof.Machine.execRecordAdmission rid pl ext s
  | .reserveRequest rid words pl => Sys2Proof.Machine.execReserveRequest rid words pl s
  | .dispatch rid => Sys2Proof.Machine.execDispatch rid s
  -- commands of the host to the memory-management processor (Table 8-7)
  | .asidCreate seq nomig fntiles => Sys2Proof.Machine.execAsidCreate seq nomig fntiles s
  | .asidRetire seq asid => Sys2Proof.Machine.execAsidRetire seq asid s
  | .asidRetireComplete asid => Sys2Proof.Machine.execAsidRetireComplete asid s
  | .tensorDefine seq asid id desc place stack perm base => Sys2Proof.Machine.execTensorDefine seq asid id desc place stack perm base s
  | .tensorFree seq asid id => Sys2Proof.Machine.execTensorFree seq asid id s
  | .cmap seq asid addr len => Sys2Proof.Machine.execCmap seq asid addr len s
  | .hwinAdd seq asid hva pages perm => Sys2Proof.Machine.execHwinAdd seq asid hva pages perm s
  | .hwinRemove seq asid hva => Sys2Proof.Machine.execHwinRemove seq asid hva s
  | .pinAnswer seq req bus => Sys2Proof.Machine.execPinAnswer seq req bus s
  | .recordAbort seq tgt post => Sys2Proof.Machine.execRecordAbort seq tgt post s
  | .status seq => Sys2Proof.Machine.execStatus seq s
  | .logRead seq offset => Sys2Proof.Machine.execLogRead seq offset s
  -- events of the platform
  | .warmReset => Sys2Proof.Machine.execWarmReset s
  | .warmResetComplete => Sys2Proof.Machine.execWarmResetComplete s
  | .coldReset temperCode node live => Sys2Proof.Machine.execColdReset temperCode node live s
  | .evqConsWrite v => Sys2Proof.Machine.execEvqConsWrite v s
  | .evqSizeWrite v => Sys2Proof.Machine.execEvqSizeWrite v s
  | .evqStatWrite v => Sys2Proof.Machine.execEvqStatWrite v s
  | .ebudSetWrite v => Sys2Proof.Machine.execEbudSetWrite v s
  | .registerWrite off v => Sys2Proof.Machine.execRegisterWrite off v s
  | .correctedErrorReport count => Sys2Proof.Machine.execCorrectedErrorReport count s
  | .meterAdvance delta => Sys2Proof.Machine.execMeterAdvance delta s
  | .powerWindowEnd => Sys2Proof.Machine.execPowerWindowEnd s
  | .thermalEmergency hottest outlet => Sys2Proof.Machine.execThermalEmergency hottest outlet s
  | .thermalEmergencyEnd hottest outlet => Sys2Proof.Machine.execThermalEmergencyEnd hottest outlet s
  | .thermalShutdown hottest outlet => Sys2Proof.Machine.execThermalShutdown hottest outlet s
  | .linkLoss link => Sys2Proof.Machine.execLinkLoss link s
  -- scalar instructions
  | .nop => Sys2Proof.Machine.execNop s
  | .add x d a b => Sys2Proof.Machine.execAdd x d a b s
  | .sub x d a b => Sys2Proof.Machine.execSub x d a b s
  | .and x d a b => Sys2Proof.Machine.execAnd x d a b s
  | .andn x d a b => Sys2Proof.Machine.execAndn x d a b s
  | .or x d a b => Sys2Proof.Machine.execOr x d a b s
  | .xor x d a b => Sys2Proof.Machine.execXor x d a b s
  | .shl x d a b => Sys2Proof.Machine.execShl x d a b s
  | .shr x d a b => Sys2Proof.Machine.execShr x d a b s
  | .sra x d a b => Sys2Proof.Machine.execSra x d a b s
  | .rol x d a b => Sys2Proof.Machine.execRol x d a b s
  | .mul x d a b => Sys2Proof.Machine.execMul x d a b s
  | .mulh x d a b => Sys2Proof.Machine.execMulh x d a b s
  | .mulhn x d a b => Sys2Proof.Machine.execMulhn x d a b s
  | .div x d a b => Sys2Proof.Machine.execDiv x d a b s
  | .divn x d a b => Sys2Proof.Machine.execDivn x d a b s
  | .rem x d a b => Sys2Proof.Machine.execRem x d a b s
  | .remn x d a b => Sys2Proof.Machine.execRemn x d a b s
  | .max x d a b => Sys2Proof.Machine.execMax x d a b s
  | .maxn x d a b => Sys2Proof.Machine.execMaxn x d a b s
  | .min x d a b => Sys2Proof.Machine.execMin x d a b s
  | .minn x d a b => Sys2Proof.Machine.execMinn x d a b s
  | .clz x d a => Sys2Proof.Machine.execClz x d a s
  | .ctz x d a => Sys2Proof.Machine.execCtz x d a s
  | .popc x d a => Sys2Proof.Machine.execPopc x d a s
  | .mov x d a => Sys2Proof.Machine.execMov x d a s
  | .sel c d a b => Sys2Proof.Machine.execSel c d a b s
  | .cmp c d a b => Sys2Proof.Machine.execCmp c d a b s
  | .plog op d a b => Sys2Proof.Machine.execPlog op d a b s
  | .addi d a imm => Sys2Proof.Machine.execAddi d a imm s
  | .andi d a imm => Sys2Proof.Machine.execAndi d a imm s
  | .ori d a imm => Sys2Proof.Machine.execOri d a imm s
  | .xori d a imm => Sys2Proof.Machine.execXori d a imm s
  | .cmpi c d a imm => Sys2Proof.Machine.execCmpi c d a imm s
  | .movi d imm => Sys2Proof.Machine.execMovi d imm s
  | .movhi d a imm => Sys2Proof.Machine.execMovhi d a imm s
  | .br disp => Sys2Proof.Machine.execBr disp s
  | .brl d disp => Sys2Proof.Machine.execBrl d disp s
  | .bri d a => Sys2Proof.Machine.execBri d a s
  | .loop d off => Sys2Proof.Machine.execLoop d off s
  | .loopmStart d b a => Sys2Proof.Machine.execLoopmStart d b a s
  | .loopmEnd d b => Sys2Proof.Machine.execLoopmEnd d b s
  | .mfsr d r => Sys2Proof.Machine.execMfsr d r s
  | .mtsr r a => Sys2Proof.Machine.execMtsr r a s
  | .trap imm => Sys2Proof.Machine.execTrap imm s
  | .eret => Sys2Proof.Machine.execEret s
  | .exit => Sys2Proof.Machine.execExit s
  -- vector instructions
  | .vand d a b m => Sys2Proof.Machine.execVand d a b m s
  | .vor d a b m => Sys2Proof.Machine.execVor d a b m s
  | .vxor d a b m => Sys2Proof.Machine.execVxor d a b m s
  | .vsel d a b m => Sys2Proof.Machine.execVsel d a b m s
  | .vcnt w d a m => Sys2Proof.Machine.execVcnt w d a m s
  | .vmovs w d a m => Sys2Proof.Machine.execVmovs w d a m s
  | .vrand d a m => Sys2Proof.Machine.execVrand d a m s
  | .vrandEnt d m => Sys2Proof.Machine.execVrandEnt d m s
  | .vshl w d a b m => Sys2Proof.Machine.execVshl w d a b m s
  | .vshr w d a b m => Sys2Proof.Machine.execVshr w d a b m s
  | .vsra w d a b m => Sys2Proof.Machine.execVsra w d a b m s
  | .vshlImm w d a c m => Sys2Proof.Machine.execVshlImm w d a c m s
  | .vshrImm w d a c m => Sys2Proof.Machine.execVshrImm w d a c m s
  | .vsraImm w d a c m => Sys2Proof.Machine.execVsraImm w d a c m s
  | .vperm w d a b m => Sys2Proof.Machine.execVperm w d a b m s
  | .vpermPattern w d a b m kind param => Sys2Proof.Machine.execVpermPattern w d a b m kind param s
  | .vext w d a b m => Sys2Proof.Machine.execVext w d a b m s
  | .vcompr d a m => Sys2Proof.Machine.execVcompr d a m s
  | .vexpd d a m => Sys2Proof.Machine.execVexpd d a m s
  | .mlog tt d a b => Sys2Proof.Machine.execMlog tt d a b s
  | .qclr d => Sys2Proof.Machine.execQclr d s
  | .qneg d a => Sys2Proof.Machine.execQneg d a s
  | .qtest d a => Sys2Proof.Machine.execQtest d a s
  | .qacc d a => Sys2Proof.Machine.execQacc d a s
  | .vadd f d a b m => Sys2Proof.Machine.execVadd f d a b m s
  | .vsub f d a b m => Sys2Proof.Machine.execVsub f d a b m s
  | .vmul f d a b m => Sys2Proof.Machine.execVmul f d a b m s
  | .vfma f d a b m => Sys2Proof.Machine.execVfma f d a b m s
  | .vfms f d a b m => Sys2Proof.Machine.execVfms f d a b m s
  | .vmax f d a b m => Sys2Proof.Machine.execVmax f d a b m s
  | .vmin f d a b m => Sys2Proof.Machine.execVmin f d a b m s
  | .vabs f d a m => Sys2Proof.Machine.execVabs f d a m s
  | .vneg f d a m => Sys2Proof.Machine.execVneg f d a m s
  | .vcmp any rel f d a b => Sys2Proof.Machine.execVcmp any rel f d a b s
  | .vscan f d a m => Sys2Proof.Machine.execVscan f d a m s
  | .vredi f d a m => Sys2Proof.Machine.execVredi f d a m s
  | .vcvt sat dst src d a m => Sys2Proof.Machine.execVcvt sat dst src d a m s
  | .vcvts sat dst d a b m => Sys2Proof.Machine.execVcvts sat dst d a b m s
  | .qadd f d a m => Sys2Proof.Machine.execQadd f d a m s
  | .qdot f d a b m => Sys2Proof.Machine.execQdot f d a b m s
  | .qrnd sat f d a b m => Sys2Proof.Machine.execQrnd sat f d a b m s
  | .vrcp f d a m => Sys2Proof.Machine.execVrcp f d a m s
  | .vrsq f d a m => Sys2Proof.Machine.execVrsq f d a m s
  | .vsqrt f d a m => Sys2Proof.Machine.execVsqrt f d a m s
  | .vexp2 f d a m => Sys2Proof.Machine.execVexp2 f d a m s
  | .vlog2 f d a m => Sys2Proof.Machine.execVlog2 f d a m s
  | .vtanh f d a m => Sys2Proof.Machine.execVtanh f d a m s
  | .vsigm f d a m => Sys2Proof.Machine.execVsigm f d a m s
  -- memory instructions
  | .lds x d a off => Sys2Proof.Machine.execLds x d a off s
  | .sts x d a off => Sys2Proof.Machine.execSts x d a off s
  | .vlds d a off => Sys2Proof.Machine.execVlds d a off s
  | .vldsm d a m off => Sys2Proof.Machine.execVldsm d a m off s
  | .vldsx x to16 d a off => Sys2Proof.Machine.execVldsx x to16 d a off s
  | .vgts w d a idx m => Sys2Proof.Machine.execVgts w d a idx m s
  | .vscs w src a idx m => Sys2Proof.Machine.execVscs w src a idx m s
  | .vsts src a off => Sys2Proof.Machine.execVsts src a off s
  | .qsave d a off => Sys2Proof.Machine.execQsave d a off s
  | .qrest d a off => Sys2Proof.Machine.execQrest d a off s
  | .stmc x w d a off => Sys2Proof.Machine.execStmc x w d a off s
  | .vstmc w src a off => Sys2Proof.Machine.execVstmc w src a off s
  | .putn x post d a off => Sys2Proof.Machine.execPutn x post d a off s
  | .vputn post src a off => Sys2Proof.Machine.execVputn post src a off s
  | .getn x q a off => Sys2Proof.Machine.execGetn x q a off s
  | .warm n lo hi filter => Sys2Proof.Machine.execWarm n lo hi filter s
  | .warmOff n => Sys2Proof.Machine.execWarmOff n s
  | .wtok d => Sys2Proof.Machine.execWtok d s
  | .ldd q a c => Sys2Proof.Machine.execLdd q a c s
  | .std d a c => Sys2Proof.Machine.execStd d a c s
  | .vldd q a c => Sys2Proof.Machine.execVldd q a c s
  | .vstd src a c => Sys2Proof.Machine.execVstd src a c s
  | .aadd d a c o => Sys2Proof.Machine.execAadd d a c o s
  | .acas d a c o => Sys2Proof.Machine.execAcas d a c o s
  | .amaxi d a c o => Sys2Proof.Machine.execAmaxi d a c o s
  | .amini d a c o => Sys2Proof.Machine.execAmini d a c o s
  | .axch d a c o => Sys2Proof.Machine.execAxch d a c o s
  | .axor d a c o => Sys2Proof.Machine.execAxor d a c o s
  | .qred d a c o => Sys2Proof.Machine.execQred d a c o s
  | .cadd d a c o => Sys2Proof.Machine.execCadd d a c o s
  | .cwait thr a c sc => Sys2Proof.Machine.execCwait thr a c sc s
  | .cread d a c o => Sys2Proof.Machine.execCread d a c o s
  | .fence k sc => Sys2Proof.Machine.execFence k sc s
  | .ldc x q a off => Sys2Proof.Machine.execLdc x q a off s
  | .stc x d a off => Sys2Proof.Machine.execStc x d a off s
  | .vldc q a off => Sys2Proof.Machine.execVldc q a off s
  | .vstc src a off => Sys2Proof.Machine.execVstc src a off s
  | .ldh x q a off => Sys2Proof.Machine.execLdh x q a off s
  | .sth x d a off => Sys2Proof.Machine.execSth x d a off s
  | .vldh q a off => Sys2Proof.Machine.execVldh q a off s
  | .vsth src a off => Sys2Proof.Machine.execVsth src a off s
  -- extended instructions
  | .mcall routine o => Sys2Proof.Machine.execMcall routine o s
  | .mclaim => Sys2Proof.Machine.execMclaim s
  | .mfree => Sys2Proof.Machine.execMfree s
  | .mpar k src => Sys2Proof.Machine.execMpar k src s
  | .mpld routine a => Sys2Proof.Machine.execMpld routine a s
  | .gload a => Sys2Proof.Machine.execGload a s
  | .grun sat f a c o => Sys2Proof.Machine.execGrun sat f a c o s
  | .xcpy ch a => Sys2Proof.Machine.execXcpy ch a s
  | .xcpyt ch a => Sys2Proof.Machine.execXcpyt ch a s
  | .xprom d ch => Sys2Proof.Machine.execXprom d ch s
  | .xwmk d ch => Sys2Proof.Machine.execXwmk d ch s
  | .sleept a => Sys2Proof.Machine.execSleept a s
  | .hcfg tgt src => Sys2Proof.Machine.execHcfg tgt src s
  | .hpush q src => Sys2Proof.Machine.execHpush q src s
  | .hpop q dst => Sys2Proof.Machine.execHpop q dst s
  | .scan f a q ch carry m acq rel => Sys2Proof.Machine.execScan f a q ch carry m acq rel s
  | .scana f a b q ch carry m => Sys2Proof.Machine.execScana f a b q ch carry m s
  | .sbar level => Sys2Proof.Machine.execSbar level s
  | .rsig sel d => Sys2Proof.Machine.execRsig sel d s
  | .rvote d => Sys2Proof.Machine.execRvote d s
  | .rinj a b => Sys2Proof.Machine.execRinj a b s
  | .launch d a q => Sys2Proof.Machine.execLaunch d a q s
  | .cancel d a => Sys2Proof.Machine.execCancel d a s
  | .yield => Sys2Proof.Machine.execYield s
  | .sys imm => Sys2Proof.Machine.execSys imm s
  -- events of the links and the management processor
  | .stopGo link vc stop => Sys2Proof.Machine.execStopGo link vc stop s
  | .mmpCoreReset core => Sys2Proof.Machine.execMmpCoreReset core s

end Sys2Proof.Machine
end

