-- ==== Sys2Proof/Machine/Due.lean ====
section
/-! DEFINITION. What happens next in a cycle: the events of the package whose cycle has come, in a fixed order, the turns
of the tiles, and the accesses to the scratchpads that follow them. An event whose cycle the spec leaves open takes its
unloaded figure, unless the agenda names it. -/

namespace Sys2Proof.Machine

/-! ### Progress -/

/-- The state without the contents of memories, which no event changes alone. -/
def State.core (s : State) : State :=
  { s with
    hbm := [], lpddr := [], code := [], out := []
    tiles := s.tiles.map (fun x => (x.1, { x.2 with scratch := [] })) }

/-- An event does something now. -/
def progress (s : State) (e : Instr) : Bool :=
  match exec e s with
  | .next s1 => s1.core != s.core
  | .fault _ | .refused _ => true

/-- The agenda holds an event of a kind. -/
def State.planned (s : State) (p : Instr → Bool) : Bool := s.agenda.any (fun x => p x.2)

/-! ### Accesses -/

/-- An event that names an access. -/
def namesFlight (fid : Nat) : Instr → Bool
  | .homePortAccess f _ _ => f == fid
  | .incomingNWrite f _ => f == fid
  | .lateValueArrival f => f == fid
  | .queueElementDelivery f => f == fid
  | .remoteRefusal f => f == fid
  | _ => false

/-- A unit that is performed without a value from outside: one of this package, and a write to host memory. -/
def AccessUnit.inside (u : AccessUnit) : Bool :=
  match u.home, u.op with
  | .node _ _ _, _ => false
  | .host _, .store _ => true
  | .host _, .fill _ => true
  | .host _, _ => false
  | .hbm _, _ | .lpddr _, _ | .scratch _ _, _ | .nowhere, _ => true

/-- A unit whose home is a scratchpad: it takes its place in the order of a tile (R186). -/
def AccessUnit.atScratch (u : AccessUnit) : Bool :=
  match u.home with
  | .scratch _ _ => true
  | .hbm _ | .lpddr _ | .host _ | .node _ _ _ | .nowhere => false

/-- The next event of an access: one at a scratchpad comes behind the core accesses of its cycle, any other before. -/
def flightEvent (s : State) (behind : Bool) (f : Flight) : Option Instr :=
  if s.gtc.toNat < f.due || s.planned (namesFlight f.id) then none
  else if f.isOpen then
    (f.units.zipIdx.find? (fun u => u.1.inside && u.1.atScratch == behind && s.canPerform f u.2)).map (fun u =>
      if u.1.nWrite then .incomingNWrite f.id u.2 else .homePortAccess f.id u.2 0)
  else
    match f.sink with
    | .landing _ _ | .core _ => if behind then none else some (.lateValueArrival f.id)
    | .queue _ _ _ _ => if behind then some (.queueElementDelivery f.id) else none
    | .none => none

/-- The multicast store that lands first. -/
def firstLanding (s : State) : List Instr :=
  match s.mcasts.find? (fun m => decide (m.land ≤ s.gtc.toNat) && !s.mcasts.any (fun n => n.before m)) with
  | some m => [.multicastLanding m.id]
  | none => []

def memoryEvents (s : State) : List Instr :=
  firstLanding s ++ s.flights.filterMap (flightEvent s false)
    ++ (s.watches.filter (fun w => w.place.home.readable && decide (w.due ≤ s.gtc.toNat))).map (fun w =>
        .counterWatchAnswer w.id 0)

/-! ### Engines -/

/-- A chunk of a command needs bytes from outside the package. -/
def needsOutside (s : State) (x : XCmd) : Bool :=
  x.srcSpace == 4 || (x.srcSpace == 2 && x.src != 0 && !x.allOutside s && (match (tableDesc s x.asid x.src.toNat).map descOf with
    | some d => d.node != s.node
    | none => false))

/-- The bytes that a channel writes in its next cycle: 32; the pieces of a packed block go together. -/
def chunkStep (x : XCmd) : Nat := if x.compress then 8192 else 32

/-- The unloaded cycle of the next write: the pipeline is filled once, then 32 bytes move in a cycle; a write that leaves
the tile takes its latency on the way. (DESIGN CHOICE, unsafe; log entry 10.) -/
def chunkDue (s : State) (t : TileId) (r : XRun) : Nat :=
  let x := r.cmd
  let (n, total) :=
    if x.compress then (if r.taken < x.count s then (r.taken * x.zs, x.srcLen s) else (x.traffic s, x.traffic s))
    else (r.done, x.dstLen s)
  let away := if x.dstSpace = 0 then 0 else baseLatency s t x x.dstSpace x.dst false
  r.start + (x.latency s t - away) + (Nat.min (n + chunkStep x) (Nat.max n total) + 31) / 32

def chunkEvent (s : State) (t : TileId) (ch : Chan) : List Instr :=
  match ((s.tile t.toNat).channel ch).run with
  | some r =>
    let named := s.planned (fun e => match e with
      | .transferChunk u c _ _ => u == t && c == ch
      | _ => false)
    if named || needsOutside s r.cmd || decide (s.gtc.toNat < chunkDue s t r) then [] else [.transferChunk t ch (chunkStep r.cmd) []]
  | none => []

def channelEvents (s : State) (t : TileId) (x : Tile) : List Instr :=
  ([0, 1, 2, 3] : List Chan).flatMap (fun ch =>
    (match (x.channel ch).run, nextCommand x ch with
      | none, some (_, start) => if start ≤ s.gtc.toNat then [.transferStart t ch] else []
      | _, _ => [])
    ++ (match answeredChannel s t ch with
      | some (f, _) => if f.due ≤ s.gtc.toNat then [.channelFaultAnswer t ch] else []
      | none => []))
  ++ (x.cmds.filter (promiseOver s x)).map (fun c => .promiseExpiry c.cid)

/-- A tile whose scratchpad an access asks for. -/
def Flight.port (f : Flight) : Option TileId :=
  f.units.findSome? (fun u => match u.home with
    | .scratch t _ => some t
    | .hbm _ | .lpddr _ | .host _ | .node _ _ _ | .nowhere => none)

/-- What asks for a tile's banks in third place: the channels and incoming N traffic, in turn from behind the last that was
granted (R143). -/
def grantEvents (s : State) (t : TileId) (x : Tile) : List Instr :=
  (List.range 5).flatMap (fun i =>
    let who := (x.granted.toNat + 1 + i) % 5
    if who < 4 then chunkEvent s t (BitVec.ofNat 2 who)
    else (s.flights.filter (fun f => f.isOpen && f.port == some t)).filterMap (flightEvent s true))

/-- The accesses of the channels and of the N port, and what follows the last access of a command. -/
def transferEvents (s : State) (t : TileId) (x : Tile) : List Instr :=
  grantEvents s t x ++ (x.done.filter (completionReady s t.toNat)).map (fun d => .transferComplete d.cmd.cid)

/-- An operation that posts writes the scratchpad, and completes behind the core accesses. -/
def mxuEvents (s : State) (t : TileId) (x : Tile) : List Instr :=
  (if (completableOp s t.toNat).any (fun o => !o.posts) then [.mxuOperationComplete t] else [])
  ++ (if x.mxu.clearing.isSome || x.clearFor.isSome then [.mxuAsidClear t] else [])

/-- The completions of a routine that post, and the starts of its operations, which read the scratchpad. -/
def routineEvents (s : State) (t : TileId) (m : Mxu) : List Instr :=
  (if (completableOp s t.toNat).isSome then [.mxuOperationComplete t] else []) ++
  if m.run.isSome then [.mxuRoutineRunaway t, .mxuDenseStep t, .mxuSparseStep t, .mxuWriteOut t, .mxuClear t] else []

def geuEvents (t : TileId) (g : Geu) : List Instr :=
  if g.queue.isEmpty && g.running.isNone then [] else [.geuLoad t, .geuRun t, .geuRowDeliver t, .geuComplete t]

/-- The events of the engines of the tiles that touch no scratchpad. -/
def engineEvents (s : State) : List Instr :=
  s.tiles.flatMap (fun x =>
    let t : TileId := BitVec.ofNat 10 x.1
    channelEvents s t x.2 ++ mxuEvents s t x.2)

/-- The other accesses to the scratchpads: the gather unit before the channels and the N ports (R143). (The reads of one
operation of the matrix unit stand together at its start: DESIGN CHOICE, unsafe; log entry 7.) -/
def scratchEvents (s : State) : List Instr :=
  s.tiles.flatMap (fun x =>
    let t : TileId := BitVec.ofNat 10 x.1
    routineEvents s t x.2.mxu ++ geuEvents t x.2.geu ++ transferEvents s t x.2)

def scanEvents (s : State) : List Instr :=
  s.scans.flatMap (fun o => if o.started.isNone && o.full then [.scanOperationStart o.id] else [])

/-- Results of scans that are still to be delivered. -/
def deliveryEvents (s : State) : List Instr :=
  s.scans.flatMap (fun o =>
    if o.started.isSome && !o.delivered then o.contributions.map (fun c => .scanDelivery o.id c.tile) else [])

/-- Deliveries of Tongs whose cycle has come; what they bring goes to a scratchpad, or to landings and reports. -/
def tongsEvents (s : State) (atScratch : Bool) : List Instr :=
  (s.tongs.filter (fun i => decide (i.due ≤ s.gtc.toNat) && i.val.atScratch == atScratch)).map (fun i => .tongsDelivery i.id)

def groupEvents (s : State) : List Instr :=
  tongsEvents s false
  ++ s.groups.flatMap (fun g => match g.voting with
      | some d => if d ≤ s.gtc.toNat then [.voteResult g.id] else []
      | none => if g.voters.all (fun m => (s.frontCut m).isSome) then [.voteStart g.id] else [])

/-! ### Contexts -/

/-- The end of a block, a return from the second bank, and the end of a drain. -/
def slotEvents (s : State) (t : TileId) (k : SlotNo) : List Instr :=
  let sl := (s.tile t.toNat).slot k
  let clear (b : Bank) (c : Context) : List Instr :=
    match c.status with
    | .blocked (.sleep u) => if s.gtc.ult u then [] else [.sleepExpiry t k b]
    | .blocked bc => if blockCleared s t k c bc then [.blockConditionClears t k b] else []
    | .draining => if drained s t.toNat k b || drainHolds s t.toNat k b then [.drainComplete t k] else []
    | .free | .ready | .issuing | .parked _ | .readyOut | .halted => []
  clear .primary sl.primary ++ clear .second sl.second
    ++ (if (sl.returns s.gtc.toNat).isSome then [.bankReturn t k] else [])

def contextEvents (s : State) : List Instr :=
  s.tiles.flatMap (fun x => allSlots.flatMap (fun k => slotEvents s (BitVec.ofNat 10 x.1) k))

/-- A barrier has someone to release. -/
def barrierUseful (s : State) (b : Barrier) : Bool :=
  match s.record b.rid, b.due with
  | some r, some d => decide (d ≤ s.gtc.toNat) && (recDet r.words || (s.bound b.rid).any (fun x => b.waiter r x.2.2.2))
  | _, _ => false

def stepEvents (s : State) : List Instr :=
  (s.pulses.filter (fun p => decide (p.due ≤ s.gtc.toNat))).map (fun p => .startPulse p.rid { tile := p.tile, origin := 0, left := 0 })
  ++ (s.barriers.filter (barrierUseful s)).map (fun b => .barrierRelease b.id)

/-! ### The memory-management processor -/

def faultEvents (s : State) : List Instr :=
  (s.mmp.faults.filter (fun f => decide (f.due ≤ s.gtc.toNat))).flatMap (fun f =>
    match f.stage, f.who with
    | .walking, _ => [.walkerAnswer f.id]
    | .queued, _ => [.faultService f.id 0]
    | .answered _, .ctx _ _ _ => [.faultAnswer f.id]
    | .answered none, .scheduler _ | .answered none, .commit _ _ _ => [.faultAnswer f.id]
    | .answered _, _ | .pinning _, _ => [])

def shootEvents (s : State) : List Instr :=
  s.mmp.shoots.flatMap (fun x =>
    match x.acks.find? (fun a => ackReady s x a) with
    | some a => [.shootdownAck x.id a]
    | none => if x.acks.isEmpty && decide (x.due ≤ s.gtc.toNat) then [.shootdownComplete x.id] else [])

def mmpEvents (s : State) : List Instr :=
  (match s.platform.rung with
    | some (true, i) => [i]
    | some (false, _) | none => [])
  ++ faultEvents s ++ shootEvents s
  ++ (if s.gtc.toNat % 2 ^ 24 = 0 ∧ s.mmp.hints ≠ [] then [.migrationScan] else [])
  ++ (s.mmp.asids.filter (fun e => e.retiring)).map (fun e => .asidRetireComplete e.id)

/-! ### The scheduler and the platform -/

/-- What the scheduler does with one record that is to be bound. -/
def bindEvents (s : State) (r : Record) : List Instr :=
  let ready := otherwiseAdmissible s r r.seen && !gated s r
  match r.phase with
  | .pooled =>
    if (depMiss s r.words).isSome then [.recordAdmission r.rid { corners := [], slots := [] } r.seen]
    else if ready then
      match placementBeside s r (earmarked s r) with
      | some pl => [.recordAdmission r.rid pl r.seen]
      | none => []
    else []
  | .requested =>
    match findPlacement s r with
    | some pl => [.reserveRequest r.source.2 r.words pl]
    | none => []
  | .saved =>
    if r.pkgIndex = 0 && (depMiss s r.words).isSome then [.restore r.rid { corners := [], slots := [] }]
    else if ready then
      match placementBeside s r (earmarked s r) with
      | some pl => [.restore r.rid pl]
      | none => []
    else []
  | .reserved => if r.pkgIndex = 0 || r.committed then [.dispatch r.rid] else []
  | .running | .reserving _ | .ended => []

/-- What it does with one that runs: its completion. -/
def runningEvents (r : Record) : List Instr :=
  match r.phase with
  | .running => if r.left.isEmpty && r.away.isEmpty then [.completionAdd r.rid] else []
  | .ended => [.completionAdd r.rid]
  | .pooled | .requested | .saved | .reserved | .reserving _ => []

/-- Its pre-emption, at the bundle boundary behind the presentation of a cycle: a trap, a fault or EXIT of that cycle comes
first (Table 2-6), and so does a transfer command that starts (Table 10-6). -/
def preemptEvents (s : State) : List Instr :=
  s.records.filterMap (fun r =>
    if r.phase ≠ .running ∨ r.left.isEmpty = true then none
    else if r.saving then some (.preemption r.rid .priority)
    else if s.platform.emergency then some (.preemption r.rid .thermal)
    else if mayPreempt s r .remap then some (.preemption r.rid .remap)
    else if mayPreempt s r .priority then some (.preemption r.rid .priority) else none)

/-- Admission sees the counters as the cycle before has left them (Table 15-5). A record that has been accepted is
considered before the next is taken. -/
def admissionEvents (s : State) : List Instr :=
  s.records.flatMap (bindEvents s)
  ++ s.relayed.map (fun y => .forwardedRecord y.words y.src)
  ++ (match s.nextQueue with
    | some q => [.recordAcceptance q]
    | none => [])

def schedulerEvents (s : State) : List Instr := s.records.flatMap runningEvents

def platformEvents (s : State) : List Instr :=
  match s.platform.resetting with
  | some d => if d ≤ s.gtc.toNat then [.warmResetComplete] else []
  | none => []

/-- A window ends behind the advance of the meters in its last cycle. -/
def windowEvents (s : State) : List Instr :=
  if s.platform.windowAt + s.platform.window ≤ s.gtc.toNat then [.powerWindowEnd] else []

/-! ### The order of a cycle -/

/-- The first event of some kinds that does something. -/
def firstOf (s : State) (kinds : List (State → List Instr)) : Option Instr :=
  kinds.findSome? (fun f => (f s).find? (progress s))

/-- What the scheduler does at the start of a cycle. -/
def nextAdmission (s : State) : Option Instr :=
  if s.admitted then none else firstOf s [platformEvents, admissionEvents]

/-- The kinds of events that come before the core accesses of a cycle, in the order in which it looks for them. -/
def eventKinds : List (State → List Instr) :=
  [platformEvents, memoryEvents, groupEvents, engineEvents, scanEvents, mmpEvents, stepEvents, contextEvents, schedulerEvents]

/-- The next event of the package whose cycle has come. -/
def nextDue (s : State) : Option Instr :=
  match nextAdmission s with
  | some e => some e
  | none => firstOf s eventKinds

/-- The events that come behind the core accesses of a cycle: the grants of R143 after the first (R186). -/
def lateEvents (s : State) : List Instr :=
  scratchEvents s ++ s.flights.filterMap (flightEvent s true) ++ tongsEvents s true ++ deliveryEvents s ++ preemptEvents s
    ++ windowEvents s

/-- The next event behind the core accesses of the cycle. -/
def nextLate (s : State) : Option Instr := (lateEvents s).find? (progress s)

/-- The turns of a tile that have something to do: 2·t selects, 2·t + 1 presents. -/
def tileTurns (s : State) (t : Nat) : List Nat :=
  (if ((s.tile t).best s.gtc.toNat).isSome then [2 * t] else [])
  ++ (if (s.presenter t).isSome then [2 * t + 1] else [])

/-- The next turn of the cycle. -/
def nextTurn (s : State) : Option Nat :=
  (s.tiles.flatMap (fun x => tileTurns s x.1)).foldl (fun acc n =>
    if n < s.turn then acc
    else match acc with
      | some m => if n < m then some n else some m
      | none => some n) none

/-- The event of a turn. -/
def turnEvent (n : Nat) : Instr :=
  if n % 2 = 0 then .issueSelect (BitVec.ofNat 10 (n / 2)) else .bundlePresentation (BitVec.ofNat 10 (n / 2))

/-- A tile takes its turn; then come the other accesses to the scratchpads, and the cycle is over. -/
def stepTile (s : State) : Host.Outcome State Fault Refusal :=
  match nextTurn s with
  | some n => exec (turnEvent n) { s with turn := n + 1 }
  | none =>
    match nextLate s with
    | some e => exec e { s with turn := 2048 }
    | none => .next s.tick

/-- An entry of the agenda: an event. An instruction of the instruction set is none, and is dropped. -/
def runAgenda (e : Instr) (s : State) : Host.Outcome State Fault Refusal :=
  match meaningOf e with
  | some _ => .next s
  | none => exec e s

/-- An access to a scratchpad that the agenda names: it comes behind the core accesses of its cycle (R186). -/
def State.behindCore (s : State) : Instr → Bool
  | .homePortAccess f i _ =>
    match s.unitAt f i false with
    | some (_, u) => u.atScratch
    | none => false
  | .incomingNWrite _ _ | .queueElementDelivery _ | .transferChunk _ _ _ _ | .transferComplete _ | .mxuDenseStep _
  | .mxuSparseStep _ | .mxuWriteOut _ | .mxuClear _ | .geuLoad _ | .geuRun _ | .geuRowDeliver _ | .geuComplete _
  | .scanDelivery _ _ => true
  | .tongsDelivery id => s.tongs.any (fun i => i.id == id && i.val.atScratch)
  | .mxuOperationComplete t => (completableOp s t.toNat).any MxuOp.posts
  | _ => false

/-- An entry of the agenda whose cycle has come, or the next turn: what the host does in a cycle follows what the package
has done (Tables 13-6 and 17-6). -/
def stepAgenda (s : State) : Host.Outcome State Fault Refusal :=
  match s.agenda with
  | (n, e) :: rest =>
    if n ≤ s.gtc.toNat && !(s.behindCore e && (nextTurn s).isSome) then
      runAgenda e { s with agenda := rest, admitted := true }
    else stepTile s
  | [] => stepTile s

/-- One step: the events of a cycle that touch no scratchpad, and the landings of multicast stores, come before the turns
of its tiles. (DESIGN CHOICE, unsafe; log entry 7.) -/
def stepAny (s : State) : Host.Outcome State Fault Refusal :=
  if s.turn = 0 then
    match nextDue s with
    | some e => exec e { s with admitted := (nextAdmission s).isNone }
    | none => stepAgenda s
  else stepAgenda s

/-- A context on tile 0 whose next bundle is the one at an address of address space 1. -/
def State.withBundle (s : State) (pc : Nat) (bytes : List Byte) : State :=
  let c : Context := { Context.reset with
    uid := s.nextId, status := .issuing, asid := 1, nlev := 1, pc := BitVec.ofNat 64 pc
    special := { Special.reset with tvec := BitVec.ofNat 64 pc, tdm := 0x101 } }
  let x := s.tile 0
  let s1 := s.setTile 0 { x with slots := x.slots.set 0 { primary := c, second := Context.reset, moving := 0 } }
  { s1 with
    agenda := [], turn := 1, nextId := s.nextId + 1, platform := { s.platform with released := true }
    code := assocSet 1 (Memory.writeN ((assocGet 1 s.code).getD []) pc bytes) s.code }

end Sys2Proof.Machine
end

