-- ==== Sys2Proof/Machine/Step.lean ====
section
/-! DEFINITION. The step of the package, and a state whose next step presents a given bundle. -/

namespace Sys2Proof.Machine

/-- One step of the package. -/
def step (s : State) : Host.Outcome State Fault Refusal := stepAny s

/-- The bundle whose bits are w, stored where a context of tile 0 fetches it in the very next step: this stands for the
launch of a program whose first bundle it is (DESIGN CHOICE, safe; log entry 4). -/
def State.withFetchWord (s : State) (nbits w : Nat) : State :=
  s.withBundle 0x1000 (bytesOfNat 32 (w % 2 ^ (Nat.min nbits 256)))

end Sys2Proof.Machine
end

