-- ==== Sys2Proof/Safety.lean ====
section
/-! DEFINITION. What a safe run of the package is, and the invariants that its statements use. -/

namespace Sys2Proof.Machine

/-- A run of n steps that meets no fault and no refusal. -/
def State.safeFor : Nat → State → Bool
  | 0, _ => true
  | n + 1, s =>
    match step s with
    | .next t => State.safeFor n t
    | .fault _ | .refused _ => false

/-- Every memory of the package is in canonical form: HBM, LPDDR-6, the code of each address space, and the scratchpad of
each tile. -/
def State.memoriesCanonical (s : State) : Bool :=
  Memory.wf s.hbm && Memory.wf s.lpddr && s.code.all (fun c => Memory.wf c.2) && s.tiles.all (fun x => Memory.wf x.2.scratch)

/-- The registers that Table 3-16 hard-wires stand in the files as they read: s0 is 0, p0 is 1, m0 is all ones. -/
def Regs.hardwired (g : Regs) : Bool := g.s[0] == 0 && g.p.getLsbD 0 && g.m[0] == BitVec.allOnes 64

/-- A context that is no replica and is neither logged nor replayed: it performs its own inputs and writes. -/
def Context.plain (c : Context) : Bool := c.replica.group == 0 && !c.log.active && !c.log.replay

/-- An instruction that SA or VB alone takes stands there (R52). -/
def slotOk (i : Instr) (p : Pos) : Bool := (!i.saOnly || p == .sa) && (!i.vbOnly || p == .vb)

/-- A queue whose head the context of the cursor can read: a complete element without a poison mark (R101, R307). -/
def State.headReady (s : State) (q : HReg) : Bool :=
  (s.me.queue q).configured && (s.me.queue q).headValid s.gtc.toNat && ((s.me.queue q).headPoison s.gtc.toNat).isNone

/-- A vector-store source that can be read: a register, or a queue head that is ready. -/
def State.sourceReady (s : State) : VSrc → Bool
  | .v _ => true
  | .h q => s.headReady q

/-- The context of a slot is the next to act: no event of the package is due, and the next turn is the presentation of its
tile, which owes nothing to a replica group. -/
def State.takesTurn (s : State) (t : TileId) (k : SlotNo) : Prop :=
  (∀ x ∈ s.agenda.head?, s.gtc.toNat < x.1) ∧ (s.turn ≠ 0 ∨ nextDue s = none)
    ∧ nextTurn s = some (2 * t.toNat + 1) ∧ s.presenter t.toNat = some k
    ∧ ∀ j : SlotNo, ((s.tile t.toNat).slot j).primary.owed = []

/-- The state in which the context presents its bundle: it is at the cursor, and the landings of the bundle are committed. -/
def State.atTurn (s : State) (t : TileId) (k : SlotNo) : State :=
  ({ s with turn := 2 * t.toNat + 2, cur := { tile := t, slot := k, pos := .sa } } : State).commitLandings

/-- A presentation comes to the checks of its bundle: no stream is replayed, no value is late, no landing is poisoned, no
vote holds the context, and its fetch is sound. -/
def State.reachesChecks (s : State) (t : TileId) (k : SlotNo) : Prop :=
  let s0 : State := { s with turn := 2 * t.toNat + 2, cur := { tile := t, slot := k, pos := .sa } }
  let s1 := s.atTurn t k
  s0.me.log.replay = false ∧ s0.me.late s.gtc.toNat = false ∧ s1.me.poisoned = none ∧ voteHeld s1 s1.me = false
    ∧ fetchTrap s1 = none

/-- Nothing stands between a presentation and its block check: it comes to the checks of its bundle, none of them fails,
Tongs brings no engine trap, and no event is pending. -/
def State.presents (s : State) (t : TileId) (k : SlotNo) : Prop :=
  let s1 := s.atTurn t k
  s.reachesChecks t k ∧ bundleTrap s1 s1.fetch = none
    ∧ (if s1.me.sup then s1.pullTraps.keepOverflow else s1.pullTraps) = s1 ∧ s1.me.delivery = none

/-- The landing of a value known in the issue cycle, at L bundles after the present one. -/
def State.landed (s : State) (w : Write) (lat : Nat) : Landing :=
  Landing.ready w (s.me.bcnt + BitVec.ofNat 64 lat) s.gtc.toNat s.cur.pos

/-- Lane l of a vector: bits w·l + w − 1 down to w·l (R354). -/
def laneNat (w : LaneW) (v : Vec) (l : Nat) : Nat := v.toNat / 2 ^ (w.bits * l) % 2 ^ w.bits

/-- The syllable lands, at L, v_D with the value of f in each lane that the mask m_M makes active and its old value in the
others, and ORs the flags of the active lanes into FSTAT (R354, R390, R118). Nothing else of the state changes. -/
def State.landsLanes (s : State) (o : Host.Outcome State Fault Refusal) (w : LaneW) (d : VReg) (m : MReg) (lat : Nat)
    (f : Nat → Rounded) : Prop :=
  ∃ (v : Vec) (fl : Flags), o = .next (s.landFlags (.v d v) lat fl)
    ∧ (∀ l, l < w.lanes → laneNat w v l =
        if (s.me.mreg m).getLsbD (l * w.bits / 32) then (f l).1 % 2 ^ w.bits else laneNat w (s.me.vreg d) l)
    ∧ (∀ i, i < 7 → (fl.getLsbD i = true ↔
        ∃ l, l < w.lanes ∧ (s.me.mreg m).getLsbD (l * w.bits / 32) = true ∧ (f l).2.getLsbD i = true))

/-- An access that the context of the cursor performs itself passes its checks: its form, its alignment and its record
allow it, the tables translate all of it, no part lies in another pod, and each entry permits it (R137, R138, R169 to
R171, R265). -/
def State.translated (s : State) (g : Target) (perm : BitVec 4) : Prop :=
  formCheck s g = none ∧ s.me.answer = none ∧ g.needs s s.cur.tile.toNat s.me.asid = []
    ∧ podTrap s.node (g.desc s s.cur.tile.toNat s.me.asid) g.tval = none ∧ permTrap perm (s.foundHere g) g.tval = none

/-- A queue that is configured and has room for one more element (R327). -/
def State.queueRoom (s : State) (q : HReg) : Bool := (s.me.queue q).configured && !(s.me.queue q).full

/-- The state in which the next object number has been drawn. -/
def State.numbered (s : State) : State := { s with nextId := s.nextId + 1 }

/-- The tail element of a queue reserved for a load (R327). -/
def State.reserved (s : State) (q : HReg) (id : Nat) : State :=
  s.modMe (fun c => c.setQueue q { c.queue q with resv := (c.queue q).resv ++ [{ id := id, done := none, logAt := none }] })

/-- A landing at L that waits for the value of an operation (R96). -/
def State.awaited (s : State) (w : Write) (lat id : Nat) : State :=
  s.modMe (fun c => c.addLanding
    { Landing.waiting w (c.bcnt + BitVec.ofNat 64 lat) id s.cur.pos with key := tongsKey c.bcnt s.cur.pos })

end Sys2Proof.Machine
end

