-- ==== Sys2Proof/Certificates/Slice0/Obligations.lean ====
section
/-! DEFINITION. The statements for the provers: each is a proposition about the model, for every state and all operands
that its hypotheses allow. -/

open Sys2Proof Sys2Proof.Machine

/-! ### The whole machine -/

/-- A step runs the decoded instruction: where the bundle at the PC holds one syllable, in slot p under a true guard,
that decodes to the instruction i, and sets no POP bit and no STAMP, the step is exec of i at slot p, the queue heads
that i reads having been observed (R182), and then, where the instruction has issued, the end of the bundle and its
core accesses' conflict with the gather unit (R144). -/
def Obligations.StepRunsTheDecodedInstruction : Prop :=
  ∀ (s : State) (t : TileId) (k : SlotNo) (p : Pos) (i : Instr) (m : Meaning), s.takesTurn t k → s.presents t k →
    let s1 := s.atTurn t k
    let b := s1.fetch
    let s2 := (s1.observe (headHistory s1.me m.heads)).atPos p
    b.decodeAt p = .ok i → guardOn s1.me (b.guard p) = true → meaningOf i = some m
      → (∀ q, q ≠ p → b.decodeAt q = .empty) → b.pop = 0 → b.stamp = 0
      → ∃ u, exec i s2 = .next u
        ∧ ((∃ v, issueActive [(p, m)] 0 0 s2 = .issued v ∧ u = v
            ∧ step s = .next (((u.noteOwed s1.me b).endBundle b).gatherConflict s1.me b))
          ∨ ((∀ v, issueActive [(p, m)] 0 0 s2 ≠ .issued v) ∧ step s = .next (u.atPos .sa)))

/-- R62: where a context takes its turn and nothing stands before the block check, the step presents the bundle at its
PC: its active syllables issue together. -/
def Obligations.StepPresentsTheBundle : Prop :=
  ∀ (s : State) (t : TileId) (k : SlotNo), s.takesTurn t k → s.presents t k →
    step s = .next ((s.atTurn t k).issueBundle (s.atTurn t k).fetch)

/-- R44, R46, R62: at the end of a bundle that sets no POP bit and not RSP, and whose syllables have put nothing off
to it (no redirect, no ERET, EXIT or YIELD), BCNT grows by one, and the next bundle is at PC + 32 where no redirect
takes effect and at its target where one does; the registers, the predicates, the queues, the landing queue and the
status stand, and so do every other context, tile and memory. -/
def Obligations.BundleEndAdvances : Prop :=
  ∀ (s : State) (b : Bundle), b.pop = 0 → b.rsp = false → s.me.deferred = [] →
    let u := s.endBundle b
    u.me.bcnt = s.me.bcnt + 1
      ∧ ((∀ r ∈ s.me.redirects, r.due ≠ s.me.bcnt + 1) → u.me.pc = s.me.pc + 32 ∧ u.me.redirects = s.me.redirects)
      ∧ (∀ r, s.me.redirects.find? (fun r => r.due == s.me.bcnt + 1) = some r → u.me.pc = r.target)
      ∧ u.me.status = s.me.status ∧ u.me.regs = s.me.regs ∧ u.me.special = s.me.special
      ∧ u.me.landing = s.me.landing ∧ u.me.queues = s.me.queues ∧ u.me.loops = s.me.loops ∧ u.me.sup = s.me.sup
      ∧ (∀ x k c, (x ≠ s.cur.tile.toNat ∨ k ≠ s.cur.slot ∨ c = .second) → u.ctx x k c = s.ctx x k c)
      ∧ (∀ x, (u.tile x).scratch = (s.tile x).scratch) ∧ u.hbm = s.hbm ∧ u.lpddr = s.lpddr ∧ u.flights = s.flights

/-- R49: a bundle with HK ≠ 00 or bit 59 = 1 raises ILLEGAL_BUNDLE at its presentation, with the header as TVAL. -/
def Obligations.ReservedHeaderBitsTrap : Prop :=
  ∀ (s : State) (t : TileId) (k : SlotNo), s.takesTurn t k → s.reachesChecks t k →
    let s1 := s.atTurn t k
    let w := s1.fetch.w0
    (fld w 62 2 ≠ 0 ∨ w.getLsbD 59 = true) → step s = .next (s1.raise { name := .illegalBundle, tval := w })

/-- R57, R452, R52, R44, R62: an operand outside what its entry gives raises ILLEGAL_OP, and an instruction of SA or
VB in the other slot of its class raises SLOT_MISMATCH, whatever the guard. A POP bit of an unconfigured queue raises
QUEUE_CONFIG with the lowest such queue, after the header's checks and before those of the syllables. -/
def Obligations.BundleChecksTrap : Prop :=
  (∀ (i : Instr) (m : Meaning) (s : State), meaningOf i = some m →
    (i.wf = false → exec i s = .next (s.raise { name := .illegalOp, tval := sylTval (instrBits i) s.cur.pos }))
    ∧ (i.wf = true → m.illegal s = false → slotOk i s.cur.pos = false →
        exec i s = .next (s.raise { name := .slotMismatch, tval := sylTval (instrBits i) s.cur.pos })))
  ∧ ∀ (s : State) (t : TileId) (k : SlotNo) (p : Pos) (q : HReg), s.takesTurn t k → s.reachesChecks t k →
    let s1 := s.atTurn t k
    let b := s1.fetch
    b.headerOk s1.me.det = true →
      (b.pop.getLsbD q.toNat = true → (s1.me.queue q).configured = false →
        (∀ r : HReg, r.toNat < q.toNat → b.pop.getLsbD r.toNat = true → (s1.me.queue r).configured = true) →
          step s = .next (s1.raise { name := .queueConfig, tval := q.setWidth 64 }))
      ∧ (b.pop = 0 → (∀ r : Pos, r.toNat < p.toNat → b.decodeAt r = .empty) →
          (b.decodeAt p = .illegalOp → step s = .next (s1.raise { name := .illegalOp, tval := sylTval (b.syl p) p }))
          ∧ (∀ i m, b.decodeAt p = .slotMismatch i → meaningOf i = some m → m.illegal (s1.atPos p) = false →
              step s = .next (s1.raise { name := .slotMismatch, tval := sylTval (b.syl p) p })))

/-- An instruction of the instruction set comes to a next state in every state, whatever its operands: what stops it
is a trap, a block or a wait that the spec describes. No instruction and no event is refused, and the only fault is
the model's own, of an event that reaches a place outside every memory (DEDUCED, log entry 16). -/
def Obligations.OnlyAbsentMemoryStops : Prop :=
  ∀ (i : Instr) (s : State),
    (meaningOf i ≠ none → ∃ t, exec i s = .next t)
    ∧ (∀ r, exec i s ≠ .refused r)
    ∧ (∀ f, exec i s = .fault f → f = .absentMemory ∧ ((∃ n u x, i = .homePortAccess n u x) ∨ (∃ n u, i = .incomingNWrite n u)
        ∨ (∃ t c n x, i = .transferChunk t c n x)))

/-- Every step keeps every memory of the package in canonical form: addresses strictly rising, and no byte listed that
an unlisted address reads as. Equal memories are then equal data. -/
def Obligations.StepKeepsMemoriesCanonical : Prop :=
  ∀ s t : State, s.memoriesCanonical = true → step s = .next t → t.memoriesCanonical = true

/-- The state after reset meets the invariant of the memories. -/
def Obligations.ResetInvariant : Prop :=
  State.reset.memoriesCanonical = true

/-- Table 4-1, Table 16-7, Table 16-9, Table 17-2, Table 17-3, Table 17-5, Table 13-5: what reset leaves, for the
state that the spec gives a reset value. -/
def Obligations.ResetState : Prop :=
  let s := State.reset
  s.gtc = 0 ∧ s.records = [] ∧ s.flights = []
    ∧ (∀ t k b, (s.ctx t k b).status = .free ∧ (s.ctx t k b).landing = [])
    ∧ (∀ q : BitVec 3, (s.queueOf q).prod = 0 ∧ (s.queueOf q).cons = 0 ∧ (s.queueOf q).err = false)
    ∧ (∀ t i, (s.tile t).mxu.accAt i = Quire.zero)
    ∧ s.platform.resetting = none ∧ s.platform.evqBase = 0 ∧ s.platform.evqSize = 0 ∧ s.platform.evqProd = 0
    ∧ s.platform.evqCons = 0 ∧ s.platform.evqOvf = false ∧ s.platform.reserve = []
    ∧ (∀ d : Fin 17, s.platform.dieMap[d] = (true, BitVec.ofNat 5 d.val))
    ∧ (∀ m : Fin 5, s.platform.meters[m] = 0)
    ∧ natBits s.platform.ebud.toNat 32 16 = 3125 ∧ natBits s.platform.ebud.toNat 0 32 = 2800000
    ∧ natBits s.platform.ebud.toNat 48 16 = 0
    ∧ s.platform.emergency = false ∧ s.platform.outlet = 0 ∧ s.platform.hottest = 0
    ∧ bar0Read s.platform 0x1000 = 0 ∧ bar0Read s.platform 0x1008 = 0 ∧ bar0Read s.platform 0x1050 = 0
    ∧ (∀ q : BitVec 3, (s.queueOf q).pointer = 0)

/-! ### Encodings -/

/-- Each of these words, written from the encoding tables of the spec, decodes to the instruction that it stands for.
-/
def Obligations.WordsDecode : Prop :=
  decodeSpace .scalar 0b0000001_000011_000001_000010_000 none = some (.add .x64 3 1 2)
  ∧ decodeSpace .scalar 0b0011011_000011_000001_000010_010 none = some (.cmp .lt 3 1 2)
  ∧ decodeSpace .scalar 0b0100000_000100_000100_001000000 none = some (.addi 4 4 (.short 64))
  ∧ decodeSpace .scalar 0b0100101_001001_000000_000000000 (some 0x186A0) = some (.movi 9 (.long 0x186A0))
  ∧ decodeSpace .scalar 0b0110001_111111_000000_010000000 none = some (.brl 63 (.short 128))
  ∧ decodeSpace .scalar 0b1000001_000000_000100_000010001 none = some (.mtsr .fstat 4)
  ∧ decodeSpace .vector 0b00000001_00001_00010_00011_0000_00 none = some (.vand 1 2 3 0)
  ∧ decodeSpace .vector 0b00011101_00100_00101_00110_0000_01 none = some (.vadd (.tap .w16 1) 4 5 6 0)
  ∧ decodeSpace .vector 0b11011010_00010_00011_01000_0000_10 none = some (.vcvt true .e4m3 .f32 2 3 0)
  ∧ decodeSpace .vector 0b10010100_00000_00001_00010_0000_01 none = some (.qdot (.tap .w16 0) 0 1 2 0)
  ∧ decodeSpace .memory 0b000001_000101_000100_001_0000100 none = some (.lds .i32 5 4 (.short 4))
  ∧ decodeSpace .memory 0b011010_100010_001010_001011_0000 none = some (.vldd 2 10 11)
  ∧ decodeSpace .memory 0b011100_001000_001010_001011_0100 none = some (.aadd 8 10 11 (.rel .pkg))
  ∧ decodeSpace .memory 0b100110_000000_000000_00000_1_0_100 none = some (.fence .full .pkg)
  ∧ decodeSpace .extended 0b000001_0001010101_0_1_0_001_0000000 none = some (.mcall 85 (.rel .tile))
  ∧ decodeSpace .extended 0b010000_001100_01_000000000000000 none = some (.xcpy 1 12)
  ∧ decodeSpace .extended 0b100010_010_00000000000000000000 none = some (.sbar 2)
  ∧ decodeSpace .extended 0b110011_0000000_0000000000000101 none = some (.sys 5)
  ∧ decodeSpace .scalar 0b1010000_000000_000000_000000_000 none = none

/-- R42 to R71: every well-formed instruction of the instruction set has an encoding, its syllable decodes to it, and
so does the bundle that carries the syllable alone in its first slot (NOP is the empty bundle). -/
def Obligations.DecodeOfEncode : Prop :=
  ∀ i : Instr, i.wf = true → meaningOf i ≠ none →
    ∃ y : Syllable, encode i = some y ∧ decodeSpace y.space y.bits y.limm = some i
      ∧ (i ≠ .nop → (Bundle.single (i.homeSlot y.space) y).decode false = .ok [(i.homeSlot y.space, i)])

/-- R57: a syllable without LIMM that the decoder accepts is the encoding of its instruction: no bit of it is ignored.
The first syllable of a pair has 28 bits. -/
def Obligations.EncodeOfDecode : Prop :=
  ∀ (sp : OpSpace) (w : BitVec 29) (i : Instr),
    ((sp = .scalar ∨ sp = .memory) → w.getLsbD 28 = false) → decodeSpace sp w none = some i →
      encode i = some { space := sp, bits := w, limm := none }

/-! ### Scalar instructions -/

/-- R324: Ext(v[w−1:0], X). The unsigned codes zero-extend the low w bits and the signed ones sign-extend them; X 0
takes all 64 bits. R329, R364, R386, R422, R360: ADD, AND, ANDN, OR, SUB, XOR and MOV issue in every state and land
the extended result in s_D at L = 1; nothing else of the state changes. -/
def Obligations.AddLogicMoveLand : Prop :=
  (∀ v : Word,
    TypeCode.ext .x64 v = v
    ∧ (TypeCode.ext .i32 v).toInt = (v.setWidth 32).toInt ∧ (TypeCode.ext .n32 v).toNat = v.toNat % 2 ^ 32
    ∧ (TypeCode.ext .i16 v).toInt = (v.setWidth 16).toInt ∧ (TypeCode.ext .n16 v).toNat = v.toNat % 2 ^ 16
    ∧ (TypeCode.ext .i8 v).toInt = (v.setWidth 8).toInt ∧ (TypeCode.ext .n8 v).toNat = v.toNat % 2 ^ 8)
  ∧ (∀ (s : State) (x : TypeCode) (d a b : SReg),
    exec (.add x d a b) s = .next (s.land (.s d (TypeCode.ext x (s.me.sreg a + s.me.sreg b))) 1)
    ∧ exec (.and x d a b) s = .next (s.land (.s d (TypeCode.ext x (s.me.sreg a &&& s.me.sreg b))) 1)
    ∧ exec (.andn x d a b) s = .next (s.land (.s d (TypeCode.ext x (s.me.sreg a &&& ~~~(s.me.sreg b)))) 1)
    ∧ exec (.or x d a b) s = .next (s.land (.s d (TypeCode.ext x (s.me.sreg a ||| s.me.sreg b))) 1)
    ∧ exec (.sub x d a b) s = .next (s.land (.s d (TypeCode.ext x (s.me.sreg a - s.me.sreg b))) 1)
    ∧ exec (.xor x d a b) s = .next (s.land (.s d (TypeCode.ext x (s.me.sreg a ^^^ s.me.sreg b))) 1)
    ∧ exec (.mov x d a) s = .next (s.land (.s d (TypeCode.ext x (s.me.sreg a))) 1))

/-- R377: SHL, SHR, SRA and ROL take the low w bits of s_A as the operand and s_B mod w as the count. Bit i of the
w-bit result is given before extension: SHL bit i − n, SHR bit i + n, SRA bit i + n or the sign, ROL bit (i − n) mod
w. -/
def Obligations.ShiftsLand : Prop :=
  ∀ (s : State) (x : TypeCode) (d a b : SReg),
    let w := TypeCode.width x
    let n := (s.me.sreg b).toNat % w
    let v := s.me.sreg a
    ∃ l r q o : Word,
      (exec (.shl x d a b) s = .next (s.land (.s d (TypeCode.ext x l)) 1)
        ∧ exec (.shr x d a b) s = .next (s.land (.s d (TypeCode.ext x r)) 1)
        ∧ exec (.sra x d a b) s = .next (s.land (.s d (TypeCode.ext x q)) 1)
        ∧ exec (.rol x d a b) s = .next (s.land (.s d (TypeCode.ext x o)) 1))
      ∧ ∀ i, i < w →
        l.getLsbD i = (decide (n ≤ i) && v.getLsbD (i - n))
        ∧ r.getLsbD i = (decide (i + n < w) && v.getLsbD (i + n))
        ∧ q.getLsbD i = v.getLsbD (Nat.min (i + n) (w - 1))
        ∧ o.getLsbD i = v.getLsbD ((i + w - n) % w)

/-- R362: with P the exact product of the narrowed operands, MUL lands P[w−1:0], MULH and MULHN P[2w−1:w], at L = 3.
MULH is signed and admits X 0, 1, 3 and 5; MULHN is unsigned and admits X 0, 2, 4 and 6. -/
def Obligations.ProductsLand : Prop :=
  ∀ (s : State) (x : TypeCode) (d a b : SReg),
    exec (.mul x d a b) s
        = .next (s.land (.s d (TypeCode.extNat x (TypeCode.low x (s.me.sreg a) * TypeCode.low x (s.me.sreg b)))) 3)
    ∧ (x.signedOk = true → exec (.mulh x d a b) s = .next (s.land (.s d (TypeCode.extInt x
        (TypeCode.lowInt x (s.me.sreg a) * TypeCode.lowInt x (s.me.sreg b) / 2 ^ TypeCode.width x))) 3))
    ∧ (x.unsignedOk = true → exec (.mulhn x d a b) s = .next (s.land (.s d (TypeCode.extNat x
        (TypeCode.low x (s.me.sreg a) * TypeCode.low x (s.me.sreg b) / 2 ^ TypeCode.width x))) 3))

/-- R355, R334, R366: MAX and MIN compare the narrowed operands as signed, MAXN and MINN as unsigned, and land the
operand that they choose; CLZ, CTZ and POPC land counts of the low w bits. The counts are characterised by the bits of
the operand. -/
def Obligations.PicksAndCountsLand : Prop :=
  ∀ (s : State) (x : TypeCode) (d a b : SReg),
    let p := s.me.sreg a
    let q := s.me.sreg b
    let w := TypeCode.width x
    (x.signedOk = true →
      exec (.max x d a b) s
          = .next (s.land (.s d (TypeCode.extInt x (Max.max (TypeCode.lowInt x p) (TypeCode.lowInt x q)))) 1)
        ∧ exec (.min x d a b) s
          = .next (s.land (.s d (TypeCode.extInt x (Min.min (TypeCode.lowInt x p) (TypeCode.lowInt x q)))) 1))
    ∧ (x.unsignedOk = true →
      exec (.maxn x d a b) s
          = .next (s.land (.s d (TypeCode.extNat x (Max.max (TypeCode.low x p) (TypeCode.low x q)))) 1)
        ∧ exec (.minn x d a b) s
          = .next (s.land (.s d (TypeCode.extNat x (Min.min (TypeCode.low x p) (TypeCode.low x q)))) 1)
        ∧ ∃ lz tz : Nat,
          exec (.clz x d a) s = .next (s.land (.s d (BitVec.ofNat 64 lz)) 1)
          ∧ exec (.ctz x d a) s = .next (s.land (.s d (BitVec.ofNat 64 tz)) 1)
          ∧ exec (.popc x d a) s = .next (s.land (.s d (BitVec.ofNat 64
              ((List.range w).filter (fun i => p.getLsbD i)).length)) 1)
          ∧ lz ≤ w ∧ (∀ i, w - lz ≤ i → i < w → p.getLsbD i = false) ∧ (lz < w → p.getLsbD (w - 1 - lz) = true)
          ∧ tz ≤ w ∧ (∀ i, i < tz → p.getLsbD i = false) ∧ (tz < w → p.getLsbD tz = true))

/-- R330, R361, R364, R422, R382, R335, R365, R363: the immediate forms, SEL, compares, predicate logic and NOP. -/
def Obligations.ImmediatesSelectsComparesLand : Prop :=
  ∀ (s : State) (d a b : SReg) (imm : Lit 9) (imm6 : Lit 6) (sc : SelCond) (cc : CmpCond) (p q r : PReg) (op : PlogOp),
    exec (.addi d a imm) s = .next (s.land (.s d (s.me.sreg a + litSigned imm)) 1)
    ∧ exec (.andi d a imm) s = .next (s.land (.s d (s.me.sreg a &&& litSigned imm)) 1)
    ∧ exec (.ori d a imm) s = .next (s.land (.s d (s.me.sreg a ||| litUnsigned imm)) 1)
    ∧ exec (.xori d a imm) s = .next (s.land (.s d (s.me.sreg a ^^^ litSigned imm)) 1)
    ∧ exec (.movi d imm) s = .next (s.land (.s d (litSigned imm)) 1)
    ∧ exec (.movhi d a imm) s = .next (s.land (.s d (s.me.sreg a * 2 ^ 24 + litUnsigned imm)) 1)
    ∧ exec (.sel sc d a b) s
        = .next (s.land (.s d (if sc.holds (s.me.sreg a) then s.me.sreg b else s.me.sreg d)) 1)
    ∧ exec (.cmp cc p a b) s = .next (s.land (.p p (cc.holds (s.me.sreg a) (s.me.sreg b))) 1)
    ∧ exec (.cmpi cc p a imm6) s = .next (s.land (.p p (cc.holds (s.me.sreg a) (litSigned imm6))) 1)
    ∧ exec (.plog op p q r) s = .next (s.land (.p p (op.apply (s.me.preg q) (s.me.preg r))) 1)
    ∧ exec .nop s = .next s

/-- R338, R375, R91: where the slot's divider is free, the quotient or the remainder, truncated toward zero, lands at
L = 18 and the divider is busy for 18 bundles of the context. In each of DIV, REM, DIVN and REMN a zero divisor raises
DIV_ZERO with the slot number as TVAL, and a divider still busy with a divide of the same context raises OCCUPANCY
with the bundle of that divide. That the divider of the tile is held against other contexts to GTC + 18, in cycles, is
the model's choice (log entry 44). (Complete: div, divn, rem, remn.) R350, R351, R238, R239: LOOP decrements s_D and
returns to its top while the result is not 0; the start form of LOOPM pushes a loop of M·N·K passes and its end form
takes the next pass or drops the loop, each with the registers of the pass; counts of 0 and reserved bits of the
counts raise LOOP_NEST with s_A as TVAL, and a third loop and an end without a loop raise it with TVAL 0. (Complete:
loop, loopmStart, loopmEnd.) -/
def Obligations.DividesAndLoopsAct : Prop :=
  (∀ (s : State) (x : TypeCode) (d a b : SReg),
    let i := dividerOf s.cur.pos
    let free := ¬ ((s.here.dividers[i.val]'i.isLt).2 ≠ s.me.uid ∧ s.gtc.toNat < (s.here.dividers[i.val]'i.isLt).1)
    let after (v : Word) : State :=
      ((s.land (.s d v) 18).modMe (fun c => { c with divider := c.divider.set i.val (some c.bcnt) i.isLt })).modHere
        (fun t => { t with dividers := t.dividers.set i.val (s.gtc.toNat + 18, s.me.uid) i.isLt })
    let p := TypeCode.lowInt x (s.me.sreg a)
    let q := TypeCode.lowInt x (s.me.sreg b)
    let u := TypeCode.low x (s.me.sreg a)
    let v := TypeCode.low x (s.me.sreg b)
    let zero : State := s.raise { name := .divZero, tval := BitVec.ofNat 64 s.cur.pos.toNat }
    let busy (b0 : Word) : State := s.raise { name := .occupancy, tval := b0 }
    free →
      (dividerSpan s.me s.cur.pos = none → v ≠ 0 →
        (x.signedOk = true →
          exec (.div x d a b) s = .next (after (TypeCode.extInt x (p.tdiv q)))
          ∧ exec (.rem x d a b) s = .next (after (TypeCode.extInt x (p.tmod q))))
        ∧ (x.unsignedOk = true →
          exec (.divn x d a b) s = .next (after (TypeCode.extNat x (u / v)))
          ∧ exec (.remn x d a b) s = .next (after (TypeCode.extNat x (u % v)))))
      ∧ (dividerSpan s.me s.cur.pos = none → v = 0 →
        (x.signedOk = true → exec (.div x d a b) s = .next zero ∧ exec (.rem x d a b) s = .next zero)
        ∧ (x.unsignedOk = true → exec (.divn x d a b) s = .next zero ∧ exec (.remn x d a b) s = .next zero))
      ∧ (∀ b0, dividerSpan s.me s.cur.pos = some b0 →
        (x.signedOk = true → exec (.div x d a b) s = .next (busy b0) ∧ exec (.rem x d a b) s = .next (busy b0))
        ∧ (x.unsignedOk = true → exec (.divn x d a b) s = .next (busy b0) ∧ exec (.remn x d a b) s = .next (busy b0)))
      ∧ (∀ b0, (s.me.divider[i.val]'i.isLt = some b0 ∧ (s.me.bcnt - b0).toNat < 18) ↔ dividerSpan s.me s.cur.pos = some b0))
  ∧ (∀ (s : State) (d a : SReg) (b : PReg) (off : BitVec 9), s.cur.pos = .sa →
    let t := s.me.sreg d - 1
    let v := s.me.sreg a
    let l := loopCounts v
    (l.m = v.toNat % 2 ^ 16 ∧ l.n = v.toNat / 2 ^ 16 % 2 ^ 16 ∧ l.k = v.toNat / 2 ^ 32 % 2 ^ 16
      ∧ l.depth = v.toNat / 2 ^ 48 % 2 ^ 3 + 1)
    ∧ (d ≠ 0 → exec (.loop d off) s = .next (if t = 0 then s.land (.s d t) 1
        else (s.land (.s d t) 1).defer (.loopTo (s.me.pc + off.signExtend 64 * 32))))
    ∧ (loopmPredOk b = true →
      (l.m ≠ 0 → l.n ≠ 0 → l.k ≠ 0 → v >>> 51 = 0 → s.me.loops.length < 2 →
        exec (.loopmStart d b a) s = .next ((landStages (landPass d b l s)).defer (.loopPush l)))
      ∧ (l.m = 0 ∨ l.n = 0 ∨ l.k = 0 ∨ v >>> 51 ≠ 0 →
        exec (.loopmStart d b a) s = .next (s.raise { name := .loopNest, tval := v }))
      ∧ (l.m ≠ 0 → l.n ≠ 0 → l.k ≠ 0 → v >>> 51 = 0 → 2 ≤ s.me.loops.length →
        exec (.loopmStart d b a) s = .next (s.raise { name := .loopNest, tval := 0 }))
      ∧ (∀ l0 rest, s.me.loops = l0 :: rest →
        let l1 : LoopState := { l0 with i := l0.i + 1 }
        exec (.loopmEnd d b) s = .next (if l1.i < l1.total + l1.depth - 1
          then ((landPass d b l1 s).defer (.loopSet l1)).defer (.loopTo l1.top)
          else (landPass d b l1 s).defer .loopDrop))
      ∧ (s.me.loops = [] → exec (.loopmEnd d b) s = .next (s.raise { name := .loopNest, tval := 0 }))))

/-! ### Control and system instructions -/

/-- R92, R331, R332: a taken branch in SA sets a redirect to its target that takes effect three bundles after its own;
BRL and BRI link PC + 96; a BRI to an address that is no bundle address raises ALIGN. -/
def Obligations.BranchesRedirect : Prop :=
  ∀ (s : State) (d a : SReg) (disp : Lit 9), s.cur.pos = .sa →
    let target := s.me.pc + litSigned disp * 32
    exec (.br disp) s = .next (s.defer (.branch target))
    ∧ exec (.brl d disp) s = .next ((s.land (.s d (s.me.pc + 96)) 1).defer (.branch target))
    ∧ ((s.me.sreg a).toNat % 32 = 0 → exec (.bri d a) s
        = .next ((if d = 0 then s else s.land (.s d (s.me.pc + 96)) 1).defer (.branch (s.me.sreg a))))
    ∧ ((s.me.sreg a).toNat % 32 ≠ 0 → exec (.bri d a) s = .next (s.raise { name := .align, tval := s.me.sreg a }))
    ∧ (∀ u : State, u.applyDeferred (.branch target)
        = u.modMe (fun c => { c with redirects := c.redirects ++ [{ due := c.bcnt + 3, target := target }] }))
    ∧ (∀ c : Context, ∀ r, c.redirects.find? (fun r => r.due == c.bcnt + 1) = some r → nextPc c = r.target)

/-- R357, R358, R21, R161: MFSR lands the value that the register has for its bundle, at L = 1; an MTSR to a register
that is not RO writes it at the end of the bundle, and LREQ and XREQ in the issue cycle, with the counts of that cycle
added; an MTSR to an RS register in user mode raises PRIV, and one to an RO register ILLEGAL_OP. A context that is no
replica and has no log stream (R273, R283) reads so; the word of a register that holds an uncorrectable error lands
poisoned (R307), with a TVAL whose bits outside the fields of R308 are 0 (the fields are a free value, log entry 1).
(Complete: mfsr, mtsr.) What each register reads (Tables 2-2, 3-17, 4-7, 6-1, 7-6, 14-1), what a write of it leaves
(Table 19-2), and that it leaves every other register. -/
def Obligations.SpecialRegistersMove : Prop :=
  (∀ (s : State) (d a : SReg) (r : SpecReg),
    let word : BadWord := .special s.cur.tile.toNat s.cur.slot.toNat r.num.toNat
    let counts : Word × Word := if s.here.counted.1 = s.gtc.toNat then s.here.counted.2 else (0, 0)
    (s.me.plain = true → word ∉ s.bad → exec (.mfsr d r) s = .next (s.land (.s d (specRead s r)) 1))
    ∧ (s.me.plain = true → word ∈ s.bad → ∃ x : Word, x &&& 0x1FF0000000000000 = 0 ∧ exec (.mfsr d r) s
        = .next (({ s with drawn := s.drawn + 1 } : State).modMe (fun c => c.addLanding
            { ({ s with drawn := s.drawn + 1 } : State).landed (.s d (specRead s r)) 1 with poison := some x })))
    ∧ (r.readOnly = false → (r.supervisorOnly = true → s.me.sup = true) → r ≠ .lreq → r ≠ .xreq →
        exec (.mtsr r a) s = .next (s.defer (.mtsr r (s.me.sreg a))))
    ∧ (∀ (u : State) (x : Word), u.applyDeferred (.mtsr r x) = u.modMe (fun c => c.writeSpec r x))
    ∧ exec (.mtsr .lreq a) s = .next (s.modHere (fun t => { t with lreq := s.me.sreg a + counts.1 }))
    ∧ exec (.mtsr .xreq a) s = .next (s.modHere (fun t => { t with xreq := s.me.sreg a + counts.2 }))
    ∧ (r.supervisorOnly = true → s.me.sup = false → exec (.mtsr r a) s = .next (s.raise (privTrap (.mtsr r a) s)))
    ∧ (r.readOnly = true → ∃ tv, exec (.mtsr r a) s = .next (s.raise { name := .illegalOp, tval := tv })))
  ∧ ((∀ s : State,
    specRead s .gtc = s.gtc ∧ specRead s .bcnt = s.me.bcnt ∧ specRead s .asid = s.me.asid.setWidth 64
    ∧ (specRead s .ctx).toNat = s.me.nlev.toNat * 2 ^ 12 + s.me.det.toNat * 2 ^ 11 + s.me.prio.toNat * 2 ^ 8
        + s.me.sup.toNat * 2 ^ 3 + s.cur.slot.toNat
    ∧ (specRead s .tile).toNat = s.node.toNat * 2 ^ 32
        + (2 * (s.cur.tile.toNat / 512) + s.cur.tile.toNat % 32 / 16) * 2 ^ 10 + s.cur.tile.toNat
    ∧ (s.me.det = false → specRead s .sfc = 0)
    ∧ (s.me.det = true → s.me.pulseAt = none → (specRead s .sfc).toNat = s.me.sstep.toNat * 2 ^ 48)
    ∧ (∀ p, s.me.det = true → s.me.pulseAt = some p → (specRead s .sfc).toNat
        = s.me.sstep.toNat * 2 ^ 48 + Nat.min (s.gtc.toNat - p) (2 ^ 48 - 1))
    ∧ (s.groupOf s.me = none → (specRead s .rgrp).toNat
        = s.me.log.replay.toNat * 2 ^ 7 + (s.me.log.active && !s.me.log.replay).toNat * 2 ^ 6)
    ∧ (∀ g, s.groupOf s.me = some g → specRead s .rgrp
        = BitVec.ofNat 64 (s.me.log.replay.toNat * 2 ^ 7 + (s.me.log.active && !s.me.log.replay).toNat * 2 ^ 6)
          ||| g.live.setWidth 64 <<< 12 ||| g.lead.setWidth 64 <<< 10 ||| s.me.replica.stack.setWidth 64 <<< 8
          ||| g.red.setWidth 64 <<< 2 ||| g.red0.setWidth 64)
    ∧ specRead s .lreq = s.here.lreq ∧ specRead s .xreq = s.here.xreq
    ∧ specRead s .tdm = s.me.special.tdm ∧ specRead s .lstall = s.me.special.lstall
    ∧ specRead s .spmerr = s.me.special.spmerr ∧ specRead s .fstat = s.me.special.fstat
    ∧ specRead s .qcfg = s.me.special.qcfg ∧ specRead s .keys = s.me.special.keys
    ∧ specRead s .spmode = s.me.special.spmode ∧ specRead s .tvec = s.me.special.tvec
    ∧ specRead s .tcause = s.me.special.tcause ∧ specRead s .epc = s.me.special.epc
    ∧ specRead s .tval = s.me.special.tval
    ∧ (∀ q : QReg, (specRead s .qstat).getLsbD q.toNat = (s.me.qreg q).nar
        ∧ (specRead s .qstat).getLsbD (16 + q.toNat) = (s.me.qreg q).ovf)
    ∧ (∀ i, 32 ≤ i → (specRead s .qstat).getLsbD i = false)
    ∧ [specRead s .emtr0, specRead s .emtr1, specRead s .emtr2, specRead s .emtr3, specRead s .emtr4]
        = s.platform.meters.toList
    ∧ specRead s .ebud = s.platform.ebud)
  ∧ (∀ (c : Context) (x : Word),
    (c.writeSpec .fstat x).special.fstat = x &&& 0x7F ∧ (c.writeSpec .keys x).special.keys = x &&& 0x3FFFFF
    ∧ (c.writeSpec .spmode x).special.spmode = x &&& 1 ∧ (c.writeSpec .qcfg x).special.qcfg = x &&& 1
    ∧ (c.writeSpec .tvec x).special.tvec = x &&& ~~~(0x1F : Word) ∧ (c.writeSpec .epc x).special.epc = x &&& ~~~(0x1F : Word)
    ∧ (c.writeSpec .tcause x).special.tcause = x &&& 0x1C0FF ∧ (c.writeSpec .tval x).special.tval = x
    ∧ (c.writeSpec .lstall x).special.lstall = x
    ∧ (∀ i, (c.writeSpec .spmerr x).special.spmerr.getLsbD i
        = (c.special.spmerr.getLsbD i && !(i == 63 && x.getLsbD 63)))
    ∧ (∀ q : QReg, ((c.writeSpec .qstat x).qreg q).nar = x.getLsbD q.toNat
        ∧ ((c.writeSpec .qstat x).qreg q).ovf = x.getLsbD (16 + q.toNat)
        ∧ ((c.writeSpec .qstat x).qreg q).bits = (c.qreg q).bits)
    ∧ (c.writeSpec .qstat x).regs = { c.regs with q := (c.writeSpec .qstat x).regs.q }
    ∧ (∀ r : SpecReg, r.readOnly = true ∨ r = .lreq ∨ r = .xreq → c.writeSpec r x = c)
    ∧ (∀ r : SpecReg, r ≠ .qstat → (c.writeSpec r x).regs = c.regs)
    ∧ (∀ (s : State) (r o : SpecReg), r ≠ o → specRead (s.modMe (fun c => c.writeSpec r x)) o = specRead s o)))

/-- R302, R61, R99, Table 16-3: a synchronous trap writes EPC, TVAL and TCAUSE, enters supervisor mode and goes to
TVEC. In user mode the landing queue and the redirects become the trap shadow, as distances from the trapping bundle;
in supervisor mode the shadow stays and the pending redirects are discarded. BCNT, the registers and every memory
stay. R99: the shadow that a trap has set aside comes back, at ERET, with every entry and redirect at its distance
from the bundle at the target, whatever the handler has issued between. -/
def Obligations.TrapEntryAndReturn : Prop :=
  (∀ (s : State) (tr : Trap), tr.name ≠ .memData →
    let t := s.raise tr
    t.me.special.epc = s.me.pc ∧ t.me.special.tval = tr.tval
    ∧ t.me.special.tcause = (s.me.special.tcause &&& 0x10000) ||| (if s.me.sup then 0x4000 else 0)
        ||| tr.name.code.setWidth 64
    ∧ t.me.sup = true ∧ t.me.pc = s.me.special.tvec &&& ~~~(0x1F : Word)
    ∧ t.me.bcnt = s.me.bcnt ∧ t.me.regs = s.me.regs ∧ t.me.queues = s.me.queues ∧ t.me.loops = s.me.loops
    ∧ t.me.redirects = []
    ∧ (s.me.sup = false → t.me.landing = []
        ∧ t.me.shadow = some
          { landing := s.me.landing.map (fun l => { l with due := l.due - s.me.bcnt })
            redirects := s.me.redirects.map (fun r => { r with due := r.due - s.me.bcnt }) })
    ∧ (s.me.sup = true → t.me.shadow = s.me.shadow)
    ∧ t.hbm = s.hbm ∧ t.lpddr = s.lpddr ∧ t.code = s.code
    ∧ (∀ x a, Memory.read (t.tile x).scratch a = Memory.read (s.tile x).scratch a))
  ∧ (∀ (c h : Context) (tr : Trap), c.sup = false → h.shadow = (c.enterTrap tr false).shadow → h.landing = [] →
    let r := h.leaveTrap
    r.sup = false ∧ r.shadow = none ∧ r.pc = h.special.epc &&& ~~~(0x1F : Word)
    ∧ r.landing = c.landing.map (fun l => { l with due := h.bcnt + 1 + (l.due - c.bcnt) })
    ∧ r.redirects = c.redirects.map (fun x => { x with due := h.bcnt + 1 + (x.due - c.bcnt) })
    ∧ r.regs = h.regs)

/-- R393, R387, R339, R340, R424, R383: TRAP takes the BREAK trap and SYS the SYS trap with their immediates; ERET in
supervisor mode returns at the end of its bundle and raises PRIV in user mode; EXIT drains the context and YIELD makes
it Ready at the end of their bundles; SLEEPT issues once GTC has reached s_A and blocks before. -/
def Obligations.SystemInstructionsAct : Prop :=
  ∀ (s : State) (imm : BitVec 9) (imm16 : BitVec 16) (a : SReg),
    exec (.trap imm) s = .next (s.raise { name := .brk, tval := imm.setWidth 64 })
    ∧ exec (.sys imm16) s = .next (s.raise { name := .sys, tval := imm16.setWidth 64 })
    ∧ (s.cur.pos = .sa → s.me.sup = true → exec .eret s = .next (s.defer .eret))
    ∧ (s.cur.pos = .sa → s.me.sup = false → exec .eret s = .next (s.raise (privTrap .eret s)))
    ∧ (s.cur.pos = .sa → exec .exit s = .next (s.defer .exit))
    ∧ exec .yield s = .next (s.defer .yield)
    ∧ (s.me.sreg a ≤ s.gtc → exec (.sleept a) s = .next s)
    ∧ (s.gtc < s.me.sreg a → exec (.sleept a) s = .next (s.blockOn (.sleep (s.me.sreg a))))
    ∧ (∀ c : Context, ∀ g, c.deferred = [.exit] → (c.advance g).status = .draining ∧ (c.advance g).redirects = [])
    ∧ (∀ c : Context, ∀ g, c.deferred = [.yield] → (c.advance g).status = .ready ∧ (c.advance g).age = g)
    ∧ (∀ c : Context, ∀ g, c.deferred = [.eret] → (c.advance g).pc = c.special.epc &&& ~~~(0x1F : Word)
        ∧ (c.advance g).sup = false)

/-! ### Registers -/

/-- R59, R93, R118, R126, R307: Land appends one entry to the landing queue of the context and changes nothing else of
the state: its registers, its queues and its status stay, and so do every other context and tile, the memories, the
flights, the engines, the scans, the groups, the launch queues and what leaves the package. A commit of an entry
without a poison mark writes its register and no other, and ORs its flags into FSTAT; a poisoned entry leaves every
register. At a bundle the due entries commit in their order and leave the queue, and nothing else of the context
changes. -/
def Obligations.LandingChangesOnlyTheQueue : Prop :=
  (∀ (s : State) (w : Write) (lat : Nat) (fl : Flags),
    let t := s.landFlags w lat fl
    t.me = s.me.addLanding { s.landed w lat with flags := fl }
    ∧ (∀ x k b, (x ≠ s.cur.tile.toNat ∨ k ≠ s.cur.slot ∨ b = .second) → t.ctx x k b = s.ctx x k b)
    ∧ (∀ x, x ≠ s.cur.tile.toNat → t.tile x = s.tile x)
    ∧ t.here = { s.here with slots := t.here.slots } ∧ t = { s with tiles := t.tiles })
  ∧ (∀ (c : Context) (l : Landing),
    let u := c.commitEntry l
    (∀ v, l.poison = some v → u.regs = c.regs ∧ u.special = c.special ∧ u.poisoned = some (c.poisoned.getD v))
    ∧ (l.poison = none → u.poisoned = c.poisoned
        ∧ u.special = { c.special with fstat := c.special.fstat ||| l.flags.setWidth 64 }
        ∧ ((∀ r x, l.write ≠ .q r x) → u.regs = c.regs.write l.write ∧ u.overflow = c.overflow)
        ∧ (∀ r x, l.write = .q r x →
            (u.qreg r).bits = x.bits
            ∧ (u.qreg r).nar = (x.nar || ((l.chain || c.special.qstatWritten) && (c.qreg r).nar))
            ∧ (u.qreg r).ovf = (x.ovf || ((l.chain || c.special.qstatWritten) && (c.qreg r).ovf))
            ∧ (∀ j, j ≠ r → u.qreg j = c.qreg j)
            ∧ u.regs = { c.regs with q := u.regs.q }
            ∧ (l.overflow = false ∨ c.special.qcfg.getLsbD 0 = false → u.overflow = c.overflow))))
  ∧ (∀ c : Context,
    let u := c.commitDue
    let v := (c.landing.filter (fun l => l.due == c.bcnt)).foldl Context.commitEntry c
    u.regs = v.regs ∧ u.special.fstat = v.special.fstat ∧ u.overflow = v.overflow ∧ u.poisoned = v.poisoned
    ∧ u = { c with
        regs := u.regs
        special := { c.special with fstat := u.special.fstat, qstatWritten := false }
        landing := c.landing.filter (fun l => l.due != c.bcnt)
        known := u.known
        overflow := u.overflow
        poisoned := u.poisoned
        committed := true
        stalled := none })

/-- R72, Table 3-16: s0 reads as 0, p0 as 1 and m0 as all ones, whatever is written to them; every other register
reads the value of the last write, and a write changes no register but its own. -/
def Obligations.RegistersReadAsWritten : Prop :=
  ∀ (c : Context) (w : Write) (r : SReg) (p : PReg) (v : VReg) (m : MReg) (q : QReg) (k : KReg) (x : Word) (b : Bool)
    (y : Vec) (z : Quire),
    let after (w : Write) : Context := { c with regs := c.regs.write w }
    c.sreg 0 = 0 ∧ c.preg 0 = true ∧ c.mreg 0 = BitVec.allOnes 64
    ∧ (after (.s 0 x)).regs = c.regs ∧ (after (.p 0 b)).regs = c.regs ∧ (after (.m 0 x)).regs = c.regs
    ∧ (after (.s r x)).sreg r = (if r = 0 then 0 else x) ∧ (after (.p p b)).preg p = (p == 0 || b)
    ∧ (after (.v v y)).vreg v = y ∧ (after (.m m x)).mreg m = (if m = 0 then BitVec.allOnes 64 else x)
    ∧ (after (.q q z)).qreg q = z ∧ (after (.k k x)).regs.k[k.toNat]'k.isLt = x
    ∧ (∀ r', w = .s r x → r' ≠ r → (after w).sreg r' = c.sreg r')
    ∧ ((∀ i j, w ≠ .s i j) → ∀ r', (after w).sreg r' = c.sreg r')
    ∧ (∀ p', w = .p p b → p' ≠ p → (after w).preg p' = c.preg p')
    ∧ ((∀ i j, w ≠ .p i j) → ∀ p', (after w).preg p' = c.preg p')
    ∧ (∀ v', w = .v v y → v' ≠ v → (after w).vreg v' = c.vreg v')
    ∧ ((∀ i j, w ≠ .v i j) → ∀ v', (after w).vreg v' = c.vreg v')
    ∧ (∀ m', w = .m m x → m' ≠ m → (after w).mreg m' = c.mreg m')
    ∧ ((∀ i j, w ≠ .m i j) → ∀ m', (after w).mreg m' = c.mreg m')
    ∧ (∀ q', w = .q q z → q' ≠ q → (after w).qreg q' = c.qreg q')
    ∧ ((∀ i j, w ≠ .q i j) → ∀ q', (after w).qreg q' = c.qreg q')

/-! ### Vector instructions -/

/-- R396, R398, R409, R411, R390: VAND, VOR, VXOR, VCNT, VMOVS and the seeded VRAND land their lanes in the active
lanes of v_D, and VSEL lands a lane of v_A or of v_B in every lane. R411, R273: in a context that is no replica and
has no log stream, the entropy form of VRAND lands in each active lane a word of the tile's entropy source, which
nothing constrains; two executions with other counts of drawn values draw other words of that source (log entry 1). -/
def Obligations.BitwiseLanesLand : Prop :=
  (∀ (s : State) (w : LaneW) (d a b : VReg) (r : SReg5) (m : MReg),
    let x := laneNat .w32 (s.me.vreg a)
    let y := laneNat .w32 (s.me.vreg b)
    s.landsLanes (exec (.vand d a b m) s) .w32 d m 1 (fun l => (x l &&& y l, 0))
    ∧ s.landsLanes (exec (.vor d a b m) s) .w32 d m 1 (fun l => (x l ||| y l, 0))
    ∧ s.landsLanes (exec (.vxor d a b m) s) .w32 d m 1 (fun l => (x l ^^^ y l, 0))
    ∧ s.landsLanes (exec (.vsel d a b m) s) .w32 d 0 1 (fun l => (if (s.me.mreg m).getLsbD l then x l else y l, 0))
    ∧ s.landsLanes (exec (.vcnt w d a m) s) w d m 1
        (fun l => (((List.range w.bits).filter (fun i => (laneNat w (s.me.vreg a) l).testBit i)).length, 0))
    ∧ s.landsLanes (exec (.vmovs w d r m) s) w d m 1 (fun _ => ((s.me.sreg5 r).toNat, 0))
    ∧ s.landsLanes (exec (.vrand d a m) s) .w32 d m 4 (fun l => ((mix (BitVec.ofNat 32 (x l)) l).toNat, 0)))
  ∧ (∀ (s : State) (d : VReg) (m : MReg), s.me.plain = true →
    ∃ v : Vec, exec (.vrandEnt d m) s = .next (({ s with drawn := s.drawn + 64 } : State).land (.v d v) 4)
      ∧ ∀ l, l < 64 → laneNat .w32 v l =
          if (s.me.mreg m).getLsbD l then (Config.entropy (s.drawn + l)).toNat
          else laneNat .w32 (s.me.vreg d) l)

/-- R414: VSHL lands (a · 2^c)[w−1:0], VSHR floor(a / 2^c) and VSRA floor(Signed_w(a) / 2^c)[w−1:0]; the count c is
the lane of v_B mod w, or the immediate, which is below w. -/
def Obligations.LaneShiftsLand : Prop :=
  ∀ (s : State) (w : LaneW) (d a b : VReg) (n : BitVec 5) (m : MReg),
    let x := laneNat w (s.me.vreg a)
    let c := fun l => laneNat w (s.me.vreg b) l % w.bits
    let sg := fun l => if x l < 2 ^ (w.bits - 1) then (x l : Int) else (x l : Int) - 2 ^ w.bits
    s.landsLanes (exec (.vshl w d a b m) s) w d m 1 (fun l => (x l * 2 ^ c l, 0))
    ∧ s.landsLanes (exec (.vshr w d a b m) s) w d m 1 (fun l => (x l / 2 ^ c l, 0))
    ∧ s.landsLanes (exec (.vsra w d a b m) s) w d m 1 (fun l => ((sg l / 2 ^ c l % (2 ^ w.bits : Nat)).toNat, 0))
    ∧ (n.toNat < w.bits →
        s.landsLanes (exec (.vshlImm w d a n m) s) w d m 1 (fun l => (x l * 2 ^ n.toNat, 0))
        ∧ s.landsLanes (exec (.vshrImm w d a n m) s) w d m 1 (fun l => (x l / 2 ^ n.toNat, 0))
        ∧ s.landsLanes (exec (.vsraImm w d a n m) s) w d m 1
            (fun l => ((sg l / 2 ^ n.toNat % (2 ^ w.bits : Nat)).toNat, 0)))
    ∧ (w.bits ≤ n.toNat → ∃ tv, exec (.vshlImm w d a n m) s = .next (s.raise { name := .illegalOp, tval := tv })
        ∧ ∃ tv', exec (.vshrImm w d a n m) s = .next (s.raise { name := .illegalOp, tval := tv' })
        ∧ ∃ tv'', exec (.vsraImm w d a n m) s = .next (s.raise { name := .illegalOp, tval := tv'' }))

/-- R403, R404, Table 20-5: VEXT rotates lanes by s_B; VPERM takes lanes of v_A by the lanes of v_B, or lanes of v_A
and v_B by a pattern. R399, R359: VCOMPR moves the lanes that m_M selects to the front of v_D, with zeros behind them;
VEXPD spreads the first lanes of v_A over the selected lanes and keeps the others; MLOG forms each bit of m_D from a
truth table. -/
def Obligations.LanesMove : Prop :=
  (∀ (s : State) (w : LaneW) (d a b : VReg) (r : SReg5) (m : MReg) (k : PermKind) (p : BitVec 8),
    let n := w.lanes
    let x := laneNat w (s.me.vreg a)
    let y := laneNat w (s.me.vreg b)
    let src := fun j => if j < n then x j else y (j - n)
    s.landsLanes (exec (.vext w d a r m) s) w d m 2 (fun l => (x ((l + (s.me.sreg5 r).toNat) % n), 0))
    ∧ s.landsLanes (exec (.vperm w d a b m) s) w d m 2 (fun l => (x (y l % n), 0))
    ∧ (k.paramOk w p = true → (k.usesB = true ∨ b = 0) →
        s.landsLanes (exec (.vpermPattern w d a b m k p) s) w d m 2 (fun l =>
          (src (match k with
            | .bcast => p.toNat
            | .rev => l ^^^ (2 ^ p.toNat - 1)
            | .ziplo => if l % 2 = 0 then l / 2 else n + (l - 1) / 2
            | .ziphi => if l % 2 = 0 then n / 2 + l / 2 else n + n / 2 + (l - 1) / 2
            | .even => 2 * l
            | .odd => 2 * l + 1
            | .shift => l + p.toNat
            | .swap => l ^^^ 2 ^ p.toNat), 0))))
  ∧ (∀ (s : State) (d a : VReg) (m e f : MReg) (tt : BitVec 4),
    let x := laneNat .w32 (s.me.vreg a)
    let sel := fun l => (s.me.mreg m).getLsbD l
    let before := fun l => ((List.range l).filter sel).length
    s.landsLanes (exec (.vexpd d a m) s) .w32 d 0 2
        (fun l => (if sel l then x (before l) else laneNat .w32 (s.me.vreg d) l, 0))
    ∧ (∃ v : Vec, exec (.vcompr d a m) s = .next (s.land (.v d v) 2)
        ∧ (∀ l, l < 64 → sel l = true → laneNat .w32 v (before l) = x l)
        ∧ (∀ j, before 64 ≤ j → j < 64 → laneNat .w32 v j = 0))
    ∧ (∃ r : MaskWord, exec (.mlog tt m e f) s = .next (s.land (.m m r) 1)
        ∧ ∀ i, i < 64 → r.getLsbD i
            = tt.getLsbD (2 * ((s.me.mreg e).getLsbD i).toNat + ((s.me.mreg f).getLsbD i).toNat)))

/-- R394, R112, R118: VADD, VSUB and VMUL wrap in the integer formats, at L = 1, and round the exact result once in
the Float formats, at L = 4, with their flags; VFMA and VFMS round a·b + c and a·b − c once, with v_D as c. -/
def Obligations.LaneArithmeticLands : Prop :=
  ∀ (s : State) (f : Fmt) (d a b : VReg) (m : MReg), f.legal = true →
    let x := laneNat f.width (s.me.vreg a)
    let y := laneNat f.width (s.me.vreg b)
    let z := laneNat f.width (s.me.vreg d)
    let wrap := fun (v : Int) => ((v % (2 ^ f.width.bits : Nat)).toNat, (0 : Flags))
    (f.isInt = true →
      s.landsLanes (exec (.vadd f d a b m) s) f.width d m 1 (fun l => wrap ((x l : Int) + y l))
      ∧ s.landsLanes (exec (.vsub f d a b m) s) f.width d m 1 (fun l => wrap ((x l : Int) - y l))
      ∧ s.landsLanes (exec (.vmul f d a b m) s) f.width d m 1 (fun l => wrap ((x l : Int) * y l)))
    ∧ (f.isFloat = true →
      s.landsLanes (exec (.vadd f d a b m) s) f.width d m 4 (fun l => laneAdd f (x l) (y l))
      ∧ s.landsLanes (exec (.vsub f d a b m) s) f.width d m 4 (fun l => laneSub f (x l) (y l))
      ∧ s.landsLanes (exec (.vmul f d a b m) s) f.width d m 4 (fun l => laneMul f (x l) (y l))
      ∧ s.landsLanes (exec (.vfma f d a b m) s) f.width d m 4 (fun l => laneFma f false (x l) (y l) (z l))
      ∧ s.landsLanes (exec (.vfms f d a b m) s) f.width d m 4 (fun l => laneFma f true (x l) (y l) (z l)))

/-- R395, R397: VMAX, VMIN, VABS and VNEG land the string of one operand or its negation without a flag, at L = 1 in
the integer formats and L = 2 in the others; bit i of VCMP is the condition on every (ANY = 0) or some (ANY = 1) lane
of the 32-bit lane i. R412, R413: VREDI lands the sum of the active lanes in every active lane, at L = 3; VSCAN lands
the inclusive prefix over the active lanes, wrapped in the integer formats, and in the Float formats the exact sum
rounded once, at L = 6. -/
def Obligations.LaneChoicesAndReductionsLand : Prop :=
  (∀ (s : State) (f : Fmt) (d a b : VReg) (m : MReg) (any : Bool) (rel : CmpRel), f.legal = true →
    let x := laneNat f.width (s.me.vreg a)
    let y := laneNat f.width (s.me.vreg b)
    let lat := if f.isInt then 1 else 2
    let k := 32 / f.width.bits
    s.landsLanes (exec (.vmax f d a b m) s) f.width d m lat (fun l => (laneMaxMin f true (x l) (y l), 0))
    ∧ s.landsLanes (exec (.vmin f d a b m) s) f.width d m lat (fun l => (laneMaxMin f false (x l) (y l), 0))
    ∧ (f.isSigned = true →
        s.landsLanes (exec (.vabs f d a m) s) f.width d m lat (fun l => (laneAbs f (x l), 0))
        ∧ s.landsLanes (exec (.vneg f d a m) s) f.width d m lat (fun l => (laneNeg f (x l), 0)))
    ∧ (¬ (any = true ∧ f.width = .w32) →
        ∃ r : MaskWord, exec (.vcmp any rel f m a b) s = .next (s.land (.m m r) lat)
          ∧ ∀ i, i < 64 → (r.getLsbD i = true ↔
              if any then ∃ j, j < k ∧ laneCmp f rel (x (i * k + j)) (y (i * k + j)) = true
              else ∀ j, j < k → laneCmp f rel (x (i * k + j)) (y (i * k + j)) = true)))
  ∧ (∀ (s : State) (f : Fmt) (d a : VReg) (m : MReg), f.legal = true →
    let w := f.width
    let x := laneNat w (s.me.vreg a)
    let act := fun l => (s.me.mreg m).getLsbD (l * w.bits / 32)
    let terms := fun n => ((List.range n).filter act).map x
    (f.isInt = true → s.landsLanes (exec (.vredi f d a m) s) w d m 3 (fun _ => ((terms w.lanes).sum, 0)))
    ∧ (s.cur.pos = .vb → f.isInt = true →
        s.landsLanes (exec (.vscan f d a m) s) w d m 6 (fun l => ((terms (l + 1)).sum, 0)))
    ∧ (s.cur.pos = .vb → f.isInt = false →
        s.landsLanes (exec (.vscan f d a m) s) w d m 6
          (fun l => (((terms (l + 1)).map (decodeFmt f)).foldl Prefix.add Prefix.empty).result f))
    ∧ (s.cur.pos = .va → exec (.vscan f d a m) s
        = .next (s.raise { name := .slotMismatch, tval := sylTval (instrBits (.vscan f d a m)) .va })))

/-- R400, R401, R402: VCVT and VCVTS convert the first n lanes, n = 2,048 over the wider of the two lane widths, and
give 0 in the active lanes above them, at L = 3; the seven functions land a correctly rounded result of each active
lane at L = 10, in VB alone. -/
def Obligations.ConversionsAndFunctionsLand : Prop :=
  ∀ (s : State) (sat : Bool) (dst src : Fmt) (d a b : VReg) (m : MReg),
    let x := laneNat src.width (s.me.vreg a)
    let y := laneNat dst.width (s.me.vreg a)
    let n := 2048 / Nat.max src.width.bits dst.width.bits
    (dst.legal = true → src.legal = true →
      s.landsLanes (exec (.vcvt sat dst src d a m) s) dst.width d m 3
        (fun l => if l < n then convertLane (x l) src dst sat .nearest else (0, 0)))
    ∧ (dst.isNarrow = true →
      s.landsLanes (exec (.vcvts sat dst d a b m) s) dst.width d m 3
        (fun l => if l < 64 then convert (laneNat .w32 (s.me.vreg a) l) .f32 dst sat
          (.stochastic (BitVec.ofNat 32 (laneNat .w32 (s.me.vreg b) l))) else (0, 0)))
    ∧ (s.cur.pos = .vb → dst.isTransc = true →
      s.landsLanes (exec (.vrcp dst d a m) s) dst.width d m 10 (fun l => laneFn .rcp dst (y l))
      ∧ s.landsLanes (exec (.vrsq dst d a m) s) dst.width d m 10 (fun l => laneFn .rsq dst (y l))
      ∧ s.landsLanes (exec (.vsqrt dst d a m) s) dst.width d m 10 (fun l => laneFn .sqrt dst (y l))
      ∧ s.landsLanes (exec (.vexp2 dst d a m) s) dst.width d m 10 (fun l => laneFn .exp2 dst (y l))
      ∧ s.landsLanes (exec (.vlog2 dst d a m) s) dst.width d m 10 (fun l => laneFn .log2 dst (y l))
      ∧ s.landsLanes (exec (.vtanh dst d a m) s) dst.width d m 10 (fun l => laneFn .tanh dst (y l))
      ∧ s.landsLanes (exec (.vsigm dst d a m) s) dst.width d m 10 (fun l => laneFn .sigm dst (y l)))

/-- R95, R369, R370, R371, R374, R124, R125: QCLR, QNEG, QTEST, QADD, QDOT, QACC and QRND. An accumulation adds the
exact sum of its active terms once, onto the latest pending entry of its own slot or the committed quire. Each
operation on a quire raises OCCUPANCY where the other vector slot has an entry for it pending. -/
def Obligations.QuiresAccumulate : Prop :=
  ∀ (s : State) (f : Fmt) (d a : QReg) (x y e : VReg) (r : SReg5) (m : MReg) (sat : Bool),
    let base := (pendingChain s.me d s.cur.pos).getD (s.me.qreg d)
    let lands := fun (q : Quire) (ov : Bool) => s.modMe (fun c => c.addLanding
      { s.landed (.q d q) 6 with chain := true, overflow := ov })
    let act := (List.range f.width.lanes).filter (fun l => (s.me.mreg m).getLsbD (l * f.width.bits / 32))
    let lx := laneNat f.width (s.me.vreg x)
    let ly := laneNat f.width (s.me.vreg y)
    let sum := fun (g : Nat → Option Int) => (act.map (fun l => (g l).getD 0)).sum
    let put := fun (g : Nat → Option Int) =>
      if act.all (fun l => (g l).isSome) then
        lands { base with bits := BitVec.ofInt 640 (base.bits.toInt + sum g)
                          ovf := base.ovf || decide (base.bits.toInt + sum g < -(2 ^ 639) ∨ 2 ^ 639 ≤ base.bits.toInt + sum g) }
          (decide (base.bits.toInt + sum g < -(2 ^ 639) ∨ 2 ^ 639 ≤ base.bits.toInt + sum g))
      else lands { base with nar := true } false
    exec (.qtest r a) s = .next (s.land (.s (r.setWidth 6) (qtestWord (s.me.qreg a))) 1)
    ∧ (pendingElsewhere s.me d s.cur.pos = false →
        exec (.qclr d) s = .next (s.land (.q d { bits := 0, nar := false, ovf := false }) 1)
        ∧ exec (.qneg d a) s = .next (s.modMe (fun c => c.addLanding
            { s.landed (.q d { bits := -(s.me.qreg a).bits, nar := (s.me.qreg a).nar
                               ovf := (s.me.qreg a).ovf || (s.me.qreg a).bits == invalidPattern }) 1 with
              overflow := (s.me.qreg a).bits == invalidPattern }))
        ∧ (f.isFloat = true → exec (.qadd f d x m) s = .next (put (fun l => addendUnits f (lx l))))
        ∧ (f.isProduct = true → exec (.qdot f d x y m) s = .next (put (fun l => productUnits f (lx l) (ly l))))
        ∧ exec (.qacc d a) s = .next (if (s.me.qreg a).valid then
              lands (base.addInt (s.me.qreg a).toInt).1 (base.addInt (s.me.qreg a).toInt).2
            else lands { base with nar := true } false))
    ∧ (pendingElsewhere s.me d s.cur.pos = true →
        exec (.qacc d a) s = .next (s.raise { name := .occupancy, tval := d.setWidth 64 })
        ∧ exec (.qclr d) s = .next (s.raise { name := .occupancy, tval := d.setWidth 64 })
        ∧ exec (.qneg d a) s = .next (s.raise { name := .occupancy, tval := d.setWidth 64 })
        ∧ (f.isFloat = true → exec (.qadd f d x m) s = .next (s.raise { name := .occupancy, tval := d.setWidth 64 }))
        ∧ (f.isProduct = true → exec (.qdot f d x y m) s = .next (s.raise { name := .occupancy, tval := d.setWidth 64 })))
    ∧ (f.isFloat = true → s.landsLanes (exec (.qrnd sat f e a y m) s) f.width e m 5
        (fun _ => (s.me.qreg a).round f sat
          (if y = 0 then .nearest else .stochastic ((s.me.vreg y).setWidth 32))))

/-- R113, R115 to R117, R107, R110: RoundT of a nonzero exact value d to a Float format. An exactly representable
value rounds to its own string and sets no flag. Otherwise the result is one of the two representable values next to
d, and INX is set; in mode nearest no value of an IEEE-style format is nearer, and a tie goes to the even string. OVF
is set exactly where the result of an IEEE-style format is infinite (NaN in E4M3), and then d lies beyond every finite
value; UNF exactly where the result is inexact and below the least normal string; CLMP exactly where d lies beyond
maxpos or below minpos of a tapered format. The random word 0 rounds toward zero. Here `val b x` says that the string
b has the value x, and `sc e x` is x in units of 2^e. R113, R114 with Table 5-4, R109, R111, R395, R397, R413: the
lane operations that a Float format rounds. Of finite operands the exact sum, difference, product or fused result is
rounded once; the special operands have the results and flags of the table. Larger, smaller and the relations follow
the order of the values, with −0 below +0 and NaN unordered, and of the strings as signed integers in the tapered
formats. A prefix of finite terms is their exact sum, rounded once. R119, R120 with Table 5-7, R122 with Table 5-8,
R123: a conversion of a finite value rounds once and then applies the range rules of its destination; the special
values convert as the table says. VRCP, VSQRT and VRSQ are correctly rounded: no value lies between the result and the
exact one, and in FP32 and BF16 none is nearer. VEXP2 of an integer and VLOG2 of a power of two are exact, and the
special operands of every function have the results and flags of the table. (That VEXP2, VLOG2, VTANH and VSIGM round
correctly at every other operand is stated by no clause.) -/
def Obligations.RoundingIsCorrect : Prop :=
  (∀ (f : Fmt) (mode : RMode) (d : Machine.Dyadic), f.isFloat = true → d.m ≠ 0 →
    let w := f.width.bits
    let val := fun (b : Nat) (x : Machine.Dyadic) => b < 2 ^ w ∧ (decodeFmt f b = .fin x ∨ (∃ g, decodeFmt f b = .zero g) ∧ x.m = 0)
    let sc := fun (e : Int) (x : Machine.Dyadic) => (x.m * 2 ^ (x.e - e).toNat : Int)
    let r := (roundT f mode d).1
    let inx := (roundT f mode d).2.getLsbD 0
    let unf := (roundT f mode d).2.getLsbD 1
    let ovf := (roundT f mode d).2.getLsbD 2
    let clmp := (roundT f mode d).2.getLsbD 5
    r < 2 ^ w ∧ (r.testBit (w - 1) = decide (d.m < 0))
    ∧ (∀ b x e, val b x → e ≤ x.e → e ≤ d.e → sc e x = sc e d → roundT f mode d = (b, 0))
    ∧ (ovf = false → (∃ x, val r x)
        ∧ (inx = true ↔ ¬ ∃ b x e, val b x ∧ e ≤ x.e ∧ e ≤ d.e ∧ sc e x = sc e d))
    ∧ (∀ b x y e, val r x → val b y → e ≤ x.e → e ≤ y.e → e ≤ d.e →
        ¬ (sc e x < sc e y ∧ sc e y < sc e d) ∧ ¬ (sc e d < sc e y ∧ sc e y < sc e x)
        ∧ (isTap f = false → mode = .nearest →
            (sc e x - sc e d).natAbs ≤ (sc e y - sc e d).natAbs
            ∧ ((sc e x - sc e d).natAbs = (sc e y - sc e d).natAbs → sc e x ≠ sc e y → r % 2 = 0))
        ∧ (mode = .stochastic 0 → clmp = false → (sc e x).natAbs ≤ (sc e d).natAbs))
    ∧ (ovf = true ↔ isTap f = false ∧ r % 2 ^ (w - 1) = infMag f)
    ∧ (ovf = true → ∀ b y e, val b y → e ≤ y.e → e ≤ d.e → (sc e y).natAbs < (sc e d).natAbs)
    ∧ (unf = true ↔ ∃ p, Fmt.ieee f = some p ∧ inx = true ∧ r % 2 ^ (w - 1) < 2 ^ p.m)
    ∧ (clmp = true ↔ isTap f = true
        ∧ ((∀ b y e, val b y → e ≤ y.e → e ≤ d.e → (sc e y).natAbs < (sc e d).natAbs)
          ∨ (∀ b y e, val b y → y.m ≠ 0 → e ≤ y.e → e ≤ d.e → (sc e d).natAbs < (sc e y).natAbs))))
  ∧ (∀ (f : Fmt) (a b c : Nat), f.isFloat = true →
    let w := f.width.bits
    let A := decodeFmt f a
    let B := decodeFmt f b
    let C := decodeFmt f c
    let inf := fun (n : Bool) => withSign w n (infMag f)
    let nan := canonicalNan f false
    let lower := fun (x y : Machine.Dyadic) => ∀ e, e ≤ x.e → e ≤ y.e → x.m * 2 ^ (x.e - e).toNat < y.m * 2 ^ (y.e - e).toNat
    (∀ (x y : Machine.Dyadic) (e : Int), e = min x.e y.e →
        (x.add y).e = e ∧ (x.add y).m = x.m * 2 ^ (x.e - e).toNat + y.m * 2 ^ (y.e - e).toNat
        ∧ (x.mul y).e = x.e + y.e ∧ (x.mul y).m = x.m * y.m)
    ∧ (∀ x y, A = .fin x → B = .fin y →
        laneAdd f a b = roundT f .nearest (x.add y) ∧ laneSub f a b = roundT f .nearest (x.add y.neg)
        ∧ laneMul f a b = roundT f .nearest (x.mul y)
        ∧ (∀ z, C = .fin z → laneFma f false a b c = roundT f .nearest ((x.mul y).add z)
            ∧ laneFma f true a b c = roundT f .nearest ((x.mul y).add z.neg)))
    ∧ (A.isNan = true ∨ B.isNan = true → laneAdd f a b = (nan, 0) ∧ laneSub f a b = (nan, 0) ∧ laneMul f a b = (nan, 0))
    ∧ (A.isNan = true ∨ B.isNan = true ∨ C.isNan = true → laneFma f false a b c = (nan, 0) ∧ laneFma f true a b c = (nan, 0))
    ∧ (∀ p q, A = .inf p → B = .inf q →
        laneAdd f a b = (if p = q then (inf p, 0) else (nan, 0x10))
        ∧ laneSub f a b = (if p = q then (nan, 0x10) else (inf p, 0)) ∧ laneMul f a b = (inf (p != q), 0))
    ∧ (∀ p q, A = .inf p → B = .zero q → laneAdd f a b = (inf p, 0) ∧ laneMul f a b = (nan, 0x10)
        ∧ (C.isNan = false → laneFma f false a b c = (nan, 0x10)))
    ∧ (∀ p y, A = .inf p → B = .fin y → laneAdd f a b = (inf p, 0) ∧ laneSub f a b = (inf p, 0)
        ∧ laneMul f a b = (inf (p != decide (y.m < 0)), 0))
    ∧ (∀ p q, A = .zero p → B = .zero q →
        laneAdd f a b = (if p && q && !isTap f then 2 ^ (w - 1) else 0, 0)
        ∧ laneMul f a b = (if (p != q) && !isTap f then 2 ^ (w - 1) else 0, 0))
    ∧ (∀ p y, A = .zero p → B = .fin y → laneAdd f a b = roundT f .nearest y
        ∧ laneMul f a b = (if (p != decide (y.m < 0)) && !isTap f then 2 ^ (w - 1) else 0, 0))
    ∧ (isTap f = false → A.isNan = true ∨ B.isNan = true →
        laneMaxMin f true a b = nan ∧ laneMaxMin f false a b = nan
        ∧ ∀ rel, laneCmp f rel a b = decide (rel = .un ∨ rel = .ne))
    ∧ (∀ x y, isTap f = false → A = .fin x → B = .fin y → lower x y →
        laneMaxMin f true a b = b ∧ laneMaxMin f true b a = b ∧ laneMaxMin f false a b = a ∧ laneMaxMin f false b a = a
        ∧ (∀ rel, laneCmp f rel a b = decide (rel = .lt ∨ rel = .le ∨ rel = .ne))
        ∧ (∀ rel, laneCmp f rel b a = decide (rel = .gt ∨ rel = .ge ∨ rel = .ne)))
    ∧ (isTap f = false → A = .zero true → B = .zero false →
        laneMaxMin f true a b = b ∧ laneMaxMin f true b a = b ∧ laneMaxMin f false a b = a ∧ laneMaxMin f false b a = a
        ∧ ∀ rel, laneCmp f rel a b = decide (rel = .eq ∨ rel = .le ∨ rel = .ge))
    ∧ (isTap f = true → a < 2 ^ w → b < 2 ^ w → (BitVec.ofNat w a).toInt < (BitVec.ofNat w b).toInt →
        laneMaxMin f true a b = b ∧ laneMaxMin f true b a = b ∧ laneMaxMin f false a b = a ∧ laneMaxMin f false b a = a
        ∧ laneCmp f .lt a b = true ∧ laneCmp f .ge a b = false ∧ laneCmp f .gt b a = true ∧ laneCmp f .eq a b = false)
    ∧ (∀ ts : List Machine.Dyadic, (∀ t ∈ ts, -336 ≤ t.e) →
        let sum := (ts.map (fun t => t.m * 2 ^ (t.e + 336).toNat)).sum
        sum ≠ 0 → ((ts.map Val.fin).foldl Prefix.add Prefix.empty).result f
          = roundT f .nearest { m := sum, e := -336 }))
  ∧ ((∀ (src dst : Fmt) (sat : Bool) (mode : RMode) (bits : Nat) (d : Machine.Dyadic), src.legal = true → dst.isFloat = true →
    let w := dst.width.bits
    let r := roundT dst mode d
    decodeFmt src bits = .fin d →
      (src = dst → convertLane bits src dst sat mode = (bits, 0))
      ∧ (src ≠ dst → convertLane bits src dst sat mode =
          if sat && !isTap dst && r.2.getLsbD 2 then (maxFiniteMag dst + (if d.m < 0 then 2 ^ (w - 1) else 0), r.2 ||| 0x20)
          else r))
  ∧ (∀ (src : Fmt) (sg : Bool) (lw : LaneW) (sat : Bool) (bits : Nat) (d : Machine.Dyadic) (y : Int), src ≠ .int sg lw →
    let w := lw.bits
    let low : Int := if sg then -(2 ^ (w - 1)) else 0
    let high : Int := if sg then 2 ^ (w - 1) - 1 else 2 ^ w - 1
    let near := fun (e : Int) => 2 * (y * 2 ^ (-e).toNat - d.m * 2 ^ (d.e - e).toNat).natAbs
    let even := fun (e : Int) => near e < 2 ^ (-e).toNat ∨ (near e = 2 ^ (-e).toNat ∧ y % 2 = 0)
    let exact := d.m * 2 ^ d.e.toNat = y * 2 ^ (-d.e).toNat
    decodeFmt src bits = .fin d → even (min 0 d.e) →
      (convertLane bits src (.int sg lw) sat .nearest).1 = (if low ≤ y ∧ y ≤ high then (y % 2 ^ w).toNat
          else if sat then ((if y < 0 then low else high) % 2 ^ w).toNat
          else if src.isInt then (y % 2 ^ w).toNat else 2 ^ (w - 1))
      ∧ (convertLane bits src (.int sg lw) sat .nearest).2 = (if exact then 0 else 0x01)
          ||| (if low ≤ y ∧ y ≤ high then 0 else (if src.isInt then 0 else 0x10) ||| (if sat then 0x20 else 0)))
  ∧ (∀ (src dst : Fmt) (sat neg : Bool) (mode : RMode) (bits : Nat), src ≠ dst → dst.legal = true →
    let w := dst.width.bits
    let ieee := !isTap dst && !dst.isInt
    let sign := if neg then 2 ^ (w - 1) else 0
    let tapNan : Rounded := (2 ^ (w - 1), 0x50)
    (decodeFmt src bits = .zero neg → convertLane bits src dst sat mode = (if ieee then sign else 0, 0))
    ∧ (decodeFmt src bits = .inf neg →
        (ieee = true → convertLane bits src dst sat mode
          = if sat then (maxFiniteMag dst + sign, 0x24) else (infMag dst + sign, if dst = .e4m3 then 0x04 else 0))
        ∧ (isTap dst = true → convertLane bits src dst sat mode = tapNan)
        ∧ (∀ sg lw, dst = .int sg lw → convertLane bits src dst sat mode =
            if sat then (if neg then (if sg then 2 ^ (w - 1) else 0) else (if sg then 2 ^ (w - 1) - 1 else 2 ^ w - 1), 0x30)
            else (2 ^ (w - 1), 0x10)))
    ∧ (decodeFmt src bits = .nan neg →
        (ieee = true → convertLane bits src dst sat mode = (canonicalNan dst neg, 0))
        ∧ (isTap dst = true → convertLane bits src dst sat mode = tapNan)
        ∧ (dst.isInt = true → convertLane bits src dst sat mode = (if sat then 0 else 2 ^ (w - 1), 0x10)))
    ∧ (decodeFmt src bits = .nar →
        (ieee = true → convertLane bits src dst sat mode = (canonicalNan dst false, 0x10))
        ∧ (isTap dst = true → convertLane bits src dst sat mode = (2 ^ (w - 1), 0))
        ∧ (dst.isInt = true → convertLane bits src dst sat mode = (if sat then 0 else 2 ^ (w - 1), 0x10))))
  ∧ (∀ (f : Fmt) (a : Nat), f.isTransc = true →
    let w := f.width.bits
    let tap := isTap f
    let bad := fun (fl : Flags) => ((canonicalNan f false, if tap then fl ||| 0x40 else fl) : Rounded)
    let inf := fun (n : Bool) => withSign w n (infMag f)
    let zero := fun (n : Bool) => if n && !tap then 2 ^ (w - 1) else 0
    let val := fun (b : Nat) (x : Machine.Dyadic) => b < 2 ^ w ∧ decodeFmt f b = .fin x
    let sc := fun (e : Int) (x : Machine.Dyadic) => (x.m * 2 ^ (x.e - e).toNat : Int)
    ((decodeFmt f a).isNan = true → ∀ fn, laneFn fn f a = (canonicalNan f false, 0))
    ∧ (∀ n, decodeFmt f a = .zero n →
        laneFn .rcp f a = (if tap then bad 0x08 else (inf n, 0x08)) ∧ laneFn .rsq f a = (if tap then bad 0x08 else (inf n, 0x08))
        ∧ laneFn .sqrt f a = (zero n, 0) ∧ laneFn .tanh f a = (zero n, 0)
        ∧ laneFn .log2 f a = (if tap then bad 0x08 else (inf true, 0x08))
        ∧ laneFn .exp2 f a = roundT f .nearest { m := 1, e := 0 } ∧ laneFn .sigm f a = roundT f .nearest { m := 1, e := -1 })
    ∧ (∀ n, decodeFmt f a = .inf n →
        laneFn .rcp f a = (zero n, 0) ∧ laneFn .rsq f a = (if n then bad 0x10 else (0, 0))
        ∧ laneFn .sqrt f a = (if n then bad 0x10 else (inf false, 0)) ∧ laneFn .exp2 f a = (if n then (0, 0) else (inf false, 0))
        ∧ laneFn .log2 f a = (if n then bad 0x10 else (inf false, 0))
        ∧ laneFn .tanh f a = roundT f .nearest { m := if n then -1 else 1, e := 0 }
        ∧ laneFn .sigm f a = (if n then (0, 0) else roundT f .nearest { m := 1, e := 0 }))
    ∧ (∀ x, val a x →
        (x.m < 0 → laneFn .rsq f a = bad 0x10 ∧ laneFn .sqrt f a = bad 0x10 ∧ laneFn .log2 f a = bad 0x10)
        ∧ (∀ n : Int, n.natAbs < 1024 → x.m * 2 ^ x.e.toNat = n * 2 ^ (-x.e).toNat →
            (laneFn .exp2 f a).1 = (roundT f .nearest { m := 1, e := n }).1)
        ∧ (∀ n : Int, 0 < x.m → x.m * 2 ^ (x.e - n).toNat = 2 ^ (n - x.e).toNat →
            (laneFn .log2 f a).1 = if n = 0 then 0 else (roundT f .nearest { m := n, e := 0 }).1)
        ∧ (∀ u v b y e, e ≤ 0 → e ≤ x.e → e ≤ u.e → e ≤ y.e → val b y → v = sc e u →
            let one : Int := 2 ^ (-e).toNat
            (0 < x.m → 0 < y.m →
              (val (laneFn .rcp f a).1 u → (v < sc e y → one * one ≤ sc e y * sc e x) ∧ (sc e y < v → sc e y * sc e x ≤ one * one))
              ∧ (val (laneFn .sqrt f a).1 u → (v < sc e y → one * sc e x ≤ sc e y * sc e y)
                  ∧ (sc e y < v → sc e y * sc e y ≤ one * sc e x))
              ∧ (val (laneFn .rsq f a).1 u → (v < sc e y → one * one * one ≤ sc e x * (sc e y * sc e y))
                  ∧ (sc e y < v → sc e x * (sc e y * sc e y) ≤ one * one * one)))
            ∧ (0 < x.m → tap = false → 0 ≤ y.m →
              (val (laneFn .rcp f a).1 u → (v * sc e x - one * one).natAbs ≤ (sc e y * sc e x - one * one).natAbs)
              ∧ (val (laneFn .sqrt f a).1 u → (v < sc e y → 4 * (one * sc e x) ≤ (v + sc e y) * (v + sc e y))
                  ∧ (sc e y < v → (v + sc e y) * (v + sc e y) ≤ 4 * (one * sc e x)))
              ∧ (val (laneFn .rsq f a).1 u → (v < sc e y → 4 * (one * one * one) ≤ sc e x * ((v + sc e y) * (v + sc e y)))
                  ∧ (sc e y < v → sc e x * ((v + sc e y) * (v + sc e y)) ≤ 4 * (one * one * one))))))))

/-! ### Memory instructions -/

/-- R145, R56, R183: the bytes that a core access reads are those of the scratchpad at the mapped places, and 0 at and
above the limit; where no N write of its context, or that the context knows, is on its way to the tile, they are the
bytes that stand there, and otherwise those with these writes made. The mapping sends different offsets to different
bytes, and stays within 2 MiB (R139 to R142). R145, R146, R349: a core store changes the bytes that it names below the
limit, and no other byte of any scratchpad as the context reads them. The context keeps everything but SPMERR, which
captures the first byte out of range; every other context of the tile keeps everything but the mark of a lost wake
token (R418); the other memories stay. R405, R416: VLDSM and VGTS land at L = 5 and 8 in each active lane the bytes at
the lane's own address, and in the others the old value; VSCS stores each active lane's bytes at its address, later
lanes over earlier ones. A base off its alignment raises ALIGN, and of two lanes with one bank and two rows the lowest
later one does, with its lane, bank and offset in TVAL; bytes that a transfer has not yet written block; SPMERR
captures the first byte out of range. -/
def Obligations.CoreAccessesReadAndWrite : Prop :=
  ((∀ (s : State) (a : Word) (n i : Nat), i < n →
    ((s.coreBytes a n)[i]? = some (if (a + BitVec.ofNat 64 i).toNat < s.here.limit
      then Memory.read s.seenHere.scratch (s.me.mapping.phys (a + BitVec.ofNat 64 i).toNat) else 0))
    ∧ ((∀ f ∈ s.flights, f.writes = true → (f.issuer.uid = s.me.uid ∨ s.me.known.contains f.id = true) →
          ∀ u ∈ f.units, u.done = true ∨ ∀ o, u.home ≠ .scratch s.cur.tile o) →
        (s.coreBytes a n)[i]? = some (if (a + BitVec.ofNat 64 i).toNat < s.here.limit
          then Memory.read s.here.scratch (s.me.mapping.phys (a + BitVec.ofNat 64 i).toNat) else 0)))
  ∧ ∀ (m : Mapping) (x y : Nat), x < 2 ^ 21 → y < 2 ^ 21 →
      m.phys x < 2 ^ 21 ∧ (m.phys x = m.phys y → x = y))
  ∧ (∀ (s : State) (a : Word) (bs : List Byte), bs.length ≤ 2 ^ 21 →
    let t := s.coreStore a bs
    (∀ o, o < s.here.limit →
      t.here.readByte s.me.mapping s.here.limit o =
        (let i := (BitVec.ofNat 64 o - a).toNat
         if i < bs.length then bs.getD i 0 else s.here.readByte s.me.mapping s.here.limit o))
    ∧ (∀ x : Nat, x ≠ s.cur.tile.toNat → t.tile x = s.tile x)
    ∧ ((∀ i, i < bs.length → (a + BitVec.ofNat 64 i).toNat < s.here.limit) → t.me = s.me)
    ∧ (∀ i, i < bs.length → s.here.limit ≤ (a + BitVec.ofNat 64 i).toNat →
        (∀ j, j < i → (a + BitVec.ofNat 64 j).toNat < s.here.limit) →
        t.me = if s.me.special.spmerr.getLsbD 63 then s.me else { s.me with
          special := { s.me.special with
            spmerr := (1 : Word) <<< 63 ||| (1 : Word) <<< 62 ||| ((a + BitVec.ofNat 64 i) &&& 0xFFFFFFFFFFFF) } })
    ∧ (∀ (k : SlotNo) (b : Bank), k ≠ s.cur.slot ∨ b = .second →
        ∃ lost : Bool, t.here.ctx k b = { s.here.ctx k b with wakeLost := lost })
    ∧ t.hbm = s.hbm ∧ t.lpddr = s.lpddr ∧ t.code = s.code ∧ t.flights = s.flights)
  ∧ (∀ (s : State) (w : LaneW) (v : VReg) (a : SReg) (idx : BitVec 4) (m : MReg) (off6 : Lit 6) (src : VSrc),
    let c := s.me
    let lim := s.here.limit
    let on := fun (w : LaneW) (l : Nat) => l < w.lanes ∧ (c.mreg m).getLsbD (l * w.bits / 32) = true
    let base := effAddr c a off6 16
    let along := fun (l : Nat) => base + BitVec.ofNat 64 (4 * l)
    let at_ := fun (l : Nat) => c.sreg a + BitVec.ofNat 64 (w.bytes * laneNat w (c.vreg (idx.setWidth 5)) l)
    let ls := indexedLanes c w a idx m
    let own := activeOffsets (activeLanes .w32 (c.mreg m)) along
    let first := fun (w : LaneW) (adr : Nat → Word) (x : Option Word) =>
      ∀ b, x = some b ↔ ∃ l i, on w l ∧ i < w.bytes ∧ b = adr l + BitVec.ofNat 64 i ∧ lim ≤ b.toNat
        ∧ ∀ l' i', on w l' → i' < w.bytes → (l' < l ∨ l' = l ∧ i' < i) → (adr l' + BitVec.ofNat 64 i').toNat < lim
    let gathers := fun (o : Host.Outcome State Fault Refusal) (w : LaneW) (adr : Nat → Word) (lat : Nat) =>
      ∃ (y : Vec) (pz x : Option Word) (h : List Nat),
        o = .next (((s.landRead (.v v y) lat pz).modMe (fun c => c.captureSpm false false 0 x)).noteRead h)
        ∧ (∀ l, l < w.lanes → laneNat w y l = if (c.mreg m).getLsbD (l * w.bits / 32)
            then natOfBytes (s.coreBytes (adr l) w.bytes) else laneNat w (c.vreg v) l)
        ∧ (pz = none ↔ ∀ l, on w l → s.corePoison (adr l) w.bytes = none) ∧ first w adr x
    let bank := fun (l : Nat) => bankOf c.special.spmode c.special.keys (at_ l).toNat
    let clash := fun (l1 l2 : Nat) => l1 < l2 ∧ on w l1 ∧ on w l2 ∧ (at_ l1).toNat < lim ∧ (at_ l2).toNat < lim
      ∧ bank l1 = bank l2 ∧ natBits (at_ l1).toNat 10 11 ≠ natBits (at_ l2).toNat 10 11
    let straight := lanesBlock s w.bytes ls = none ∧ (c.sreg a).toNat % w.bytes = 0
    let aligned := straight ∧ ∀ l1 l2, ¬ clash l1 l2
    (lanesBlock s 4 own = none → base.toNat % 16 = 0 → s.coreWaits false = false →
      gathers (exec (.vldsm v a m off6) s) .w32 along 5)
    ∧ (lanesBlock s 4 own = none → base.toNat % 16 ≠ 0 →
      exec (.vldsm v a m off6) s = .next (s.raise { name := .align, tval := base }))
    ∧ (∀ b, lanesBlock s 4 own = some b → exec (.vldsm v a m off6) s = .next (s.blockOn b))
    ∧ (w ≠ .w8 →
      (aligned → s.coreWaits false = false → gathers (exec (.vgts w v a idx m) s) w at_ 8)
      ∧ (aligned → s.coreWaits true = false → s.sourceReady src = true →
          ∃ (t : State) (x : Option Word), exec (.vscs w src a idx m) s = .next t
            ∧ t.here.scratch = ls.foldl (fun mem l => writeBytes mem c.mapping lim l.2
                (((vsrcBytes src s 256).drop (w.bytes * l.1)).take w.bytes)) s.here.scratch
            ∧ t.me = c.captureSpm true false 0 x ∧ first w at_ x
            ∧ (∀ y : Nat, y ≠ s.cur.tile.toNat → t.tile y = s.tile y)
            ∧ t.hbm = s.hbm ∧ t.lpddr = s.lpddr ∧ t.flights = s.flights)
      ∧ (lanesBlock s w.bytes ls = none → (c.sreg a).toNat % w.bytes ≠ 0 →
          exec (.vgts w v a idx m) s = .next (s.raise { name := .align, tval := c.sreg a })
          ∧ (s.sourceReady src = true →
              exec (.vscs w src a idx m) s = .next (s.raise { name := .align, tval := c.sreg a })))
      ∧ (∀ l1 l2, straight → clash l1 l2 → (∀ i j, j < l2 → ¬ clash i j) →
          let tv := (1 : Word) <<< 63 ||| (at_ l2 &&& 0x1FFFFF) <<< 32 ||| BitVec.ofNat 64 (l2 * 256 + bank l2)
          exec (.vgts w v a idx m) s = .next (s.raise { name := .align, tval := tv })
          ∧ (s.sourceReady src = true → exec (.vscs w src a idx m) s = .next (s.raise { name := .align, tval := tv })))
      ∧ (∀ b, lanesBlock s w.bytes ls = some b → exec (.vgts w v a idx m) s = .next (s.blockOn b)))
    ∧ (∀ l, (l, along l) ∈ own ↔ on .w32 l) ∧ (∀ l, (l, at_ l) ∈ ls ↔ on w l))

/-- R349, R406, R408, R373, R137, R29: LDS, VLDS, VLDSX and QREST read the scratchpad in the issue cycle and land at L
= 4, 5, 7 and 5; a misaligned address raises ALIGN with the address as TVAL, and an access to bytes that a transfer
has not yet written blocks. One that an earlier acquire or full FENCE of its context still holds (R194, R198) is
performed later, by a flight of its own, which delivers to the landing. R349, R415, R373, R137: STS, VSTS and QSAVE
store into the scratchpad in the issue cycle: the low bytes of s_D, the 256 bytes of v_D or the element at the head of
a queue, and the 80 bytes of the quire's image. One that an earlier FENCE or acquire of its context still holds (R194,
R198) is performed later, by a flight whose units store the bytes in range. -/
def Obligations.CoreLoadsAndStoresAct : Prop :=
  (∀ (s : State) (x : TypeCode) (d a : SReg) (v : VReg) (q : QReg) (off7 : Lit 7) (off10 : Lit 10) (off6 : Lit 6)
    (to16 : Bool),
    let z := TypeCode.bytes x
    let loads := fun (i : Instr) (at_ : Word) (n al lat : Nat) (w w0 : Write) (k : CoreDest) =>
      (s.watermarkBlock at_ n = none →
        (at_.toNat % al = 0 → s.coreWaits false = false → exec i s
          = .next ((s.landRead w lat (s.corePoison at_ n)).coreLoadCapture at_ n))
        ∧ (at_.toNat % al = 0 → s.coreWaits false = true → exec i s
          = .next ((s.modMe (fun c => c.captureSpm false false 0 (firstOut s.here.limit at_ n))).loadLater k w0 lat
              (corePieces at_ n)))
        ∧ (at_.toNat % al ≠ 0 → exec i s = .next (s.raise { name := .align, tval := at_ })))
      ∧ (s.watermarkBlock at_ n ≠ none → exec i s = .next (s.blockOn (.watermark at_.toNat n)))
    let e := effAddr s.me a off6 16
    loads (.lds x d a off7) (effAddr s.me a off7 z) z z 4
      (.s d (TypeCode.extNat x (natOfBytes (s.coreBytes (effAddr s.me a off7 z) z)))) (.s d 0) (.word x)
    ∧ loads (.vlds v a off10) (effAddr s.me a off10 16) 256 16 5
        (.v v (bytesVec (s.coreBytes (effAddr s.me a off10 16) 256))) (.v v 0) .vec
    ∧ loads (.qrest q a off10) (effAddr s.me a off10 80) 80 16 5
        (.q q (Quire.ofImage (BitVec.ofNat 640 (natOfBytes (s.coreBytes (effAddr s.me a off10 80) 80)))))
        (.q q Quire.zero) .quire
    ∧ ((Instr.vldsx x to16 v a off6).wf = true →
        ∃ y : Vec, loads (.vldsx x to16 v a off6) e ((if to16 then 128 else 64) * z) 16 7 (.v v y) (.v v 0)
            (.wide x (if to16 then .w16 else .w32))
          ∧ ∀ l, l < (if to16 then 128 else 64) →
              laneNat (if to16 then .w16 else .w32) y l
                = (TypeCode.extNat x (natOfBytes (s.coreBytes (e + BitVec.ofNat 64 (l * z)) z))).toNat
                  % 2 ^ (if to16 then 16 else 32))
    ∧ ∀ (k : CoreDest) (w : Write) (lat : Nat) (ps : List (Word × Nat)), (∀ g ∈ s.flights, g.id ≠ s.nextId) →
        ∃ f : Flight, (s.loadLater k w lat ps).flights = s.flights ++ [f] ∧ f.id = s.nextId ∧ f.sink = .core k
          ∧ f.space = .s ∧ f.units = s.coreUnits ps (fun _ => .load)
          ∧ (s.loadLater k w lat ps).me
              = s.me.addLanding (Landing.waiting w (s.me.bcnt + BitVec.ofNat 64 lat) s.nextId s.cur.pos))
  ∧ (∀ (s : State) (x : TypeCode) (d a : SReg) (src : VSrc) (q : QReg) (off7 : Lit 7) (off10 : Lit 10),
    let z := TypeCode.bytes x
    let stores := fun (i : Instr) (at_ : Word) (al : Nat) (bs : List Byte) (n : Nat) =>
      s.watermarkBlock at_ n = none →
        (at_.toNat % al = 0 → s.coreWaits true = false → exec i s = .next (s.coreStore at_ bs))
        ∧ (at_.toNat % al = 0 → s.coreWaits true = true → exec i s
            = .next ((s.modMe (fun c => c.captureSpm true false 0 (firstOut s.here.limit at_ bs.length))).storeLater
                ((corePieces at_ bs.length).zipIdx.map (fun y => (y.1.1, (bs.drop (8 * y.2)).take y.1.2))) .causal))
        ∧ (at_.toNat % al ≠ 0 → exec i s = .next (s.raise { name := .align, tval := at_ }))
    stores (.sts x d a off7) (effAddr s.me a off7 z) z (bytesOfNat z (s.me.sreg d).toNat) z
    ∧ (s.sourceReady src = true →
        stores (.vsts src a off10) (effAddr s.me a off10 16) 16 (vsrcBytes src s (vsrcSize src s.me)) (vsrcSize src s.me))
    ∧ stores (.qsave q a off10) (effAddr s.me a off10 80) 16 (bytesOfNat 80 (s.me.qreg q).image.toNat) 80
    ∧ ∀ (ps : List (Word × List Byte)) (o : OrderClass), (∀ g ∈ s.flights, g.id ≠ s.nextId) →
        (∃ p ∈ ps, p.1.toNat < s.here.limit) →
        ∃ f : Flight, (s.storeLater ps o).flights = s.flights ++ [f] ∧ f.id = s.nextId ∧ f.writes = true ∧ f.space = .s
          ∧ f.units = s.coreUnits (ps.map (fun p => (p.1, p.2.length))) (fun i => .store ((ps.getD i (0, [])).2))
          ∧ (s.storeLater ps o).tiles = s.tiles)

/-- R149 to R152, R385, R367, R368, R410: a store through an enabled window starts a multicast store of the bytes
within the window's range, and a disabled window raises QUEUE_CONFIG; PUTN and VPUTN start a write of the target tile,
and with a post a counter add after it, which releases what precedes it; SPMERR and the die mask follow log entry 26.
The context is no replica. -/
def Obligations.WindowAndNeighbourStoresLeave : Prop :=
  ∀ (s : State) (x : TypeCode) (win : Win) (d a : SReg) (off4 : Lit 4) (off7 : Lit 7) (off : BitVec 6) (src : VSrc)
    (post : Bool), s.me.holds = false →
    let z := TypeCode.bytes x
    let c := s.me
    let word := c.window win
    let sent := fun (o : Word) (bs : List Byte) =>
      (s.modMe (fun c => setTdm (c.captureSpm true true (winY0 word * 32 + winX0 word) (firstOut (winRange word) o bs.length))
        (winDies word))).multicast s.cur.tile c.uid word o bs
    let target := nTileId (c.sreg a)
    let lim := (s.tile target.toNat).limit
    let put := fun (o : Word) (bs : List Byte) =>
      (s.modMe (fun c =>
        let c1 := c.captureSpm true true target.toNat (firstOut lim o bs.length)
        setTdm (if post then c1.captureSpm true true target.toNat (firstOut lim (s.me.sreg (a + 1)) 8) else c1)
          [stackOf target.toNat])).putn target o bs (if post then some (c.sreg (a + 1)) else none)
    ((effAddr c a off4 z).toNat % z = 0 → word.msb = true →
      exec (.stmc x win d a off4) s = .next (sent (effAddr c a off4 z) (bytesOfNat z (c.sreg d).toNat)))
    ∧ ((effAddr c a off7 16).toNat % 16 = 0 → word.msb = true → s.sourceReady src = true →
      exec (.vstmc win src a off7) s = .next (sent (effAddr c a off7 16) (vsrcBytes src s 256)))
    ∧ ((effAddr c a off4 z).toNat % z = 0 → word.msb = false →
      exec (.stmc x win d a off4) s = .next (s.raise { name := .queueConfig, tval := win.setWidth 64 + 16 }))
    ∧ ((post = true → a ≠ 63) → putnCheck c post a (nOff (c.sreg a) off z) z = none →
      exec (.putn x post d a off) s = .next (put (nOff (c.sreg a) off z) (bytesOfNat z (c.sreg d).toNat)))
    ∧ ((post = true → a ≠ 63) → putnCheck c post a (nOff (c.sreg a) off 16) 16 = none → s.sourceReady src = true →
      exec (.vputn post src a off) s = .next (put (nOff (c.sreg a) off 16) (vsrcBytes src s 256)))

/-- R327, R342, R407: LDD, VLDD, LDC, VLDC, LDH, VLDH and GETN reserve the tail element of their queue and start a
read of what they name; an unconfigured queue raises QUEUE_CONFIG and a full one blocks. The context performs its own
inputs. The request counts, SPMERR and the die mask follow log entry 26, and the latencies to other tiles and memories
log entry 10. -/
def Obligations.QueueLoadsReserve : Prop :=
  ∀ (s : State) (x : TypeCode) (q : HReg) (a c : SReg) (off7 : BitVec 7) (off10 : BitVec 10), s.me.plain = true →
    let z := TypeCode.bytes x
    let cx := s.me
    let t := s.cur.tile.toNat
    let eb := (cx.queue q).elemBytes
    let start := fun (g : Target) (vec : Bool) (n : Nat) (sg : Bool) =>
      (((s.numbered.reserved q s.nextId).countRequests t s.cur.slot cx.uid (s.foundHere g)).fly s.nextId g.space
        (unitsOf (fun _ => .load) (s.foundHere g)) false .relaxed (.queue q eb (if vec then 256 else n) sg)
        (fillBytes (s.foundHere g)) g.tval (accessLatency t (s.foundHere g)))
    let loads := fun (i : Instr) (g : Target) (vec : Bool) (n : Nat) (sg : Bool) =>
      (s.queueRoom q = true → (vec = true → eb = 256) → s.translated g 0b1000 → exec i s = .next (start g vec n sg))
      ∧ ((cx.queue q).configured = false → (cx.queue q).full = false → g.needs s t cx.asid = [] →
          exec i s = .next (s.raise { name := .queueConfig, tval := q.setWidth 64 }))
      ∧ ((cx.queue q).full = true → exec i s = .next (s.blockOn (.queueFull q)))
    let e := elemForm s (.tensor (cx.sreg a) (cx.sreg c) .elem)
    loads (.ldd q a c) (.tensor (cx.sreg a) (cx.sreg c) .elem) false e.1 e.2
    ∧ loads (.vldd q a c) (.tensor (cx.sreg a) (cx.sreg c) .vector) true 256 false
    ∧ loads (.ldc x q a off7) (.cap (effAddrB cx a off7 z) z) false z (TypeCode.isSigned x)
    ∧ loads (.vldc q a off10) (.cap (effAddrB cx a off10 16) 256) true 256 false
    ∧ loads (.ldh x q a off7) (.host (effAddrB cx a off7 z) z) false z (TypeCode.isSigned x)
    ∧ loads (.vldh q a off10) (.host (effAddrB cx a off10 16) 256) true 256 false
    ∧ (s.queueRoom q = true → nAddrOk (cx.sreg a) = true → (nOff (cx.sreg a) off7 z).toNat % z = 0 → cx.det = false →
        let target := nTileId (cx.sreg a)
        let o := nOff (cx.sreg a) off7 z
        exec (.getn x q a off7) s = .next ((((s.numbered.reserved q s.nextId).modMe (fun c =>
          c.captureSpm false true target.toNat (firstOut (s.tile target.toNat).limit o z))).modMe (fun c =>
            setTdm c [stackOf target.toNat])).fly
            s.nextId .n (nUnits target o z (fun _ _ => .load)) false .relaxed (.queue q eb z (TypeCode.isSigned x))
            (List.replicate z 0) (nWord target o)
            (if target = s.cur.tile then 4 else 2 * hopLatency t target.toNat + 4)))

/-- R384, R407, R415, R156: STD, VSTD, STC, VSTC, STH and VSTH of a context that is no replica start a write of what
they name. An element outside the tensor is dropped: no unit covers it, and where nothing is left the store does
nothing. An access that the tables do not translate parks the context, and an entry without the write permission
raises PROTECTION. (Counts and latencies: log entries 26 and 10.) -/
def Obligations.TranslatedStoresLeave : Prop :=
  ∀ (s : State) (x : TypeCode) (d a c : SReg) (src : VSrc) (off7 : BitVec 7) (off10 : BitVec 10), s.me.holds = false →
    let z := TypeCode.bytes x
    let cx := s.me
    let t := s.cur.tile.toNat
    let units := fun (g : Target) (bs : List Byte) => unitsOf (fun p => .store (p.slice bs)) (s.foundHere g)
    let counted := fun (g : Target) => match g with
      | .tensor _ _ _ => s.numbered.countRequests t s.cur.slot cx.uid (s.foundHere g)
      | .cap _ _ | .host _ _ => s.numbered.countRequests t s.cur.slot cx.uid []
    let stores := fun (i : Instr) (g : Target) (bs : List Byte) =>
      (s.translated g 0b0100 → units g bs ≠ [] → exec i s = .next ((counted g).fly s.nextId g.space (units g bs) true
          (causalTarget (s.foundHere g) g) .none [] g.tval (accessLatency t (s.foundHere g))))
      ∧ (s.translated g 0b0100 → units g bs = [] → exec i s = .next s)
      ∧ (formCheck s g = none → cx.answer = none → g.needs s t cx.asid = [] →
          permitted 0b0100 ((s.foundHere g).map Prod.snd) = false →
          exec i s = .next (s.raise { name := .protection, tval := g.tval }))
      ∧ (cx.answer = none → g.needs s t cx.asid ≠ [] → exec i s = .next (s.park (g.needs s t cx.asid) g.tval))
    let ge : Target := .tensor (cx.sreg a) (cx.sreg c) .elem
    let gv : Target := .tensor (cx.sreg a) (cx.sreg c) .vector
    stores (.std d a c) ge (bytesOfNat 8 (cx.sreg d).toNat)
    ∧ stores (.stc x d a off7) (.cap (effAddrB cx a off7 z) z) (bytesOfNat z (cx.sreg d).toNat)
    ∧ stores (.sth x d a off7) (.host (effAddrB cx a off7 z) z) (bytesOfNat z (cx.sreg d).toNat)
    ∧ (s.sourceReady src = true →
        stores (.vstd src a c) gv (vsrcBytes src s 256)
        ∧ stores (.vstc src a off10) (.cap (effAddrB cx a off10 16) 256) (vsrcBytes src s 256)
        ∧ stores (.vsth src a off10) (.host (effAddrB cx a off10 16) 256) (vsrcBytes src s 256))
    ∧ (∀ de : Desc, cx.sreg a ≠ 0 → cachedDesc s t cx.asid (cx.sreg a) = some de →
        (s.translated ge 0b0100 → de.place (coordsOf (cx.sreg c)) = none → exec (.std d a c) s = .next s)
        ∧ (s.translated gv 0b0100 → ∀ i, i < 256 / de.elemBytes →
            (de.place (stepC0 (coordsOf (cx.sreg c)) i) = none ↔
              ∀ u ∈ units gv (vsrcBytes src s 256), ¬ (u.off ≤ i * de.elemBytes ∧ i * de.elemBytes < u.off + u.len))))

/-- R328, R372: an atomic of a context that is no replica and has no log stream starts one access that reads and
replaces the element at its home, and awaits the old value at L = 8; QRED adds the quire to the line at its home and
returns nothing. -/
def Obligations.AtomicsLeave : Prop :=
  ∀ (s : State) (d a c : SReg) (q : QReg) (o : Ord), s.me.plain = true →
    let cx := s.me
    let g : Target := .tensor (cx.sreg a) (cx.sreg c) .elem
    let l : Target := .tensor (cx.sreg a) (cx.sreg c) .line
    let t := s.cur.tile.toNat
    let e := elemForm s g
    let start := fun (code : BitVec 6) (w : Word) =>
      (s.numbered.awaited (.s d 0) 8 s.nextId).flyAtomic s.nextId g (s.foundHere g) (.atomic code (cx.sreg d) w e.2)
        (.landing e.1 e.2) e.1 o
    (s.translated g 0b1110 → elementTrap s t cx.asid (cx.sreg a) (cx.sreg c) .elem [0, 3, 4, 7] = none →
      exec (.aadd d a c o) s = .next (start 0x1C 0)
      ∧ (d ≠ 63 → exec (.acas d a c o) s = .next (start 0x1D (cx.sreg (d + 1))))
      ∧ exec (.amaxi d a c o) s = .next (start 0x1E 0)
      ∧ exec (.amini d a c o) s = .next (start 0x1F 0)
      ∧ exec (.axch d a c o) s = .next (start 0x20 0)
      ∧ exec (.axor d a c o) s = .next (start 0x21 0))
    ∧ (s.translated l 0b1110 → elementTrap s t cx.asid (cx.sreg a) (cx.sreg c) .line (List.range 32) = none →
        lineCheck (cachedDesc s t cx.asid (cx.sreg a)) (cx.sreg a) (cx.sreg c) = none → o.relOnly = true →
      exec (.qred q a c o) s = .next (s.numbered.flyAtomic s.nextId l (s.foundHere l)
        (.qred (cx.qreg q).bits (!(cx.qreg q).valid)) .none 0 o))

/-- R326, R333, R336, R337, R198, R417 to R420: CADD adds to a counter in S at once, unless the amount is negative or
the sum passes 2^64 − 1; CREAD lands a counter of S at L = 8; CWAIT of a counter in S issues once the counter has
reached its threshold and blocks before; one that an earlier access holds (log entry 11) is performed later. FENCE,
WARM and WTOK act as their rules give: a WARM replaces the comparator from the next cycle on, and traps where another
context holds it. The context is no replica and has no log stream. -/
def Obligations.CountersFencesAndWakes : Prop :=
  ∀ (s : State) (d a : SReg) (o : Ord) (thr : WaitThr) (sc : Scope) (k : FenceKind) (n : BitVec 3) (lo hi : SReg)
    (f : BitVec 4), s.me.plain = true →
    let cx := s.me
    let off := cx.sreg a
    let amt := cx.sreg d
    let v := s.counterS off
    let stored := s.coreStore off (bytesOfNat 8 (s.counterHere off + amt).toNat)
    let flown := fun (u : State) (op : UnitOp) (w : Bool) (oc : OrderClass) (sink : Sink) (data : List Byte) =>
      (u.flyCore s.nextId (s.coreUnits [(off, 8)] (fun _ => op)) w oc sink data off).acquireIf (ordAcq o) s.nextId
    let released := ∀ sc', o = .rel sc' → s.releases cx s.cur.tile.toNat sc' = []
    let l := cx.sreg lo
    let h := cx.sreg hi
    (off.msb = false → off.toNat % 8 = 0 → off.toNat < s.here.limit → s.watermarkBlock off 8 = none →
      s.corePoison off 8 = none →
      (released → amt.msb = false →
        (v.toNat + amt.toNat < 2 ^ 64 → s.coreWaits true = false → exec (.cadd d a 0 o) s = .next (match o with
            | .relaxed => { stored with marks := s.marks }
            | .rel _ => stored
            | .acq _ => stored.observe (s.coreHistory off 8)))
        ∧ (v.toNat + amt.toNat < 2 ^ 64 → s.coreWaits true = true →
          exec (.cadd d a 0 o) s = .next (flown s.numbered (.cadd amt) true (ordClass o) .none []))
        ∧ (2 ^ 64 ≤ v.toNat + amt.toNat → exec (.cadd d a 0 o) s = .next (s.raise { name := .counterWrap, tval := v })))
      ∧ (released → amt.msb = true →
        exec (.cadd d a 0 o) s = .next (s.raise { name := .counterDecrease, tval := amt }))
      ∧ (o.acqOnly = true → s.coreWaits false = false →
          let u := (s.landRead (.s d v) 8 none).noteRead (s.coreHistory off 8)
          exec (.cread d a 0 o) s = .next (if ordAcq o then u.observe (s.coreHistory off 8) else u))
      ∧ (o.acqOnly = true → s.coreWaits false = true →
          exec (.cread d a 0 o) s = .next (flown (s.numbered.awaited (.s d 0) 8 s.nextId) .load false .relaxed
            (.landing 8 false) (List.replicate 8 0)))
      ∧ (cx.observed = none → (waitThr cx thr = 0 ∨ s.coreWaits false = false ∧ waitThr cx thr ≤ v) →
          let u := s.modMe (fun c => { c with observed := none, cleared := none })
          exec (.cwait thr a 0 sc) s = .next (u.observe (u.coreHistory off 8)))
      ∧ (cx.observed = none → waitThr cx thr ≠ 0 → (s.coreWaits false = true ∨ v < waitThr cx thr) →
          exec (.cwait thr a 0 sc) s = .next (s.blockOn (.counterBelow off (waitThr cx thr)))))
    ∧ (let ws := s.fenced sc
       let u := (s.observe (if k = .acq ∨ k = .full then cx.unobserved else [])).modMe (fun c => { c with
        fenceRel := if k = .rel ∨ k = .full then s.stillOpen c.fenceRel ++ ws else c.fenceRel
        acquiring := c.acquiring ++ (if k = .acq ∨ k = .full then s.openReads c.uid else [])
          ++ (if k = .full then ws else []) })
       exec (.fence k sc) s = .next (if k = .rel ∨ k = .full then u.cover ws else u))
    ∧ (let mine : Comparator :=
         { uid := cx.uid, lo := l.toNat, hi := h.toNat, filter := f, since := s.gtc.toNat + 1 }
       l.toNat % 16 = 0 → h.toNat % 16 = 0 →
        ((l.toNat < h.toNat → h.toNat ≤ s.here.limit → (∀ cm, s.here.comparator n = some cm → cm.uid = cx.uid) →
          exec (.warm n lo hi f) s = .next (s.modHere (fun y => y.rearm n (some mine) s.gtc.toNat)))
        ∧ (∀ cm, l.toNat < h.toNat → h.toNat ≤ s.here.limit → s.here.comparator n = some cm → cm.uid ≠ cx.uid →
          exec (.warm n lo hi f) s = .next (s.raise { name := .queueConfig, tval := 104 + n.setWidth 64 }))
        ∧ (h.toNat ≤ l.toNat ∨ s.here.limit < h.toNat →
          exec (.warm n lo hi f) s = .next (s.raise { name := .queueConfig, tval := 96 + n.setWidth 64 }))))
    ∧ (l.toNat % 16 ≠ 0 → exec (.warm n lo hi f) s = .next (s.raise { name := .align, tval := l }))
    ∧ (l.toNat % 16 = 0 → h.toNat % 16 ≠ 0 → exec (.warm n lo hi f) s = .next (s.raise { name := .align, tval := h }))
    ∧ (∀ (y : Tile) (old new : Comparator) (g : Nat), new.since = g + 1 → y.comparator n = some old → old.since ≤ g →
        let y' := y.rearm n (some new) g
        y'.comparator n = some new ∧ (n.toNat, old) ∈ y'.armed g ∧ (n.toNat, new) ∉ y'.armed g
        ∧ (n.toNat, new) ∈ y'.armed (g + 1) ∧ (n.toNat, old) ∉ y'.armed (g + 1))
    ∧ (∀ cm, s.here.comparator n = some cm →
        exec (.warmOff n) s = .next (if cm.uid = cx.uid then s.modHere (fun y => y.rearm n none s.gtc.toNat) else s))
    ∧ (s.here.comparator n = none → exec (.warmOff n) s = .next s)
    ∧ (∀ tok, s.here.oldestToken cx.uid s.gtc.toNat = some tok →
        exec (.wtok d) s = .next (((s.modHere (fun y => { y with tokens := y.tokens.erase tok })).modMe
          (fun c => { c with wakeLost := false })).land (.s d (tok.word cx.wakeLost)) 1))
    ∧ (s.here.oldestToken cx.uid s.gtc.toNat = none → exec (.wtok d) s = .next (s.blockOn .wakeEmpty))

/-- R326, R333, R336, R337: CADD, CREAD and CWAIT of a counter in N space or in a tensor. CADD starts one add at the
counter's home; CREAD awaits its value at L = 8; CWAIT issues where the counter has reached its threshold or the home
has answered, and otherwise blocks with a watch at the home. A misaligned or malformed reference, a DET record, a
negative amount, or a word or die that is lost traps; what the tables do not translate parks the context. The context
is no replica and has no log stream; request counts, SPMERR and the die mask follow log entry 26, and the latencies
log entry 10. -/
def Obligations.RemoteCountersAct : Prop :=
  ∀ (s : State) (d a c : SReg) (o : Ord) (thr : WaitThr) (sc : Scope), s.me.plain = true →
    let cx := s.me
    let t := s.cur.tile.toNat
    let amt := cx.sreg d
    let x := cx.sreg a &&& 0x7FFFFFFFFFFFFFFF
    let target := nTileId x
    let o8 := ctrOff x
    let lat := hopLatency t target.toNat
    let near : AccessUnit :=
      { home := .scratch target o8.toNat, off := 0, len := 8, op := .load, done := false, entry := none }
    let cap := fun (wr : Bool) (c : Context) =>
      c.captureSpm wr true target.toNat (firstOut (s.tile target.toNat).limit o8 8)
    let tdm := fun (c : Context) => setTdm c [stackOf target.toNat]
    let adder := (s.modMe (cap true)).modMe tdm
    let reader := s.modMe (cap false)
    let g : Target := .tensor (cx.sreg a) (cx.sreg c) .elem
    let fo := s.foundHere g
    let thr8 := waitThr cx thr
    let passed := s.modMe (fun c => { c with observed := none, cleared := none })
    let waits := fun (i : Instr) (u : AccessUnit) (sp : Space) (watch at_ : Word) (done : State) =>
      let value := BitVec.ofNat 64 (natOfBytes (placeRead s u.home 8 0))
      let open_ := s.afterOf cx t [u] false .relaxed
      let w : BlockCond := .watch { space := sp, home := u.home, entry := u.entry, tval := watch } thr8
      let trap := placeTrap s (.ctx s.cur.tile s.cur.slot cx.uid) sp at_ u.home u.entry 8
      (cx.observed.isSome = true → exec i s = .next done)
      ∧ (cx.observed = none → (thr8 = 0 ∨ open_ = [] ∧ thr8 ≤ value) →
          exec i s = .next (match trap with
            | none => done
            | some tr => s.raise tr))
      ∧ (cx.observed = none → thr8 ≠ 0 → (open_ ≠ [] ∨ value < thr8) →
          exec i s = .next (({ s with
            nextId := s.nextId + 1
            watches := s.watches.filter (fun (y : Watch) => y.uid != cx.uid) ++
              [{ id := s.nextId, tile := s.cur.tile, slot := s.cur.slot, uid := cx.uid
                 place := { space := sp, home := u.home, entry := u.entry, tval := watch }, asid := cx.asid, thr := thr8
                 due := s.gtc.toNat + 1 }] } : State).blockOn w))
    ((cx.sreg a).msb = true →
      (x.toNat % 8 = 0 → nAddrOk x = true → cx.det = false →
        (amt.msb = false → exec (.cadd d a 0 o) s = .next
          (((adder.numbered.fly adder.nextId .n (nUnits target o8 8 (fun _ _ => .cadd amt)) true (ordClass o) .none []
            (nWord target o8) lat).dueAt adder.nextId (s.gtc.toNat + lat)).acquireIf (ordAcq o) adder.nextId))
        ∧ (o.acqOnly = true → exec (.cread d a 0 o) s = .next
          ((((reader.numbered.awaited (.s d 0) 8 reader.nextId).modMe tdm).fly reader.nextId .n
            (nUnits target o8 8 (fun _ _ => .load)) false .relaxed (.landing 8 false) (List.replicate 8 0)
            (nWord target o8) (2 * lat + 4)).acquireIf (ordAcq o) reader.nextId))
        ∧ waits (.cwait thr a 0 sc) near .n x (nWord target o8) (((passed.modMe (cap false)).modMe tdm).observe
            (passed.historyAt (near.home.bytes 8))))
      ∧ (amt.msb = true → exec (.cadd d a 0 o) s = .next (s.raise { name := .counterDecrease, tval := amt }))
      ∧ (x.toNat % 8 ≠ 0 →
          (amt.msb = false → exec (.cadd d a 0 o) s = .next (s.raise { name := .align, tval := cx.sreg a }))
          ∧ (o.acqOnly = true → exec (.cread d a 0 o) s = .next (s.raise { name := .align, tval := cx.sreg a }))
          ∧ exec (.cwait thr a 0 sc) s = .next (s.raise { name := .align, tval := cx.sreg a }))
      ∧ (x.toNat % 8 = 0 → (nAddrOk x = false ∨ cx.det = true) →
          (amt.msb = false → exec (.cadd d a 0 o) s = .next (s.raise { name := .protection, tval := cx.sreg a }))
          ∧ (o.acqOnly = true → exec (.cread d a 0 o) s = .next (s.raise { name := .protection, tval := cx.sreg a }))
          ∧ exec (.cwait thr a 0 sc) s = .next (s.raise { name := .protection, tval := cx.sreg a })))
    ∧ (c ≠ 0 →
      (s.translated g 0b1110 → elementTrap s t cx.asid (cx.sreg a) (cx.sreg c) .elem [3, 7] = none →
        (amt.msb = false → exec (.cadd d a c o) s
          = .next (s.numbered.flyAtomic s.nextId g fo (.cadd amt) .none 0 o))
        ∧ (amt.msb = true → exec (.cadd d a c o) s = .next (s.raise { name := .counterDecrease, tval := amt })))
      ∧ (s.translated g 0b1000 → elementTrap s t cx.asid (cx.sreg a) (cx.sreg c) .elem [3, 7] = none →
        (o.acqOnly = true → exec (.cread d a c o) s = .next
          ((((s.numbered.awaited (.s d 0) 8 s.nextId).countRequests t s.cur.slot cx.uid fo).fly s.nextId .d
            (unitsOf (fun _ => .load) fo) false .relaxed (.landing 8 false) (List.replicate 8 0) g.tval
            (accessLatency t fo)).acquireIf (ordAcq o) s.nextId))
        ∧ ∀ u us, unitsOf (fun _ => .load) fo = u :: us → u.home.readable = true →
            waits (.cwait thr a c sc) u .d g.tval g.tval ((passed.countRequests t s.cur.slot cx.uid fo).observe
              (passed.historyAt ((unitsOf (fun _ => .load) fo).flatMap (fun y => y.home.bytes 8)))))
      ∧ (cx.answer = none → g.needs s t cx.asid ≠ [] →
          exec (.cadd d a c o) s = .next (s.park (g.needs s t cx.asid) g.tval)
          ∧ (o.acqOnly = true → exec (.cread d a c o) s = .next (s.park (g.needs s t cx.asid) g.tval))
          ∧ exec (.cwait thr a c sc) s = .next (s.park (g.needs s t cx.asid) g.tval)))

/-! ### Extended instructions -/

/-- R344 to R347, R150: HCFG gives a queue or a window the word of s_A, or of memory, at the end of its bundle, and
raises QUEUE_CONFIG for a word that breaks the rules of its target or for a queue with loads on their way; the memory
form has the alignment and the watermark of a core access. HPUSH appends an element to its queue, behind the loads on
their way; HPOP lands the head and takes it at the end of its bundle. -/
def Obligations.QueuesAreConfiguredAndUsed : Prop :=
  ∀ (s : State) (tgt : BitVec 5) (a : SReg) (off : Lit 11) (q : HReg) (src : SvReg) (d : SReg) (v : VReg), tgt.toNat < 24 →
    let w := s.me.sreg a
    let at_ := effAddr s.me a off 8
    let m := BitVec.ofNat 64 (natOfBytes (s.coreBytes at_ 8))
    let qu := s.me.queue q
    let e : QElem := { complete := s.gtc.toNat, poison := none }
    let sound := s.watermarkBlock at_ 8 = none ∧ at_.toNat % 8 = 0 ∧ s.corePoison at_ 8 = none
    let refused := fun (i : Instr) (n : Word) =>
      exec i s = .next (s.raise { name := .queueConfig, tval := tgt.setWidth 64 + n })
    (hcfgQueue tgt = some q → qu.resv = [] →
      (queueWordOk w s.here.limit = true → exec (.hcfg tgt (.reg a)) s = .next (s.defer (.hcfgQueue q w)))
      ∧ (sound → queueWordOk m s.here.limit = true →
          exec (.hcfg tgt (.mem a off)) s = .next ((s.coreLoadCapture at_ 8).defer (.hcfgQueue q m))))
    ∧ (hcfgQueue tgt = some q →
        (queueWordOk w s.here.limit = false → refused (.hcfg tgt (.reg a)) 0)
        ∧ (sound → queueWordOk m s.here.limit = false → refused (.hcfg tgt (.mem a off)) 0))
    ∧ (hcfgQueue tgt = some q → qu.resv ≠ [] →
        (queueWordOk w s.here.limit = true → refused (.hcfg tgt (.reg a)) 0x100)
        ∧ (sound → queueWordOk m s.here.limit = true → refused (.hcfg tgt (.mem a off)) 0x100))
    ∧ (hcfgQueue tgt = none →
        (windowWordOk w s.cur.tile.toNat = true →
          exec (.hcfg tgt (.reg a)) s = .next (s.defer (.hcfgWindow (hcfgWindow tgt) w)))
        ∧ (windowWordOk w s.cur.tile.toNat = false → refused (.hcfg tgt (.reg a)) 0)
        ∧ (sound → windowWordOk m s.cur.tile.toNat = true →
          exec (.hcfg tgt (.mem a off)) s = .next ((s.coreLoadCapture at_ 8).defer (.hcfgWindow (hcfgWindow tgt) m)))
        ∧ (sound → windowWordOk m s.cur.tile.toNat = false → refused (.hcfg tgt (.mem a off)) 0))
    ∧ (s.watermarkBlock at_ 8 = none → at_.toNat % 8 ≠ 0 →
        exec (.hcfg tgt (.mem a off)) s = .next (s.raise { name := .align, tval := at_ }))
    ∧ (∀ b, s.watermarkBlock at_ 8 = some b → exec (.hcfg tgt (.mem a off)) s = .next (s.blockOn b))
    ∧ (∀ (u : State) (n : Win) (x : Word),
        (u.applyDeferred (.hcfgWindow n x)).me = { u.me with windows := u.me.windows.set n.toNat x n.isLt })
    ∧ (∀ u : State,
        let z := (u.applyDeferred (.hcfgQueue q w)).me.queue q
        let new := queueOfWord w u.gtc.toNat
        z.word = new.word ∧ z.prod = new.prod ∧ z.cons = new.cons ∧ z.held = new.held ∧ z.resv = []
          ∧ (new.held ≠ [] → z.latch
              = BitVec.ofNat 2048 (natOfBytes (u.here.elemBytes u.me.mapping new new.cons.toNat)))
          ∧ (new.held = [] → z.latch = (u.me.queue q).latch))
    ∧ (s.queueRoom q = true → qu.resv = [] →
        ∃ t, exec (.hpush q src) s = .next t
          ∧ (t.me.queue q).held = qu.held ++ [e] ∧ (t.me.queue q).prod = qu.prod + 1 ∧ (t.me.queue q).resv = []
          ∧ (t.me.queue q).cons = qu.cons ∧ (t.me.queue q).word = qu.word
          ∧ t.here.scratch = writeBytes s.here.scratch s.me.mapping s.here.limit
              (BitVec.ofNat 64 (qu.place qu.prod.toNat)) (pushBytes s.me q src)
          ∧ t.me.regs = s.me.regs ∧ t.me.landing = s.me.landing ∧ t.hbm = s.hbm ∧ t.lpddr = s.lpddr)
    ∧ (s.queueRoom q = true → qu.resv ≠ [] →
        ∃ t, exec (.hpush q src) s = .next t
          ∧ (t.me.queue q).resv = qu.resv ++ [{ id := 0, done := some e, logAt := none }]
          ∧ (t.me.queue q).held = qu.held ∧ (t.me.queue q).prod = qu.prod ∧ (t.me.queue q).cons = qu.cons
          ∧ t.here.scratch = writeBytes s.here.scratch s.me.mapping s.here.limit
              (BitVec.ofNat 64 (qu.place (qu.prod.toNat + qu.resv.length))) (pushBytes s.me q src)
          ∧ t.me.regs = s.me.regs ∧ t.me.landing = s.me.landing ∧ t.hbm = s.hbm ∧ t.lpddr = s.lpddr)
    ∧ (qu.configured = true → qu.full = true → exec (.hpush q src) s = .next (s.blockOn (.queueFull q)))
    ∧ (s.headReady q = true →
        exec (.hpop q (.s d)) s
          = .next ((s.land (.s d (BitVec.ofNat 64 (natOfBytes ((s.headBytes q).take 8)))) 1).defer (.pop q))
        ∧ exec (.hpop q (.v v)) s
          = .next ((s.land (.v v (bytesVec (padBytes 256 (s.headBytes q)))) 1).defer (.pop q)))

/-- R378, R379: an SBAR whose barrier has released counts the barrier, and the accesses that follow come after the
writes that the barrier has collected; one whose barrier has not released arrives there and blocks; a level that the
record does not have is ILLEGAL_OP. In a DET record SBAR waits for the pulse of the next superstep. -/
def Obligations.BarriersHoldAndRelease : Prop :=
  ∀ (s : State) (level : BitVec 3),
    (s.me.det = false → level.toNat < s.me.nlev.toNat →
      (∀ b, s.barrierOf s.me level = some b → s.barrierOpen s.me level = true →
        exec (.sbar level) s = .next (s.modMe (fun c => { c with
          released := false
          barriers := c.barriers.set level.toNat (c.barrierCount level + 1) level.isLt
          acquiring := c.acquiring ++ b.after, known := c.known ++ b.after })))
      ∧ (s.me.holds = false → s.barrierOpen s.me level = false →
        exec (.sbar level) s = .next ((s.arriveBarrier s.me level).blockOn (.barrier level))))
    ∧ (s.me.det = true → level.toNat + 1 = s.me.nlev.toNat → s.me.released = false → s.me.holds = false →
        exec (.sbar level) s = .next ((s.arriveBarrier s.me level).blockOn .superstep))
    ∧ (∀ b, s.me.det = true → level.toNat + 1 = s.me.nlev.toNat → s.me.released = true →
        s.barrierOf s.me level = some b →
        exec (.sbar level) s = .next (s.modMe (fun c => { c with
          released := false
          earliest := s.gtc.toNat + 3
          barriers := c.barriers.set level.toNat (c.barrierCount level + 1) level.isLt
          acquiring := c.acquiring ++ b.after, known := c.known ++ b.after })))
    ∧ (s.me.nlev.toNat ≤ level.toNat →
        exec (.sbar level) s = .next (s.raise { name := .illegalOp, tval := sylTval (instrBits (.sbar level)) s.cur.pos }))

/-- R221, R222, R224, R229, R356: MCLAIM takes a free unit, MFREE gives it back at the end of its bundle, MPAR lands a
parameter word, MCALL starts a routine and MPLD loads one; a context that does not own the unit raises MXU_OWNER, and
a unit with the results of another address space is cleared before it is claimed. R248, R249, R253, R208, R209, R211,
R212: GLOAD and GRUN queue a command of the grammar unit, and XCPY and XCPYT one of a channel, with the promise that
its record gives; a full queue blocks. XPROM and XWMK land the promise and the watermark of a channel. -/
def Obligations.EngineCommandsAct : Prop :=
  (∀ (s : State) (k : KReg) (src : MparSrc) (routine : BitVec 10) (o : CmdOrd) (a : SReg),
    let m := s.here.mxu
    let c := s.me
    (m.owner = none → m.clearing = none → m.mustClear c.asid = false →
      exec .mclaim s = .next ((s.modHere (fun x => { x with mxu := { x.mxu with
        owner := some (s.cur.slot, c.uid), lastAsid := some c.asid } })).modMe
          (fun c => setTdm c [4 + stackOf s.cur.tile.toNat])))
    ∧ (∀ j u, m.owner = some (j, u) → u ≠ c.uid → exec .mclaim s = .next (s.blockOn .mxuOwned)
        ∧ exec .mfree s = .next (s.raise { name := .mxuOwner, tval := j.setWidth 64 })
        ∧ exec (.mpar k src) s = .next (s.raise { name := .mxuOwner, tval := j.setWidth 64 }))
    ∧ (m.owner = none → m.clearing = none → m.mustClear c.asid = true →
      exec .mclaim s = .next ((s.modHere (fun x => { x with mxu := { x.mxu with
        clearing := some (s.cur.slot, c.uid, 0) } })).blockOn .mxuOwned))
    ∧ (m.owner = none → exec .mfree s = .next (s.raise { name := .mxuOwner, tval := 0x100 })
        ∧ exec (.mpar k src) s = .next (s.raise { name := .mxuOwner, tval := 0x100 }))
    ∧ (∀ tv : Word, (m.owner = none ∧ tv = 0x100 ∨ ∃ j u, m.owner = some (j, u) ∧ u ≠ c.uid ∧ tv = j.setWidth 64) →
        m.busy s.gtc.toNat = false →
        (m.callable routine = true → exec (.mcall routine o) s = .next (s.raise { name := .mxuOwner, tval := tv }))
        ∧ (256 ≤ routine.toNat → s.watermarkBlock (c.sreg a) 64 = none →
            exec (.mpld routine a) s = .next (s.raise { name := .mxuOwner, tval := tv })))
    ∧ (m.busy s.gtc.toNat = true → m.callable routine = true → exec (.mcall routine o) s = .next (s.blockOn .mxuBusy))
    ∧ (∀ j, m.owner = some (j, c.uid) →
        exec .mclaim s = .next s ∧ exec .mfree s = .next (s.defer .mfree)
        ∧ exec (.mpar k src) s = .next (s.land (.k k (match src with
            | .reg r => c.sreg r
            | .imm v => litSigned v)) 1)
        ∧ (m.callable routine = true → m.busy s.gtc.toNat = false →
            gatherShort c s.gtc.toNat (firstMicro m routine) c.regs.k = none →
            microTrap c (firstMicro m routine) c.regs.k = none →
            let run : MxuRun :=
              { slot := s.cur.slot, uid := c.uid, cid := s.nextId, asid := c.asid, keys := c.special.keys
                spmode := c.special.spmode, k := c.regs.k, pc := 4 * routine.toNat, rep := 0, words := 1
                ainc := 0, binc := 0, ord := o, earlier := s.here.earlierOf c.uid, after := s.ownOpen c }
            exec (.mcall routine o) s = .next (s.numbered.modHere (fun x =>
              { x with mxu := Mxu.advance { x.mxu with run := some run, busyUntil := s.gtc.toNat } 4096 })))
        ∧ (256 ≤ routine.toNat → s.watermarkBlock (c.sreg a) 64 = none → m.busy s.gtc.toNat = false →
            (c.sreg a).toNat % 64 = 0 → s.corePoison (c.sreg a) 64 = none → (∀ w ∈ mpldWords s a, microOk w = true) →
            ∃ t, exec (.mpld routine a) s = .next t ∧ t.here.mxu.callable routine = true
              ∧ (∀ i, i < 4 → t.here.mxu.microAt (4 * routine.toNat + i)
                  = microOf (BitVec.ofNat 128 (natOfBytes (s.coreBytes (c.sreg a + BitVec.ofNat 64 (16 * i)) 16))))
              ∧ t.here.scratch = s.here.scratch ∧ t.me.regs = c.regs ∧ t.me.landing = c.landing)))
  ∧ (∀ (s : State) (a b d : SReg) (sat : Bool) (f : Fmt) (o : CmdOrd) (ch : Chan),
    let c := s.me
    let g := s.here.geu
    let push := fun (cmd : GeuCmd) => s.numbered.modHere (fun x => { x with geu := x.geu.push cmd s.gtc.toNat })
    let issue := fun (tiled : Bool) =>
      let s1 := s.coreLoadCapture (c.sreg a) 64
      let x0 := cmdAt s1 s tiled ch a
      let p := promiseOf s1 s.cur.tile x0 (s.here.channel ch).prev
      let x := { x0 with promise := p }
      (s1.numbered.modHere (fun t =>
        { t with buffer := insertCmd x t.buffer }.setChannel ch { s1.here.channel ch with prev := p })).modMe
          (fun c => { c with promises := c.promises.set ch.toNat (some (s.nextId, p)) ch.isLt })
    (g.queue.length < 4 →
      ((c.sreg a).toNat % 16 = 0 → exec (.gload a) s = .next (push (.load s.cur.slot c.uid s.nextId (c.sreg a).toNat
        c.special.keys c.special.spmode (s.here.earlierOf c.uid) (s.ownOpen c))))
      ∧ (f.isFloat = true → grunCheck s a b = none →
        exec (.grun sat f a b o) s = .next (push (.run s.cur.slot c.uid s.nextId (c.sreg a)
          (if b = 0 then none else some (c.sreg b)) sat f o c.special.keys c.special.spmode (s.here.earlierOf c.uid)
          (s.ownOpen c) 0))))
    ∧ (4 ≤ g.queue.length → exec (.gload a) s = .next (s.blockOn .geuFull)
        ∧ (f.isFloat = true → exec (.grun sat f a b o) s = .next (s.blockOn .geuFull)))
    ∧ (s.watermarkBlock (c.sreg a) 64 = none →
        (s.here.buffer.length < 32 → s.corePoison (c.sreg a) 64 = none →
          (transferCheck s (cmdAt s s false ch a) (c.sreg a) = none → exec (.xcpy ch a) s = .next (issue false))
          ∧ (transferCheck s (cmdAt s s true ch a) (c.sreg a) = none → exec (.xcpyt ch a) s = .next (issue true))
          ∧ ((c.sreg a).toNat % 64 ≠ 0 → exec (.xcpy ch a) s = .next (s.raise { name := .align, tval := c.sreg a })))
        ∧ (32 ≤ s.here.buffer.length → exec (.xcpy ch a) s = .next (s.blockOn .transferFull)
            ∧ exec (.xcpyt ch a) s = .next (s.blockOn .transferFull)))
    ∧ (c.plain = true →
        exec (.xprom d ch) s = .next (s.land (.s d (match c.promises[ch.toNat]'ch.isLt with
          | some (_, p) => BitVec.ofNat 64 p
          | none => 0)) 1)
        ∧ exec (.xwmk d ch) s = .next (s.land (.s d (watermarkWord s s.here c.uid ch)) 1)))

/-- R258, R380, R381, R282, R276, R290: SCAN and SCANA give the contribution of their tile to the next operation of
their region on a channel; RSIG lands the signature or the count, and 0 outside a replicated or logging record; RVOTE
makes a cut in a replica and lands 0 outside; RINJ, in supervisor mode, sets in the replica that it names the mask for
the first data word of the next held write; LAUNCH puts its record into a launch queue and awaits a handle; CANCEL
lands its code and withdraws a record that has not been dispatched. -/
def Obligations.ScansReplicasAndLaunchesAct : Prop :=
  ∀ (s : State) (f : Fmt) (sf : ScanaFmt) (a b : VReg) (q : HReg) (ch : Chan) (carry acq rel : Bool) (m : MReg) (sel : RsigSel)
    (d x y : SReg) (lq : BitVec 2),
    let c := s.me
    let ws := match s.record c.rid with
      | some r => r.words
      | none => []
    let give := fun (affine : Bool) (fm : Fmt) (bv : Vec) (re : Bool) =>
      let s0 := s.modHere (fun t => t.beginScan ch)
      s0.contribute c.rid (regionOf ws c.flat).1 (regionSize ws).1 (regionSize ws).2 ch
        { ordinal := (regionOf ws c.flat).2, tile := s.cur.tile, slot := s.cur.slot, uid := c.uid, q := q, affine := affine
          fmt := fm, carry := carry, a := c.vreg a, b := bv, mask := c.mreg m
          after := if re then s0.history c else [], places := [], given := 0, num := s.nextId }
    (c.plain = true → s.here.scans[ch.toNat]'ch.isLt < 4 → (c.queue q).configured = true → (c.queue q).elemBytes = 256 →
      (f.isFloat = true → exec (.scan f a q ch carry m acq rel) s = .next (give false f 0 rel))
      ∧ exec (.scana sf a b q ch carry m) s = .next (give true (ScanaFmt.fmt sf) (c.vreg b) false))
    ∧ exec (.rsig sel d) s = .next (s.land (.s d (if c.replica.group = 0 ∧ c.log.active = false then 0 else match sel with
        | .lo => c.replica.sig.setWidth 64
        | .hi => (c.replica.sig >>> 64).setWidth 64
        | .cnt => c.replica.count.setWidth 64)) 1)
    ∧ (c.plain = true → exec (.rvote d) s = .next (s.land (.s d 0) 8))
    ∧ (c.holds = true → exec (.rvote d) s = .next ((s.numbered.landLate (.s d 0) 8 s.nextId).cut .rvote s.nextId))
    ∧ (∀ (u : State) (id : Nat), u.me.holds = true → (u.cut .rvote id).me.replica
        = { u.me.replica with cuts := u.me.replica.cuts ++
              [{ kind := .rvote, n := u.me.replica.count, sig := u.me.replica.sig, tag := id, at_ := u.me.bcnt }] })
    ∧ (c.sup = true →
        ((c.replica.group = 0 ∨ c.replica.stack ≠ fld (c.sreg x) 0 2) → exec (.rinj x y) s = .next s)
        ∧ (c.replica.group ≠ 0 → c.replica.stack = fld (c.sreg x) 0 2 →
            exec (.rinj x y) s = .next (s.modMe (fun c' => { c' with replica := { c'.replica with
              inject := some (c.sreg y) } }))))
    ∧ (c.sup = false → exec (.rinj x y) s = .next (s.raise (privTrap (.rinj x y) s)))
    ∧ (∀ (kind size : Nat) (adr : Word) (adrs : List Word) (bs : List Byte) (aux mask w0 : Word) (ws : List Word),
        heldData bs = w0 :: ws → c.replica.inject = some mask →
        ∃ h : HeldWrite, (s.holdWrite kind size adr adrs bs aux).me.replica.buffer = c.replica.buffer ++ [h]
          ∧ h.words = heldHeader kind size adr :: adrs ++ (w0 ^^^ mask) :: ws
          ∧ (s.holdWrite kind size adr adrs bs aux).me.replica.inject = none
          ∧ (s.holdWrite kind size adr adrs bs aux).me.replica.count = c.replica.count + 1)
    ∧ (c.plain = true → c.det = false → s.watermarkBlock (c.sreg x) 256 = none → (c.sreg x).toNat % 64 = 0 → s.corePoison (c.sreg x) 256 = none →
        ((s.queueOf (launchQueue lq)).used < 256 →
          exec (.launch d x lq) s = .next
            (let s2 := (s.numbered.awaited (.s d (c.sreg x)) 8 s.nextId).coreLoadCapture (c.sreg x) 256
             s2.setQueueOf (launchQueue lq)
              ((s2.queueOf (launchQueue lq)).push (wordsOfBytes 32 (s.coreBytes (c.sreg x) 256)) s.nextId)))
        ∧ (256 ≤ (s.queueOf (launchQueue lq)).used → exec (.launch d x lq) s = .next (s.blockOn (.launchFull lq))))
    ∧ (c.plain = true → c.det = false → fld (c.sreg x) 32 21 = s.node →
        (s.byHandle (c.sreg x) c.asid = none → exec (.cancel d x) s = .next (s.land (.s d 2) 8))
        ∧ (∀ r, s.byHandle (c.sreg x) c.asid = some r → r.phase.dispatched = true →
            exec (.cancel d x) s = .next (s.land (.s d 1) 8))
        ∧ (∀ r, s.byHandle (c.sreg x) c.asid = some r → r.phase.dispatched = false →
            exec (.cancel d x) s = .next ((s.land (.s d 0) 8).withdraw r)))

/-! ### Events of bundles and contexts -/

/-- R30, R31: the issue unit of a tile gives Issuing to the Ready context of the highest priority, of those to the
oldest, and of those to the lowest slot; an Issuing context gives way to one of higher priority alone, and becomes
Ready with a new age, unless its presented bundle holds the tile (log entry 38: a context whose block has cleared
keeps its age). No other context of the tile changes. (Completes: issueSelect.) R29, R40, R33, R383: a Blocked context
whose condition has cleared becomes Ready in the primary bank and Ready-out in the second, and keeps the condition of
a CWAIT until its bundle issues; a SLEEPT ends when GTC has reached its time; a Ready-out context that is not being
saved takes a free primary bank, exchanges with a Blocked or Parked context, and with an Issuing or Ready one of lower
priority, in 8 cycles, and presents in the cycle after (its age and what bars an exchange: log entry 38). (Complete:
blockConditionClears, sleepExpiry, bankReturn.) -/
def Obligations.ContextsAreSelectedAndReturn : Prop :=
  (∀ (s : State) (t : TileId) (k : SlotNo),
    let x := s.tile t.toNat
    let p := fun (j : SlotNo) => (x.slot j).primary
    (x.slot k).selectable s.gtc.toNat = true
    → (∀ j : SlotNo, (x.slot j).selectable s.gtc.toNat = true → j ≠ k →
        (p j).prio < (p k).prio ∨ ((p j).prio = (p k).prio ∧ ((p k).age < (p j).age ∨ ((p k).age = (p j).age ∧ k < j))))
    → ∃ u, exec (.issueSelect t) s = .next u
      ∧ ((∀ j, (p j).status ≠ .issuing) →
          ((u.tile t.toNat).slot k).primary = { p k with status := .issuing }
          ∧ ∀ j, j ≠ k → (u.tile t.toNat).slot j = x.slot j)
      ∧ (∀ j, (p j).status = .issuing → (∀ i, (p i).status = .issuing → i = j) →
          ((p j).prio < (p k).prio → (p j).holdsTile = false →
            ((u.tile t.toNat).slot k).primary = { p k with status := .issuing }
            ∧ ((u.tile t.toNat).slot j).primary = { p j with status := .ready, age := s.gtc.toNat }
            ∧ ∀ i, i ≠ k → i ≠ j → (u.tile t.toNat).slot i = x.slot i)
          ∧ (¬ (p j).prio < (p k).prio ∨ (p j).holdsTile = true → u.tile t.toNat = x)))
  ∧ (∀ (s : State) (t : TileId) (k : SlotNo) (b : Bank) (bc : BlockCond) (w : Word),
    let c := s.ctx t.toNat k b
    let sl := (s.tile t.toNat).slot k
    let up := if b = .primary then CtxStatus.ready else CtxStatus.readyOut
    let becomes := fun (o : Host.Outcome State Fault Refusal) (x : Slot) =>
      ∃ u, o = .next u ∧ (u.tile t.toNat).slot k = x
        ∧ ∀ r a, r ≠ t.toNat ∨ a ≠ k → (u.tile r).slot a = (s.tile r).slot a
    let back : Context := { sl.second with
      status := .ready, earliest := Nat.max sl.second.earliest (s.gtc.toNat + 9) }
    let exchanged : Slot :=
      { primary := back, second := sl.primary.displaced s.gtc.toNat, moving := s.gtc.toNat + 8 }
    (c.status = .blocked bc → blockCleared s t k c bc = true →
      ∃ u, exec (.blockConditionClears t k b) s = .next u ∧ u.ctx t.toNat k b = { c with
        status := up
        cleared := (match bc with
          | .counterBelow _ _ | .watch _ _ | .reportAwaited => some bc
          | _ => none) })
    ∧ (c.status = .blocked (.sleep w) → w ≤ s.gtc →
      ∃ u, exec (.sleepExpiry t k b) s = .next u ∧ u.ctx t.toNat k b = { c with status := up })
    ∧ (c.status = .blocked (.sleep w) → s.gtc < w → exec (.sleepExpiry t k b) s = .next s)
    ∧ (sl.second.status = .readyOut → sl.second.saving = false → sl.moving ≤ s.gtc.toNat →
      (sl.primary.status = .free → becomes (exec (.bankReturn t k) s)
        { primary := back, second := Context.reset, moving := s.gtc.toNat + 8 })
      ∧ (∀ x, sl.primary.status = .blocked x → becomes (exec (.bankReturn t k) s) exchanged)
      ∧ (∀ n, sl.primary.status = .parked n → becomes (exec (.bankReturn t k) s) exchanged)
      ∧ ((sl.primary.status = .issuing ∨ sl.primary.status = .ready) → sl.primary.prio < sl.second.prio →
          sl.primary.holdsTile = false → becomes (exec (.bankReturn t k) s) exchanged)))

/-- R62, R102, R297, R378, R379: the presentation of a bundle issues it where nothing stands before its block check; a
DET context whose FRAME has reached its stamp is presented again; a barrier releases its contexts at its cycle, and in
a DET record sends the pulses of the next superstep once no transfer is open; a pulse restarts FRAME, from the cycle
in which it was due, and, from the second on, advances SSTEP (its way between packages: log entry 38). (Complete:
bundlePresentation, stampReached, barrierRelease, startPulse.) -/
def Obligations.PresentationsAreClocked : Prop :=
  (∀ (s : State) (t : TileId) (k : SlotNo),
    let n : State := { s with turn := 2 * t.toNat + 2 }
    s.presenter t.toNat = some k → (∀ j : SlotNo, ((s.tile t.toNat).slot j).primary.owed = []) → s.presents t k →
      exec (.bundlePresentation t) n = .next ((s.atTurn t k).issueBundle (s.atTurn t k).fetch))
  ∧ (∀ (s : State) (t : TileId) (k : SlotNo),
    let at_ : State := { s with cur := { tile := t, slot := k, pos := .sa } }
    s.presenter t.toNat = some k → at_.me.det = true → at_.me.committed = true → at_.fetch.stamp ≠ 0 →
      frameOf at_ at_.me = at_.fetch.stamp.toNat → exec (.stampReached t) s = .next at_.present)
  ∧ (∀ (s : State) (r : Record) (bd : Barrier) (d : Nat),
    s.barriers.find? (fun b => b.id == bd.id) = some bd → s.record bd.rid = some r → s.barrierHeld bd = false →
      ((bd.due = some d ∧ d ≤ s.gtc.toNat) ∨
        (bd.due = none ∧ d = s.gtc.toNat ∧ spansPackages r bd.level.toNat = true ∧ localFull s bd r = true)) →
        (recDet r.words = false → exec (.barrierRelease bd.id) s
          = .next (({ s with
              barriers := replaceFirst (fun x => x.id == bd.id) (fun x => { x with due := some d }) s.barriers } : State).releaseWaiters
              bd r))
        ∧ (recDet r.words = true → s.transfersOpen bd.rid = false → exec (.barrierRelease bd.id) s
          = .next (let u : State := { s with barriers := s.barriers.filter (fun x => x.id != bd.id) }
                   if r.pkgIndex = 0 then u.sendPulses r else u)))
  ∧ (∀ (s : State) (r : Record) (t origin : TileId) (left : Nat),
    let reached := fun (u : State) (at_ : Nat) => (s.bound r.rid).foldl (fun (st : State) x =>
      if x.1 = t.toNat then st.modCtx x.1 x.2.1 x.2.2.1 (fun c => c.pulse x.2.2.1 at_) else st) u
    let come := left + hopLatency origin.toNat t.toNat + 512 * edgeLinks (recNode0 r.words) s.node
    let due := s.pulses.find? (fun p => p.rid == r.rid && p.tile == t && decide (p.due ≤ s.gtc.toNat))
    s.record r.rid = some r → r.phase = .running → recDet r.words = true →
      (∀ p, due = some p → exec (.startPulse r.rid { tile := t, origin := origin, left := left }) s
        = .next (reached { s with pulses := s.pulses.filter (fun q => q.rid != r.rid || q.tile != t || q.due != p.due) } p.due))
      ∧ (due = none → r.pkgIndex ≠ 0 → come ≤ s.gtc.toNat →
          exec (.startPulse r.rid { tile := t, origin := origin, left := left }) s = .next (reached s come)))
  ∧ (∀ (c : Context) (b : Bank) (g : Nat),
      (c.pulseAt = none → c.pulse b g = { c with pulseAt := some g })
      ∧ (c.pulseAt ≠ none → (c.pulse b g).sstep = c.sstep + 1 ∧ (c.pulse b g).pulseAt = some g
          ∧ (c.pulse b g).released = true
          ∧ (c.status = .blocked .superstep → (c.pulse b g).status = unblocked b)))

/-- R171 to R174, R33: a walk that ends answers a missing descriptor itself, or fills the cache and answers, or queues
the record for the MMP; the MMP maps what one of the eight oldest records asks for, or refuses it, or asks the host to
pin it, or evicts a frame for it; an answer makes its context Ready, with the refusal for its next presentation; a
refusal by another package drops the access in flight, the watch or the read of a channel that it names, with its trap
and its event. Which of the eight is served is the MMP's choice (log entry 48), and so is the frame (17); the event of
a refusal by another package is that of log entry 54. (Complete: walkerAnswer, faultService, faultAnswer,
remoteRefusal.) R176, R179, R181: an agent whose requests through an entry under shoot-down have all been accepted
drops its cached copies and acknowledges; after the last acknowledgement the MMP releases or copies the memory; a
migration scan, each 2^24 cycles, reads and clears the hint tables. (Complete: shootdownAck, shootdownComplete,
migrationScan.) -/
def Obligations.FaultsAreServed : Prop :=
  ((∀ (s : State) (id : Nat) (f : FaultRec),
    let answered := fun (x : Option AnswerKind) (g : FaultRec) => ({ g with stage := .answered x, due := s.gtc.toNat + 50 } : FaultRec)
    s.fault id = some f → f.stage = .walking →
      (∀ d, missingDesc s f = some d → exec (.walkerAnswer id) s
        = .next (s.modFault id (answered (some (.noDescriptor (BitVec.ofNat 64 d))))))
      ∧ (missingDesc s f = none → f.needs.all (needMapped s f.asid) = true →
        (∀ t k uid, f.who = .ctx t k uid → exec (.walkerAnswer id) s
          = .next ((f.needs.foldl (fun (st : State) n => st.fillNeed t.toNat f.asid n) s).modFault id (answered none)))
        ∧ ((∀ t k uid, f.who ≠ .ctx t k uid) → exec (.walkerAnswer id) s = .next (s.modFault id (answered none))))
      ∧ (missingDesc s f = none → f.needs.all (needMapped s f.asid) = false → exec (.walkerAnswer id) s
          = .next (s.modFault id (fun g => { g with stage := .queued, due := s.gtc.toNat + 3480 }))))
  ∧ (∀ (s s1 : State) (id frame : Nat) (f : FaultRec) (n : Need),
    let found := s.serveNeeds f.asid (firstStack s f) frame f.needs
    (s.mmp.queuedFaults.take 8).find? (fun f => f.id == id) = some f →
      (found = (s1, .mapped, none) → exec (.faultService id frame) s = .next (s1.answerServed f.asid))
      ∧ (∀ r, found = (s1, .refused r, some n) → exec (.faultService id frame) s = .next (s1.refuseNeed f.asid n r))
      ∧ (∀ x y, found = (s1, .pin x y, some n) → exec (.faultService id frame) s = .next (s1.askPin f.asid n x y))
      ∧ (∀ x y, found = (s1, .evict x y, some n) → s.evicting = false → exec (.faultService id frame) s
          = .next (s.startEviction (transferEntries s) x y)))
  ∧ (∀ (s : State) (id : Nat) (f : FaultRec) (a : Option AnswerKind) (t : TileId) (k : SlotNo) (uid : Nat),
    let gone := s.dropFault id
    s.fault id = some f → f.stage = .answered a → f.who = .ctx t k uid →
      (∀ b, (gone.tile t.toNat).bankOf k uid = some b →
        let filled := if a = none then f.needs.foldl (fun (st : State) n => st.fillNeed t.toNat f.asid n) gone else gone
        exec (.faultAnswer id) s = .next (filled.modCtx t.toNat k b
          (fun c => { c with answer := a, status := if c.status = .parked id then unblocked b else c.status })))
      ∧ ((gone.tile t.toNat).bankOf k uid = none → exec (.faultAnswer id) s = .next (gone.answerSaved uid a)))
  ∧ (∀ (s : State) (id : Nat) (f : FaultRec) (rid : Nat), s.fault id = some f → f.stage = .answered none →
      f.who = .scheduler rid → exec (.faultAnswer id) s = .next (s.dropFault id))
  ∧ (∀ (s : State) (id : Nat) (f : Flight) (t : TileId) (k : SlotNo) (uid : Nat),
    s.flights.find? (fun f => f.id == id) = some f → f.isOpen = true → (∃ u ∈ f.units, u.home.away = true) →
      (f.issuer = .ctx t k uid → exec (.remoteRefusal id) s
        = .next ((s.refuseCtx f t k uid).remoteEvent t k uid f.asid f.tval))
      ∧ (f.issuer = .engine t k uid → exec (.remoteRefusal id) s
        = .next (((s.refuseWrite t f.id 0x82 (fun _ => remoteTrap f.tval)).dropFlight f.id).remoteEvent t k uid f.asid f.tval)))
  ∧ (∀ (s : State) (id : Nat) (w : Watch), s.flights.find? (fun f => f.id == id) = none →
      s.watches.find? (fun w => w.id == id) = some w → w.place.home.away = true →
      exec (.remoteRefusal id) s = .next (s.refuseWatch w))
  ∧ (∀ (s : State) (id : Nat) (t : TileId) (ch : Chan) (r : XRun), s.flights.find? (fun f => f.id == id) = none →
      s.watches.find? (fun w => w.id == id) = none → s.remoteReader id = some (t, ch, r) →
      exec (.remoteRefusal id) s = .next (s.refuseRead t ch r)))
  ∧ ((∀ (s : State) (sd : Shootdown) (t : TileId),
    let gone := fun (agent : Nat) (m : Mmp) => ({ m with shoots := m.shoots.map (fun x =>
      if x.id = sd.id then { x with acks := x.acks.erase agent } else x) } : Mmp)
    s.mmp.shoots.find? (fun x => x.id == sd.id) = some sd →
      (sd.acks.contains 0 = true → ackReady s sd 0 = true → exec (.shootdownAck sd.id 0) s = .next (s.modMmp (gone 0)))
      ∧ (sd.acks.contains (t.toNat + 1) = true → ackReady s sd (t.toNat + 1) = true →
          exec (.shootdownAck sd.id (t.toNat + 1)) s
            = .next ((s.modTile t.toNat (fun x => x.invalidate sd.asid sd.key)).modMmp (gone (t.toNat + 1)))))
  ∧ (∀ (x : Tile) (asid : BitVec 12) (key : EntryKey), ∀ e ∈ (x.invalidate asid key).entries,
      e ∈ x.entries ∧ ¬ (e.asid = asid ∧ e.key = key))
  ∧ (∀ (s : State) (sd : Shootdown), s.mmp.shoots.find? (fun x => x.id == sd.id) = some sd → sd.acks = [] →
      exec (.shootdownComplete sd.id) s
        = .next ((((s.finishShoot sd).dropHint sd.key).modMmp (fun m =>
            { m with shoots := m.shoots.filter (fun x => x.id != sd.id) })).replyShot sd.seq))
  ∧ (∀ s : State, s.gtc.toNat % 2 ^ 24 = 0 → ∃ u, exec .migrationScan s = .next u ∧ u.mmp.hints = []
      ∧ u.mmp.asids = s.mmp.asids ∧ u.tiles = s.tiles ∧ u.lpddr = s.lpddr))

/-! ### Events of memory and of the engines -/

/-- R143, R160, R186, R195, R306, R307, R310, R328, R333, R152: a unit of an access is performed once, at its home,
after what the access follows: a load returns the bytes there, a store writes its own, an atomic replaces the element
by the value that its code gives and returns the old one, a counter add that would pass 2^64 − 1 leaves the counter. A
read of a word that holds an uncorrectable error is poisoned; a place on a lost die keeps nothing and returns zeros
with the mark. A read takes what the last writers of its units had before them, and a write leaves its own history
there. A place that does not exist stops the run (the model's own fault, log entry 16); the poison mark, the zeros of
a lost die and the report are those of log entry 35. A write through an N port is an event of its own, and a load of S
that an earlier access has held reads in its tile; `ext` is what a home outside the package returns. (Complete:
homePortAccess, incomingNWrite.) -/
def Obligations.HomesPerformUnits : Prop :=
  ∀ (s0 : State) (f : Flight) (u : AccessUnit) (i : Nat),
    s0.flights.find? (fun g => g.id == f.id) = some f → f.units[i]? = some u → s0.canPerform f i = true →
      let s := s0.grantPort u.home
      let n := u.len
      let places := u.home.bytes n
      let seen := if u.op.reads then s.historyAt places else []
      let lost := s.lostHome (s.mapOf f.issuer) u.home u.entry
      let bad : Option Word := some (memDataTval s f u.home n)
      let counted := fun (t : State) => t.countAtomic u.entry (unitStack s u) f.asid (stackOf f.issuer.place.1)
      let ends := fun (t : State) (bs : List Byte) (poison : Option Word) => t.finishUnit f i u bs poison seen
      let reads := fun (t : State) (bs : List Byte) (poison : Option Word) =>
        (.next (((ends t bs poison).acquireSeen f seen).raiseUnheard f i u) : Host.Outcome State Fault Refusal)
      let writes := fun (t : State) (bs : List Byte) =>
        (.next ((((ends t bs none).mark places (f.hist ++ seen) u.op.reads).acquireSeen f seen).raiseUnheard f i u) :
          Host.Outcome State Fault Refusal)
      let performs := fun (run : Host.Outcome State Fault Refusal) (read : List Byte) =>
        let old := natOfBytes read
        (homeExists u.home n = false → run = .fault .absentMemory)
        ∧ (homeExists u.home n = true → lost = true → run = reads s (List.replicate n 0) bad)
        ∧ (homeExists u.home n = true → lost = false →
          (u.op = .load → run = reads s read (if badAt s u.home n then bad else none))
          ∧ (∀ bs, u.op = .fill bs → run = reads s bs none)
          ∧ (∀ bs, u.op = .store bs → run = writes (s.placeWrite u.home bs) [])
          ∧ (∀ code v w sg, u.op = .atomic code v w sg → badAt s u.home n = false →
            let x := v.toNat % 2 ^ (8 * n)
            let y := w.toNat % 2 ^ (8 * n)
            let less := fun a b => if sg then signedOf (8 * n) a < signedOf (8 * n) b else a < b
            ∃ new, run = writes (counted (s.placeWrite u.home (bytesOfNat n new))) (bytesOfNat n old)
              ∧ (code = 0x1C → new = (old + x) % 2 ^ (8 * n))
              ∧ (code = 0x1D → new = if old = x then y else old)
              ∧ (code = 0x1E → (less old x → new = x) ∧ (¬ less old x → new = old))
              ∧ (code = 0x1F → (less x old → new = x) ∧ (¬ less x old → new = old))
              ∧ (code = 0x20 → new = x)
              ∧ (code = 0x21 → new = old ^^^ x))
          ∧ (∀ amt a, u.op = .cadd amt → u.home = .hbm a → n = 8 → badAt s u.home n = false →
            (old + amt.toNat < 2 ^ 64 →
              run = writes (counted (s.writeHbm a (bytesOfNat 8 (old + amt.toNat)))) [])
            ∧ (2 ^ 64 ≤ old + amt.toNat →
              run = writes (counted (s.counterWrap f.issuer f.asid (BitVec.ofNat 64 old) f.tval)) []))
          ∧ (∀ amt t o, u.op = .cadd amt → u.home = .scratch t o → n = 8 → badAt s u.home n = false →
            o < (s.tile t.toNat).limit → old + amt.toNat < 2 ^ 64 →
              run = writes (counted (s.placeWrite u.home (bytesOfNat 8 (old + amt.toNat)))) [])
          ∧ (∀ img, u.op = .qred img false → n = 80 → badAt s u.home n = false →
            let line : Quire := Quire.ofImage (BitVec.ofNat 640 old)
            let sum := line.bits.toInt + img.toInt
            line.valid = true → img ≠ invalidPattern →
              run = writes (counted (s.placeWrite u.home (bytesOfNat 80 (Quire.image
                { line with bits := line.bits + img
                            ovf := line.ovf || decide (sum < -(2 ^ 639) ∨ 2 ^ 639 ≤ sum) }).toNat))) []))
      (f.space ≠ .s → u.nWrite = false → ∀ ext, performs (exec (.homePortAccess f.id i ext) s0) (placeRead s u.home n ext))
      ∧ (f.space ≠ .s → u.nWrite = true → performs (exec (.incomingNWrite f.id i) s0) (placeRead s u.home n 0))
      ∧ (∀ t o ext, f.space = .s → f.units = [u] → u.op = .load → f.writes = false → u.home = .scratch t o →
          let seen := s0.historyAt places
          s0.lostHome (s0.mapOf f.issuer) u.home u.entry = false → exec (.homePortAccess f.id i ext) s0
            = .next (((s0.finishUnit f i u (placeRead s0 u.home n 0)
                (if badAt s0 u.home n then some (memDataTval s0 f u.home n) else none) seen).acquireSeen f seen).raiseUnheard
                  f i u))

/-- R96, R290, R327, R151, R337, R310: the value of an access whose units are all performed arrives at its landing or
at its queue element; another package's scheduler answers a CANCEL with 0, 1 or 2 and a LAUNCH with a handle of that
package, or with 0 and LAUNCH_FORMAT; a multicast store lands at every tile of its window after those that land before
it; the home of a watched counter answers once its value has reached the threshold, or raises MEM_DATA where it cannot
be read (log entries 28 and 35; the words that another package returns are free, log entry 1). (Complete:
lateValueArrival, queueElementDelivery, multicastLanding, counterWatchAnswer.) -/
def Obligations.ValuesArrive : Prop :=
  ∀ (s : State) (f : Flight) (m : Mcast) (w : Watch) (t : TileId) (k : SlotNo) (uid z eb : Nat) (sg : Bool) (q : HReg)
    (ext : Word) (b : Bank) (tag r : Nat) (c : Context) (n : BitVec 21) (d : CoreDest),
    let drawn : State := { s with drawn := s.drawn + 1 }
    (s.flights.find? (fun g => g.id == f.id) = some f → f.issuer = .ctx t k uid → f.isOpen = false → f.sink = .landing z sg →
      exec (.lateValueArrival f.id) s = .next (((s.noteSeen t.toNat k uid f.id none f.seen).arriveWord t.toNat k uid f.id
        (extendLoad z sg f.data) f.poison none).dropFlight f.id))
    ∧ (s.flights.find? (fun g => g.id == f.id) = some f → f.issuer = .ctx t k uid → f.isOpen = false → f.sink = .core d →
      exec (.lateValueArrival f.id) s
        = .next (((s.noteSeen t.toNat k uid f.id none f.seen).arriveCore t.toNat k uid f d).dropFlight f.id))
    ∧ (∀ l : Landing, s.uidCtx t.toNat k uid = some c → c.awaits f.id = some l →
        (s.arriveCore t.toNat k uid f d).uidCtx t.toNat k uid = some (c.arrive f.id s.gtc.toNat (fun l =>
          { l with write := d.write l.write f.data, poison := f.poison })))
    ∧ (s.flights.find? (fun g => g.id == tag) = none → s.awaiting tag = some (r, k, c) → s.askedElsewhere tag = true →
      ((∀ a x og, OutMsg.record a x og ∈ s.out → og.node = s.node → og.tag ≠ tag) →
        ∃ x, x < 3 ∧ exec (.lateValueArrival tag) s
          = .next (drawn.arriveWord r k c.uid tag (BitVec.ofNat 64 x) none none))
      ∧ (∀ bs og, OutMsg.record n bs og ∈ s.out → og.node = s.node → og.tag = tag →
          (∀ a x og, OutMsg.record a x og ∈ s.out → og.node = s.node → og.tag = tag → a = n) →
        (∃ x : BitVec 32, x ≠ 0 ∧ exec (.lateValueArrival tag) s
          = .next (drawn.arriveWord r k c.uid tag (n.setWidth 64 <<< 32 ||| x.setWidth 64) none none))
        ∨ (∃ u tr, exec (.lateValueArrival tag) s = .next (State.arriveWord u r k c.uid tag 0 none (some tr))
          ∧ tr.name = .launchFormat ∧ u.tiles = s.tiles)))
    ∧ (s.flights.find? (fun g => g.id == f.id) = some f → f.issuer = .ctx t k uid → f.isOpen = false →
      let noted := s.noteSeen t.toNat k uid f.id (some q) f.seen
      (f.sink = .queue q eb z sg → z ≠ 256 → exec (.queueElementDelivery f.id) s
        = .next ((noted.arriveElem t.toNat k uid q f.id 1 (tongsKey f.at_ .ma)
            (padBytes eb (bytesOfNat 8 (extendLoad z sg f.data).toNat)) f.poison).dropFlight f.id))
      ∧ (f.sink = .queue q eb 256 sg → exec (.queueElementDelivery f.id) s
        = .next ((noted.arriveElem t.toNat k uid q f.id 1 (tongsKey f.at_ .ma) f.data f.poison).dropFlight f.id)))
    ∧ (∀ (x : Word) (l : Landing), s.uidCtx t.toNat k uid = some c → c.awaits tag = some l → c.plain = true →
        l.logAt = none →
        ∃ u, s.arriveWord t.toNat k uid tag x f.poison none = u
          ∧ u.uidCtx t.toNat k uid = some (c.arrive tag s.gtc.toNat (fun l =>
              { l with write := l.write.withWord x, poison := f.poison, event := none })))
    ∧ (s.mcasts.find? (fun n => n.id == m.id) = some m → m.land ≤ s.gtc.toNat → (∀ n ∈ s.mcasts, n.before m = false) →
        let ts := rectTiles m.x0 m.y0 m.x1 m.y1
        exec (.multicastLanding m.id) s
          = .next ((ts.foldl (fun (st : State) t => st.landAt m t)
              { s with mcasts := s.mcasts.filter (fun n => n.id != m.id) }).mcastLost m ts))
    ∧ (s.watches.find? (fun x => x.id == w.id) = some w → (s.tile w.tile.toNat).bankOf w.slot w.uid = some b →
        let c := s.ctx w.tile.toNat w.slot b
        let v := BitVec.ofNat 64 (natOfBytes (placeRead s (w.homeNow s) 8 (ext.setWidth 640)))
        let gone := fun (x : Context) => { s.setCtx w.tile.toNat w.slot b { x with status := unblocked b } with
          watches := s.watches.filter (fun x => x.id != w.id) }
        let first := s.afterOf c w.tile.toNat [w.unit s] false .relaxed
        c.status = .blocked (.watch w.place w.thr) →
          (watchTrap s w = none →
            (w.thr ≤ v → first = [] → exec (.counterWatchAnswer w.id ext) s
              = .next (gone { c with observed := some v, cleared := some (.watch w.place w.thr) }))
            ∧ (v < w.thr ∨ first ≠ [] → exec (.counterWatchAnswer w.id ext) s = .next s))
          ∧ (∀ tr, watchTrap s w = some tr → exec (.counterWatchAnswer w.id ext) s
              = .next ((gone c).engineTrap w.tile.toNat w.slot w.uid c.asid tr)))

/-- R207, R210, R211, R214, R216, R428, R453: the first buffered command of an idle channel starts at its cycle. A
chunk is staged, shared and written, the pieces that a channel holds first; a chunk ends its command with a status, or
waits on a fault, and a store of OUTSIDE elements alone reads no source in S. An input that a stream or the lead
supplies is not read. An answered fault lets the command go on with a later promise, or aborts it; a promise that has
passed is reported once; a command whose writes are performed completes: its STATUS byte, its post, its flags and its
trap, in one cycle; in a replica a release into S first makes its cut. A source that no memory holds stops the run
(the model's own fault, log entry 16); the pieces and the side that TVAL names are those of log entry 22, the cycles
of the ends those of 23, the replayed inputs those of 61. (Complete: transferStart, transferChunk, channelFaultAnswer,
promiseExpiry, transferComplete.) -/
def Obligations.TransfersRun : Prop :=
  ∀ (s : State) (t : TileId) (ch : Chan) (len : Nat) (ext : List Byte) (c : XCmd) (start : Nat) (r : XRun) (d : XDone)
    (tr : Trap) (f : FaultRec) (f0 : Nat),
    let x := s.tile t.toNat
    let chan := x.channel ch
    (chan.run = none → nextCommand x ch = some (c, start) → start ≤ s.gtc.toNat →
      ∃ u r0, exec (.transferStart t ch) s = .next u ∧ ((u.tile t.toNat).channel ch).run = some r0
        ∧ r0.cmd = c ∧ r0.start = s.gtc.toNat ∧ r0.done = 0 ∧ r0.held = []
        ∧ (u.tile t.toNat).buffer = x.buffer.filter (fun y => y.cid != c.cid) ∧ (u.tile t.toNat).scratch = x.scratch)
    ∧ (chan.run = some r → chunkReady s r = true → r.held ≠ [] →
        exec (.transferChunk t ch len ext) s = .next (s.writeChunk t ch r len))
    ∧ (chan.run = some r → chunkReady s r = true → r.held = [] → r.cmd.srcSpace = 0 → r.cmd.allOutside s = true →
        exec (.transferChunk t ch len ext) s = .next (s.endCommand t ch r 1 none))
    ∧ (chan.run = some r → chunkReady s r = true → r.held = [] → (r.cmd.srcSpace = 0 → r.cmd.allOutside s = false) →
        (suppliedRun s t r = some true → exec (.transferChunk t ch len ext) s = .next (s.replayInput t ch r))
        ∧ (suppliedRun s t r = some false → exec (.transferChunk t ch len ext) s = .next s))
    ∧ (chan.run = some r → chunkReady s r = true → r.held = [] → (r.cmd.srcSpace = 0 → r.cmd.allOutside s = false) →
      suppliedRun s t r = none →
      ∀ r1 s1, (if r.cmd.gather then popIndices s t r (neededElems s r - r.indices.length) else (none, r, s)) = (none, r1, s1) →
        (∀ r2 found, stageChunk s1 t r1 ext = .ready r2 found →
          let s2 := if r.cmd.srcSpace = 2 then s1.countRequests t.toNat r.cmd.slot r.cmd.uid found
            else if r.cmd.srcSpace = 1 then s1.modUid t.toNat r.cmd.slot r.cmd.uid (fun c =>
              setTdm c [stackOf (nTileId r.cmd.src).toNat])
            else s1
          let s3 := s2.captureEngine t.toNat r.cmd.slot r.cmd.uid false (r.cmd.srcSpace == 1) (nTileId r.cmd.src).toNat
            (r1.readOut s1 t r2)
          exec (.transferChunk t ch len ext) s
            = .next ((s3.shareChunk t r2 r2.held (r1.indices.length - r2.indices.length)).writeChunk t ch r2 len))
        ∧ (∀ st tp, stageChunk s1 t r1 ext = .stop st tp →
            exec (.transferChunk t ch len ext) s = .next (s1.stopCommand t ch r1 st tp))
        ∧ (∀ ns, stageChunk s1 t r1 ext = .miss ns →
            exec (.transferChunk t ch len ext) s = .next (s1.chunkMiss t ch r1 ns))
        ∧ (stageChunk s1 t r1 ext = .wait →
            exec (.transferChunk t ch len ext) s = .next (s1.modTile t.toNat (fun x => x.setRun ch r1)))
        ∧ (stageChunk s1 t r1 ext = .absent → exec (.transferChunk t ch len ext) s = .fault .absentMemory))
    ∧ (chan.run = some r → chunkReady s r = true → r.held = [] → (r.cmd.srcSpace = 0 → r.cmd.allOutside s = false) →
        suppliedRun s t r = none → r.cmd.gather = true →
        ∀ r1 s1, popIndices s t r (neededElems s r - r.indices.length) = (some tr, r1, s1) →
          exec (.transferChunk t ch len ext) s = .next (s1.stopCommand t ch r1 0x83 tr))
    ∧ (∀ st tp, let end_ : XDone :=
          { cmd := r.cmd, status := st, trap := tp, flags := r.flags, writes := r.writes, fault := none, noPost := false
            endedAt := s.gtc.toNat }
        let u := (s.endCommand t ch r st tp).tile t.toNat
        u.done = x.done ++ [end_] ∧ u.channel ch = { run := none, prev := chan.prev, freeAt := s.gtc.toNat + 1 })
    ∧ (r.cmd.compress = false → r.cmd.expand = false → r.cmd.fill = false → r.cmd.transpose = false →
        r.cmd.convert = false → r.cmd.gather = false → r.cmd.srcSpace = 0 → chunkElems s r ≠ 0 →
        let n := chunkElems s r * r.cmd.zs
        let at_ := r.cmd.src + BitVec.ofNat 64 (r.done / r.cmd.zd * r.cmd.zs)
        s.scratchBad t.toNat r.cmd.map x.limit at_ n = false →
          stageChunk s t r ext = .ready (stageBytes s r (x.readBytes r.cmd.map x.limit at_ n) 0) [])
    ∧ (answeredChannel s t ch = some (f, some .refused) → chan.run = some r → r.fault = some (f.id, f0) →
        x.done.find? (fun e => e.fault.map Prod.fst == some f.id) = none →
        ∀ r1, let s1 := (s.dropFault f.id).modTile t.toNat (fun y => y.reissue ch r.cmd.cid (s.gtc.toNat - f0))
          ((s1.tile t.toNat).channel ch).run = some r1 →
            exec (.channelFaultAnswer t ch) s
              = .next (s1.stopCommand t ch { r1 with fault := none, start := r1.start + (s.gtc.toNat - f0) } 0x82
                  (refusalTrap (r.missTval s))))
    ∧ (answeredChannel s t ch = some (f, none) → r.fault = some (f.id, f0) →
        ∀ r1, let filled := (f.needs.foldl (fun (st : State) n => st.fillNeed t.toNat f.asid n) s).dropFault f.id
          let s1 := filled.modTile t.toNat (fun y => y.reissue ch r.cmd.cid (s.gtc.toNat - f0))
          ((filled.tile t.toNat).channel ch).run = some r →
          (filled.tile t.toNat).done.find? (fun e => e.fault.map Prod.fst == some f.id) = none →
          ((s1.tile t.toNat).channel ch).run = some r1 →
            exec (.channelFaultAnswer t ch) s = .next (s1.modTile t.toNat (fun y =>
              y.setRun ch { r1 with fault := none, start := r1.start + (s.gtc.toNat - f0) })))
    ∧ (s.tileOfCmd c.cid = some t.toNat → x.cmds.find? (fun e => e.cid == c.cid) = some c → promiseOver s x c = true →
        exec (.promiseExpiry c.cid) s
          = .next ((s.modTile t.toNat (fun y => y.markMissed c.cid)).engineTrap t.toNat c.slot c.uid c.asid
              { name := .promiseMissed, tval := c.cmdTval } c.cid))
    ∧ (s.tileOfCmd d.cmd.cid = some t.toNat → x.done.find? (fun e => e.cmd.cid == d.cmd.cid) = some d →
        completionReady s t.toNat d = true → d.cmd.csp = 1 → d.noPost = false →
        s.mustCut t.toNat d.cmd.slot d.cmd.uid d.cmd.cid d.cmd.rel = true →
          exec (.transferComplete d.cmd.cid) s = .next (s.cutPost t.toNat d.cmd.slot d.cmd.uid d.cmd.cid))
    ∧ (s.tileOfCmd d.cmd.cid = some t.toNat → x.done.find? (fun e => e.cmd.cid == d.cmd.cid) = some d →
        completionReady s t.toNat d = true → d.cmd.csp ≠ 3 →
        (d.cmd.csp = 1 → d.noPost = false → s.mustCut t.toNat d.cmd.slot d.cmd.uid d.cmd.cid d.cmd.rel = false) →
        (d.noPost = true ∨ postRoom s t.toNat d.cmd.slot d.cmd.uid d.cmd.cid (postRef d.cmd.csp d.cmd.cnt) = true →
          exec (.transferComplete d.cmd.cid) s = .next (s.complete t d))
        ∧ (d.noPost = false → postRoom s t.toNat d.cmd.slot d.cmd.uid d.cmd.cid (postRef d.cmd.csp d.cmd.cnt) = false →
          exec (.transferComplete d.cmd.cid) s = .next (s.cutFull t.toNat d.cmd.slot d.cmd.uid)))
    ∧ (let gone := s.modTile t.toNat (fun y => { y with done := y.done.filter (fun e => e.cmd.cid != d.cmd.cid) })
        let byte := BitVec.ofNat 64 (d.cmd.recOff + 63)
        let stored := (gone.captureEngine t.toNat d.cmd.slot d.cmd.uid true false 0
          (firstOut (gone.tile t.toNat).limit byte 1)).engineStore t.toNat d.cmd.map byte [d.status]
        let posted := if d.noPost then stored else stored.enginePost t d.cmd.slot d.cmd.uid d.cmd.asid d.cmd.map
          (postRef d.cmd.csp d.cmd.cnt) (BitVec.ofNat 64 (d.cmd.postCount s)) d.cmd.rel d.poster
        let flagged := posted.engineFlags t.toNat d.cmd.slot d.cmd.uid d.flags
        (d.trap = none → s.complete t d = flagged)
        ∧ (d.trap = some tr → s.complete t d = flagged.engineTrap t.toNat d.cmd.slot d.cmd.uid d.cmd.asid tr d.cmd.cid))

/-- R130, R221, R226, R228, R231, R234 to R236, R310: at a word of its kind the matrix unit starts a dense or a sparse
step, a write-out or a clear, which occupies it for 128 cycles; at its completion a step promotes its terms into the
accumulators, a clear empties them, and a write-out posts, in a replica behind its cut; a routine of more than 4,096
words is stopped with ILLEGAL_OP once the last of them has taken its time; a claim by another address space clears the
accumulators, in 128 cycles, once every routine has ended (its turn among the claims is that of log entry 24). A clear
of a unit whose MXD is lost is suppressed with MEM_DATA (log entry 35 on the marks). (Complete: mxuDenseStep,
mxuSparseStep, mxuWriteOut, mxuClear, mxuOperationComplete, mxuRoutineRunaway, mxuAsidClear.) -/
def Obligations.MatrixOperationsRun : Prop :=
  ∀ (s : State) (t : TileId) (r : MxuRun) (w : MicroOp) (o : MxuOp) (k : SlotNo) (uid n : Nat),
    let m := (s.tile t.toNat).mxu
    let now := s.gtc.toNat
    let without := s.modTile t.toNat (fun x => { x with mxu := { x.mxu with ops := x.mxu.ops.erase o } })
    let promotes := fun (u : State) (f : Fmt) (scales : List Byte) (terms : Nat → Nat → List (Option Sys2Proof.Machine.Dyadic × Option Sys2Proof.Machine.Dyadic)) =>
      ∀ i j, i < 64 → j < 64 → (u.tile t.toNat).mxu.accAt (64 * i + j)
        = promoteTerms f ((scaleAt scales i).mul (scaleAt scales 64)) (m.accAt (64 * i + j)) (terms i j)
    let at_ := m.run = some r ∧ w = m.microAt r.pc ∧ m.busyUntil ≤ now ∧ r.words ≤ 4096
    (at_ → gatherWaits s t.toNat r w = false → w.opa = 1 →
      exec (.mxuDenseStep t) s = .next (s.startStep t.toNat r w false))
    ∧ (at_ → gatherWaits s t.toNat r w = false → w.opa = 2 →
      exec (.mxuSparseStep t) s = .next (s.startStep t.toNat r w true))
    ∧ (at_ → gatherWaits s t.toNat r w = true →
      (w.opa = 1 → exec (.mxuDenseStep t) s = .next s) ∧ (w.opa = 2 → exec (.mxuSparseStep t) s = .next s))
    ∧ (at_ → w.opa = 3 → m.ops.any MxuOp.pendingAcc = false →
      exec (.mxuWriteOut t) s = .next (s.startWriteOut t.toNat r w))
    ∧ (at_ → w.opa = 3 → m.ops.any MxuOp.pendingAcc = true → exec (.mxuWriteOut t) s = .next s)
    ∧ (at_ → w.opa = 4 →
      let lost := s.dieLost (s.mapOf (.engine (BitVec.ofNat 10 t.toNat) r.slot r.uid)) (4 + stackOf t.toNat)
      (lost = false → exec (.mxuClear t) s = .next (s.startOp t.toNat r w now .clear))
      ∧ (lost = true →
        exec (.mxuClear t) s = .next (s.suppressOp t.toNat r w now mxdDataTrap)))
    ∧ (completableOp s t.toNat = some o →
      (∀ f a b sc, o.work = .dense f a b sc →
        ∃ u, exec (.mxuOperationComplete t) s = .next u ∧ promotes u f sc (denseTerms f a b))
      ∧ (∀ f g a b mk sc, o.work = .sparse f g a b mk sc →
        ∃ u, exec (.mxuOperationComplete t) s = .next u ∧ promotes u f sc (sparseTerms f g a b mk))
      ∧ (o.work = .clear → ∃ u, exec (.mxuOperationComplete t) s = .next u
          ∧ ∀ i, (u.tile t.toNat).mxu.accAt i = Quire.zero)
      ∧ (∀ fl off, o.work = .writeOut n fl (some off) → s.mustCut t.toNat o.slot o.uid o.cid o.rel = true →
          exec (.mxuOperationComplete t) s = .next (s.cutPost t.toNat o.slot o.uid o.cid))
      ∧ (∀ fl off, o.work = .writeOut n fl (some off) → s.mustCut t.toNat o.slot o.uid o.cid o.rel = false →
          exec (.mxuOperationComplete t) s = .next ((without.engineFlags t.toNat o.slot o.uid fl).enginePost t o.slot o.uid o.asid
              { spmode := o.spmode, keys := o.keys } (.s (BitVec.ofNat 64 off)) (BitVec.ofNat 64 n) o.rel
              { cid := o.cid, earlier := o.earlier, writes := [], after := o.after, report := (1 : Word) <<< 56 }))
      ∧ (∀ fl, o.work = .writeOut n fl none → exec (.mxuOperationComplete t) s
          = .next (without.engineFlags t.toNat o.slot o.uid fl))
      ∧ (o.work = .suppressed → exec (.mxuOperationComplete t) s = .next without))
    ∧ (m.run = some r → m.busyUntil ≤ now → 4096 < r.words →
      exec (.mxuRoutineRunaway t) s
        = .next (s.failMicro t.toNat r { name := .illegalOp, tval := BitVec.ofNat 64 r.pc }))
    ∧ (m.run = some r → now < m.busyUntil ∨ r.words ≤ 4096 → exec (.mxuRoutineRunaway t) s = .next s)
    ∧ (∀ c more, m.clearing = none → m.owner = none → (s.tile t.toNat).claims = (k, c) :: more →
        (∀ y ∈ (s.tile t.toNat).claims, m.mustClear y.2.asid = true) → ∃ u, exec (.mxuAsidClear t) s = .next u
        ∧ (u.tile t.toNat).mxu = { m with clearing := some (k, c.uid, 0) })
    ∧ (m.clearing = some (k, uid, 0) → (m.run ≠ none ∨ now < m.busyUntil) → exec (.mxuAsidClear t) s = .next s)
    ∧ (m.clearing = some (k, uid, 0) → m.run = none → m.busyUntil ≤ now → m.ops.any MxuOp.pendingAcc = false → ∃ u, exec (.mxuAsidClear t) s = .next u
        ∧ (u.tile t.toNat).mxu = { m with acc := [], clearing := some (k, uid, now + 128) })
    ∧ (m.clearing = some (k, uid, n + 1) → n + 1 ≤ now → ∃ u, exec (.mxuAsidClear t) s = .next u
        ∧ (u.tile t.toNat).mxu = { m with clearing := none, lastAsid := (s.uidCtx t.toNat k uid).map (fun c => c.asid) })

/-- R248 to R257, R444: GLOAD at the front of the grammar unit reads and checks the image at its base and records the
binding, or leaves none; GRUN delivers its rows to the scratchpad or, while it has room, to its queue. Each takes its
cycles from the cycle in which it starts. At its cycle the command ends with its post, its flags and its trap, in a
replica behind its cut; a GLOAD that failed aborts every GRUN of its context behind it in the same cycle, once all of
them may post (log entries 25 and 67). (Complete: geuLoad, geuRun, geuRowDeliver, geuComplete.) -/
def Obligations.GrammarCommandsRun : Prop :=
  ∀ (s : State) (t : TileId) (k : SlotNo) (uid cid base : Nat) (keys spmode a : Word) (ctr : Option Word) (sat : Bool)
    (f : Fmt) (o : CmdOrd) (earlier after : List Nat) (resume : Nat) (rest : List GeuCmd) (r : GeuRunning) (bs : List Byte)
    (c : Context),
    let g := (s.tile t.toNat).geu
    let load : GeuCmd := .load k uid cid base keys spmode earlier after
    let run : GeuCmd := .run k uid cid a ctr sat f o keys spmode earlier after resume
    let m : Mapping := { spmode := spmode, keys := keys }
    let rd := tileReader (s.tile t.toNat) m
    let start := Nat.max g.startAt s.gtc.toNat
    let loaded : GeuRunning :=
      { pieces := [], next := 0, flags := 0, bytes := 0, trap := none, nrows := 0, due := start + loadCycles rd base }
    let binds := fun (b : Option Binding) (r : GeuRunning) =>
      (s.modUid t.toNat k uid (fun c => { c with binding := b })).modGeu t.toNat (fun y => { y with running := some r })
    let step := fun (u : State) => u.modGeu t.toNat (fun g => { g with running := some { r with next := r.next + 1 } })
    (g.queue = load :: rest → g.running = none → (∀ id ∈ after, s.openOp id = false) →
      (imageBad s t.toNat m base = false →
        (∀ img, checkImage rd base = .ok img →
          exec (.geuLoad t) s = .next (binds (some { base := base, keys := keys, spmode := spmode }) loaded))
        ∧ (∀ tr n, checkImage rd base = .fail tr n →
          exec (.geuLoad t) s = .next (binds none { loaded with trap := some tr, nrows := n })))
      ∧ (imageBad s t.toNat m base = true → exec (.geuLoad t) s
          = .next (binds none { loaded with trap := some geuDataTrap, nrows := readableRows s t.toNat m base })))
    ∧ (g.queue = run :: rest → g.running = none → (∀ id ∈ after, s.openOp id = false) →
        s.uidCtx t.toNat k uid = some c → ∀ b, c.binding = some b →
        let bm : Mapping := { spmode := b.spmode, keys := b.keys }
        let brd := tileReader (s.tile t.toNat) bm
        let z := grammarBytes (grunXfmt a)
        imageBad s t.toNat bm b.base = false → ∀ img, checkImage brd b.base = .ok img →
          s.scratchBad t.toNat m (s.tile t.toNat).limit (BitVec.ofNat 64 (grunXoff a)) ((img.ncols + 1) * z) = false →
          let xs := (elemsOf z ((s.tile t.toNat).readBytes m (s.tile t.toNat).limit (BitVec.ofNat 64 (grunXoff a))
            ((img.ncols + 1) * z)) (img.ncols + 1)).map (codeVal (grunXfmt a))
          let out := runRows img (grunXfmt a) xs f sat
          ∃ q, exec (.geuRun t) s = .next (s.modGeu t.toNat (fun y => { y with running := some q }))
            ∧ q.next = 0 ∧ q.trap = none ∧ q.flags = out.2 ∧ q.due = start + runCycles img f
            ∧ (grunQo a = false → q.pieces = out.1.drop resume)
            ∧ (grunQo a = true → q.pieces = packElems (c.queue (grunQn a)).elemBytes ((out.1.drop resume).length + 1)
                (out.1.drop resume).flatten))
    ∧ (g.queue = run :: rest → g.running = none → (∀ id ∈ after, s.openOp id = false) →
        s.uidCtx t.toNat k uid = some c → c.binding = none →
          ∃ q, exec (.geuRun t) s = .next (s.modGeu t.toNat (fun y => { y with running := some q }))
            ∧ q.pieces = [] ∧ q.trap = none ∧ q.nrows = 0)
    ∧ (g.queue = run :: rest → g.running = some r → r.pieces[r.next]? = some bs → s.uidCtx t.toNat k uid = some c →
        (grunQo a = false → exec (.geuRowDeliver t) s = .next (step (s.engineStore t.toNat m
          (BitVec.ofNat 64 (grunYoff a + (resume + r.next) * fmtBytes f)) bs after)))
        ∧ (grunQo a = true → (c.queue (grunQn a)).full = false →
          exec (.geuRowDeliver t) s = .next (step (s.pushElem t.toNat k uid (grunQn a) none bs none)))
        ∧ (grunQo a = true → (c.queue (grunQn a)).full = true → exec (.geuRowDeliver t) s = .next s))
    ∧ (g.running = some r → r.due ≤ s.gtc.toNat → r.pieces.length ≤ r.next →
        (g.queue = load :: rest → r.trap = none →
          exec (.geuComplete t) s = .next ((s.popGeu t.toNat).endGeu t.toNat k uid cid r))
        ∧ (g.queue = load :: rest → ∀ tr, r.trap = some tr → ∀ runs, runs = runsBehind uid rest →
          (runsOrdered s t.toNat (s.tile t.toNat) load runs = false → exec (.geuComplete t) s = .next s)
          ∧ (runsOrdered s t.toNat (s.tile t.toNat) load runs = true → runs.any (geuMustCut s t.toNat) = false →
              exec (.geuComplete t) s
                = .next (((s.popGeu t.toNat).endGeu t.toNat k uid cid r).abortRuns t runs r.nrows)))
        ∧ (g.queue = run :: rest → (ctr = none ∨ (o = .none ∧ s.awaitsCut t.toNat k uid cid = false)) →
          exec (.geuComplete t) s = .next (((s.popGeu t.toNat).postRun t run r.bytes).endGeu t.toNat k uid cid r))
        ∧ (g.queue = run :: rest → ctr.isSome = true → o = .ord → s.postsMade (s.tile t.toNat) earlier = false →
          exec (.geuComplete t) s = .next s)
        ∧ (∀ sc, g.queue = run :: rest → ctr.isSome = true → o = .rel sc → (∃ id ∈ after, s.openOp id = true) →
          exec (.geuComplete t) s = .next s)
        ∧ (∀ sc, g.queue = run :: rest → ctr.isSome = true → o = .rel sc → (∀ id ∈ after, s.openOp id = false) →
          s.awaitsCut t.toNat k uid cid = false → s.mustCut t.toNat k uid cid true = true →
            exec (.geuComplete t) s = .next (s.cutPost t.toNat k uid cid)))

/-- R258 to R265: a scan operation to which every tile of its region has contributed starts, once per state channel,
with the carry of its west neighbour, which its channel may have held, or the identity; a mixed one raises
QUEUE_CONFIG in each tile; a carry from the west neighbour is taken once; each result that is due reaches a queue with
room, with its flags at its last element (those of all its lanes, log entry 66), and the carry-out leaves east at the
completion of its operation, whatever the queues hold. The result of a saved context goes into its saved queue and to
the other replicas. (Complete: scanOperationStart, carryArrival, scanDelivery.) -/
def Obligations.ScansRun : Prop :=
  ∀ (s : State) (o : ScanOp) (t : TileId) (c : Contribution) (bs : List Byte) (x : Context) (carry : List Word)
    (rest : List Contribution) (d : Nat) (e : BitVec 21) (h : HeldCarry),
    let sent := s.sendCarry o
    let ready := o.started = none ∧ o.full = true ∧ o.lastAt < s.gtc.toNat
    let begun := fun (ci : Option (Carry × Nat)) (mixed : Bool) =>
      s.modScan o.id (fun o => { o with started := some s.gtc.toNat, mixed := mixed, carryIn := ci })
    let awaits := s.carries.find? (fun h => h.ch == o.ch && h.k == o.k)
    s.scans.find? (fun y => y.id == o.id) = some o →
      (ready → mixedScan o.contributions = false →
        (o.carries = false → o.carryIn = none → exec (.scanOperationStart o.id) s = .next (begun none false))
        ∧ (o.carries = true → s.channelTaken o = false → awaits = some h → o.carryIn = none → o.contributions = c :: rest →
            exec (.scanOperationStart o.id) s = .next
              { begun (some (carryOfWords c.affine c.fmt.width.lanes h.words, h.at_)) false with
                carries := s.carries.filter (fun y => some y != some h) })
        ∧ (o.carries = true → s.channelTaken o = false → awaits = none →
          (∀ y, o.carryIn = some y → exec (.scanOperationStart o.id) s = .next (begun (some y) false))
          ∧ (o.carryIn = none → s.westNode = none → o.contributions = c :: rest →
              exec (.scanOperationStart o.id) s = .next (begun (some (identityCarry c, s.gtc.toNat)) false))
          ∧ (o.carryIn = none → s.westNode ≠ none → exec (.scanOperationStart o.id) s = .next (begun none false)))
        ∧ (o.carries = true → s.channelTaken o = true → exec (.scanOperationStart o.id) s = .next s))
      ∧ (ready → mixedScan o.contributions = true → o.carries = false ∨ awaits = none →
          ∃ ci, exec (.scanOperationStart o.id) s = .next (o.contributions.foldl (fun st c =>
            let asid := match st.uidCtx c.tile.toNat c.slot c.uid with
              | some x => x.asid
              | none => 0
            st.engineTrap c.tile.toNat c.slot c.uid asid { name := .queueConfig, tval := 80 + o.ch.setWidth 64 } c.num)
            (begun ci true)))
      ∧ (∀ op, s.scans.find? (carryNames op) = some o → o.carryIn = none → o.contributions = c :: rest →
          exec (.carryArrival op carry) s = .next (s.modScan o.id (fun o =>
              { o with carryIn := some (carryOfWords c.affine c.fmt.width.lanes carry, s.gtc.toNat) })))
      ∧ (∀ op y, s.scans.find? (carryNames op) = some o → o.carryIn = some y → exec (.carryArrival op carry) s = .next s)
      ∧ (∀ ch k, s.scans.find? (carryNames (.channel ch k)) = none →
          (s.carries.any (fun y => y.ch == ch && y.k == k) = true → exec (.carryArrival (.channel ch k) carry) s = .next s)
          ∧ (s.carries.any (fun y => y.ch == ch && y.k == k) = false → exec (.carryArrival (.channel ch k) carry) s
              = .next { s with carries := s.carries ++ [{ ch := ch, k := k, words := carry, at_ := s.gtc.toNat }] }))
      ∧ (o.contributions = c :: rest → o.dueFor c.affine = some d → o.carries = true → o.sent = false →
          (d ≤ s.gtc.toNat → s.eastNode = some e →
            sent = { s.modScan o.id (fun o => { o with sent := true }) with out := s.out ++ [.carry o.ch o.k o.carryOut] })
          ∧ (s.gtc.toNat < d → sent = s))
      ∧ (deliverable sent o t = none → exec (.scanDelivery o.id t) s = .next sent)
      ∧ (deliverable sent o t = some (c, bs) → sent.uidCtx t.toNat c.slot c.uid = some x → x.plain = true → c.places = [] →
          ((x.queue c.q).full = true → exec (.scanDelivery o.id t) s = .next sent)
          ∧ ((x.queue c.q).full = false → exec (.scanDelivery o.id t) s
            = .next (((sent.pushElem t.toNat c.slot c.uid c.q none bs none).engineFlags t.toNat c.slot c.uid
                (if c.given + 1 = scanElems c.affine then (o.result c).2 else 0)).scanGiven o c true)))
      ∧ (deliverable sent o t = some (c, bs) → sent.uidCtx t.toNat c.slot c.uid = none →
          let fl : Flags := if c.given + 1 = scanElems c.affine then (o.result c).2 else 0
          (∀ y, sent.savedCtx o.rid c.uid = some y →
            ((y.ctx.queue c.q).full = true → exec (.scanDelivery o.id t) s = .next sent)
            ∧ ((y.ctx.queue c.q).full = false → exec (.scanDelivery o.id t) s
              = .next (((sent.pushSaved o.rid y c.q bs fl).scanInput y.ctx o c bs fl).scanGiven o c false)))
          ∧ (sent.savedCtx o.rid c.uid = none → exec (.scanDelivery o.id t) s = .next (sent.scanGiven o c false)))

/-- R273 to R281: what Tongs brings enters the context that awaits it, behind the bytes that came before it; a vote
starts when every voter has reached its cut, takes 200 cycles, and counts itself; at its end the lead's records up to
the cut are committed, or the replica in the minority is fenced first, or, with no majority, the group halts. A commit
that needs the MMP waits for it (log entry 33). (Complete: tongsDelivery, voteStart, voteResult.) R35, R309, R310: a
Draining context whose landings have arrived, whose commands have posted and whose accesses are performed becomes
Free, and one whose held writes no cut covers makes a last cut (log entry 33); the loss of a die clears its LIVE bit,
discards the commands of its grammar units, halts each resident context that stands on it under its own die map, and
raises DIE_LOST in every other resident context that has touched it (log entry 34). (Complete: drainComplete,
dieLoss.) -/
def Obligations.GroupsVoteAndContextsLeave : Prop :=
  (∀ (s s1 : State) (g : Sys2Proof.Machine.Group) (i : TongsItem) (c : Context) (m lead : Member) (due : Nat),
    (s.tongs.find? (fun j => j.id == i.id) = some i → s.uidCtx i.tile.toNat i.slot i.uid = some c →
      (i.val.writes = false → s.bytesBefore i = true → exec (.tongsDelivery i.id) s = .next s)
      ∧ (∀ off b, i.val = .bytes off b → s.tongsInto i c = some (s.modTile i.tile.toNat (fun x => { x with
          scratch := writeBytes x.scratch linear x.limit (BitVec.ofNat 64 off) b }.wake (s.muted i.tile.toNat) 2 0
            (BitVec.ofNat 64 off) b.length s.gtc.toNat))))
    ∧ (s.tongs.find? (fun j => j.id == i.id) = some i → s.uidCtx i.tile.toNat i.slot i.uid = none →
      (s.records.any (fun r => r.savedCtxs.any (fun x => x.ctx.uid == i.uid)) = true →
        exec (.tongsDelivery i.id) s = .next s)
      ∧ (s.records.any (fun r => r.savedCtxs.any (fun x => x.ctx.uid == i.uid)) = false →
        exec (.tongsDelivery i.id) s = .next (s.dropTongs i.id)))
    ∧ (s.tongs.find? (fun j => j.id == i.id) = some i → s.uidCtx i.tile.toNat i.slot i.uid = some c →
      (i.val.writes = false → s.bytesBefore i = false) →
      (s.tongsInto i c = some s1 → exec (.tongsDelivery i.id) s = .next (s1.dropTongs i.id))
      ∧ (s.tongsInto i c = none → exec (.tongsDelivery i.id) s = .next s)
      ∧ (∀ cls x p ev, i.val = .word cls x p ev → c.awaitsAny i.src = true →
          s.tongsInto i c = some (s.arriveWord i.tile.toNat i.slot i.uid i.src x p ev))
      ∧ (∀ x, i.val = .trap x → c.bcnt.ult i.at_ = false →
          s.tongsInto i c = some (s.postEvent i.tile.toNat i.slot i.uid c.asid x)))
    ∧ (s.groups.find? (fun y => y.id == g.id) = some g →
      (g.voting = none → g.voters ≠ [] → (∀ y ∈ g.voters, s.frontCut y ≠ none) →
        exec (.voteStart g.id) s
          = .next (s.modGroup g.id (fun g => { g with voting := some (s.gtc.toNat + 200), votes := g.votes + 1 })))
      ∧ (g.voting = some due → s.gtc.toNat < due → exec (.voteResult g.id) s = .next s)
      ∧ (g.voting = some due → due ≤ s.gtc.toNat →
        (verdict s g = .mismatch → exec (.voteResult g.id) s = .next (s.haltGroup g))
        ∧ (verdict s g = .agree → g.members.find? (fun y => y.1 == g.lead) = some lead → s.commitVote g lead = some s1 →
          exec (.voteResult g.id) s = .next (s1.modGroup g.id (fun g => { g with voting := none })))
        ∧ (verdict s g = .agree → g.members.find? (fun y => y.1 == g.lead) = some lead → s.commitVote g lead = none →
          exec (.voteResult g.id) s = .next (s.commitWaits g lead))
        ∧ (verdict s g = .minority m →
          let live := g.live &&& ~~~((1 : BitVec 4) <<< m.1.toNat)
          g.members.find? (fun y => y.1 == Sys2Proof.Machine.Group.chooseLead { g with live := live }) = some lead →
          ((s.fence g m).commitVote { g with live := live } lead = some s1 →
            exec (.voteResult g.id) s = .next ((s1.modGroup g.id (fun g => { g with voting := none })).raiseMinority g.id m.1
              (g.lost.getLsbD m.1.toNat)))
          ∧ ((s.fence g m).commitVote { g with live := live } lead = none →
            exec (.voteResult g.id) s = .next (s.commitWaits g lead)))))
    ∧ (∀ a b d : Member, g.voters = [a, b, d] → g.liveMembers.find? (fun y => g.lost.getLsbD y.1.toNat) = none →
        (sameCut (s.frontCut a) (s.frontCut b) = true → sameCut (s.frontCut a) (s.frontCut d) = true → verdict s g = .agree)
        ∧ (sameCut (s.frontCut a) (s.frontCut b) = true → sameCut (s.frontCut a) (s.frontCut d) = false →
            verdict s g = .minority d)))
  ∧ (∀ (s : State) (t : TileId) (k : SlotNo) (d : BitVec 5) (b : Bank) (v : Nat),
    (drained s t.toNat k .primary = true →
      exec (.drainComplete t k) s = .next ((s.drainLandings t.toNat k .primary).retire t.toNat k .primary))
    ∧ (drained s t.toNat k .primary = false → drained s t.toNat k .second = true →
      exec (.drainComplete t k) s = .next ((s.drainLandings t.toNat k .second).retire t.toNat k .second))
    ∧ ((∀ b, drained s t.toNat k b = false) → (∀ b, drainHolds s t.toNat k b = false) →
      exec (.drainComplete t k) s = .next s)
    ∧ ((∀ b, drained s t.toNat k b = false) → drainHolds s t.toNat k .primary = true →
      let c := s.ctx t.toNat k .primary
      let u := s.cutOf t.toNat k c.uid .exit 0 c.bcnt
      drainHolds u t.toNat k .second = false → exec (.drainComplete t k) s = .next u)
    ∧ ((s.retire t.toNat k b).ctx t.toNat k b = Context.reset)
    ∧ (exec (.dieLoss d) s
        = .next (s.tiles.foldl (fun st x => allSlots.foldl (fun st k => [Bank.primary, Bank.second].foldl (fun st b =>
            (virtualOf (st.ctx x.1 k b).dieMap d).foldl (fun st v => st.loseDie x.1 k b v) st) st) st)
          { s.dropGrammar d with platform := { s.platform with
            dieLive := s.platform.dieLive &&& ~~~((1 : BitVec 17) <<< d.toNat) } }))
    ∧ (∀ (map : Vector (Bool × BitVec 5) 17) (i : Nat), i < 17 →
        (i ∈ virtualOf map d ↔ map.toList[i]? = some (true, d)))
    ∧ (let c := s.ctx t.toNat k b
       (c.status.resident = false ∨ c.special.tdm.getLsbD v = false → s.loseDie t.toNat k b v = s)
       ∧ (c.status.resident = true → c.special.tdm.getLsbD v = true → c.replica.group = 0 →
          (v = stackOf t.toNat → s.loseDie t.toNat k b v = s.haltOn t.toNat k c.uid v)
          ∧ (v ≠ stackOf t.toNat → s.loseDie t.toNat k b v
              = (s.postEvent t.toNat k c.uid c.asid { name := .dieLost, tval := BitVec.ofNat 64 v }).postFault
                  (mkFault s 5 TrapName.dieLost.code t.toNat k c.asid (BitVec.ofNat 64 v) c.pc)))))

/-! ### Events of the scheduler and of the platform -/

/-- R268, R288 to R290, R301: a write of PROD is taken unless it passes CONS by more than 256, moves backward, or the
queue is one that LAUNCH fills, which sets ERR; a write of 1 clears ERR; the next record in rotation stands for NODE0,
is rejected with its reason (log entry 40), or pooled under a handle with a nonzero sequence number; one that
RECORD_ABORT has withdrawn only leaves its queue, and a slot that nothing has written reads 0. A record for NODE0
leaves once what its LAUNCH released is performed, and one that comes waits while the pool is full. (Complete:
launchQueueProdWrite, launchQueueErrClear, recordAcceptance, forwardedRecord.) R291 to R294, R297, R23: a pooled
record whose dependences are mapped is admitted on a placement that passes the checks and for which the MMP can
reserve the areas: it is reserved, and NODE0 asks the other packages one after the other in ascending order. A package
keeps a request and answers it when its placement is free (which placement, log entry 18; the place of the areas, 55).
A dispatch binds every context of the part in one cycle, each with the values of R23, and NODE0 commits the other
packages, where a commit that finds a slot taken stands until the slots are free. (Complete: recordAdmission,
reserveRequest, dispatch.) -/
def Obligations.RecordsAreDispatched : Prop :=
  (∀ (s : State) (q : BitVec 3) (v : Word) (rs : List (List Word)) (ws : List Word) (l : Origin),
    let x := s.queueOf q
    let p : BitVec 31 := v.setWidth 31
    let full := (ws ++ List.replicate 32 0).take 32
    (s.platform.safe = false → q.toNat < 4 → (p - x.cons).toNat ≤ 256 → x.used ≤ (p - x.cons).toNat →
      ∃ u, exec (.launchQueueProdWrite q v rs) s = .next u
        ∧ (u.queueOf q).prod = p ∧ (u.queueOf q).cons = x.cons ∧ (u.queueOf q).err = x.err)
    ∧ (s.platform.safe = false → 4 ≤ q.toNat ∨ 256 < (p - x.cons).toNat ∨ (p - x.cons).toNat < x.used →
      ∃ u, exec (.launchQueueProdWrite q v rs) s = .next u
        ∧ (u.queueOf q).prod = x.prod ∧ (u.queueOf q).cons = x.cons ∧ (u.queueOf q).err = true)
    ∧ (s.platform.safe = false → v.msb = true →
      exec (.launchQueueErrClear q v) s = .next (s.setQueueOf q { x with err := false }))
    ∧ (v.msb = false → exec (.launchQueueErrClear q v) s = .next s)
    ∧ (s.platform.safe = true →
      exec (.launchQueueProdWrite q v rs) s = .next s ∧ exec (.launchQueueErrClear q v) s = .next s)
    ∧ (s.nextQueue = some q → s.poolCount < 4096 →
        (assocGet (x.cons.toNat % 256) x.slots).getD (List.replicate 32 0) = ws →
        let tag := if q.toNat < 4 then 0 else x.tags.headD 0
        let s1 : State := { s.setQueueOf q { x with
            cons := x.cons + 1, tags := x.tags.tail, withdrawn := x.withdrawn.filter (fun n => n != x.cons.toNat) } with
          rotation := q + 1 }
        (x.cons.toNat ∉ x.withdrawn → exec (.recordAcceptance q) s = .next (s1.accept ws tag (q.toNat, x.cons.toNat)))
        ∧ (x.cons.toNat ∈ x.withdrawn → exec (.recordAcceptance q) s = .next s1))
    ∧ (s.nextQueue ≠ some q ∨ 4096 ≤ s.poolCount → exec (.recordAcceptance q) s = .next s)
    ∧ (∀ (tag : Nat) (src : Nat × Nat),
        (recNode0 ws ≠ s.node → s.platform.nodes.contains (recNode0 ws) = true →
          s.accept ws tag src = { s with relayed := s.relayed ++
            [{ words := ws, src := { node := s.node, queue := BitVec.ofNat 3 src.1, index := src.2, tag := tag }
               after := launchAfter s tag }] })
        ∧ (recNode0 ws = s.node → launchReason s ws ≠ 0 → s.accept ws tag src
          = (s.landHandle tag 0 (launchReason s ws)).launchEvent (recAsid ws) (launchReason s ws))
        ∧ (recNode0 ws = s.node → launchReason s ws = 0 → s.accept ws tag src
          = ((s.pool ws tag src (launchAfter s tag)).1.landHandle tag (s.node.setWidth 64 <<< 32 ||| s.nextSeq.setWidth 64) 0)))
    ∧ (recNode0 full ≠ s.node →
        (∀ y, s.relayOf full l = some y →
          ((∀ id ∈ y.after, s.openOp id = false) → exec (.forwardedRecord ws l) s
            = .next { s.dropRelay full l with out := s.out ++ [.record (recNode0 full) full l] })
          ∧ ((∃ id ∈ y.after, s.openOp id = true) → exec (.forwardedRecord ws l) s = .next s))
        ∧ (s.relayOf full l = none → exec (.forwardedRecord ws l) s = .next s))
    ∧ (recNode0 full = s.node → 4096 ≤ s.poolCount →
        (s.relayOf full l = none → exec (.forwardedRecord ws l) s
          = .next { s with relayed := s.relayed ++ [{ words := full, src := l, after := [] }] })
        ∧ (∀ y, s.relayOf full l = some y → exec (.forwardedRecord ws l) s = .next s))
    ∧ (recNode0 full = s.node → s.poolCount < 4096 →
        let s0 := s.dropRelay full l
        let p := s0.pool full 0 (8, 0) []
        (launchReason s full ≠ 0 → l.tag = 0 → exec (.forwardedRecord ws l) s
            = .next (s0.launchEvent (recAsid full) (launchReason s full)))
        ∧ (launchReason s full = 0 → l.tag = 0 → exec (.forwardedRecord ws l) s
            = .next (p.1.modRecord s.nextId (fun r => { r with origin := some l })))
        ∧ (launchReason s full = 0 → l.tag ≠ 0 → ∃ u, exec (.forwardedRecord ws l) s = .next u
            ∧ u.records = (p.1.modRecord s.nextId (fun r => { r with origin := some l })).records
            ∧ u.out = s.out ++ [.handle l.node l.tag (s.node.setWidth 64 <<< 32 ||| s.nextSeq.setWidth 64) 0])
        ∧ (launchReason s full ≠ 0 → l.tag ≠ 0 → ∃ u before, exec (.forwardedRecord ws l) s = .next u ∧ u.records = s.records
            ∧ u.out = before ++ [.handle l.node l.tag 0 (BitVec.ofNat 8 (launchReason s full))])))
  ∧ (∀ (s s1 : State) (r : Record) (pl : Placement) (ext : Vector Word 4) (ws : List Word) (rid t uid flat group n : Nat)
    (left : List Nat) (need : Need) (tv : Word),
    let full := (ws ++ List.replicate 32 0).take 32
    let others := otherNodes s r.words
    let seen := s.modRecord r.rid (fun r => { r with seen := ext })
    let asked := if others.isEmpty then Phase.reserved else .reserving others
    (s.record r.rid = some r →
      (r.phase = .pooled → depMiss s r.words = none → admits s r pl ext = true →
        ((seen.passOver r).reserve r pl asked = some s1 →
          exec (.recordAdmission r.rid pl ext) s = .next (s1.askNext r.rid others))
        ∧ ((seen.passOver r).reserve r pl asked = none → exec (.recordAdmission r.rid pl ext) s = .next seen))
      ∧ (r.phase = .pooled → depMiss s r.words = none → admits s r pl ext = false →
          exec (.recordAdmission r.rid pl ext) s = .next seen)
      ∧ (r.phase = .pooled → depMiss s r.words = some (need, tv) → askedFor s r.rid need = false →
          exec (.recordAdmission r.rid pl ext) s = .next (s.touchCounter r.rid (recAsid r.words) need tv))
      ∧ (r.phase = .reserving (n :: left) → exec (.recordAdmission r.rid pl ext) s
          = .next ((s.askNext r.rid left).modRecord r.rid (fun r => { r with
              phase := if left.isEmpty then .reserved else .reserving left })))
      ∧ (r.phase = .pooled → depMiss s r.words = some (need, tv) → askedFor s r.rid need = true →
          exec (.recordAdmission r.rid pl ext) s = .next s)
      ∧ (r.phase = .reserved → s.platform.released = true → stillFree s r = true →
          exec (.dispatch r.rid) s = .next (s.bind r))
      ∧ (r.phase = .reserved → s.platform.released = false ∨ stillFree s r = false →
          (r.pkgIndex = 0 → exec (.dispatch r.rid) s = .next s)
          ∧ (r.pkgIndex ≠ 0 → exec (.dispatch r.rid) s
              = .next (s.modRecord r.rid (fun r => { r with committed := true }))))
      ∧ (r.phase = .running → exec (.dispatch r.rid) s = .next (s.boundElsewhere r)))
    ∧ (s.askNext rid (n :: left)).out = s.out ++ [.reserve (BitVec.ofNat 21 n) rid]
    ∧ (r.pkgIndex ≠ 0 → (s.bind r).out = s.out ++ [.bound (recNode0 r.words) r.source.2])
    ∧ (s.requestOf (recNode0 full) rid = none → (recNode0 full).toNat < s.node.toNat →
        s.node.toNat < (recNode0 full).toNat + recPackages full →
        s.platform.released = false ∨ s.platform.emergency = true ∨ s.platform.safe = true →
        exec (.reserveRequest rid ws pl) s
          = .next ((s.pool full 0 (8, rid) []).1.modRecord s.nextId (fun r => { r with phase := .requested })))
    ∧ (s.requestOf (recNode0 full) rid = some r →
        (s.platform.released = false ∨ s.platform.emergency = true ∨ s.platform.safe = true ∨ launchReason s r.words ≠ 0
          ∨ energyFits s r.words = false ∨ placementFree s r pl = false → exec (.reserveRequest rid ws pl) s = .next s)
        ∧ (s.platform.released = true → s.platform.emergency = false → s.platform.safe = false →
          launchReason s r.words = 0 → energyFits s r.words = true → placementFree s r pl = true →
            (s.reserve r pl .reserved = some s1 → exec (.reserveRequest rid ws pl) s
              = .next { s1 with out := s1.out ++ [.reserved (recNode0 r.words) r.source.2] })
            ∧ (s.reserve r pl .reserved = none → exec (.reserveRequest rid ws pl) s = .next s)))
    ∧ (let c := bindContext s r t uid flat group
       c.status = .ready ∧ c.pc = recEntry r.words ∧ c.sup = false ∧ c.bcnt = 0 ∧ c.asid = recAsid r.words
        ∧ c.prio = recPrio r.words ∧ c.special.tvec = recEntry r.words ∧ c.sreg 1 = r.words.getD 2 0
        ∧ (∀ i : Fin 8, c.sreg (BitVec.ofNat 6 (56 + i.val)) = BitVec.ofNat 64 (indexAt r.words flat i.val))
        ∧ c.landing = [] ∧ c.redirects = [] ∧ c.events = [] ∧ c.loops = [] ∧ c.dieMap = s.platform.dieMap))

/-- R36, R34, R219, R298 to R300: the record whose last context is Free, and whose other parts have reported their
end, adds its completion amount and leaves; the contexts of a record that is chosen for pre-emption stop, and it is
saved once they can be; a saved one is bound again on a placement of the same shape under the conditions of an
admission (log entry 37); a context whose answered CWAIT has not issued is saved Blocked; an abort ends the records
that it names and says whether one was aborted, withdrawn or not found (what another package's scheduler knows, log
entry 36). (Complete: completionAdd, preemption, restore, recordAbort.) -/
def Obligations.RecordsEnd : Prop :=
  ∀ (s s1 s2 : State) (r : Record) (pl : Placement) (why : PreemptCause) (seq : BitVec 16) (tgt : AbortTarget) (post : Bool)
    (n0 : BitVec 21) (j n : Nat) (away : List Nat) (need : Need) (tv : Word),
    let host := (∃ h, tgt = .handle h) ∨ (∃ q i, tgt = .queueIndex q i) ∨ (∃ a, tgt = .asid a)
    (s.record r.rid = some r → (r.phase = .running ∨ r.phase = .saved) → r.away = n :: away →
        exec (.completionAdd r.rid) s = .next (s.modRecord r.rid (fun r => { r with away := away })))
    ∧ (s.record r.rid = some r → r.phase = .running → r.away = [] → r.left ≠ [] → exec (.completionAdd r.rid) s = .next s)
    ∧ (s.record r.rid = some r → r.phase = .running → r.away = [] → r.left = [] → r.aborting = some post →
        exec (.completionAdd r.rid) s = .next (s.abortRecord r post))
    ∧ (s.record r.rid = some r → r.phase = .running ∧ r.away = [] ∧ r.left = [] ∧ r.aborting = none ∨ r.phase = .ended ∧ r.pkgIndex = 0 →
      (r.pkgIndex = 0 → (recCounter r.words 24).space = 0 → exec (.completionAdd r.rid) s = .next (s.endRecord r.rid))
      ∧ (r.pkgIndex = 0 → s.postCompletion r = (some s1, s2) →
          exec (.completionAdd r.rid) s = .next (s1.endRecord r.rid))
      ∧ (r.pkgIndex = 0 → s.postCompletion r = (none, s2) → exec (.completionAdd r.rid) s = .next s2)
      ∧ (r.pkgIndex ≠ 0 → exec (.completionAdd r.rid) s = .next (({ s with
          out := s.out ++ [.partDone (recNode0 r.words) r.source.2] } : State).endRecord r.rid)))
    ∧ (s.record r.rid = some r → r.phase = .running → r.left ≠ [] → r.saving = true ∨ mayPreempt s r why = true →
        let stopped := (s.freezeRecord r.rid).modRecord r.rid (fun r => { r with saving := true })
        ((∃ x ∈ stopped.bound r.rid, x.2.2.2.saving = false ∨ savable stopped x.1 x.2.2.2 = false) →
          exec (.preemption r.rid why) s = .next stopped)
        ∧ (r.aborting = none → (∀ x ∈ stopped.bound r.rid, x.2.2.2.saving = true ∧ savable stopped x.1 x.2.2.2 = true) →
          exec (.preemption r.rid why) s = .next (stopped.saveRecord r)))
    ∧ (s.record r.rid = some r → r.saving = false → mayPreempt s r why = false → exec (.preemption r.rid why) s = .next s)
    ∧ (∀ c : Context, let u := c.freeze s.gtc.toNat
        u.saving = true ∧ u.pc = c.pc ∧ u.bcnt = c.bcnt ∧ u.regs = c.regs ∧ u.landing = c.landing
          ∧ (c.status = .issuing → u.status = .ready) ∧ (c.status ≠ .issuing → u.status = c.status))
    ∧ (s.record r.rid = some r → r.phase = .saved → r.pkgIndex = 0 → depMiss s r.words = some (need, tv) →
        (askedFor s r.rid need = true → exec (.restore r.rid pl) s = .next s)
        ∧ (askedFor s r.rid need = false →
            exec (.restore r.rid pl) s = .next (s.touchCounter r.rid (recAsid r.words) need tv)))
    ∧ (s.record r.rid = some r → r.phase = .saved → r.pkgIndex ≠ 0 ∨ depMiss s r.words = none →
        admits s r pl r.seen = true →
        ∃ u, exec (.restore r.rid pl) s = .next u
          ∧ ∃ x, u.record r.rid = some x ∧ x.phase = .running ∧ x.placement = pl ∧ x.savedCtxs = [])
    ∧ (s.record r.rid = some r → r.pkgIndex ≠ 0 ∨ depMiss s r.words = none → admits s r pl r.seen = false → exec (.restore r.rid pl) s = .next s)
    ∧ (∀ (x : SavedCtx) (t : Nat), let c := restoredCtx s x t
        c.regs = x.ctx.regs ∧ c.pc = x.ctx.pc ∧ c.bcnt = x.ctx.bcnt ∧ c.queues = x.ctx.queues ∧ c.landing = x.ctx.landing
          ∧ c.shadow = x.ctx.shadow ∧ c.loops = x.ctx.loops ∧ c.sup = x.ctx.sup ∧ c.dieMap = s.platform.dieMap)
    ∧ (∀ (c : Context) (bc : BlockCond), c.cleared = some bc →
        (c.status = .ready ∨ c.status = .issuing ∨ c.status = .readyOut → c.saved.status = .blocked bc)
          ∧ (bc ≠ .reportAwaited → c.saved.observed = none) ∧ (bc = .reportAwaited → c.saved.observed = c.observed))
    ∧ (∀ c : Context, c.cleared = none → c.saved.observed = none ∧ c.saved.cleared = none
        ∧ (c.status = .ready ∨ c.status = .issuing ∨ c.status = .readyOut → c.saved.status = .ready))
    ∧ (s.platform.safe = false → s.mmp.pending = none → s.records = [] → (∀ q : BitVec 3, (s.queueOf q).waiting = []) →
        s.relayed = [] → AbortTarget.passedTo tgt s false = [] → host →
        ∃ u, exec (.recordAbort seq tgt post) s = .next u ∧ u.out = s.out ++ [.mailbox seq 0 [2], .msix 0]
          ∧ u.records = [] ∧ u.tiles = s.tiles)
    ∧ (s.platform.safe = false → s.mmp.pending = none → host →
        (∃ z ∈ s.records, AbortTarget.names tgt s z = true ∧ z.phase.dispatched = true ∧ z.phase ≠ .ended) →
        ∃ u before, exec (.recordAbort seq tgt post) s = .next u ∧ u.out = before ++ [.mailbox seq 0 [1], .msix 0])
    ∧ (∀ (h : Word) (q : BitVec 3),
        exec (.recordAbort seq (.part n0 j) post) s = .next (s.abortAll (.part n0 j) post).1
        ∧ exec (.recordAbort seq (.passedHandle h) post) s = .next (s.abortAll (.passedHandle h) post).1
        ∧ exec (.recordAbort seq (.forwarded n0 q j) post) s = .next (s.abortAll (.forwarded n0 q j) post).1
        ∧ exec (.recordAbort seq (.withdrawn n0 j) post) s = .next (s.withdrawAll (.withdrawn n0 j)))
    ∧ (∀ y : Record, post = false ∨ r.pkgIndex ≠ 0 → y ∈ (s.abortRecord r post).records → y.rid ≠ r.rid)

/-- R269, R317, R318: in the safe state every mailbox command but STATUS and LOG_READ is answered with status 6, and
while a request is unanswered every command with status 4; a command that names no address space that takes it has
status 5 (log entry 19 on a retiring one). A command takes the request that a doorbell has handed over. An abort that
another package's scheduler passes on is no command of the host. (Complete: status, logRead.) -/
def Obligations.CommandsAreRefused : Prop :=
  ∀ (s : State) (seq : BitVec 16) (a : BitVec 12) (nomig : Bool) (n pages : BitVec 32) (id : BitVec 20) (desc : Vector Word 8)
    (place stack : BitVec 2) (perm : BitVec 4) (base : Option (BitVec 20)) (addr len : Word) (req off : Nat) (bus : Option Word)
    (tgt : AbortTarget) (post : Bool),
    let commands : List Instr :=
      [.asidCreate seq nomig n, .asidRetire seq a, .tensorDefine seq a id desc place stack perm base, .tensorFree seq a id
        , .cmap seq a addr len, .hwinAdd seq a addr pages perm, .hwinRemove seq a addr, .pinAnswer seq req bus
        , .recordAbort seq tgt post]
    let r := s.takeRequest
    let host := (∃ h, tgt = .handle h) ∨ (∃ q i, tgt = .queueIndex q i) ∨ (∃ y, tgt = .asid y)
    (r = { s with platform := { s.platform with rung := (match s.platform.rung with
        | some (true, _) => none
        | x => x) } })
    ∧ (s.platform.safe = true → host → ∀ c ∈ commands, exec c s = .next (r.reply seq 6 []))
    ∧ (s.platform.safe = false → s.mmp.pending ≠ none → host → ∀ c ∈ commands ++ [.status seq, .logRead seq off],
        exec c s = .next (r.reply seq 4 []))
    ∧ (s.platform.safe = false → s.mmp.pending = none → s.liveAsid a = none →
        exec (.asidRetire seq a) s = .next (r.reply seq 5 [])
        ∧ exec (.tensorDefine seq a id desc place stack perm base) s = .next (r.reply seq 5 [])
        ∧ exec (.tensorFree seq a id) s = .next (r.reply seq 5 [])
        ∧ exec (.cmap seq a addr len) s = .next (r.reply seq 5 [])
        ∧ exec (.hwinAdd seq a addr pages perm) s = .next (r.reply seq 5 [])
        ∧ exec (.hwinRemove seq a addr) s = .next (r.reply seq 5 []))
    ∧ (s.mmp.pending = none →
        exec (.status seq) s = .next (r.reply seq 0 [temperStat s.platform, s.platform.temperStep.setWidth 64])
        ∧ ∃ u ws, exec (.logRead seq off) s = .next u ∧ u.out = s.out ++ [.mailbox seq 0 ws, .msix 0] ∧ ws.length ≤ 512
            ∧ u.tiles = s.tiles ∧ u.hbm = s.hbm ∧ u.lpddr = s.lpddr ∧ u.mmp = s.mmp)

/-- R164, R178, R180, R158, R166, R167, Table 8-7: the commands on address spaces, tensors, C ranges and host windows
do what they name, and reply with status 0. ASID_CREATE replies with the lowest free ASID; TENSOR_DEFINE writes the
accepted descriptor and records its placement; TENSOR_FREE and HWIN_REMOVE are answered when their shoot-downs are
complete, and a retired address space is forgotten by the caches. Which ASID is lowest and what a retiring space
refuses are the model's choices (log entries 17, 19), so is what an answered pin writes (47). (Complete: asidCreate,
asidRetire, asidRetireComplete, tensorDefine, tensorFree, cmap, hwinAdd, hwinRemove, pinAnswer.) -/
def Obligations.CommandsAct : Prop :=
  ∀ (z s1 s2 s3 : State) (seq : BitVec 16) (a id : BitVec 12) (t : BitVec 20) (nomig : Bool) (n pages : BitVec 32) (f g h ttb : Nat)
    (e : AsidEntry) (desc : Vector Word 8) (place stack : BitVec 2) (perm : BitVec 4) (addr len b : Word) (req : Nat) (p : PinReq)
    (w : HostWindow),
    let s := z.takeRequest
    s.platform.safe = false → s.mmp.pending = none →
      (freeAsid s.mmp.asids = some id → s.takeFrames 2 = some (f, s1) → s1.takeFrames 1 = some (h, s2) →
        s2.takeFrames (tableFrames (8 * n.toNat)) = some (g, s3) →
        exec (.asidCreate seq nomig n) z = .next ((s3.modMmp (fun m => { m with asids := m.asids ++
          [{ id := id, valid := true, retiring := false, nomig := nomig, dcount := 0, dtb := 0, fttb := g * 65536
             fntiles := n.toNat, cpt := f * 65536, hwt := h * 65536, windows := [], cmaps := [], defs := [], evicted := [] }] })).reply seq 0
          [id.setWidth 64]))
      ∧ (freeAsid s.mmp.asids = none → exec (.asidCreate seq nomig n) z = .next (s.reply seq 2 []))
      ∧ (s.openAsid a = some e →
        exec (.asidRetire seq a) z = .next ((s.modAsid a (fun e => { e with retiring := true })).reply seq 0 [])
        ∧ (addr.toNat % 2 ^ 21 = 0 → len.toNat % 2 ^ 21 = 0 → len ≠ 0 → addr.toNat + len.toNat ≤ 2 ^ 48 →
            exec (.cmap seq a addr len) z
              = .next ((s.modAsid a (fun e => { e with cmaps := e.cmaps ++ [(addr.toNat, len.toNat)] })).reply seq 0 []))
        ∧ (w = { hva := addr, pages := pages, bus := 0, valid := true, resident := false, perm := perm } → addr.toNat % 4096 = 0 →
            pages ≠ 0 → addr.toNat + pages.toNat * 4096 ≤ 2 ^ 64 → (∀ x ∈ e.windows, w.overlaps x = false) →
            e.windows.length < 1024 → exec (.hwinAdd seq a addr pages perm) z
              = .next ((s.setWindows a (insertWindow w)).reply seq 0 []))
        ∧ (t ≠ 0 → t ≠ 0xFFFFF → place ≠ 3 → (∀ d ∈ e.defs, d.1 ≠ t.toNat) → descAccepted desc = true → s.growDescs e t.toNat = some s1 →
            s1.newTileTable (descOf desc).ntiles place stack perm = some (ttb, s2) →
            exec (.tensorDefine seq a t desc place stack perm none) z
              = .next (((s2.writeDesc a t.toNat (withTable desc ttb (descOf desc).ntiles)).modAsid a (fun x =>
                  { x with defs := x.defs ++ [(t.toNat, place, stack, perm, none)] })).reply seq 0 []))
        ∧ (t ≠ 0 → t ≠ 0xFFFFF → place ≠ 3 → (∀ d ∈ e.defs, d.1 ≠ t.toNat) → descAccepted desc = false →
            exec (.tensorDefine seq a t desc place stack perm none) z = .next (s.reply seq 1 []))
        ∧ (t ≠ 0 → t ≠ 0xFFFFF → place ≠ 3 → (∀ d ∈ e.defs, d.1 ≠ t.toNat) → ∀ (k : BitVec 20) (bw : Vector Word 8),
            let al := withTable desc (descOf bw).ttb (descOf bw).ntiles
            tableDesc s a k.toNat = some bw → (descOf bw).valid = true → sameShape (descOf desc) (descOf bw) = true →
            descAccepted al = true → s.growDescs e t.toNat = some s1 →
            exec (.tensorDefine seq a t desc place stack perm (some k)) z
              = .next (((s1.writeDesc a t.toNat al).modAsid a (fun x =>
                  { x with defs := x.defs ++ [(t.toNat, place, stack, perm, some k.toNat)] })).reply seq 0 [])))
      ∧ (s.liveAsid a = some e →
        (∀ x, (∃ y ∈ e.windows, y.hva = addr ∧ y.valid = true) → s.shootWindow a addr (some seq) = x →
            exec (.hwinRemove seq a addr) z = .next (x.modMmp (fun m => { m with pending := some seq })))
        ∧ (∀ d x, tableDesc s a t.toNat = some d → (descOf d).valid = true → e.defs.find? (fun y => y.1 == t.toNat) = some x →
            x.2.2.2.2.isSome = true → exec (.tensorFree seq a t) z
              = .next (((s.clearDescs a (freedWith e t.toNat)).modAsid a (fun x =>
                  { x with defs := x.defs.filter (fun y => !(freedWith e t.toNat).contains y.1) })).reply seq 0 []))
        ∧ (∀ d x, tableDesc s a t.toNat = some d → (descOf d).valid = true → e.defs.find? (fun y => y.1 == t.toNat) = some x →
            x.2.2.2.2 = none → exec (.tensorFree seq a t) z
              = .next (((((s.shootTensor a (descOf d) seq).clearDescs a (freedWith e t.toNat)).modAsid a (fun x =>
                  { x with defs := x.defs.filter (fun y => !(freedWith e t.toNat).contains y.1) })).modMmp (fun m => { m with
                    pending := some seq
                    tables := m.tables ++ [(seq, (descOf d).ttb, 8 * (descOf d).ntiles)] })).replyShot (some seq))))
      ∧ (z.liveAsid a = some e → e.retiring = true → z.asidInUse a = false → (∀ x ∈ z.mmp.shoots, x.asid ≠ a) →
            (∀ x ∈ tileEntries z e, (hbmWord z x 8).testBit 63 = false) → capEntries z e = [] →
            (∀ x ∈ e.windows, x.valid = false) → exec (.asidRetireComplete a) z
              = .next (((z.freeTables e).forgetAsid a).modMmp (fun m => { m with asids := m.asids.filter (fun x => x.id != a) })))
      ∧ (s.mmp.pins.find? (fun x => x.req == req) = some p →
        let u := (s.modMmp (fun m => { m with pins := m.pins.filter (fun x => x.req != req) })).unpinWaiters req
        exec (.pinAnswer seq req (some b)) z = .next (((u.writePin p b).answerServed p.asid).reply seq 0 [])
        ∧ exec (.pinAnswer seq req none) z = .next ((u.refuseNeed p.asid p.need 4).reply seq 0 []))

/-- R315 to R317, R8, R318: a warm reset clears contexts, transfer commands, the grammar and matrix units, pools and
launch queues, and keeps memory and the scratchpads (accesses in flight are dropped, log entry 42; a release buffer
that a group has left reads as zeros); RESET_STAT reads 0 when it is complete, and the delivery of fault events
resumes. A cold reset runs Temper and starts from the reset state: with its node and its live links where Temper
passes, in the safe state with the compute dies in reset where it fails; memory holds nothing (log entry 2).
(Complete: warmReset, warmResetComplete, coldReset.) -/
def Obligations.ResetsAct : Prop :=
  ∀ (s : State) (code : BitVec 8) (node : BitVec 21) (live : BitVec 17) (links : BitVec 48) (ns : List (BitVec 21)),
    (s.platform.resetting = none → s.platform.safe = false → ∃ u, exec .warmReset s = .next u
      ∧ u.hbm = s.hbm ∧ u.lpddr = s.lpddr ∧ u.gtc = s.gtc ∧ u.mmp.asids = s.mmp.asids
      ∧ u.records = [] ∧ u.flights = [] ∧ u.barriers = [] ∧ u.scans = [] ∧ u.groups = []
      ∧ (∀ q : BitVec 3, u.queueOf q = LaunchQueue.reset)
      ∧ u.platform = { s.platform with resetting := some (s.gtc.toNat + 2 ^ 20) }
      ∧ bar0Read u.platform 0x008 = 1
      ∧ (∀ t k b, (u.ctx t k b).status = .free ∧ (u.ctx t k b).landing = [] ∧ (u.ctx t k b).binding = none)
      ∧ ∀ t, let x := s.tile t
          let y := u.tile t
          y.buffer = [] ∧ y.done = [] ∧ (∀ ch, (y.channel ch).run = none)
            ∧ y.geu.queue = [] ∧ y.geu.running = none
            ∧ y.mxu.run = none ∧ y.mxu.ops = [] ∧ y.mxu.owner = none ∧ (∀ i, y.mxu.accAt i = Quire.zero)
            ∧ (x.replicated = false → y.scratch = x.scratch)
            ∧ (x.replicated = true → y.scratch = clearRange x.scratch 0x1F0000 0x10000))
    ∧ (s.platform.resetting ≠ none ∨ s.platform.safe = true → exec .warmReset s = .next s)
    ∧ (s.platform.resetting ≠ none → exec .warmResetComplete s
        = .next ((s.modPlatform (fun p => { p with resetting := none })).drainEvents s.platform.backlog))
    ∧ (s.platform.resetting = none → exec .warmResetComplete s = .next s)
    ∧ (∃ u, exec (.coldReset 0 node { dies := live, links := links, nodes := ns }) s = .next u ∧ u.node = node ∧ u.gtc = 0 ∧ u.tiles = State.reset.tiles
        ∧ u.hbm = [] ∧ u.lpddr = [] ∧ u.records = [] ∧ u.platform.safe = false ∧ u.platform.released = true
        ∧ u.platform.linksUp = links ∧ u.platform.dieLive = live ∧ u.platform.emergency = false
        ∧ u.platform.nodes = node :: ns ∧ u.platform.temperDone = true ∧ u.platform.temperPass = true)
    ∧ (code ≠ 0 → ∃ u, exec (.coldReset code node { dies := live, links := links, nodes := ns }) s = .next u ∧ u.gtc = 0 ∧ u.tiles = State.reset.tiles
        ∧ u.hbm = [] ∧ u.lpddr = [] ∧ u.records = [] ∧ u.mmp = State.reset.mmp ∧ u.platform.safe = true
        ∧ u.platform.released = false ∧ u.platform.temper = code ∧ u.platform.temperPass = false ∧ u.platform.dieLive = live)

/-- R312, R314, R318 to R323, R265 to R270, R8, R9: what writes to the event ring, the budget, the die map, the launch
queues and the mailbox leave and what reads of them return, and what the meters, the power window, the sensors and the
links do. Contents of an event that the spec does not give are free values (log entry 1); a part of a milliwatt counts
as one (log entry 46), and a message leaves over the links of log entry 14. (Complete: evqConsWrite, evqSizeWrite,
evqStatWrite, ebudSetWrite, registerWrite, correctedErrorReport, meterAdvance, powerWindowEnd, thermalEmergency,
thermalEmergencyEnd, thermalShutdown, linkLoss, stopGo, mmpCoreReset.) -/
def Obligations.PlatformEventsAct : Prop :=
  ∀ (s : State) (v : Word) (delta : Vector Word 5) (hot outlet : BitVec 8) (link : BitVec 6) (vc core q : BitVec 3) (d : Fin 17)
    (stop : Bool) (n : Nat),
    let p := s.platform
    let sets := fun (i : Instr) (q : Platform) => exec i s = .next { s with platform := q }
    let cool := hot.toNat ≤ 95 ∧ outlet.toNat ≤ 55
    let sensed : Platform := { p with hottest := hot, outlet := outlet, coolSince := none }
    let cooling : Platform := { p with hottest := hot, outlet := outlet, coolSince := some (p.coolSince.getD s.gtc.toNat) }
    let stopped : State := { s with platform := { p with
      stopped := p.stopped.filter (fun x => x != (link, vc)) ++ (if stop then [(link, vc)] else []) } }
    exec (.stopGo link vc stop) s = .next { stopped with
        out := s.out ++ s.linkHeld.filter (fun m => !stopped.holdsBack m), linkHeld := s.linkHeld.filter stopped.holdsBack }
    ∧ (let now := s.out.drop s.outAt
       exec (.mmpCoreReset 0) s = .next { s with
        out := s.out.take s.outAt ++ now.filter (fun m => !m.answer)
        mmp := { s.mmp with pending := none }
        platform := { p with rung := none, response := if now.any OutMsg.answer then [] else p.response } })
    ∧ (∀ n w x y z, OutMsg.channel s.node (.request n w y true) = some (linksTo s.node n, 4)
        ∧ OutMsg.channel s.node (.request n w y false) = some (linksTo s.node n, 0)
        ∧ OutMsg.channel s.node (.counterAdd n x z v v) = some (linksTo s.node n, 1))
    ∧ (core ≠ 0 → exec (.mmpCoreReset core) s = .next s)
    ∧ (p.safe = true → bar2Read s (0x80000 + 8 * q.setWidth 20) = 0)
    ∧ (p.safe = false →
      (exec (.evqConsWrite v) s
        = .next (let t : State := { s with platform := { p with evqCons := v.setWidth 32 } }
                 t.drainEvents t.platform.backlog))
      ∧ (v.toNat % 32 < 16 ∨ v.toNat % 32 = 31 → sets (.evqSizeWrite v) { p with evqSize := v.setWidth 5 })
      ∧ (16 ≤ v.toNat % 32 → v.toNat % 32 ≤ 30 → exec (.evqSizeWrite v) s = .next s)
      ∧ (v.msb = true → p.reserve = [] → sets (.evqStatWrite v) { p with evqOvf := false })
      ∧ sets (.registerWrite { bar := 0, off := 0x100 } v) { p with evqBase := v &&& ~~~(0xFFF : Word) }
      ∧ sets (.registerWrite { bar := 0, off := BitVec.ofNat 20 (0x40 + 8 * d.val) } v) { p with
          dieMap := p.dieMap.set d.val (v.msb, v.setWidth 5) d.isLt
          dieMapAt := p.dieMapAt.set d.val s.gtc.toNat d.isLt }
      ∧ sets (.registerWrite { bar := 4, off := 0x010 } v) { p with request := assocSet 0x010 v p.request }
      ∧ (∀ i, p.rung = none → ({ p with request := assocSet 0xFF8 v p.request } : Platform).requestCommand = some i →
          sets (.registerWrite { bar := 4, off := 0xFF8 } v) { p with
            request := assocSet 0xFF8 v p.request, rung := some (false, i) })
      ∧ bar2Read s (0x80000 + 8 * q.setWidth 20)
          = boolBit (s.queueOf q).err 63 ||| (s.queueOf q).cons.setWidth 64 <<< 32 ||| (s.queueOf q).prod.setWidth 64
      ∧ (natBits v.toNat 32 16 ≠ 0 → natBits v.toNat 0 32 ≠ 0 → natBits v.toNat 0 32 ≤ 2800000 →
          sets (.ebudSetWrite v) { p with ebudNext := some (v &&& 0xFFFFFFFFFFFF) })
      ∧ (s.gtc.toNat % 1024 = 0 → sets (.meterAdvance delta) { p with meters := Vector.ofFn (fun i => p.meters[i] + delta[i]) })
      ∧ (let len := s.gtc.toNat - p.windowAt
         0 < len → p.window ≤ len → sets .powerWindowEnd { p with
          windowSum := p.energy.toNat, windowAt := s.gtc.toNat
          measured := ((p.energy - BitVec.ofNat 64 p.windowSum).toNat * 3200000 + (len - 1)) / len })
      ∧ (cool → sets (.thermalEmergency hot outlet) cooling)
      ∧ (¬ cool → hot.toNat < 105 → outlet.toNat < 65 → sets (.thermalEmergency hot outlet) sensed)
      ∧ (105 ≤ hot.toNat ∨ 65 ≤ outlet.toNat → p.emergency = true →
          sets (.thermalEmergency hot outlet) { sensed with emergency := true })
      ∧ (105 ≤ hot.toNat ∨ 65 ≤ outlet.toNat → p.emergency = false → exec (.thermalEmergency hot outlet) s
          = .next (({ s with platform := { sensed with emergency := true } } : State).openEvent 10))
      ∧ (p.emergency = true → cool → p.coolSince = some n → n + 2 ^ 24 ≤ s.gtc.toNat →
          exec (.thermalEmergencyEnd hot outlet) s
            = .next (({ s with platform := { cooling with emergency := false } } : State).platformEvent 10 0))
      ∧ (cool → p.coolSince = none ∨ (p.coolSince = some n ∧ s.gtc.toNat < n + 2 ^ 24) →
          sets (.thermalEmergencyEnd hot outlet) cooling)
      ∧ (¬ cool → sets (.thermalEmergencyEnd hot outlet) sensed)
      ∧ (115 ≤ hot.toNat → ∃ u, exec (.thermalShutdown hot outlet) s = .next u ∧ u.platform.safe = true
          ∧ u.platform.temper = 0xF0 ∧ u.platform.temperPass = false ∧ u.platform.temperDone = true ∧ u.records = [] ∧ u.hbm = s.hbm)
      ∧ (s.gtc.toNat % 2 ^ 24 = 0 → exec (.correctedErrorReport v) s
          = .next (s.postOpen 2 none none none (some v) none))
      ∧ (link.toNat < 48 → p.linksUp.getLsbD link.toNat = true → ∃ u, exec (.linkLoss link) s = .next u
          ∧ u.platform.linksUp = p.linksUp &&& ~~~((1 : BitVec 48) <<< link.toNat)
          ∧ (4 ≤ link.toNat → u.scans = s.scans)))
end

