-- ==== Sys2Proof/Laws/Issue.lean ====
section
/-! SUPPORT. What one instruction does: where nothing stops it, its effect; and what each stop comes to. -/

namespace Sys2Proof.Machine

theorem atPos_self (s : State) : s.atPos s.cur.pos = s := rfl

/-- Heads that are ready neither poison nor block a bundle. -/
theorem poisonTrap_none (c : Context) (gtc : Nat) (hs : List HReg)
    (h : ∀ q ∈ hs, (c.queue q).headPoison gtc = none) : poisonTrap c gtc hs = none := by
  simp only [poisonTrap, Option.map_eq_none_iff, List.findSome?_eq_none_iff]
  exact h

theorem headBlock_none (c : Context) (gtc : Nat) (hs : List HReg)
    (h : ∀ q ∈ hs, (c.queue q).headValid gtc = true) : headBlock c gtc hs = none := by
  simp only [headBlock, List.findSome?_eq_none_iff]
  intro q hq
  simp [h q hq]

theorem headReady_iff (s : State) (q : HReg) :
    s.headReady q = true ↔ (s.me.queue q).configured = true ∧ (s.me.queue q).headValid s.gtc.toNat = true
      ∧ (s.me.queue q).headPoison s.gtc.toNat = none := by
  simp [State.headReady, and_assoc, Option.isNone_iff_eq_none]

/-- Without POP bits, the heads of a bundle of one syllable are those that it reads. -/
theorem readHeads_single (p : Pos) (m : Meaning) : readHeads [(p, m)] 0 = m.heads := by
  simp [readHeads, popList]

/-- One syllable clashes with no other. -/
theorem crossCheck_single (m : Meaning) (p : Pos) (hd : m.configures = none ∨ m.delivers = none) :
    crossCheck [(p, m)] (p, m) = none := by
  unfold crossCheck
  rcases hd with hd | hd <;> cases hq : m.quire <;> cases p <;> simp [hd]
  all_goals (cases m.configures <;> simp)

/-- The steps of R62 for one syllable that nothing stops: its effect. -/
theorem issueActive_issued (m : Meaning) (s : State)
    (hh : ∀ q ∈ m.heads, s.headReady q = true) (hb : m.block s = none) (hm : m.misses s = []) (hc : m.check s = none)
    (hd : m.configures = none ∨ m.delivers = none) :
    issueActive [(s.cur.pos, m)] 0 0 s = .issued (m.effect s s) := by
  have hp : poisonTrap s.me s.gtc.toNat (readHeads [(s.cur.pos, m)] 0) = none := by
    rw [readHeads_single]
    exact poisonTrap_none _ _ _ (fun q hq => ((headReady_iff s q).1 (hh q hq)).2.2)
  have hk : headBlock s.me s.gtc.toNat (readHeads [(s.cur.pos, m)] 0) = none := by
    rw [readHeads_single]
    exact headBlock_none _ _ _ (fun q hq => ((headReady_iff s q).1 (hh q hq)).2.1)
  have hbl : blockOf [(s.cur.pos, m)] 0 s = none := by
    unfold blockOf
    rw [hk]
    simp [atPos_self, hb]
  unfold issueActive
  rw [hp, hbl]
  simp [atPos_self, hm, checkOf, hc, crossCheck_single m _ hd]

/-- One instruction that nothing stops. -/
theorem runSyllable_issued (i : Instr) (m : Meaning) (s : State) (hw : i.wf = true) (hs : slotOk i s.cur.pos = true)
    (hi : m.illegal s = false) (hh : ∀ q ∈ m.heads, s.headReady q = true) (hb : m.block s = none)
    (hm : m.misses s = []) (hc : m.check s = none) (hd : m.configures = none ∨ m.delivers = none) :
    runSyllable i m s = .next (m.effect s s) := by
  simp only [slotOk, Bool.and_eq_true, Bool.or_eq_true, Bool.not_eq_true', beq_iff_eq] at hs
  have h1 : ((i.saOnly && s.cur.pos != .sa) || (i.vbOnly && s.cur.pos != .vb)) = false := by
    obtain ⟨h1, h2⟩ := hs
    rcases h1 with h1 | h1 <;> rcases h2 with h2 | h2 <;> simp_all
  unfold runSyllable
  rw [issueActive_issued m s hh hb hm hc hd, h1]
  simp [hw, hi, Issue.state]

/-- An instruction with no condition but its slot and its operands. -/
theorem runSyllable_plain (i : Instr) (m : Meaning) (s : State) (hw : i.wf = true) (hs : slotOk i s.cur.pos = true)
    (hi : m.illegal = fun _ => false) (hh : m.heads = []) (hb : m.block = fun _ => none) (hm : m.misses = fun _ => [])
    (hc : m.check = fun _ => none) (hd : m.configures = none) : runSyllable i m s = .next (m.effect s s) :=
  runSyllable_issued i m s hw hs (by rw [hi]) (by simp [hh]) (by rw [hb]) (by rw [hm]) (by rw [hc]) (.inl hd)

/-- The slot check passes where the slot is right. -/
theorem slot_passes (i : Instr) (p : Pos) (hs : slotOk i p = true) :
    ((i.saOnly && p != .sa) || (i.vbOnly && p != .vb)) = false := by
  simp only [slotOk, Bool.and_eq_true, Bool.or_eq_true, Bool.not_eq_true', beq_iff_eq] at hs
  obtain ⟨h1, h2⟩ := hs
  rcases h1 with h1 | h1 <;> rcases h2 with h2 | h2 <;> simp_all

/-- One instruction whose execute check fails raises its trap (R62). -/
theorem runSyllable_trapped (i : Instr) (m : Meaning) (s : State) (tr : Trap) (hw : i.wf = true)
    (hs : slotOk i s.cur.pos = true) (hi : m.illegal s = false) (hh : ∀ q ∈ m.heads, s.headReady q = true)
    (hb : m.block s = none) (hm : m.misses s = []) (hc : m.check s = some tr) :
    runSyllable i m s = .next (s.raise tr) := by
  have hp : poisonTrap s.me s.gtc.toNat (readHeads [(s.cur.pos, m)] 0) = none := by
    rw [readHeads_single]
    exact poisonTrap_none _ _ _ (fun q hq => ((headReady_iff s q).1 (hh q hq)).2.2)
  have hk : headBlock s.me s.gtc.toNat (readHeads [(s.cur.pos, m)] 0) = none := by
    rw [readHeads_single]
    exact headBlock_none _ _ _ (fun q hq => ((headReady_iff s q).1 (hh q hq)).2.1)
  have hbl : blockOf [(s.cur.pos, m)] 0 s = none := by
    unfold blockOf
    rw [hk]
    simp [atPos_self, hb]
  unfold runSyllable issueActive
  rw [slot_passes i _ hs, hp, hbl]
  simp [hw, hi, atPos_self, hm, checkOf, hc, Issue.state]

/-- One instruction that meets a condition of R29 blocks its context (R60). -/
theorem runSyllable_blocked (i : Instr) (m : Meaning) (s : State) (b : BlockCond) (hw : i.wf = true)
    (hs : slotOk i s.cur.pos = true) (hi : m.illegal s = false) (hh : m.heads = []) (hb : m.block s = some b) :
    runSyllable i m s = .next ((m.onBlock (s.waitOn b)).blockOn b) := by
  have hp : poisonTrap s.me s.gtc.toNat (readHeads [(s.cur.pos, m)] 0) = none := by
    rw [readHeads_single, hh]; rfl
  have hk : headBlock s.me s.gtc.toNat (readHeads [(s.cur.pos, m)] 0) = none := by
    rw [readHeads_single, hh]; rfl
  have hbl : blockOf [(s.cur.pos, m)] 0 s = some (b, m.onBlock) := by
    unfold blockOf
    rw [hk]
    simp [atPos_self, hb]
  unfold runSyllable issueActive
  rw [slot_passes i _ hs, hp, hbl]
  simp [hw, hi, Issue.state]

theorem slotOk_sa (i : Instr) (p : Pos) (h : p = .sa) (hv : i.vbOnly = false) : slotOk i p = true := by
  simp [slotOk, h, hv]

theorem slotOk_vb (i : Instr) (p : Pos) (h : p = .vb) (ha : i.saOnly = false) : slotOk i p = true := by
  simp [slotOk, h, ha]

theorem slotOk_any (i : Instr) (p : Pos) (ha : i.saOnly = false) (hv : i.vbOnly = false) : slotOk i p = true := by
  simp [slotOk, ha, hv]

/-- An ill-formed instruction raises ILLEGAL_OP and does nothing else (R57, R452). -/
theorem runSyllable_illegal (i : Instr) (m : Meaning) (s : State) (h : i.wf = false ∨ m.illegal s = true) :
    runSyllable i m s = .next (s.raise { name := .illegalOp, tval := sylTval (instrBits i) s.cur.pos }) := by
  rcases h with h | h <;> simp [runSyllable, h]

/-- An instruction never faults and is never refused: it always comes to a next state. -/
theorem runSyllable_next (i : Instr) (m : Meaning) (s : State) : ∃ t, runSyllable i m s = .next t := by
  unfold runSyllable
  split
  · exact ⟨_, rfl⟩
  · split <;> exact ⟨_, rfl⟩

end Sys2Proof.Machine
end

