-- ==== Sys2Proof/Laws/Dispatch.lean ====
section
/-! SUPPORT. An instruction executes its meaning; the arms of the dispatch for the instructions. -/

namespace Sys2Proof.Machine

/-- Every instruction of the instruction set runs as a syllable of its own. -/
theorem exec_meaning (i : Instr) (m : Meaning) (s : State) (h : meaningOf i = some m) : exec i s = runSyllable i m s := by
  cases i <;> first | (cases h; rfl) | exact absurd h (by intro h; cases h)

/-- An instruction that nothing stops has its effect. -/
theorem exec_issued (i : Instr) (m : Meaning) (s : State) (h : meaningOf i = some m) (hw : i.wf = true)
    (hs : slotOk i s.cur.pos = true) (hi : m.illegal s = false) (hh : ∀ q ∈ m.heads, s.headReady q = true)
    (hb : m.block s = none) (hm : m.misses s = []) (hc : m.check s = none)
    (hd : m.configures = none ∨ m.delivers = none) : exec i s = .next (m.effect s s) := by
  rw [exec_meaning i m s h]
  exact runSyllable_issued i m s hw hs hi hh hb hm hc hd

/-- An instruction with no condition but its slot and its operands. -/
theorem exec_plain (i : Instr) (m : Meaning) (s : State) (h : meaningOf i = some m) (hw : i.wf = true)
    (hs : slotOk i s.cur.pos = true) (hi : m.illegal = fun _ => false) (hh : m.heads = [])
    (hb : m.block = fun _ => none) (hm : m.misses = fun _ => []) (hc : m.check = fun _ => none)
    (hd : m.configures = none) : exec i s = .next (m.effect s s) := by
  rw [exec_meaning i m s h]
  exact runSyllable_plain i m s hw hs hi hh hb hm hc hd

/-- An instruction whose execute check fails. -/
theorem exec_trapped (i : Instr) (m : Meaning) (s : State) (tr : Trap) (h : meaningOf i = some m) (hw : i.wf = true)
    (hs : slotOk i s.cur.pos = true) (hi : m.illegal s = false) (hh : ∀ q ∈ m.heads, s.headReady q = true)
    (hb : m.block s = none) (hm : m.misses s = []) (hc : m.check s = some tr) : exec i s = .next (s.raise tr) := by
  rw [exec_meaning i m s h]
  exact runSyllable_trapped i m s tr hw hs hi hh hb hm hc

/-- An instruction that meets a condition of R29. -/
theorem exec_blocked (i : Instr) (m : Meaning) (s : State) (b : BlockCond) (h : meaningOf i = some m) (hw : i.wf = true)
    (hs : slotOk i s.cur.pos = true) (hi : m.illegal s = false) (hh : m.heads = []) (hb : m.block s = some b) :
    exec i s = .next ((m.onBlock (s.waitOn b)).blockOn b) := by
  rw [exec_meaning i m s h]
  exact runSyllable_blocked i m s b hw hs hi hh hb

/-- An instruction comes to a next state, whatever the state. -/
theorem exec_next (i : Instr) (m : Meaning) (s : State) (h : meaningOf i = some m) : ∃ t, exec i s = .next t := by
  rw [exec_meaning i m s h]
  exact runSyllable_next i m s

end Sys2Proof.Machine
end

