-- ==== Sys2Proof/Laws/Inputs.lean ====
section
/-! SUPPORT. The inputs of a context that is no replica and has no log stream: it performs them itself, and shares and
records nothing. -/

namespace Sys2Proof.Machine

/-- The context of the cursor stands in the primary bank of its slot. -/
theorem bankOf_me (s : State) : s.here.bankOf s.cur.slot s.me.uid = some .primary := if_pos rfl

theorem uidCtx_me (s : State) : s.uidCtx s.cur.tile.toNat s.cur.slot s.me.uid = some s.me := by
  unfold State.uidCtx
  rw [show (s.tile s.cur.tile.toNat).bankOf s.cur.slot s.me.uid = some .primary from bankOf_me s]
  rfl

theorem modUid_me (s : State) (f : Context → Context) :
    s.modUid s.cur.tile.toNat s.cur.slot s.me.uid f = s.modMe f := by
  unfold State.modUid
  rw [show (s.tile s.cur.tile.toNat).bankOf s.cur.slot s.me.uid = some .primary from bankOf_me s]
  rfl

theorem plain_iff (c : Context) :
    c.plain = true ↔ c.replica.group = 0 ∧ c.log.active = false ∧ c.log.replay = false := by
  simp [Context.plain, and_assoc]

theorem groupOf_none (s : State) (c : Context) (h : c.replica.group = 0) : s.groupOf c = none := if_pos h

theorem nonLead_false (s : State) (c : Context) (h : c.replica.group = 0) : s.nonLead c = false := by
  simp [State.nonLead, groupOf_none s c h]

theorem replicated_false (c : Context) (h : c.replica.group = 0) : c.replicated = false := by
  simp [Context.replicated, h]

theorem holds_false (c : Context) (h : c.replica.group = 0) : c.holds = false := by
  simp [Context.holds, replicated_false c h]

/-- A plain context performs its own inputs. -/
theorem plain_inMode (s : State) (h : s.me.plain = true) : s.inMode = .own := by
  obtain ⟨h1, -, h3⟩ := (plain_iff _).1 h
  unfold State.inMode
  simp [nonLead_false s s.me h1, replicated_false s.me h1, Context.replaying, h3]

theorem plain_performs (s : State) (h : s.me.plain = true) : s.performsInputs = true := by
  simp [State.performsInputs, plain_inMode s h]

theorem plain_share (s : State) (c : Context) (h : c.plain = true) (b : Word) (src : Nat) (v : TongsValue) :
    s.share c b src v = s := by
  obtain ⟨h1, -, -⟩ := (plain_iff _).1 h
  simp [State.share, State.followers, groupOf_none s c h1]

theorem plain_shareIssued (s : State) (c : Context) (h : c.plain = true) (src : Nat) (v : TongsValue) :
    s.shareIssued c src v = s := by
  unfold State.shareIssued
  split
  · rfl
  · exact plain_share s c h _ src v

theorem quiet_logPlace (s : State) (t : Nat) (k : SlotNo) (uid n : Nat)
    (h : ∀ c, s.uidCtx t k uid = some c → c.log.active = false) : s.logPlace t k uid n = (none, s) := by
  unfold State.logPlace
  split
  · rfl
  · rename_i c hc
    simp [Context.logging, h c hc]

theorem quiet_logEntry (s : State) (t : Nat) (k : SlotNo) (uid : Nat) (cls : BitVec 8) (b : Word) (ws : List Word)
    (h : ∀ c, s.uidCtx t k uid = some c → c.log.active = false) : s.logEntry t k uid cls b ws = s := by
  unfold State.logEntry
  rw [quiet_logPlace s t k uid _ h]

theorem plain_logPlace (s : State) (h : s.me.plain = true) (n : Nat) :
    s.logPlace s.cur.tile.toNat s.cur.slot s.me.uid n = (none, s) := by
  refine quiet_logPlace s _ _ _ n (fun c hc => ?_)
  rw [uidCtx_me] at hc
  cases hc
  exact ((plain_iff _).1 h).2.1

theorem plain_latePlace (s : State) (h : s.me.plain = true) (cls : BitVec 8) (n : Nat)
    (w : Option Nat) : s.latePlace cls n w = (none, s) := by
  unfold State.latePlace
  simp only [plain_inMode s h, plain_logPlace s h n]

/-- A late landing of a plain context waits for its operation. -/
theorem plain_landLate (s : State) (h : s.me.plain = true) (w : Write) (lat tag : Nat) :
    s.landLate w lat tag = s.awaited w lat tag := by
  unfold State.landLate
  rw [plain_latePlace s h, plain_inMode s h]
  rfl

/-- A load of a plain context reserves under the number of its operation. -/
theorem plain_reserveIn (s : State) (h : s.me.plain = true) (q : HReg) (op : Nat) (cls : BitVec 8) :
    s.reserveIn q op cls = s.reserved q op := by
  unfold State.reserveIn
  simp only [plain_latePlace s h, plain_inMode s h]
  rfl

theorem assocGet_set_self {α : Type} (k : Nat) (v : α) (l : List (Nat × α)) : assocGet k (assocSet k v l) = some v := by
  induction l with
  | nil => simp [assocSet, assocGet]
  | cons p l ih =>
    obtain ⟨i, a⟩ := p
    simp only [assocSet]
    split <;> simp_all [assocGet]

theorem assocGet_set_other {α : Type} (k j : Nat) (v : α) (l : List (Nat × α)) (h : j ≠ k) :
    assocGet j (assocSet k v l) = assocGet j l := by
  induction l with
  | nil => simp [assocSet, assocGet, Ne.symm h]
  | cons p l ih =>
    obtain ⟨i, a⟩ := p
    simp only [assocSet]
    split
    · rename_i hi
      subst hi
      simp [assocGet, Ne.symm h]
    · simp only [assocGet, ih]

theorem tile_setTile_self (s : State) (t : Nat) (x : Tile) : (s.setTile t x).tile t = x := by
  simp [State.tile, State.setTile, assocGet_set_self]

theorem tile_setTile_other (s : State) (t u : Nat) (x : Tile) (h : u ≠ t) : (s.setTile t x).tile u = s.tile u := by
  simp [State.tile, State.setTile, assocGet_set_other _ _ _ _ h]

theorem slot_setSlot_self (x : Tile) (k : SlotNo) (sl : Slot) : (x.setSlot k sl).slot k = sl := by
  simp [Tile.slot, Tile.setSlot]

theorem slot_setSlot_other (x : Tile) (k j : SlotNo) (sl : Slot) (h : j ≠ k) : (x.setSlot k sl).slot j = x.slot j := by
  simp only [Tile.slot, Tile.setSlot]
  exact Vector.getElem_set_ne _ _ (fun e => h (BitVec.eq_of_toNat_eq e.symm))

theorem ctx_setCtx_self (sl : Slot) (c : Context) (b : Bank) : (sl.setCtx c b).ctx b = c := by cases b <;> rfl

/-- The context that a change of the context of the cursor leaves. -/
theorem me_setMe (s : State) (c : Context) : (s.setMe c).me = c := by
  simp only [State.me, State.setMe, State.ctx, State.setCtx]
  rw [show ((s.setTile s.cur.tile.toNat ((s.tile s.cur.tile.toNat).setCtx s.cur.slot .primary c)).cur) = s.cur from rfl,
    tile_setTile_self]
  simp only [Tile.ctx, Tile.setCtx, slot_setSlot_self, ctx_setCtx_self]

theorem me_modMe (s : State) (f : Context → Context) : (s.modMe f).me = f s.me := me_setMe s _

/-- A landing leaves every other context. -/
theorem ctx_setMe_other (s : State) (c : Context) (t : Nat) (k : SlotNo) (b : Bank)
    (h : t ≠ s.cur.tile.toNat ∨ k ≠ s.cur.slot ∨ b = .second) : (s.setMe c).ctx t k b = s.ctx t k b := by
  simp only [State.setMe, State.setCtx, State.ctx]
  by_cases ht : t = s.cur.tile.toNat
  · subst ht
    rw [tile_setTile_self]
    simp only [Tile.ctx, Tile.setCtx]
    by_cases hk : k = s.cur.slot
    · subst hk
      obtain h | h | h := h
      · exact absurd rfl h
      · exact absurd rfl h
      · subst h
        rw [slot_setSlot_self]
        rfl
    · rw [slot_setSlot_other _ _ _ _ hk]
  · rw [tile_setTile_other _ _ _ _ ht]

theorem uidCtx_modMe (s : State) (f : Context → Context) (hf : (f s.me).uid = s.me.uid) :
    (s.modMe f).uidCtx s.cur.tile.toNat s.cur.slot s.me.uid = some (f s.me) := by
  have h := uidCtx_me (s.modMe f)
  rw [me_modMe, hf] at h
  exact h

/-- A value of the issue cycle lands at L, in a plain context, with no trace elsewhere. -/
theorem plain_landInput (s : State) (h : s.me.plain = true) (mk : Word → Write) (lat : Nat) (cls : BitVec 8)
    (pre : List Word) (x : Word) (poison : Option Word) :
    s.landInput mk lat cls pre x poison = s.landRead (mk x) lat poison := by
  unfold State.landInput
  simp only [plain_inMode s h, plain_shareIssued _ _ h]
  refine (quiet_logEntry _ _ _ _ _ _ _ (fun c hc => ?_)).trans rfl
  rw [uidCtx_modMe _ _ rfl] at hc
  cases hc
  exact ((plain_iff _).1 h).2.1

end Sys2Proof.Machine
end

