-- ==== Sys2Proof/Laws/Lanes.lean ====
section
/-! SUPPORT. Lanes of a vector register: what a vector made from its lanes holds, and what a lane operation lands. -/

namespace Sys2Proof.Machine

theorem splitNat_length (w x n : Nat) : (splitNat w x n).length = n := by
  induction n generalizing x with
  | zero => rfl
  | succ n ih => simp [splitNat, ih]

theorem splitNat_get (w x n l : Nat) (h : l < n) : (splitNat w x n)[l]? = some (x / 2 ^ (w * l) % 2 ^ w) := by
  induction n generalizing x l with
  | zero => omega
  | succ n ih =>
    cases l with
    | zero => simp [splitNat]
    | succ l =>
      simp only [splitNat, List.getElem?_cons_succ]
      rw [ih _ _ (by omega), Nat.shiftRight_eq_div_pow, Nat.div_div_eq_div_mul, ← pow_add]
      congr 4
      ring

theorem joinNat_lt (w : Nat) (xs : List Nat) : joinNat w xs < 2 ^ (w * xs.length) := by
  induction xs with
  | nil => simp [joinNat]
  | cons x xs ih =>
    have h1 : x % 2 ^ w < 2 ^ w := Nat.mod_lt _ (by positivity)
    simp only [joinNat, Nat.shiftLeft_eq, List.length_cons, Nat.mul_succ, pow_add]
    nlinarith [Nat.pos_of_ne_zero (show 2 ^ w ≠ 0 by positivity)]

theorem joinNat_get (w : Nat) (xs : List Nat) (l x : Nat) (h : xs[l]? = some x) :
    joinNat w xs / 2 ^ (w * l) % 2 ^ w = x % 2 ^ w := by
  induction xs generalizing l with
  | nil => simp at h
  | cons y ys ih =>
    cases l with
    | zero =>
      simp only [List.getElem?_cons_zero, Option.some.injEq] at h
      simp [joinNat, h, Nat.shiftLeft_eq]
    | succ l =>
      simp only [List.getElem?_cons_succ] at h
      rw [← ih l h, joinNat, Nat.shiftLeft_eq, Nat.mul_succ, Nat.add_comm (w * l), pow_add, ← Nat.div_div_eq_div_mul]
      congr 2
      rw [Nat.add_mul_div_right _ _ (by positivity), Nat.div_eq_of_lt (Nat.mod_lt _ (by positivity)), Nat.zero_add]

theorem vecLanes_length (w : LaneW) (v : Vec) : (vecLanes w v).length = w.lanes := splitNat_length _ _ _

theorem vecLanes_get (w : LaneW) (v : Vec) (l : Nat) (h : l < w.lanes) : (vecLanes w v)[l]? = some (laneNat w v l) :=
  splitNat_get _ _ _ _ h

set_option exponentiation.threshold 4096 in
/-- A vector from as many lanes as it has holds each of them, modulo the lane width. -/
theorem laneNat_vecOf (w : LaneW) (xs : List Nat) (hl : xs.length = w.lanes) (l x : Nat) (h : xs[l]? = some x) :
    laneNat w (vecOf w xs) l = x % 2 ^ w.bits := by
  have hb : joinNat w.bits xs < 2 ^ 2048 := by
    have := joinNat_lt w.bits xs
    rw [hl] at this
    cases w <;> exact this
  rw [laneNat, vecOf, BitVec.toNat_ofNat, Nat.mod_eq_of_lt hb]
  exact joinNat_get _ _ _ _ h

theorem laneNat_lt (w : LaneW) (v : Vec) (l : Nat) : laneNat w v l < 2 ^ w.bits := Nat.mod_lt _ (by positivity)

theorem activeLanes_length (w : LaneW) (m : MaskWord) : (activeLanes w m).length = w.lanes := by simp [activeLanes]

theorem activeLanes_get (w : LaneW) (m : MaskWord) (l : Nat) (h : l < w.lanes) :
    (activeLanes w m)[l]? = some (m.getLsbD (l * w.bits / 32)) := by simp [activeLanes, h]

theorem mergeLanes_length (act : List Bool) (res old : List Nat) (n : Nat) (ha : act.length = n) (hr : res.length = n)
    (ho : old.length = n) : (mergeLanes act res old).length = n := by simp [mergeLanes, ha, hr, ho]

theorem mergeLanes_get (act : List Bool) (res old : List Nat) (l : Nat) (a : Bool) (r o : Nat) (ha : act[l]? = some a)
    (hr : res[l]? = some r) (ho : old[l]? = some o) : (mergeLanes act res old)[l]? = some (if a then r else o) := by
  simp only [mergeLanes, List.getElem?_map]
  have h2 : (res.zip old)[l]? = some (r, o) := List.getElem?_zip_eq_some.2 ⟨hr, ho⟩
  have h1 : (act.zip (res.zip old))[l]? = some (a, (r, o)) := List.getElem?_zip_eq_some.2 ⟨ha, h2⟩
  rw [h1]
  rfl

/-- The OR of flags over a list. -/
theorem foldFlags_bit (xs : List (Bool × Flags)) (acc : Flags) (i : Nat) :
    (xs.foldl (fun acc x => if x.1 then acc ||| x.2 else acc) acc).getLsbD i
      = (acc.getLsbD i || xs.any (fun x => x.1 && x.2.getLsbD i)) := by
  induction xs generalizing acc with
  | nil => simp
  | cons x xs ih =>
    simp only [List.foldl_cons, ih, List.any_cons]
    cases x.1 <;> simp [Bool.or_assoc]

theorem activeFlags_bit (act : List Bool) (fls : List Flags) (i : Nat) :
    (activeFlags act fls).getLsbD i = true ↔ ∃ l : Nat, act[l]? = some true ∧ ∃ f : Flags, fls[l]? = some f ∧ f.getLsbD i = true := by
  have h0 : (0 : Flags).getLsbD i = false := by exact BitVec.getLsbD_zero
  rw [activeFlags, foldFlags_bit, h0, Bool.false_or, List.any_eq_true]
  simp only [Bool.and_eq_true, Prod.exists]
  constructor
  · rintro ⟨a, f, hm, ha, hf⟩
    obtain ⟨l, hl⟩ := List.mem_iff_getElem?.1 hm
    obtain ⟨h1, h2⟩ := List.getElem?_zip_eq_some.1 hl
    exact ⟨l, by rw [h1]; simp_all, f, h2, hf⟩
  · rintro ⟨l, ha, f, hf, hi⟩
    exact ⟨true, f, List.mem_iff_getElem?.2 ⟨l, List.getElem?_zip_eq_some.2 ⟨ha, hf⟩⟩, rfl, hi⟩

/-- A lane operation whose results are given lane by lane lands them. -/
theorem lands_laneMeaning (s : State) (w : LaneW) (d : VReg) (m : MReg) (lat : Nat) (g : Context → List Rounded)
    (f : Nat → Rounded) (hlen : (g s.me).length = w.lanes) (hg : ∀ l, l < w.lanes → (g s.me)[l]? = some (f l)) :
    s.landsLanes (.next ((laneMeaning w d m lat g).effect s s)) w d m lat f := by
  refine ⟨_, _, rfl, ?_, ?_⟩
  · intro l hl
    rw [laneNat_vecOf w _ (mergeLanes_length _ _ _ _ (activeLanes_length w _) (by simpa using hlen) (vecLanes_length w _)) l
      _ (mergeLanes_get _ _ _ l _ _ _ (activeLanes_get w _ l hl)
        (show ((g s.me).map Prod.fst)[l]? = some (f l).1 by simp [hg l hl]) (vecLanes_get w _ l hl))]
    split
    · rfl
    · exact Nat.mod_eq_of_lt (laneNat_lt w _ l)
  · intro i _
    rw [activeFlags_bit]
    constructor
    · rintro ⟨l, ha, fl, hf, hi⟩
      have hl : l < w.lanes := by
        have := (List.getElem?_eq_some_iff.1 ha).1
        rwa [activeLanes_length] at this
      refine ⟨l, hl, ?_, ?_⟩
      · rw [activeLanes_get w _ l hl] at ha
        simpa using ha
      · rw [List.getElem?_map, hg l hl] at hf
        simp only [Option.map_some, Option.some.injEq] at hf
        rw [hf]; exact hi
    · rintro ⟨l, hl, ha, hi⟩
      exact ⟨l, by rw [activeLanes_get w _ l hl, ha], (f l).2, by simp [hg l hl], hi⟩

/-- An instruction whose meaning is a lane operation lands its lanes. -/
theorem exec_lanes (i : Instr) (s : State) (w : LaneW) (d : VReg) (m : MReg) (lat : Nat) (g : Context → List Rounded)
    (f : Nat → Rounded) (h : meaningOf i = some (laneMeaning w d m lat g)) (hw : i.wf = true)
    (hs : slotOk i s.cur.pos = true) (hlen : (g s.me).length = w.lanes)
    (hg : ∀ l, l < w.lanes → (g s.me)[l]? = some (f l)) : s.landsLanes (exec i s) w d m lat f := by
  rw [exec_plain i _ s h hw hs rfl rfl rfl rfl rfl rfl]
  exact lands_laneMeaning s w d m lat g f hlen hg

/-- The same for a result of each lane of one register. -/
theorem exec_lanes1 (i : Instr) (s : State) (w : LaneW) (d a : VReg) (m : MReg) (lat : Nat) (g : Nat → Rounded)
    (h : meaningOf i = some (lanes1 w d a m lat g)) (hw : i.wf = true) (hs : slotOk i s.cur.pos = true) :
    s.landsLanes (exec i s) w d m lat (fun l => g (laneNat w (s.me.vreg a) l)) :=
  exec_lanes i s w d m lat _ _ h hw hs (by simp [vecLanes_length])
    (fun l hl => by simp [vecLanes_get _ _ _ hl])

/-- The same for a result of each pair of lanes. -/
theorem exec_lanes2 (i : Instr) (s : State) (w : LaneW) (d a b : VReg) (m : MReg) (lat : Nat) (g : Nat → Nat → Rounded)
    (h : meaningOf i = some (lanes2 w d a b m lat g)) (hw : i.wf = true) (hs : slotOk i s.cur.pos = true) :
    s.landsLanes (exec i s) w d m lat (fun l => g (laneNat w (s.me.vreg a) l) (laneNat w (s.me.vreg b) l)) :=
  exec_lanes i s w d m lat _ _ h hw hs (by simp [vecLanes_length])
    (fun l hl => by simp [List.getElem?_zipWith, vecLanes_get _ _ _ hl])

end Sys2Proof.Machine
end

