-- ==== Sys2Proof/Laws/Memory.lean ====
section
/-! SUPPORT. Memories: every operation keeps the canonical form, a read gives what was written last, and two memories in
canonical form that read alike are equal. -/

namespace Sys2Proof.Machine

/-- The canonical form, entry by entry. -/
theorem Memory.wf_cons (i : Nat) (x : Byte) (m : Memory) :
    Memory.wf ((i, x) :: m) = true ↔ x ≠ 0 ∧ (∀ c ∈ m, i < c.1) ∧ Memory.wf m = true := by
  induction m generalizing i x with
  | nil => simp [Memory.wf]
  | cons c m ih =>
    obtain ⟨j, y⟩ := c
    simp only [Memory.wf, Bool.and_eq_true, bne_iff_ne, ne_eq, decide_eq_true_eq, List.mem_cons, forall_eq_or_imp]
    constructor
    · rintro ⟨⟨hx, hij⟩, hm⟩
      obtain ⟨-, hr, -⟩ := (ih j y).1 hm
      exact ⟨hx, ⟨hij, fun c hc => Nat.lt_trans hij (hr c hc)⟩, hm⟩
    · rintro ⟨hx, ⟨hij, -⟩, hm⟩
      exact ⟨⟨hx, hij⟩, hm⟩

theorem Memory.wf_nil : Memory.wf [] = true := rfl

/-- An erased memory lists nothing new. -/
theorem Memory.mem_erase (a : Nat) (m : Memory) (c : Host.Cell) (h : c ∈ Memory.erase a m) : c ∈ m := by
  induction m with
  | nil => cases h
  | cons d m ih =>
    obtain ⟨i, x⟩ := d
    unfold Memory.erase at h
    split at h
    · exact .tail _ h
    · rcases List.mem_cons.1 h with rfl | h
      · exact .head _
      · exact .tail _ (ih h)

theorem Memory.wf_erase (a : Nat) (m : Memory) (h : Memory.wf m = true) : Memory.wf (Memory.erase a m) = true := by
  induction m with
  | nil => rfl
  | cons d m ih =>
    obtain ⟨i, x⟩ := d
    obtain ⟨hx, hr, hm⟩ := (Memory.wf_cons i x m).1 h
    unfold Memory.erase
    split
    · exact hm
    · exact (Memory.wf_cons _ _ _).2 ⟨hx, fun c hc => hr c (Memory.mem_erase a m c hc), ih hm⟩

/-- An erased address is not listed. -/
theorem Memory.ne_of_mem_erase (a : Nat) (m : Memory) (h : Memory.wf m = true) (c : Host.Cell)
    (hc : c ∈ Memory.erase a m) : c.1 ≠ a := by
  induction m with
  | nil => cases hc
  | cons d m ih =>
    obtain ⟨i, x⟩ := d
    obtain ⟨-, hr, hm⟩ := (Memory.wf_cons i x m).1 h
    unfold Memory.erase at hc
    split at hc
    · rename_i hi
      have := hr c hc
      omega
    · rename_i hi
      rcases List.mem_cons.1 hc with rfl | hc
      · exact hi
      · exact ih hm hc

theorem Memory.mem_insert (a : Nat) (x : Byte) (m : Memory) (c : Host.Cell) (h : c ∈ Memory.insert a x m) :
    c = (a, x) ∨ c ∈ m := by
  induction m with
  | nil => simpa [Memory.insert] using h
  | cons d m ih =>
    obtain ⟨i, y⟩ := d
    unfold Memory.insert at h
    split at h
    · simpa using h
    · rcases List.mem_cons.1 h with rfl | h
      · exact .inr (.head _)
      · exact (ih h).imp id (.tail _)

theorem Memory.wf_insert (a : Nat) (x : Byte) (m : Memory) (hx : x ≠ 0) (h : Memory.wf m = true)
    (ha : ∀ c ∈ m, c.1 ≠ a) : Memory.wf (Memory.insert a x m) = true := by
  induction m with
  | nil => exact (Memory.wf_cons _ _ _).2 ⟨hx, by simp, rfl⟩
  | cons d m ih =>
    obtain ⟨i, y⟩ := d
    obtain ⟨hy, hr, hm⟩ := (Memory.wf_cons i y m).1 h
    have hi : i ≠ a := ha (i, y) (.head _)
    unfold Memory.insert
    split
    · rename_i hlt
      refine (Memory.wf_cons _ _ _).2 ⟨hx, ?_, h⟩
      intro c hc
      rcases List.mem_cons.1 hc with rfl | hc
      · exact hlt
      · exact Nat.lt_trans hlt (hr c hc)
    · rename_i hge
      refine (Memory.wf_cons _ _ _).2 ⟨hy, ?_, ih hm (fun c hc => ha c (.tail _ hc))⟩
      intro c hc
      rcases Memory.mem_insert a x m c hc with rfl | hc
      · show i < a
        omega
      · exact hr c hc

/-- A write keeps the canonical form. -/
theorem Memory.wf_write (m : Memory) (a : Nat) (x : Byte) (h : Memory.wf m = true) : Memory.wf (Memory.write m a x) = true := by
  unfold Memory.write
  split
  · exact Memory.wf_erase a m h
  · rename_i hx
    exact Memory.wf_insert a x _ hx (Memory.wf_erase a m h) (Memory.ne_of_mem_erase a m h)

theorem Memory.wf_writeN (bs : List Byte) (m : Memory) (a : Nat) (h : Memory.wf m = true) :
    Memory.wf (Memory.writeN m a bs) = true := by
  induction bs generalizing m a with
  | nil => exact h
  | cons b bs ih => exact ih _ _ (Memory.wf_write m a b h)

/-- A part of a memory is in canonical form. -/
theorem Memory.wf_filter (p : Host.Cell → Bool) (m : Memory) (h : Memory.wf m = true) : Memory.wf (m.filter p) = true := by
  induction m with
  | nil => rfl
  | cons d m ih =>
    obtain ⟨i, x⟩ := d
    obtain ⟨hx, hr, hm⟩ := (Memory.wf_cons i x m).1 h
    rw [List.filter_cons]
    split
    · exact (Memory.wf_cons _ _ _).2 ⟨hx, fun c hc => hr c (List.mem_filter.1 hc).1, ih hm⟩
    · exact ih hm

theorem Memory.wf_clearRange (m : Memory) (lo n : Nat) (h : Memory.wf m = true) : Memory.wf (clearRange m lo n) = true :=
  Memory.wf_filter _ m h

/-- Writes at places computed from a list keep the canonical form. -/
theorem Memory.wf_foldl {α : Type} (f : Memory → α → Memory) (hf : ∀ m x, Memory.wf m = true → Memory.wf (f m x) = true)
    (xs : List α) (m : Memory) (h : Memory.wf m = true) : Memory.wf (xs.foldl f m) = true := by
  induction xs generalizing m with
  | nil => exact h
  | cons x xs ih => exact ih _ (hf m x h)

theorem Memory.wf_copyRange (m : Memory) (lo n dst : Nat) (into : Memory) (h : Memory.wf into = true) :
    Memory.wf (copyRange m lo n dst into) = true := by
  refine Memory.wf_foldl _ (fun acc c hacc => ?_) m into h
  split
  · exact Memory.wf_write _ _ _ hacc
  · exact hacc

theorem Memory.wf_writeByte (mem : Memory) (m : Mapping) (limit a : Nat) (v : Byte) (h : Memory.wf mem = true) :
    Memory.wf (writeByte mem m limit a v) = true := by
  unfold writeByte
  split
  · exact Memory.wf_write _ _ _ h
  · exact h

theorem Memory.wf_writeBytes (bs : List Byte) (mem : Memory) (m : Mapping) (limit : Nat) (a : Word)
    (h : Memory.wf mem = true) : Memory.wf (writeBytes mem m limit a bs) = true := by
  induction bs generalizing mem a with
  | nil => exact h
  | cons b bs ih => exact ih _ _ (Memory.wf_writeByte mem m limit _ b h)

/-! ### Reads after writes -/

theorem Memory.read_erase_other (a b : Nat) (m : Memory) (h : b ≠ a) :
    Memory.read (Memory.erase a m) b = Memory.read m b := by
  induction m with
  | nil => rfl
  | cons d m ih =>
    obtain ⟨i, x⟩ := d
    unfold Memory.erase
    split
    · rename_i hi
      have : i ≠ b := by omega
      simp [Memory.read, this]
    · simp only [Memory.read, ih]

/-- An address that is not listed reads as 0. -/
theorem Memory.read_unlisted (a : Nat) (m : Memory) (h : ∀ c ∈ m, c.1 ≠ a) : Memory.read m a = 0 := by
  induction m with
  | nil => rfl
  | cons d m ih =>
    obtain ⟨i, x⟩ := d
    have : i ≠ a := h (i, x) (.head _)
    simp only [Memory.read, if_neg this]
    exact ih (fun c hc => h c (.tail _ hc))

theorem Memory.read_insert_self (a : Nat) (x : Byte) (m : Memory) (h : ∀ c ∈ m, c.1 ≠ a) :
    Memory.read (Memory.insert a x m) a = x := by
  induction m with
  | nil => simp [Memory.insert, Memory.read]
  | cons d m ih =>
    obtain ⟨i, y⟩ := d
    have hi : i ≠ a := h (i, y) (.head _)
    unfold Memory.insert
    split
    · simp [Memory.read]
    · simp only [Memory.read, if_neg hi]
      exact ih (fun c hc => h c (.tail _ hc))

theorem Memory.read_insert_other (a b : Nat) (x : Byte) (m : Memory) (h : b ≠ a) :
    Memory.read (Memory.insert a x m) b = Memory.read m b := by
  induction m with
  | nil => simp [Memory.insert, Memory.read, h.symm]
  | cons d m ih =>
    obtain ⟨i, y⟩ := d
    unfold Memory.insert
    split
    · simp [Memory.read, h.symm]
    · simp only [Memory.read, ih]

/-- A read after a write to the same place gives the value written. -/
theorem Memory.read_write_self (m : Memory) (a : Nat) (x : Byte) (h : Memory.wf m = true) :
    Memory.read (Memory.write m a x) a = x := by
  unfold Memory.write
  split
  · rename_i hx
    rw [hx, Memory.read_unlisted a _ (Memory.ne_of_mem_erase a m h)]
  · exact Memory.read_insert_self a x _ (Memory.ne_of_mem_erase a m h)

/-- A write leaves every other place alone. -/
theorem Memory.read_write_other (m : Memory) (a b : Nat) (x : Byte) (h : b ≠ a) :
    Memory.read (Memory.write m a x) b = Memory.read m b := by
  unfold Memory.write
  split
  · exact Memory.read_erase_other a b m h
  · rw [Memory.read_insert_other a b x _ h, Memory.read_erase_other a b m h]

/-- Bytes written from an address upward read back, and leave every other place alone. -/
theorem Memory.read_writeN (bs : List Byte) (m : Memory) (a b : Nat) (h : Memory.wf m = true) :
    Memory.read (Memory.writeN m a bs) b
      = if a ≤ b ∧ b < a + bs.length then bs.getD (b - a) 0 else Memory.read m b := by
  induction bs generalizing m a with
  | nil =>
    have : ¬ (a ≤ b ∧ b < a + ([] : List Byte).length) := by simp
    rw [if_neg this]
    rfl
  | cons x xs ih =>
    show Memory.read (Memory.writeN (Memory.write m a x) (a + 1) xs) b = _
    rw [ih _ _ (Memory.wf_write m a x h)]
    by_cases hb : b = a
    · subst hb
      have h1 : ¬ (b + 1 ≤ b ∧ b < b + 1 + xs.length) := by omega
      have h2 : b ≤ b ∧ b < b + (x :: xs).length := by simp
      rw [if_neg h1, if_pos h2, Memory.read_write_self m b x h]
      simp
    · by_cases hr : a + 1 ≤ b ∧ b < a + 1 + xs.length
      · have h2 : a ≤ b ∧ b < a + (x :: xs).length := by simp; omega
        rw [if_pos hr, if_pos h2]
        have : b - a = (b - (a + 1)) + 1 := by omega
        rw [this]
        rfl
      · have h2 : ¬ (a ≤ b ∧ b < a + (x :: xs).length) := by simp; omega
        rw [if_neg hr, if_neg h2, Memory.read_write_other m a b x hb]

/-- Two memories in canonical form that read alike are the same list. -/
theorem Memory.ext_of_read (m n : Memory) (hm : Memory.wf m = true) (hn : Memory.wf n = true)
    (h : ∀ a, Memory.read m a = Memory.read n a) : m = n := by
  induction m generalizing n with
  | nil =>
    cases n with
    | nil => rfl
    | cons d n =>
      obtain ⟨j, y⟩ := d
      obtain ⟨hy, -, -⟩ := (Memory.wf_cons j y n).1 hn
      have := h j
      simp [Memory.read] at this
      exact absurd this.symm hy
  | cons c m ih =>
    obtain ⟨i, x⟩ := c
    obtain ⟨hx, hr, hm'⟩ := (Memory.wf_cons i x m).1 hm
    cases n with
    | nil =>
      have := h i
      simp [Memory.read] at this
      exact absurd this hx
    | cons d n =>
      obtain ⟨j, y⟩ := d
      obtain ⟨hy, hs, hn'⟩ := (Memory.wf_cons j y n).1 hn
      have hij : i = j := by
        rcases Nat.lt_trichotomy i j with hlt | heq | hgt
        · have h1 := h i
          have h2 : Memory.read ((j, y) :: n) i = 0 := Memory.read_unlisted i _ (fun c hc => by
            rcases List.mem_cons.1 hc with rfl | hc
            · show j ≠ i
              omega
            · have := hs c hc
              omega)
          simp only [Memory.read, if_true] at h1
          rw [← Memory.read] at h1
          exact absurd (h1.trans h2) hx
        · exact heq
        · have h1 := h j
          have h2 : Memory.read ((i, x) :: m) j = 0 := Memory.read_unlisted j _ (fun c hc => by
            rcases List.mem_cons.1 hc with rfl | hc
            · show i ≠ j
              omega
            · have := hr c hc
              omega)
          rw [h2] at h1
          simp only [Memory.read, if_true] at h1
          exact absurd h1.symm hy
      subst hij
      have hxy : x = y := by
        have := h i
        simpa [Memory.read] using this
      subst hxy
      congr 1
      refine ih n hm' hn' (fun a => ?_)
      by_cases ha : i = a
      · subst ha
        rw [Memory.read_unlisted i m (fun c hc => by have := hr c hc; omega),
          Memory.read_unlisted i n (fun c hc => by have := hs c hc; omega)]
      · have := h a
        simpa [Memory.read, ha] using this

end Sys2Proof.Machine
end

