-- ==== Sys2Proof/Laws/State.lean ====
section
/-! SUPPORT. What each update of the state leaves alone, field by field, and what it sets. -/

namespace Sys2Proof.Machine

/-! ### setTile -/

@[simp] theorem State.setTile_gtc (s : State) (t : Nat) (x : Tile) : (s.setTile t x).gtc = s.gtc := rfl
@[simp] theorem State.setTile_turn (s : State) (t : Nat) (x : Tile) : (s.setTile t x).turn = s.turn := rfl
@[simp] theorem State.setTile_admitted (s : State) (t : Nat) (x : Tile) : (s.setTile t x).admitted = s.admitted := rfl
@[simp] theorem State.setTile_agenda (s : State) (t : Nat) (x : Tile) : (s.setTile t x).agenda = s.agenda := rfl
@[simp] theorem State.setTile_cur (s : State) (t : Nat) (x : Tile) : (s.setTile t x).cur = s.cur := rfl
@[simp] theorem State.setTile_drawn (s : State) (t : Nat) (x : Tile) : (s.setTile t x).drawn = s.drawn := rfl
@[simp] theorem State.setTile_nextId (s : State) (t : Nat) (x : Tile) : (s.setTile t x).nextId = s.nextId := rfl
@[simp] theorem State.setTile_node (s : State) (t : Nat) (x : Tile) : (s.setTile t x).node = s.node := rfl
@[simp] theorem State.setTile_hbm (s : State) (t : Nat) (x : Tile) : (s.setTile t x).hbm = s.hbm := rfl
@[simp] theorem State.setTile_lpddr (s : State) (t : Nat) (x : Tile) : (s.setTile t x).lpddr = s.lpddr := rfl
@[simp] theorem State.setTile_code (s : State) (t : Nat) (x : Tile) : (s.setTile t x).code = s.code := rfl
@[simp] theorem State.setTile_procs (s : State) (t : Nat) (x : Tile) : (s.setTile t x).procs = s.procs := rfl
@[simp] theorem State.setTile_bad (s : State) (t : Nat) (x : Tile) : (s.setTile t x).bad = s.bad := rfl
@[simp] theorem State.setTile_flights (s : State) (t : Nat) (x : Tile) : (s.setTile t x).flights = s.flights := rfl
@[simp] theorem State.setTile_marks (s : State) (t : Nat) (x : Tile) : (s.setTile t x).marks = s.marks := rfl
@[simp] theorem State.setTile_mcasts (s : State) (t : Nat) (x : Tile) : (s.setTile t x).mcasts = s.mcasts := rfl
@[simp] theorem State.setTile_watches (s : State) (t : Nat) (x : Tile) : (s.setTile t x).watches = s.watches := rfl
@[simp] theorem State.setTile_barriers (s : State) (t : Nat) (x : Tile) : (s.setTile t x).barriers = s.barriers := rfl
@[simp] theorem State.setTile_pulses (s : State) (t : Nat) (x : Tile) : (s.setTile t x).pulses = s.pulses := rfl
@[simp] theorem State.setTile_scans (s : State) (t : Nat) (x : Tile) : (s.setTile t x).scans = s.scans := rfl
@[simp] theorem State.setTile_groups (s : State) (t : Nat) (x : Tile) : (s.setTile t x).groups = s.groups := rfl
@[simp] theorem State.setTile_tongs (s : State) (t : Nat) (x : Tile) : (s.setTile t x).tongs = s.tongs := rfl
@[simp] theorem State.setTile_records (s : State) (t : Nat) (x : Tile) : (s.setTile t x).records = s.records := rfl
@[simp] theorem State.setTile_relayed (s : State) (t : Nat) (x : Tile) : (s.setTile t x).relayed = s.relayed := rfl
@[simp] theorem State.setTile_queues (s : State) (t : Nat) (x : Tile) : (s.setTile t x).queues = s.queues := rfl
@[simp] theorem State.setTile_rotation (s : State) (t : Nat) (x : Tile) : (s.setTile t x).rotation = s.rotation := rfl
@[simp] theorem State.setTile_nextSeq (s : State) (t : Nat) (x : Tile) : (s.setTile t x).nextSeq = s.nextSeq := rfl
@[simp] theorem State.setTile_mmp (s : State) (t : Nat) (x : Tile) : (s.setTile t x).mmp = s.mmp := rfl
@[simp] theorem State.setTile_platform (s : State) (t : Nat) (x : Tile) : (s.setTile t x).platform = s.platform := rfl
@[simp] theorem State.setTile_out (s : State) (t : Nat) (x : Tile) : (s.setTile t x).out = s.out := rfl
@[simp] theorem State.setTile_outAt (s : State) (t : Nat) (x : Tile) : (s.setTile t x).outAt = s.outAt := rfl
@[simp] theorem State.setTile_linkHeld (s : State) (t : Nat) (x : Tile) : (s.setTile t x).linkHeld = s.linkHeld := rfl

/-! ### modTile -/

@[simp] theorem State.modTile_gtc (s : State) (t : Nat) (f : Tile → Tile) : (s.modTile t f).gtc = s.gtc := rfl
@[simp] theorem State.modTile_turn (s : State) (t : Nat) (f : Tile → Tile) : (s.modTile t f).turn = s.turn := rfl
@[simp] theorem State.modTile_admitted (s : State) (t : Nat) (f : Tile → Tile) : (s.modTile t f).admitted = s.admitted := rfl
@[simp] theorem State.modTile_agenda (s : State) (t : Nat) (f : Tile → Tile) : (s.modTile t f).agenda = s.agenda := rfl
@[simp] theorem State.modTile_cur (s : State) (t : Nat) (f : Tile → Tile) : (s.modTile t f).cur = s.cur := rfl
@[simp] theorem State.modTile_drawn (s : State) (t : Nat) (f : Tile → Tile) : (s.modTile t f).drawn = s.drawn := rfl
@[simp] theorem State.modTile_nextId (s : State) (t : Nat) (f : Tile → Tile) : (s.modTile t f).nextId = s.nextId := rfl
@[simp] theorem State.modTile_node (s : State) (t : Nat) (f : Tile → Tile) : (s.modTile t f).node = s.node := rfl
@[simp] theorem State.modTile_hbm (s : State) (t : Nat) (f : Tile → Tile) : (s.modTile t f).hbm = s.hbm := rfl
@[simp] theorem State.modTile_lpddr (s : State) (t : Nat) (f : Tile → Tile) : (s.modTile t f).lpddr = s.lpddr := rfl
@[simp] theorem State.modTile_code (s : State) (t : Nat) (f : Tile → Tile) : (s.modTile t f).code = s.code := rfl
@[simp] theorem State.modTile_procs (s : State) (t : Nat) (f : Tile → Tile) : (s.modTile t f).procs = s.procs := rfl
@[simp] theorem State.modTile_bad (s : State) (t : Nat) (f : Tile → Tile) : (s.modTile t f).bad = s.bad := rfl
@[simp] theorem State.modTile_flights (s : State) (t : Nat) (f : Tile → Tile) : (s.modTile t f).flights = s.flights := rfl
@[simp] theorem State.modTile_marks (s : State) (t : Nat) (f : Tile → Tile) : (s.modTile t f).marks = s.marks := rfl
@[simp] theorem State.modTile_mcasts (s : State) (t : Nat) (f : Tile → Tile) : (s.modTile t f).mcasts = s.mcasts := rfl
@[simp] theorem State.modTile_watches (s : State) (t : Nat) (f : Tile → Tile) : (s.modTile t f).watches = s.watches := rfl
@[simp] theorem State.modTile_barriers (s : State) (t : Nat) (f : Tile → Tile) : (s.modTile t f).barriers = s.barriers := rfl
@[simp] theorem State.modTile_pulses (s : State) (t : Nat) (f : Tile → Tile) : (s.modTile t f).pulses = s.pulses := rfl
@[simp] theorem State.modTile_scans (s : State) (t : Nat) (f : Tile → Tile) : (s.modTile t f).scans = s.scans := rfl
@[simp] theorem State.modTile_groups (s : State) (t : Nat) (f : Tile → Tile) : (s.modTile t f).groups = s.groups := rfl
@[simp] theorem State.modTile_tongs (s : State) (t : Nat) (f : Tile → Tile) : (s.modTile t f).tongs = s.tongs := rfl
@[simp] theorem State.modTile_records (s : State) (t : Nat) (f : Tile → Tile) : (s.modTile t f).records = s.records := rfl
@[simp] theorem State.modTile_relayed (s : State) (t : Nat) (f : Tile → Tile) : (s.modTile t f).relayed = s.relayed := rfl
@[simp] theorem State.modTile_queues (s : State) (t : Nat) (f : Tile → Tile) : (s.modTile t f).queues = s.queues := rfl
@[simp] theorem State.modTile_rotation (s : State) (t : Nat) (f : Tile → Tile) : (s.modTile t f).rotation = s.rotation := rfl
@[simp] theorem State.modTile_nextSeq (s : State) (t : Nat) (f : Tile → Tile) : (s.modTile t f).nextSeq = s.nextSeq := rfl
@[simp] theorem State.modTile_mmp (s : State) (t : Nat) (f : Tile → Tile) : (s.modTile t f).mmp = s.mmp := rfl
@[simp] theorem State.modTile_platform (s : State) (t : Nat) (f : Tile → Tile) : (s.modTile t f).platform = s.platform := rfl
@[simp] theorem State.modTile_out (s : State) (t : Nat) (f : Tile → Tile) : (s.modTile t f).out = s.out := rfl
@[simp] theorem State.modTile_outAt (s : State) (t : Nat) (f : Tile → Tile) : (s.modTile t f).outAt = s.outAt := rfl
@[simp] theorem State.modTile_linkHeld (s : State) (t : Nat) (f : Tile → Tile) : (s.modTile t f).linkHeld = s.linkHeld := rfl

/-! ### setCtx -/

@[simp] theorem State.setCtx_gtc (s : State) (t : Nat) (k : SlotNo) (b : Bank) (c : Context) : (s.setCtx t k b c).gtc = s.gtc := rfl
@[simp] theorem State.setCtx_turn (s : State) (t : Nat) (k : SlotNo) (b : Bank) (c : Context) : (s.setCtx t k b c).turn = s.turn := rfl
@[simp] theorem State.setCtx_admitted (s : State) (t : Nat) (k : SlotNo) (b : Bank) (c : Context) : (s.setCtx t k b c).admitted = s.admitted := rfl
@[simp] theorem State.setCtx_agenda (s : State) (t : Nat) (k : SlotNo) (b : Bank) (c : Context) : (s.setCtx t k b c).agenda = s.agenda := rfl
@[simp] theorem State.setCtx_cur (s : State) (t : Nat) (k : SlotNo) (b : Bank) (c : Context) : (s.setCtx t k b c).cur = s.cur := rfl
@[simp] theorem State.setCtx_drawn (s : State) (t : Nat) (k : SlotNo) (b : Bank) (c : Context) : (s.setCtx t k b c).drawn = s.drawn := rfl
@[simp] theorem State.setCtx_nextId (s : State) (t : Nat) (k : SlotNo) (b : Bank) (c : Context) : (s.setCtx t k b c).nextId = s.nextId := rfl
@[simp] theorem State.setCtx_node (s : State) (t : Nat) (k : SlotNo) (b : Bank) (c : Context) : (s.setCtx t k b c).node = s.node := rfl
@[simp] theorem State.setCtx_hbm (s : State) (t : Nat) (k : SlotNo) (b : Bank) (c : Context) : (s.setCtx t k b c).hbm = s.hbm := rfl
@[simp] theorem State.setCtx_lpddr (s : State) (t : Nat) (k : SlotNo) (b : Bank) (c : Context) : (s.setCtx t k b c).lpddr = s.lpddr := rfl
@[simp] theorem State.setCtx_code (s : State) (t : Nat) (k : SlotNo) (b : Bank) (c : Context) : (s.setCtx t k b c).code = s.code := rfl
@[simp] theorem State.setCtx_procs (s : State) (t : Nat) (k : SlotNo) (b : Bank) (c : Context) : (s.setCtx t k b c).procs = s.procs := rfl
@[simp] theorem State.setCtx_bad (s : State) (t : Nat) (k : SlotNo) (b : Bank) (c : Context) : (s.setCtx t k b c).bad = s.bad := rfl
@[simp] theorem State.setCtx_flights (s : State) (t : Nat) (k : SlotNo) (b : Bank) (c : Context) : (s.setCtx t k b c).flights = s.flights := rfl
@[simp] theorem State.setCtx_marks (s : State) (t : Nat) (k : SlotNo) (b : Bank) (c : Context) : (s.setCtx t k b c).marks = s.marks := rfl
@[simp] theorem State.setCtx_mcasts (s : State) (t : Nat) (k : SlotNo) (b : Bank) (c : Context) : (s.setCtx t k b c).mcasts = s.mcasts := rfl
@[simp] theorem State.setCtx_watches (s : State) (t : Nat) (k : SlotNo) (b : Bank) (c : Context) : (s.setCtx t k b c).watches = s.watches := rfl
@[simp] theorem State.setCtx_barriers (s : State) (t : Nat) (k : SlotNo) (b : Bank) (c : Context) : (s.setCtx t k b c).barriers = s.barriers := rfl
@[simp] theorem State.setCtx_pulses (s : State) (t : Nat) (k : SlotNo) (b : Bank) (c : Context) : (s.setCtx t k b c).pulses = s.pulses := rfl
@[simp] theorem State.setCtx_scans (s : State) (t : Nat) (k : SlotNo) (b : Bank) (c : Context) : (s.setCtx t k b c).scans = s.scans := rfl
@[simp] theorem State.setCtx_groups (s : State) (t : Nat) (k : SlotNo) (b : Bank) (c : Context) : (s.setCtx t k b c).groups = s.groups := rfl
@[simp] theorem State.setCtx_tongs (s : State) (t : Nat) (k : SlotNo) (b : Bank) (c : Context) : (s.setCtx t k b c).tongs = s.tongs := rfl
@[simp] theorem State.setCtx_records (s : State) (t : Nat) (k : SlotNo) (b : Bank) (c : Context) : (s.setCtx t k b c).records = s.records := rfl
@[simp] theorem State.setCtx_relayed (s : State) (t : Nat) (k : SlotNo) (b : Bank) (c : Context) : (s.setCtx t k b c).relayed = s.relayed := rfl
@[simp] theorem State.setCtx_queues (s : State) (t : Nat) (k : SlotNo) (b : Bank) (c : Context) : (s.setCtx t k b c).queues = s.queues := rfl
@[simp] theorem State.setCtx_rotation (s : State) (t : Nat) (k : SlotNo) (b : Bank) (c : Context) : (s.setCtx t k b c).rotation = s.rotation := rfl
@[simp] theorem State.setCtx_nextSeq (s : State) (t : Nat) (k : SlotNo) (b : Bank) (c : Context) : (s.setCtx t k b c).nextSeq = s.nextSeq := rfl
@[simp] theorem State.setCtx_mmp (s : State) (t : Nat) (k : SlotNo) (b : Bank) (c : Context) : (s.setCtx t k b c).mmp = s.mmp := rfl
@[simp] theorem State.setCtx_platform (s : State) (t : Nat) (k : SlotNo) (b : Bank) (c : Context) : (s.setCtx t k b c).platform = s.platform := rfl
@[simp] theorem State.setCtx_out (s : State) (t : Nat) (k : SlotNo) (b : Bank) (c : Context) : (s.setCtx t k b c).out = s.out := rfl
@[simp] theorem State.setCtx_outAt (s : State) (t : Nat) (k : SlotNo) (b : Bank) (c : Context) : (s.setCtx t k b c).outAt = s.outAt := rfl
@[simp] theorem State.setCtx_linkHeld (s : State) (t : Nat) (k : SlotNo) (b : Bank) (c : Context) : (s.setCtx t k b c).linkHeld = s.linkHeld := rfl

/-! ### modCtx -/

@[simp] theorem State.modCtx_gtc (s : State) (t : Nat) (k : SlotNo) (b : Bank) (f : Context → Context) : (s.modCtx t k b f).gtc = s.gtc := rfl
@[simp] theorem State.modCtx_turn (s : State) (t : Nat) (k : SlotNo) (b : Bank) (f : Context → Context) : (s.modCtx t k b f).turn = s.turn := rfl
@[simp] theorem State.modCtx_admitted (s : State) (t : Nat) (k : SlotNo) (b : Bank) (f : Context → Context) : (s.modCtx t k b f).admitted = s.admitted := rfl
@[simp] theorem State.modCtx_agenda (s : State) (t : Nat) (k : SlotNo) (b : Bank) (f : Context → Context) : (s.modCtx t k b f).agenda = s.agenda := rfl
@[simp] theorem State.modCtx_cur (s : State) (t : Nat) (k : SlotNo) (b : Bank) (f : Context → Context) : (s.modCtx t k b f).cur = s.cur := rfl
@[simp] theorem State.modCtx_drawn (s : State) (t : Nat) (k : SlotNo) (b : Bank) (f : Context → Context) : (s.modCtx t k b f).drawn = s.drawn := rfl
@[simp] theorem State.modCtx_nextId (s : State) (t : Nat) (k : SlotNo) (b : Bank) (f : Context → Context) : (s.modCtx t k b f).nextId = s.nextId := rfl
@[simp] theorem State.modCtx_node (s : State) (t : Nat) (k : SlotNo) (b : Bank) (f : Context → Context) : (s.modCtx t k b f).node = s.node := rfl
@[simp] theorem State.modCtx_hbm (s : State) (t : Nat) (k : SlotNo) (b : Bank) (f : Context → Context) : (s.modCtx t k b f).hbm = s.hbm := rfl
@[simp] theorem State.modCtx_lpddr (s : State) (t : Nat) (k : SlotNo) (b : Bank) (f : Context → Context) : (s.modCtx t k b f).lpddr = s.lpddr := rfl
@[simp] theorem State.modCtx_code (s : State) (t : Nat) (k : SlotNo) (b : Bank) (f : Context → Context) : (s.modCtx t k b f).code = s.code := rfl
@[simp] theorem State.modCtx_procs (s : State) (t : Nat) (k : SlotNo) (b : Bank) (f : Context → Context) : (s.modCtx t k b f).procs = s.procs := rfl
@[simp] theorem State.modCtx_bad (s : State) (t : Nat) (k : SlotNo) (b : Bank) (f : Context → Context) : (s.modCtx t k b f).bad = s.bad := rfl
@[simp] theorem State.modCtx_flights (s : State) (t : Nat) (k : SlotNo) (b : Bank) (f : Context → Context) : (s.modCtx t k b f).flights = s.flights := rfl
@[simp] theorem State.modCtx_marks (s : State) (t : Nat) (k : SlotNo) (b : Bank) (f : Context → Context) : (s.modCtx t k b f).marks = s.marks := rfl
@[simp] theorem State.modCtx_mcasts (s : State) (t : Nat) (k : SlotNo) (b : Bank) (f : Context → Context) : (s.modCtx t k b f).mcasts = s.mcasts := rfl
@[simp] theorem State.modCtx_watches (s : State) (t : Nat) (k : SlotNo) (b : Bank) (f : Context → Context) : (s.modCtx t k b f).watches = s.watches := rfl
@[simp] theorem State.modCtx_barriers (s : State) (t : Nat) (k : SlotNo) (b : Bank) (f : Context → Context) : (s.modCtx t k b f).barriers = s.barriers := rfl
@[simp] theorem State.modCtx_pulses (s : State) (t : Nat) (k : SlotNo) (b : Bank) (f : Context → Context) : (s.modCtx t k b f).pulses = s.pulses := rfl
@[simp] theorem State.modCtx_scans (s : State) (t : Nat) (k : SlotNo) (b : Bank) (f : Context → Context) : (s.modCtx t k b f).scans = s.scans := rfl
@[simp] theorem State.modCtx_groups (s : State) (t : Nat) (k : SlotNo) (b : Bank) (f : Context → Context) : (s.modCtx t k b f).groups = s.groups := rfl
@[simp] theorem State.modCtx_tongs (s : State) (t : Nat) (k : SlotNo) (b : Bank) (f : Context → Context) : (s.modCtx t k b f).tongs = s.tongs := rfl
@[simp] theorem State.modCtx_records (s : State) (t : Nat) (k : SlotNo) (b : Bank) (f : Context → Context) : (s.modCtx t k b f).records = s.records := rfl
@[simp] theorem State.modCtx_relayed (s : State) (t : Nat) (k : SlotNo) (b : Bank) (f : Context → Context) : (s.modCtx t k b f).relayed = s.relayed := rfl
@[simp] theorem State.modCtx_queues (s : State) (t : Nat) (k : SlotNo) (b : Bank) (f : Context → Context) : (s.modCtx t k b f).queues = s.queues := rfl
@[simp] theorem State.modCtx_rotation (s : State) (t : Nat) (k : SlotNo) (b : Bank) (f : Context → Context) : (s.modCtx t k b f).rotation = s.rotation := rfl
@[simp] theorem State.modCtx_nextSeq (s : State) (t : Nat) (k : SlotNo) (b : Bank) (f : Context → Context) : (s.modCtx t k b f).nextSeq = s.nextSeq := rfl
@[simp] theorem State.modCtx_mmp (s : State) (t : Nat) (k : SlotNo) (b : Bank) (f : Context → Context) : (s.modCtx t k b f).mmp = s.mmp := rfl
@[simp] theorem State.modCtx_platform (s : State) (t : Nat) (k : SlotNo) (b : Bank) (f : Context → Context) : (s.modCtx t k b f).platform = s.platform := rfl
@[simp] theorem State.modCtx_out (s : State) (t : Nat) (k : SlotNo) (b : Bank) (f : Context → Context) : (s.modCtx t k b f).out = s.out := rfl
@[simp] theorem State.modCtx_outAt (s : State) (t : Nat) (k : SlotNo) (b : Bank) (f : Context → Context) : (s.modCtx t k b f).outAt = s.outAt := rfl
@[simp] theorem State.modCtx_linkHeld (s : State) (t : Nat) (k : SlotNo) (b : Bank) (f : Context → Context) : (s.modCtx t k b f).linkHeld = s.linkHeld := rfl

/-! ### setMe -/

@[simp] theorem State.setMe_gtc (s : State) (c : Context) : (s.setMe c).gtc = s.gtc := rfl
@[simp] theorem State.setMe_turn (s : State) (c : Context) : (s.setMe c).turn = s.turn := rfl
@[simp] theorem State.setMe_admitted (s : State) (c : Context) : (s.setMe c).admitted = s.admitted := rfl
@[simp] theorem State.setMe_agenda (s : State) (c : Context) : (s.setMe c).agenda = s.agenda := rfl
@[simp] theorem State.setMe_cur (s : State) (c : Context) : (s.setMe c).cur = s.cur := rfl
@[simp] theorem State.setMe_drawn (s : State) (c : Context) : (s.setMe c).drawn = s.drawn := rfl
@[simp] theorem State.setMe_nextId (s : State) (c : Context) : (s.setMe c).nextId = s.nextId := rfl
@[simp] theorem State.setMe_node (s : State) (c : Context) : (s.setMe c).node = s.node := rfl
@[simp] theorem State.setMe_hbm (s : State) (c : Context) : (s.setMe c).hbm = s.hbm := rfl
@[simp] theorem State.setMe_lpddr (s : State) (c : Context) : (s.setMe c).lpddr = s.lpddr := rfl
@[simp] theorem State.setMe_code (s : State) (c : Context) : (s.setMe c).code = s.code := rfl
@[simp] theorem State.setMe_procs (s : State) (c : Context) : (s.setMe c).procs = s.procs := rfl
@[simp] theorem State.setMe_bad (s : State) (c : Context) : (s.setMe c).bad = s.bad := rfl
@[simp] theorem State.setMe_flights (s : State) (c : Context) : (s.setMe c).flights = s.flights := rfl
@[simp] theorem State.setMe_marks (s : State) (c : Context) : (s.setMe c).marks = s.marks := rfl
@[simp] theorem State.setMe_mcasts (s : State) (c : Context) : (s.setMe c).mcasts = s.mcasts := rfl
@[simp] theorem State.setMe_watches (s : State) (c : Context) : (s.setMe c).watches = s.watches := rfl
@[simp] theorem State.setMe_barriers (s : State) (c : Context) : (s.setMe c).barriers = s.barriers := rfl
@[simp] theorem State.setMe_pulses (s : State) (c : Context) : (s.setMe c).pulses = s.pulses := rfl
@[simp] theorem State.setMe_scans (s : State) (c : Context) : (s.setMe c).scans = s.scans := rfl
@[simp] theorem State.setMe_groups (s : State) (c : Context) : (s.setMe c).groups = s.groups := rfl
@[simp] theorem State.setMe_tongs (s : State) (c : Context) : (s.setMe c).tongs = s.tongs := rfl
@[simp] theorem State.setMe_records (s : State) (c : Context) : (s.setMe c).records = s.records := rfl
@[simp] theorem State.setMe_relayed (s : State) (c : Context) : (s.setMe c).relayed = s.relayed := rfl
@[simp] theorem State.setMe_queues (s : State) (c : Context) : (s.setMe c).queues = s.queues := rfl
@[simp] theorem State.setMe_rotation (s : State) (c : Context) : (s.setMe c).rotation = s.rotation := rfl
@[simp] theorem State.setMe_nextSeq (s : State) (c : Context) : (s.setMe c).nextSeq = s.nextSeq := rfl
@[simp] theorem State.setMe_mmp (s : State) (c : Context) : (s.setMe c).mmp = s.mmp := rfl
@[simp] theorem State.setMe_platform (s : State) (c : Context) : (s.setMe c).platform = s.platform := rfl
@[simp] theorem State.setMe_out (s : State) (c : Context) : (s.setMe c).out = s.out := rfl
@[simp] theorem State.setMe_outAt (s : State) (c : Context) : (s.setMe c).outAt = s.outAt := rfl
@[simp] theorem State.setMe_linkHeld (s : State) (c : Context) : (s.setMe c).linkHeld = s.linkHeld := rfl

/-! ### modMe -/

@[simp] theorem State.modMe_gtc (s : State) (f : Context → Context) : (s.modMe f).gtc = s.gtc := rfl
@[simp] theorem State.modMe_turn (s : State) (f : Context → Context) : (s.modMe f).turn = s.turn := rfl
@[simp] theorem State.modMe_admitted (s : State) (f : Context → Context) : (s.modMe f).admitted = s.admitted := rfl
@[simp] theorem State.modMe_agenda (s : State) (f : Context → Context) : (s.modMe f).agenda = s.agenda := rfl
@[simp] theorem State.modMe_cur (s : State) (f : Context → Context) : (s.modMe f).cur = s.cur := rfl
@[simp] theorem State.modMe_drawn (s : State) (f : Context → Context) : (s.modMe f).drawn = s.drawn := rfl
@[simp] theorem State.modMe_nextId (s : State) (f : Context → Context) : (s.modMe f).nextId = s.nextId := rfl
@[simp] theorem State.modMe_node (s : State) (f : Context → Context) : (s.modMe f).node = s.node := rfl
@[simp] theorem State.modMe_hbm (s : State) (f : Context → Context) : (s.modMe f).hbm = s.hbm := rfl
@[simp] theorem State.modMe_lpddr (s : State) (f : Context → Context) : (s.modMe f).lpddr = s.lpddr := rfl
@[simp] theorem State.modMe_code (s : State) (f : Context → Context) : (s.modMe f).code = s.code := rfl
@[simp] theorem State.modMe_procs (s : State) (f : Context → Context) : (s.modMe f).procs = s.procs := rfl
@[simp] theorem State.modMe_bad (s : State) (f : Context → Context) : (s.modMe f).bad = s.bad := rfl
@[simp] theorem State.modMe_flights (s : State) (f : Context → Context) : (s.modMe f).flights = s.flights := rfl
@[simp] theorem State.modMe_marks (s : State) (f : Context → Context) : (s.modMe f).marks = s.marks := rfl
@[simp] theorem State.modMe_mcasts (s : State) (f : Context → Context) : (s.modMe f).mcasts = s.mcasts := rfl
@[simp] theorem State.modMe_watches (s : State) (f : Context → Context) : (s.modMe f).watches = s.watches := rfl
@[simp] theorem State.modMe_barriers (s : State) (f : Context → Context) : (s.modMe f).barriers = s.barriers := rfl
@[simp] theorem State.modMe_pulses (s : State) (f : Context → Context) : (s.modMe f).pulses = s.pulses := rfl
@[simp] theorem State.modMe_scans (s : State) (f : Context → Context) : (s.modMe f).scans = s.scans := rfl
@[simp] theorem State.modMe_groups (s : State) (f : Context → Context) : (s.modMe f).groups = s.groups := rfl
@[simp] theorem State.modMe_tongs (s : State) (f : Context → Context) : (s.modMe f).tongs = s.tongs := rfl
@[simp] theorem State.modMe_records (s : State) (f : Context → Context) : (s.modMe f).records = s.records := rfl
@[simp] theorem State.modMe_relayed (s : State) (f : Context → Context) : (s.modMe f).relayed = s.relayed := rfl
@[simp] theorem State.modMe_queues (s : State) (f : Context → Context) : (s.modMe f).queues = s.queues := rfl
@[simp] theorem State.modMe_rotation (s : State) (f : Context → Context) : (s.modMe f).rotation = s.rotation := rfl
@[simp] theorem State.modMe_nextSeq (s : State) (f : Context → Context) : (s.modMe f).nextSeq = s.nextSeq := rfl
@[simp] theorem State.modMe_mmp (s : State) (f : Context → Context) : (s.modMe f).mmp = s.mmp := rfl
@[simp] theorem State.modMe_platform (s : State) (f : Context → Context) : (s.modMe f).platform = s.platform := rfl
@[simp] theorem State.modMe_out (s : State) (f : Context → Context) : (s.modMe f).out = s.out := rfl
@[simp] theorem State.modMe_outAt (s : State) (f : Context → Context) : (s.modMe f).outAt = s.outAt := rfl
@[simp] theorem State.modMe_linkHeld (s : State) (f : Context → Context) : (s.modMe f).linkHeld = s.linkHeld := rfl

/-! ### modHere -/

@[simp] theorem State.modHere_gtc (s : State) (f : Tile → Tile) : (s.modHere f).gtc = s.gtc := rfl
@[simp] theorem State.modHere_turn (s : State) (f : Tile → Tile) : (s.modHere f).turn = s.turn := rfl
@[simp] theorem State.modHere_admitted (s : State) (f : Tile → Tile) : (s.modHere f).admitted = s.admitted := rfl
@[simp] theorem State.modHere_agenda (s : State) (f : Tile → Tile) : (s.modHere f).agenda = s.agenda := rfl
@[simp] theorem State.modHere_cur (s : State) (f : Tile → Tile) : (s.modHere f).cur = s.cur := rfl
@[simp] theorem State.modHere_drawn (s : State) (f : Tile → Tile) : (s.modHere f).drawn = s.drawn := rfl
@[simp] theorem State.modHere_nextId (s : State) (f : Tile → Tile) : (s.modHere f).nextId = s.nextId := rfl
@[simp] theorem State.modHere_node (s : State) (f : Tile → Tile) : (s.modHere f).node = s.node := rfl
@[simp] theorem State.modHere_hbm (s : State) (f : Tile → Tile) : (s.modHere f).hbm = s.hbm := rfl
@[simp] theorem State.modHere_lpddr (s : State) (f : Tile → Tile) : (s.modHere f).lpddr = s.lpddr := rfl
@[simp] theorem State.modHere_code (s : State) (f : Tile → Tile) : (s.modHere f).code = s.code := rfl
@[simp] theorem State.modHere_procs (s : State) (f : Tile → Tile) : (s.modHere f).procs = s.procs := rfl
@[simp] theorem State.modHere_bad (s : State) (f : Tile → Tile) : (s.modHere f).bad = s.bad := rfl
@[simp] theorem State.modHere_flights (s : State) (f : Tile → Tile) : (s.modHere f).flights = s.flights := rfl
@[simp] theorem State.modHere_marks (s : State) (f : Tile → Tile) : (s.modHere f).marks = s.marks := rfl
@[simp] theorem State.modHere_mcasts (s : State) (f : Tile → Tile) : (s.modHere f).mcasts = s.mcasts := rfl
@[simp] theorem State.modHere_watches (s : State) (f : Tile → Tile) : (s.modHere f).watches = s.watches := rfl
@[simp] theorem State.modHere_barriers (s : State) (f : Tile → Tile) : (s.modHere f).barriers = s.barriers := rfl
@[simp] theorem State.modHere_pulses (s : State) (f : Tile → Tile) : (s.modHere f).pulses = s.pulses := rfl
@[simp] theorem State.modHere_scans (s : State) (f : Tile → Tile) : (s.modHere f).scans = s.scans := rfl
@[simp] theorem State.modHere_groups (s : State) (f : Tile → Tile) : (s.modHere f).groups = s.groups := rfl
@[simp] theorem State.modHere_tongs (s : State) (f : Tile → Tile) : (s.modHere f).tongs = s.tongs := rfl
@[simp] theorem State.modHere_records (s : State) (f : Tile → Tile) : (s.modHere f).records = s.records := rfl
@[simp] theorem State.modHere_relayed (s : State) (f : Tile → Tile) : (s.modHere f).relayed = s.relayed := rfl
@[simp] theorem State.modHere_queues (s : State) (f : Tile → Tile) : (s.modHere f).queues = s.queues := rfl
@[simp] theorem State.modHere_rotation (s : State) (f : Tile → Tile) : (s.modHere f).rotation = s.rotation := rfl
@[simp] theorem State.modHere_nextSeq (s : State) (f : Tile → Tile) : (s.modHere f).nextSeq = s.nextSeq := rfl
@[simp] theorem State.modHere_mmp (s : State) (f : Tile → Tile) : (s.modHere f).mmp = s.mmp := rfl
@[simp] theorem State.modHere_platform (s : State) (f : Tile → Tile) : (s.modHere f).platform = s.platform := rfl
@[simp] theorem State.modHere_out (s : State) (f : Tile → Tile) : (s.modHere f).out = s.out := rfl
@[simp] theorem State.modHere_outAt (s : State) (f : Tile → Tile) : (s.modHere f).outAt = s.outAt := rfl
@[simp] theorem State.modHere_linkHeld (s : State) (f : Tile → Tile) : (s.modHere f).linkHeld = s.linkHeld := rfl

/-! ### atPos -/

@[simp] theorem State.atPos_gtc (s : State) (p : Pos) : (s.atPos p).gtc = s.gtc := rfl
@[simp] theorem State.atPos_turn (s : State) (p : Pos) : (s.atPos p).turn = s.turn := rfl
@[simp] theorem State.atPos_admitted (s : State) (p : Pos) : (s.atPos p).admitted = s.admitted := rfl
@[simp] theorem State.atPos_agenda (s : State) (p : Pos) : (s.atPos p).agenda = s.agenda := rfl
@[simp] theorem State.atPos_drawn (s : State) (p : Pos) : (s.atPos p).drawn = s.drawn := rfl
@[simp] theorem State.atPos_nextId (s : State) (p : Pos) : (s.atPos p).nextId = s.nextId := rfl
@[simp] theorem State.atPos_node (s : State) (p : Pos) : (s.atPos p).node = s.node := rfl
@[simp] theorem State.atPos_tiles (s : State) (p : Pos) : (s.atPos p).tiles = s.tiles := rfl
@[simp] theorem State.atPos_hbm (s : State) (p : Pos) : (s.atPos p).hbm = s.hbm := rfl
@[simp] theorem State.atPos_lpddr (s : State) (p : Pos) : (s.atPos p).lpddr = s.lpddr := rfl
@[simp] theorem State.atPos_code (s : State) (p : Pos) : (s.atPos p).code = s.code := rfl
@[simp] theorem State.atPos_procs (s : State) (p : Pos) : (s.atPos p).procs = s.procs := rfl
@[simp] theorem State.atPos_bad (s : State) (p : Pos) : (s.atPos p).bad = s.bad := rfl
@[simp] theorem State.atPos_flights (s : State) (p : Pos) : (s.atPos p).flights = s.flights := rfl
@[simp] theorem State.atPos_marks (s : State) (p : Pos) : (s.atPos p).marks = s.marks := rfl
@[simp] theorem State.atPos_mcasts (s : State) (p : Pos) : (s.atPos p).mcasts = s.mcasts := rfl
@[simp] theorem State.atPos_watches (s : State) (p : Pos) : (s.atPos p).watches = s.watches := rfl
@[simp] theorem State.atPos_barriers (s : State) (p : Pos) : (s.atPos p).barriers = s.barriers := rfl
@[simp] theorem State.atPos_pulses (s : State) (p : Pos) : (s.atPos p).pulses = s.pulses := rfl
@[simp] theorem State.atPos_scans (s : State) (p : Pos) : (s.atPos p).scans = s.scans := rfl
@[simp] theorem State.atPos_groups (s : State) (p : Pos) : (s.atPos p).groups = s.groups := rfl
@[simp] theorem State.atPos_tongs (s : State) (p : Pos) : (s.atPos p).tongs = s.tongs := rfl
@[simp] theorem State.atPos_records (s : State) (p : Pos) : (s.atPos p).records = s.records := rfl
@[simp] theorem State.atPos_relayed (s : State) (p : Pos) : (s.atPos p).relayed = s.relayed := rfl
@[simp] theorem State.atPos_queues (s : State) (p : Pos) : (s.atPos p).queues = s.queues := rfl
@[simp] theorem State.atPos_rotation (s : State) (p : Pos) : (s.atPos p).rotation = s.rotation := rfl
@[simp] theorem State.atPos_nextSeq (s : State) (p : Pos) : (s.atPos p).nextSeq = s.nextSeq := rfl
@[simp] theorem State.atPos_mmp (s : State) (p : Pos) : (s.atPos p).mmp = s.mmp := rfl
@[simp] theorem State.atPos_platform (s : State) (p : Pos) : (s.atPos p).platform = s.platform := rfl
@[simp] theorem State.atPos_out (s : State) (p : Pos) : (s.atPos p).out = s.out := rfl
@[simp] theorem State.atPos_outAt (s : State) (p : Pos) : (s.atPos p).outAt = s.outAt := rfl
@[simp] theorem State.atPos_linkHeld (s : State) (p : Pos) : (s.atPos p).linkHeld = s.linkHeld := rfl

/-! ### land -/

@[simp] theorem State.land_gtc (s : State) (w : Write) (lat : Nat) : (s.land w lat).gtc = s.gtc := rfl
@[simp] theorem State.land_turn (s : State) (w : Write) (lat : Nat) : (s.land w lat).turn = s.turn := rfl
@[simp] theorem State.land_admitted (s : State) (w : Write) (lat : Nat) : (s.land w lat).admitted = s.admitted := rfl
@[simp] theorem State.land_agenda (s : State) (w : Write) (lat : Nat) : (s.land w lat).agenda = s.agenda := rfl
@[simp] theorem State.land_cur (s : State) (w : Write) (lat : Nat) : (s.land w lat).cur = s.cur := rfl
@[simp] theorem State.land_drawn (s : State) (w : Write) (lat : Nat) : (s.land w lat).drawn = s.drawn := rfl
@[simp] theorem State.land_nextId (s : State) (w : Write) (lat : Nat) : (s.land w lat).nextId = s.nextId := rfl
@[simp] theorem State.land_node (s : State) (w : Write) (lat : Nat) : (s.land w lat).node = s.node := rfl
@[simp] theorem State.land_hbm (s : State) (w : Write) (lat : Nat) : (s.land w lat).hbm = s.hbm := rfl
@[simp] theorem State.land_lpddr (s : State) (w : Write) (lat : Nat) : (s.land w lat).lpddr = s.lpddr := rfl
@[simp] theorem State.land_code (s : State) (w : Write) (lat : Nat) : (s.land w lat).code = s.code := rfl
@[simp] theorem State.land_procs (s : State) (w : Write) (lat : Nat) : (s.land w lat).procs = s.procs := rfl
@[simp] theorem State.land_bad (s : State) (w : Write) (lat : Nat) : (s.land w lat).bad = s.bad := rfl
@[simp] theorem State.land_flights (s : State) (w : Write) (lat : Nat) : (s.land w lat).flights = s.flights := rfl
@[simp] theorem State.land_marks (s : State) (w : Write) (lat : Nat) : (s.land w lat).marks = s.marks := rfl
@[simp] theorem State.land_mcasts (s : State) (w : Write) (lat : Nat) : (s.land w lat).mcasts = s.mcasts := rfl
@[simp] theorem State.land_watches (s : State) (w : Write) (lat : Nat) : (s.land w lat).watches = s.watches := rfl
@[simp] theorem State.land_barriers (s : State) (w : Write) (lat : Nat) : (s.land w lat).barriers = s.barriers := rfl
@[simp] theorem State.land_pulses (s : State) (w : Write) (lat : Nat) : (s.land w lat).pulses = s.pulses := rfl
@[simp] theorem State.land_scans (s : State) (w : Write) (lat : Nat) : (s.land w lat).scans = s.scans := rfl
@[simp] theorem State.land_groups (s : State) (w : Write) (lat : Nat) : (s.land w lat).groups = s.groups := rfl
@[simp] theorem State.land_tongs (s : State) (w : Write) (lat : Nat) : (s.land w lat).tongs = s.tongs := rfl
@[simp] theorem State.land_records (s : State) (w : Write) (lat : Nat) : (s.land w lat).records = s.records := rfl
@[simp] theorem State.land_relayed (s : State) (w : Write) (lat : Nat) : (s.land w lat).relayed = s.relayed := rfl
@[simp] theorem State.land_queues (s : State) (w : Write) (lat : Nat) : (s.land w lat).queues = s.queues := rfl
@[simp] theorem State.land_rotation (s : State) (w : Write) (lat : Nat) : (s.land w lat).rotation = s.rotation := rfl
@[simp] theorem State.land_nextSeq (s : State) (w : Write) (lat : Nat) : (s.land w lat).nextSeq = s.nextSeq := rfl
@[simp] theorem State.land_mmp (s : State) (w : Write) (lat : Nat) : (s.land w lat).mmp = s.mmp := rfl
@[simp] theorem State.land_platform (s : State) (w : Write) (lat : Nat) : (s.land w lat).platform = s.platform := rfl
@[simp] theorem State.land_out (s : State) (w : Write) (lat : Nat) : (s.land w lat).out = s.out := rfl
@[simp] theorem State.land_outAt (s : State) (w : Write) (lat : Nat) : (s.land w lat).outAt = s.outAt := rfl
@[simp] theorem State.land_linkHeld (s : State) (w : Write) (lat : Nat) : (s.land w lat).linkHeld = s.linkHeld := rfl

/-! ### landFlags -/

@[simp] theorem State.landFlags_gtc (s : State) (w : Write) (lat : Nat) (fl : BitVec 7) : (s.landFlags w lat fl).gtc = s.gtc := rfl
@[simp] theorem State.landFlags_turn (s : State) (w : Write) (lat : Nat) (fl : BitVec 7) : (s.landFlags w lat fl).turn = s.turn := rfl
@[simp] theorem State.landFlags_admitted (s : State) (w : Write) (lat : Nat) (fl : BitVec 7) : (s.landFlags w lat fl).admitted = s.admitted := rfl
@[simp] theorem State.landFlags_agenda (s : State) (w : Write) (lat : Nat) (fl : BitVec 7) : (s.landFlags w lat fl).agenda = s.agenda := rfl
@[simp] theorem State.landFlags_cur (s : State) (w : Write) (lat : Nat) (fl : BitVec 7) : (s.landFlags w lat fl).cur = s.cur := rfl
@[simp] theorem State.landFlags_drawn (s : State) (w : Write) (lat : Nat) (fl : BitVec 7) : (s.landFlags w lat fl).drawn = s.drawn := rfl
@[simp] theorem State.landFlags_nextId (s : State) (w : Write) (lat : Nat) (fl : BitVec 7) : (s.landFlags w lat fl).nextId = s.nextId := rfl
@[simp] theorem State.landFlags_node (s : State) (w : Write) (lat : Nat) (fl : BitVec 7) : (s.landFlags w lat fl).node = s.node := rfl
@[simp] theorem State.landFlags_hbm (s : State) (w : Write) (lat : Nat) (fl : BitVec 7) : (s.landFlags w lat fl).hbm = s.hbm := rfl
@[simp] theorem State.landFlags_lpddr (s : State) (w : Write) (lat : Nat) (fl : BitVec 7) : (s.landFlags w lat fl).lpddr = s.lpddr := rfl
@[simp] theorem State.landFlags_code (s : State) (w : Write) (lat : Nat) (fl : BitVec 7) : (s.landFlags w lat fl).code = s.code := rfl
@[simp] theorem State.landFlags_procs (s : State) (w : Write) (lat : Nat) (fl : BitVec 7) : (s.landFlags w lat fl).procs = s.procs := rfl
@[simp] theorem State.landFlags_bad (s : State) (w : Write) (lat : Nat) (fl : BitVec 7) : (s.landFlags w lat fl).bad = s.bad := rfl
@[simp] theorem State.landFlags_flights (s : State) (w : Write) (lat : Nat) (fl : BitVec 7) : (s.landFlags w lat fl).flights = s.flights := rfl
@[simp] theorem State.landFlags_marks (s : State) (w : Write) (lat : Nat) (fl : BitVec 7) : (s.landFlags w lat fl).marks = s.marks := rfl
@[simp] theorem State.landFlags_mcasts (s : State) (w : Write) (lat : Nat) (fl : BitVec 7) : (s.landFlags w lat fl).mcasts = s.mcasts := rfl
@[simp] theorem State.landFlags_watches (s : State) (w : Write) (lat : Nat) (fl : BitVec 7) : (s.landFlags w lat fl).watches = s.watches := rfl
@[simp] theorem State.landFlags_barriers (s : State) (w : Write) (lat : Nat) (fl : BitVec 7) : (s.landFlags w lat fl).barriers = s.barriers := rfl
@[simp] theorem State.landFlags_pulses (s : State) (w : Write) (lat : Nat) (fl : BitVec 7) : (s.landFlags w lat fl).pulses = s.pulses := rfl
@[simp] theorem State.landFlags_scans (s : State) (w : Write) (lat : Nat) (fl : BitVec 7) : (s.landFlags w lat fl).scans = s.scans := rfl
@[simp] theorem State.landFlags_groups (s : State) (w : Write) (lat : Nat) (fl : BitVec 7) : (s.landFlags w lat fl).groups = s.groups := rfl
@[simp] theorem State.landFlags_tongs (s : State) (w : Write) (lat : Nat) (fl : BitVec 7) : (s.landFlags w lat fl).tongs = s.tongs := rfl
@[simp] theorem State.landFlags_records (s : State) (w : Write) (lat : Nat) (fl : BitVec 7) : (s.landFlags w lat fl).records = s.records := rfl
@[simp] theorem State.landFlags_relayed (s : State) (w : Write) (lat : Nat) (fl : BitVec 7) : (s.landFlags w lat fl).relayed = s.relayed := rfl
@[simp] theorem State.landFlags_queues (s : State) (w : Write) (lat : Nat) (fl : BitVec 7) : (s.landFlags w lat fl).queues = s.queues := rfl
@[simp] theorem State.landFlags_rotation (s : State) (w : Write) (lat : Nat) (fl : BitVec 7) : (s.landFlags w lat fl).rotation = s.rotation := rfl
@[simp] theorem State.landFlags_nextSeq (s : State) (w : Write) (lat : Nat) (fl : BitVec 7) : (s.landFlags w lat fl).nextSeq = s.nextSeq := rfl
@[simp] theorem State.landFlags_mmp (s : State) (w : Write) (lat : Nat) (fl : BitVec 7) : (s.landFlags w lat fl).mmp = s.mmp := rfl
@[simp] theorem State.landFlags_platform (s : State) (w : Write) (lat : Nat) (fl : BitVec 7) : (s.landFlags w lat fl).platform = s.platform := rfl
@[simp] theorem State.landFlags_out (s : State) (w : Write) (lat : Nat) (fl : BitVec 7) : (s.landFlags w lat fl).out = s.out := rfl
@[simp] theorem State.landFlags_outAt (s : State) (w : Write) (lat : Nat) (fl : BitVec 7) : (s.landFlags w lat fl).outAt = s.outAt := rfl
@[simp] theorem State.landFlags_linkHeld (s : State) (w : Write) (lat : Nat) (fl : BitVec 7) : (s.landFlags w lat fl).linkHeld = s.linkHeld := rfl

/-! ### defer -/

@[simp] theorem State.defer_gtc (s : State) (d : Deferred) : (s.defer d).gtc = s.gtc := rfl
@[simp] theorem State.defer_turn (s : State) (d : Deferred) : (s.defer d).turn = s.turn := rfl
@[simp] theorem State.defer_admitted (s : State) (d : Deferred) : (s.defer d).admitted = s.admitted := rfl
@[simp] theorem State.defer_agenda (s : State) (d : Deferred) : (s.defer d).agenda = s.agenda := rfl
@[simp] theorem State.defer_cur (s : State) (d : Deferred) : (s.defer d).cur = s.cur := rfl
@[simp] theorem State.defer_drawn (s : State) (d : Deferred) : (s.defer d).drawn = s.drawn := rfl
@[simp] theorem State.defer_nextId (s : State) (d : Deferred) : (s.defer d).nextId = s.nextId := rfl
@[simp] theorem State.defer_node (s : State) (d : Deferred) : (s.defer d).node = s.node := rfl
@[simp] theorem State.defer_hbm (s : State) (d : Deferred) : (s.defer d).hbm = s.hbm := rfl
@[simp] theorem State.defer_lpddr (s : State) (d : Deferred) : (s.defer d).lpddr = s.lpddr := rfl
@[simp] theorem State.defer_code (s : State) (d : Deferred) : (s.defer d).code = s.code := rfl
@[simp] theorem State.defer_procs (s : State) (d : Deferred) : (s.defer d).procs = s.procs := rfl
@[simp] theorem State.defer_bad (s : State) (d : Deferred) : (s.defer d).bad = s.bad := rfl
@[simp] theorem State.defer_flights (s : State) (d : Deferred) : (s.defer d).flights = s.flights := rfl
@[simp] theorem State.defer_marks (s : State) (d : Deferred) : (s.defer d).marks = s.marks := rfl
@[simp] theorem State.defer_mcasts (s : State) (d : Deferred) : (s.defer d).mcasts = s.mcasts := rfl
@[simp] theorem State.defer_watches (s : State) (d : Deferred) : (s.defer d).watches = s.watches := rfl
@[simp] theorem State.defer_barriers (s : State) (d : Deferred) : (s.defer d).barriers = s.barriers := rfl
@[simp] theorem State.defer_pulses (s : State) (d : Deferred) : (s.defer d).pulses = s.pulses := rfl
@[simp] theorem State.defer_scans (s : State) (d : Deferred) : (s.defer d).scans = s.scans := rfl
@[simp] theorem State.defer_groups (s : State) (d : Deferred) : (s.defer d).groups = s.groups := rfl
@[simp] theorem State.defer_tongs (s : State) (d : Deferred) : (s.defer d).tongs = s.tongs := rfl
@[simp] theorem State.defer_records (s : State) (d : Deferred) : (s.defer d).records = s.records := rfl
@[simp] theorem State.defer_relayed (s : State) (d : Deferred) : (s.defer d).relayed = s.relayed := rfl
@[simp] theorem State.defer_queues (s : State) (d : Deferred) : (s.defer d).queues = s.queues := rfl
@[simp] theorem State.defer_rotation (s : State) (d : Deferred) : (s.defer d).rotation = s.rotation := rfl
@[simp] theorem State.defer_nextSeq (s : State) (d : Deferred) : (s.defer d).nextSeq = s.nextSeq := rfl
@[simp] theorem State.defer_mmp (s : State) (d : Deferred) : (s.defer d).mmp = s.mmp := rfl
@[simp] theorem State.defer_platform (s : State) (d : Deferred) : (s.defer d).platform = s.platform := rfl
@[simp] theorem State.defer_out (s : State) (d : Deferred) : (s.defer d).out = s.out := rfl
@[simp] theorem State.defer_outAt (s : State) (d : Deferred) : (s.defer d).outAt = s.outAt := rfl
@[simp] theorem State.defer_linkHeld (s : State) (d : Deferred) : (s.defer d).linkHeld = s.linkHeld := rfl

/-! ### modMmp -/

@[simp] theorem State.modMmp_gtc (s : State) (f : Mmp → Mmp) : (s.modMmp f).gtc = s.gtc := rfl
@[simp] theorem State.modMmp_turn (s : State) (f : Mmp → Mmp) : (s.modMmp f).turn = s.turn := rfl
@[simp] theorem State.modMmp_admitted (s : State) (f : Mmp → Mmp) : (s.modMmp f).admitted = s.admitted := rfl
@[simp] theorem State.modMmp_agenda (s : State) (f : Mmp → Mmp) : (s.modMmp f).agenda = s.agenda := rfl
@[simp] theorem State.modMmp_cur (s : State) (f : Mmp → Mmp) : (s.modMmp f).cur = s.cur := rfl
@[simp] theorem State.modMmp_drawn (s : State) (f : Mmp → Mmp) : (s.modMmp f).drawn = s.drawn := rfl
@[simp] theorem State.modMmp_nextId (s : State) (f : Mmp → Mmp) : (s.modMmp f).nextId = s.nextId := rfl
@[simp] theorem State.modMmp_node (s : State) (f : Mmp → Mmp) : (s.modMmp f).node = s.node := rfl
@[simp] theorem State.modMmp_tiles (s : State) (f : Mmp → Mmp) : (s.modMmp f).tiles = s.tiles := rfl
@[simp] theorem State.modMmp_hbm (s : State) (f : Mmp → Mmp) : (s.modMmp f).hbm = s.hbm := rfl
@[simp] theorem State.modMmp_lpddr (s : State) (f : Mmp → Mmp) : (s.modMmp f).lpddr = s.lpddr := rfl
@[simp] theorem State.modMmp_code (s : State) (f : Mmp → Mmp) : (s.modMmp f).code = s.code := rfl
@[simp] theorem State.modMmp_procs (s : State) (f : Mmp → Mmp) : (s.modMmp f).procs = s.procs := rfl
@[simp] theorem State.modMmp_bad (s : State) (f : Mmp → Mmp) : (s.modMmp f).bad = s.bad := rfl
@[simp] theorem State.modMmp_flights (s : State) (f : Mmp → Mmp) : (s.modMmp f).flights = s.flights := rfl
@[simp] theorem State.modMmp_marks (s : State) (f : Mmp → Mmp) : (s.modMmp f).marks = s.marks := rfl
@[simp] theorem State.modMmp_mcasts (s : State) (f : Mmp → Mmp) : (s.modMmp f).mcasts = s.mcasts := rfl
@[simp] theorem State.modMmp_watches (s : State) (f : Mmp → Mmp) : (s.modMmp f).watches = s.watches := rfl
@[simp] theorem State.modMmp_barriers (s : State) (f : Mmp → Mmp) : (s.modMmp f).barriers = s.barriers := rfl
@[simp] theorem State.modMmp_pulses (s : State) (f : Mmp → Mmp) : (s.modMmp f).pulses = s.pulses := rfl
@[simp] theorem State.modMmp_scans (s : State) (f : Mmp → Mmp) : (s.modMmp f).scans = s.scans := rfl
@[simp] theorem State.modMmp_groups (s : State) (f : Mmp → Mmp) : (s.modMmp f).groups = s.groups := rfl
@[simp] theorem State.modMmp_tongs (s : State) (f : Mmp → Mmp) : (s.modMmp f).tongs = s.tongs := rfl
@[simp] theorem State.modMmp_records (s : State) (f : Mmp → Mmp) : (s.modMmp f).records = s.records := rfl
@[simp] theorem State.modMmp_relayed (s : State) (f : Mmp → Mmp) : (s.modMmp f).relayed = s.relayed := rfl
@[simp] theorem State.modMmp_queues (s : State) (f : Mmp → Mmp) : (s.modMmp f).queues = s.queues := rfl
@[simp] theorem State.modMmp_rotation (s : State) (f : Mmp → Mmp) : (s.modMmp f).rotation = s.rotation := rfl
@[simp] theorem State.modMmp_nextSeq (s : State) (f : Mmp → Mmp) : (s.modMmp f).nextSeq = s.nextSeq := rfl
@[simp] theorem State.modMmp_platform (s : State) (f : Mmp → Mmp) : (s.modMmp f).platform = s.platform := rfl
@[simp] theorem State.modMmp_out (s : State) (f : Mmp → Mmp) : (s.modMmp f).out = s.out := rfl
@[simp] theorem State.modMmp_outAt (s : State) (f : Mmp → Mmp) : (s.modMmp f).outAt = s.outAt := rfl
@[simp] theorem State.modMmp_linkHeld (s : State) (f : Mmp → Mmp) : (s.modMmp f).linkHeld = s.linkHeld := rfl

/-! ### modPlatform -/

@[simp] theorem State.modPlatform_gtc (s : State) (f : Platform → Platform) : (s.modPlatform f).gtc = s.gtc := rfl
@[simp] theorem State.modPlatform_turn (s : State) (f : Platform → Platform) : (s.modPlatform f).turn = s.turn := rfl
@[simp] theorem State.modPlatform_admitted (s : State) (f : Platform → Platform) : (s.modPlatform f).admitted = s.admitted := rfl
@[simp] theorem State.modPlatform_agenda (s : State) (f : Platform → Platform) : (s.modPlatform f).agenda = s.agenda := rfl
@[simp] theorem State.modPlatform_cur (s : State) (f : Platform → Platform) : (s.modPlatform f).cur = s.cur := rfl
@[simp] theorem State.modPlatform_drawn (s : State) (f : Platform → Platform) : (s.modPlatform f).drawn = s.drawn := rfl
@[simp] theorem State.modPlatform_nextId (s : State) (f : Platform → Platform) : (s.modPlatform f).nextId = s.nextId := rfl
@[simp] theorem State.modPlatform_node (s : State) (f : Platform → Platform) : (s.modPlatform f).node = s.node := rfl
@[simp] theorem State.modPlatform_tiles (s : State) (f : Platform → Platform) : (s.modPlatform f).tiles = s.tiles := rfl
@[simp] theorem State.modPlatform_hbm (s : State) (f : Platform → Platform) : (s.modPlatform f).hbm = s.hbm := rfl
@[simp] theorem State.modPlatform_lpddr (s : State) (f : Platform → Platform) : (s.modPlatform f).lpddr = s.lpddr := rfl
@[simp] theorem State.modPlatform_code (s : State) (f : Platform → Platform) : (s.modPlatform f).code = s.code := rfl
@[simp] theorem State.modPlatform_procs (s : State) (f : Platform → Platform) : (s.modPlatform f).procs = s.procs := rfl
@[simp] theorem State.modPlatform_bad (s : State) (f : Platform → Platform) : (s.modPlatform f).bad = s.bad := rfl
@[simp] theorem State.modPlatform_flights (s : State) (f : Platform → Platform) : (s.modPlatform f).flights = s.flights := rfl
@[simp] theorem State.modPlatform_marks (s : State) (f : Platform → Platform) : (s.modPlatform f).marks = s.marks := rfl
@[simp] theorem State.modPlatform_mcasts (s : State) (f : Platform → Platform) : (s.modPlatform f).mcasts = s.mcasts := rfl
@[simp] theorem State.modPlatform_watches (s : State) (f : Platform → Platform) : (s.modPlatform f).watches = s.watches := rfl
@[simp] theorem State.modPlatform_barriers (s : State) (f : Platform → Platform) : (s.modPlatform f).barriers = s.barriers := rfl
@[simp] theorem State.modPlatform_pulses (s : State) (f : Platform → Platform) : (s.modPlatform f).pulses = s.pulses := rfl
@[simp] theorem State.modPlatform_scans (s : State) (f : Platform → Platform) : (s.modPlatform f).scans = s.scans := rfl
@[simp] theorem State.modPlatform_groups (s : State) (f : Platform → Platform) : (s.modPlatform f).groups = s.groups := rfl
@[simp] theorem State.modPlatform_tongs (s : State) (f : Platform → Platform) : (s.modPlatform f).tongs = s.tongs := rfl
@[simp] theorem State.modPlatform_records (s : State) (f : Platform → Platform) : (s.modPlatform f).records = s.records := rfl
@[simp] theorem State.modPlatform_relayed (s : State) (f : Platform → Platform) : (s.modPlatform f).relayed = s.relayed := rfl
@[simp] theorem State.modPlatform_queues (s : State) (f : Platform → Platform) : (s.modPlatform f).queues = s.queues := rfl
@[simp] theorem State.modPlatform_rotation (s : State) (f : Platform → Platform) : (s.modPlatform f).rotation = s.rotation := rfl
@[simp] theorem State.modPlatform_nextSeq (s : State) (f : Platform → Platform) : (s.modPlatform f).nextSeq = s.nextSeq := rfl
@[simp] theorem State.modPlatform_mmp (s : State) (f : Platform → Platform) : (s.modPlatform f).mmp = s.mmp := rfl
@[simp] theorem State.modPlatform_out (s : State) (f : Platform → Platform) : (s.modPlatform f).out = s.out := rfl
@[simp] theorem State.modPlatform_outAt (s : State) (f : Platform → Platform) : (s.modPlatform f).outAt = s.outAt := rfl
@[simp] theorem State.modPlatform_linkHeld (s : State) (f : Platform → Platform) : (s.modPlatform f).linkHeld = s.linkHeld := rfl

/-! ### writeHbm -/

@[simp] theorem State.writeHbm_gtc (s : State) (a : Nat) (bs : List Byte) : (s.writeHbm a bs).gtc = s.gtc := rfl
@[simp] theorem State.writeHbm_turn (s : State) (a : Nat) (bs : List Byte) : (s.writeHbm a bs).turn = s.turn := rfl
@[simp] theorem State.writeHbm_admitted (s : State) (a : Nat) (bs : List Byte) : (s.writeHbm a bs).admitted = s.admitted := rfl
@[simp] theorem State.writeHbm_agenda (s : State) (a : Nat) (bs : List Byte) : (s.writeHbm a bs).agenda = s.agenda := rfl
@[simp] theorem State.writeHbm_cur (s : State) (a : Nat) (bs : List Byte) : (s.writeHbm a bs).cur = s.cur := rfl
@[simp] theorem State.writeHbm_drawn (s : State) (a : Nat) (bs : List Byte) : (s.writeHbm a bs).drawn = s.drawn := rfl
@[simp] theorem State.writeHbm_nextId (s : State) (a : Nat) (bs : List Byte) : (s.writeHbm a bs).nextId = s.nextId := rfl
@[simp] theorem State.writeHbm_node (s : State) (a : Nat) (bs : List Byte) : (s.writeHbm a bs).node = s.node := rfl
@[simp] theorem State.writeHbm_tiles (s : State) (a : Nat) (bs : List Byte) : (s.writeHbm a bs).tiles = s.tiles := rfl
@[simp] theorem State.writeHbm_lpddr (s : State) (a : Nat) (bs : List Byte) : (s.writeHbm a bs).lpddr = s.lpddr := rfl
@[simp] theorem State.writeHbm_code (s : State) (a : Nat) (bs : List Byte) : (s.writeHbm a bs).code = s.code := rfl
@[simp] theorem State.writeHbm_procs (s : State) (a : Nat) (bs : List Byte) : (s.writeHbm a bs).procs = s.procs := rfl
@[simp] theorem State.writeHbm_bad (s : State) (a : Nat) (bs : List Byte) : (s.writeHbm a bs).bad = s.bad := rfl
@[simp] theorem State.writeHbm_flights (s : State) (a : Nat) (bs : List Byte) : (s.writeHbm a bs).flights = s.flights := rfl
@[simp] theorem State.writeHbm_marks (s : State) (a : Nat) (bs : List Byte) : (s.writeHbm a bs).marks = s.marks := rfl
@[simp] theorem State.writeHbm_mcasts (s : State) (a : Nat) (bs : List Byte) : (s.writeHbm a bs).mcasts = s.mcasts := rfl
@[simp] theorem State.writeHbm_watches (s : State) (a : Nat) (bs : List Byte) : (s.writeHbm a bs).watches = s.watches := rfl
@[simp] theorem State.writeHbm_barriers (s : State) (a : Nat) (bs : List Byte) : (s.writeHbm a bs).barriers = s.barriers := rfl
@[simp] theorem State.writeHbm_pulses (s : State) (a : Nat) (bs : List Byte) : (s.writeHbm a bs).pulses = s.pulses := rfl
@[simp] theorem State.writeHbm_scans (s : State) (a : Nat) (bs : List Byte) : (s.writeHbm a bs).scans = s.scans := rfl
@[simp] theorem State.writeHbm_groups (s : State) (a : Nat) (bs : List Byte) : (s.writeHbm a bs).groups = s.groups := rfl
@[simp] theorem State.writeHbm_tongs (s : State) (a : Nat) (bs : List Byte) : (s.writeHbm a bs).tongs = s.tongs := rfl
@[simp] theorem State.writeHbm_records (s : State) (a : Nat) (bs : List Byte) : (s.writeHbm a bs).records = s.records := rfl
@[simp] theorem State.writeHbm_relayed (s : State) (a : Nat) (bs : List Byte) : (s.writeHbm a bs).relayed = s.relayed := rfl
@[simp] theorem State.writeHbm_queues (s : State) (a : Nat) (bs : List Byte) : (s.writeHbm a bs).queues = s.queues := rfl
@[simp] theorem State.writeHbm_rotation (s : State) (a : Nat) (bs : List Byte) : (s.writeHbm a bs).rotation = s.rotation := rfl
@[simp] theorem State.writeHbm_nextSeq (s : State) (a : Nat) (bs : List Byte) : (s.writeHbm a bs).nextSeq = s.nextSeq := rfl
@[simp] theorem State.writeHbm_mmp (s : State) (a : Nat) (bs : List Byte) : (s.writeHbm a bs).mmp = s.mmp := rfl
@[simp] theorem State.writeHbm_platform (s : State) (a : Nat) (bs : List Byte) : (s.writeHbm a bs).platform = s.platform := rfl
@[simp] theorem State.writeHbm_out (s : State) (a : Nat) (bs : List Byte) : (s.writeHbm a bs).out = s.out := rfl
@[simp] theorem State.writeHbm_outAt (s : State) (a : Nat) (bs : List Byte) : (s.writeHbm a bs).outAt = s.outAt := rfl
@[simp] theorem State.writeHbm_linkHeld (s : State) (a : Nat) (bs : List Byte) : (s.writeHbm a bs).linkHeld = s.linkHeld := rfl

/-! ### writeLpddr -/

@[simp] theorem State.writeLpddr_gtc (s : State) (a : Nat) (bs : List Byte) : (s.writeLpddr a bs).gtc = s.gtc := rfl
@[simp] theorem State.writeLpddr_turn (s : State) (a : Nat) (bs : List Byte) : (s.writeLpddr a bs).turn = s.turn := rfl
@[simp] theorem State.writeLpddr_admitted (s : State) (a : Nat) (bs : List Byte) : (s.writeLpddr a bs).admitted = s.admitted := rfl
@[simp] theorem State.writeLpddr_agenda (s : State) (a : Nat) (bs : List Byte) : (s.writeLpddr a bs).agenda = s.agenda := rfl
@[simp] theorem State.writeLpddr_cur (s : State) (a : Nat) (bs : List Byte) : (s.writeLpddr a bs).cur = s.cur := rfl
@[simp] theorem State.writeLpddr_drawn (s : State) (a : Nat) (bs : List Byte) : (s.writeLpddr a bs).drawn = s.drawn := rfl
@[simp] theorem State.writeLpddr_nextId (s : State) (a : Nat) (bs : List Byte) : (s.writeLpddr a bs).nextId = s.nextId := rfl
@[simp] theorem State.writeLpddr_node (s : State) (a : Nat) (bs : List Byte) : (s.writeLpddr a bs).node = s.node := rfl
@[simp] theorem State.writeLpddr_tiles (s : State) (a : Nat) (bs : List Byte) : (s.writeLpddr a bs).tiles = s.tiles := rfl
@[simp] theorem State.writeLpddr_hbm (s : State) (a : Nat) (bs : List Byte) : (s.writeLpddr a bs).hbm = s.hbm := rfl
@[simp] theorem State.writeLpddr_code (s : State) (a : Nat) (bs : List Byte) : (s.writeLpddr a bs).code = s.code := rfl
@[simp] theorem State.writeLpddr_procs (s : State) (a : Nat) (bs : List Byte) : (s.writeLpddr a bs).procs = s.procs := rfl
@[simp] theorem State.writeLpddr_bad (s : State) (a : Nat) (bs : List Byte) : (s.writeLpddr a bs).bad = s.bad := rfl
@[simp] theorem State.writeLpddr_flights (s : State) (a : Nat) (bs : List Byte) : (s.writeLpddr a bs).flights = s.flights := rfl
@[simp] theorem State.writeLpddr_marks (s : State) (a : Nat) (bs : List Byte) : (s.writeLpddr a bs).marks = s.marks := rfl
@[simp] theorem State.writeLpddr_mcasts (s : State) (a : Nat) (bs : List Byte) : (s.writeLpddr a bs).mcasts = s.mcasts := rfl
@[simp] theorem State.writeLpddr_watches (s : State) (a : Nat) (bs : List Byte) : (s.writeLpddr a bs).watches = s.watches := rfl
@[simp] theorem State.writeLpddr_barriers (s : State) (a : Nat) (bs : List Byte) : (s.writeLpddr a bs).barriers = s.barriers := rfl
@[simp] theorem State.writeLpddr_pulses (s : State) (a : Nat) (bs : List Byte) : (s.writeLpddr a bs).pulses = s.pulses := rfl
@[simp] theorem State.writeLpddr_scans (s : State) (a : Nat) (bs : List Byte) : (s.writeLpddr a bs).scans = s.scans := rfl
@[simp] theorem State.writeLpddr_groups (s : State) (a : Nat) (bs : List Byte) : (s.writeLpddr a bs).groups = s.groups := rfl
@[simp] theorem State.writeLpddr_tongs (s : State) (a : Nat) (bs : List Byte) : (s.writeLpddr a bs).tongs = s.tongs := rfl
@[simp] theorem State.writeLpddr_records (s : State) (a : Nat) (bs : List Byte) : (s.writeLpddr a bs).records = s.records := rfl
@[simp] theorem State.writeLpddr_relayed (s : State) (a : Nat) (bs : List Byte) : (s.writeLpddr a bs).relayed = s.relayed := rfl
@[simp] theorem State.writeLpddr_queues (s : State) (a : Nat) (bs : List Byte) : (s.writeLpddr a bs).queues = s.queues := rfl
@[simp] theorem State.writeLpddr_rotation (s : State) (a : Nat) (bs : List Byte) : (s.writeLpddr a bs).rotation = s.rotation := rfl
@[simp] theorem State.writeLpddr_nextSeq (s : State) (a : Nat) (bs : List Byte) : (s.writeLpddr a bs).nextSeq = s.nextSeq := rfl
@[simp] theorem State.writeLpddr_mmp (s : State) (a : Nat) (bs : List Byte) : (s.writeLpddr a bs).mmp = s.mmp := rfl
@[simp] theorem State.writeLpddr_platform (s : State) (a : Nat) (bs : List Byte) : (s.writeLpddr a bs).platform = s.platform := rfl
@[simp] theorem State.writeLpddr_out (s : State) (a : Nat) (bs : List Byte) : (s.writeLpddr a bs).out = s.out := rfl
@[simp] theorem State.writeLpddr_outAt (s : State) (a : Nat) (bs : List Byte) : (s.writeLpddr a bs).outAt = s.outAt := rfl
@[simp] theorem State.writeLpddr_linkHeld (s : State) (a : Nat) (bs : List Byte) : (s.writeLpddr a bs).linkHeld = s.linkHeld := rfl

/-! ### dropFlight -/

@[simp] theorem State.dropFlight_gtc (s : State) (id : Nat) : (s.dropFlight id).gtc = s.gtc := rfl
@[simp] theorem State.dropFlight_turn (s : State) (id : Nat) : (s.dropFlight id).turn = s.turn := rfl
@[simp] theorem State.dropFlight_admitted (s : State) (id : Nat) : (s.dropFlight id).admitted = s.admitted := rfl
@[simp] theorem State.dropFlight_agenda (s : State) (id : Nat) : (s.dropFlight id).agenda = s.agenda := rfl
@[simp] theorem State.dropFlight_cur (s : State) (id : Nat) : (s.dropFlight id).cur = s.cur := rfl
@[simp] theorem State.dropFlight_drawn (s : State) (id : Nat) : (s.dropFlight id).drawn = s.drawn := rfl
@[simp] theorem State.dropFlight_nextId (s : State) (id : Nat) : (s.dropFlight id).nextId = s.nextId := rfl
@[simp] theorem State.dropFlight_node (s : State) (id : Nat) : (s.dropFlight id).node = s.node := rfl
@[simp] theorem State.dropFlight_tiles (s : State) (id : Nat) : (s.dropFlight id).tiles = s.tiles := rfl
@[simp] theorem State.dropFlight_hbm (s : State) (id : Nat) : (s.dropFlight id).hbm = s.hbm := rfl
@[simp] theorem State.dropFlight_lpddr (s : State) (id : Nat) : (s.dropFlight id).lpddr = s.lpddr := rfl
@[simp] theorem State.dropFlight_code (s : State) (id : Nat) : (s.dropFlight id).code = s.code := rfl
@[simp] theorem State.dropFlight_procs (s : State) (id : Nat) : (s.dropFlight id).procs = s.procs := rfl
@[simp] theorem State.dropFlight_bad (s : State) (id : Nat) : (s.dropFlight id).bad = s.bad := rfl
@[simp] theorem State.dropFlight_marks (s : State) (id : Nat) : (s.dropFlight id).marks = s.marks := rfl
@[simp] theorem State.dropFlight_mcasts (s : State) (id : Nat) : (s.dropFlight id).mcasts = s.mcasts := rfl
@[simp] theorem State.dropFlight_watches (s : State) (id : Nat) : (s.dropFlight id).watches = s.watches := rfl
@[simp] theorem State.dropFlight_barriers (s : State) (id : Nat) : (s.dropFlight id).barriers = s.barriers := rfl
@[simp] theorem State.dropFlight_pulses (s : State) (id : Nat) : (s.dropFlight id).pulses = s.pulses := rfl
@[simp] theorem State.dropFlight_scans (s : State) (id : Nat) : (s.dropFlight id).scans = s.scans := rfl
@[simp] theorem State.dropFlight_groups (s : State) (id : Nat) : (s.dropFlight id).groups = s.groups := rfl
@[simp] theorem State.dropFlight_tongs (s : State) (id : Nat) : (s.dropFlight id).tongs = s.tongs := rfl
@[simp] theorem State.dropFlight_records (s : State) (id : Nat) : (s.dropFlight id).records = s.records := rfl
@[simp] theorem State.dropFlight_relayed (s : State) (id : Nat) : (s.dropFlight id).relayed = s.relayed := rfl
@[simp] theorem State.dropFlight_queues (s : State) (id : Nat) : (s.dropFlight id).queues = s.queues := rfl
@[simp] theorem State.dropFlight_rotation (s : State) (id : Nat) : (s.dropFlight id).rotation = s.rotation := rfl
@[simp] theorem State.dropFlight_nextSeq (s : State) (id : Nat) : (s.dropFlight id).nextSeq = s.nextSeq := rfl
@[simp] theorem State.dropFlight_mmp (s : State) (id : Nat) : (s.dropFlight id).mmp = s.mmp := rfl
@[simp] theorem State.dropFlight_platform (s : State) (id : Nat) : (s.dropFlight id).platform = s.platform := rfl
@[simp] theorem State.dropFlight_out (s : State) (id : Nat) : (s.dropFlight id).out = s.out := rfl
@[simp] theorem State.dropFlight_outAt (s : State) (id : Nat) : (s.dropFlight id).outAt = s.outAt := rfl
@[simp] theorem State.dropFlight_linkHeld (s : State) (id : Nat) : (s.dropFlight id).linkHeld = s.linkHeld := rfl

/-! ### setQueueOf -/

@[simp] theorem State.setQueueOf_gtc (s : State) (q : BitVec 3) (x : LaunchQueue) : (s.setQueueOf q x).gtc = s.gtc := rfl
@[simp] theorem State.setQueueOf_turn (s : State) (q : BitVec 3) (x : LaunchQueue) : (s.setQueueOf q x).turn = s.turn := rfl
@[simp] theorem State.setQueueOf_admitted (s : State) (q : BitVec 3) (x : LaunchQueue) : (s.setQueueOf q x).admitted = s.admitted := rfl
@[simp] theorem State.setQueueOf_agenda (s : State) (q : BitVec 3) (x : LaunchQueue) : (s.setQueueOf q x).agenda = s.agenda := rfl
@[simp] theorem State.setQueueOf_cur (s : State) (q : BitVec 3) (x : LaunchQueue) : (s.setQueueOf q x).cur = s.cur := rfl
@[simp] theorem State.setQueueOf_drawn (s : State) (q : BitVec 3) (x : LaunchQueue) : (s.setQueueOf q x).drawn = s.drawn := rfl
@[simp] theorem State.setQueueOf_nextId (s : State) (q : BitVec 3) (x : LaunchQueue) : (s.setQueueOf q x).nextId = s.nextId := rfl
@[simp] theorem State.setQueueOf_node (s : State) (q : BitVec 3) (x : LaunchQueue) : (s.setQueueOf q x).node = s.node := rfl
@[simp] theorem State.setQueueOf_tiles (s : State) (q : BitVec 3) (x : LaunchQueue) : (s.setQueueOf q x).tiles = s.tiles := rfl
@[simp] theorem State.setQueueOf_hbm (s : State) (q : BitVec 3) (x : LaunchQueue) : (s.setQueueOf q x).hbm = s.hbm := rfl
@[simp] theorem State.setQueueOf_lpddr (s : State) (q : BitVec 3) (x : LaunchQueue) : (s.setQueueOf q x).lpddr = s.lpddr := rfl
@[simp] theorem State.setQueueOf_code (s : State) (q : BitVec 3) (x : LaunchQueue) : (s.setQueueOf q x).code = s.code := rfl
@[simp] theorem State.setQueueOf_procs (s : State) (q : BitVec 3) (x : LaunchQueue) : (s.setQueueOf q x).procs = s.procs := rfl
@[simp] theorem State.setQueueOf_bad (s : State) (q : BitVec 3) (x : LaunchQueue) : (s.setQueueOf q x).bad = s.bad := rfl
@[simp] theorem State.setQueueOf_flights (s : State) (q : BitVec 3) (x : LaunchQueue) : (s.setQueueOf q x).flights = s.flights := rfl
@[simp] theorem State.setQueueOf_marks (s : State) (q : BitVec 3) (x : LaunchQueue) : (s.setQueueOf q x).marks = s.marks := rfl
@[simp] theorem State.setQueueOf_mcasts (s : State) (q : BitVec 3) (x : LaunchQueue) : (s.setQueueOf q x).mcasts = s.mcasts := rfl
@[simp] theorem State.setQueueOf_watches (s : State) (q : BitVec 3) (x : LaunchQueue) : (s.setQueueOf q x).watches = s.watches := rfl
@[simp] theorem State.setQueueOf_barriers (s : State) (q : BitVec 3) (x : LaunchQueue) : (s.setQueueOf q x).barriers = s.barriers := rfl
@[simp] theorem State.setQueueOf_pulses (s : State) (q : BitVec 3) (x : LaunchQueue) : (s.setQueueOf q x).pulses = s.pulses := rfl
@[simp] theorem State.setQueueOf_scans (s : State) (q : BitVec 3) (x : LaunchQueue) : (s.setQueueOf q x).scans = s.scans := rfl
@[simp] theorem State.setQueueOf_groups (s : State) (q : BitVec 3) (x : LaunchQueue) : (s.setQueueOf q x).groups = s.groups := rfl
@[simp] theorem State.setQueueOf_tongs (s : State) (q : BitVec 3) (x : LaunchQueue) : (s.setQueueOf q x).tongs = s.tongs := rfl
@[simp] theorem State.setQueueOf_records (s : State) (q : BitVec 3) (x : LaunchQueue) : (s.setQueueOf q x).records = s.records := rfl
@[simp] theorem State.setQueueOf_relayed (s : State) (q : BitVec 3) (x : LaunchQueue) : (s.setQueueOf q x).relayed = s.relayed := rfl
@[simp] theorem State.setQueueOf_rotation (s : State) (q : BitVec 3) (x : LaunchQueue) : (s.setQueueOf q x).rotation = s.rotation := rfl
@[simp] theorem State.setQueueOf_nextSeq (s : State) (q : BitVec 3) (x : LaunchQueue) : (s.setQueueOf q x).nextSeq = s.nextSeq := rfl
@[simp] theorem State.setQueueOf_mmp (s : State) (q : BitVec 3) (x : LaunchQueue) : (s.setQueueOf q x).mmp = s.mmp := rfl
@[simp] theorem State.setQueueOf_platform (s : State) (q : BitVec 3) (x : LaunchQueue) : (s.setQueueOf q x).platform = s.platform := rfl
@[simp] theorem State.setQueueOf_out (s : State) (q : BitVec 3) (x : LaunchQueue) : (s.setQueueOf q x).out = s.out := rfl
@[simp] theorem State.setQueueOf_outAt (s : State) (q : BitVec 3) (x : LaunchQueue) : (s.setQueueOf q x).outAt = s.outAt := rfl
@[simp] theorem State.setQueueOf_linkHeld (s : State) (q : BitVec 3) (x : LaunchQueue) : (s.setQueueOf q x).linkHeld = s.linkHeld := rfl

/-! ### What an update sets -/

@[simp] theorem State.setTile_tiles (s : State) (t : Nat) (x : Tile) : (s.setTile t x).tiles = assocSet t x s.tiles := rfl
@[simp] theorem State.atPos_cur (s : State) (p : Pos) : (s.atPos p).cur = { s.cur with pos := p } := rfl
@[simp] theorem State.atPos_me (s : State) (p : Pos) : (s.atPos p).me = s.me := rfl
@[simp] theorem State.modMmp_mmp (s : State) (f : Mmp → Mmp) : (s.modMmp f).mmp = f s.mmp := rfl
@[simp] theorem State.modPlatform_platform (s : State) (f : Platform → Platform) : (s.modPlatform f).platform = f s.platform := rfl
@[simp] theorem State.writeHbm_hbm (s : State) (a : Nat) (bs : List Byte) : (s.writeHbm a bs).hbm = Memory.writeN s.hbm a bs := rfl
@[simp] theorem State.writeLpddr_lpddr (s : State) (a : Nat) (bs : List Byte) :
    (s.writeLpddr a bs).lpddr = Memory.writeN s.lpddr a bs := rfl

end Sys2Proof.Machine
end

