-- ==== Sys2Proof/Laws/Step.lean ====
section
/-! SUPPORT. A step whose next action is the presentation of a bundle. -/

namespace Sys2Proof.Machine

/-- The odd turn of a tile is its presentation. -/
theorem turnEvent_present (t : TileId) : turnEvent (2 * t.toNat + 1) = .bundlePresentation t := by
  have h1 : (2 * t.toNat + 1) % 2 ≠ 0 := by omega
  have h2 : (2 * t.toNat + 1) / 2 = t.toNat := by omega
  simp only [turnEvent, if_neg h1, h2, BitVec.ofNat_toNat, BitVec.setWidth_eq]

/-- Where no event of the package is due, the step is the next turn. -/
theorem step_turn (s : State) (t : TileId) (k : SlotNo) (h : s.takesTurn t k) : step s = stepTile s := by
  obtain ⟨ha, ht, -⟩ := h
  have hc : stepAgenda s = stepTile s := by
    unfold stepAgenda
    cases hag : s.agenda with
    | nil => rfl
    | cons x rest =>
      obtain ⟨n, e⟩ := x
      have : ¬ n ≤ s.gtc.toNat := by
        have := ha (n, e) (by simp [hag])
        simp at this
        omega
      simp [this]
  unfold step stepAny
  split
  · rename_i h0
    rw [ht.resolve_left (fun h => h h0)]
    exact hc
  · exact hc

/-- A tile whose contexts owe nothing presents as it stands. -/
theorem settleTile_none (s : State) (t : TileId) (h : ∀ j : SlotNo, ((s.tile t.toNat).slot j).primary.owed = []) :
    s.settleTile t = s := by
  have key : ∀ l : List SlotNo, l.foldl (fun (st : State) k =>
      if (((st.tile t.toNat).slot k).primary).owed.isEmpty then st
      else
        let s1 : State := { st with cur := { tile := t, slot := k, pos := .sa } }
        s1.settleOwed) s = s := by
    intro l
    induction l with
    | nil => rfl
    | cons k l ih => simp only [List.foldl_cons, h k, List.isEmpty_nil, if_true]; exact ih
  exact key allSlots

/-- A step in which a context takes its turn is the presentation of its bundle. -/
theorem step_present (s : State) (t : TileId) (k : SlotNo) (h : s.takesTurn t k) :
    step s = .next ({ s with turn := 2 * t.toNat + 2, cur := { tile := t, slot := k, pos := .sa } } : State).present := by
  rw [step_turn s t k h]
  obtain ⟨-, -, hn, hp, ho⟩ := h
  unfold stepTile
  rw [hn]
  show exec (turnEvent (2 * t.toNat + 1)) { s with turn := 2 * t.toNat + 2 } = _
  rw [turnEvent_present]
  show Host.Outcome.next (({ s with turn := 2 * t.toNat + 2 } : State).presentTile t) = _
  unfold State.presentTile
  rw [settleTile_none { s with turn := 2 * t.toNat + 2 } t ho]
  have : ({ s with turn := 2 * t.toNat + 2 } : State).presenter t.toNat = some k := hp
  simp only [this]

/-- A presentation that comes to the checks of its bundle. -/
theorem present_checks (s : State) (t : TileId) (k : SlotNo) (h : s.reachesChecks t k) :
    ({ s with turn := 2 * t.toNat + 2, cur := { tile := t, slot := k, pos := .sa } } : State).present
      = (s.atTurn t k).presentBundle := by
  obtain ⟨hr, hl, hp, hv, -⟩ := h
  generalize hs0 : ({ s with turn := 2 * t.toNat + 2, cur := { tile := t, slot := k, pos := .sa } } : State) = s0 at hr hl
  have hg : s.gtc = s0.gtc := by rw [← hs0]
  have ha : s.atTurn t k = s0.commitLandings := by rw [← hs0]; rfl
  rw [hg] at hl
  rw [ha] at hp hv ⊢
  have hpump : s0.replayPump = s0 := by
    unfold State.replayPump Context.replaying
    simp only [hr, Bool.false_eq_true, if_false]
  unfold State.present
  simp only [hpump, hl, Bool.false_eq_true, if_false, hp, hv]

/-- The first check of a bundle that fails is its trap. -/
theorem step_trap (s : State) (t : TileId) (k : SlotNo) (tr : Trap) (h : s.takesTurn t k) (hc : s.reachesChecks t k)
    (hb : bundleTrap (s.atTurn t k) (s.atTurn t k).fetch = some tr) : step s = .next ((s.atTurn t k).raise tr) := by
  rw [step_present s t k h, present_checks s t k hc]
  unfold State.presentBundle
  rw [hc.2.2.2.2]
  simp only [hb]

/-- A presentation that nothing stops before its block check. -/
theorem step_presents (s : State) (t : TileId) (k : SlotNo) (h : s.takesTurn t k) (hp : s.presents t k) :
    step s = .next ((s.atTurn t k).issueBundle (s.atTurn t k).fetch) := by
  obtain ⟨hc, hb, hs, hd⟩ := hp
  rw [step_present s t k h, present_checks s t k hc]
  unfold State.presentBundle
  rw [hc.2.2.2.2]
  simp only [hb]
  rw [hs]
  simp only [hd]

end Sys2Proof.Machine
end

