-- ==== Sys2Proof/Machine/Image.lean ====
section
/-! DEFINITION. Shedex images (R85 to R87), as the loader in host software reads them, and what it hands on: the code of an
address space, `.ctx` values, and the commands for tensors and capacity ranges (R180). Nothing of the package runs it:
an image is loaded from outside, and a step never does (DESIGN CHOICE, safe; log entries 4 and 15). -/

namespace Sys2Proof.Machine

/-- n bytes of a file from an offset, as a number (R85: little-endian). -/
def fileNat (f : List Byte) (at_ n : Nat) : Nat := natOfBytes ((f.drop at_).take n)

/-- A section of an image with its contents (R86). -/
structure ImageSection where
  kind : Nat
  flags : Nat
  name : Nat
  body : List Byte
  load : Word
  deriving DecidableEq, Repr

/-- An entry of the symbol table (R87). -/
structure ImageSymbol where
  name  : Nat
  kind  : Nat
  sect  : Nat
  value : Word
  size  : Nat
  deriving DecidableEq, Repr

/-- An image that the loader has read. -/
structure ShedexImage where
  sections : List ImageSection
  symbols  : List ImageSymbol
  strings  : List Byte
  deriving DecidableEq, Repr

/-- The header of Table 3-21: magic, version and reserved bytes are as the table gives them. -/
def imageHeaderOk (f : List Byte) : Bool :=
  decide (64 ≤ f.length) && fileNat f 0 4 == 0x58444853 && fileNat f 4 2 == 1 && fileNat f 28 4 == 0 && fileNat f 48 16 == 0

/-- A part of the file lies within it. -/
def inFile (f : List Byte) (at_ n : Nat) : Bool := decide (at_ + n ≤ f.length)

/-- What else Table 3-21 gives: a section, tables at multiples of 8, and parts within the file. -/
def imageTablesOk (f : List Byte) : Bool :=
  let sects := fileNat f 6 2
  decide (1 ≤ sects) && fileNat f 8 8 % 8 == 0 && fileNat f 16 8 % 8 == 0 && inFile f (fileNat f 8 8) (32 * sects)
    && inFile f (fileNat f 16 8) (24 * fileNat f 24 4) && inFile f (fileNat f 32 8) (fileNat f 40 8)
    && (List.range sects).all (fun i =>
      inFile f (fileNat f (fileNat f 8 8 + 32 * i + 8) 8) (fileNat f (fileNat f 8 8 + 32 * i + 16) 8))

/-- Table 3-22: the kinds of a section with their sizes and load fields; flags are 0. -/
def ImageSection.formOk (x : ImageSection) : Bool :=
  let n := x.body.length
  x.flags == 0 && (match x.kind with
    | 1 => n % 32 == 0
    | 2 | 3 | 4 => true
    | 5 => n % 64 == 0 && x.load == 0
    | 6 => n % 8 == 0 && x.load == 0
    | 7 => n % 16 == 0 && decide (256 ≤ x.load.toNat ∧ x.load.toNat ≤ 1023)
    | 8 => x.load == 0
    | 9 => n % 256 == 0 && x.load == 0
    | _ => false)

/-- Section i of the file: 32 bytes of the section table (R86). -/
def imageSection (f : List Byte) (i : Nat) : ImageSection :=
  let e := fileNat f 8 8 + 32 * i
  { kind := fileNat f e 2, flags := fileNat f (e + 2) 2, name := fileNat f (e + 4) 4
    body := (f.drop (fileNat f (e + 8) 8)).take (fileNat f (e + 16) 8), load := BitVec.ofNat 64 (fileNat f (e + 24) 8) }

/-- Symbol i of the file: 24 bytes of the symbol table (R87). -/
def imageSymbol (f : List Byte) (i : Nat) : ImageSymbol :=
  let e := fileNat f 16 8 + 24 * i
  { name := fileNat f e 4, kind := fileNat f (e + 4) 2, sect := fileNat f (e + 6) 2
    value := BitVec.ofNat 64 (fileNat f (e + 8) 8), size := fileNat f (e + 16) 8 }

/-- A symbol of R87: one of the nine kinds, in a section of the image; a constant is in none. -/
def ImageSymbol.formOk (y : ImageSymbol) (sections : Nat) : Bool :=
  decide (1 ≤ y.kind ∧ y.kind ≤ 9) && (if y.kind = 3 then y.sect == 0xFFFF else decide (y.sect < sections))

/-- The loader reads an image, or rejects it. The spec has it reject a wrong magic, version or reserved byte and a section of
another kind (R85, R86); an image that breaks another condition of Tables 3-21 and 3-22 or of R87 is rejected as well.
(DESIGN CHOICE, unsafe; log entry 56.) -/
def readImage (f : List Byte) : Option ShedexImage :=
  if imageHeaderOk f && imageTablesOk f then
    let sections := (List.range (fileNat f 6 2)).map (imageSection f)
    let symbols := (List.range (fileNat f 24 4)).map (imageSymbol f)
    if sections.all ImageSection.formOk && symbols.all (fun y => y.formOk sections.length) then
      some { sections := sections, symbols := symbols, strings := (f.drop (fileNat f 32 8)).take (fileNat f 40 8) }
    else none
  else none

/-- A name of the string table: it ends in a zero byte (R87). -/
def ShedexImage.nameAt (i : ShedexImage) (at_ : Nat) : List Byte := (i.strings.drop at_).takeWhile (fun b => b != 0)

/-- The code sections of an image are placed in the code of an address space (Table 3-22, kind 1). -/
def State.loadCode (s : State) (asid : BitVec 12) (img : ShedexImage) : State :=
  let base := (assocGet asid.toNat s.code).getD []
  let put (m : Memory) (x : ImageSection) : Memory := if x.kind = 1 then Memory.writeN m x.load.toNat x.body else m
  { s with code := assocSet asid.toNat (img.sections.foldl put base) s.code }

/-- The `.ctx` values of an entry procedure, as the loader hands them to the scheduler (R82, R141). -/
def State.loadProc (s : State) (p : ProcInfo) : State := { s with procs := s.procs ++ [p] }

/-- A scratchpad image at its S offset in a tile, where the mapping is linear (kind 2). -/
def State.loadScratch (s : State) (t : TileId) (x : ImageSection) : State :=
  s.modTile t.toNat (fun y => { y with scratch := writeBytes y.scratch linear y.limit x.load x.body })

/-- The i-th element in logical order, c0 fastest; extents are held less one. -/
def logicalCoords (ext : List Nat) (i : Nat) : List Nat :=
  (ext.foldl (fun (acc : List Nat × Nat) e => (acc.1 ++ [acc.2 % (e + 1)], acc.2 / (e + 1))) ([], i)).1

/-- The shoot-downs in progress end, as they do while nothing else runs. -/
def State.settleShoots (s : State) : State :=
  s.mmp.shoots.foldl (fun (st : State) sd =>
    let st1 := st.tiles.foldl (fun (z : State) x => z.modTile x.1 (fun y => y.invalidate sd.asid sd.key)) st
    (((st1.finishShoot sd).dropHint sd.key).modMmp (fun m =>
      { m with shoots := m.shoots.filter (fun x => x.id != sd.id) })).replyShot sd.seq) s

/-- The MMP maps what a value of the image needs. Where no frame is free it evicts one first (R172), and an entry under
shoot-down is waited for: for the loader both end at once. (DESIGN CHOICE, unsafe; log entry 64.) -/
def State.loadNeed (s : State) (asid : BitVec 12) (n : Need) : State :=
  match s.serveNeed asid 0 0 n with
  | (s1, .mapped) => s1
  | (_, .evict pl st) => (((s.startEviction (transferEntries s) pl st).settleShoots).serveNeed asid 0 0 n).1
  | (_, .wait) => (s.settleShoots.serveNeed asid 0 0 n).1
  | (s1, .pin a k) => s1.askPin asid n a k
  | (s1, .refused _) => s1

/-- Bytes stored where a part of an access lies: a frame that is not mapped is first touched. A value whose page the host has
not pinned, that no region takes in, or that lies in another package, is not stored. (DESIGN CHOICE, unsafe; log entry 64.) -/
def State.loadPart (s : State) (asid : BitVec 12) (p : Part) (bs : List Byte) : State :=
  match tableTrans s asid p with
  | .home h _ _ _ => s.placeWrite h bs
  | .none => s
  | .miss n =>
    let s1 := s.loadNeed asid n
    match tableTrans s1 asid p with
    | .home h _ _ _ => s1.placeWrite h bs
    | .miss _ | .none => s1

/-- The values of a kind-3 section: each is stored at the address that ElementAddress gives it (R82, R155). -/
def State.loadTensor (s : State) (asid : BitVec 12) (id : Nat) (body : List Byte) : State :=
  match (tableDesc s asid id).map descOf with
  | none => s
  | some d =>
    (List.range (body.length / d.elemBytes)).foldl (fun (st : State) i =>
      st.loadPart asid (elemPart st.node d id (logicalCoords (swapFirst d.t d.ext) i) 0)
        ((body.drop (i * d.elemBytes)).take d.elemBytes)) s

/-- Capacity data at their C address (kind 4). -/
def State.loadCapacity (s : State) (asid : BitVec 12) (x : ImageSection) : State :=
  (capParts x.load.toNat x.body.length).foldl (fun (st : State) p =>
    st.loadPart asid p ((x.body.drop p.off).take p.len)) s

/-- The tensor ids that symbols give, by symbol index (kind 3's load field). -/
def ShedexImage.tensorId (i : ShedexImage) (j : Nat) : Option Nat :=
  match i.symbols[j]? with
  | some y => if y.kind = 4 then some y.value.toNat else none
  | none => none

/-- The data of an image, once its tensors are defined and its C ranges marked. -/
def State.loadData (s : State) (asid : BitVec 12) (img : ShedexImage) : State :=
  img.sections.foldl (fun (st : State) x =>
    if x.kind = 3 then (match img.tensorId x.load.toNat with
      | some id => st.loadTensor asid id x.body
      | none => st)
    else if x.kind = 4 then st.loadCapacity asid x
    else st) s

/-- The 64-bit words of a section: HQ and WIN words (kind 6), or launch records (kind 9). -/
def ImageSection.words (x : ImageSection) : List Word :=
  (List.range (x.body.length / 8)).map (fun i => BitVec.ofNat 64 (natOfBytes ((x.body.drop (8 * i)).take 8)))

/-- The launch records of an image, 32 words each. -/
def ShedexImage.records (i : ShedexImage) : List (List Word) :=
  (i.sections.filter (fun x => x.kind == 9)).flatMap (fun x =>
    (List.range (x.body.length / 256)).map (fun j => (x.words.drop (32 * j)).take 32))

/-- The matrix routines of an image with their indices, as MPLD reads them: 16 bytes a microword. -/
def ShedexImage.routines (i : ShedexImage) : List (Nat × List (BitVec 128)) :=
  (i.sections.filter (fun x => x.kind == 7)).map (fun x =>
    (x.load.toNat, (List.range (x.body.length / 16)).map (fun j =>
      BitVec.ofNat 128 (natOfBytes ((x.body.drop (16 * j)).take 16)))))

/-- TENSOR_DEFINE for one descriptor of a kind-5 section: word 6 carries the arguments and goes as 0 (Table 3-22). The
tensor id is the value of its symbol (R82). -/
def defineCommand (seq : BitVec 16) (asid : BitVec 12) (id : BitVec 20) (desc : List Byte) : Instr :=
  let w (i : Nat) : Word := BitVec.ofNat 64 (natOfBytes ((desc.drop (8 * i)).take 8))
  let args := w 6
  .tensorDefine seq asid id (Vector.ofFn (fun i : Fin 8 => if i.val = 6 then 0 else w i.val))
    (fld args 0 2) (fld args 2 2) (fld args 4 4) (if args.getLsbD 8 then some (fld args 12 20) else none)

/-- The commands of the loader for the kind-4 and kind-5 sections of an image, in order: CMAP with the 2 MiB pages that the
data need, and TENSOR_DEFINE for each descriptor with the ids of the tensor symbols (R180). -/
def ShedexImage.commands (i : ShedexImage) (seq : BitVec 16) (asid : BitVec 12) : List Instr :=
  let ids := (i.symbols.filter (fun y => y.kind == 4)).map (fun y => (y.value.setWidth 20 : BitVec 20))
  let page : Nat := 2 ^ 21
  let descs := (i.sections.filter (fun x => x.kind == 5)).flatMap (fun x =>
    (List.range (x.body.length / 64)).map (fun j => (x.body.drop (64 * j)).take 64))
  let cmaps := (i.sections.filter (fun x => x.kind == 4)).map (fun x =>
    let lo := x.load.toNat / page * page
    let hi := (x.load.toNat + x.body.length + page - 1) / page * page
    Instr.cmap seq asid (BitVec.ofNat 64 lo) (BitVec.ofNat 64 (hi - lo)))
  cmaps ++ (ids.zip descs).map (fun x => defineCommand seq asid x.1 x.2)

end Sys2Proof.Machine
end

