-- ==== Sys2Proof/Tests/Slice0.lean ====
section
/-! SUPPORT. Tests: words of the spec's encodings, ill-formed operands, single steps whose results the spec works out, and
for each statement with hypotheses concrete states and operands that meet them. -/

open Sys2Proof Sys2Proof.Machine

namespace Sys2Proof.Tests

set_option Elab.async false

/-! ### Helpers -/

/-- Rows of words, long immediates and the instructions that they stand for. -/
def wordsDecode (sp : OpSpace) (rows : List (BitVec 29 × Option (BitVec 24) × Instr)) : Bool :=
  rows.all (fun r => decide (decodeSpace sp r.1 r.2.1 = some r.2.2))

/-- One Issuing context at tile 0, slot 0, with the bundle of these bits before it. -/
def base (w : Nat) : State := State.reset.withFetchWord 256 w

/-- The same with no syllable, at a slot of the bundle. -/
def idle (p : Pos) : State := (base 0).atPos p

def withReg (w : Write) (s : State) : State := s.modMe (fun c => { c with regs := c.regs.write w })

def withScratch (a : Nat) (bs : List Byte) (s : State) : State :=
  s.modHere (fun t => { t with scratch := Memory.writeN t.scratch a bs })

/-- The landings of the context at the cursor, with their distances from its bundle. -/
def landings (o : Host.Outcome State Fault Refusal) : List (Write × Word) :=
  match o with
  | .next t => t.me.landing.map (fun l => (l.write, l.due - t.me.bcnt))
  | .fault _ | .refused _ => []

/-- TCAUSE and TVAL of the context at the cursor. -/
def trapped (o : Host.Outcome State Fault Refusal) : Option (Word × Word) :=
  match o with
  | .next t => some (t.me.special.tcause, t.me.special.tval)
  | .fault _ | .refused _ => none

/-- The state that an outcome leaves. -/
def after (o : Host.Outcome State Fault Refusal) : State :=
  match o with
  | .next t => t
  | .fault _ | .refused _ => State.reset

/-- The outcome is a next state. -/
def completes (o : Host.Outcome State Fault Refusal) : Bool :=
  match o with
  | .next _ => true
  | .fault _ | .refused _ => false

/-! ### Words (Tables 3-8 to 3-15, 4-6, 18-1 to 20-4) -/

theorem test_words_scalar_logic_shifts : wordsDecode .scalar [
    (0, none, .nop),
    (0x0218210, none, .add .x64 3 1 2),
    (0x00410E18, none, .sub .x64 2 7 3),
    (0b0000011_001000_001001_001010_001, none, .and .i32 8 9 10),
    (0b0000100_001000_001001_001010_010, none, .andn .n32 8 9 10),
    (0x00A18210, none, .or .x64 3 1 2),
    (0x0C18210, none, .xor .x64 3 1 2),
    (0x00E20808, none, .shl .x64 4 4 1),
    (0b0001000_001000_001001_001010_100, none, .shr .n16 8 9 10),
    (0b0001001_001000_001001_001010_011, none, .sra .i16 8 9 10),
    (0b0001010_001000_001001_001010_101, none, .rol .i8 8 9 10),
    (0x01640C30, none, .mul .x64 8 6 6)] = true := by decide

theorem test_words_scalar_divides_counts : wordsDecode .scalar [
    (0b0001100_001000_001001_001010_001, none, .mulh .i32 8 9 10),
    (0b0001101_001000_001001_001010_110, none, .mulhn .n8 8 9 10),
    (0x01C20A31, none, .div .i32 4 5 6),
    (0b0001111_001000_001001_001010_010, none, .divn .n32 8 9 10),
    (0x02020A31, none, .rem .i32 4 5 6),
    (0b0010001_001000_001001_001010_100, none, .remn .n16 8 9 10),
    (0x02420A31, none, .max .i32 4 5 6),
    (0b0010011_001000_001001_001010_010, none, .maxn .n32 8 9 10),
    (0b0010100_001000_001001_001010_101, none, .min .i8 8 9 10),
    (0b0010101_001000_001001_001010_000, none, .minn .x64 8 9 10),
    (0x02C10602, none, .clz .n32 2 3),
    (0b0010111_001000_001001_000000_110, none, .ctz .n8 8 9)] = true := by decide

theorem test_words_scalar_immediates : wordsDecode .scalar [
    (0x03010600, none, .popc .x64 2 3),
    (0x03211200, none, .mov .x64 2 9),
    (0x03428439, none, .sel .nz 5 2 7),
    (0x03618212, none, .cmp .lt 3 1 2),
    (0x03828C39, none, .plog .or 5 6 7),
    (0x04020840, none, .addi 4 4 (.short 64)),
    (0b0100001_001000_001001_111111111, none, .andi 8 9 (.short 511)),
    (0x04428A1F, none, .ori 5 5 (.short 0x1F)),
    (0x46209FF, none, .xori 4 4 (.short 0x1FF)),
    (0x048212CA, none, .cmpi .ge 4 9 (.short 10)),
    (0x04A30007, none, .movi 6 (.short 7)),
    (0x04C08205, none, .movhi 1 1 (.short 5))] = true := by decide

theorem test_words_scalar_control_system : wordsDecode .scalar [
    (0x4A48000, (some 0x186A0), .movi 9 (.long 0x186A0)),
    (0b0110000_000000_000000_111111110, none, .br (.short 0x1FE)),
    (0x063F8080, none, .brl 63 (.short 0x80)),
    (0x06407E00, none, .bri 0 63),
    (0x066181FE, none, .loop 3 0x1FE),
    (0b0110100_001001_000011_001010_000, none, .loopmStart 9 10 3),
    (0x06848051, none, .loopmEnd 9 10),
    (0x08018000, none, .mfsr 3 .gtc),
    (0x08200811, none, .mtsr .fstat 4),
    (0x8400003, none, .trap 3),
    (0x08600000, none, .eret),
    (0x08800000, none, .exit)] = true := by decide

theorem test_words_vector_bitwise : wordsDecode .vector [
    (0x02110C0, none, .vand 1 2 3 0),
    (0b00000010_00111_01000_01001_0001_00, none, .vor 7 8 9 1),
    (0b00000011_00111_01000_01001_0001_00, none, .vxor 7 8 9 1),
    (0x08110D0, none, .vsel 1 2 3 4),
    (0x0A21801, none, .vcnt .w16 2 3 0),
    (0x0C32801, none, .vmovs .w16 3 5 0),
    (0x0E43000, none, .vrand 4 6 0),
    (0x0E40040, none, .vrandEnt 4 0),
    (0x10110C0, none, .vshl .w32 1 2 3 0),
    (0b00001001_00111_01000_01001_0001_10, none, .vshr .w8 7 8 9 1),
    (0b00001010_00111_01000_01001_0001_01, none, .vsra .w16 7 8 9 1),
    (0b00001011_00111_01000_00101_0001_10, none, .vshlImm .w8 7 8 5 1),
    (0b00001100_00111_01000_01001_0001_00, none, .vshrImm .w32 7 8 9 1)] = true := by decide

theorem test_words_vector_moves_quires : wordsDecode .vector [
    (0x1A110C1, none, .vsraImm .w16 1 2 3 0),
    (0b00001110_00111_01000_01001_0001_10, none, .vperm .w8 7 8 9 1),
    (0x1E110C1, (some 0x200000), .vpermPattern .w16 1 2 3 0 .ziplo 0),
    (0b00010000_00111_01000_01001_0001_00, none, .vext .w32 7 8 9 1),
    (0x221100C, none, .vcompr 1 2 3),
    (0b00010010_00111_01000_00000_0001_00, none, .vexpd 7 8 1),
    (0x026110E0, none, .mlog 8 1 2 3),
    (0x02850000, none, .qclr 5),
    (0x02A21800, none, .qneg 2 3),
    (0x02C90000, none, .qtest 9 0),
    (0x02E00800, none, .qacc 0 1),
    (0x3A42981, none, .vadd (.tap .w16 1) 4 5 6 0),
    (0b00100000_00111_01000_01001_0001_00, none, .vsub (.int true .w32) 7 8 9 1)] = true := by decide

theorem test_words_vector_lanes : wordsDecode .vector [
    (0b00101001_00111_01000_01001_0001_10, none, .vmul (.int false .w8) 7 8 9 1),
    (0x6442980, none, .vfma .f32 4 5 6 0),
    (0b00111011_00111_01000_01001_0001_10, none, .vfms .e5m2 7 8 9 1),
    (0x8C110D6, none, .vmax (.tap .w8 2) 1 2 3 5),
    (0b01001000_00111_01000_01001_0001_01, none, .vmin (.int true .w16) 7 8 9 1),
    (0b01010100_00111_01000_00000_0001_00, none, .vabs (.tap .w32 0) 7 8 1),
    (0b01011010_00111_01000_00000_0001_01, none, .vneg .bf16 7 8 1),
    (0xC4110C8, none, .vcmp false .lt .f32 1 2 3),
    (0xD011000, none, .vscan (.int true .w32) 1 2 0),
    (0xE232001, none, .vredi (.int false .w16) 3 4 0),
    (0xFA21A01, none, .vcvt false (.tap .w16 1) .f32 2 3 0),
    (0x1B421A02, none, .vcvt true .e4m3 .f32 2 3 0),
    (0x10A21A42, none, .vcvts false (.tap .w8 1) 2 3 9 0)] = true := by decide

theorem test_words_vector_conversions_functions : wordsDecode .vector [
    (0x11433808, none, .qadd .f32 3 7 2),
    (0x12800881, none, .qdot (.tap .w16 0) 0 1 2 0),
    (0x13430000, none, .qrnd false .f32 3 0 0 0),
    (0x13A41241, none, .qrnd false (.tap .w16 1) 4 2 9 0),
    (0b10100010_00111_01000_00000_0001_00, none, .vrcp .f32 7 8 1),
    (0b10101010_00111_01000_00000_0001_01, none, .vrsq .bf16 7 8 1),
    (0b10110100_00111_01000_00000_0001_01, none, .vsqrt (.tap .w16 0) 7 8 1),
    (0x17474001, none, .vexp2 .bf16 7 8 0),
    (0b11000101_00111_01000_00000_0001_01, none, .vlog2 (.tap .w16 1) 7 8 1),
    (0b11001110_00111_01000_00000_0001_01, none, .vtanh (.tap .w16 2) 7 8 1),
    (0b11010111_00111_01000_00000_0001_01, none, .vsigm (.tap .w16 3) 7 8 1)] = true := by decide

theorem test_words_memory_scratchpad : wordsDecode .memory [
    (0x00451002, none, .lds .x64 5 4 (.short 2)),
    (0x00451084, none, .lds .i32 5 4 (.short 4)),
    (0x00851002, none, .sts .x64 5 4 (.short 2)),
    (0x00C21004, none, .vlds 2 4 (.short 4)),
    (0x010210C4, none, .vldsm 2 4 3 (.short 4)),
    (0x01421284, none, .vldsx .i8 false 2 4 (.short 4)),
    (0x018510C0, none, .vgts .w32 5 4 3 0),
    (0x01C610C0, none, .vscs .w32 (.v 6) 4 3 0),
    (0x02021004, none, .vsts (.v 2) 4 (.short 4)),
    (0x02231800, none, .vsts (.h 3) 6 (.short 0)),
    (0x02411002, none, .qsave 1 4 (.short 2)),
    (0x02811002, none, .qrest 1 4 (.short 2))] = true := by decide

theorem test_words_memory_windows_neighbours : wordsDecode .memory [
    (0x04031922, none, .stmc .n32 2 3 6 (.short 2)),
    (0x04431910, none, .vstmc 2 (.v 3) 6 (.short 0x10)),
    (0x04832141, none, .putn .n32 true 3 8 1),
    (0x04C32042, none, .vputn true (.v 3) 8 2),
    (0x05212203, none, .getn .n16 1 8 3),
    (0x05422091, none, .warm 2 8 9 1),
    (0x054A0000, none, .warmOff 2),
    (0x05870000, none, .wtok 7),
    (0x062228B0, none, .ldd 2 10 11),
    (0x064828B0, none, .std 8 10 11),
    (0x06A228B0, none, .vldd 2 10 11),
    (0x06C328B0, none, .vstd (.v 3) 10 11)] = true := by decide

theorem test_words_memory_atomics : wordsDecode .memory [
    (0x070828B4, none, .aadd 8 10 11 (.rel .pkg)),
    (0b011101_001000_001010_001011_1001, none, .acas 8 10 11 (.acq .tile)),
    (0b011110_001000_001010_001011_0000, none, .amaxi 8 10 11 .relaxed),
    (0b011111_001000_001010_001011_0111, none, .amini 8 10 11 (.rel .sys)),
    (0b100000_001000_001010_001011_0011, none, .axch 8 10 11 (.rel .stack)),
    (0b100001_001000_001010_001011_1010, none, .axor 8 10 11 (.acq .region)),
    (0x088228B6, none, .qred 2 10 11 (.rel .pod)),
    (0x08C31804, none, .cadd 3 6 0 (.rel .pkg)),
    (0x0928140F, none, .cwait (.imm 8) 5 0 .sys),
    (0x094728B0, none, .cread 7 10 11 .relaxed),
    (0x09800004, none, .fence .rel .pkg),
    (0x0980000F, none, .fence .acq .sys)] = true := by decide

theorem test_words_memory_counters_flat : wordsDecode .memory [
    (0x09800014, none, .fence .full .pkg),
    (0b101000_100001_000110_001_1111111, none, .ldc .i32 1 6 0x7F),
    (0b101001_000011_000110_010_0000100, none, .stc .n32 3 6 4),
    (0x0AA11810, none, .vldc 1 6 0x10),
    (0x0AC31810, none, .vstc (.v 3) 6 0x10),
    (0b101100_101111_000110_110_0000001, none, .ldh .n8 15 6 1),
    (0b101101_000011_000110_000_0000001, none, .sth .x64 3 6 1),
    (0b101110_100010_000110_1111111111, none, .vldh 2 6 0x3FF),
    (0b101111_100011_000110_0000000001, none, .vsth (.h 3) 6 1)] = true := by decide

theorem test_words_extended_engines : wordsDecode .extended [
    (0x008AA880, none, .mcall 85 (.rel .tile)),
    (0x01000000, none, .mclaim),
    (0x01800000, none, .mfree),
    (0x02008000, none, .mpar 0 (.reg 4)),
    (0x02A58100, none, .mpld 300 2),
    (0x04040000, none, .gload 2),
    (0x04862900, none, .grun false .f32 3 5 .none),
    (0x04862901, none, .grun false .f32 3 5 (.rel .tile)),
    (0x08188000, none, .xcpy 1 12),
    (0x08980000, none, .xcpyt 0 12),
    (0x09128000, none, .xprom 9 1),
    (0x09928000, none, .xwmk 9 1),
    (0x0A180000, none, .sleept 12),
    (0x0C0C2000, none, .hcfg 3 (.reg 4))] = true := by decide

theorem test_words_extended_scans_scheduler : wordsDecode .extended [
    (0x0C4A3002, none, .hcfg 18 (.mem 6 (.short 2))),
    (0x0C985000, none, .hpush 3 (.v 5)),
    (0x0D147000, none, .hpop 2 (.s 7)),
    (0x10110C80, none, .scan .f32 4 6 1 false 0 false false),
    (0x10844110, none, .scana .f32 1 2 2 0 true 0),
    (0x11200000, none, .sbar 2),
    (0x14068000, none, .rsig .hi 3),
    (0x148E0000, none, .rvote 7),
    (0x15082800, none, .rinj 4 5),
    (0x180A2200, none, .launch 5 4 1),
    (0x188C2800, none, .cancel 6 5),
    (0x19000000, none, .yield),
    (0x19800005, none, .sys 5)] = true := by decide


/-- The bundle of Table 3-19, from its bytes. -/
theorem test_example_bundle :
    ((Bundle.ofBytes ([0x12, 0, 0, 0, 0xa0, 0x86, 0x01, 0x02, 0x05, 0x08, 0xc1, 0x10, 0, 0, 0, 0, 0, 0, 0x40, 0x52, 0x0a, 0x4c
        , 0x21, 0x1d, 0, 0, 0, 0, 0, 0, 0, 0].map (BitVec.ofNat 8))).decode false).toOption
      = some [(.sa, .add .x64 3 1 2), (.sb, .movi 9 (.long 100000)), (.vb, .vadd (.tap .w16 1) 4 5 6 0)] := by decide

/-- The guards and the POP bits of that bundle. -/
theorem test_example_bundle_header :
    let b : Bundle := { w0 := 0x020186A000000012, w1 := 0x10C10805, w2 := 0x1D214C0A52400000, w3 := 0 }
    b.guard .sa = 5 ∧ b.guard .va = 5 ∧ b.guard .sb = 0 ∧ b.pop = 0x12 ∧ b.lsel = 2 ∧ b.limm = 100000 := by decide

/-! ### Ill-formed operands, one for each check -/

theorem test_wf_type_codes :
    (Instr.mulh .n32 1 2 3).wf = false ∧ (Instr.div .n8 1 2 3).wf = false ∧ (Instr.rem .n16 1 2 3).wf = false
    ∧ (Instr.max .n32 1 2 3).wf = false ∧ (Instr.min .n8 1 2 3).wf = false ∧ (Instr.mulhn .i32 1 2 3).wf = false
    ∧ (Instr.divn .i8 1 2 3).wf = false ∧ (Instr.remn .i16 1 2 3).wf = false ∧ (Instr.maxn .i32 1 2 3).wf = false
    ∧ (Instr.minn .i8 1 2 3).wf = false ∧ (Instr.clz .i32 1 2).wf = false ∧ (Instr.ctz .i16 1 2).wf = false
    ∧ (Instr.popc .i8 1 2).wf = false := by decide

theorem test_wf_control :
    (Instr.loop 0 4).wf = false ∧ (Instr.loopmStart 1 0 2).wf = false ∧ (Instr.loopmStart 1 55 2).wf = false
    ∧ (Instr.loopmEnd 1 63).wf = false ∧ (Instr.mtsr .gtc 1).wf = false ∧ (Instr.mtsr .ebud 1).wf = false := by decide

theorem test_wf_lanes :
    (Instr.vshlImm .w16 1 2 16 0).wf = false ∧ (Instr.vshrImm .w8 1 2 8 0).wf = false
    ∧ (Instr.vsraImm .w16 1 2 31 0).wf = false ∧ (Instr.vpermPattern .w32 1 2 0 0 .bcast 64).wf = false
    ∧ (Instr.vpermPattern .w32 1 2 0 0 .rev 0).wf = false ∧ (Instr.vpermPattern .w32 1 2 0 0 .rev 7).wf = false
    ∧ (Instr.vpermPattern .w32 1 2 0 0 .swap 6).wf = false ∧ (Instr.vpermPattern .w32 1 2 3 0 .swap 1).wf = false
    ∧ (Instr.vpermPattern .w8 1 2 3 0 .ziplo 1).wf = false := by decide

theorem test_wf_formats :
    (Instr.vadd (.tap .w32 3) 1 2 3 0).wf = false ∧ (Instr.vmax (.tap .w32 3) 1 2 3 0).wf = false
    ∧ (Instr.vfma (.int true .w32) 1 2 3 0).wf = false ∧ (Instr.vabs (.int false .w32) 1 2 0).wf = false
    ∧ (Instr.vneg (.tap .w32 3) 1 2 0).wf = false ∧ (Instr.vcmp true .lt .f32 1 2 3).wf = false
    ∧ (Instr.vscan (.tap .w32 3) 1 2 0).wf = false ∧ (Instr.vredi .f32 1 2 0).wf = false
    ∧ (Instr.vcvt true (.tap .w32 3) .f32 1 2 0).wf = false ∧ (Instr.vcvt true .f32 (.tap .w32 3) 1 2 0).wf = false
    ∧ (Instr.vcvts true .f32 1 2 3 0).wf = false ∧ (Instr.qadd (.int true .w8) 1 2 0).wf = false
    ∧ (Instr.qdot .f32 1 2 3 0).wf = false ∧ (Instr.qrnd true (.int true .w32) 1 2 3 0).wf = false
    ∧ (Instr.vexp2 (.tap .w8 0) 1 2 0).wf = false ∧ (Instr.vrcp .e4m3 1 2 0).wf = false := by decide

theorem test_wf_memory :
    (Instr.vldsx .i16 true 1 2 (.short 0)).wf = false ∧ (Instr.vldsx .i32 false 1 2 (.short 0)).wf = false
    ∧ (Instr.vgts .w8 1 2 3 0).wf = false ∧ (Instr.vscs .w8 (.v 1) 2 3 0).wf = false
    ∧ (Instr.putn .x64 true 1 63 0).wf = false ∧ (Instr.vputn true (.v 1) 63 0).wf = false
    ∧ (Instr.acas 63 1 2 .relaxed).wf = false ∧ (Instr.qred 1 2 3 (.acq .pkg)).wf = false
    ∧ (Instr.cread 1 2 3 (.rel .pkg)).wf = false := by decide

theorem test_wf_engines :
    (Instr.mpld 255 1).wf = false ∧ (Instr.grun true (.int true .w32) 1 2 .none).wf = false
    ∧ (Instr.scan (.int true .w32) 1 0 0 false 0 false false).wf = false ∧ (Instr.hcfg 24 (.reg 1)).wf = false := by decide

/-- An operand that the entry does not give is ILLEGAL_OP: a refusal of the instruction, not of the model. -/
theorem test_illegal_operand_traps :
    (trapped (exec (.loop 0 4) (idle .sa))).map Prod.fst = some (TrapName.illegalOp.code.setWidth 64) := by decide

/-! ### Single steps: the worked examples of the spec -/

/-- Section 18, call and return: BRL links PC + 96 and goes 128 bundles on. -/
theorem test_brl_links :
    landings (exec (.brl 63 (.short 128)) (idle .sa)) = [(.s 63 0x1060, 1)]
    ∧ (after (exec (.brl 63 (.short 128)) (idle .sa))).me.deferred = [.branch 0x2000] := by decide

/-- R360: mov.i8 sign-extends the low byte. -/
theorem test_mov_i8 : landings (exec (.mov .i8 7 1) (idle .sb |> withReg (.s 1 0x1280))) = [(.s 7 (-128), 1)] := by decide

/-- Section 19: the 64-bit constant of MOVHI. -/
theorem test_movhi :
    landings (exec (.movhi 1 1 (.long 0xabcdef)) (idle .sa |> withReg (.s 1 0x123456789))) = [(.s 1 0x0123456789abcdef, 1)] := by
  decide

/-- Table 4-4: LDS of 1,000 lands at 4, MUL of 7 by 7 at 3. -/
theorem test_lds_mul :
    landings (exec (.lds .x64 5 4 (.short 2)) (idle .ma |> withScratch 0x2010 (bytesOfNat 8 1000) |> withReg (.s 4 0x2000)))
      = [(.s 5 1000, 4)]
    ∧ landings (exec (.mul .x64 8 6 6) (idle .sa |> withReg (.s 6 7))) = [(.s 8 49, 3)] := by decide

/-- Table 4-4: an ADD in the bundle of a pending LDS reads the old value. -/
theorem test_early_read :
    landings (exec (.add .x64 9 5 0) (after (exec (.lds .x64 5 4 (.short 2)) (idle .sa |> withReg (.s 5 3))))) |>.getLast?
      |> (· = some (.s 9 3, 1)) := by decide

/-- R338: a quotient of −7 by 2 truncates toward zero; a zero divisor raises DIV_ZERO (code 0x0C with the slot as TVAL). -/
theorem test_div :
    landings (exec (.div .x64 3 1 2) (idle .sb |> withReg (.s 1 (-7)) |> withReg (.s 2 2))) = [(.s 3 (-3), 18)]
    ∧ trapped (exec (.div .x64 3 1 2) (idle .sb)) = some (TrapName.divZero.code.setWidth 64, 2) := by decide

/-- R338: the most negative number by −1 wraps to itself. -/
theorem test_div_most_negative :
    landings (exec (.div .i8 3 1 2) (idle .sa |> withReg (.s 1 0x80) |> withReg (.s 2 0xFF))) = [(.s 3 (-128), 18)] := by decide

theorem test_mulh : landings (exec (.mulhn .x64 3 1 2) (idle .sa |> withReg (.s 1 (-1)) |> withReg (.s 2 (-1)))) = [(.s 3 (-2), 3)] := by
  decide

/-- Section 5: T8 with es 1. -/
theorem test_t8_decode :
    (match decodeFmt (.tap .w8 1) 0x5B with
      | .fin d => decide (d.m * 2 ^ (d.e + 40).toNat = 27 * 2 ^ 37)
      | _ => false) = true
    ∧ laneNeg (.tap .w8 1) 0x5B = 0xA5 := by decide

/-- Section 5: 3.3125 to T8 es 1 is a tie: 0x5A to nearest even, and by the random number either 0x5A or 0x5B. -/
theorem test_tie_under_both_modes :
    convert 0x40540000 .f32 (.tap .w8 1) false .nearest = (0x5A, flInx)
    ∧ convert 0x40540000 .f32 (.tap .w8 1) false (.stochastic 0x7FFFFFFF) = (0x5A, flInx)
    ∧ convert 0x40540000 .f32 (.tap .w8 1) false (.stochastic 0x80000000) = (0x5B, flInx) := by decide

/-- Section 5: three E5M2 values. -/
theorem test_e5m2_conversions :
    convert 0xFC .e5m2 .e4m3 false .nearest = (0xFF, flOvf) ∧ convert 0xFC .e5m2 .e4m3 true .nearest = (0xFE, flOvf ||| flClmp)
    ∧ convert 0xFC .e5m2 (.tap .w16 1) false .nearest = (0x8000, flInv ||| flNar)
    ∧ convert 0x7B .e5m2 .e4m3 false .nearest = (0x7F, flOvf) ∧ convert 0x7B .e5m2 .e4m3 true .nearest = (0x7E, flOvf ||| flClmp)
    ∧ convert 0x7B .e5m2 (.tap .w8 1) false .nearest = (0x7F, flClmp ||| flInx) := by decide

/-- Section 20: one narrowing conversion with every flag that it can set. -/
theorem test_vcvt_flags :
    let s := idle .va |> withReg (.v 3 (BitVec.ofNat 2048 (0x43FA0000 + 0x3E99999A * 2 ^ 32 + 0x80000000 * 2 ^ 64 + 0x3A800000 * 2 ^ 96)))
    (after (exec (.vcvt true .e4m3 .f32 2 3 0) s)).me.landing.map (fun l => (l.write, l.due, l.flags))
      = [(.v 2 0x00802A7E, 3, flInx ||| flOvf ||| flClmp ||| flUnf)] := by decide +kernel

/-- Section 5: 5,000 and 10^-9 in T8 es 1 saturate and do not reach zero. -/
theorem test_t8_limits :
    (roundT (.tap .w8 1) .nearest { m := 5000, e := 0 }).1 = 0x7F ∧ (roundT (.tap .w8 1) .nearest { m := 1, e := -30 }).1 = 0x01 := by
  decide

/-- Section 14: the signature of one held store with key x. -/
theorem test_signature :
    [0x3070000000000005, 0x0000000000460082, 0x2A].foldl (foldWord 2) 0 = 0x00000000000000018380000001180274 := by decide +kernel

/-- Section 13: a pair of the scan combines 1 + 1 before it meets 2^24. -/
theorem test_scan_association :
    let x0 := (0x3F800000, 0)
    let x1 := (0x3F800000, 0x4B800000)
    let x2 := (0x3F800000, 0x3F800000)
    (combinePair .f32 (combinePair .f32 x0 x1).1 (combinePair .f32 x2 x2).1).1.2 = 0x4B800001 := by decide

/-- Section 7: element (130, 70) of tensor 5, its entry and its byte; through the transposed view too; (1000, 0) is OUTSIDE. -/
theorem test_layout :
    let d : Desc := descOf #v[0x8000000000000000 ||| (1 : Word) <<< 56 ||| (17 : Word) <<< 51, 999 ||| 599 <<< 16, 6 ||| 6 <<< 4, 0, 0, 160, 0, 0]
    d.place [130, 70, 0, 0] = some (18, 0x304) := by decide

/-- Section 7: the home of PA 0x1A37_0304 is NW. -/
theorem test_interleave : interleave 0x1A370304 = 0 := by decide

/-- Section 7: the window word of a 64-tile multicast. -/
theorem test_window_word :
    let w : Word := 0x800738180200007F
    winX0 w = 0 ∧ winY0 w = 0 ∧ winWm1 w = 7 ∧ winHm1 w = 7 ∧ winLat w = 24 ∧ winBase w = 0x4000 ∧ winRange w = 4096
    ∧ windowWordOk w (4 + 32 * 4) = true := by decide

/-- Section 1: from tile (3, 5) to tile (20, 27), and to the IOD. -/
theorem test_hops : hopLatency (3 + 32 * 5) (20 + 32 * 27) = 90 ∧ iodLatency (20 + 32 * 27) = 20 := by decide

/-- Section 20: three tokens of one word coalesce. -/
theorem test_token_word : Token.word { uid := 1, cmp := 0, cls := 0, off := 0x40010, count := 3, at_ := 0 } false = 0x0004001000000003 := by
  decide

/-- R302: SYS takes its exception; the saved PC is its own bundle, and the handler runs in supervisor mode. -/
theorem test_sys :
    let t := after (exec (.sys 7) (idle .xa))
    t.me.special.epc = 0x1000 ∧ t.me.special.tval = 7 ∧ t.me.sup = true ∧ t.me.pc = 0x1000 := by decide

/-- R406: a misaligned load raises ALIGN with the address. -/
theorem test_align : trapped (exec (.lds .x64 5 4 (.short 0)) (idle .ma |> withReg (.s 4 0x2001)))
    = some (TrapName.align.code.setWidth 64, 0x2001) := by decide

/-- R357: an MTSR to a supervisor register is PRIV in user mode. -/
theorem test_priv : (trapped (exec (.mtsr .tvec 1) (idle .sa))).map Prod.fst = some (TrapName.priv.code.setWidth 64) := by decide

/-- A whole step: the fetched ADD issues, and the PC is at the next bundle. -/
theorem test_step_add :
    let t := after (step (base (0x0218210 * 2 ^ 71) |> withReg (.s 1 5) |> withReg (.s 2 7)))
    t.me.pc = 0x1020 ∧ t.me.bcnt = 1 ∧ t.me.landing.map (fun l => (l.write, l.due)) = [(.s 3 12, 1)] := by decide +kernel

/-! ### States and operands that meet the hypotheses of the statements -/

theorem witness_StepRunsTheDecodedInstruction :
    let s := base (0x0218210 * 2 ^ 71)
    let s1 := s.atTurn 0 0
    (s.takesTurn 0 0 ∧ s.presents 0 0) ∧ meaningOf (.add .x64 3 1 2) = some (addMeaning .x64 3 1 2)
    ∧ s1.fetch.decodeAt .sa = .ok (.add .x64 3 1 2) ∧ guardOn s1.me (s1.fetch.guard .sa) = true
    ∧ (∀ q, q ≠ .sa → s1.fetch.decodeAt q = .empty) ∧ s1.fetch.pop = 0 ∧ s1.fetch.stamp = 0 := by
  refine ⟨?_, rfl, ?_, ?_, ?_, ?_, ?_⟩
  · simp only [State.takesTurn, State.presents, State.reachesChecks]; decide +kernel
  · decide +kernel
  · decide +kernel
  · intro q h; cases q <;> first | exact absurd rfl h | decide +kernel
  · decide +kernel
  · decide +kernel

theorem witness_StepPresentsTheBundle : (base 0).takesTurn 0 0 ∧ (base 0).presents 0 0 := by
  simp only [State.takesTurn, State.presents, State.reachesChecks]; decide +kernel

theorem witness_BundleEndAdvances :
    let c := (base 0).me
    c.deferred = [] ∧ ∀ r ∈ c.redirects, r.due ≠ c.bcnt + 1 := by decide +kernel

theorem witness_ReservedHeaderBitsTrap_hk :
    let s := base (2 ^ 62)
    (s.takesTurn 0 0 ∧ s.reachesChecks 0 0) ∧ fld (s.atTurn 0 0).fetch.w0 62 2 ≠ 0 := by
  simp only [State.takesTurn, State.reachesChecks]; decide +kernel

theorem witness_ReservedHeaderBitsTrap_bit59 :
    let s := base (2 ^ 59)
    (s.takesTurn 0 0 ∧ s.reachesChecks 0 0) ∧ (s.atTurn 0 0).fetch.w0.getLsbD 59 = true := by
  simp only [State.takesTurn, State.reachesChecks]; decide +kernel

theorem witness_BundleChecksTrap_operand :
    meaningOf (.loop 0 4) = some (loopMeaning 0 4) ∧ (Instr.loop 0 4).wf = false := ⟨rfl, by decide⟩

theorem witness_BundleChecksTrap_slot :
    meaningOf .exit = some exitMeaning ∧ Instr.exit.wf = true ∧ exitMeaning.illegal (idle .sb) = false
    ∧ slotOk .exit (idle .sb).cur.pos = false := ⟨rfl, by decide, rfl, by decide⟩

/-- A POP bit of queue 15, and of queue 0, which the context has not configured. -/
theorem witness_BundleChecksTrap_pop :
    (let s := base (2 ^ 15)
     let s1 := s.atTurn 0 0
     (s.takesTurn 0 0 ∧ s.reachesChecks 0 0) ∧ s1.fetch.headerOk s1.me.det = true ∧ s1.fetch.pop.getLsbD 15 = true
      ∧ (s1.me.queue 15).configured = false
      ∧ ∀ r : HReg, r.toNat < 15 → s1.fetch.pop.getLsbD r.toNat = true → (s1.me.queue r).configured = true)
    ∧ (let s1 := (base 1).atTurn 0 0
       s1.fetch.pop.getLsbD 0 = true ∧ (s1.me.queue 0).configured = false) := by
  simp only [State.takesTurn, State.reachesChecks]; decide +kernel

/-- Code point 0x50 of the scalar map is illegal; EXIT stands in SB. -/
theorem witness_BundleChecksTrap_syllables :
    (let s := base (0xA000000 * 2 ^ 71)
     let s1 := s.atTurn 0 0
     (s.takesTurn 0 0 ∧ s.reachesChecks 0 0) ∧ s1.fetch.headerOk s1.me.det = true ∧ s1.fetch.pop = 0
      ∧ s1.fetch.decodeAt .sa = .illegalOp)
    ∧ (let s1 := (base (0x08800000 * 2 ^ 135)).atTurn 0 0
       s1.fetch.headerOk s1.me.det = true ∧ s1.fetch.pop = 0 ∧ s1.fetch.decodeAt .sa = .empty
        ∧ s1.fetch.decodeAt .sb = .slotMismatch .exit ∧ exitMeaning.illegal (s1.atPos .sb) = false) := by
  simp only [State.takesTurn, State.reachesChecks]; decide +kernel

theorem witness_OnlyAbsentMemoryStops : meaningOf .nop = some nopMeaning := rfl

theorem witness_StepKeepsMemoriesCanonical :
    (base 0).memoriesCanonical = true ∧ completes (step (base 0)) = true := by decide +kernel

theorem witness_DecodeOfEncode :
    (Instr.vpermPattern .w8 31 1 2 15 .shift 255).wf = true
    ∧ meaningOf (.vpermPattern .w8 31 1 2 15 .shift 255) = some (vpermPatternMeaning .w8 31 1 2 15 .shift 255) := ⟨by decide, rfl⟩

theorem witness_EncodeOfDecode :
    (0x4A48000 : BitVec 29).getLsbD 28 = false ∧ decodeSpace .scalar 0x4A48000 none = some (.movi 9 (.short 0))
    ∧ decodeSpace .vector 0x17474001 none = some (.vexp2 .bf16 7 8 0) := by decide

theorem witness_ProductsLand : TypeCode.signedOk .i8 = true ∧ TypeCode.unsignedOk .n8 = true := by decide

theorem witness_PicksAndCountsLand :
    TypeCode.signedOk .i16 = true ∧ TypeCode.unsignedOk .n16 = true ∧ TypeCode.signedOk .x64 = true
    ∧ TypeCode.unsignedOk .x64 = true := by decide

theorem witness_DividesAndLoopsAct_divides :
    let s := idle .sa |> withReg (.s 2 1)
    let t := after (exec (.div .x64 3 1 2) s)
    ¬ ((s.here.dividers[(dividerOf s.cur.pos).val]'(dividerOf s.cur.pos).isLt).2 ≠ s.me.uid
        ∧ s.gtc.toNat < (s.here.dividers[(dividerOf s.cur.pos).val]'(dividerOf s.cur.pos).isLt).1)
    ∧ dividerSpan s.me s.cur.pos = none ∧ TypeCode.low .x64 (s.me.sreg 2) ≠ 0 ∧ TypeCode.low .x64 (s.me.sreg 1) = 0
    ∧ TypeCode.signedOk .x64 = true ∧ TypeCode.unsignedOk .x64 = true
    ∧ ¬ ((t.here.dividers[(dividerOf t.cur.pos).val]'(dividerOf t.cur.pos).isLt).2 ≠ t.me.uid
        ∧ t.gtc.toNat < (t.here.dividers[(dividerOf t.cur.pos).val]'(dividerOf t.cur.pos).isLt).1)
    ∧ dividerSpan t.me t.cur.pos = some 0 := by decide +kernel

theorem witness_BranchesRedirect :
    let s := idle .sa |> withReg (.s 1 0xFFFFFFFFFFFFFFE0) |> withReg (.s 2 31)
    let c : Context := { s.me with redirects := [{ due := 1, target := 64 }] }
    s.cur.pos = .sa ∧ (s.me.sreg 1).toNat % 32 = 0 ∧ (s.me.sreg 2).toNat % 32 ≠ 0
    ∧ c.redirects.find? (fun r => r.due == c.bcnt + 1) = some { due := 1, target := 64 } := by decide

/-- Counts of 1 and of 4,096 by 4,096 by 4,096; a count of 0; an active loop. -/
theorem witness_DividesAndLoopsAct_loops :
    let s := idle .sa
    s.cur.pos = .sa ∧ loopmPredOk 1 = true ∧ loopmPredOk 54 = true ∧ s.me.loops.length < 2
    ∧ (let v : Word := 1 + 1 <<< 16 + 1 <<< 32
       let l := loopCounts v
       l.m ≠ 0 ∧ l.n ≠ 0 ∧ l.k ≠ 0 ∧ v >>> 51 = 0)
    ∧ (loopCounts 0).m = 0
    ∧ (let l : LoopState := { top := 0, m := 1, n := 1, k := 1, depth := 1, i := 0 }
       ({ s.me with loops := [l] } : Context).loops = [l]) ∧ s.me.loops = [] := by decide

theorem witness_SpecialRegistersMove :
    let s := idle .sa
    s.me.plain = true ∧ s.me.det = false ∧ s.me.sup = false ∧ ({ s.me with sup := true } : Context).sup = true
    ∧ SpecReg.readOnly .fstat = false ∧ SpecReg.supervisorOnly .fstat = false ∧ SpecReg.fstat ≠ .lreq ∧ SpecReg.fstat ≠ .xreq
    ∧ SpecReg.readOnly .tvec = false ∧ SpecReg.supervisorOnly .tvec = true ∧ SpecReg.readOnly .gtc = true := by decide

/-- A trap in user mode and in supervisor mode; and a handler that has issued bundles before its ERET. -/
theorem witness_TrapEntryAndReturn :
    let s := idle .sa
    let c : Context := { s.me with landing := [Landing.ready (.s 1 5) 4 0 .sa], bcnt := 2 }
    let h : Context := { c.enterTrap { name := .sys, tval := 0 } false with bcnt := 9 }
    (({ name := .sys, tval := 0 } : Trap).name ≠ .memData) ∧ s.me.sup = false
    ∧ (s.modMe (fun c => { c with sup := true })).me.sup = true
    ∧ c.sup = false ∧ h.shadow = (c.enterTrap { name := .sys, tval := 0 } false).shadow ∧ h.landing = [] := by decide

theorem witness_SystemInstructionsAct :
    let s := idle .sa
    let c := s.me
    s.cur.pos = .sa ∧ s.me.sup = false ∧ (s.modMe (fun c => { c with sup := true })).me.sup = true
    ∧ s.me.sreg 0 ≤ s.gtc ∧ s.gtc < (withReg (.s 1 1) s).me.sreg 1
    ∧ ({ c with deferred := [.exit] } : Context).deferred = [.exit] ∧ ({ c with deferred := [.yield] } : Context).deferred = [.yield]
    ∧ ({ c with deferred := [.eret] } : Context).deferred = [.eret] := by decide

theorem witness_RegistersReadAsWritten :
    (Write.s 63 1 = .s 63 1 ∧ (62 : SReg) ≠ 63) ∧ (∀ i j, Write.p 1 true ≠ .s i j) ∧ (∀ i j, Write.s 1 0 ≠ .p i j)
    ∧ (∀ i j, Write.s 1 0 ≠ .v i j) ∧ (∀ i j, Write.s 1 0 ≠ .m i j) ∧ (∀ i j, Write.s 1 0 ≠ .q i j)
    ∧ (0 : PReg) ≠ 1 ∧ (0 : VReg) ≠ 31 ∧ (0 : MReg) ≠ 15 ∧ (0 : QReg) ≠ 15 := by
  refine ⟨by decide, ?_, ?_, ?_, ?_, ?_, by decide, by decide, by decide, by decide⟩ <;> intro i j h <;> cases h

theorem witness_BitwiseLanesLand : (idle .va).me.plain = true := by decide

theorem witness_LaneShiftsLand : (31 : BitVec 5).toNat < LaneW.bits .w32 ∧ LaneW.bits .w16 ≤ (16 : BitVec 5).toNat := by decide

theorem witness_LanesMove :
    PermKind.paramOk .bcast .w32 63 = true ∧ PermKind.paramOk .rev .w32 6 = true ∧ PermKind.paramOk .ziplo .w8 0 = true
    ∧ PermKind.paramOk .ziphi .w8 0 = true ∧ PermKind.paramOk .even .w16 0 = true ∧ PermKind.paramOk .odd .w16 0 = true
    ∧ PermKind.paramOk .shift .w8 255 = true ∧ PermKind.paramOk .swap .w32 5 = true ∧ PermKind.usesB .shift = true
    ∧ (PermKind.usesB .bcast = true ∨ (0 : VReg) = 0) := by decide

theorem witness_LaneArithmeticLands :
    Fmt.legal (.int true .w8) = true ∧ Fmt.isInt (.int true .w8) = true ∧ Fmt.legal (.tap .w16 3) = true
    ∧ Fmt.isFloat (.tap .w16 3) = true := by decide

theorem witness_LaneChoicesAndReductionsLand :
    Fmt.legal .e5m2 = true ∧ Fmt.isSigned .e5m2 = true ∧ Fmt.isInt .e5m2 = false ∧ ¬ (true = true ∧ Fmt.width .e5m2 = .w32)
    ∧ Fmt.legal (.int false .w16) = true ∧ Fmt.isInt (.int false .w16) = true ∧ (idle .vb).cur.pos = .vb
    ∧ (idle .va).cur.pos = .va := by decide

theorem witness_ConversionsAndFunctionsLand :
    Fmt.legal .e4m3 = true ∧ Fmt.legal .f32 = true ∧ Fmt.isNarrow .bf16 = true ∧ Fmt.isTransc .bf16 = true
    ∧ (idle .vb).cur.pos = .vb := by decide

theorem witness_QuiresAccumulate :
    let s := idle .va
    let t := (after (exec (.qacc 1 2) s)).atPos .vb
    pendingElsewhere s.me 1 s.cur.pos = false ∧ pendingElsewhere t.me 1 t.cur.pos = true ∧ Fmt.isFloat .f32 = true
    ∧ Fmt.isProduct .bf16 = true := by decide +kernel

/-- A tensor of 100 elements of 64 signed bits, in tiles of 32 (Table 7-8). -/
def exampleTensor : Vector Word 8 :=
  #v[0x8000000000000000 ||| (3 : Word) <<< 51, 99, 5, 0, 0, 4, 0, 0]

/-- The address space of the context has that tensor with every permission, a C range and a host window of one page, and
the first tile, the first C page and the window are mapped and cached in tile 0. -/
def mapped : State :=
  let s1 := after (exec (.asidCreate 1 false 16) (idle .ma))
  let s2 := after (exec (.tensorDefine 2 1 1 exampleTensor 0 0 15 none) s1)
  let s3 := after (exec (.cmap 3 1 0 0x200000) s2)
  let s4 := after (exec (.hwinAdd 4 1 0x10000 1 15) s3)
  let s5 := (s4.serveNeed 1 0 0 (.tile 1 0)).1
  let s6 := (s5.serveNeed 1 0 0 (.page 0)).1
  let s7 := s6.writePin { req := 1, asid := 1, need := .window 0x10000 } 0x7000
  [Need.desc 1, .tile 1 0, .page 0, .window 0x10000].foldl (fun s n => s.fillNeed 0 1 n) s7

/-- Channel 1 copies 64 bytes from S offset 0x100 to S offset 0x40 and posts to a counter in S at 0x200. -/
def exampleCmd : XCmd :=
  { cid := 7, ch := 1, slot := 0, uid := 1, asid := 1, tiled := false
    words := #v[0, 0, 0x100, 0, 0x40, 0, 0x200, 64]
    recOff := 0x400, keys := 0, spmode := 0, accepted := 0, promise := 1000, missed := false, earlier := [], after := []
    key := 0 }

def withCmd (s : State) : State := s.modHere (fun t => { t with buffer := [exampleCmd] })

/-- A queue with elements of a size code, of which n are held and complete. -/
def withQueue (q : HReg) (esz : Word) (n : Nat) (s : State) : State :=
  { s with gtc := 5 }.modMe (fun c => c.setQueue q
    { word := 0x8000000000000000 ||| esz <<< 61 ||| (0x1000 : Word) <<< 32, prod := BitVec.ofNat 16 n, cons := 0
      held := List.replicate n { complete := 0, poison := none }, resv := [], latch := 0, latched := decide (n ≠ 0) })


theorem witness_CoreAccessesReadAndWrite :
    0 < 1 ∧ 2 ^ 21 - 1 < 2 ^ 21 ∧ (List.replicate 8 (1 : Byte)).length ≤ 2 ^ 21 ∧ 0 < (idle .ma).here.limit := by decide +kernel

theorem witness_CoreLoadsAndStoresAct :
    let s := idle .ma |> withReg (.s 1 0x40) |> withReg (.s 2 0x41)
    let at1 := effAddr s.me 1 (.short (0 : BitVec 7)) 8
    s.watermarkBlock at1 8 = none ∧ at1.toNat % 8 = 0 ∧ (effAddr s.me 2 (.short (0 : BitVec 7)) 8).toNat % 8 ≠ 0
    ∧ (withCmd s).watermarkBlock at1 8 ≠ none ∧ (Instr.vldsx .i8 true 1 2 (.short 0)).wf = true
    ∧ (Instr.vldsx .n16 false 1 2 (.short 0)).wf = true ∧ s.sourceReady (.v 1) = true
    ∧ (withQueue 3 2 1 s).sourceReady (.h 3) = true := by decide +kernel

theorem witness_CoreAccessesReadAndWrite_indexed :
    let s := idle .ma |> withReg (.s 2 1)
    let c := s.me
    let own := activeOffsets (activeLanes .w32 (c.mreg 0)) (fun i => effAddr c 1 (.short (0 : BitVec 6)) 16 + BitVec.ofNat 64 (4 * i))
    let ls := indexedLanes c .w32 1 0 0
    lanesBlock s 4 own = none ∧ (effAddr c 1 (.short (0 : BitVec 6)) 16).toNat % 16 = 0 ∧ LaneW.w32 ≠ .w8
    ∧ lanesBlock s (LaneW.bytes .w32) ls = none ∧ indexedCheck s .w32 1 ls = none ∧ s.sourceReady (.v 1) = true
    ∧ lanesBlock s (LaneW.bytes .w32) (indexedLanes c .w32 2 0 0) = none ∧ (c.sreg 2).toNat % LaneW.bytes .w32 ≠ 0 := by
  decide +kernel

theorem witness_WindowAndNeighbourStoresLeave :
    let s := idle .ma
    let t := s.modMe (fun c => { c with windows := c.windows.set 1 0x800738180200007F })
    s.me.holds = false ∧ (effAddr s.me 1 (.short (0 : BitVec 4)) 8).toNat % 8 = 0 ∧ (t.me.window 1).msb = true
    ∧ (s.me.window 1).msb = false ∧ s.sourceReady (.v 1) = true ∧ (1 : SReg) ≠ 63
    ∧ (effAddr s.me 1 (.short (0 : BitVec 7)) 16).toNat % 16 = 0
    ∧ putnCheck s.me true 1 (nOff (s.me.sreg 1) (0 : BitVec 6) 8) 8 = none
    ∧ putnCheck s.me true 1 (nOff (s.me.sreg 1) (0 : BitVec 6) 16) 16 = none := by decide +kernel

/-- An element, a vector, C and H, each with every permission; a full queue and one that is not configured. -/
theorem witness_QueueLoadsReserve :
    let s := withQueue 2 2 0 mapped
    let el : Target := .tensor 1 0 .elem
    s.me.plain = true ∧ s.queueRoom 2 = true ∧ (s.me.queue 2).elemBytes = 256
    ∧ (s.translated el 0b1000 ∧ s.translated (.tensor 1 0 .vector) 0b1000 ∧ s.translated (.cap 0 8) 0b1000
      ∧ s.translated (.cap 16 256) 0b1000 ∧ s.translated (.host 0x10000 8) 0b1000 ∧ s.translated (.host 0x10000 256) 0b1000)
    ∧ (s.me.queue 3).configured = false ∧ (s.me.queue 3).full = false ∧ el.needs s 0 s.me.asid = []
    ∧ ((withQueue 2 2 1 mapped).me.queue 2).full = true ∧ nAddrOk (s.me.sreg 1) = true
    ∧ (nOff (s.me.sreg 1) (0 : BitVec 7) 8).toNat % 8 = 0 ∧ s.me.det = false := by
  simp only [State.translated]; decide +kernel

/-- Stores of the element, of C and of H; an entry without the write permission. -/
theorem witness_TranslatedStoresLeave :
    let s := mapped
    let el : Target := .tensor 1 0 .elem
    let r := s.modHere (fun t => { t with entries := t.entries.map (fun e => { e with word := e.word &&& ~~~((0xF : Word) <<< 52) }) })
    s.me.holds = false ∧ (s.translated el 0b0100 ∧ s.translated (.cap 0 8) 0b0100 ∧ s.translated (.host 0x10000 8) 0b0100
      ∧ s.translated (.tensor 1 0 .vector) 0b0100 ∧ s.translated (.cap 0 256) 0b0100 ∧ s.translated (.host 0x10000 256) 0b0100)
    ∧ s.sourceReady (.v 0) = true ∧ formCheck r el = none ∧ r.me.answer = none ∧ el.needs r 0 r.me.asid = []
    ∧ permitted 0b0100 ((r.foundHere el).map Prod.snd) = false := by
  simp only [State.translated]; decide +kernel

theorem witness_AtomicsLeave :
    let s := mapped
    s.me.plain = true ∧ (s.translated (.tensor 1 0 .elem) 0b1110 ∧ s.translated (.tensor 1 0 .line) 0b1110)
    ∧ elementTrap s 0 s.me.asid 1 0 .elem [0, 3, 4, 7] = none ∧ (1 : SReg) ≠ 63
    ∧ elementTrap s 0 s.me.asid 1 0 .line (List.range 32) = none ∧ lineCheck (cachedDesc s 0 s.me.asid 1) 1 0 = none
    ∧ Ord.relOnly .relaxed = true := by
  simp only [State.translated]; decide +kernel

theorem witness_CountersFencesAndWakes :
    let s := idle .ma |> withReg (.s 1 0x40) |> withReg (.s 2 5) |> withReg (.s 3 (-1)) |> withReg (.s 4 0x80)
      |> withReg (.s 5 0x7FFFFFFFFFFFFFFF)
    let off : Word := 0x40
    let cm : Comparator := { uid := s.me.uid, lo := 0, hi := 16, filter := 1, since := 0 }
    let armed := s.modHere (fun x => x.setComparator 0 (some cm))
    let tok : Token := { uid := s.me.uid, cmp := 0, cls := 0, off := 0, count := 1, at_ := 0 }
    let told : State := { s.modHere (fun x => { x with tokens := [tok] }) with gtc := 9 }
    let high := withScratch 0x40 (bytesOfNat 8 (2 ^ 64 - 1)) s
    s.me.plain = true ∧ s.releases s.me 0 .pkg = [] ∧ off.msb = false ∧ off.toNat % 8 = 0 ∧ off.toNat < s.here.limit ∧ s.watermarkBlock off 8 = none
    ∧ s.corePoison off 8 = none ∧ s.openWrites s.me.uid = [] ∧ (s.me.sreg 2).msb = false
    ∧ (s.counterHere off).toNat + (s.me.sreg 2).toNat < 2 ^ 64 ∧ 2 ^ 64 ≤ (high.counterHere off).toNat + (high.me.sreg 2).toNat
    ∧ (s.me.sreg 3).msb = true ∧ Ord.acqOnly .relaxed = true ∧ s.me.observed = none
    ∧ waitThr s.me (.reg 0) ≤ s.counterS off ∧ s.counterS off < waitThr s.me (.reg 2)
    ∧ (s.me.sreg 1).toNat % 16 = 0 ∧ (s.me.sreg 4).toNat % 16 = 0 ∧ (s.me.sreg 1).toNat < (s.me.sreg 4).toNat
    ∧ (s.me.sreg 4).toNat ≤ s.here.limit ∧ s.here.comparator 0 = none ∧ armed.here.comparator 0 = some cm
    ∧ told.here.oldestToken told.me.uid told.gtc.toNat = some tok ∧ s.here.oldestToken s.me.uid s.gtc.toNat = none := by
  decide +kernel
/-- A record of one context on one tile: entry 0x1000, ASID 1, one level. -/
def exampleRecord : List Word :=
  [(0x1000 : Word), 0x0020000000001001, 0x77, 0x10] ++ List.replicate 28 0

/-- Its placement at tile 0, slot 0. -/
def examplePlacement : Placement := { corners := [(0, 0)], slots := [(0, [0])] }

/-- Temper has ended: the compute dies are released. -/
def booted : State := State.reset.modPlatform (fun p => { p with released := true, temperDone := true })

def offered : State :=
  after (exec (.launchQueueProdWrite 0 1 [exampleRecord]) (after (exec (.asidCreate 1 false 16) booted)))

def pooled : State := after (exec (.recordAcceptance 0) offered)

def reserved : State := after (exec (.recordAdmission 1 examplePlacement (Vector.replicate 4 0)) pooled)

/-- The record is dispatched: its context is bound. -/
def running : State := after (exec (.dispatch 1) reserved)

/-- That context is Issuing, and the syllable is at a slot of its bundle. -/
def issuing (p : Pos) : State :=
  { running.atPos p with gtc := 5 }.modMe (fun c => { c with status := .issuing })

def onTile (f : Tile → Tile) : State := (issuing .xa).modHere f

/-- A context owns the matrix unit. -/
def mxuOwned (u : Nat) : State := onTile (fun x => { x with mxu := { x.mxu with owner := some (0, u) } })


theorem witness_QueuesAreConfiguredAndUsed :
    let w : Word := 0xC000000000000000 ||| (0x1000 : Word) <<< 32
    let s := idle .xa |> withReg (.s 1 w) |> withReg (.s 2 1) |> withScratch 0 (bytesOfNat 8 w.toNat)
    let at0 := effAddr s.me 0 (.short (0 : BitVec 11)) 8
    let held := s.modMe (fun c => c.setQueue 3 { c.queue 3 with resv := [{ id := 1, done := none, logAt := none }] })
    (15 : BitVec 5).toNat < 24 ∧ hcfgQueue 3 = some 3 ∧ (s.me.queue 3).resv = []
    ∧ queueWordOk (s.me.sreg 1) s.here.limit = true ∧ queueWordOk (s.me.sreg 2) s.here.limit = false
    ∧ s.watermarkBlock at0 8 = none ∧ at0.toNat % 8 = 0 ∧ s.corePoison at0 8 = none
    ∧ queueWordOk (BitVec.ofNat 64 (natOfBytes (s.coreBytes at0 8))) s.here.limit = true
    ∧ (held.me.queue 3).resv ≠ [] ∧ hcfgQueue 23 = none ∧ windowWordOk 0x800738180200007F 132 = true
    ∧ windowWordOk 0 0 = true ∧ (withQueue 3 2 0 s).queueRoom 3 = true ∧ ((withQueue 3 2 0 s).me.queue 3).resv = []
    ∧ ((withQueue 3 2 1 s).me.queue 3).configured = true ∧ ((withQueue 3 2 1 s).me.queue 3).full = true
    ∧ (withQueue 3 0 1 s).headReady 3 = true := by decide +kernel

theorem witness_BarriersHoldAndRelease :
    let s := issuing .xa
    let b : Barrier := { id := 9, rid := 1, level := 0, inst := 0, n := 0, arrived := [0], after := [], due := some 5 }
    let open_ : State := { s with barriers := [b] }
    let det := s.modMe (fun c => { c with det := true })
    s.me.det = false ∧ (0 : BitVec 3).toNat < s.me.nlev.toNat ∧ open_.barrierOf open_.me 0 = some b
    ∧ open_.barrierOpen open_.me 0 = true ∧ s.me.holds = false ∧ s.barrierOpen s.me 0 = false
    ∧ det.me.det = true ∧ (0 : BitVec 3).toNat + 1 = det.me.nlev.toNat ∧ det.me.released = false ∧ det.me.holds = false
    ∧ (let go := open_.modMe (fun c => { c with det := true, released := true })
       go.me.det = true ∧ go.me.released = true ∧ go.barrierOf go.me 0 = some b)
    ∧ s.me.nlev.toNat ≤ (1 : BitVec 3).toNat := by decide +kernel

theorem witness_EngineCommandsAct_claim :
    (issuing .xa).here.mxu.owner = none ∧ (issuing .xa).here.mxu.clearing = none
    ∧ (issuing .xa).here.mxu.mustClear (issuing .xa).me.asid = false
    ∧ (mxuOwned 77).here.mxu.owner = some (0, 77) ∧ 77 ≠ (mxuOwned 77).me.uid
    ∧ (mxuOwned 2).here.mxu.owner = some (0, (mxuOwned 2).me.uid) := by decide +kernel

theorem witness_EngineCommandsAct_call :
    (mxuOwned 2).here.mxu.callable 21 = true ∧ (mxuOwned 2).here.mxu.busy (mxuOwned 2).gtc.toNat = false
    ∧ gatherShort (mxuOwned 2).me (mxuOwned 2).gtc.toNat (firstMicro (mxuOwned 2).here.mxu 21) (mxuOwned 2).me.regs.k = none
    ∧ microTrap (mxuOwned 2).me (firstMicro (mxuOwned 2).here.mxu 21) (mxuOwned 2).me.regs.k = none := by decide +kernel

theorem witness_EngineCommandsAct_load :
    256 ≤ (1023 : BitVec 10).toNat ∧ (mxuOwned 2).watermarkBlock ((mxuOwned 2).me.sreg 0) 64 = none
    ∧ ((mxuOwned 2).me.sreg 0).toNat % 64 = 0 ∧ (mxuOwned 2).corePoison ((mxuOwned 2).me.sreg 0) 64 = none
    ∧ (mpldWords (mxuOwned 2) 0).all microOk = true := by decide +kernel

/-- A 64-byte copy within the scratchpad, and a tile of tensor 1 into it. -/
theorem witness_EngineCommandsAct_transfers :
    let copy := withScratch 0x1038 (bytesOfNat 8 64) (issuing .xa) |> withReg (.s 3 0x1000)
    let tile := mapped.atPos .xa |> withScratch 0x1008 (bytesOfNat 8 0x20000000000) |> withScratch 0x1010 [1]
      |> withReg (.s 3 0x1000)
    copy.watermarkBlock 0x1000 64 = none ∧ copy.here.buffer.length < 32 ∧ copy.corePoison 0x1000 64 = none
    ∧ transferCheck copy (cmdAt copy copy false 3 3) (copy.me.sreg 3) = none
    ∧ transferCheck tile (cmdAt tile tile true 3 3) (tile.me.sreg 3) = none
    ∧ ((copy |> withReg (.s 3 0x1001)).me.sreg 3).toNat % 64 ≠ 0 ∧ copy.me.plain = true := by decide +kernel

theorem witness_EngineCommandsAct_full :
    32 ≤ (onTile (fun x => { x with buffer := List.replicate 32 exampleCmd })).here.buffer.length
    ∧ 4 ≤ (onTile (fun x => { x with geu := { x.geu with queue := List.replicate 4 (.load 0 2 1 0 0 0 [] []) } })).here.geu.queue.length := by
  decide +kernel

/-- A GRUN of an FP32 vector at 0x40 into 0x80, with an image bound. -/
theorem witness_EngineCommandsAct_grammar :
    let s := (issuing .xa).modMe (fun c => { c with binding := some { base := 0, keys := 0, spmode := 0 } }) |> withReg (.s 1 0x4400008000000040)
    s.here.geu.queue.length < 4 ∧ (s.me.sreg 0).toNat % 16 = 0 ∧ Fmt.isFloat .f32 = true ∧ grunCheck s 1 0 = none := by
  decide +kernel

def scanner : State := withQueue 2 2 0 (issuing .xa)

def waiting : State := { pooled with cur := { tile := 0, slot := 0, pos := .xa } }

theorem witness_ScansReplicasAndLaunchesAct_scan :
    scanner.me.plain = true ∧ scanner.here.scans[3] < 4 ∧ (scanner.me.queue 2).configured = true
    ∧ (scanner.me.queue 2).elemBytes = 256 ∧ Fmt.isFloat .f32 = true ∧ scanner.me.sup = false
    ∧ (scanner.modMe (fun c => { c with sup := true })).me.sup = true ∧ scanner.me.det = false := by decide +kernel

theorem witness_ScansReplicasAndLaunchesAct_launch :
    scanner.watermarkBlock (scanner.me.sreg 0) 256 = none ∧ (scanner.me.sreg 0).toNat % 64 = 0
    ∧ scanner.corePoison (scanner.me.sreg 0) 256 = none ∧ (scanner.queueOf (launchQueue 0)).used < 256
    ∧ 256 ≤ ((scanner.setQueueOf (launchQueue 0) { scanner.queueOf (launchQueue 0) with prod := 256 }).queueOf (launchQueue 0)).used
    ∧ fld (scanner.me.sreg 0) 32 21 = scanner.node := by decide +kernel

/-- The handle 0 names no record, and the handle 1 one that is dispatched or still in the pool. -/
theorem witness_ScansReplicasAndLaunchesAct_cancel :
    scanner.byHandle 0 1 = none ∧ (scanner.byHandle 1 1).map (fun r => r.phase.dispatched) = some true
    ∧ (waiting.byHandle 1 1).map (fun r => r.phase.dispatched) = some false := by decide +kernel

/-! #### Events -/

/-- A Ready context of the record, and one more in slot 1. -/
def ready2 : State := running.modTile 0 (fun x => x.setCtx 1 .primary { running.ctx 0 0 .primary with uid := 3, prio := 7 })

theorem witness_ContextsAreSelectedAndReturn_select :
    ((ready2.tile 0).slot 1).selectable ready2.gtc.toNat = true
    ∧ (∀ j : SlotNo, ((ready2.tile 0).slot j).selectable ready2.gtc.toNat = true → j ≠ 1 →
        ((ready2.tile 0).slot j).primary.prio < ((ready2.tile 0).slot 1).primary.prio)
    ∧ (∀ j, ((ready2.tile 0).slot j).primary.status ≠ .issuing) := by decide +kernel

/-- The same while slot 0 is Issuing. -/
theorem witness_ContextsAreSelectedAndReturn_displace :
    let s := ready2.modTile 0 (fun x => x.setCtx 0 .primary { ready2.ctx 0 0 .primary with status := .issuing })
    ((s.tile 0).slot 1).selectable s.gtc.toNat = true ∧ ((s.tile 0).slot 0).primary.status = .issuing
    ∧ (∀ i, ((s.tile 0).slot i).primary.status = .issuing → i = 0)
    ∧ ((s.tile 0).slot 0).primary.prio < ((s.tile 0).slot 1).primary.prio
    ∧ ((s.tile 0).slot 0).primary.holdsTile = false := by decide +kernel

def standingAt (b : Bank) (st : CtxStatus) : State :=
  running.modTile 0 (fun x => x.setCtx 0 b { running.ctx 0 0 .primary with status := st })

theorem witness_ContextsAreSelectedAndReturn_unblock :
    (((standingAt .primary (.blocked .transferFull)).ctx 0 0 .primary).status = .blocked .transferFull
      ∧ blockCleared (standingAt .primary (.blocked .transferFull)) 0 0
          ((standingAt .primary (.blocked .transferFull)).ctx 0 0 .primary) .transferFull = true)
    ∧ (((standingAt .primary (.blocked (.sleep 0))).ctx 0 0 .primary).status = .blocked (.sleep 0)
      ∧ (0 : Word) ≤ running.gtc ∧ running.gtc < 1) := by decide +kernel

theorem witness_ContextsAreSelectedAndReturn_exchange :
    let s := standingAt .second .readyOut
    let with_ (st : CtxStatus) (p : BitVec 3) : Context := { s.ctx 0 0 .primary with status := st, prio := p }
    ((s.tile 0).slot 0).second.status = .readyOut ∧ ((s.tile 0).slot 0).moving ≤ s.gtc.toNat
    ∧ (with_ .free 0).status = .free ∧ (with_ (.blocked .transferFull) 0).status = .blocked .transferFull
    ∧ (with_ (.parked 4) 0).status = .parked 4 ∧ (with_ .issuing 0).prio < (with_ .issuing 7).prio
    ∧ (with_ .issuing 0).holdsTile = false ∧ ({ with_ .ready 0 with committed := true } : Context).holdsTile = false := by decide +kernel

def barrier9 : Barrier := { id := 9, rid := 1, level := 0, inst := 0, n := 0, arrived := [0], after := [], due := some 0 }

/-- The bits of a record that make it deterministic. -/
def detRecord : State :=
  running.modRecord 1 (fun r => { r with words := r.words.set 1 0x0020000000081001 })

theorem witness_PresentationsAreClocked :
    (base 0).presenter 0 = some 0 ∧ (∀ j : SlotNo, (((base 0).tile 0).slot j).primary.owed = [])
    ∧ (({ running with barriers := [barrier9] } : State).barriers.find? (fun b => b.id == 9)) = some barrier9
    ∧ (running.record 1).map (fun r => recDet r.words) = some false ∧ running.barrierHeld barrier9 = false ∧ 0 ≤ running.gtc.toNat
    ∧ (detRecord.record 1).map (fun r => (recDet r.words, r.pkgIndex, r.phase)) = some (true, 0, .running)
    ∧ detRecord.transfersOpen 1 = false
    ∧ [({ rid := 1, tile := 0, due := 0 } : Pulse)].find? (fun p => p.rid == 1 && p.tile == 0 && decide (p.due ≤ detRecord.gtc.toNat))
        = some { rid := 1, tile := 0, due := 0 } := by decide +kernel

theorem witness_PresentationsAreClocked_presents : (base 0).presents 0 0 := by
  simp only [State.presents, State.reachesChecks]; decide +kernel

/-- A DET context at FRAME 3 whose bundle has the stamp 3. -/
theorem witness_PresentationsAreClocked_stamp :
    let s := ({ base (3 * 2 ^ 16) with gtc := 8 }).modMe (fun c => { c with det := true, committed := true, pulseAt := some 5 })
    s.presenter 0 = some 0 ∧ s.me.det = true ∧ s.me.committed = true ∧ s.fetch.stamp ≠ 0
    ∧ frameOf s s.me = s.fetch.stamp.toNat := by decide +kernel

theorem witness_PresentationsAreClocked_pulses :
    running.me.pulseAt = none ∧ ({ running.me with pulseAt := some 1 } : Context).pulseAt ≠ none
    ∧ ({ running.me with status := .blocked .superstep } : Context).status = .blocked .superstep := by decide +kernel

/-- A load of an element that nothing maps: the context parks, and the walker has the record. -/
def asking : State :=
  let s1 := after (exec (.asidCreate 1 false 16) (idle .ma))
  let s2 := after (exec (.tensorDefine 2 1 1 exampleTensor 0 0 15 none) s1)
  after (exec (.ldd 2 1 0) (withQueue 2 2 0 s2 |> withReg (.s 1 1)))

/-- The walker has sent it on to the MMP. -/
def queued : State := after (exec (.walkerAnswer 2) asking)

def answered (a : Option AnswerKind) : State := queued.modFault 2 (fun f => { f with stage := .answered a })

def staged (st : FaultStage) (n : Need) : State := asking.modFault 2 (fun f => { f with stage := st, needs := [n] })

def fault2 : FaultRec := (asking.fault 2).getD { id := 0, who := .scheduler 0, asid := 0, needs := [], stack := 0, tval := 0, stage := .walking, due := 0 }

def queuedFault : FaultRec := (queued.fault 2).getD fault2

theorem witness_FaultsAreServed_walk :
    (asking.fault 2 = some fault2 ∧ fault2.stage = .walking ∧ fault2.who = .ctx 0 0 1)
    ∧ missingDesc asking fault2 = none ∧ fault2.needs.all (needMapped asking 1) = false
    ∧ missingDesc (staged .walking (.desc 9)) { fault2 with needs := [.desc 9] } = some 9
    ∧ ([Need.desc 1].all (needMapped asking 1) = true ∧ missingDesc asking { fault2 with needs := [.desc 1] } = none) := by
  decide +kernel

/-- The MMP maps the element, refuses an unmapped C page, and asks the host for a window. -/
theorem witness_FaultsAreServed_service :
    let windowed := after (exec (.hwinAdd 4 1 0x10000 1 15) queued)
    (queued.mmp.queuedFaults.take 8).find? (fun f => f.id == 2) = some queuedFault
    ∧ let stack := firstStack queued queuedFault
      (queued.serveNeeds 1 stack 0 queuedFault.needs).2 = (.mapped, none)
    ∧ (queued.serveNeeds 1 (fun _ => 0) 0 [.page 0]).2 = (.refused 2, some (.page 0))
    ∧ (windowed.serveNeeds 1 (fun _ => 0) 0 [.window 0x10000]).2 = (.pin 0x10000 1, some (.window 0x10000)) := by decide +kernel

theorem witness_FaultsAreServed_answer :
    ((answered (some .refused)).fault 2).map (fun f => (f.stage, f.who)) = some (.answered (some .refused), .ctx 0 0 1)
    ∧ (((answered (some .refused)).dropFault 2).tile 0).bankOf 0 1 = some .second ∧ (some AnswerKind.refused ≠ none) := by
  decide +kernel

/-- A write to another package, by a context and by an engine. -/
def remoteFlight (i : Issuer) : Flight :=
  { id := 8, issuer := i, space := .d, asid := 1
    units := [{ home := .node 1 1 0, off := 0, len := 8, op := .store (List.replicate 8 1), done := false, entry := none }]
    after := [], sink := .none, data := [], poison := none, tval := 0, causal := true, writes := true, at_ := 0, lat := 0, due := 0 }

theorem witness_FaultsAreServed_remote :
    (∀ i, ({ asking with flights := [remoteFlight i] } : State).flights.find? (fun f => f.id == 8) = some (remoteFlight i))
    ∧ (remoteFlight (.ctx 0 0 1)).isOpen = true ∧ (remoteFlight (.ctx 0 0 1)).issuer = .ctx 0 0 1
    ∧ (remoteFlight (.engine 0 0 1)).issuer = .engine 0 0 1
    ∧ (remoteFlight (.engine 0 0 1)).units.map (fun u => u.home) = [.node 1 1 0] :=
  ⟨fun _ => rfl, by decide, rfl, rfl, rfl⟩

def shoot5 : Shootdown :=
  { id := 5, asid := 1, key := .page 0, old := 0, acks := [0, 1], work := .free, seq := some 3, due := 0 }

def shooting : State := mapped.modMmp (fun m => { m with shoots := [shoot5] })

theorem witness_FaultsAreServed_shootdown :
    shooting.mmp.shoots.find? (fun x => x.id == 5) = some shoot5 ∧ shoot5.acks.contains 0 = true
    ∧ ackReady shooting shoot5 0 = true ∧ shoot5.acks.contains (0 + 1) = true ∧ ackReady shooting shoot5 1 = true
    ∧ ({ shoot5 with acks := [] } : Shootdown).acks = [] ∧ shooting.gtc.toNat % 2 ^ 24 = 0 := by decide +kernel

def homeUnit (h : Home) (n : Nat) (op : UnitOp) : AccessUnit := { home := h, off := 0, len := n, op := op, done := false, entry := none }

def homeFlight (u : AccessUnit) : Flight :=
  { remoteFlight (.ctx 0 0 2) with units := [u] }

def atHome (u : AccessUnit) : State := { issuing .ma with flights := [homeFlight u] }

/-- Every kind of unit, in HBM and in a scratchpad; the first byte above HBM does not exist. -/
theorem witness_HomesPerformUnits :
    (∀ u, (atHome u).flights.find? (fun g => g.id == 8) = some (homeFlight u) ∧ (homeFlight u).units[0]? = some u)
    ∧ (atHome (homeUnit (.hbm 0) 8 .load)).canPerform (homeFlight (homeUnit (.hbm 0) 8 .load)) 0 = true
    ∧ homeExists (.hbm (hbmBytes - 8)) 8 = true ∧ homeExists (.hbm (hbmBytes - 7)) 8 = false
    ∧ (badAt (atHome (homeUnit (.hbm 0) 8 .load)) (.hbm 0) 8 = false
      ∧ let s := atHome (homeUnit (.hbm 0) 8 .load)
        s.lostHome (s.mapOf (.ctx 0 0 2)) (.hbm 0) none = false)
    ∧ (homeUnit (.scratch 3 0) 8 (.store [1])).nWrite = true ∧ (homeUnit (.hbm 0) 8 (.store [1])).nWrite = false
    ∧ (let old := natOfBytes (placeRead (issuing .ma) (.hbm 0) 8 0)
       old + 5 < 2 ^ 64)
    ∧ (let s := { issuing .ma with hbm := Memory.writeN [] 0 (List.replicate 8 255) }
       2 ^ 64 ≤ natOfBytes (placeRead s (.hbm 0) 8 0) + 5)
    ∧ (Quire.ofImage (BitVec.ofNat 640 (natOfBytes (placeRead (issuing .ma) (.hbm 0) 80 0)))).valid = true
    ∧ (5 : QuireBits) ≠ invalidPattern :=
  ⟨fun _ => ⟨rfl, rfl⟩, by decide +kernel⟩

/-- A flight whose unit is performed, a multicast store, and a watch of a counter that has 0. -/
def arrived (k : Sink) : Flight := { homeFlight { homeUnit (.hbm 0) 8 .load with done := true } with sink := k }

def mcast4 : Mcast := { id := 4, tile := 0, uid := 2, x0 := 0, y0 := 0, x1 := 1, y1 := 0, off := 64, bytes := [1], land := 5 }

def place0 : Watched := { space := .d, home := .hbm 0, entry := none, tval := 0 }

def watch6 : Watch := { id := 6, tile := 0, slot := 0, uid := 2, place := place0, asid := 1, thr := 0, due := 0 }

def watching (thr : Word) : State :=
  { standingAt .primary (.blocked (.watch place0 thr)) with watches := [{ watch6 with thr := thr }] }

theorem witness_ValuesArrive_flight :
    (∀ f, f.id = 8 → ({ issuing .ma with flights := [f] } : State).flights.find? (fun g => g.id == f.id) = some f)
    ∧ (arrived (.landing 8 true)).isOpen = false ∧ (arrived (.landing 8 true)).issuer = .ctx 0 0 2
    ∧ (arrived (.landing 8 true)).sink = .landing 8 true ∧ (arrived (.queue 2 256 8 true)).sink = .queue 2 256 8 true
    ∧ (8 : Nat) ≠ 256 ∧ (arrived (.queue 2 256 256 true)).sink = .queue 2 256 256 true :=
  ⟨fun f h => by simp [h], by decide, rfl, rfl, rfl, by decide, rfl⟩

theorem witness_ValuesArrive_word :
    let l : Landing := Landing.waiting (.s 3 0) 8 7 .ma
    let s := (issuing .ma).modMe (fun c => c.addLanding l)
    s.uidCtx 0 0 2 = some s.me ∧ s.me.awaits 7 = some l ∧ s.me.plain = true ∧ l.logAt = none := by decide +kernel

theorem witness_ValuesArrive_multicast :
    ({ issuing .ma with mcasts := [mcast4] } : State).mcasts.find? (fun n => n.id == 4) = some mcast4
    ∧ mcast4.land ≤ (issuing .ma).gtc.toNat ∧ ∀ n ∈ [mcast4], n.before mcast4 = false := by decide +kernel

theorem witness_ValuesArrive_watch :
    (watching 0).watches.find? (fun x => x.id == 6) = some watch6 ∧ ((watching 0).tile 0).bankOf 0 2 = some .primary
    ∧ ((watching 0).ctx 0 0 .primary).status = .blocked (.watch place0 0) ∧ watch6.homeNow (watching 0) = .hbm 0
    ∧ (watching 0).afterOf ((watching 0).ctx 0 0 .primary) 0 [watch6.unit (watching 0)] false .relaxed = []
    ∧ watchTrap (watching 0) watch6 = none ∧ (watchTrap { watching 0 with bad := [.hbm 0] } watch6).isSome = true
    ∧ (0 : Word) ≤ BitVec.ofNat 64 (natOfBytes (placeRead (watching 0) (.hbm 0) 8 0))
    ∧ BitVec.ofNat 64 (natOfBytes (placeRead (watching 1) (.hbm 0) 8 0)) < 1 := by decide +kernel

/-- The command of the record's context, and a run of it on channel 1. -/
def cmd2 : XCmd := { exampleCmd with uid := 2 }

def run2 : XRun :=
  { cmd := cmd2, start := 0, done := 0, taken := 0, crc := 0, indices := [], mask := [], packed := [], values := 0, flags := 0
    held := [], writes := [], fault := none, ended := none }

def copying (f : XRun → XRun) : State := onTile (fun x => x.setChannel 1 { Channel.reset with run := some (f run2) })

def buffered : State := onTile (fun x => { x with buffer := [cmd2] })

theorem witness_TransfersRun_start :
    ((buffered.tile 0).channel 1).run = none ∧ (nextCommand (buffered.tile 0) 1).map (fun x => (x.1, decide (x.2 ≤ buffered.gtc.toNat)))
      = some (cmd2, true) := by decide +kernel

/-- What a channel stages: that its source is read, is missing or is in error. -/
def stagedAs : Staged → Nat
  | .ready _ _ => 0
  | .stop _ _ => 1
  | .miss _ => 2
  | .wait => 3
  | .absent => 4

def unmappedSource : XRun → XRun := fun r => { r with cmd := { cmd2 with words := #v[0, 0x20000000000, 1, 0, 0x40, 0, 0, 64] } }

theorem witness_TransfersRun_chunk :
    chunkReady (copying id) run2 = true ∧ run2.held = [] ∧ ({ run2 with held := [(0, [1])] } : XRun).held ≠ []
    ∧ suppliedRun (copying id) 0 run2 = none ∧ cmd2.gather = false
    ∧ (cmd2.compress = false ∧ cmd2.expand = false ∧ cmd2.fill = false ∧ cmd2.transpose = false ∧ cmd2.convert = false
      ∧ cmd2.srcSpace = 0)
    ∧ chunkElems (copying id) run2 ≠ 0
    ∧ (copying id).scratchBad 0 cmd2.map ((copying id).tile 0).limit (cmd2.src + 0) (chunkElems (copying id) run2 * cmd2.zs) = false
    ∧ stagedAs (stageChunk (copying id) 0 run2 []) = 0
    ∧ stagedAs (stageChunk { copying id with bad := [.scratch 0 16] } 0 run2 []) = 1
    ∧ stagedAs (stageChunk { asking with flights := [] } 0 (unmappedSource run2) []) = 2 := by decide +kernel

/-- A channel whose fault is refused. -/
def refusedRun : XRun := { run2 with fault := some (2, 0) }

def channelFault : FaultRec :=
  { id := 2, who := .channel 0 1 7, asid := 1, needs := [], stack := 0, tval := 0, stage := .answered (some .refused), due := 0 }

def refusedCopy : State := (copying (fun _ => refusedRun)).modMmp (fun m => { m with faults := [channelFault] })

theorem witness_TransfersRun_fault :
    answeredChannel refusedCopy 0 1 = some (channelFault, some .refused) ∧ ((refusedCopy.tile 0).channel 1).run = some refusedRun
    ∧ refusedRun.fault = some (channelFault.id, 0)
    ∧ (refusedCopy.tile 0).done.find? (fun e => e.fault.map Prod.fst == some channelFault.id) = none
    ∧ ((((refusedCopy.dropFault 2).modTile 0 (fun y => y.reissue 1 7 (refusedCopy.gtc.toNat - 0))).tile 0).channel 1).run.isSome = true := by
  decide +kernel

def lateCmd : XCmd := { cmd2 with promise := 1 }

def done2 : XDone :=
  { cmd := cmd2, status := 1, trap := none, flags := 0, writes := [], fault := none, noPost := false, endedAt := 0 }

theorem witness_TransfersRun_end :
    (let s := onTile (fun x => { x with buffer := [lateCmd] })
     s.tileOfCmd 7 = some 0 ∧ (s.tile 0).cmds.find? (fun e => e.cid == 7) = some lateCmd
      ∧ promiseOver s (s.tile 0) lateCmd = true)
    ∧ (let s := onTile (fun x => { x with done := [done2] })
       s.tileOfCmd 7 = some 0 ∧ (s.tile 0).done.find? (fun e => e.cmd.cid == 7) = some done2
        ∧ completionReady s 0 done2 = true ∧ done2.cmd.csp ≠ 3 ∧ done2.trap = none
        ∧ ({ done2 with trap := some { name := .memData, tval := 0 } } : XDone).trap = some { name := .memData, tval := 0 }) := by
  decide +kernel

/-! The matrix unit -/

def mxuRun (pc words : Nat) : MxuRun :=
  { slot := 0, uid := 2, cid := 7, asid := 1, keys := 0, spmode := 0, k := Vector.replicate 8 0, pc := pc, rep := 0, words := words
    ainc := 0, binc := 0, ord := .none, earlier := [], after := [] }

def calling (routine words : Nat) : State :=
  onTile (fun x => { x with mxu := { x.mxu with owner := some (0, 2), run := some (mxuRun (4 * routine) words) } })

/-- A dense step, a sparse one, a write-out and a clear among the fixed routines. -/
theorem witness_MatrixOperationsRun_start :
    ((calling 21 1).tile 0).mxu.run = some (mxuRun 84 1) ∧ ((calling 21 1).tile 0).mxu.busyUntil ≤ (calling 21 1).gtc.toNat
    ∧ (mxuRun 84 1).after = [] ∧ ((calling 21 1).tile 0).mxu.ops.any MxuOp.pendingAcc = false
    ∧ (((calling 21 1).tile 0).mxu.microAt 84).opa = 1 ∧ (((calling 50 1).tile 0).mxu.microAt 200).opa = 2
    ∧ (((calling 85 1).tile 0).mxu.microAt 340).opa = 3 ∧ (((calling 0 1).tile 0).mxu.microAt 0).opa = 4
    ∧ gatherWaits (calling 21 1) 0 (mxuRun 84 1) (((calling 21 1).tile 0).mxu.microAt 84) = false
    ∧ gatherWaits (calling 50 1) 0 (mxuRun 200 1) (((calling 50 1).tile 0).mxu.microAt 200) = false := by decide +kernel

def mxuOp (w : MxuWork) : MxuOp :=
  { work := w, slot := 0, uid := 2, cid := 7, asid := 1, keys := 0, spmode := 0, due := 5, rel := false, earlier := [], after := [] }

def completing (w : MxuWork) : State := onTile (fun x => { x with mxu := { x.mxu with ops := [mxuOp w] } })

theorem witness_MatrixOperationsRun_complete :
    completableOp (completing (.dense (.tap .w16 1) [] [] [])) 0 = some (mxuOp (.dense (.tap .w16 1) [] [] []))
    ∧ completableOp (completing (.sparse .bf16 2 [] [] [] [])) 0 = some (mxuOp (.sparse .bf16 2 [] [] [] []))
    ∧ completableOp (completing .clear) 0 = some (mxuOp .clear)
    ∧ completableOp (completing (.writeOut 8192 0 (some 64))) 0 = some (mxuOp (.writeOut 8192 0 (some 64)))
    ∧ completableOp (completing (.writeOut 8192 0 none)) 0 = some (mxuOp (.writeOut 8192 0 none))
    ∧ completableOp (completing .suppressed) 0 = some (mxuOp .suppressed) := by decide +kernel

theorem witness_MatrixOperationsRun_runaway :
    ((calling 21 4097).tile 0).mxu.run = some (mxuRun 84 4097) ∧ 4096 < (mxuRun 84 4097).words := by decide +kernel

theorem witness_MatrixOperationsRun_clear :
    (let m := ((onTile (fun x => { x with mxu := { x.mxu with clearing := some (0, 2, 0) } })).tile 0).mxu
     m.clearing = some (0, 2, 0) ∧ m.run = none ∧ m.ops = [])
    ∧ (((onTile (fun x => { x with mxu := { x.mxu with clearing := some (0, 2, 4 + 1) } })).tile 0).mxu.clearing = some (0, 2, 4 + 1)
      ∧ 4 + 1 ≤ (issuing .xa).gtc.toNat) := by decide +kernel

/-! The grammar unit -/

/-- An image at 0x2000: one row with the terminal 1.0 times x_0, in T16 es 1. -/
def imageBytes : List Byte :=
  bytesOfNat 24 (0x1100010000 + 64 * 2 ^ 64 + 64 * 2 ^ 96 + 72 * 2 ^ 128 + 1 * 2 ^ 160) ++ List.replicate 40 0
    ++ bytesOfNat 8 (2 ^ 32) ++ bytesOfNat 4 0x4000

def withImage (q : List GeuCmd) (r : Option GeuRunning) : State :=
  ((issuing .xa) |> withScratch 0x2000 imageBytes).modHere (fun x => { x with geu := { x.geu with queue := q, running := r } })

def loadCmd (base : Nat) : GeuCmd := .load 0 2 7 base 0 0 [] []

/-- A run that reads x at 0x40 as T16 es 1 and writes y at 0x80, or delivers it to queue 3. -/
def runCmd (a : Word) : GeuCmd := .run 0 2 7 a none true .f32 .none 0 0 [] [] 0

def runWord : Word := 0x4400008000000040

theorem witness_GrammarCommandsRun_load :
    let s := withImage [loadCmd 0x2000] none
    let rd := tileReader (s.tile 0) { spmode := 0, keys := 0 }
    (s.tile 0).geu.queue = [loadCmd 0x2000] ∧ (s.tile 0).geu.running = none
    ∧ imageBad s 0 { spmode := 0, keys := 0 } 0x2000 = false
    ∧ checkImage rd 0x2000 = .ok { vfmt := 17, ncols := 0, rules := [], rows := [[0x4000]] }
    ∧ checkImage rd 0x3000 = .fail (imageConfig 0x3000) 0 := by decide +kernel

def bound2 : State :=
  (withImage [runCmd runWord] none).modMe (fun c => { c with binding := some { base := 0x2000, keys := 0, spmode := 0 } })

theorem witness_GrammarCommandsRun_run :
    (bound2.tile 0).geu.queue = [runCmd runWord] ∧ (bound2.tile 0).geu.running = none
    ∧ bound2.uidCtx 0 0 2 = some bound2.me ∧ bound2.me.binding = some { base := 0x2000, keys := 0, spmode := 0 }
    ∧ imageBad bound2 0 { spmode := 0, keys := 0 } 0x2000 = false
    ∧ bound2.scratchBad 0 { spmode := 0, keys := 0 } (bound2.tile 0).limit (BitVec.ofNat 64 (grunXoff runWord)) 2 = false
    ∧ grunQo runWord = false := by decide +kernel

def geuRunning : GeuRunning := { pieces := [[1, 2, 3, 4]], next := 0, flags := 0, bytes := 4, trap := none, nrows := 1, due := 3 }

theorem witness_GrammarCommandsRun_deliver :
    ((withImage [runCmd runWord] (some geuRunning)).tile 0).geu.running = some geuRunning
    ∧ geuRunning.pieces[geuRunning.next]? = some [1, 2, 3, 4]
    ∧ (withImage [runCmd runWord] (some geuRunning)).uidCtx 0 0 2 = some (withImage [runCmd runWord] (some geuRunning)).me
    ∧ grunQo (runWord ||| (1 : Word) <<< 63) = true
    ∧ ((withQueue 3 2 0 (issuing .xa)).me.queue 3).full = false ∧ ((withQueue 3 2 1 (issuing .xa)).me.queue 3).full = true := by
  decide +kernel

theorem witness_GrammarCommandsRun_complete :
    let r := { geuRunning with next := 1 }
    ((withImage [loadCmd 0x2000] (some r)).tile 0).geu.running = some r
    ∧ r.due ≤ (withImage [loadCmd 0x2000] (some r)).gtc.toNat ∧ r.pieces.length ≤ r.next ∧ r.trap = none
    ∧ CmdOrd.waits .none = false := by decide +kernel

/-! Scans -/

def contribution (k : Nat) (car : Bool) (aff : Bool) : Contribution :=
  { ordinal := k, tile := 0, slot := 0, uid := 2, q := 2, affine := aff, fmt := .f32, carry := car, a := 0, b := 0
    mask := BitVec.allOnes 64, after := [], places := [], given := 0 }

def scanOp (cs : List Contribution) : ScanOp :=
  { id := 6, rid := 1, region := 0, ch := 0, k := 0, w := 1, h := cs.length, contributions := cs, lastAt := 4, started := none
    mixed := false, carryIn := none, sent := false }

def scanning (o : ScanOp) : State := { withQueue 2 2 0 (issuing .xa) with scans := [o] }

theorem witness_ScansRun_start :
    (∀ o, o.id = 6 → (scanning o).scans.find? (fun y => y.id == o.id) = some o)
    ∧ ((scanOp [contribution 0 false false]).started = none ∧ (scanOp [contribution 0 false false]).full = true
      ∧ 4 < (scanning (scanOp [])).gtc.toNat)
    ∧ mixedScan [contribution 0 false false] = false ∧ (scanOp [contribution 0 false false]).carries = false
    ∧ (scanOp [contribution 0 true false]).carries = true
    ∧ (scanning (scanOp [contribution 0 true false])).channelTaken (scanOp [contribution 0 true false]) = false
    ∧ (scanning (scanOp [])).westNode = none
    ∧ ({ scanning (scanOp []) with node := 1 } : State).westNode ≠ none
    ∧ mixedScan [contribution 0 true false, contribution 1 false false] = true
    ∧ ({ scanning (scanOp [contribution 0 true false]) with
          scans := [scanOp [contribution 0 true false], { scanOp [contribution 0 true false] with id := 5, started := some 0 }] }
        : State).channelTaken (scanOp [contribution 0 true false]) = true :=
  ⟨fun o h => by simp [scanning, h], by decide +kernel⟩

def startedScan : ScanOp := { scanOp [contribution 0 false false] with started := some 0 }

theorem witness_ScansRun_deliver :
    let s := { scanning startedScan with gtc := 500 }
    (deliverable s startedScan 0).isSome = true ∧ s.uidCtx 0 0 2 = some s.me ∧ s.me.plain = true
    ∧ (contribution 0 false false).places = [] ∧ (s.me.queue 2).full = false
    ∧ ((withQueue 2 2 1 s).me.queue 2).full = true := by decide +kernel

/-! Replica groups and the ends of contexts -/

/-- A replica in slot 0 of the north-west tile of a stack, with one cut of a signature. -/
def replicaCtx (n : Nat) (sig : BitVec 128) : Context :=
  { running.me with
    uid := 10 + n, status := .issuing
    replica := { Replica.none with group := 1, stack := BitVec.ofNat 2 n, cuts := [{ kind := .barrier, n := 0, sig := sig, tag := 0, at_ := 0 }] } }

def member (n : Nat) : Member := (BitVec.ofNat 2 n, BitVec.ofNat 10 (512 * (n / 2) + 16 * (n % 2)), 0, 10 + n)

def group3 (voting : Option Nat) : Sys2Proof.Machine.Group :=
  { id := 1, rid := 1, members := [member 0, member 1, member 2], live := 7, lead := 0, red := 3, red0 := 3, votes := 0
    voting := voting, lost := 0, holdAt := none, resumeBy := none }

/-- Three replicas whose cuts have these signatures. -/
def voting3 (voting : Option Nat) (a b c : BitVec 128) : State :=
  let put (s : State) (n : Nat) (sig : BitVec 128) : State := s.setCtx (member n).2.1.toNat 0 .primary (replicaCtx n sig)
  { put (put (put running 0 a) 1 b) 2 c with groups := [group3 voting], gtc := 300 }

theorem witness_GroupsVoteAndContextsLeave_start :
    (voting3 none 1 1 1).groups.find? (fun y => y.id == 1) = some (group3 none) ∧ (group3 none).voting = none
    ∧ (group3 none).voters ≠ [] ∧ ((group3 none).voters.all (fun y => ((voting3 none 1 1 1).frontCut y).isSome)) = true
    ∧ (voting3 (some 400) 1 1 1).gtc.toNat < 400 ∧ 300 ≤ (voting3 (some 300) 1 1 1).gtc.toNat := by decide +kernel

theorem witness_GroupsVoteAndContextsLeave_result :
    verdict (voting3 (some 300) 1 1 1) (group3 (some 300)) = .agree
    ∧ (group3 (some 300)).members.find? (fun y => y.1 == (group3 (some 300)).lead) = some (member 0)
    ∧ ((voting3 (some 300) 1 1 1).commitVote (group3 (some 300)) (member 0)).isSome = true
    ∧ verdict (voting3 (some 300) 1 2 3) (group3 (some 300)) = .mismatch
    ∧ verdict (voting3 (some 300) 1 1 2) (group3 (some 300)) = .minority (member 2) := by decide +kernel

theorem witness_GroupsVoteAndContextsLeave_minority :
    let g := { group3 (some 300) with live := 3 }
    g.members.find? (fun y => y.1 == Sys2Proof.Machine.Group.chooseLead g) = some (member 0)
    ∧ (((voting3 (some 300) 1 1 2).fence (group3 (some 300)) (member 2)).commitVote g (member 0)).isSome = true := by decide +kernel

theorem witness_GroupsVoteAndContextsLeave_voters :
    (group3 none).voters = [member 0, member 1, member 2]
    ∧ (group3 none).liveMembers.find? (fun y => (group3 none).lost.getLsbD y.1.toNat) = none
    ∧ sameCut ((voting3 none 1 1 2).frontCut (member 0)) ((voting3 none 1 1 2).frontCut (member 1)) = true
    ∧ sameCut ((voting3 none 1 1 2).frontCut (member 0)) ((voting3 none 1 1 2).frontCut (member 2)) = false := by decide +kernel

def tongs4 (src : Nat) : TongsItem :=
  { id := 4, tile := 0, slot := 0, uid := 2, at_ := 0, val := .word 1 9 none none, src := src, due := 0 }

theorem witness_GroupsVoteAndContextsLeave_tongs :
    let s := { (issuing .ma).modMe (fun c => c.addLanding (Landing.waiting (.s 3 0) 8 7 .ma)) with tongs := [tongs4 7] }
    s.tongs.find? (fun j => j.id == 4) = some (tongs4 7) ∧ s.uidCtx 0 0 2 = some s.me ∧ s.me.awaitsAny 7 = true
    ∧ (s.tongsInto (tongs4 7) s.me).isSome = true ∧ (s.tongsInto (tongs4 8) s.me).isNone = true := by decide +kernel

theorem witness_GroupsVoteAndContextsLeave_drain :
    drained (standingAt .primary .draining) 0 0 .primary = true ∧ drained (standingAt .second .draining) 0 0 .primary = false
    ∧ drained (standingAt .second .draining) 0 0 .second = true := by decide +kernel

theorem witness_GroupsVoteAndContextsLeave_die :
    let c := (issuing .ma).ctx 0 0 .primary
    c.status.resident = true ∧ c.special.tdm.getLsbD (stackOf 0) = true ∧ c.replica.group = 0 ∧ c.special.tdm.getLsbD 3 = false
    ∧ ({ c with special := { c.special with tdm := 8 } } : Context).special.tdm.getLsbD 3 = true ∧ 3 ≠ stackOf 0 := by decide +kernel

/-! Records -/

theorem witness_RecordsAreDispatched_queue :
    let q := State.reset.queueOf 0
    let p : BitVec 31 := (256 : Word).setWidth 31
    State.reset.platform.safe = false ∧ (p - q.cons).toNat ≤ 256 ∧ q.used ≤ (p - q.cons).toNat
    ∧ 256 < ((257 : Word).setWidth 31 - q.cons).toNat ∧ 4 ≤ (4 : BitVec 3).toNat
    ∧ ((0 : Word).setWidth 31 - (offered.queueOf 0).cons).toNat < (offered.queueOf 0).used
    ∧ (0x8000000000000000 : Word).msb = true := by decide +kernel

theorem witness_RecordsAreDispatched_accept :
    offered.nextQueue = some 0 ∧ offered.poolCount < 4096
    ∧ (assocGet ((offered.queueOf 0).cons.toNat % 256) (offered.queueOf 0).slots).getD [] = exampleRecord ∧ exampleRecord ≠ []
    ∧ recNode0 exampleRecord = offered.node ∧ launchReason offered exampleRecord = 0
    ∧ launchReason State.reset exampleRecord ≠ 0 ∧ recNode0 exampleRecord = State.reset.node
    ∧ (exampleRecord ++ List.replicate 32 0).take 32 = exampleRecord := by decide +kernel

/-- A record that waits for a counter of D that nothing maps. -/
def waitingRecord : State :=
  pooled.modRecord 1 (fun r => { r with words := (r.words.set 12 8).set 13 0xC000000000000000 })

theorem witness_RecordsAreDispatched_admit :
    (pooled.record 1).map (fun r => (r.rid, r.phase, (depMiss pooled r.words).isNone,
        admits pooled r examplePlacement (Vector.replicate 4 0))) = some (1, .pooled, true, true)
    ∧ (waitingRecord.record 1).map (fun r => (r.phase, depMiss waitingRecord r.words, askedFor waitingRecord 1 (.flat 0)))
        = some (.pooled, some (.flat 0, 8), false) := by decide +kernel

theorem witness_RecordsAreDispatched_dispatch :
    (reserved.record 1).map (fun r => (r.phase, stillFree reserved r)) = some (.reserved, true)
    ∧ (let s := reserved.setCtx 0 0 .primary running.me
       (s.record 1).map (fun r => (r.phase, stillFree s r)) = some (.reserved, false))
    ∧ (let s := reserved.modRecord 1 (fun r => { r with phase := .reserving [1] })
       (s.record 1).map (fun r => (r.phase, stillFree s r)) = some (.reserving [1], true)) := by decide +kernel

/-- A record of two packages, of which this is the second. -/
def twoPackages : List Word :=
  [0x1000, 0x0020000000003001, 0, 0x10, 0x21, 0x0000000100000054] ++ List.replicate 26 0

def secondNode : State := (after (exec (.asidCreate 1 false 16) booted)).modPlatform (fun p => { p with nodes := [0, 1] })

theorem witness_RecordsAreDispatched_reserve :
    let s := { secondNode with node := 1 }
    (recNode0 twoPackages).toNat < s.node.toNat ∧ s.node.toNat < (recNode0 twoPackages).toNat + recPackages twoPackages
    ∧ launchReason s twoPackages = 0 ∧ s.platform.emergency = false ∧ s.platform.safe = false
    ∧ (s.requestOf (recNode0 twoPackages) 5).isNone = true ∧ (s.modPlatform (fun p => { p with emergency := true })).platform.emergency = true
    ∧ (let u := (after (exec (.reserveRequest 5 twoPackages examplePlacement) (s.modPlatform (fun p => { p with emergency := true })))).modPlatform
          (fun p => { p with emergency := false })
       (u.requestOf (recNode0 twoPackages) 5).map (fun r => (energyFits u r.words, placementFree u r examplePlacement,
          (u.reserve r examplePlacement .reserved).isSome)) = some (true, true, true)
        ∧ (u.requestOf (recNode0 twoPackages) 5).map (fun r => placementFree u r { corners := [], slots := [] }) = some false) := by
  decide +kernel

def ended : State := running.modRecord 1 (fun r => { r with left := [] })

/-- A completion counter in N. -/
def endedPost : State :=
  ended.modRecord 1 (fun r => { r with words := ((r.words.set 24 8).set 25 0x8000000000000000).set 26 1 })

theorem witness_RecordsEnd_complete :
    (ended.record 1).map (fun r => (r.rid, r.phase, r.left, r.pkgIndex, (recCounter r.words 24).space)) = some (1, .running, [], 0, 0)
    ∧ (endedPost.record 1).map (fun r => (r.phase, r.left, r.pkgIndex, (endedPost.postCompletion r).1.isSome))
        = some (.running, [], 0, true)
    ∧ ((ended.modRecord 1 (fun r => { r with pkgIndex := 1 })).record 1).map (fun r => decide (r.pkgIndex ≠ 0)) = some true := by
  decide +kernel

/-- A thermal emergency, and the record that it pre-empts. -/
def hot : State := running.modPlatform (fun p => { p with emergency := true })

def saved : State := (after (exec (.preemption 1 .thermal) hot)).modPlatform (fun p => { p with emergency := false })

theorem witness_RecordsEnd_preempt :
    (hot.record 1).map (fun r => (r.phase, decide (r.left ≠ []), mayPreempt hot r .thermal)) = some (.running, true, true)
    ∧ (hot.bound 1).all (fun x => savable hot x.1 x.2.2.2) = true
    ∧ (saved.record 1).map (fun r => (r.phase, admits saved r examplePlacement r.seen, admits saved r { corners := [], slots := [] } r.seen))
        = some (.saved, true, false) := by decide +kernel

theorem witness_RecordsEnd_abort :
    State.reset.platform.safe = false ∧ State.reset.mmp.pending = none ∧ State.reset.records = []
    ∧ (∀ q : BitVec 3, (State.reset.queueOf q).waiting = [])
    ∧ running.records.map (fun z => (AbortTarget.names (.asid 1) running z, z.phase.dispatched)) = [(true, true)]
    ∧ running.mmp.pending = none := by decide +kernel

/-! Commands of the host and the platform -/

theorem witness_CommandsAreRefused :
    (State.reset.modPlatform (fun p => { p with safe := true })).platform.safe = true
    ∧ State.reset.platform.safe = false ∧ (State.reset.modMmp (fun m => { m with pending := some 3 })).mmp.pending ≠ none
    ∧ State.reset.mmp.pending = none ∧ State.reset.liveAsid 1 = none := by decide +kernel

def oneAsid : State := after (exec (.asidCreate 1 false 16) State.reset)

/-- A valid entry of the address-space table. -/
def entryOf (n : Nat) : AsidEntry :=
  { id := BitVec.ofNat 12 n, valid := true, retiring := false, nomig := false, dcount := 0, dtb := 0, fttb := 0, fntiles := 0
    cpt := 0, hwt := 0, windows := [], cmaps := [], defs := [], evicted := [] }

theorem witness_CommandsAct_full : freeAsid ((List.range 4095).map (fun i => entryOf (i + 1))) = none := by
  simp only [freeAsid, Option.map_eq_none_iff, List.find?_eq_none, List.mem_range, List.any_map, Bool.not_eq_eq_eq_not,
    Bool.not_true, List.any_eq_false]
  exact fun i hi h => h i hi (by simp [entryOf]; omega)

theorem witness_CommandsAct_create :
    freeAsid State.reset.mmp.asids = some 1 ∧ ((State.reset.takeFrames 2).bind (fun x => x.2.takeFrames (tableFrames (8 * 16)))).isSome = true := by
  decide +kernel

theorem witness_CommandsAct_open :
    (oneAsid.openAsid 1).isSome = true ∧ (0x200000 : Word).toNat % 2 ^ 21 = 0 ∧ (0x200000 : Word) ≠ 0
    ∧ (0xFFFFFFE00000 : Word).toNat + (0x200000 : Word).toNat ≤ 2 ^ 48 ∧ (0x10000 : Word).toNat % 4096 = 0
    ∧ (0x10000 : Word).toNat + (1 : BitVec 32).toNat * 4096 ≤ 2 ^ 64
    ∧ (oneAsid.openAsid 1).map (fun e => e.windows.length) = some 0 := by decide +kernel

theorem witness_CommandsAct_define :
    ((oneAsid.openAsid 1).map (fun e => e.defs.isEmpty)) = some true ∧ descAccepted exampleTensor = true
    ∧ ((oneAsid.openAsid 1).bind (fun e => (oneAsid.growDescs e 1).bind (fun s =>
        (s.newTileTable (descOf exampleTensor).ntiles 0 0 15).map (fun _ => true)))) = some true
    ∧ descAccepted (Vector.replicate 8 0) = false ∧ (1 : BitVec 20) ≠ 0 ∧ (2 : BitVec 2) ≠ 3 := by decide +kernel

/-- The transposed view of the tensor (bit 62 of word 0, R158). -/
def aliasTensor : Vector Word 8 := exampleTensor.set 0 (exampleTensor[0] ||| 0x4000000000000000)

/-- Tensor 2 with the tiles of tensor 1, and a host window. -/
def aliased : State :=
  after (exec (.hwinAdd 4 1 0x10000 1 15) (after (exec (.tensorDefine 3 1 2 aliasTensor 0 0 15 (some 1))
    (after (exec (.tensorDefine 2 1 1 exampleTensor 0 0 15 none) oneAsid)))))

theorem witness_CommandsAct_alias :
    (tableDesc aliased 1 1).map (fun bw => ((descOf bw).valid, sameShape (descOf aliasTensor) (descOf bw),
        descAccepted (withTable aliasTensor (descOf bw).ttb (descOf bw).ntiles))) = some (true, true, true)
    ∧ ((aliased.openAsid 1).bind (fun e => aliased.growDescs e 3)).isSome = true
    ∧ (aliased.openAsid 1).map (fun e => e.defs.map (fun d => (d.1, d.2.2.2.2))) = some [(1, none), (2, some 1)] := by decide +kernel

theorem witness_CommandsAct_free :
    (aliased.liveAsid 1).map (fun e => (e.windows.map (fun w => (w.hva, w.valid)), (e.defs.find? (fun y => y.1 == 1)).map (fun x => x.2.2.2.2),
        (e.defs.find? (fun y => y.1 == 2)).map (fun x => x.2.2.2.2.isSome))) = some ([(0x10000, true)], some none, some true)
    ∧ (tableDesc aliased 1 1).map (fun d => (descOf d).valid) = some true
    ∧ (tableDesc aliased 1 2).map (fun d => (descOf d).valid) = some true := by decide +kernel

theorem witness_CommandsAct_retire :
    let s := after (exec (.asidRetire 5 1) oneAsid)
    (s.liveAsid 1).map (fun e => (e.retiring, (tileEntries s e).length, (capEntries s e).length, e.windows.length)) = some (true, 16, 0, 0)
    ∧ ((s.liveAsid 1).map (fun e => (tileEntries s e).all (fun x => !(hbmWord s x 8).testBit 63))) = some true
    ∧ s.asidInUse 1 = false ∧ s.mmp.shoots = [] := by decide +kernel

theorem witness_CommandsAct_pin :
    let p : PinReq := { req := 9, asid := 1, need := .window 0x10000 }
    (aliased.modMmp (fun m => { m with pins := [p] })).mmp.pins.find? (fun x => x.req == 9) = some p := by decide +kernel

theorem witness_ResetsAct :
    State.reset.platform.resetting = none ∧ State.reset.platform.safe = false
    ∧ (after (exec .warmReset State.reset)).platform.resetting ≠ none := by decide +kernel

theorem witness_PlatformEventsAct_registers :
    State.reset.platform.safe = false ∧ (15 : Word).toNat % 32 < 16 ∧ (31 : Word).toNat % 32 = 31 ∧ 16 ≤ (30 : Word).toNat % 32
    ∧ (0x8000000000000000 : Word).msb = true ∧ State.reset.platform.reserve = []
    ∧ natBits (0x1002AB980 : Word).toNat 32 16 ≠ 0 ∧ natBits (0x1002AB980 : Word).toNat 0 32 ≠ 0
    ∧ natBits (0x1002AB980 : Word).toNat 0 32 ≤ 2800000 ∧ State.reset.gtc.toNat % 1024 = 0 := by decide +kernel

theorem witness_PlatformEventsAct_power :
    let s := { State.reset with gtc := 3200000 }
    0 < s.gtc.toNat - s.platform.windowAt ∧ s.platform.window ≤ s.gtc.toNat - s.platform.windowAt := by decide +kernel

theorem witness_PlatformEventsAct_heat :
    105 ≤ (105 : BitVec 8).toNat ∧ 65 ≤ (65 : BitVec 8).toNat ∧ (95 : BitVec 8).toNat ≤ 95 ∧ (55 : BitVec 8).toNat ≤ 55
    ∧ 115 ≤ (115 : BitVec 8).toNat ∧ hot.platform.emergency = true ∧ running.platform.emergency = false
    ∧ State.reset.gtc.toNat % 2 ^ 24 = 0 ∧ (47 : BitVec 6).toNat < 48 ∧ State.reset.platform.linksUp.getLsbD 47 = true
    ∧ 4 ≤ (47 : BitVec 6).toNat := by decide +kernel

/-! More clauses of the statements on events -/

/-- A bad word of FSTAT in slot 0 of tile 0, and none. -/
theorem witness_SpecialRegistersMove_bad :
    BadWord.special 0 0 SpecReg.fstat.num.toNat ∈ ({ idle .sa with bad := [.special 0 0 SpecReg.fstat.num.toNat] } : State).bad
    ∧ BadWord.special 0 0 SpecReg.fstat.num.toNat ∉ (idle .sa).bad := by decide +kernel

/-- The barrier of a record that spans two packages, and the pulse of another package's origin tile: this is the second
package of the record. -/
def spanning : State := detRecord.modRecord 1 (fun r => { r with words := r.words.set 3 0x0000000100000014, pkgIndex := 1 })

theorem witness_PresentationsAreClocked_packages :
    (spanning.record 1).map (fun r => (spansPackages r 0, localFull spanning { barrier9 with due := none } r, recDet r.words, r.phase))
      = some (true, true, true, .running)
    ∧ spanning.transfersOpen 1 = false ∧ (spanning.record 1).map (fun r => decide (r.pkgIndex ≠ 0)) = some true
    ∧ spanning.pulses.find? (fun p => p.rid == 1 && p.tile == 0 && decide (p.due ≤ spanning.gtc.toNat)) = none
    ∧ 0 + hopLatency 0 0 + 512 * edgeLinks 0 spanning.node ≤ 600 := by decide +kernel

/-- Every frame is taken: the MMP evicts one. -/
theorem witness_FaultsAreServed_evict :
    let s := queued.modMmp (fun m => { m with nextFrame := maxFrames, freeFrames := [] })
    (s.serveNeeds 1 (firstStack s queuedFault) 0 queuedFault.needs).2 = (.evict 0 0, some (.tile 1 0)) ∧ s.evicting = false
    ∧ (s.mmp.queuedFaults.take 8).find? (fun f => f.id == 2) = some queuedFault := by decide +kernel

/-- A fault of the scheduler, answered; a saved context, whose slot holds no context of its number. -/
theorem witness_FaultsAreServed_others :
    (let s := asking.modFault 2 (fun f => { f with who := .scheduler 4, stage := .answered none })
     (s.fault 2).map (fun f => (f.stage, f.who)) = some (.answered none, .scheduler 4))
    ∧ ((answered none).dropFault 2).tile 0 = asking.tile 0 ∧ (Tile.reset).bankOf 0 1 = none
    ∧ (fault2.who ≠ .scheduler 4) := by decide +kernel

def awayPlace : Watched := { space := .d, home := .node 1 1 0, entry := none, tval := 0 }

def farRun : XRun := { run2 with cmd := { cmd2 with uid := 1, words := #v[0, 0x20000000000, 1, 0, 0x40, 0, 0, 64] } }

/-- Tensor 1 lies in another package, and channel 1 reads it. -/
def remoteTensor : Vector Word 8 := exampleTensor.set 0 (exampleTensor[0] ||| 1)

def readsAway : State :=
  let s := after (exec (.tensorDefine 2 1 1 remoteTensor 0 0 15 none) (after (exec (.asidCreate 1 false 16) (idle .ma))))
  s.modTile 0 (fun x => x.setChannel 1 { Channel.reset with run := some farRun })

theorem witness_FaultsAreServed_refused :
    (remoteFlight (.ctx 0 0 1)).units.any (fun u => u.home.away) = true
    ∧ (let w : Watch := { watch6 with place := awayPlace }
       let s : State := { watching 0 with watches := [w] }
       s.flights.find? (fun f => f.id == 6) = none ∧ s.watches.find? (fun x => x.id == 6) = some w ∧ w.place.home.away = true)
    ∧ readsAway.flights.find? (fun f => f.id == 7) = none ∧ readsAway.watches.find? (fun w => w.id == 7) = none
    ∧ readsAway.remoteReader 7 = some (0, 1, farRun) := by
  decide +kernel

/-- A unit on a lost die, one of a bad word, and the port of a scratchpad. -/
theorem witness_HomesPerformUnits_lost :
    (let s := (atHome (homeUnit (.hbm 0) 8 .load)).modPlatform (fun p => { p with dieLive := 0 })
     (s.grantPort (.hbm 0)).lostHome (s.mapOf (.ctx 0 0 2)) (.hbm 0) none = true)
    ∧ badAt { atHome (homeUnit (.hbm 0) 8 .load) with bad := [.hbm 0] } (.hbm 0) 8 = true
    ∧ (let s := (atHome (homeUnit (.scratch 3 0) 8 .load)).grantPort (.scratch 3 0)
       s.lostHome (s.mapOf (.ctx 0 0 2)) (.scratch 3 0) none = false ∧ homeExists (.scratch 3 0) 8 = true ∧ badAt s (.scratch 3 0) 8 = false
        ∧ 0 < (s.tile 3).limit) := by decide +kernel

/-- A landing that awaits another package's scheduler: of a CANCEL, and of a LAUNCH whose record went to package 1. -/
def asksElsewhere (m : OutMsg) : State :=
  { (issuing .ma).modMe (fun c => c.addLanding (Landing.waiting (.s 3 0) 8 7 .ma)) with out := [m] }

theorem witness_ValuesArrive_elsewhere :
    (let s := asksElsewhere (.cancel 1 1 7)
     s.flights.find? (fun g => g.id == 7) = none ∧ s.awaiting 7 = some (0, 0, s.me) ∧ s.askedElsewhere 7 = true)
    ∧ (let s := asksElsewhere (.record 1 exampleRecord { node := 0, queue := 4, index := 0, tag := 7 })
       s.flights.find? (fun g => g.id == 7) = none ∧ s.awaiting 7 = some (0, 0, s.me) ∧ s.askedElsewhere 7 = true) := by
  decide +kernel

/-- A gather whose queue is empty; an entry that names a frame beyond the memory; a poisoned index. -/
def gathering (w : Word) : XRun :=
  { run2 with cmd := { cmd2 with uid := 1, words := #v[0, w ||| 0x80008000, 1, 0, 0x40, 0, 0, 64] } }

def beyond : State :=
  mapped.writeHbmWord ((entryAddr mapped 1 (.tile 1 0)).getD 0) (tteWord 0 0 0 15 (2 ^ 32 - 1) 0 0)

theorem witness_TransfersRun_gather :
    (gathering 0).cmd.gather = true ∧ chunkElems (copying id) (gathering 0) ≠ 0
    ∧ stagedAs (stageChunk (copying id) 0 (gathering 0) []) = 3
    ∧ stagedAs (stageChunk beyond 0 (farRun) []) = 4
    ∧ (let s := (withQueue 0 0 1 (issuing .xa)).modMe (fun c => c.setQueue 0 { c.queue 0 with held := [{ complete := 0, poison := some 5 }] })
       (popIndices s 0 { gathering 0 with cmd := { (gathering 0).cmd with uid := 2 } } 1).1.isSome = true) := by decide +kernel

/-- A channel whose fault has been answered: it goes on. -/
def mappedCopy : State :=
  (copying (fun _ => refusedRun)).modMmp (fun m => { m with faults := [{ channelFault with stage := .answered none }] })

theorem witness_TransfersRun_answer :
    answeredChannel mappedCopy 0 1 = some ({ channelFault with stage := .answered none }, none)
    ∧ (((mappedCopy.dropFault 2).tile 0).channel 1).run = some refusedRun ∧ refusedRun.fault = some (2, 0)
    ∧ ((((mappedCopy.dropFault 2).modTile 0 (fun y => y.reissue 1 7 (mappedCopy.gtc.toNat - 0))).tile 0).channel 1).run.isSome = true := by
  decide +kernel

/-- A completion without room for its post, in a replica whose buffer is full. -/
theorem witness_TransfersRun_room :
    let full : HeldWrite := { words := List.replicate 2048 0, at_ := 0, pos := .xa, aux := 0, coords := 0 }
    let s := (issuing .xa).modMe (fun c => { c with replica := { c.replica with group := 1, buffer := [full] } })
    postRoom s 0 0 2 7 (postRef 2 0) = false ∧ postRoom (issuing .xa) 0 0 2 7 (postRef 2 0) = true := by decide +kernel

/-- A word with an operation while a write-out is open; a lost MXD; a routine that stands behind its 4,096th word. -/
theorem witness_MatrixOperationsRun_others :
    (let s := (calling 0 1).modPlatform (fun p => { p with dieLive := 0 })
     s.dieLost (s.mapOf (.engine 0 0 2)) 4 = true ∧ (calling 0 1).dieLost (s.mapOf (.engine 0 0 2)) 4 = false)
    ∧ (let m := ((onTile (fun x => { x with mxu := { x.mxu with busyUntil := 9, run := some (mxuRun 84 4097) } })).tile 0).mxu
       m.run = some (mxuRun 84 4097) ∧ (issuing .xa).gtc.toNat < m.busyUntil)
    ∧ [mxuOp (.dense .bf16 [] [] [])].any MxuOp.pendingAcc = true
    ∧ (let s := onTile (fun x => { x with mxu := { x.mxu with store := [(1024, BitVec.ofNat 128 0)], run := some (mxuRun 1024 4096) } })
       ((s.tile 0).mxu.microAt 1024).opa = 0 ∧ (mxuRun 1024 4096).words = 4096) := by decide +kernel

/-- Gather indices that have not come. -/
theorem witness_MatrixOperationsRun_gather :
    let w : MicroOp := { ((calling 21 1).tile 0).mxu.microAt 84 with kg := 3 }
    let r : MxuRun := { mxuRun 84 1 with k := (Vector.replicate 8 (0 : Word)).set 3 (0x8000000000000000 ||| 0x0) }
    let s := withQueue 0 0 0 (calling 21 1)
    gatherWaits s 0 r w = true ∨ gatherOn (kword r.k 3) = false := by decide +kernel

/-- A GLOAD whose image has a bad word; a GRUN whose context has no binding. -/
theorem witness_GrammarCommandsRun_others :
    imageBad { withImage [loadCmd 0x2000] none with bad := [.scratch 0 0x200] } 0 { spmode := 0, keys := 0 } 0x2000 = true
    ∧ (withImage [runCmd runWord] none).uidCtx 0 0 2 = some (withImage [runCmd runWord] none).me
    ∧ (withImage [runCmd runWord] none).me.binding = none
    ∧ (let s := bound2
       (match checkImage (tileReader (s.tile 0) { spmode := 0, keys := 0 }) 0x2000 with
        | .ok img => !s.scratchBad 0 { spmode := 0, keys := 0 } (s.tile 0).limit (BitVec.ofNat 64 (grunXoff runWord)) ((img.ncols + 1) * 2)
        | .fail _ _ => false) = true) := by decide +kernel

/-- A started operation with a carry that is not yet due, and one that is; one whose results nothing takes. -/
theorem witness_ScansRun_carry :
    let o := { scanOp [contribution 0 true false] with started := some 0, carryIn := some (identityCarry (contribution 0 true false), 0) }
    let s := ({ scanning o with gtc := 500 } : State)
    o.carries = true ∧ o.sent = false ∧ (o.dueFor false).isSome = true ∧ (o.dueFor false).map (fun d => decide (d ≤ 500)) = some true
    ∧ (o.dueFor false).map (fun d => decide (0 < d)) = some true ∧ (({ s with node := 0 } : State).modPlatform (fun p => { p with nodes := [0, 1] })).eastNode = some 1
    ∧ (deliverable ((scanning o).sendCarry o) o 0).isNone = true := by decide +kernel

theorem witness_GroupsVoteAndContextsLeave_waits :
    let s := voting3 (some 300) 1 1 1
    let g := group3 (some 300)
    let held : HeldWrite := { words := [heldHeader 5 8 0, 0x10000, 5], at_ := 0, pos := .ma, aux := 0, coords := 0 }
    let waits := (after (exec (.hwinAdd 4 1 0x10000 1 15) s)).modUid 0 0 10 (fun c => { c with replica := { c.replica with
      buffer := [held], cuts := [{ kind := .barrier, n := 1, sig := 1, tag := 0, at_ := 0 }] } })
    ((group3 none).voters.all (fun y => ((voting3 none 1 1 1).frontCut y).isSome)) = true
    ∧ drainHolds s 0 0 .primary = false ∧ (waits.commitVote g (member 0)).isNone = true := by decide +kernel

/-- The records that a package withdraws, forwards, or answers to its launcher. -/
theorem witness_RecordsAreDispatched_forward :
    (offered.modQueue 0 (fun q => { q with withdrawn := [0] })).nextQueue = some 0
    ∧ ((offered.modQueue 0 (fun q => { q with withdrawn := [0] })).queueOf 0).cons.toNat ∈ [0]
    ∧ (offered.queueOf 0).cons.toNat ∉ (offered.queueOf 0).withdrawn
    ∧ State.reset.nextQueue ≠ some 0 ∧ (1 : Nat) ≠ 0
    ∧ recNode0 (exampleRecord.set 11 1) ≠ offered.node ∧ (offered.modPlatform (fun p => { p with nodes := [0, 1] })).platform.nodes.contains 1 = true := by
  decide +kernel

/-- NODE0 asks another package, and hears it. -/
theorem witness_RecordsAreDispatched_asks :
    let two : List Word := [0x1000, 0x0020000000003001, 0, 0x10, 0x21, 0x0000000100000054] ++ List.replicate 26 0
    let s := secondNode.modMmp id
    otherNodes s two = [1] ∧ launchReason s two = 0
    ∧ (let u := (s.pool two 0 (0, 0) []).1
       (u.record s.nextId).map (fun r => (r.phase, (depMiss u r.words).isNone, admits u r examplePlacement (Vector.replicate 4 0)))
        = some (.pooled, true, true))
    ∧ (pooled.record 1).map (fun r => ((pooled.passOver r).reserve r examplePlacement .reserved).isSome) = some true
    ∧ (let u := pooled.modMmp (fun m => { m with nextFrame := maxFrames, freeFrames := [] })
       (u.record 1).map (fun r => (admits u r examplePlacement (Vector.replicate 4 0),
          ((u.passOver r).reserve r examplePlacement .reserved).isNone)) = some (true, true))
    ∧ (running.record 1).map (fun r => r.phase) = some .running
    ∧ (pooled.record 1).map (fun r => admits hot r examplePlacement (Vector.replicate 4 0)) = some false := by decide +kernel

theorem witness_RecordsEnd_others :
    (running.record 1).map (fun r => mayPreempt running r .thermal) = some false
    ∧ ({ running.me with cleared := some (.watch place0 5) } : Context).cleared = some (.watch place0 5)
    ∧ (let u := endedPost.modRecord 1 (fun r => { r with words := (r.words.set 24 0x40000000).set 25 0xC000000000000000 })
       (u.record 1).map (fun r => (r.phase, (u.postCompletion r).1.isNone)) = some (.running, true))
    ∧ (∀ m i, AbortTarget.asid 1 ≠ .part m i) := by
  refine ⟨by decide +kernel, rfl, by decide +kernel, fun m i h => by cases h⟩

theorem witness_CommandsAct_windows :
    (aliased.liveAsid 1).map (fun e => e.windows.any (fun y => y.hva == 0x10000 && y.valid)) = some true
    ∧ (1 : BitVec 20) ≠ 0xFFFFF ∧ (oneAsid.openAsid 1).map (fun e => e.windows.all (fun x =>
        !({ hva := 0x10000, pages := 1, bus := 0, valid := true, resident := false, perm := 15 } : HostWindow).overlaps x)) = some true := by
  decide +kernel

/-- The sensors: cool since a cycle, and warm. -/
theorem witness_PlatformEventsAct_cool :
    let s := hot.modPlatform (fun p => { p with coolSince := some 0 })
    s.platform.emergency = true ∧ s.platform.coolSince = some 0 ∧ 0 + 2 ^ 24 ≤ ({ s with gtc := 0x1000000 } : State).gtc.toNat
    ∧ s.gtc.toNat < 0 + 2 ^ 24 ∧ ¬ ((96 : BitVec 8).toNat ≤ 95 ∧ (55 : BitVec 8).toNat ≤ 55) ∧ (96 : BitVec 8).toNat < 105
    ∧ hot.platform.coolSince = none ∧ (State.reset.modPlatform (fun p => { p with safe := true })).platform.safe = true
    ∧ (3 : BitVec 3) ≠ 0 := by decide +kernel

/-! ### Further clauses, one witness for each case -/

/-- A bundle without POP and RSP, and a redirect that takes effect at its end. -/
theorem witness_BundleEndAdvances_end :
    (base 0).fetch.pop = 0 ∧ (base 0).fetch.rsp = false ∧ (base 0).me.deferred = []
    ∧ (let c : Context := { (base 0).me with redirects := [{ due := 1, target := 64 }] }
       c.redirects.find? (fun r => r.due == c.bcnt + 1) = some { due := 1, target := 64 })
    ∧ ((1 : Nat) ≠ (base 0).cur.tile.toNat ∨ Bank.second = .second) := by decide

/-- A third loop; an immediate loop register that is not s0. -/
theorem witness_DividesAndLoopsAct_third :
    let l : LoopState := { top := 0, m := 1, n := 1, k := 1, depth := 1, i := 0 }
    let s := (idle .sa).modMe (fun c => { c with loops := [l, l] })
    s.cur.pos = .sa ∧ 2 ≤ s.me.loops.length ∧ (2 : SReg) ≠ 0 ∧ (loopCounts (1 + 1 <<< 16 + 1 <<< 32 + 1 <<< 51)).m ≠ 0
    ∧ (1 + 1 <<< 16 + 1 <<< 32 + 1 <<< 51 : Word) >>> 51 ≠ 0 := by decide

/-- A quotient with a zero divisor and with a busy divider, in a narrow unsigned form. -/
theorem witness_DividesAndLoopsAct_narrow :
    let s := idle .sb |> withReg (.s 2 0x100)
    let t := after (exec (.divn .n8 3 2 1) (s |> withReg (.s 1 3)))
    TypeCode.unsignedOk .n8 = true ∧ TypeCode.low .n8 (s.me.sreg 2) = 0 ∧ dividerSpan s.me s.cur.pos = none
    ∧ dividerSpan t.me t.cur.pos = some 0
    ∧ ¬ ((t.here.dividers[(dividerOf t.cur.pos).val]'(dividerOf t.cur.pos).isLt).2 ≠ t.me.uid
        ∧ t.gtc.toNat < (t.here.dividers[(dividerOf t.cur.pos).val]'(dividerOf t.cur.pos).isLt).1) := by decide +kernel

/-- A deterministic context before and after its first pulse; a replica and a context in no group; two registers. -/
theorem witness_SpecialRegistersMove_reads :
    let s := (idle .sa).modMe (fun c => { c with det := true })
    s.me.det = true ∧ s.me.pulseAt = none ∧ ({ s.me with pulseAt := some 0 } : Context).pulseAt = some 0
    ∧ s.groupOf s.me = none ∧ SpecReg.readOnly .rgrp = true ∧ SpecReg.qstat ≠ .fstat ∧ SpecReg.fstat ≠ .qstat
    ∧ SpecReg.supervisorOnly .tvec = true ∧ s.me.sup = false := by decide +kernel

/-- Entries with and without a poison mark, of a quire and of another register. -/
theorem witness_LandingChangesOnlyTheQueue :
    let l := Landing.ready (.s 1 5) 4 0 .sa
    let q := Landing.ready (.q 1 Quire.zero) 4 0 .va
    ({ l with poison := some 9 } : Landing).poison = some 9 ∧ l.poison = none ∧ (∀ r x, l.write ≠ .q r x)
    ∧ q.write = .q 1 Quire.zero ∧ (0 : QReg) ≠ 1 ∧ (q.overflow = false ∨ Context.reset.special.qcfg.getLsbD 0 = false)
    ∧ (1 : Nat) ≠ (idle .sa).cur.tile.toNat := by
  refine ⟨rfl, rfl, ?_, rfl, by decide, by decide, by decide⟩
  intro r x h
  cases h

/-! #### Rounding -/

/-- 3 in FP32 and in T8; a tie between two E5M2 values; a value above and one below every E5M2 value; the random word 0. -/
theorem witness_RoundingIsCorrect_round :
    let three : Sys2Proof.Machine.Dyadic := { m := 3, e := 0 }
    let tie : Sys2Proof.Machine.Dyadic := { m := 9, e := -3 }
    let huge : Sys2Proof.Machine.Dyadic := { m := 1, e := 40 }
    let tiny : Sys2Proof.Machine.Dyadic := { m := 1, e := -40 }
    Fmt.isFloat .f32 = true ∧ Fmt.isFloat .e5m2 = true ∧ Fmt.isFloat (.tap .w8 1) = true
    ∧ (three.m ≠ 0 ∧ tie.m ≠ 0 ∧ huge.m ≠ 0 ∧ tiny.m ≠ 0)
    ∧ decodeFmt .f32 0x40400000 = .fin { m := 0xC00000, e := -22 } ∧ (0xC00000 * 2 ^ 0 : Int) = 3 * 2 ^ 22
    ∧ (roundT .f32 .nearest three).2.getLsbD 2 = false
    ∧ (decodeFmt .e5m2 0x3C = .fin { m := 4, e := -2 } ∧ decodeFmt .e5m2 0x3D = .fin { m := 5, e := -2 }
      ∧ (roundT .e5m2 .nearest tie).1 = 0x3C ∧ isTap .e5m2 = false
      ∧ ((4 * 2 - 9 : Int).natAbs = (5 * 2 - 9 : Int).natAbs))
    ∧ (roundT .e5m2 .nearest huge).2.getLsbD 2 = true ∧ (roundT .e5m2 .nearest tiny).2.getLsbD 1 = true
    ∧ (roundT (.tap .w8 1) .nearest huge).2.getLsbD 5 = true ∧ (roundT .e5m2 (.stochastic 0) tie).2.getLsbD 5 = false := by
  decide +kernel

/-- A NaN, the infinities, the zeros, and finite values whose order differs; strings of a tapered format. -/
theorem witness_RoundingIsCorrect_lanes :
    (decodeFmt .f32 0x7FC00000).isNan = true ∧ decodeFmt .f32 0x7F800000 = .inf false ∧ decodeFmt .f32 0xFF800000 = .inf true
    ∧ decodeFmt .f32 0 = .zero false ∧ decodeFmt .f32 0x80000000 = .zero true
    ∧ (decodeFmt .f32 0).isNan = false ∧ isTap .f32 = false ∧ isTap (.tap .w8 1) = true
    ∧ decodeFmt .f32 0x3F800000 = .fin { m := 0x800000, e := -23 } ∧ decodeFmt .f32 0x40000000 = .fin { m := 0x800000, e := -22 }
    ∧ (BitVec.ofNat 8 0x81).toInt < (BitVec.ofNat 8 0x7F).toInt ∧ (0x81 : Nat) < 2 ^ 8
    ∧ (-336 : Int) ≤ -336 ∧ ((1 : Int) * 2 ^ ((-336 : Int) + 336).toNat) ≠ 0 := by decide +kernel

theorem witness_RoundingIsCorrect_order :
    ∀ e : Int, e ≤ -23 → e ≤ -22 → (0x800000 : Int) * 2 ^ ((-23 : Int) - e).toNat < 0x800000 * 2 ^ ((-22 : Int) - e).toNat := by
  intro e h _
  have h1 : ((-22 : Int) - e).toNat = ((-23 : Int) - e).toNat + 1 := by omega
  have h2 : (0 : Int) < 2 ^ ((-23 : Int) - e).toNat := Int.pow_pos (by decide)
  rw [h1, Int.pow_succ]
  omega

/-- Conversions: to another float and to its own format, to an integer, and of each special value. -/
theorem witness_RoundingIsCorrect_conversions :
    decodeFmt .f32 0x40400000 = .fin { m := 0xC00000, e := -22 } ∧ Fmt.legal .f32 = true ∧ Fmt.isFloat .e4m3 = true
    ∧ Fmt.f32 ≠ .e4m3 ∧ (.f32 : Fmt) ≠ .int true .w8 ∧ Fmt.legal (.int true .w8) = true
    ∧ (2 * (3 * 2 ^ (22 : Nat) - 0xC00000 * 2 ^ (0 : Nat) : Int).natAbs < 2 ^ 22)
    ∧ decodeFmt .f32 0x80000000 = .zero true ∧ decodeFmt .f32 0xFF800000 = .inf true
    ∧ decodeFmt .f32 0xFFC00000 = .nan true ∧ decodeFmt (.tap .w8 1) 0x80 = .nar := by decide +kernel

/-- Operands of the functions. -/
theorem witness_RoundingIsCorrect_functions :
    Fmt.isTransc .f32 = true ∧ (decodeFmt .f32 0x7FC00000).isNan = true ∧ decodeFmt .f32 0 = .zero false
    ∧ decodeFmt .f32 0x7F800000 = .inf false ∧ decodeFmt .f32 0xBF800000 = .fin { m := -0x800000, e := -23 }
    ∧ decodeFmt .f32 0x40000000 = .fin { m := 0x800000, e := -22 }
    ∧ ((2 : Int).natAbs < 1024 ∧ (0x800000 : Int) * 2 ^ (-22 : Int).toNat = 2 * 2 ^ (22 : Int).toNat)
    ∧ (0 : Int) < 0x800000 ∧ (0x800000 : Int) * 2 ^ (-22 - 1 : Int).toNat = 2 ^ (1 - -22 : Int).toNat
    ∧ decodeFmt .f32 (laneFn .rcp .f32 0x40000000).1 = .fin { m := 0x800000, e := -24 }
    ∧ (laneFn .rcp .f32 0x40000000).1 < 2 ^ 32 := by decide +kernel

/-! #### Accesses -/

/-- The context of the cursor has acquired operation 8, a write of its own that is open. -/
def holding (s : State) : State :=
  { s with flights := [{ remoteFlight (.ctx 0 0 s.me.uid) with units := [homeUnit (.hbm 0) 8 (.store [1])] }], nextId := 20 }.modMe
    (fun c => { c with acquiring := [8], fenceRel := [8] })

/-- A transfer still has to write the 64 bytes of `exampleCmd` from 0x40 on; a store that runs over the limit. -/
theorem witness_CoreAccessesReadAndWrite_range :
    let s := idle .ma
    let a : Word := BitVec.ofNat 64 (s.here.limit - 4)
    (∀ f ∈ s.flights, f.writes = false) ∧ s.here.limit ≤ (a + BitVec.ofNat 64 4).toNat
    ∧ (∀ j, j < 4 → (a + BitVec.ofNat 64 j).toNat < s.here.limit) ∧ ((1 : SlotNo) ≠ s.cur.slot ∨ Bank.primary = .second)
    ∧ (∀ i, i < 8 → ((0x40 : Word) + BitVec.ofNat 64 i).toNat < s.here.limit) := by decide +kernel

/-- Indices 0 and 256 of words: one bank and two rows. Indices 0 alone: no clash. Bytes that a transfer has not written. -/
theorem witness_CoreAccessesReadAndWrite_lanes :
    let s := idle .ma |> withReg (.s 1 0x40) |> withReg (.s 2 0x42) |> withReg (.v 2 (BitVec.ofNat 2048 (256 * 2 ^ 32)))
    let c := s.me
    let at_ (v : Vec) (l : Nat) : Word := c.sreg 1 + BitVec.ofNat 64 (4 * laneNat .w32 v l)
    let bank (a : Word) : Nat := bankOf c.special.spmode c.special.keys a.toNat
    let own (a : Word) := activeOffsets (activeLanes .w32 (c.mreg 0)) (fun l => a + BitVec.ofNat 64 (4 * l))
    LaneW.w32 ≠ .w8 ∧ lanesBlock s 4 (own 0x40) = none ∧ s.coreWaits false = false ∧ s.coreWaits true = false
    ∧ (effAddr c 2 (.short (0 : BitVec 6)) 16).toNat % 16 ≠ 0 ∧ (effAddr c 1 (.short (0 : BitVec 6)) 16).toNat % 16 = 0
    ∧ (lanesBlock (withCmd s) 4 (own 0x40)).isSome = true
    ∧ (lanesBlock (withCmd s) 4 (indexedLanes c .w32 1 0 0)).isSome = true
    ∧ lanesBlock s 4 (indexedLanes c .w32 1 2 0) = none ∧ (c.sreg 1).toNat % 4 = 0
    ∧ (at_ (c.vreg 2) 0).toNat < s.here.limit ∧ (at_ (c.vreg 2) 1).toNat < s.here.limit
    ∧ bank (at_ (c.vreg 2) 0) = bank (at_ (c.vreg 2) 1)
    ∧ natBits (at_ (c.vreg 2) 0).toNat 10 11 ≠ natBits (at_ (c.vreg 2) 1).toNat 10 11
    ∧ (∀ l, l < 64 → at_ 0 l = 0x40) ∧ s.sourceReady (.v 1) = true ∧ (c.mreg 0).getLsbD 1 = true := by decide +kernel

theorem witness_CoreLoadsAndStoresAct_later :
    let s := holding (idle .ma |> withReg (.s 1 0x40))
    let at1 := effAddr s.me 1 (.short (0 : BitVec 7)) 8
    s.watermarkBlock at1 8 = none ∧ at1.toNat % 8 = 0 ∧ s.coreWaits false = true ∧ s.coreWaits true = true
    ∧ (idle .ma).coreWaits true = false ∧ (∀ g ∈ s.flights, g.id ≠ s.nextId)
    ∧ (at1.toNat < s.here.limit) := by decide +kernel

/-- Element 100 of the tensor lies outside it, and of the vector at element 96 the first four lie inside. -/
theorem witness_TranslatedStoresLeave_outside :
    let s := mapped
    (s.translated (.tensor 1 100 .elem) 0b0100 ∧ unitsOf (fun p => .store (p.slice [1])) (s.foundHere (.tensor 1 100 .elem)) = []
      ∧ unitsOf (fun p => .store (p.slice [1])) (s.foundHere (.tensor 1 0 .elem)) ≠ [])
    ∧ (cachedDesc s 0 s.me.asid 1).map (fun d => ((d.place (coordsOf 100)).isNone, d.elemBytes)) = some (true, 8)
    ∧ (cachedDesc s 0 s.me.asid 1).map (fun d => ((d.place (coordsOf 99)).isSome)) = some true
    ∧ (1 : Word) ≠ 0 ∧ s.me.answer = none ∧ (Target.tensor 1 64 .elem).needs s 0 s.me.asid ≠ [] := by
  simp only [State.translated]; decide +kernel

/-- A counter that waits; one whose sum passes the top, and one whose amount is negative; a watch that is answered; a
comparator of another context; operands of WARM off their alignment or range. -/
theorem witness_CountersFencesAndWakes_waits :
    let s := holding (idle .ma |> withReg (.s 1 0x40) |> withReg (.s 2 5) |> withReg (.s 4 0x80) |> withReg (.s 5 0x48))
    let old : Comparator := { uid := s.me.uid, lo := 0, hi := 16, filter := 1, since := 0 }
    let other := s.modHere (fun x => x.setComparator 0 (some { old with uid := 77 }))
    s.me.plain = true ∧ s.coreWaits true = true ∧ s.coreWaits false = true ∧ (s.counterS 0x40).toNat + 5 < 2 ^ 64
    ∧ s.releases s.me 0 .pkg ≠ [] ∧ s.me.observed = none ∧ waitThr s.me (.reg 0) = 0 ∧ waitThr s.me (.reg 2) ≠ 0
    ∧ other.here.comparator 0 = some { old with uid := 77 } ∧ (77 : Nat) ≠ s.me.uid
    ∧ (s.me.sreg 5).toNat % 16 ≠ 0 ∧ (s.me.sreg 1).toNat % 16 = 0 ∧ (s.me.sreg 4).toNat ≤ (s.me.sreg 4).toNat
    ∧ s.here.limit < (0x7FFFFFF0 : Word).toNat ∧ ((0x7FFFFFF0 : Word).toNat % 16 = 0)
    ∧ (let y := (idle .ma).here.setComparator 0 (some old)
       y.comparator 0 = some old ∧ old.since ≤ 9 ∧ ({ old with since := 9 + 1 } : Comparator).since = 9 + 1) := by decide +kernel

/-- Counters in N: this tile's at 0x40. -/
theorem witness_RemoteCountersAct_near :
    let x : Word := 0x40
    let s := idle .ma |> withReg (.s 1 (0x8000000000000000 ||| x)) |> withReg (.s 2 5) |> withReg (.s 3 (-1))
    let near : AccessUnit :=
      { home := .scratch (nTileId x) (ctrOff x).toNat, off := 0, len := 8, op := .load, done := false, entry := none }
    s.me.plain = true ∧ (s.me.sreg 1).msb = true ∧ x.toNat % 8 = 0 ∧ nAddrOk x = true ∧ s.me.det = false
    ∧ (s.me.sreg 2).msb = false ∧ (s.me.sreg 3).msb = true ∧ Ord.acqOnly .relaxed = true
    ∧ s.me.observed = none ∧ ({ s.me with observed := some 4 } : Context).observed.isSome = true
    ∧ waitThr s.me (.reg 0) = 0 ∧ waitThr s.me (.reg 2) ≠ 0
    ∧ s.afterOf s.me 0 [near] false .relaxed = [] ∧ (holding s).afterOf (holding s).me 0 [near] false .relaxed ≠ []
    ∧ BitVec.ofNat 64 (natOfBytes (placeRead s near.home 8 0)) < waitThr s.me (.reg 2)
    ∧ placeTrap s (.ctx 0 0 s.me.uid) .n x near.home none 8 = none
    ∧ (placeTrap { s with bad := [.scratch 0 4] } (.ctx 0 0 s.me.uid) .n x near.home none 8).isSome = true
    ∧ (0x41 : Word).toNat % 8 ≠ 0 ∧ nAddrOk 0x7000000000000000 = false ∧ (0x7000000000000000 : Word).toNat % 8 = 0 := by
  decide +kernel

/-- Counters in the tensor: mapped, and in a tile that nothing maps. -/
theorem witness_RemoteCountersAct_far :
    let s := mapped |> withReg (.s 1 1) |> withReg (.s 2 5) |> withReg (.s 3 (-1))
    let g : Target := .tensor (s.me.sreg 1) (s.me.sreg 0) .elem
    (2 : SReg) ≠ 0 ∧ (s.translated g 0b1110 ∧ s.translated g 0b1000)
    ∧ elementTrap s 0 s.me.asid (s.me.sreg 1) (s.me.sreg 0) .elem [3, 7] = none
    ∧ (unitsOf (fun _ => .load) (s.foundHere g)).map (fun u => u.home.readable) = [true]
    ∧ s.me.answer = none ∧ (Target.tensor 1 64 .elem).needs s 0 s.me.asid ≠ [] ∧ (s.me.sreg 3).msb = true := by
  simp only [State.translated]; decide +kernel

/-! #### Extended instructions -/

/-- HCFG of a window by a word that breaks its rules, of a queue with a load on its way, from memory off its alignment,
and from bytes that a transfer has not written; HPUSH behind a load. -/
theorem witness_QueuesAreConfiguredAndUsed_window :
    let s := idle .xa |> withReg (.s 2 0x41) |> withScratch 0 (bytesOfNat 8 0x8000000000000000)
    let at2 := effAddr s.me 2 (.short (0 : BitVec 11)) 8
    let at0 := effAddr s.me 0 (.short (0 : BitVec 11)) 8
    let held := (withQueue 3 0 0 s).modMe (fun c => c.setQueue 3 { c.queue 3 with resv := [{ id := 1, done := none, logAt := none }] })
    (23 : BitVec 5).toNat < 24 ∧ hcfgQueue 23 = none ∧ windowWordOk (s.me.sreg 2) 0 = false
    ∧ s.watermarkBlock at2 8 = none ∧ at2.toNat % 8 ≠ 0
    ∧ (s.watermarkBlock at0 8 = none ∧ at0.toNat % 8 = 0 ∧ s.corePoison at0 8 = none)
    ∧ windowWordOk (BitVec.ofNat 64 (natOfBytes ((idle .xa).coreBytes at0 8))) 0 = true
    ∧ windowWordOk (BitVec.ofNat 64 (natOfBytes ((idle .xa |> withScratch 0 [1]).coreBytes at0 8))) 0 = false
    ∧ ((withCmd (s |> withReg (.s 1 0x40))).watermarkBlock 0x40 8).isSome = true
    ∧ held.queueRoom 3 = true ∧ (held.me.queue 3).resv ≠ []
    ∧ (queueOfWord 0 5).held = [] ∧ (queueOfWord (0xC000000000000000 ||| (0x1000 : Word) <<< 32 ||| 0x10000) 5).held ≠ [] := by decide +kernel

/-- The unit owned by nobody and by another context, idle and busy, and with the results of another address space. -/
theorem witness_EngineCommandsAct_owner :
    let m := (issuing .xa).here.mxu
    m.owner = none ∧ m.busy (issuing .xa).gtc.toNat = false ∧ m.callable 21 = true
    ∧ (let o := (mxuOwned 77).here.mxu
       o.owner = some (0, 77) ∧ o.busy (issuing .xa).gtc.toNat = false ∧ o.callable 21 = true)
    ∧ 256 ≤ (256 : BitVec 10).toNat ∧ (issuing .xa).watermarkBlock ((issuing .xa).me.sreg 0) 64 = none
    ∧ ((calling 21 1).here.mxu.busy (calling 21 1).gtc.toNat = true ∧ (calling 21 1).here.mxu.callable 21 = true)
    ∧ (let o := (onTile (fun x => { x with mxu := { x.mxu with lastAsid := some 9 } })).here.mxu
       o.owner = none ∧ o.clearing = none ∧ o.mustClear (issuing .xa).me.asid = true) := by decide +kernel

/-- A replica and a context without one, in supervisor mode; the first word of a held store under a mask. -/
theorem witness_ScansReplicasAndLaunchesAct_replica :
    let s := (issuing .xa).modMe (fun c => { replicaCtx 1 1 with sup := true, queues := c.queues })
    (s.me.holds = true ∧ s.me.sup = true ∧ s.me.replica.group ≠ 0 ∧ s.me.replica.stack = fld (1 : Word) 0 2
      ∧ s.me.replica.stack ≠ fld (2 : Word) 0 2)
    ∧ (issuing .xa).me.replica.group = 0 ∧ (issuing .xa).me.log.active = false ∧ (issuing .xa).me.plain = true
    ∧ heldData [1, 0, 0, 0, 0, 0, 0, 0, 2] = [1, 2]
    ∧ (s.modMe (fun c => { c with replica := { c.replica with inject := some 6 } })).me.replica.inject = some 6 := by decide +kernel

/-! #### Events of memory and of the engines -/

/-- A load of the context's own scratchpad that an earlier access has held. -/
theorem witness_HomesPerformUnits_core :
    let u := homeUnit (.scratch 0 0x40) 8 .load
    let f : Flight := { homeFlight u with space := .s, writes := false, sink := .core (.word .x64) }
    let s : State := { issuing .ma with flights := [f] }
    s.flights.find? (fun g => g.id == f.id) = some f ∧ f.units[0]? = some u ∧ s.canPerform f 0 = true ∧ f.space = .s
    ∧ f.units = [u] ∧ u.op = .load ∧ u.home = .scratch 0 0x40 ∧ s.lostHome (s.mapOf f.issuer) u.home u.entry = false := by
  decide +kernel

/-- That load arrives; a watch whose home is not to be read before an earlier access. -/
theorem witness_ValuesArrive_core :
    (let f := arrived (.core (.word .x64))
     let s := { (issuing .ma).modMe (fun c => c.addLanding (Landing.waiting (.s 3 0) 4 8 .ma)) with flights := [f] }
     s.flights.find? (fun g => g.id == f.id) = some f ∧ f.issuer = .ctx 0 0 2 ∧ f.isOpen = false
      ∧ f.sink = .core (.word .x64) ∧ s.uidCtx 0 0 2 = some s.me ∧ (s.me.awaits f.id).isSome = true)
    ∧ (let s := (watching 0).modTile 0 (fun x => x.setCtx 0 .primary { (watching 0).ctx 0 0 .primary with acquiring := [8] })
       let u : State := { s with flights := [homeFlight (homeUnit (.hbm 64) 8 (.store [1]))] }
       u.afterOf (u.ctx 0 0 .primary) 0 [watch6.unit u] false .relaxed ≠ []) := by decide +kernel

/-- A store of a tile that lies outside its tensor; a follower's input; a release into S by a replica. -/
def outsideCmd : XCmd := { cmd2 with tiled := true, words := #v[0, 0x100000000000, 0x40, 0, 1, 100, 0x200, 64] }

theorem witness_TransfersRun_outside :
    let s := mapped
    let x : XCmd := { outsideCmd with uid := 1 }
    let r : XRun := { run2 with cmd := x }
    (r.cmd.srcSpace = 0 ∧ r.cmd.allOutside s = true ∧ chunkReady s r = true ∧ r.held = [])
    ∧ (run2.cmd.srcSpace = 0 → run2.cmd.allOutside s = false) := by decide +kernel

/-- A replica that is not the lead, and a replayed context, with a load of D. -/
def followerInput (lead : Nat) (replay : Bool) : State :=
  let c : Context := { replicaCtx 1 1 with uid := 2, log := { Context.reset.log with active := replay, replay := replay } }
  { (onTile id).modTile 0 (fun x => x.setCtx 0 .primary c) with groups := [{ group3 none with lead := BitVec.ofNat 2 lead }] }

def inputRun : XRun := { run2 with cmd := { cmd2 with words := #v[0, 0x20000000000, 1, 0, 0x40, 0, 0x200, 64] } }

theorem witness_TransfersRun_supplied :
    suppliedRun (followerInput 0 false) 0 inputRun = some false ∧ suppliedRun (followerInput 1 false) 0 inputRun = none
    ∧ suppliedRun (followerInput 1 true) 0 inputRun = some true ∧ inputRun.held = []
    ∧ chunkReady (followerInput 0 false) inputRun = true := by decide +kernel

/-- A replica's completion with REL and a counter in S: before its cut and after it. -/
theorem witness_TransfersRun_cut :
    let d : XDone := { done2 with cmd := { cmd2 with words := #v[0, 0x401000000000, 0x100, 0, 0x40, 0, 0x200, 64] } }
    let s := followerInput 0 false
    let t := s.modTile 0 (fun x => { x with done := [d] })
    (d.cmd.csp = 1 ∧ d.cmd.rel = true ∧ d.noPost = false)
    ∧ t.mustCut 0 0 2 d.cmd.cid d.cmd.rel = true ∧ completionReady t 0 d = true
    ∧ (t.cutPost 0 0 2 d.cmd.cid).mustCut 0 0 2 d.cmd.cid d.cmd.rel = false
    ∧ ({ d with noPost := true } : XDone).noPost = true ∧ t.mustCut 0 0 2 d.cmd.cid false = false := by decide +kernel

/-- Words of each kind in their time; a routine that is still busy; a claim that waits, and a clear that another
operation, a routine and trailing words hold up. -/
theorem witness_MatrixOperationsRun_claims :
    (let m := ((calling 21 1).tile 0).mxu
     m.run = some (mxuRun 84 1) ∧ m.busyUntil ≤ (calling 21 1).gtc.toNat ∧ (mxuRun 84 1).words ≤ 4096)
    ∧ (let s := (standingAt .primary (.blocked .mxuOwned)).modTile 0 (fun x => { x with mxu := { x.mxu with lastAsid := some 9 } })
       let m := (s.tile 0).mxu
       m.clearing = none ∧ m.owner = none ∧ (s.tile 0).claims.length = 1
        ∧ (∀ y ∈ (s.tile 0).claims, m.mustClear y.2.asid = true))
    ∧ (let c := ((onTile (fun x => { x with mxu := { x.mxu with clearing := some (0, 2, 0), busyUntil := 9 } })).tile 0).mxu
       c.clearing = some (0, 2, 0) ∧ (issuing .xa).gtc.toNat < c.busyUntil)
    ∧ (let c := ((onTile (fun x => { x with mxu := { x.mxu with clearing := some (0, 2, 0) } })).tile 0).mxu
       c.run = none ∧ c.busyUntil ≤ (issuing .xa).gtc.toNat ∧ c.ops.any MxuOp.pendingAcc = false) := by decide +kernel

/-- A write-out that a replica posts under REL. -/
theorem witness_MatrixOperationsRun_cut :
    let o : MxuOp := { mxuOp (.writeOut 8192 0 (some 64)) with rel := true }
    let s := (followerInput 0 false).modTile 0 (fun x => { x with mxu := { x.mxu with ops := [o] } })
    completableOp s 0 = some o ∧ s.mustCut 0 0 2 o.cid o.rel = true ∧ (s.cutPost 0 0 2 o.cid).mustCut 0 0 2 o.cid o.rel = false
    ∧ completableOp (s.cutPost 0 0 2 o.cid) 0 = some o := by decide +kernel

/-- GRUNs behind a failed GLOAD that may post and that wait; posts under ORD and under REL; a replica's cut. -/
def runOrd (o : CmdOrd) (earlier after : List Nat) : GeuCmd :=
  .run 0 2 7 runWord (some 0x200) true .f32 o 0 0 earlier after 0

theorem witness_GrammarCommandsRun_ends :
    let failed : GeuRunning := { geuRunning with next := 1, trap := some { name := .brk, tval := 0 } }
    let s := withImage [loadCmd 0x2000, runOrd .ord [9] []] (some failed)
    let waits := s.modTile 0 (fun x => { x with buffer := [{ cmd2 with cid := 9 }] })
    let rel := (withImage [runOrd (.rel .pkg) [] [8]] (some geuRunning))
    let open_ : State := { rel with flights := [remoteFlight (.ctx 0 0 2)] }
    runsBehind 2 [runOrd .ord [9] []] = [runOrd .ord [9] []]
    ∧ runsOrdered s 0 (s.tile 0) (loadCmd 0x2000) (runsBehind 2 [runOrd .ord [9] []]) = true
    ∧ runsOrdered waits 0 (waits.tile 0) (loadCmd 0x2000) (runsBehind 2 [runOrd .ord [9] []]) = false
    ∧ (runsBehind 2 [runOrd .ord [9] []]).any (geuMustCut s 0) = false
    ∧ waits.postsMade (waits.tile 0) [9] = false ∧ open_.openOp 8 = true ∧ rel.openOp 8 = false
    ∧ rel.awaitsCut 0 0 2 7 = false ∧ failed.due ≤ s.gtc.toNat ∧ failed.pieces.length ≤ failed.next := by decide +kernel

theorem witness_GrammarCommandsRun_cut :
    let s := (followerInput 0 false).modTile 0 (fun x => { x with geu := { x.geu with queue := [runOrd (.rel .pkg) [] []], running := some { geuRunning with next := 1 } } })
    (s.tile 0).geu.queue = [runOrd (.rel .pkg) [] []] ∧ s.awaitsCut 0 0 2 7 = false ∧ s.mustCut 0 0 2 7 true = true := by decide +kernel

/-- Carries that are held, that come for an operation of a channel, and that nothing awaits; a saved context with room
and without, and one that is gone. -/
theorem witness_ScansRun_held :
    let o := scanOp [contribution 0 true false]
    let h : HeldCarry := { ch := 0, k := 0, words := [], at_ := 1 }
    let s : State := { scanning o with carries := [h] }
    (o.started = none ∧ o.full = true ∧ o.lastAt < s.gtc.toNat ∧ o.carries = true ∧ o.carryIn = none)
    ∧ s.channelTaken o = false ∧ s.carries.find? (fun y => y.ch == o.ch && y.k == o.k) = some h
    ∧ (scanning o).scans.find? (carryNames (.op 6)) = some o ∧ (scanning o).scans.find? (carryNames (.channel 0 0)) = some o
    ∧ (scanning o).scans.find? (carryNames (.channel 1 0)) = none
    ∧ s.carries.any (fun y => y.ch == 0 && y.k == 0) = true ∧ s.carries.any (fun y => y.ch == 1 && y.k == 0) = false := by
  decide +kernel

theorem witness_ScansRun_saved :
    let s0 := { scanning startedScan with gtc := 500 }
    let y (n : Nat) : SavedCtx :=
      { saveCtx s0 0 0 .primary with ctx := (withQueue 2 2 n s0).me }
    let gone := s0.modTile 0 (fun x => x.setCtx 0 .primary Context.reset)
    let s (n : Nat) := gone.modRecord 1 (fun r => { r with savedCtxs := [y n] })
    (deliverable (s 0) startedScan 0).isSome = true ∧ (s 0).uidCtx 0 0 2 = none ∧ ((s 0).savedCtx 1 2) = some (y 0)
    ∧ ((y 0).ctx.queue 2).full = false ∧ ((y 1).ctx.queue 2).full = true ∧ (gone.savedCtx 1 2).isNone = true := by decide +kernel

/-! #### Groups, records and the platform -/

/-- A report behind bytes that have not entered; a delivery for a context that is saved, and for one that is gone. -/
theorem witness_GroupsVoteAndContextsLeave_saved :
    let bytes : TongsItem := { tongs4 7 with id := 3, val := .bytes 0x40 [1] }
    let report : TongsItem := { tongs4 0 with val := .report 5 }
    let s : State := { issuing .ma with tongs := [bytes, report] }
    let gone : State := { s.modTile 0 (fun x => x.setCtx 0 .primary Context.reset) with tongs := [tongs4 7] }
    let kept := gone.modRecord 1 (fun r => { r with savedCtxs := [saveCtx s 0 0 .primary] })
    s.tongs.find? (fun j => j.id == report.id) = some report ∧ report.val.writes = false ∧ s.bytesBefore report = true
    ∧ s.bytesBefore bytes = false ∧ gone.uidCtx 0 0 2 = none
    ∧ kept.records.any (fun r => r.savedCtxs.any (fun x => x.ctx.uid == 2)) = true
    ∧ gone.records.any (fun r => r.savedCtxs.any (fun x => x.ctx.uid == 2)) = false
    ∧ (tongs4 7).val = .word 1 9 none none := by decide +kernel

/-- A trap of the lead that a follower has reached. -/
theorem witness_GroupsVoteAndContextsLeave_trap :
    let i : TongsItem := { tongs4 0 with val := .trap { name := .memData, tval := 0 } }
    i.val = .trap { name := .memData, tval := 0 } ∧ (issuing .ma).me.bcnt.ult i.at_ = false := by decide +kernel

/-- A Draining replica with a held write and no cut; the virtual dies of a physical one. -/
theorem witness_GroupsVoteAndContextsLeave_last :
    let held : HeldWrite := { words := [heldHeader 5 8 0, 0x10000, 5], at_ := 0, pos := .ma, aux := 0, coords := 0 }
    let c := replicaCtx 0 1
    let s := running.modTile 0 (fun x => x.setCtx 0 .primary
      { c with status := .draining, replica := { c.replica with cuts := [], buffer := [held] } })
    ([Bank.primary, .second].all (fun b => !drained s 0 0 b) = true) ∧ drainHolds s 0 0 .primary = true
    ∧ drainHolds (s.cutOf 0 0 c.uid .exit 0 (s.ctx 0 0 .primary).bcnt) 0 0 .second = false
    ∧ ([Bank.primary, .second].all (fun b => !drained (issuing .ma) 0 0 b && !drainHolds (issuing .ma) 0 0 b) = true)
    ∧ 4 ∈ virtualOf State.reset.platform.dieMap 4 ∧ State.reset.platform.dieMap.toList[4]? = some (true, 4) := by decide +kernel

/-- The origin of a record of package 1 with and without a LAUNCH, and a state of that package. -/
def launchedAt (tag : Nat) : Origin := { node := 1, queue := 4, index := 0, tag := tag }

/-- A record that goes on from here: what it follows is open or performed, or it is not known here. -/
theorem witness_RecordsAreDispatched_relay :
    let ws := exampleRecord.set 11 1
    let l := launchedAt 7
    let y (after : List Nat) : Relay := { words := ws, src := l, after := after }
    let s (after : List Nat) : State := { offered with relayed := [y after], flights := [remoteFlight (.ctx 0 0 2)] }
    (ws ++ List.replicate 32 0).take 32 = ws ∧ recNode0 ws ≠ offered.node ∧ (s [8]).relayOf ws l = some (y [8])
    ∧ (s [8]).openOp 8 = true ∧ (s []).relayOf ws l = some (y []) ∧ offered.relayOf ws l = none := by decide +kernel

/-- A record for this package: its LAUNCH elsewhere or none, sound or not, and a pool that is full. -/
theorem witness_RecordsAreDispatched_come :
    let full : State := { offered with records := (pooled.records.flatMap (fun r => List.replicate 4096 r)) }
    recNode0 exampleRecord = offered.node ∧ offered.poolCount < 4096 ∧ launchReason offered exampleRecord = 0
    ∧ launchReason State.reset exampleRecord ≠ 0 ∧ State.reset.poolCount < 4096 ∧ (launchedAt 7).tag ≠ 0 ∧ (launchedAt 0).tag = 0
    ∧ 4096 ≤ full.poolCount ∧ full.relayOf exampleRecord (launchedAt 0) = none
    ∧ ({ full with relayed := [{ words := exampleRecord, src := launchedAt 0, after := [] }] } : State).relayOf exampleRecord (launchedAt 0)
        = some { words := exampleRecord, src := launchedAt 0, after := [] } := by decide +kernel

/-- The MMP has been asked; Temper still runs; a commit that finds a slot taken; a request that this package cannot meet. -/
theorem witness_RecordsAreDispatched_waits :
    let asked := after (exec (.recordAdmission 1 examplePlacement (Vector.replicate 4 0)) waitingRecord)
    (asked.record 1).map (fun r => (r.phase, askedFor asked 1 (.flat 0))) = some (.pooled, true)
    ∧ (reserved.modPlatform (fun p => { p with released := false })).platform.released = false
    ∧ (reserved.record 1).map (fun r => (r.phase, r.pkgIndex)) = some (.reserved, 0)
    ∧ ((reserved.modRecord 1 (fun r => { r with pkgIndex := 1 })).record 1).map (fun r => (r.phase, r.pkgIndex)) = some (.reserved, 1)
    ∧ State.reset.platform.released = false ∧ booted.platform.released = true := by decide +kernel

/-- Parts of other packages that have not ended; an abort that waits for the save; a record that ended elsewhere. -/
theorem witness_RecordsEnd_parts :
    ((running.modRecord 1 (fun r => { r with away := [1] })).record 1).map (fun r => (r.phase, r.away)) = some (.running, [1])
    ∧ (running.record 1).map (fun r => (r.phase, r.away, decide (r.left ≠ []))) = some (.running, [], true)
    ∧ ((ended.modRecord 1 (fun r => { r with aborting := some true })).record 1).map (fun r => (r.away, r.left, r.aborting))
        = some ([], [], some true)
    ∧ ((ended.modRecord 1 (fun r => { r with phase := .ended })).record 1).map (fun r => (r.phase, r.pkgIndex)) = some (.ended, 0)
    ∧ (ended.record 1).map (fun r => (r.away, r.left, r.aborting)) = some ([], [], none) := by decide +kernel

/-- The record with its contexts stopped. -/
def stopped (s : State) : State := (s.freezeRecord 1).modRecord 1 (fun r => { r with saving := true })

def busyHot : State := { hot with flights := [remoteFlight (.ctx 0 0 2)] }

/-- A context that cannot be saved yet, and one that can. -/
theorem witness_RecordsEnd_stop :
    ((stopped busyHot).bound 1).any (fun x => !savable (stopped busyHot) x.1 x.2.2.2) = true
    ∧ ((stopped hot).bound 1).all (fun x => x.2.2.2.saving && savable (stopped hot) x.1 x.2.2.2) = true
    ∧ (hot.record 1).map (fun r => (r.saving, r.aborting, mayPreempt hot r .thermal)) = some (false, none, true)
    ∧ ((stopped hot).record 1).map (fun r => r.saving) = some true
    ∧ (running.record 1).map (fun r => (r.saving, mayPreempt running r .thermal)) = some (false, false) := by decide +kernel

/-- A saved record that waits for its dependence, and one of another package. -/
theorem witness_RecordsEnd_restore :
    (let s := ended.modRecord 1 (fun r => { r with phase := .saved, words := (r.words.set 12 8).set 13 0xC000000000000000 })
     (s.record 1).map (fun r => (r.phase, r.pkgIndex, askedFor s 1 (.flat 0))) = some (.saved, 0, false)
      ∧ (s.record 1).map (fun r => depMiss s r.words) = some (some (.flat 0, 8)))
    ∧ ((ended.modRecord 1 (fun r => { r with phase := .saved, pkgIndex := 1 })).record 1).map (fun r => decide (r.pkgIndex ≠ 0)) = some true := by
  decide +kernel

/-- Contexts in the states in which a save meets them. -/
theorem witness_RecordsEnd_states :
    let c (st : CtxStatus) (b : Option BlockCond) : Context := { running.me with status := st, cleared := b }
    (c .ready (some (.watch place0 5))).cleared = some (.watch place0 5) ∧ (c .ready none).status = .ready
    ∧ (c .issuing (some .reportAwaited)).cleared = some .reportAwaited ∧ (c .readyOut none).cleared = none
    ∧ BlockCond.watch place0 5 ≠ .reportAwaited ∧ (c (.parked 4) none).status ≠ .issuing := by decide +kernel

/-- Aborts: with nothing in the module, of what the host names and of what a package passes on. -/
theorem witness_RecordsEnd_abort_targets :
    State.reset.relayed = [] ∧ AbortTarget.passedTo (.asid 1) State.reset false = []
    ∧ ((∃ h, AbortTarget.asid 1 = .handle h) ∨ (∃ q i, AbortTarget.asid 1 = .queueIndex q i) ∨ (∃ a, AbortTarget.asid 1 = .asid a))
    ∧ running.records.map (fun z => (AbortTarget.names (.asid 1) running z, z.phase.dispatched, decide (z.phase ≠ .ended)))
        = [(true, true, true)] := by
  refine ⟨by decide +kernel, by decide +kernel, Or.inr (Or.inr ⟨1, rfl⟩), by decide +kernel⟩

/-- A request that a doorbell has handed over, and one whose doorbell comes. -/
theorem witness_CommandsAreRefused_rung :
    (State.reset.modPlatform (fun p => { p with rung := some (true, .asidRetire 1 1) })).platform.rung = some (true, .asidRetire 1 1)
    ∧ State.reset.platform.rung = none
    ∧ ({ State.reset.platform with request := assocSet 0xFF8 1 [(0, 0x50001)] } : Platform).requestCommand = some (.asidCreate 5 false 0) := by
  decide +kernel

/-- A reset of a module with a replicated tile and one without. -/
theorem witness_ResetsAct_replicated :
    ((followerInput 0 false).tile 0).replicated = true ∧ ((onTile id).tile 0).replicated = false
    ∧ (0xF0 : BitVec 8) ≠ 0 := by decide +kernel

theorem witness_PlatformEventsAct_answers :
    ([OutMsg.mailbox 1 0 []].drop 0).any OutMsg.answer = true ∧ ([OutMsg.msix 1].drop 0).any OutMsg.answer = false
    ∧ (1 : BitVec 3) ≠ 0 ∧ (0x10 : Word) ≠ 0 := by decide +kernel

end Sys2Proof.Tests
end

section
/-! ### The system instructions (R339, R340, R383, R387, R393, R424) -/

namespace Sys2Proof.Machine

/-- A syllable that reads no queue head has every head it reads ready. -/
theorem headsReady_of_nil (m : Meaning) (s : State) (h : m.heads = []) : ∀ q ∈ m.heads, s.headReady q = true := by
  simp [h]

/-- TRAP takes the BREAK trap with its immediate (R393). -/
theorem exec_trap (s : State) (imm : BitVec 9) :
    exec (.trap imm) s = .next (s.raise { name := .brk, tval := imm.setWidth 64 }) :=
  exec_trapped _ _ s _ rfl rfl (slotOk_any _ _ rfl rfl) rfl (headsReady_of_nil _ s rfl) rfl rfl rfl

/-- SYS takes the SYS trap with its immediate (R387). -/
theorem exec_sys (s : State) (imm : BitVec 16) :
    exec (.sys imm) s = .next (s.raise { name := .sys, tval := imm.setWidth 64 }) :=
  exec_trapped _ _ s _ rfl rfl (slotOk_any _ _ rfl rfl) rfl (headsReady_of_nil _ s rfl) rfl rfl rfl

/-- ERET in supervisor mode returns at the end of its bundle (R339). -/
theorem exec_eret_supervisor (s : State) (hp : s.cur.pos = .sa) (hs : s.me.sup = true) :
    exec .eret s = .next (s.defer .eret) :=
  exec_issued _ eretMeaning s rfl rfl (slotOk_sa _ _ hp rfl) rfl (headsReady_of_nil _ s rfl) rfl rfl (if_pos hs) (.inl rfl)

/-- ERET in user mode raises PRIV (R339). -/
theorem exec_eret_user (s : State) (hp : s.cur.pos = .sa) (hs : s.me.sup = false) :
    exec .eret s = .next (s.raise (privTrap .eret s)) :=
  exec_trapped _ eretMeaning s _ rfl rfl (slotOk_sa _ _ hp rfl) rfl (headsReady_of_nil _ s rfl) rfl rfl
    (if_neg (by simp [hs]))

/-- EXIT drains the context at the end of its bundle (R340). -/
theorem exec_exit (s : State) (hp : s.cur.pos = .sa) : exec .exit s = .next (s.defer .exit) :=
  exec_plain _ exitMeaning s rfl rfl (slotOk_sa _ _ hp rfl) rfl rfl rfl rfl rfl rfl

/-- YIELD gives way at the end of its bundle (R424). -/
theorem exec_yield (s : State) : exec .yield s = .next (s.defer .yield) :=
  exec_plain _ yieldMeaning s rfl rfl (slotOk_any _ _ rfl rfl) rfl rfl rfl rfl rfl rfl

/-- SLEEPT has a condition of R29 exactly while GTC is below its time (R383). -/
theorem sleeptMeaning_block (s : State) (a : SReg) :
    (sleeptMeaning a).block s = if s.gtc < s.me.sreg a then some (.sleep (s.me.sreg a)) else none := by
  simp [sleeptMeaning, BitVec.ult_eq_decide, BitVec.lt_def]

/-- SLEEPT issues once GTC has reached its time. -/
theorem exec_sleept_reached (s : State) (a : SReg) (h : s.me.sreg a ≤ s.gtc) : exec (.sleept a) s = .next s :=
  exec_issued _ (sleeptMeaning a) s rfl rfl (slotOk_any _ _ rfl rfl) rfl (headsReady_of_nil _ s rfl)
    ((sleeptMeaning_block s a).trans (if_neg (BitVec.not_lt.2 h))) rfl rfl (.inl rfl)

/-- SLEEPT blocks its context before its time. -/
theorem exec_sleept_ahead (s : State) (a : SReg) (h : s.gtc < s.me.sreg a) :
    exec (.sleept a) s = .next (s.blockOn (.sleep (s.me.sreg a))) :=
  exec_blocked _ (sleeptMeaning a) s _ rfl rfl (slotOk_any _ _ rfl rfl) rfl rfl
    ((sleeptMeaning_block s a).trans (if_pos h))

/-- The end of a bundle that holds EXIT: the context drains and its redirects are dropped. -/
theorem advance_exit (c : Context) (g : Nat) (h : c.deferred = [.exit]) :
    (c.advance g).status = .draining ∧ (c.advance g).redirects = [] := by
  simp [Context.advance, Context.statusAfter, h]

/-- The end of a bundle that holds YIELD: the context is Ready with a new age. -/
theorem advance_yield (c : Context) (g : Nat) (h : c.deferred = [.yield]) :
    (c.advance g).status = .ready ∧ (c.advance g).age = g := by
  simp [Context.advance, Context.statusAfter, h]

/-- The end of a bundle that holds ERET: the context goes on at EPC in user mode. -/
theorem advance_eret (c : Context) (g : Nat) (h : c.deferred = [.eret]) :
    (c.advance g).pc = c.special.epc &&& ~~~(0x1F : Word) ∧ (c.advance g).sup = false := by
  simp [Context.advance, Context.leaveTrap, h]

/-- Settles O22: each instruction by its own lemma, and what its deferred effect does by those on the bundle's end. -/
theorem systemInstructionsAct : Obligations.SystemInstructionsAct := fun s imm imm16 a =>
  ⟨exec_trap s imm, exec_sys s imm16, exec_eret_supervisor s, exec_eret_user s, exec_exit s, exec_yield s,
    exec_sleept_reached s a, exec_sleept_ahead s a, advance_exit, advance_yield, advance_eret⟩

end Sys2Proof.Machine
end

section
/-! ### The special registers (R21, R100, R161, R357, R358) -/

namespace Sys2Proof.Machine

/-! #### What MFSR lands -/

theorem specPoison_clean (s : State) (r : SpecReg)
    (h : BadWord.special s.cur.tile.toNat s.cur.slot.toNat r.num.toNat ∉ s.bad) : s.specPoison r = (none, s) := by
  simp [State.specPoison, h]

theorem specPoison_bad (s : State) (r : SpecReg)
    (h : BadWord.special s.cur.tile.toNat s.cur.slot.toNat r.num.toNat ∈ s.bad) :
    s.specPoison r = (some (Config.freeWord s.drawn &&& 0xE00FFFFFFFFFFFFF), { s with drawn := s.drawn + 1 }) := by
  simp [State.specPoison, h, State.freeWord]

/-- MFSR reads the register in its bundle; an input class (Table 14-2) changes nothing for a plain context. -/
theorem mfsrMeaning_effect (s : State) (d : SReg) (r : SpecReg) (h : (s.specPoison r).2.me.plain = true) :
    (mfsrMeaning d r).effect s s = (s.specPoison r).2.landRead (.s d (specRead s r)) 1 (s.specPoison r).1 := by
  simp only [mfsrMeaning]
  split
  · exact plain_landInput _ h _ _ _ _ _ _
  · rfl

theorem exec_mfsr (s : State) (d : SReg) (r : SpecReg) :
    exec (.mfsr d r) s = .next ((mfsrMeaning d r).effect s s) :=
  exec_plain _ (mfsrMeaning d r) s rfl rfl (slotOk_any _ _ rfl rfl) rfl rfl rfl rfl rfl rfl

theorem exec_mfsr_clean (s : State) (d : SReg) (r : SpecReg) (hp : s.me.plain = true)
    (hb : BadWord.special s.cur.tile.toNat s.cur.slot.toNat r.num.toNat ∉ s.bad) :
    exec (.mfsr d r) s = .next (s.land (.s d (specRead s r)) 1) := by
  have hs := specPoison_clean s r hb
  rw [exec_mfsr, mfsrMeaning_effect s d r (by rw [hs]; exact hp), hs]
  rfl

/-- The word of a register with an uncorrectable error lands poisoned (R307, R308). -/
theorem exec_mfsr_bad (s : State) (d : SReg) (r : SpecReg) (hp : s.me.plain = true)
    (hb : BadWord.special s.cur.tile.toNat s.cur.slot.toNat r.num.toNat ∈ s.bad) :
    ∃ x : Word, x &&& 0x1FF0000000000000 = 0 ∧ exec (.mfsr d r) s
      = .next (({ s with drawn := s.drawn + 1 } : State).modMe (fun c => c.addLanding
          { ({ s with drawn := s.drawn + 1 } : State).landed (.s d (specRead s r)) 1 with poison := some x })) := by
  have hs := specPoison_bad s r hb
  refine ⟨Config.freeWord s.drawn &&& 0xE00FFFFFFFFFFFFF, ?_, ?_⟩
  · rw [BitVec.and_assoc]
    exact BitVec.and_zero
  · rw [exec_mfsr, mfsrMeaning_effect s d r (by rw [hs]; exact hp), hs]
    rfl

/-! #### What MTSR does -/

theorem mtsrMeaning_check_passes (s : State) (r : SpecReg) (a : SReg) (h : r.supervisorOnly = true → s.me.sup = true) :
    (mtsrMeaning r a).check s = none := by
  refine if_neg ?_
  rw [Bool.and_eq_true, Bool.not_eq_true']
  rintro ⟨h1, h2⟩
  simp [h h1] at h2

theorem exec_mtsr_allowed (s : State) (r : SpecReg) (a : SReg) (hr : r.readOnly = false)
    (hs : r.supervisorOnly = true → s.me.sup = true) :
    exec (.mtsr r a) s = .next ((mtsrMeaning r a).effect s s) :=
  exec_issued _ (mtsrMeaning r a) s rfl (by simp [Instr.wf, hr]) (slotOk_any _ _ rfl rfl) rfl
    (headsReady_of_nil _ s rfl) rfl rfl (mtsrMeaning_check_passes s r a hs) (.inl rfl)

/-- Every writable register but the two of the tile is written at the end of the bundle. -/
theorem exec_mtsr_defers (s : State) (r : SpecReg) (a : SReg) (hr : r.readOnly = false)
    (hs : r.supervisorOnly = true → s.me.sup = true) (hl : r ≠ .lreq) (hx : r ≠ .xreq) :
    exec (.mtsr r a) s = .next (s.defer (.mtsr r (s.me.sreg a))) := by
  rw [exec_mtsr_allowed s r a hr hs]
  cases r
  case lreq => exact absurd rfl hl
  case xreq => exact absurd rfl hx
  all_goals rfl

/-- No register that the supervisor alone may write is read-only. -/
theorem readOnly_of_supervisorOnly (r : SpecReg) (h : r.supervisorOnly = true) : r.readOnly = false := by
  cases r <;> simp [SpecReg.supervisorOnly, SpecReg.readOnly] at h ⊢

theorem exec_mtsr_privileged (s : State) (r : SpecReg) (a : SReg) (hr : r.supervisorOnly = true) (hs : s.me.sup = false) :
    exec (.mtsr r a) s = .next (s.raise (privTrap (.mtsr r a) s)) := by
  have hw : r.readOnly = false := readOnly_of_supervisorOnly r hr
  exact exec_trapped _ (mtsrMeaning r a) s _ rfl (by simp [Instr.wf, hw]) (slotOk_any _ _ rfl rfl) rfl
    (headsReady_of_nil _ s rfl) rfl rfl (if_pos (by simp [hr, hs]))

theorem exec_mtsr_readOnly (s : State) (r : SpecReg) (a : SReg) (hr : r.readOnly = true) :
    ∃ tv, exec (.mtsr r a) s = .next (s.raise { name := .illegalOp, tval := tv }) := by
  refine ⟨sylTval (instrBits (.mtsr r a)) s.cur.pos, ?_⟩
  rw [exec_meaning _ (mtsrMeaning r a) s rfl]
  exact runSyllable_illegal _ _ s (.inl (by simp [Instr.wf, hr]))

/-! #### What each register reads -/

/-- Fields that do not overlap add up. -/
theorem or_eq_add_of_dvd {x b : Nat} (k : Nat) (hx : 2 ^ k ∣ x) (hb : b < 2 ^ k) : x ||| b = x + b := by
  obtain ⟨a, rfl⟩ := hx
  exact (Nat.two_pow_add_eq_or_of_lt hb a).symm

theorem toNat_boolBit (b : Bool) (i : Nat) (h : i < 64) : (boolBit b i).toNat = b.toNat * 2 ^ i := by
  have hlt : 2 ^ i < 2 ^ 64 := Nat.pow_lt_pow_right (by omega) h
  cases b
  · simp [boolBit]
  · simpa [boolBit, BitVec.toNat_shiftLeft, Nat.shiftLeft_eq] using hlt

/-- CTX (Table 2-2). -/
theorem ctxWord_toNat (c : Context) (k : SlotNo) :
    (ctxWord c k).toNat = c.nlev.toNat * 2 ^ 12 + c.det.toNat * 2 ^ 11 + c.prio.toNat * 2 ^ 8 + c.sup.toNat * 2 ^ 3
      + k.toNat := by
  have h1 := c.nlev.isLt
  have h2 := c.prio.isLt
  have h3 := k.isLt
  have h4 := c.det.toNat_le
  have h5 := c.sup.toNat_le
  have e1 : c.nlev.toNat <<< 12 % 2 ^ 64 = c.nlev.toNat * 2 ^ 12 := by rw [Nat.shiftLeft_eq]; omega
  have e2 : c.prio.toNat <<< 8 % 2 ^ 64 = c.prio.toNat * 2 ^ 8 := by rw [Nat.shiftLeft_eq]; omega
  simp only [ctxWord, BitVec.toNat_or, BitVec.toNat_shiftLeft, BitVec.toNat_setWidth_of_le, toNat_boolBit, Nat.reduceLT,
    Nat.reduceLeDiff, e1, e2]
  rw [or_eq_add_of_dvd (x := _ * _) 12 (by omega) (by omega), or_eq_add_of_dvd (x := _ + _) 11 (by omega) (by omega),
    or_eq_add_of_dvd (x := _ + _) 8 (by omega) (by omega), or_eq_add_of_dvd (x := _ + _) 3 (by omega) (by omega)]

/-- TILE (Table 7-6). -/
theorem tileWord_toNat (node : BitVec 21) (t : TileId) :
    (tileWord node t).toNat = node.toNat * 2 ^ 32 + (2 * (t.toNat / 512) + t.toNat % 32 / 16) * 2 ^ 10 + t.toNat := by
  have h1 := node.isLt
  have h2 := t.isLt
  have hs : stackOf t.toNat = 2 * (t.toNat / 512) + t.toNat % 32 / 16 := by
    simp only [stackOf, tileX, tileY]
    omega
  have e1 : node.toNat <<< 32 % 2 ^ 64 = node.toNat * 2 ^ 32 := by rw [Nat.shiftLeft_eq]; omega
  have e2 : (stackOf t.toNat % 2 ^ 64) <<< 10 % 2 ^ 64 = (2 * (t.toNat / 512) + t.toNat % 32 / 16) * 2 ^ 10 := by
    rw [Nat.shiftLeft_eq, hs]
    omega
  simp only [tileWord, BitVec.toNat_or, BitVec.toNat_shiftLeft, BitVec.toNat_setWidth_of_le, BitVec.toNat_ofNat,
    Nat.reduceLeDiff, e1, e2]
  rw [or_eq_add_of_dvd (x := _ * _) 32 (by omega) (by omega), or_eq_add_of_dvd (x := _ + _) 10 (by omega) (by omega)]

theorem frameOf_lt (s : State) (c : Context) : frameOf s c < 2 ^ 48 := by
  unfold frameOf
  split
  · exact Nat.lt_of_le_of_lt (Nat.min_le_right _ _) (by omega)
  · omega

/-- SFC in a deterministic record (Table 4-7): the superstep above the frame. -/
theorem sfcWord_det (s : State) (c : Context) (h : c.det = true) :
    (sfcWord s c).toNat = c.sstep.toNat * 2 ^ 48 + frameOf s c := by
  have h1 := c.sstep.isLt
  have h2 := frameOf_lt s c
  have e1 : c.sstep.toNat <<< 48 % 2 ^ 64 = c.sstep.toNat * 2 ^ 48 := by rw [Nat.shiftLeft_eq]; omega
  have e2 : frameOf s c % 2 ^ 64 = frameOf s c := by omega
  simp only [sfcWord, h, if_true, BitVec.toNat_or, BitVec.toNat_shiftLeft, BitVec.toNat_setWidth_of_le, BitVec.toNat_ofNat,
    Nat.reduceLeDiff, e1, e2]
  exact or_eq_add_of_dvd 48 (by omega) h2

/-- The flags of RGRP's low byte. -/
theorem rgrpFlags_toNat (a b : Bool) : (boolBit a 7 ||| boolBit b 6).toNat = a.toNat * 2 ^ 7 + b.toNat * 2 ^ 6 := by
  cases a <;> cases b <;> rfl

theorem rgrpWord_ungrouped (s : State) (c : Context) (h : s.groupOf c = none) :
    (rgrpWord s c).toNat = c.log.replay.toNat * 2 ^ 7 + (c.log.active && !c.log.replay).toNat * 2 ^ 6 := by
  simp only [rgrpWord, h]
  exact (congrArg BitVec.toNat BitVec.or_zero).trans (rgrpFlags_toNat _ _)

theorem rgrpWord_grouped (s : State) (c : Context) (g : Group) (h : s.groupOf c = some g) :
    rgrpWord s c = BitVec.ofNat 64 (c.log.replay.toNat * 2 ^ 7 + (c.log.active && !c.log.replay).toNat * 2 ^ 6)
      ||| g.live.setWidth 64 <<< 12 ||| g.lead.setWidth 64 <<< 10 ||| c.replica.stack.setWidth 64 <<< 8
      ||| g.red.setWidth 64 <<< 2 ||| g.red0.setWidth 64 := by
  simp only [rgrpWord, h, Context.logging]
  rw [← rgrpFlags_toNat, BitVec.ofNat_toNat, BitVec.setWidth_eq]
  simp only [BitVec.or_assoc]

/-- Bit i of the flags of a list that stands from bit lo upward. -/
theorem flagBits_getLsbD (bs : List Bool) (lo i : Nat) (h : lo + bs.length ≤ 64) :
    (flagBits bs lo).getLsbD i = (decide (lo ≤ i) && bs.getD (i - lo) false) := by
  induction bs generalizing lo with
  | nil => simp [flagBits]
  | cons b bs ih =>
    simp only [List.length_cons] at h
    have hb : (if b then (1 : Word) <<< lo else 0).getLsbD i = (decide (i = lo) && b) := by
      cases b
      · simp
      · have : (1 : Word) <<< lo = BitVec.twoPow 64 lo := (BitVec.twoPow_eq 64 lo).symm
        rw [if_pos rfl, this, BitVec.getLsbD_twoPow]
        by_cases he : i = lo
        · simp [he]; omega
        · simp [he, Ne.symm he]
    rw [flagBits, BitVec.getLsbD_or, hb, ih (lo + 1) (by omega)]
    rcases Nat.lt_trichotomy i lo with hlt | heq | hgt
    · simp [show ¬ lo + 1 ≤ i by omega, show ¬ lo ≤ i by omega, show i ≠ lo by omega]
    · subst heq
      simp
    · have e : i - lo = (i - (lo + 1)) + 1 := by omega
      rw [e]
      simp [show lo + 1 ≤ i by omega, show lo ≤ i by omega, show i ≠ lo by omega]

theorem qstat_getLsbD (c : Context) (i : Nat) :
    c.qstat.getLsbD i = (((c.regs.q.toList.map Quire.nar).getD i false)
      || (decide (16 ≤ i) && (c.regs.q.toList.map Quire.ovf).getD (i - 16) false)) := by
  rw [Context.qstat, BitVec.getLsbD_or, flagBits_getLsbD _ _ _ (by simp), flagBits_getLsbD _ _ _ (by simp)]
  simp

/-- QSTAT (Table 6-1): bit q is NAR of quire q and bit 16 + q its OVF. -/
theorem qstat_flags (c : Context) (q : QReg) :
    c.qstat.getLsbD q.toNat = (c.qreg q).nar ∧ c.qstat.getLsbD (16 + q.toNat) = (c.qreg q).ovf := by
  have hq := q.isLt
  constructor
  · simp [qstat_getLsbD, show ¬ 16 ≤ q.toNat by omega, Context.qreg, hq]
  · simp [qstat_getLsbD, Context.qreg, hq]

theorem qstat_above (c : Context) (i : Nat) (h : 32 ≤ i) : c.qstat.getLsbD i = false := by
  rw [qstat_getLsbD, List.getD_eq_default _ _ (by simp; omega), List.getD_eq_default _ _ (by simp; omega)]
  simp

/-! #### What a write leaves -/

/-- A write of SPMERR clears its valid bit, and only where the value's is set (Table 19-2). -/
theorem writeSpec_spmerr (c : Context) (x : Word) (i : Nat) :
    (c.writeSpec .spmerr x).special.spmerr.getLsbD i = (c.special.spmerr.getLsbD i && !(i == 63 && x.getLsbD 63)) := by
  by_cases hi : i < 64
  · have hm : ∀ j, j < 64 → (0x7FFFFFFFFFFFFFFF : Word).getLsbD j = !(j == 63) := by decide
    have hx : x.msb = x.getLsbD 63 := BitVec.msb_eq_getLsbD_last x
    simp only [Context.writeSpec, hx]
    split
    · rename_i h
      rw [BitVec.getLsbD_and, hm i hi, h, Bool.and_true]
    · rename_i h
      simp only [Bool.not_eq_true] at h
      simp only [h, Bool.and_false, Bool.not_false, Bool.and_true]
  · rw [BitVec.getLsbD_of_ge _ i (by omega), BitVec.getLsbD_of_ge _ i (by omega), Bool.false_and]

/-- A write of QSTAT sets both flags of every quire and leaves its bits. -/
theorem writeSpec_qstat (c : Context) (x : Word) (q : QReg) :
    ((c.writeSpec .qstat x).qreg q).nar = x.getLsbD q.toNat
      ∧ ((c.writeSpec .qstat x).qreg q).ovf = x.getLsbD (16 + q.toNat)
      ∧ ((c.writeSpec .qstat x).qreg q).bits = (c.qreg q).bits := by
  simp [Context.writeSpec, writeQstat, Context.qreg]

theorem writeSpec_unwritable (c : Context) (x : Word) (r : SpecReg) (h : r.readOnly = true ∨ r = .lreq ∨ r = .xreq) :
    c.writeSpec r x = c := by
  rcases h with h | rfl | rfl
  · cases r <;> simp [SpecReg.readOnly, Context.writeSpec] at h ⊢
  · rfl
  · rfl

theorem writeSpec_regs (c : Context) (x : Word) (r : SpecReg) (h : r ≠ .qstat) : (c.writeSpec r x).regs = c.regs := by
  cases r
  case qstat => exact absurd rfl h
  all_goals rfl

/-- A write reaches the special registers and the registers alone. -/
theorem writeSpec_frame (c : Context) (r : SpecReg) (x : Word) :
    ∃ sp g, c.writeSpec r x = { c with special := sp, regs := g } := by
  cases r <;> exact ⟨_, _, rfl⟩

/-- The special registers that a write of another one leaves in the context. -/
theorem writeSpec_special (c : Context) (r : SpecReg) (x : Word) :
    (r ≠ .lstall → (c.writeSpec r x).special.lstall = c.special.lstall)
      ∧ (r ≠ .spmerr → (c.writeSpec r x).special.spmerr = c.special.spmerr)
      ∧ (r ≠ .fstat → (c.writeSpec r x).special.fstat = c.special.fstat)
      ∧ (r ≠ .qcfg → (c.writeSpec r x).special.qcfg = c.special.qcfg)
      ∧ (r ≠ .keys → (c.writeSpec r x).special.keys = c.special.keys)
      ∧ (r ≠ .spmode → (c.writeSpec r x).special.spmode = c.special.spmode)
      ∧ (r ≠ .tvec → (c.writeSpec r x).special.tvec = c.special.tvec)
      ∧ (r ≠ .tcause → (c.writeSpec r x).special.tcause = c.special.tcause)
      ∧ (r ≠ .epc → (c.writeSpec r x).special.epc = c.special.epc)
      ∧ (r ≠ .tval → (c.writeSpec r x).special.tval = c.special.tval)
      ∧ (c.writeSpec r x).special.tdm = c.special.tdm := by
  cases r <;> simp [Context.writeSpec]

/-- A change of the context of the cursor leaves what its tile holds beside its slots. -/
theorem here_modMe (s : State) (f : Context → Context) :
    (s.modMe f).here = s.here.setCtx s.cur.slot .primary (f s.me) :=
  tile_setTile_self s _ _

/-- A write of one special register leaves what every other one reads. -/
theorem specRead_writeSpec_other (s : State) (x : Word) (r o : SpecReg) (h : r ≠ o) :
    specRead (s.modMe (fun c => c.writeSpec r x)) o = specRead s o := by
  have hme : (s.modMe (fun c => c.writeSpec r x)).me = s.me.writeSpec r x := me_modMe s _
  have hhere := here_modMe s (fun c => c.writeSpec r x)
  obtain ⟨h1, h2, h3, h4, h5, h6, h7, h8, h9, h10, h11⟩ := writeSpec_special s.me r x
  obtain ⟨sp, g, hf⟩ := writeSpec_frame s.me r x
  cases o
  case lreq | xreq => simp only [specRead, hhere, Tile.setCtx, Tile.setSlot]
  case lstall => simpa only [specRead, hme] using h1 h
  case spmerr => simpa only [specRead, hme] using h2 h
  case fstat => simpa only [specRead, hme] using h3 h
  case qcfg => simpa only [specRead, hme] using h4 h
  case keys => simpa only [specRead, hme] using h5 h
  case spmode => simpa only [specRead, hme] using h6 h
  case tvec => simpa only [specRead, hme] using h7 h
  case tcause => simpa only [specRead, hme] using h8 h
  case epc => simpa only [specRead, hme] using h9 h
  case tval => simpa only [specRead, hme] using h10 h
  case tdm => simpa only [specRead, hme] using h11
  case qstat => simp only [specRead, hme, Context.qstat, writeSpec_regs _ _ _ h]
  all_goals simp only [specRead, hme, hf] <;> rfl

/-! #### The statement -/

/-- The elements of a vector of five, one by one. -/
theorem toList_five {α : Type} (v : Vector α 5) : [v[0], v[1], v[2], v[3], v[4]] = v.toList := by
  refine List.ext_getElem (by simp) (fun i h _ => ?_)
  simp only [List.length_cons, List.length_nil] at h
  rw [Vector.getElem_toList]
  match i, h with
  | 0, _ | 1, _ | 2, _ | 3, _ | 4, _ => rfl

/-- Settles O20: MFSR and MTSR by the lemmas on their meanings, the words of the registers field by field, and the
writes by what `writeSpec` leaves. -/
theorem specialRegistersMove : Obligations.SpecialRegistersMove := by
  refine ⟨fun s d a r => ⟨exec_mfsr_clean s d r, exec_mfsr_bad s d r, exec_mtsr_defers s r a, fun _ _ => rfl,
    exec_mtsr_allowed s .lreq a rfl (fun h => by cases h), exec_mtsr_allowed s .xreq a rfl (fun h => by cases h),
    exec_mtsr_privileged s r a, exec_mtsr_readOnly s r a⟩, fun s => ?_, fun c x => ?_⟩
  · refine ⟨rfl, rfl, rfl, ctxWord_toNat _ _, tileWord_toNat _ _, fun h => if_neg (by simp [h]), fun hd hp => ?_,
      fun p hd hp => ?_, rgrpWord_ungrouped s s.me, rgrpWord_grouped s s.me, rfl, rfl, rfl, rfl, rfl, rfl, rfl, rfl, rfl,
      rfl, rfl, rfl, rfl, qstat_flags s.me, qstat_above s.me,
      toList_five s.platform.meters, rfl⟩
    · exact (sfcWord_det s s.me hd).trans (by simp only [frameOf, hp, Nat.add_zero])
    · exact (sfcWord_det s s.me hd).trans (by simp only [frameOf, hp])
  · exact ⟨rfl, rfl, rfl, rfl, rfl, rfl, rfl, rfl, rfl, writeSpec_spmerr c x, writeSpec_qstat c x, rfl,
      writeSpec_unwritable c x, writeSpec_regs c x, fun s => specRead_writeSpec_other s x⟩

end Sys2Proof.Machine
end

section
/-! ### Loads and stores of the context's own scratchpad (R137, R349, R373, R406, R408, R415) -/

namespace Sys2Proof.Machine

/-! #### The stops of a core access -/

theorem alignTrap_aligned {a : Word} {z : Nat} (h : a.toNat % z = 0) : alignTrap a z = none := if_neg (not_not.2 h)

theorem alignTrap_misaligned {a : Word} {z : Nat} (h : a.toNat % z ≠ 0) :
    alignTrap a z = some { name := .align, tval := a } := if_pos h

theorem watermarkBlock_of_ne_none {s : State} {a : Word} {n : Nat} (h : s.watermarkBlock a n ≠ none) :
    s.watermarkBlock a n = some (.watermark a.toNat n) := by
  unfold State.watermarkBlock at h ⊢
  split at h
  · rename_i ht
    exact if_pos ht
  · exact absurd rfl h

/-- A core load: performed in the issue cycle, held by an earlier acquire or FENCE, misaligned, or before a watermark. -/
theorem exec_coreLoad (i : Instr) (s : State) (addr : Context → Word) (at_ : Word) (n al lat : Nat) (w w0 : Write)
    (k : CoreDest) (h : meaningOf i = some (coreLoad addr n al lat w0 k)) (hi : i.wf = true)
    (hs : slotOk i s.cur.pos = true) (hat : addr s.me = at_) (hw : k.write w0 (s.coreBytes at_ n) = w) :
    (s.watermarkBlock at_ n = none →
      (at_.toNat % al = 0 → s.coreWaits false = false → exec i s
        = .next ((s.landRead w lat (s.corePoison at_ n)).coreLoadCapture at_ n))
      ∧ (at_.toNat % al = 0 → s.coreWaits false = true → exec i s
        = .next ((s.modMe (fun c => c.captureSpm false false 0 (firstOut s.here.limit at_ n))).loadLater k w0 lat
            (corePieces at_ n)))
      ∧ (at_.toNat % al ≠ 0 → exec i s = .next (s.raise { name := .align, tval := at_ })))
    ∧ (s.watermarkBlock at_ n ≠ none → exec i s = .next (s.blockOn (.watermark at_.toNat n))) := by
  subst hat hw
  have heads := headsReady_of_nil (coreLoad addr n al lat w0 k) s rfl
  refine ⟨fun hb => ⟨fun ha hc => ?_, fun ha hc => ?_, fun ha => ?_⟩, fun hb => ?_⟩
  · rw [exec_issued i _ s h hi hs rfl heads hb rfl (alignTrap_aligned ha) (.inl rfl)]
    exact congrArg Host.Outcome.next (if_neg (by simp [hc]))
  · rw [exec_issued i _ s h hi hs rfl heads hb rfl (alignTrap_aligned ha) (.inl rfl)]
    exact congrArg Host.Outcome.next (if_pos hc)
  · exact exec_trapped i _ s _ h hi hs rfl heads hb rfl (alignTrap_misaligned ha)
  · exact exec_blocked i _ s _ h hi hs rfl rfl (watermarkBlock_of_ne_none hb)

/-- A core store of bytes that the state gives: in the issue cycle, later, or not at all. -/
theorem exec_coreStore (i : Instr) (m : Meaning) (s : State) (at_ : Word) (al n : Nat) (bs : List Byte)
    (h : meaningOf i = some m) (hw : i.wf = true) (hs : slotOk i s.cur.pos = true) (hi : m.illegal s = false)
    (hh : ∀ q ∈ m.heads, s.headReady q = true) (hm : m.misses s = []) (hd : m.configures = none)
    (hb : m.block s = s.watermarkBlock at_ n) (hc : m.check s = alignTrap at_ al) (he : m.effect s s = s.storeHere at_ bs) :
    s.watermarkBlock at_ n = none →
      (at_.toNat % al = 0 → s.coreWaits true = false → exec i s = .next (s.coreStore at_ bs))
      ∧ (at_.toNat % al = 0 → s.coreWaits true = true → exec i s
          = .next ((s.modMe (fun c => c.captureSpm true false 0 (firstOut s.here.limit at_ bs.length))).storeLater
              ((corePieces at_ bs.length).zipIdx.map (fun y => (y.1.1, (bs.drop (8 * y.2)).take y.1.2))) .causal))
      ∧ (at_.toNat % al ≠ 0 → exec i s = .next (s.raise { name := .align, tval := at_ })) := by
  intro hn
  refine ⟨fun ha hw' => ?_, fun ha hw' => ?_, fun ha => ?_⟩
  · rw [exec_issued i m s h hw hs hi hh (hb.trans hn) hm (hc.trans (alignTrap_aligned ha)) (.inl hd), he]
    exact congrArg Host.Outcome.next (if_neg (by simp [hw']))
  · rw [exec_issued i m s h hw hs hi hh (hb.trans hn) hm (hc.trans (alignTrap_aligned ha)) (.inl hd), he]
    exact congrArg Host.Outcome.next (if_pos hw')
  · exact exec_trapped i m s _ h hw hs hi hh (hb.trans hn) hm (hc.trans (alignTrap_misaligned ha))

/-! #### The bytes of a narrow load as lanes -/

theorem natOfBytes_append (xs ys : List Byte) :
    natOfBytes (xs ++ ys) = natOfBytes xs + 2 ^ (8 * xs.length) * natOfBytes ys := by
  induction xs with
  | nil => simp [natOfBytes]
  | cons x xs ih =>
    have e : ∀ zs, natOfBytes (x :: zs) = natOfBytes zs * 256 + x.toNat := fun _ => rfl
    rw [List.cons_append, e, e, ih, List.length_cons, Nat.mul_add 8, Nat.pow_add]
    ring

theorem natOfBytes_lt (xs : List Byte) : natOfBytes xs < 2 ^ (8 * xs.length) := by
  induction xs with
  | nil => simp [natOfBytes]
  | cons x xs ih =>
    have e : natOfBytes (x :: xs) = natOfBytes xs * 256 + x.toNat := rfl
    have hx := x.isLt
    rw [e, List.length_cons, Nat.mul_add 8, Nat.pow_add]
    omega

/-- The middle bytes of three groups stand in their place of the number. -/
theorem natOfBytes_middle (xs ys zs : List Byte) :
    natOfBytes (xs ++ (ys ++ zs)) / 2 ^ (8 * xs.length) % 2 ^ (8 * ys.length) = natOfBytes ys := by
  rw [natOfBytes_append, natOfBytes_append, Nat.add_mul_div_left _ _ (by positivity),
    Nat.div_eq_of_lt (natOfBytes_lt xs), Nat.zero_add, Nat.add_mul_mod_self_left, Nat.mod_eq_of_lt (natOfBytes_lt ys)]

theorem readBytes_length (x : Tile) (m : Mapping) (lim : Nat) (a : Word) (n : Nat) :
    (x.readBytes m lim a n).length = n := by
  induction n generalizing a with
  | zero => rfl
  | succ n ih => simp [Tile.readBytes, ih]

theorem readBytes_add (x : Tile) (m : Mapping) (lim : Nat) (a : Word) (n k : Nat) :
    x.readBytes m lim a (n + k) = x.readBytes m lim a n ++ x.readBytes m lim (a + BitVec.ofNat 64 n) k := by
  induction n generalizing a with
  | zero => simp [Tile.readBytes]
  | succ n ih =>
    have e : a + 1 + BitVec.ofNat 64 n = a + BitVec.ofNat 64 (n + 1) := by
      rw [BitVec.add_assoc]
      congr 1
      exact BitVec.eq_of_toNat_eq (by simp [Nat.add_comm])
    rw [Nat.succ_add, Tile.readBytes, Tile.readBytes, ih, e, List.cons_append]

/-- Element l of the bytes of a core read of lanes of z bytes. -/
theorem coreBytes_element (s : State) (a : Word) (z l n : Nat) (h : l < n) :
    natOfBytes (s.coreBytes a (n * z)) / 2 ^ (8 * z * l) % 2 ^ (8 * z)
      = natOfBytes (s.coreBytes (a + BitVec.ofNat 64 (l * z)) z) := by
  obtain ⟨k, rfl⟩ := Nat.exists_eq_add_of_lt h
  have e : (l + k + 1) * z = l * z + (z + k * z) := by ring
  have hx := natOfBytes_middle (s.coreBytes a (l * z)) (s.coreBytes (a + BitVec.ofNat 64 (l * z)) z)
    (s.coreBytes (a + BitVec.ofNat 64 (l * z) + BitVec.ofNat 64 z) (k * z))
  simp only [State.coreBytes, readBytes_length] at hx
  simp only [State.coreBytes, e, readBytes_add]
  rwa [show 8 * z * l = 8 * (l * z) by ring]

/-- The lanes of a widening load (R408). -/
theorem laneNat_wide (s : State) (x : TypeCode) (w : LaneW) (a : Word) (l : Nat) (h : l < w.lanes) :
    laneNat w (vecOf w ((splitNat (8 * TypeCode.bytes x) (natOfBytes (s.coreBytes a (w.lanes * TypeCode.bytes x))) w.lanes).map
        (fun v => (TypeCode.extNat x v).toNat % 2 ^ w.bits))) l
      = (TypeCode.extNat x (natOfBytes (s.coreBytes (a + BitVec.ofNat 64 (l * TypeCode.bytes x)) (TypeCode.bytes x)))).toNat
          % 2 ^ w.bits := by
  rw [laneNat_vecOf w _ (by simp [splitNat_length]) l _ (by rw [List.getElem?_map, splitNat_get _ _ _ _ h]; rfl),
    coreBytes_element s a _ l _ h, Nat.mod_mod]

/-! #### Accesses that wait -/

/-- A flight that an access of the cursor's context to its own scratchpad starts stands behind those in flight. -/
theorem flyCore_flights (s : State) (id : Nat) (us : List AccessUnit) (isWrite : Bool) (o : OrderClass) (sink : Sink)
    (data : List Byte) (tval : Word) (h : ∀ g ∈ s.flights, g.id ≠ id) :
    ∃ f : Flight, (s.flyCore id us isWrite o sink data tval).flights = s.flights ++ [f] ∧ f.id = id ∧ f.sink = sink
      ∧ f.space = .s ∧ f.writes = isWrite ∧ f.units = us := by
  have hmap : ∀ (g : Flight → Flight), s.flights.map (fun f => if f.id = id then g f else f) = s.flights := fun g =>
    (List.map_congr_left (fun f hf => if_neg (h f hf))).trans (List.map_id _)
  simp only [State.flyCore, State.fly, State.addFlight, List.map_append, hmap, List.map_cons, List.map_nil, if_true]
  exact ⟨_, rfl, rfl, rfl, rfl, rfl, rfl⟩

theorem flyCore_tiles (s : State) (id : Nat) (us : List AccessUnit) (isWrite : Bool) (o : OrderClass) (sink : Sink)
    (data : List Byte) (tval : Word) : (s.flyCore id us isWrite o sink data tval).tiles = s.tiles := rfl

theorem flyCore_me (s : State) (id : Nat) (us : List AccessUnit) (isWrite : Bool) (o : OrderClass) (sink : Sink)
    (data : List Byte) (tval : Word) : (s.flyCore id us isWrite o sink data tval).me = s.me := rfl

/-- A load that waits takes a number, and its landing awaits the flight of that number. -/
theorem loadLater_eq (s : State) (k : CoreDest) (w : Write) (lat : Nat) (ps : List (Word × Nat)) :
    s.loadLater k w lat ps
      = (s.numbered.modMe (fun c =>
          c.addLanding (Landing.waiting w (c.bcnt + BitVec.ofNat 64 lat) s.nextId s.cur.pos))).flyCore
          s.nextId (s.numbered.coreUnits ps (fun _ => .load)) false .relaxed (.core k)
          (List.replicate (ps.map Prod.snd).sum 0) ((ps.headD (0, 0)).1) := rfl

theorem loadLater_flight (s : State) (k : CoreDest) (w : Write) (lat : Nat) (ps : List (Word × Nat))
    (h : ∀ g ∈ s.flights, g.id ≠ s.nextId) :
    ∃ f : Flight, (s.loadLater k w lat ps).flights = s.flights ++ [f] ∧ f.id = s.nextId ∧ f.sink = .core k
      ∧ f.space = .s ∧ f.units = s.coreUnits ps (fun _ => .load)
      ∧ (s.loadLater k w lat ps).me
          = s.me.addLanding (Landing.waiting w (s.me.bcnt + BitVec.ofNat 64 lat) s.nextId s.cur.pos) := by
  have hfly := flyCore_flights
    (s.numbered.modMe (fun c => c.addLanding (Landing.waiting w (c.bcnt + BitVec.ofNat 64 lat) s.nextId s.cur.pos)))
    s.nextId (s.numbered.coreUnits ps (fun _ => .load)) false .relaxed (.core k)
    (List.replicate (ps.map Prod.snd).sum 0) ((ps.headD (0, 0)).1) h
  rw [← loadLater_eq s k w lat ps] at hfly
  obtain ⟨f, hf, hid, hsink, hspace, -, hunits⟩ := hfly
  refine ⟨f, hf, hid, hsink, hspace, hunits, ?_⟩
  rw [loadLater_eq, flyCore_me, me_modMe]
  rfl

/-- A piece in range gives a unit. -/
theorem coreUnits_ne_nil (s : State) (ps : List (Word × Nat)) (op : Nat → UnitOp) (h : ∃ p ∈ ps, p.1.toNat < s.here.limit) :
    (s.coreUnits ps op).isEmpty = false := by
  obtain ⟨p, hp, hlt⟩ := h
  obtain ⟨i, hi⟩ := List.mem_iff_getElem?.1 hp
  rw [List.isEmpty_eq_false_iff_exists_mem]
  exact ⟨_, List.mem_filterMap.2 ⟨(p, i), List.mem_zipIdx_iff_getElem?.2 hi, if_pos hlt⟩⟩

theorem storeLater_flight (s : State) (ps : List (Word × List Byte)) (o : OrderClass)
    (h : ∀ g ∈ s.flights, g.id ≠ s.nextId) (hr : ∃ p ∈ ps, p.1.toNat < s.here.limit) :
    ∃ f : Flight, (s.storeLater ps o).flights = s.flights ++ [f] ∧ f.id = s.nextId ∧ f.writes = true ∧ f.space = .s
      ∧ f.units = s.coreUnits (ps.map (fun p => (p.1, p.2.length))) (fun i => .store ((ps.getD i (0, [])).2))
      ∧ (s.storeLater ps o).tiles = s.tiles := by
  have hne : (s.coreUnits (ps.map (fun p => (p.1, p.2.length)))
      (fun i => .store ((ps.getD i (0, [])).2))).isEmpty = false := by
    obtain ⟨p, hp, hlt⟩ := hr
    exact coreUnits_ne_nil s _ _ ⟨_, List.mem_map_of_mem hp, hlt⟩
  have he : s.storeLater ps o = s.numbered.flyCore s.nextId
      (s.coreUnits (ps.map (fun p => (p.1, p.2.length))) (fun i => .store ((ps.getD i (0, [])).2))) true o .none []
      ((ps.headD (0, [])).1) := if_neg (Bool.eq_false_iff.1 hne)
  rw [he]
  obtain ⟨f, hf, hid, -, hspace, hw, hunits⟩ := flyCore_flights s.numbered s.nextId
    (s.coreUnits (ps.map (fun p => (p.1, p.2.length))) (fun i => .store ((ps.getD i (0, [])).2))) true o .none []
    ((ps.headD (0, [])).1) h
  exact ⟨f, hf, hid, hw, hspace, hunits, flyCore_tiles _ _ _ _ _ _ _ _⟩

/-! #### The statement -/

theorem sourceReady_heads (s : State) (src : VSrc) (h : s.sourceReady src = true) :
    ∀ q ∈ vsrcHeads src, s.headReady q = true := by
  cases src with
  | v r => simp [vsrcHeads]
  | h q =>
    intro r hr
    rw [List.mem_singleton.1 hr]
    exact h

theorem sourceReady_check (s : State) (src : VSrc) (h : s.sourceReady src = true) : vsrcCheck src s.me = none := by
  cases src with
  | v r => rfl
  | h q => exact if_pos ((headReady_iff s q).1 h).1

/-- Settles O34: the loads are instances of `coreLoad` and the stores of `storeHere`; those that an earlier acquire or
FENCE holds start a flight. -/
theorem coreLoadsAndStoresAct : Obligations.CoreLoadsAndStoresAct := by
  refine ⟨fun s x d a v q off7 off10 off6 to16 => ⟨?_, ?_, ?_, ?_, loadLater_flight s⟩,
    fun s x d a src q off7 off10 => ⟨?_, fun hr => ?_, ?_, storeLater_flight s⟩⟩
  · exact exec_coreLoad _ s (fun c => effAddr c a off7 (TypeCode.bytes x)) _ _ _ _ _ _ _ rfl rfl
      (slotOk_any _ _ rfl rfl) rfl rfl
  · exact exec_coreLoad _ s (fun c => effAddr c a off10 16) _ _ _ _ _ _ _ rfl rfl (slotOk_any _ _ rfl rfl) rfl rfl
  · exact exec_coreLoad _ s (fun c => effAddr c a off10 80) _ _ _ _ _ _ _ rfl rfl (slotOk_any _ _ rfl rfl) rfl rfl
  · intro hw
    cases to16
    · exact ⟨_, exec_coreLoad _ s (fun c => effAddr c a off6 16) _ _ _ _ _ _ _ rfl hw (slotOk_any _ _ rfl rfl) rfl rfl,
        laneNat_wide s x .w32 _⟩
    · exact ⟨_, exec_coreLoad _ s (fun c => effAddr c a off6 16) _ _ _ _ _ _ _ rfl hw (slotOk_any _ _ rfl rfl) rfl rfl,
        laneNat_wide s x .w16 _⟩
  · exact exec_coreStore _ (stsMeaning x d a off7) s _ _ _ _ rfl rfl (slotOk_any _ _ rfl rfl) rfl
      (headsReady_of_nil _ s rfl) rfl rfl rfl rfl rfl
  · exact exec_coreStore _ (vstsMeaning src a off10) s _ _ _ _ rfl rfl (slotOk_any _ _ rfl rfl) rfl
      (sourceReady_heads s src hr) rfl rfl rfl (by simp [vstsMeaning, firstTrap, sourceReady_check s src hr]) rfl
  · exact exec_coreStore _ (qsaveMeaning q a off10) s _ _ _ _ rfl rfl (slotOk_any _ _ rfl rfl) rfl
      (headsReady_of_nil _ s rfl) rfl rfl rfl rfl rfl

end Sys2Proof.Machine
end

section
/-! ### Selection of contexts and their return to the primary bank (R29 to R33, R40, R383) -/

namespace Sys2Proof.Machine

/-! #### Contexts and slots after an update -/

theorem ctx_setCtx (s : State) (t : Nat) (k : SlotNo) (b : Bank) (c : Context) : (s.setCtx t k b c).ctx t k b = c := by
  simp only [State.ctx, State.setCtx, tile_setTile_self, Tile.ctx, Tile.setCtx, slot_setSlot_self, ctx_setCtx_self]

theorem ctx_modCtx (s : State) (t : Nat) (k : SlotNo) (b : Bank) (f : Context → Context) :
    (s.modCtx t k b f).ctx t k b = f (s.ctx t k b) := ctx_setCtx s t k b _

theorem tile_modTile_self (s : State) (t : Nat) (f : Tile → Tile) : (s.modTile t f).tile t = f (s.tile t) :=
  tile_setTile_self s t _

/-- A slot of a tile changes: every other slot and tile stays. -/
theorem slot_modTile_setSlot_other (s : State) (t : Nat) (k : SlotNo) (sl : Slot) (r : Nat) (a : SlotNo)
    (h : r ≠ t ∨ a ≠ k) : ((s.modTile t (fun x => x.setSlot k sl)).tile r).slot a = (s.tile r).slot a := by
  by_cases hr : r = t
  · subst hr
    rw [tile_modTile_self, slot_setSlot_other _ _ _ _ (h.resolve_left (fun hn => hn rfl))]
  · rw [State.modTile, tile_setTile_other _ _ _ _ hr]

theorem slot_setStatus_self (x : Tile) (k : SlotNo) (st : CtxStatus) :
    ((x.setStatus k st).slot k).primary = { (x.slot k).primary with status := st } := by
  simp only [Tile.setStatus, Tile.setCtx, slot_setSlot_self, Slot.setCtx]

theorem slot_setStatus_other (x : Tile) (k j : SlotNo) (st : CtxStatus) (h : j ≠ k) :
    (x.setStatus k st).slot j = x.slot j := slot_setSlot_other _ _ _ _ h

/-! #### The selection of R30 -/

/-- R30: of two selectable contexts of different slots the first is before the second. -/
def Tile.ranksBefore (x : Tile) (k j : SlotNo) : Prop :=
  (x.slot j).primary.prio < (x.slot k).primary.prio ∨ ((x.slot j).primary.prio = (x.slot k).primary.prio
    ∧ ((x.slot k).primary.age < (x.slot j).primary.age ∨ ((x.slot k).primary.age = (x.slot j).primary.age ∧ k < j)))

theorem not_precedes_of_ranksBefore (x : Tile) (k j : SlotNo) (h : x.ranksBefore k j) :
    (x.slot j).primary.precedes (x.slot k).primary = false := by
  simp only [Context.precedes, Bool.or_eq_false_iff, decide_eq_false_iff_not, Bool.and_eq_false_iff, beq_eq_false_iff_ne]
  obtain h | ⟨hp, ha⟩ := h
  · exact ⟨BitVec.lt_asymm h, .inl (BitVec.ne_of_lt h)⟩
  · refine ⟨hp ▸ BitVec.lt_irrefl _, .inr ?_⟩
    omega

theorem precedes_of_ranksBefore (x : Tile) (k j : SlotNo) (h : x.ranksBefore k j) (hjk : j < k) :
    (x.slot k).primary.precedes (x.slot j).primary = true := by
  simp only [Context.precedes, Bool.or_eq_true, decide_eq_true_eq, Bool.and_eq_true, beq_iff_eq]
  obtain h | ⟨hp, ha | ⟨-, hkj⟩⟩ := h
  · exact .inl h
  · exact .inr ⟨hp.symm, ha⟩
  · exact absurd hjk (BitVec.lt_asymm hkj)

/-- One slot of the search for the best. -/
def Tile.better (x : Tile) (gtc : Nat) (acc : Option (SlotNo × Context)) (k : SlotNo) : Option (SlotNo × Context) :=
  if (x.slot k).selectable gtc then
    match acc with
    | none => some (k, (x.slot k).primary)
    | some b => if (x.slot k).primary.precedes b.2 then some (k, (x.slot k).primary) else acc
  else acc

theorem best_eq_foldl (x : Tile) (gtc : Nat) : x.best gtc = allSlots.foldl (x.better gtc) none := rfl

/-- What has been found so far is a selectable slot of those looked at, or none. -/
theorem foldl_better_mem (x : Tile) (gtc : Nat) (l : List SlotNo) :
    l.foldl (x.better gtc) none = none
      ∨ ∃ j ∈ l, (x.slot j).selectable gtc = true ∧ l.foldl (x.better gtc) none = some (j, (x.slot j).primary) := by
  induction l using List.reverseRecOn with
  | nil => exact .inl rfl
  | append_singleton l j ih =>
    rw [List.foldl_append, List.foldl_cons, List.foldl_nil]
    by_cases hj : (x.slot j).selectable gtc = true
    · obtain ih | ⟨i, hi, hs, ih⟩ := ih
      · exact .inr ⟨j, by simp, hj, by simp [Tile.better, hj, ih]⟩
      · by_cases hp : (x.slot j).primary.precedes (x.slot i).primary = true
        · exact .inr ⟨j, by simp, hj, by simp [Tile.better, hj, ih, hp]⟩
        · exact .inr ⟨i, by simp [hi], hs, by simp [Tile.better, hj, ih, hp]⟩
    · have e : x.better gtc (l.foldl (x.better gtc) none) j = l.foldl (x.better gtc) none := if_neg hj
      rw [e]
      exact ih.imp id (fun ⟨i, hi, hs, ih⟩ => ⟨i, by simp [hi], hs, ih⟩)

/-- The best so far stays where no later slot precedes it. -/
theorem foldl_better_stays (x : Tile) (gtc : Nat) (k : SlotNo) (l : List SlotNo)
    (h : ∀ j ∈ l, (x.slot j).selectable gtc = true → (x.slot j).primary.precedes (x.slot k).primary = false) :
    l.foldl (x.better gtc) (some (k, (x.slot k).primary)) = some (k, (x.slot k).primary) := by
  induction l with
  | nil => rfl
  | cons j l ih =>
    have e : x.better gtc (some (k, (x.slot k).primary)) j = some (k, (x.slot k).primary) := by
      by_cases hj : (x.slot j).selectable gtc = true
      · simp [Tile.better, hj, h j (by simp) hj]
      · exact if_neg hj
    rw [List.foldl_cons, e]
    exact ih (fun i hi => h i (by simp [hi]))

theorem allSlots_split : ∀ k : SlotNo, ∃ l1 l2, allSlots = l1 ++ k :: l2 ∧ (∀ j ∈ l1, j < k) ∧ ∀ j ∈ l2, j ≠ k := by
  intro k
  match k with
  | 0 => exact ⟨[], [1, 2, 3], rfl, by decide, by decide⟩
  | 1 => exact ⟨[0], [2, 3], rfl, by decide, by decide⟩
  | 2 => exact ⟨[0, 1], [3], rfl, by decide, by decide⟩
  | 3 => exact ⟨[0, 1, 2], [], rfl, by decide, by decide⟩

theorem mem_allSlots : ∀ k : SlotNo, k ∈ allSlots := by decide

/-- R30: the search finds the selectable context that ranks before every other. -/
theorem best_eq (x : Tile) (gtc : Nat) (k : SlotNo) (hk : (x.slot k).selectable gtc = true)
    (h : ∀ j : SlotNo, (x.slot j).selectable gtc = true → j ≠ k → x.ranksBefore k j) :
    x.best gtc = some (k, (x.slot k).primary) := by
  obtain ⟨l1, l2, hl, h1, h2⟩ := allSlots_split k
  have hfirst : x.better gtc (l1.foldl (x.better gtc) none) k = some (k, (x.slot k).primary) := by
    obtain hn | ⟨j, hj, hs, hf⟩ := foldl_better_mem x gtc l1
    · simp [Tile.better, hk, hn]
    · have hp := precedes_of_ranksBefore x k j (h j hs (BitVec.ne_of_lt (h1 j hj))) (h1 j hj)
      simp [Tile.better, hk, hf, hp]
  rw [best_eq_foldl, hl, List.foldl_append, List.foldl_cons, hfirst]
  exact foldl_better_stays x gtc k l2 (fun j hj hs => not_precedes_of_ranksBefore x k j (h j hs (h2 j hj)))

theorem issuing_none (x : Tile) (h : ∀ j, (x.slot j).primary.status ≠ .issuing) : x.issuing = none := by
  simp [Tile.issuing, List.find?_eq_none, h]

theorem issuing_some (x : Tile) (j : SlotNo) (hj : (x.slot j).primary.status = .issuing)
    (h : ∀ i, (x.slot i).primary.status = .issuing → i = j) : x.issuing = some j := by
  have hs : x.issuing.isSome = true := List.find?_isSome.2 ⟨j, mem_allSlots j, by simp [hj]⟩
  obtain ⟨i, hi⟩ := Option.isSome_iff_exists.1 hs
  have : (x.slot i).primary.status = .issuing := by simpa using List.find?_some hi
  rw [hi, h i this]

/-- The issue unit gives Issuing to the best where none has it. -/
theorem select_idle (x : Tile) (gtc : Nat) (k : SlotNo) (c : Context) (hb : x.best gtc = some (k, c))
    (hi : x.issuing = none) : x.select gtc = x.setStatus k .issuing := by
  simp only [Tile.select, hb, hi]

/-- The Issuing context gives way to one of higher priority unless its presented bundle holds the tile (R31). -/
theorem select_displaces (x : Tile) (gtc : Nat) (k j : SlotNo) (c : Context) (hb : x.best gtc = some (k, c))
    (hi : x.issuing = some j) (h : (x.slot j).primary.prio < c.prio) (hh : (x.slot j).primary.holdsTile = false) :
    x.select gtc
      = (x.setCtx j .primary { (x.slot j).primary with status := .ready, age := gtc }).setStatus k .issuing := by
  simp only [Tile.select, hb, hi]
  exact if_pos ⟨h, hh⟩

theorem select_keeps (x : Tile) (gtc : Nat) (k j : SlotNo) (c : Context) (hb : x.best gtc = some (k, c))
    (hi : x.issuing = some j) (h : ¬ (x.slot j).primary.prio < c.prio ∨ (x.slot j).primary.holdsTile = true) :
    x.select gtc = x := by
  simp only [Tile.select, hb, hi]
  refine if_neg ?_
  rintro ⟨h1, h2⟩
  obtain h | h := h
  · exact h h1
  · simp [h] at h2

/-- ISSUE_SELECT of a tile whose best Ready context is that of slot k. -/
theorem exec_issueSelect (s : State) (t : TileId) (k : SlotNo)
    (hk : ((s.tile t.toNat).slot k).selectable s.gtc.toNat = true)
    (hr : ∀ j : SlotNo, ((s.tile t.toNat).slot j).selectable s.gtc.toNat = true → j ≠ k
      → (s.tile t.toNat).ranksBefore k j) :
    let x := s.tile t.toNat
    let p := fun (j : SlotNo) => (x.slot j).primary
    ∃ u, exec (.issueSelect t) s = .next u
      ∧ ((∀ j, (p j).status ≠ .issuing) →
          ((u.tile t.toNat).slot k).primary = { p k with status := .issuing }
          ∧ ∀ j, j ≠ k → (u.tile t.toNat).slot j = x.slot j)
      ∧ (∀ j, (p j).status = .issuing → (∀ i, (p i).status = .issuing → i = j) →
          ((p j).prio < (p k).prio → (p j).holdsTile = false →
            ((u.tile t.toNat).slot k).primary = { p k with status := .issuing }
            ∧ ((u.tile t.toNat).slot j).primary = { p j with status := .ready, age := s.gtc.toNat }
            ∧ ∀ i, i ≠ k → i ≠ j → (u.tile t.toNat).slot i = x.slot i)
          ∧ (¬ (p j).prio < (p k).prio ∨ (p j).holdsTile = true → u.tile t.toNat = x)) := by
  intro x p
  have hb : x.best s.gtc.toNat = some (k, p k) := best_eq x _ k hk hr
  have hready : (p k).status = .ready := by
    simp only [Slot.selectable, Bool.and_eq_true, beq_iff_eq] at hk
    exact hk.1.1.1
  refine ⟨s.modTile t.toNat (fun x => x.select s.gtc.toNat), rfl, fun hn => ?_, fun j hj hu => ⟨fun hlt hh => ?_, fun h => ?_⟩⟩
  · rw [tile_modTile_self, select_idle x _ k _ hb (issuing_none x hn)]
    exact ⟨slot_setStatus_self x k _, fun j hjk => slot_setStatus_other x k j _ hjk⟩
  · have hkj : k ≠ j := fun e => by rw [e, hj] at hready; cases hready
    rw [tile_modTile_self, select_displaces x _ k j _ hb (issuing_some x j hj hu) hlt hh, slot_setStatus_self,
      slot_setStatus_other _ _ _ _ hkj.symm, Tile.setCtx, slot_setSlot_other _ _ _ _ hkj, slot_setSlot_self]
    refine ⟨rfl, rfl, fun i hik hij => ?_⟩
    rw [slot_setStatus_other _ _ _ _ hik, slot_setSlot_other _ _ _ _ hij]
  · rw [tile_modTile_self, select_keeps x _ k j _ hb (issuing_some x j hj hu) h]

/-! #### The end of a block and of a sleep -/

theorem exec_blockConditionClears (s : State) (t : TileId) (k : SlotNo) (b : Bank) (bc : BlockCond)
    (hs : (s.ctx t.toNat k b).status = .blocked bc) (hc : blockCleared s t k (s.ctx t.toNat k b) bc = true) :
    exec (.blockConditionClears t k b) s
      = .next (s.modCtx t.toNat k b (fun c => { c with status := unblocked b, cleared := bc.ofCwait })) := by
  show execBlockConditionClears t k b s = _
  simp only [execBlockConditionClears, hs, hc, if_true]

theorem exec_sleepExpiry (s : State) (t : TileId) (k : SlotNo) (b : Bank) (w : Word)
    (hs : (s.ctx t.toNat k b).status = .blocked (.sleep w)) :
    exec (.sleepExpiry t k b) s = if s.gtc < w then .next s else .next (s.unblock t.toNat k b) := by
  show execSleepExpiry t k b s = _
  simp only [execSleepExpiry, hs, BitVec.ult_eq_decide, BitVec.lt_def, decide_eq_true_eq]

/-- The status of a context whose block has ended, as R29 has it for the two banks. -/
theorem unblocked_eq (b : Bank) : unblocked b = if b = .primary then CtxStatus.ready else CtxStatus.readyOut := by
  cases b <;> rfl

/-! #### The return from the second bank -/

/-- A context that returns: what stands in its slot afterwards, and that no other slot changes. -/
theorem exec_bankReturn (s : State) (t : TileId) (k : SlotNo) (exchange : Bool)
    (h : ((s.tile t.toNat).slot k).returns s.gtc.toNat = some exchange) :
    let sl := (s.tile t.toNat).slot k
    ∃ u, exec (.bankReturn t k) s = .next u
      ∧ (u.tile t.toNat).slot k =
          { primary := { sl.second with
              status := .ready, earliest := Nat.max sl.second.earliest (s.gtc.toNat + 9) }
            second := if exchange then sl.primary.displaced s.gtc.toNat else Context.reset
            moving := s.gtc.toNat + 8 }
      ∧ ∀ r a, r ≠ t.toNat ∨ a ≠ k → (u.tile r).slot a = (s.tile r).slot a := by
  intro sl
  refine ⟨_, show execBankReturn t k s = .next _ by simp only [execBankReturn, h]; rfl, ?_,
    slot_modTile_setSlot_other s t.toNat k _⟩
  rw [tile_modTile_self, slot_setSlot_self]

/-- Settles O45: the search of the issue unit finds the first in rank, and each other event is its own lemma. -/
theorem contextsAreSelectedAndReturn : Obligations.ContextsAreSelectedAndReturn := by
  refine ⟨exec_issueSelect, fun s t k b bc w => ⟨fun hs hc => ?_, fun hs hw => ?_, fun hs hw => ?_, fun hs hv hm =>
    ⟨fun hp => ?_, fun x hp => ?_, fun n hp => ?_, fun hp hlt hh => ?_⟩⟩⟩
  · refine ⟨_, exec_blockConditionClears s t k b bc hs hc, ?_⟩
    rw [ctx_modCtx, unblocked_eq]
    cases bc <;> rfl
  · refine ⟨_, (exec_sleepExpiry s t k b w hs).trans (if_neg (BitVec.not_lt.2 hw)), ?_⟩
    rw [State.unblock, ctx_modCtx, unblocked_eq]
  · exact (exec_sleepExpiry s t k b w hs).trans (if_pos hw)
  · exact exec_bankReturn s t k false (by simp [Slot.returns, hs, hv, hm, hp])
  · exact exec_bankReturn s t k true (by simp [Slot.returns, hs, hv, hm, hp])
  · exact exec_bankReturn s t k true (by simp [Slot.returns, hs, hv, hm, hp])
  · obtain hp | hp := hp
    · exact exec_bankReturn s t k true (by simp [Slot.returns, hs, hv, hm, hp, hlt, hh])
    · exact exec_bankReturn s t k true (by simp [Slot.returns, hs, hv, hm, hp, hlt, hh])

end Sys2Proof.Machine
end

section
/-! ### Faults, shoot-downs and migration (R33, R171 to R174, R176, R179, R181) -/

namespace Sys2Proof.Machine

/-! #### The walker (R171) -/

theorem exec_walkerAnswer_missing (s : State) (id : Nat) (f : FaultRec) (d : Nat) (hf : s.fault id = some f)
    (hw : f.stage = .walking) (hd : missingDesc s f = some d) :
    exec (.walkerAnswer id) s
      = .next (s.modFault id (fun g => g.answer (some (.noDescriptor (BitVec.ofNat 64 d))) s.gtc.toNat)) := by
  show execWalkerAnswer id s = _
  simp [execWalkerAnswer, hf, hw, hd]

/-- Everything is mapped: the walker fills the cache of the requesting tile and answers. -/
theorem exec_walkerAnswer_mapped (s : State) (id : Nat) (f : FaultRec) (hf : s.fault id = some f)
    (hw : f.stage = .walking) (hd : missingDesc s f = none) (hm : f.needs.all (needMapped s f.asid) = true) :
    (∀ t k uid, f.who = .ctx t k uid → exec (.walkerAnswer id) s
      = .next ((f.needs.foldl (fun (st : State) n => st.fillNeed t.toNat f.asid n) s).modFault id
          (fun g => g.answer none s.gtc.toNat)))
    ∧ ((∀ t k uid, f.who ≠ .ctx t k uid) → exec (.walkerAnswer id) s
      = .next (s.modFault id (fun g => g.answer none s.gtc.toNat))) := by
  have h : exec (.walkerAnswer id) s = execWalkerAnswer id s := rfl
  simp only [h, execWalkerAnswer, hf, hw, hd, hm, ne_eq, not_true_eq_false, if_false, if_true]
  refine ⟨fun t k uid hwho => by simp only [hwho], fun hwho => ?_⟩
  cases hc : f.who with
  | ctx t k uid => exact absurd hc (hwho t k uid)
  | channel | scheduler | commit => rfl

/-- Something is not mapped: the record goes on to the MMP. -/
theorem exec_walkerAnswer_queues (s : State) (id : Nat) (f : FaultRec) (hf : s.fault id = some f)
    (hw : f.stage = .walking) (hd : missingDesc s f = none) (hm : f.needs.all (needMapped s f.asid) = false) :
    exec (.walkerAnswer id) s
      = .next (s.modFault id (fun g => { g with stage := .queued, due := s.gtc.toNat + 3480 })) := by
  show execWalkerAnswer id s = _
  simp only [execWalkerAnswer, hf, hw, hd, hm, ne_eq, not_true_eq_false, if_false, Bool.false_eq_true]

/-! #### The service (R172, R178) -/

/-- What the service of a record among the eight oldest does, by what the tables give for its needs. -/
theorem exec_faultService (s s1 : State) (id frame : Nat) (f : FaultRec) (n : Need)
    (hf : (s.mmp.queuedFaults.take 8).find? (fun f => f.id == id) = some f) :
    let found := s.serveNeeds f.asid (firstStack s f) frame f.needs
    (found = (s1, .mapped, none) → exec (.faultService id frame) s = .next (s1.answerServed f.asid))
    ∧ (∀ r, found = (s1, .refused r, some n) → exec (.faultService id frame) s = .next (s1.refuseNeed f.asid n r))
    ∧ (∀ x y, found = (s1, .pin x y, some n) → exec (.faultService id frame) s = .next (s1.askPin f.asid n x y))
    ∧ (∀ x y, found = (s1, .evict x y, some n) → s.evicting = false → exec (.faultService id frame) s
        = .next (s.startEviction (transferEntries s) x y)) := by
  intro found
  have h : exec (.faultService id frame) s = execFaultService id frame s := rfl
  simp only [h, execFaultService, hf]
  refine ⟨fun hs => ?_, fun r hs => ?_, fun x y hs => ?_, fun x y hs he => ?_⟩
  · simp only [show s.serveNeeds f.asid (firstStack s f) frame f.needs = _ from hs]
  · simp only [show s.serveNeeds f.asid (firstStack s f) frame f.needs = _ from hs]
  · simp only [show s.serveNeeds f.asid (firstStack s f) frame f.needs = _ from hs]
  · simp only [show s.serveNeeds f.asid (firstStack s f) frame f.needs = _ from hs, he, Bool.false_eq_true, if_false]

/-! #### The answer (R33, R173) -/

/-- The answer of a context's fault reaches the context in its bank, or the area where it is saved. -/
theorem exec_faultAnswer_ctx (s : State) (id : Nat) (f : FaultRec) (a : Option AnswerKind) (t : TileId) (k : SlotNo)
    (uid : Nat) (hf : s.fault id = some f) (hs : f.stage = .answered a) (hw : f.who = .ctx t k uid) :
    let gone := s.dropFault id
    (∀ b, (gone.tile t.toNat).bankOf k uid = some b →
      let filled := if a = none then f.needs.foldl (fun (st : State) n => st.fillNeed t.toNat f.asid n) gone else gone
      exec (.faultAnswer id) s = .next (filled.modCtx t.toNat k b
        (fun c => { c with answer := a, status := if c.status = .parked id then unblocked b else c.status })))
    ∧ ((gone.tile t.toNat).bankOf k uid = none → exec (.faultAnswer id) s = .next (gone.answerSaved uid a)) := by
  intro gone
  have h : exec (.faultAnswer id) s = execFaultAnswer id s := rfl
  simp only [h, execFaultAnswer, hf, hs, hw]
  refine ⟨fun b hb => ?_, fun hb => ?_⟩
  · simp only [show ((s.dropFault id).tile t.toNat).bankOf k uid = some b from hb, Option.isNone_iff_eq_none]
    rfl
  · simp only [show ((s.dropFault id).tile t.toNat).bankOf k uid = none from hb]
    rfl

/-- The answer of a fault of the scheduler ends its record. -/
theorem exec_faultAnswer_scheduler (s : State) (id : Nat) (f : FaultRec) (rid : Nat) (hf : s.fault id = some f)
    (hs : f.stage = .answered none) (hw : f.who = .scheduler rid) : exec (.faultAnswer id) s = .next (s.dropFault id) := by
  show execFaultAnswer id s = _
  simp [execFaultAnswer, hf, hs, hw]

/-! #### Refusals of other packages (R174) -/

/-- A flight with a unit in another package that is refused: it is dropped with its trap and its event. -/
theorem exec_remoteRefusal_flight (s : State) (id : Nat) (f : Flight)
    (hf : s.flights.find? (fun f => f.id == id) = some f) (ho : f.isOpen = true)
    (ha : ∃ u ∈ f.units, u.home.away = true) : exec (.remoteRefusal id) s = .next (s.refuseFlight f) := by
  show execRemoteRefusal id s = _
  have ha : f.units.any (fun u => u.home.away) = true := List.any_eq_true.2 ha
  simp only [execRemoteRefusal, hf, ho, ha, Bool.and_self, if_true]

theorem refuseFlight_ctx (s : State) (f : Flight) (t : TileId) (k : SlotNo) (uid : Nat) (h : f.issuer = .ctx t k uid) :
    s.refuseFlight f = (s.refuseCtx f t k uid).remoteEvent t k uid f.asid f.tval := by
  simp only [State.refuseFlight, h]

theorem refuseFlight_engine (s : State) (f : Flight) (t : TileId) (k : SlotNo) (uid : Nat)
    (h : f.issuer = .engine t k uid) :
    s.refuseFlight f
      = ((s.refuseWrite t f.id 0x82 (fun _ => remoteTrap f.tval)).dropFlight f.id).remoteEvent t k uid f.asid f.tval := by
  simp only [State.refuseFlight, h]

theorem exec_remoteRefusal_watch (s : State) (id : Nat) (w : Watch)
    (hf : s.flights.find? (fun f => f.id == id) = none) (hw : s.watches.find? (fun w => w.id == id) = some w)
    (ha : w.place.home.away = true) : exec (.remoteRefusal id) s = .next (s.refuseWatch w) := by
  show execRemoteRefusal id s = _
  simp only [execRemoteRefusal, hf, hw, ha, if_true]

theorem exec_remoteRefusal_read (s : State) (id : Nat) (t : TileId) (ch : Chan) (r : XRun)
    (hf : s.flights.find? (fun f => f.id == id) = none) (hw : s.watches.find? (fun w => w.id == id) = none)
    (hr : s.remoteReader id = some (t, ch, r)) : exec (.remoteRefusal id) s = .next (s.refuseRead t ch r) := by
  show execRemoteRefusal id s = _
  simp only [execRemoteRefusal, hf, hw, hr]

/-! #### Shoot-downs (R176) -/

/-- The layout units acknowledge. -/
theorem exec_shootdownAck_layout (s : State) (sd : Shootdown)
    (hs : s.mmp.shoots.find? (fun x => x.id == sd.id) = some sd) (ha : sd.acks.contains 0 = true)
    (hr : ackReady s sd 0 = true) :
    exec (.shootdownAck sd.id 0) s = .next (s.modMmp (fun m => { m with shoots := m.shoots.map (fun x =>
      if x.id = sd.id then { x with acks := x.acks.erase 0 } else x) })) := by
  show execShootdownAck sd.id 0 s = _
  simp only [execShootdownAck, hs, ha, hr, Bool.and_self, if_true]

/-- A tile drops what it has cached of the entry and acknowledges. -/
theorem exec_shootdownAck_tile (s : State) (sd : Shootdown) (t : Nat)
    (hs : s.mmp.shoots.find? (fun x => x.id == sd.id) = some sd) (ha : sd.acks.contains (t + 1) = true)
    (hr : ackReady s sd (t + 1) = true) :
    exec (.shootdownAck sd.id (t + 1)) s
      = .next ((s.modTile t (fun x => x.invalidate sd.asid sd.key)).modMmp (fun m =>
          { m with shoots := m.shoots.map (fun x => if x.id = sd.id then { x with acks := x.acks.erase (t + 1) } else x) })) := by
  show execShootdownAck sd.id (t + 1) s = _
  simp only [execShootdownAck, hs, ha, hr, Bool.and_self, if_true]

/-- An invalidated key is cached no more. -/
theorem mem_invalidate (x : Tile) (asid : BitVec 12) (key : EntryKey) (e : CachedEntry)
    (h : e ∈ (x.invalidate asid key).entries) : e ∈ x.entries ∧ ¬ (e.asid = asid ∧ e.key = key) := by
  obtain ⟨he, hk⟩ := List.mem_filter.1 h
  refine ⟨he, ?_⟩
  rintro ⟨ha, rfl⟩
  cases hc : e.key <;> simp [hc, ha] at hk

theorem exec_shootdownComplete (s : State) (sd : Shootdown)
    (hs : s.mmp.shoots.find? (fun x => x.id == sd.id) = some sd) (ha : sd.acks = []) :
    exec (.shootdownComplete sd.id) s
      = .next ((((s.finishShoot sd).dropHint sd.key).modMmp (fun m =>
          { m with shoots := m.shoots.filter (fun x => x.id != sd.id) })).replyShot sd.seq) := by
  show execShootdownComplete sd.id s = _
  simp only [execShootdownComplete, hs, ha, List.isEmpty_nil, if_true]

/-! #### The migration scan (R179) -/

/-- What a migration scan leaves: the hint tables, the address spaces, the tiles and LPDDR-6. -/
def State.sameButShoots (s u : State) : Prop :=
  u.mmp.hints = s.mmp.hints ∧ u.mmp.asids = s.mmp.asids ∧ u.tiles = s.tiles ∧ u.lpddr = s.lpddr

theorem shootEntry_sameButShoots (s : State) (asid : BitVec 12) (addr : Nat) (work : ShootWork)
    (seq : Option (BitVec 16)) : s.sameButShoots (s.shootEntry asid addr work seq) := ⟨rfl, rfl, rfl, rfl⟩

theorem foldl_sameButShoots {α : Type} (f : State → α → State) (hf : ∀ (s : State) (x : α), s.sameButShoots (f s x)) (xs : List α)
    (s : State) : s.sameButShoots (xs.foldl f s) := by
  induction xs generalizing s with
  | nil => exact ⟨rfl, rfl, rfl, rfl⟩
  | cons x xs ih =>
    obtain ⟨a1, a2, a3, a4⟩ := hf s x
    obtain ⟨b1, b2, b3, b4⟩ := ih (f s x)
    exact ⟨b1.trans a1, b2.trans a2, b3.trans a3, b4.trans a4⟩

/-- Each 2^24 cycles the hint tables are read and cleared; frames that may move are shot down. -/
theorem exec_migrationScan (s : State) (h : s.gtc.toNat % 2 ^ 24 = 0) :
    ∃ u, exec .migrationScan s = .next u ∧ u.mmp.hints = [] ∧ u.mmp.asids = s.mmp.asids ∧ u.tiles = s.tiles
      ∧ u.lpddr = s.lpddr := by
  refine ⟨_, show execMigrationScan s = .next _ from if_neg (not_not.2 h), ?_⟩
  refine foldl_sameButShoots _ (fun st x => ?_) s.mmp.hints (s.modMmp (fun m => { m with hints := [] }))
  split
  · split
    · exact shootEntry_sameButShoots _ _ _ _ _
    · exact ⟨rfl, rfl, rfl, rfl⟩
  · exact ⟨rfl, rfl, rfl, rfl⟩

/-- Settles O47: the ways of a fault, of a refusal, of a shoot-down and of a migration scan, one lemma each. -/
theorem faultsAreServed : Obligations.FaultsAreServed := by
  refine ⟨⟨fun s id f hf hw => ⟨fun d => exec_walkerAnswer_missing s id f d hf hw,
      exec_walkerAnswer_mapped s id f hf hw, exec_walkerAnswer_queues s id f hf hw⟩,
    exec_faultService, exec_faultAnswer_ctx, exec_faultAnswer_scheduler, fun s id f t k uid hf ho ha => ⟨fun hi => ?_, fun hi => ?_⟩,
    exec_remoteRefusal_watch, exec_remoteRefusal_read⟩,
    fun s sd t hs => ⟨exec_shootdownAck_layout s sd hs, exec_shootdownAck_tile s sd t.toNat hs⟩, mem_invalidate,
    exec_shootdownComplete, exec_migrationScan⟩
  · rw [exec_remoteRefusal_flight s id f hf ho ha, refuseFlight_ctx s f t k uid hi]
  · rw [exec_remoteRefusal_flight s id f hf ho ha, refuseFlight_engine s f t k uid hi]

end Sys2Proof.Machine
end

section
/-! ### Replica groups, drains and the loss of a die (R35, R273 to R281, R309, R310) -/

namespace Sys2Proof.Machine

/-! #### Deliveries of Tongs (R273 to R275) -/

/-- A delivery to a context that has left: it waits for the restore of a saved one, and is dropped otherwise. -/
theorem exec_tongsDelivery_absent (s : State) (i : TongsItem) (hi : s.tongs.find? (fun j => j.id == i.id) = some i)
    (hc : s.uidCtx i.tile.toNat i.slot i.uid = none) :
    exec (.tongsDelivery i.id) s = .next
      (if s.records.any (fun r => r.savedCtxs.any (fun x => x.ctx.uid == i.uid)) then s else s.dropTongs i.id) := by
  show execTongsDelivery i.id s = _
  simp only [execTongsDelivery, hi, hc]

/-- A delivery behind bytes that have not been written yet waits (R275). -/
theorem exec_tongsDelivery_behindBytes (s : State) (i : TongsItem) (c : Context)
    (hi : s.tongs.find? (fun j => j.id == i.id) = some i) (hc : s.uidCtx i.tile.toNat i.slot i.uid = some c)
    (hw : i.val.writes = false) (hb : s.bytesBefore i = true) : exec (.tongsDelivery i.id) s = .next s := by
  show execTongsDelivery i.id s = _
  simp [execTongsDelivery, hi, hc, hw, hb]

/-- A delivery whose turn it is enters its context, or waits until the context awaits it. -/
theorem exec_tongsDelivery_turn (s : State) (i : TongsItem) (c : Context)
    (hi : s.tongs.find? (fun j => j.id == i.id) = some i) (hc : s.uidCtx i.tile.toNat i.slot i.uid = some c)
    (hb : i.val.writes = false → s.bytesBefore i = false) :
    (∀ s1, s.tongsInto i c = some s1 → exec (.tongsDelivery i.id) s = .next (s1.dropTongs i.id))
    ∧ (s.tongsInto i c = none → exec (.tongsDelivery i.id) s = .next s) := by
  have hn : (!i.val.writes && s.bytesBefore i) = false := by
    cases hw : i.val.writes
    · simp [hb hw]
    · rfl
  have h : exec (.tongsDelivery i.id) s = execTongsDelivery i.id s := rfl
  simp only [h, execTongsDelivery, hi, hc, hn, Bool.false_eq_true, if_false]
  exact ⟨fun s1 hs => by simp only [hs], fun hs => by simp only [hs]⟩

theorem tongsInto_word (s : State) (i : TongsItem) (c : Context) (cls : BitVec 8) (x : Word) (p : Option Word)
    (ev : Option Trap) (hv : i.val = .word cls x p ev) (ha : c.awaitsAny i.src = true) :
    s.tongsInto i c = some (s.arriveWord i.tile.toNat i.slot i.uid i.src x p ev) := by
  simp only [State.tongsInto, hv, ha, if_true]

theorem tongsInto_trap (s : State) (i : TongsItem) (c : Context) (x : Trap) (hv : i.val = .trap x)
    (hb : c.bcnt.ult i.at_ = false) :
    s.tongsInto i c = some (s.postEvent i.tile.toNat i.slot i.uid c.asid x) := by
  simp only [State.tongsInto, hv, hb, Bool.false_eq_true, if_false]

theorem tongsInto_bytes (s : State) (i : TongsItem) (c : Context) (off : Nat) (b : List Byte)
    (hv : i.val = .bytes off b) :
    s.tongsInto i c = some (s.modTile i.tile.toNat (fun x => { x with
      scratch := writeBytes x.scratch linear x.limit (BitVec.ofNat 64 off) b }.wake (s.muted i.tile.toNat) 2 0
        (BitVec.ofNat 64 off) b.length s.gtc.toNat)) := by
  simp only [State.tongsInto, hv]

/-! #### Votes (R278 to R281) -/

/-- A vote starts once every voter has reached its cut (R278). -/
theorem exec_voteStart (s : State) (g : Group) (hg : s.groups.find? (fun y => y.id == g.id) = some g)
    (hv : g.voting = none) (hn : g.voters ≠ []) (hc : ∀ y ∈ g.voters, s.frontCut y ≠ none) :
    exec (.voteStart g.id) s
      = .next (s.modGroup g.id (fun g => { g with voting := some (s.gtc.toNat + 200), votes := g.votes + 1 })) := by
  have hall : g.voters.all (fun m => (s.frontCut m).isSome) = true :=
    List.all_eq_true.2 (fun y hy => Option.isSome_iff_ne_none.2 (hc y hy))
  show execVoteStart g.id s = _
  simp [execVoteStart, hg, hv, hn, hall]

theorem exec_voteResult_early (s : State) (g : Group) (due : Nat) (hg : s.groups.find? (fun y => y.id == g.id) = some g)
    (hv : g.voting = some due) (hd : s.gtc.toNat < due) : exec (.voteResult g.id) s = .next s := by
  show execVoteResult g.id s = _
  simp only [execVoteResult, hg, hv, hd, if_true]

/-- The end of a vote, by its verdict (R280). -/
theorem exec_voteResult (s : State) (g : Group) (due : Nat) (hg : s.groups.find? (fun y => y.id == g.id) = some g)
    (hv : g.voting = some due) (hd : due ≤ s.gtc.toNat) :
    (verdict s g = .mismatch → exec (.voteResult g.id) s = .next (s.haltGroup g))
    ∧ (∀ lead s1, verdict s g = .agree → g.members.find? (fun y => y.1 == g.lead) = some lead →
        s.commitVote g lead = some s1 →
        exec (.voteResult g.id) s = .next (s1.modGroup g.id (fun g => { g with voting := none })))
    ∧ (∀ lead, verdict s g = .agree → g.members.find? (fun y => y.1 == g.lead) = some lead →
        s.commitVote g lead = none → exec (.voteResult g.id) s = .next (s.commitWaits g lead))
    ∧ (∀ m lead, verdict s g = .minority m →
        let live := g.live &&& ~~~((1 : BitVec 4) <<< m.1.toNat)
        g.members.find? (fun y => y.1 == Group.chooseLead { g with live := live }) = some lead →
        (∀ s1, (s.fence g m).commitVote { g with live := live } lead = some s1 →
          exec (.voteResult g.id) s = .next ((s1.modGroup g.id (fun g => { g with voting := none })).raiseMinority g.id m.1
            (g.lost.getLsbD m.1.toNat)))
        ∧ ((s.fence g m).commitVote { g with live := live } lead = none →
          exec (.voteResult g.id) s = .next (s.commitWaits g lead))) := by
  have h : exec (.voteResult g.id) s = execVoteResult g.id s := rfl
  simp only [h, execVoteResult, hg, hv, Nat.not_lt.2 hd, if_false]
  refine ⟨fun hw => ?_, fun lead s1 hw hl hs => ?_, fun lead hw hl hs => ?_, fun m lead hw hl => ⟨fun s1 hs => ?_, fun hs => ?_⟩⟩
  · simp only [hw]
  · simp only [hw, hl, hs]
  · simp only [hw, hl, hs]
  · simp only [hw, hl, hs]
  · simp only [hw, hl, hs]

/-- Three voters of whom none is struck: two that agree decide. -/
theorem verdict_three (s : State) (g : Group) (a b d : Member) (hv : g.voters = [a, b, d])
    (hn : g.liveMembers.find? (fun y => g.lost.getLsbD y.1.toNat) = none)
    (hab : sameCut (s.frontCut a) (s.frontCut b) = true) :
    (sameCut (s.frontCut a) (s.frontCut d) = true → verdict s g = .agree)
    ∧ (sameCut (s.frontCut a) (s.frontCut d) = false → verdict s g = .minority d) := by
  simp only [verdict, hv, hn, hab, Bool.true_and, if_true]
  exact ⟨fun h => by simp [h], fun h => by simp [h]⟩

/-! #### The drain (R35) -/

theorem exec_drainComplete_primary (s : State) (t : TileId) (k : SlotNo) (h : drained s t.toNat k .primary = true) :
    exec (.drainComplete t k) s = .next ((s.drainLandings t.toNat k .primary).retire t.toNat k .primary) := by
  show execDrainComplete t k s = _
  simp only [execDrainComplete, h, if_true]

theorem exec_drainComplete_second (s : State) (t : TileId) (k : SlotNo) (h1 : drained s t.toNat k .primary = false)
    (h2 : drained s t.toNat k .second = true) :
    exec (.drainComplete t k) s = .next ((s.drainLandings t.toNat k .second).retire t.toNat k .second) := by
  show execDrainComplete t k s = _
  simp only [execDrainComplete, h1, h2, Bool.false_eq_true, if_false, if_true]

/-- A context of a slot, of which the drain is not complete, makes its last cut where held writes stand behind it. -/
def State.drainCut (s : State) (t : Nat) (k : SlotNo) (b : Bank) : State :=
  if drainHolds s t k b then s.cutOf t k (s.ctx t k b).uid .exit 0 (s.ctx t k b).bcnt else s

theorem exec_drainComplete_cuts (s : State) (t : TileId) (k : SlotNo) (h : ∀ b, drained s t.toNat k b = false) :
    exec (.drainComplete t k) s = .next ((s.drainCut t.toNat k .primary).drainCut t.toNat k .second) := by
  show execDrainComplete t k s = _
  simp only [execDrainComplete, h, Bool.false_eq_true, if_false]
  rfl

theorem drainCut_none (s : State) (t : Nat) (k : SlotNo) (b : Bank) (h : drainHolds s t k b = false) :
    s.drainCut t k b = s := if_neg (Bool.eq_false_iff.1 h)

theorem drainCut_holds (s : State) (t : Nat) (k : SlotNo) (b : Bank) (h : drainHolds s t k b = true) :
    s.drainCut t k b = s.cutOf t k (s.ctx t k b).uid .exit 0 (s.ctx t k b).bcnt := if_pos h

theorem ctx_freeSlot (x : Tile) (k : SlotNo) (b : Bank) : (x.freeSlot k b).ctx k b = Context.reset := by
  have h : (x.setCtx k b Context.reset).ctx k b = Context.reset := by
    simp only [Tile.ctx, Tile.setCtx, slot_setSlot_self, ctx_setCtx_self]
  unfold Tile.freeSlot
  dsimp only
  split
  · exact h
  · exact h

/-- A context that has drained is Free. -/
theorem ctx_retire (s : State) (t : Nat) (k : SlotNo) (b : Bank) : (s.retire t k b).ctx t k b = Context.reset := by
  unfold State.retire
  dsimp only
  rw [State.ctx, tile_modTile_self]
  exact ctx_freeSlot _ k b

/-! #### The loss of a die (R309, R310) -/

/-- The virtual dies that the die map puts on a physical die. -/
theorem mem_virtualOf (map : Vector (Bool × BitVec 5) 17) (d : BitVec 5) (i : Nat) (h : i < 17) :
    i ∈ virtualOf map d ↔ map.toList[i]? = some (true, d) := by
  simp [virtualOf, h, Prod.ext_iff]

/-- What the loss of a virtual die does to a context in no replica group. -/
theorem loseDie_single (s : State) (t : Nat) (k : SlotNo) (b : Bank) (v : Nat)
    (hr : (s.ctx t k b).status.resident = true) (hm : (s.ctx t k b).special.tdm.getLsbD v = true)
    (hg : (s.ctx t k b).replica.group = 0) :
    (v = stackOf t → s.loseDie t k b v = s.haltOn t k (s.ctx t k b).uid v)
    ∧ (v ≠ stackOf t → s.loseDie t k b v
        = (s.postEvent t k (s.ctx t k b).uid (s.ctx t k b).asid { name := .dieLost, tval := BitVec.ofNat 64 v }).postFault
            (mkFault s 5 TrapName.dieLost.code t k (s.ctx t k b).asid (BitVec.ofNat 64 v) (s.ctx t k b).pc)) := by
  simp only [State.loseDie, hr, hm, groupOf_none s _ hg, Bool.and_self, if_true, decide_eq_true_eq]
  exact ⟨fun h => if_pos h, fun h => if_neg h⟩

theorem loseDie_spared (s : State) (t : Nat) (k : SlotNo) (b : Bank) (v : Nat)
    (h : (s.ctx t k b).status.resident = false ∨ (s.ctx t k b).special.tdm.getLsbD v = false) :
    s.loseDie t k b v = s := by
  unfold State.loseDie
  refine if_neg ?_
  obtain h | h := h
  · simp [h]
  · simp [h]

/-- Settles O54: the deliveries, the vote, the drain and the loss of a die, by the lemmas on each. -/
theorem groupsVoteAndContextsLeave : Obligations.GroupsVoteAndContextsLeave := by
  refine ⟨fun s s1 g i c m lead due => ⟨fun hi hc => ⟨exec_tongsDelivery_behindBytes s i c hi hc, tongsInto_bytes s i c⟩,
      fun hi hc => ⟨fun hr => ?_, fun hr => ?_⟩, fun hi hc hb => ?_, fun hg => ⟨exec_voteStart s g hg, exec_voteResult_early s g due hg,
      fun hv hd => ?_⟩, fun a b d hv hn => ?_⟩,
    fun s t k d b v => ⟨exec_drainComplete_primary s t k, exec_drainComplete_second s t k, fun hd hh => ?_, fun hd hh => ?_,
      ctx_retire s t.toNat k b, rfl, fun map i hi => mem_virtualOf map d i hi, loseDie_spared s t.toNat k b v,
      loseDie_single s t.toNat k b v⟩⟩
  · rw [exec_tongsDelivery_absent s i hi hc, if_pos hr]
  · rw [exec_tongsDelivery_absent s i hi hc, if_neg (Bool.eq_false_iff.1 hr)]
  · obtain ⟨hsome, hnone⟩ := exec_tongsDelivery_turn s i c hi hc hb
    exact ⟨hsome s1, hnone, tongsInto_word s i c, tongsInto_trap s i c⟩
  · obtain ⟨hmis, hagree, hwait, hmin⟩ := exec_voteResult s g due hg hv hd
    exact ⟨hmis, hagree lead s1, hwait lead, fun hw hl => ⟨(hmin m lead hw hl).1 s1, (hmin m lead hw hl).2⟩⟩
  · exact ⟨fun hab => (verdict_three s g a b d hv hn hab).1, fun hab => (verdict_three s g a b d hv hn hab).2⟩
  · rw [exec_drainComplete_cuts s t k hd, drainCut_none _ _ _ _ (hh .primary), drainCut_none _ _ _ _ (hh .second)]
  · intro c u hu
    rw [exec_drainComplete_cuts s t k hd, drainCut_holds _ _ _ _ hh, drainCut_none _ _ _ _ hu]

end Sys2Proof.Machine
end

section
/-! ### Launch queues and launch records up to their dispatch (R23, R268, R288 to R294, R297, R301) -/

namespace Sys2Proof.Machine

/-! #### Launch queues (R268) -/

theorem queueOf_setQueueOf (s : State) (q : BitVec 3) (x : LaunchQueue) : (s.setQueueOf q x).queueOf q = x := by
  simp [State.queueOf, State.setQueueOf]

theorem getLsbD_two_iff (q : BitVec 3) : q.getLsbD 2 = true ↔ 4 ≤ q.toNat := by
  have hq := q.isLt
  simp only [BitVec.getLsbD, Nat.testBit_eq_decide_div_mod_eq, decide_eq_true_eq]
  omega

theorem fld_low (v : Word) : (fld v 0 31 : BitVec 31) = v.setWidth 31 :=
  BitVec.eq_of_toNat_eq (by simp)

/-- A write of PROD is taken where the queue is the host's and the pointer neither passes CONS too far nor moves back. -/
theorem writeProd_taken (x : LaunchQueue) (v : Word) (h1 : ((v.setWidth 31 : BitVec 31) - x.cons).toNat ≤ 256)
    (h2 : x.used ≤ ((v.setWidth 31 : BitVec 31) - x.cons).toNat) :
    x.writeProd false v = { x with prod := v.setWidth 31 } := by
  simp only [LaunchQueue.writeProd, fld_low]
  refine if_neg ?_
  simp only [Bool.false_or, Bool.or_eq_true, decide_eq_true_eq, not_or, Nat.not_lt]
  exact ⟨h1, h2⟩

theorem writeProd_refused (x : LaunchQueue) (device : Bool) (v : Word)
    (h : device = true ∨ 256 < ((v.setWidth 31 : BitVec 31) - x.cons).toNat
      ∨ ((v.setWidth 31 : BitVec 31) - x.cons).toNat < x.used) : x.writeProd device v = { x with err := true } := by
  simp only [LaunchQueue.writeProd, fld_low]
  refine if_pos ?_
  simpa [or_assoc] using h

theorem exec_prodWrite_host (s : State) (q : BitVec 3) (v : Word) (rs : List (List Word)) (hs : s.platform.safe = false)
    (hq : q.toNat < 4) :
    exec (.launchQueueProdWrite q v rs) s
      = .next (s.setQueueOf q (((s.queueOf q).fillSlots rs).writeProd false v)) := by
  have hd : q.getLsbD 2 = false := Bool.eq_false_iff.2 (fun h => by have := (getLsbD_two_iff q).1 h; omega)
  show execLaunchQueueProdWrite q v rs s = _
  simp only [execLaunchQueueProdWrite, hs, hd, Bool.false_eq_true, if_false, State.modQueue]

theorem exec_prodWrite_device (s : State) (q : BitVec 3) (v : Word) (rs : List (List Word)) (hs : s.platform.safe = false)
    (hq : 4 ≤ q.toNat) :
    exec (.launchQueueProdWrite q v rs) s = .next (s.setQueueOf q ((s.queueOf q).writeProd true v)) := by
  show execLaunchQueueProdWrite q v rs s = _
  simp only [execLaunchQueueProdWrite, hs, (getLsbD_two_iff q).2 hq, Bool.false_eq_true, if_false, if_true, State.modQueue]

theorem exec_prodWrite_taken (s : State) (q : BitVec 3) (v : Word) (rs : List (List Word)) (hs : s.platform.safe = false)
    (hq : q.toNat < 4) (h1 : ((v.setWidth 31 : BitVec 31) - (s.queueOf q).cons).toNat ≤ 256)
    (h2 : (s.queueOf q).used ≤ ((v.setWidth 31 : BitVec 31) - (s.queueOf q).cons).toNat) :
    ∃ u, exec (.launchQueueProdWrite q v rs) s = .next u ∧ (u.queueOf q).prod = v.setWidth 31
      ∧ (u.queueOf q).cons = (s.queueOf q).cons ∧ (u.queueOf q).err = (s.queueOf q).err := by
  refine ⟨_, exec_prodWrite_host s q v rs hs hq, ?_⟩
  rw [queueOf_setQueueOf, writeProd_taken ((s.queueOf q).fillSlots rs) v h1 h2]
  exact ⟨rfl, rfl, rfl⟩

theorem exec_prodWrite_refused (s : State) (q : BitVec 3) (v : Word) (rs : List (List Word)) (hs : s.platform.safe = false)
    (h : 4 ≤ q.toNat ∨ 256 < ((v.setWidth 31 : BitVec 31) - (s.queueOf q).cons).toNat
      ∨ ((v.setWidth 31 : BitVec 31) - (s.queueOf q).cons).toNat < (s.queueOf q).used) :
    ∃ u, exec (.launchQueueProdWrite q v rs) s = .next u ∧ (u.queueOf q).prod = (s.queueOf q).prod
      ∧ (u.queueOf q).cons = (s.queueOf q).cons ∧ (u.queueOf q).err = true := by
  by_cases hq : 4 ≤ q.toNat
  · refine ⟨_, exec_prodWrite_device s q v rs hs hq, ?_⟩
    rw [queueOf_setQueueOf, writeProd_refused _ _ _ (.inl rfl)]
    exact ⟨rfl, rfl, rfl⟩
  · refine ⟨_, exec_prodWrite_host s q v rs hs (Nat.lt_of_not_le hq), ?_⟩
    rw [queueOf_setQueueOf, writeProd_refused ((s.queueOf q).fillSlots rs) false v (.inr (h.resolve_left hq))]
    exact ⟨rfl, rfl, rfl⟩

theorem exec_errClear (s : State) (q : BitVec 3) (v : Word) :
    exec (.launchQueueErrClear q v) s
      = .next (if v.msb && !s.platform.safe then s.setQueueOf q { s.queueOf q with err := false } else s) := rfl

/-! #### Acceptance (R289, R290) -/

/-- The state after the next record of a queue has left it. -/
def State.tookRecord (s : State) (q : BitVec 3) : State :=
  let x := s.queueOf q
  { s.setQueueOf q { x with
      cons := x.cons + 1, tags := x.tags.tail, withdrawn := x.withdrawn.filter (fun n => n != x.cons.toNat) } with
    rotation := q + 1 }

/-- The next record in rotation is accepted, or only leaves its queue where it has been withdrawn. -/
theorem exec_recordAcceptance (s : State) (q : BitVec 3) (hn : s.nextQueue = some q) (hp : s.poolCount < 4096) :
    exec (.recordAcceptance q) s = .next
      (if (s.queueOf q).withdrawn.contains (s.queueOf q).cons.toNat then s.tookRecord q
       else (s.tookRecord q).accept
         ((assocGet ((s.queueOf q).cons.toNat % 256) (s.queueOf q).slots).getD (List.replicate 32 0))
         (if q.toNat < 4 then 0 else (s.queueOf q).tags.headD 0) (q.toNat, (s.queueOf q).cons.toNat)) := by
  have htag : (if q.getLsbD 2 then (s.queueOf q).tags.headD 0 else 0)
      = if q.toNat < 4 then 0 else (s.queueOf q).tags.headD 0 := by
    by_cases hq : 4 ≤ q.toNat
    · rw [if_pos ((getLsbD_two_iff q).2 hq), if_neg (Nat.not_lt.2 hq)]
    · rw [if_neg (fun h => hq ((getLsbD_two_iff q).1 h)), if_pos (Nat.lt_of_not_le hq)]
  have hc : ¬ (s.nextQueue ≠ some q ∨ 4096 ≤ s.poolCount) := by simp [hn, hp]
  show execRecordAcceptance q s = _
  simp only [execRecordAcceptance, hc, if_false, htag]
  split
  · rfl
  · rfl

theorem exec_recordAcceptance_idle (s : State) (q : BitVec 3) (h : s.nextQueue ≠ some q ∨ 4096 ≤ s.poolCount) :
    exec (.recordAcceptance q) s = .next s := if_pos h

theorem accept_elsewhere (s : State) (ws : List Word) (tag : Nat) (src : Nat × Nat) (h : recNode0 ws ≠ s.node)
    (hn : s.platform.nodes.contains (recNode0 ws) = true) :
    s.accept ws tag src = { s with relayed := s.relayed ++
      [{ words := ws, src := { node := s.node, queue := BitVec.ofNat 3 src.1, index := src.2, tag := tag }
         after := launchAfter s tag }] } := if_pos ⟨h, hn⟩

theorem accept_rejected (s : State) (ws : List Word) (tag : Nat) (src : Nat × Nat) (h : recNode0 ws = s.node)
    (hr : launchReason s ws ≠ 0) :
    s.accept ws tag src = (s.landHandle tag 0 (launchReason s ws)).launchEvent (recAsid ws) (launchReason s ws) := by
  simp only [State.accept, h, ne_eq, not_true_eq_false, false_and, if_false]
  exact if_pos hr

theorem accept_pooled (s : State) (ws : List Word) (tag : Nat) (src : Nat × Nat) (h : recNode0 ws = s.node)
    (hr : launchReason s ws = 0) :
    s.accept ws tag src
      = (s.pool ws tag src (launchAfter s tag)).1.landHandle tag (s.node.setWidth 64 <<< 32 ||| s.nextSeq.setWidth 64) 0 := by
  simp only [State.accept, h, hr, ne_eq, not_true_eq_false, false_and, if_false]
  rfl

/-! #### Records between packages (R289, R294) -/

theorem exec_forwardedRecord_out (s : State) (ws : List Word) (l : Origin)
    (h : recNode0 ((ws ++ List.replicate 32 0).take 32) ≠ s.node) :
    exec (.forwardedRecord ws l) s = .next (s.sendRelay ((ws ++ List.replicate 32 0).take 32) l) := if_pos h

/-- A record for another NODE0 leaves once what its LAUNCH released is performed. -/
theorem sendRelay_performed (s : State) (ws : List Word) (l : Origin) (y : Relay) (hy : s.relayOf ws l = some y)
    (h : ∀ id ∈ y.after, s.openOp id = false) :
    s.sendRelay ws l = { s.dropRelay ws l with out := s.out ++ [.record (recNode0 ws) ws l] } := by
  have hall : y.after.all (fun id => !s.openOp id) = true := by simpa using h
  simp only [State.sendRelay, hy, hall, if_true]
  rfl

theorem sendRelay_open (s : State) (ws : List Word) (l : Origin) (y : Relay) (hy : s.relayOf ws l = some y)
    (h : ∃ id ∈ y.after, s.openOp id = true) : s.sendRelay ws l = s := by
  have hall : y.after.all (fun id => !s.openOp id) = false := by simpa [List.all_eq_false] using h
  simp only [State.sendRelay, hy, hall, Bool.false_eq_true, if_false]

theorem sendRelay_absent (s : State) (ws : List Word) (l : Origin) (hy : s.relayOf ws l = none) : s.sendRelay ws l = s := by
  simp only [State.sendRelay, hy]

/-- A record that comes while the pool is full waits before it. -/
theorem exec_forwardedRecord_full (s : State) (ws : List Word) (l : Origin)
    (h : recNode0 ((ws ++ List.replicate 32 0).take 32) = s.node) (hp : 4096 ≤ s.poolCount) :
    exec (.forwardedRecord ws l) s = .next
      (if (s.relayOf ((ws ++ List.replicate 32 0).take 32) l).isSome then s
       else { s with relayed := s.relayed ++ [{ words := (ws ++ List.replicate 32 0).take 32, src := l, after := [] }] }) := by
  show execForwardedRecord ws l s = _
  simp only [execForwardedRecord, h, hp, ne_eq, not_true_eq_false, if_false, if_true]

theorem exec_forwardedRecord_rejected (s : State) (ws : List Word) (l : Origin)
    (h : recNode0 ((ws ++ List.replicate 32 0).take 32) = s.node) (hp : s.poolCount < 4096)
    (hr : launchReason s ((ws ++ List.replicate 32 0).take 32) ≠ 0) :
    let full := (ws ++ List.replicate 32 0).take 32
    exec (.forwardedRecord ws l) s
      = .next (((s.dropRelay full l).launchEvent (recAsid full) (launchReason s full)).tellLauncher l 0
          (launchReason s full)) := by
  show execForwardedRecord ws l s = _
  simp only [execForwardedRecord, h, Nat.not_le.2 hp, hr, ne_eq, not_true_eq_false, not_false_eq_true, if_false, if_true]

theorem exec_forwardedRecord_pooled (s : State) (ws : List Word) (l : Origin)
    (h : recNode0 ((ws ++ List.replicate 32 0).take 32) = s.node) (hp : s.poolCount < 4096)
    (hr : launchReason s ((ws ++ List.replicate 32 0).take 32) = 0) :
    let full := (ws ++ List.replicate 32 0).take 32
    exec (.forwardedRecord ws l) s
      = .next ((((s.dropRelay full l).pool full 0 (8, 0) []).1.modRecord s.nextId (fun r =>
          { r with origin := some l })).tellLauncher l (s.node.setWidth 64 <<< 32 ||| s.nextSeq.setWidth 64) 0) := by
  show execForwardedRecord ws l s = _
  simp only [execForwardedRecord, h, Nat.not_le.2 hp, hr, ne_eq, not_true_eq_false, if_false]
  rfl

theorem tellLauncher_host (s : State) (l : Origin) (x : Word) (reason : Nat) (h : l.tag = 0) :
    s.tellLauncher l x reason = s := if_pos h

theorem tellLauncher_device (s : State) (l : Origin) (x : Word) (reason : Nat) (h : l.tag ≠ 0) :
    s.tellLauncher l x reason
      = { s with out := s.out ++ [.handle l.node l.tag x (BitVec.ofNat 8 reason)] } := if_neg h

theorem postFault_records (s : State) (e : FaultEvent) : (s.postFault e).records = s.records := by
  unfold State.postFault
  dsimp only
  split
  · rfl
  · split
    · rfl
    · rfl

/-- The event of a rejection leaves the records. -/
theorem launchEvent_records (s : State) (asid : BitVec 12) (reason : Nat) :
    (s.launchEvent asid reason).records = s.records := postFault_records _ _

/-- A record that is rejected here enters no pool, and its LAUNCH in another package lands 0 with the reason. -/
theorem rejected_tells_launcher (s : State) (l : Origin) (asid : BitVec 12) (reason : Nat) (h : l.tag ≠ 0) :
    let u := (s.launchEvent asid reason).tellLauncher l 0 reason
    u.records = s.records
      ∧ u.out = (s.launchEvent asid reason).out ++ [.handle l.node l.tag 0 (BitVec.ofNat 8 reason)] := by
  rw [tellLauncher_device _ l 0 reason h]
  exact ⟨launchEvent_records s asid reason, rfl⟩

/-! #### Admission (R291 to R293) -/

section Admission
variable (s : State) (r : Record) (pl : Placement) (ext : Vector Word 4) (hr : s.record r.rid = some r)
include hr

theorem exec_recordAdmission_admitted (hp : r.phase = .pooled) (hd : depMiss s r.words = none)
    (ha : admits s r pl ext = true) :
    let others := otherNodes s r.words
    let seen := s.modRecord r.rid (fun r => { r with seen := ext })
    let asked := if others.isEmpty then Phase.reserved else .reserving others
    (∀ s1, (seen.passOver r).reserve r pl asked = some s1 →
      exec (.recordAdmission r.rid pl ext) s = .next (s1.askNext r.rid others))
    ∧ ((seen.passOver r).reserve r pl asked = none → exec (.recordAdmission r.rid pl ext) s = .next seen) := by
  intro others seen asked
  have h : exec (.recordAdmission r.rid pl ext) s = execRecordAdmission r.rid pl ext s := rfl
  simp only [h, execRecordAdmission, hr, hp, hd, ha, if_true]
  refine ⟨fun s1 hs => ?_, fun hs => ?_⟩
  · simp only [show ((s.modRecord r.rid (fun r => { r with seen := ext })).passOver r).reserve r pl
      (if (otherNodes s r.words).isEmpty then Phase.reserved else .reserving (otherNodes s r.words)) = some s1 from hs]
    rfl
  · simp only [show ((s.modRecord r.rid (fun r => { r with seen := ext })).passOver r).reserve r pl
      (if (otherNodes s r.words).isEmpty then Phase.reserved else .reserving (otherNodes s r.words)) = none from hs]
    rfl

theorem exec_recordAdmission_notYet (hp : r.phase = .pooled) (hd : depMiss s r.words = none)
    (ha : admits s r pl ext = false) :
    exec (.recordAdmission r.rid pl ext) s = .next (s.modRecord r.rid (fun r => { r with seen := ext })) := by
  show execRecordAdmission r.rid pl ext s = _
  simp only [execRecordAdmission, hr, hp, hd, ha, Bool.false_eq_true, if_false]

/-- A dependence in a frame that is not mapped is first served. -/
theorem exec_recordAdmission_unmapped (need : Need) (tv : Word) (hp : r.phase = .pooled)
    (hd : depMiss s r.words = some (need, tv)) :
    exec (.recordAdmission r.rid pl ext) s
      = .next (if askedFor s r.rid need then s else s.touchCounter r.rid (recAsid r.words) need tv) := by
  show execRecordAdmission r.rid pl ext s = _
  simp only [execRecordAdmission, hr, hp, hd]

/-- The answer of a package: NODE0 asks the next one, or the record is reserved. -/
theorem exec_recordAdmission_answer (n : Nat) (left : List Nat) (hp : r.phase = .reserving (n :: left)) :
    exec (.recordAdmission r.rid pl ext) s
      = .next ((s.askNext r.rid left).modRecord r.rid (fun r => { r with
          phase := if left.isEmpty then .reserved else .reserving left })) := by
  show execRecordAdmission r.rid pl ext s = _
  simp only [execRecordAdmission, hr, hp]

/-! #### Dispatch (R293, R297) -/

theorem exec_dispatch_binds (hp : r.phase = .reserved) (hrel : s.platform.released = true) (hf : stillFree s r = true) :
    exec (.dispatch r.rid) s = .next (s.bind r) := by
  show execDispatch r.rid s = _
  simp only [execDispatch, hr, hp, hrel, hf, Bool.and_self, if_true]

/-- A commit that finds a slot taken stands. -/
theorem exec_dispatch_stands (hp : r.phase = .reserved) (hn : s.platform.released = false ∨ stillFree s r = false) :
    exec (.dispatch r.rid) s
      = .next (if r.pkgIndex = 0 then s else s.modRecord r.rid (fun r => { r with committed := true })) := by
  have hb : (s.platform.released && stillFree s r) = false := by
    obtain h | h := hn
    · simp [h]
    · simp [h]
  show execDispatch r.rid s = _
  simp only [execDispatch, hr, hp, hb, Bool.false_eq_true, if_false]

theorem exec_dispatch_running (hp : r.phase = .running) : exec (.dispatch r.rid) s = .next (s.boundElsewhere r) := by
  show execDispatch r.rid s = _
  simp only [execDispatch, hr, hp]

end Admission

/-- Contexts that are bound one after the other leave what has left the package. -/
theorem foldl_setCtx_out {α : Type} (f : α → Nat) (k : α → SlotNo) (b : Bank) (c : α → Context) (xs : List α)
    (s : State) : (xs.foldl (fun (st : State) x => st.setCtx (f x) (k x) b (c x)) s).out = s.out := by
  induction xs generalizing s with
  | nil => rfl
  | cons x xs ih => exact (ih _).trans rfl

theorem addGroups_out (s : State) (r : Record) (n : Nat) (cs : List (Nat × SlotNo × Nat × Nat)) :
    (s.addGroups r n cs).out = s.out := by
  unfold State.addGroups
  split
  · rfl
  · rfl

theorem modRecord_out (s : State) (rid : Nat) (f : Record → Record) : (s.modRecord rid f).out = s.out := rfl

/-- A package that is not NODE0's sends no start pulse. -/
theorem firstPulse_elsewhere_out (s : State) (r : Record) (rest : List Nat) (h : r.pkgIndex ≠ 0) :
    (s.firstPulse { r with unbound := rest }).out = s.out :=
  congrArg State.out (if_neg (by simp [h]) : s.firstPulse { r with unbound := rest } = s)

/-- A package that is not NODE0's reports that it has bound its part. -/
theorem bind_out_elsewhere (s : State) (r : Record) (h : r.pkgIndex ≠ 0) :
    (s.bind r).out = s.out ++ [.bound (recNode0 r.words) r.source.2] := by
  refine (congrArg State.out (if_neg h)).trans (congrArg (· ++ [OutMsg.bound (recNode0 r.words) r.source.2]) ?_)
  refine (modRecord_out _ _ _).trans ((firstPulse_elsewhere_out _ r _ h).trans ((addGroups_out _ _ _ _).trans ?_))
  exact foldl_setCtx_out Prod.fst (fun c : Nat × SlotNo × Nat × Nat => c.2.1) .primary _ _ s

/-! #### Requests of NODE0 (R293) -/

theorem answerRequest_waits (s : State) (r : Record) (pl : Placement)
    (h : ¬ (s.admitting = true ∧ launchReason s r.words = 0 ∧ energyFits s r.words = true ∧ placementFree s r pl = true)) :
    s.answerRequest r pl = s := if_neg h

theorem answerRequest_fits (s : State) (r : Record) (pl : Placement) (h1 : s.admitting = true)
    (h2 : launchReason s r.words = 0) (h3 : energyFits s r.words = true) (h4 : placementFree s r pl = true) :
    (∀ s1, s.reserve r pl .reserved = some s1 →
      s.answerRequest r pl = { s1 with out := s1.out ++ [.reserved (recNode0 r.words) r.source.2] })
    ∧ (s.reserve r pl .reserved = none → s.answerRequest r pl = s) := by
  simp only [State.answerRequest, h1, h2, h3, h4, and_self, if_true]
  exact ⟨fun s1 hs => by simp only [hs], fun hs => by simp only [hs]⟩

theorem admitting_iff (s : State) :
    s.admitting = true ↔ s.platform.released = true ∧ s.platform.emergency = false ∧ s.platform.safe = false := by
  simp [State.admitting, and_assoc]

theorem exec_reserveRequest_kept (s : State) (rid : Nat) (ws : List Word) (pl : Placement) (r : Record)
    (h : s.requestOf (recNode0 ((ws ++ List.replicate 32 0).take 32)) rid = some r) :
    exec (.reserveRequest rid ws pl) s = .next (s.answerRequest r pl) := by
  show execReserveRequest rid ws pl s = _
  simp only [execReserveRequest, h]

/-- A new request is kept; a package that admits nothing does not answer it. -/
theorem exec_reserveRequest_new (s : State) (rid : Nat) (ws : List Word) (pl : Placement)
    (h : s.requestOf (recNode0 ((ws ++ List.replicate 32 0).take 32)) rid = none)
    (h1 : (recNode0 ((ws ++ List.replicate 32 0).take 32)).toNat < s.node.toNat)
    (h2 : s.node.toNat < (recNode0 ((ws ++ List.replicate 32 0).take 32)).toNat
      + recPackages ((ws ++ List.replicate 32 0).take 32))
    (ha : s.admitting = false) :
    exec (.reserveRequest rid ws pl) s
      = .next ((s.pool ((ws ++ List.replicate 32 0).take 32) 0 (8, rid) []).1.modRecord s.nextId (fun r =>
          { r with phase := .requested })) := by
  have hw : ∀ (u : State) (r : Record), u.admitting = false → u.answerRequest r pl = u := fun u r hu =>
    answerRequest_waits u r pl (by simp [hu])
  show execReserveRequest rid ws pl s = _
  simp only [execReserveRequest, h, h1, h2, and_self, if_true]
  split
  · exact congrArg Host.Outcome.next (hw _ _ ha)
  · rfl

/-! #### The registers of a bound context (R23) -/

theorem setS_s (g : Regs) (r : SReg) (x : Word) (h : r ≠ 0) (k : Nat) (hk : k < 64) :
    (g.setS r x).s[k] = if r.toNat = k then x else g.s[k] := by
  simp only [Regs.setS, h, if_false]
  exact Vector.getElem_set _ _

/-- What binding writes from s56 on: the index of each level so far, and nothing else. -/
theorem foldl_setS_levels (f : Nat → Word) (g : Regs) (n : Nat) (hn : n ≤ 8) (k : Nat) (hk : k < 64) :
    ((List.range n).foldl (fun (g : Regs) i => g.setS (BitVec.ofNat 6 (56 + i)) (f i)) g).s[k]
      = if 56 ≤ k ∧ k < 56 + n then f (k - 56) else g.s[k] := by
  induction n with
  | zero => simp
  | succ n ih =>
    have ht : (BitVec.ofNat 6 (56 + n)).toNat = 56 + n := by
      rw [BitVec.toNat_ofNat]
      omega
    have h0 : (BitVec.ofNat 6 (56 + n) : SReg) ≠ 0 := fun h => by
      have := congrArg BitVec.toNat h
      rw [ht] at this
      simp at this
    rw [List.range_succ, List.foldl_append, List.foldl_cons, List.foldl_nil, setS_s _ _ _ h0 _ hk, ht, ih (by omega)]
    by_cases h1 : 56 + n = k
    · subst h1
      simp
    · by_cases h2 : 56 ≤ k ∧ k < 56 + n
      · rw [if_neg h1, if_pos h2, if_pos (by omega)]
      · rw [if_neg h1, if_neg h2, if_neg (by omega)]

theorem bindRegs_argument (ws : List Word) (flat : Nat) : (bindRegs ws flat).s[1] = ws.getD 2 0 := by
  rw [bindRegs, foldl_setS_levels _ _ 8 (by omega) 1 (by omega), setS_s _ _ _ (by decide) 1 (by omega)]
  rfl

theorem bindRegs_index (ws : List Word) (flat i : Nat) (hi : i < 8) :
    (bindRegs ws flat).s[56 + i] = BitVec.ofNat 64 (indexAt ws flat i) := by
  rw [bindRegs, foldl_setS_levels _ _ 8 (by omega) (56 + i) (by omega), if_pos (by omega), Nat.add_sub_cancel_left]

theorem bindContext_index (s : State) (r : Record) (t uid flat group : Nat) (i : Fin 8) :
    (bindContext s r t uid flat group).sreg (BitVec.ofNat 6 (56 + i.val))
      = BitVec.ofNat 64 (indexAt r.words flat i.val) := by
  have ht : (BitVec.ofNat 6 (56 + i.val)).toNat = 56 + i.val := by
    rw [BitVec.toNat_ofNat]
    omega
  have h0 : (BitVec.ofNat 6 (56 + i.val) : SReg) ≠ 0 := fun h => by
    have := congrArg BitVec.toNat h
    rw [ht] at this
    simp at this
  rw [Context.sreg, if_neg h0]
  simp only [ht]
  exact bindRegs_index r.words flat i.val i.isLt

theorem bindContext_argument (s : State) (r : Record) (t uid flat group : Nat) :
    (bindContext s r t uid flat group).sreg 1 = r.words.getD 2 0 := bindRegs_argument r.words flat

/-! #### The statement -/

theorem launchQueues (s : State) (q : BitVec 3) (v : Word) (rs : List (List Word)) :
    (s.platform.safe = false → v.msb = true →
      exec (.launchQueueErrClear q v) s = .next (s.setQueueOf q { s.queueOf q with err := false }))
    ∧ (v.msb = false → exec (.launchQueueErrClear q v) s = .next s)
    ∧ (s.platform.safe = true →
      exec (.launchQueueProdWrite q v rs) s = .next s ∧ exec (.launchQueueErrClear q v) s = .next s) := by
  refine ⟨fun hs hv => ?_, fun hv => ?_, fun hs => ⟨?_, ?_⟩⟩
  · rw [exec_errClear, hs, hv]
    rfl
  · rw [exec_errClear, hv]
    rfl
  · show execLaunchQueueProdWrite q v rs s = _
    simp only [execLaunchQueueProdWrite, hs, if_true]
  · rw [exec_errClear, hs, Bool.not_true, Bool.and_false]
    rfl

/-- Settles O55: the launch queues, the acceptance and forwarding of records, their admission, requests and dispatch, and
the bound context, from the lemmas on each. -/
theorem recordsAreDispatched : Obligations.RecordsAreDispatched := by
  refine ⟨fun s q v rs ws l => ?_, fun s s1 r pl ext ws rid t uid flat group n left need tv => ?_⟩
  · obtain ⟨herr, hkeep, hsafe⟩ := launchQueues s q v rs
    refine ⟨exec_prodWrite_taken s q v rs, exec_prodWrite_refused s q v rs, herr, hkeep, hsafe,
      fun hn hp hw => ⟨fun hm => ?_, fun hm => ?_⟩, exec_recordAcceptance_idle s q,
      fun tag src => ⟨accept_elsewhere s ws tag src, accept_rejected s ws tag src, accept_pooled s ws tag src⟩,
      fun h => ⟨fun y hy => ⟨fun ho => ?_, fun ho => ?_⟩, fun hy => ?_⟩, fun h hp => ⟨fun hy => ?_, fun y hy => ?_⟩,
      fun h hp => ⟨fun hr ht => ?_, fun hr ht => ?_, fun hr ht => ?_, fun hr ht => ?_⟩⟩
    · rw [exec_recordAcceptance s q hn hp, if_neg (by simpa using hm), hw]
      rfl
    · rw [exec_recordAcceptance s q hn hp, if_pos (by simpa using hm)]
      rfl
    · rw [exec_forwardedRecord_out s ws l h, sendRelay_performed s _ l y hy ho]
    · rw [exec_forwardedRecord_out s ws l h, sendRelay_open s _ l y hy ho]
    · rw [exec_forwardedRecord_out s ws l h, sendRelay_absent s _ l hy]
    · rw [exec_forwardedRecord_full s ws l h hp, hy]
      rfl
    · rw [exec_forwardedRecord_full s ws l h hp, hy]
      rfl
    · rw [exec_forwardedRecord_rejected s ws l h hp hr, tellLauncher_host _ l _ _ ht]
    · rw [exec_forwardedRecord_pooled s ws l h hp hr, tellLauncher_host _ l _ _ ht]
    · refine ⟨_, exec_forwardedRecord_pooled s ws l h hp hr, ?_⟩
      rw [tellLauncher_device _ l _ _ ht]
      exact ⟨rfl, rfl⟩
    · obtain ⟨hrec, hout⟩ := rejected_tells_launcher (s.dropRelay ((ws ++ List.replicate 32 0).take 32) l) l
        (recAsid ((ws ++ List.replicate 32 0).take 32)) (launchReason s ((ws ++ List.replicate 32 0).take 32)) ht
      exact ⟨_, _, exec_forwardedRecord_rejected s ws l h hp hr, hrec, hout⟩
  · refine ⟨fun hr => ⟨fun hp hd ha => ?_, exec_recordAdmission_notYet s r pl ext hr, fun hp hd hk => ?_,
        exec_recordAdmission_answer s r pl ext hr n left, fun hp hd hk => ?_, exec_dispatch_binds s r hr,
        fun hp hn => ⟨fun hi => ?_, fun hi => ?_⟩, exec_dispatch_running s r hr⟩, rfl, bind_out_elsewhere s r,
      fun h h1 h2 hn => ?_, fun h => ⟨fun hn => ?_, fun hrel he hs h2 h3 h4 => ?_⟩,
      rfl, rfl, rfl, rfl, rfl, rfl, rfl, bindContext_argument s r t uid flat group, bindContext_index s r t uid flat group,
      rfl, rfl, rfl, rfl, rfl⟩
    · obtain ⟨hsome, hnone⟩ := exec_recordAdmission_admitted s r pl ext hr hp hd ha
      exact ⟨hsome s1, hnone⟩
    · rw [exec_recordAdmission_unmapped s r pl ext hr need tv hp hd, hk]
      rfl
    · rw [exec_recordAdmission_unmapped s r pl ext hr need tv hp hd, hk]
      rfl
    · rw [exec_dispatch_stands s r hr hp hn, if_pos hi]
    · rw [exec_dispatch_stands s r hr hp hn, if_neg hi]
    · refine exec_reserveRequest_new s rid ws pl h h1 h2 (Bool.eq_false_iff.2 (fun ha => ?_))
      obtain ⟨a1, a2, a3⟩ := (admitting_iff s).1 ha
      simp [a1, a2, a3] at hn
    · rw [exec_reserveRequest_kept s rid ws pl r h, answerRequest_waits s r pl]
      rintro ⟨ha, b2, b3, b4⟩
      obtain ⟨a1, a2, a3⟩ := (admitting_iff s).1 ha
      simp [a1, a2, a3, b2, b3, b4] at hn
    · obtain ⟨hsome, hnone⟩ := answerRequest_fits s r pl ((admitting_iff s).2 ⟨hrel, he, hs⟩) h2 h3 h4
      rw [exec_reserveRequest_kept s rid ws pl r h]
      exact ⟨fun hv => congrArg _ (hsome s1 hv), fun hv => congrArg _ (hnone hv)⟩

end Sys2Proof.Machine
end

section
/-! ### The end of a record: completion, pre-emption, restore and abort (R34, R36, R219, R298 to R300) -/

namespace Sys2Proof.Machine

/-! #### What leaves the records of the scheduler -/

theorem record_congr {s u : State} (rid : Nat) (h : s.records = u.records) : s.record rid = u.record rid :=
  congrArg (List.find? fun r : Record => r.rid == rid) h

theorem foldl_records {α : Type} (f : State → α → State) (hf : ∀ s x, (f s x).records = s.records) (xs : List α)
    (s : State) : (xs.foldl f s).records = s.records := by
  induction xs generalizing s with
  | nil => rfl
  | cons x xs ih => exact (ih _).trans (hf s x)

theorem find?_replaceFirst {α : Type} (p : α → Bool) (f : α → α) (hf : ∀ x, p (f x) = p x) (xs : List α) :
    (replaceFirst p f xs).find? p = (xs.find? p).map f := by
  induction xs with
  | nil => rfl
  | cons x xs ih =>
    by_cases hx : p x = true
    · simp [replaceFirst, hx, hf]
    · simp [replaceFirst, hx, ih]

theorem record_modRecord {s : State} {rid : Nat} {q : Record} (f : Record → Record) (hf : ∀ x, (f x).rid = x.rid)
    (h : s.record rid = some q) : (s.modRecord rid f).record rid = some (f q) :=
  (find?_replaceFirst _ f (fun x => by rw [hf]) s.records).trans (congrArg (Option.map f) h)

theorem freezeRecord_records (s : State) (rid : Nat) : (s.freezeRecord rid).records = s.records := by
  refine foldl_records _ (fun u x => ?_) _ _
  split
  · rfl
  · rfl

theorem dropScans_records (s : State) (t uid : Nat) : (s.dropScans t uid).records = s.records := by
  refine foldl_records _ (fun u o => foldl_records _ (fun u c => ?_) _ _) _ _
  split
  · rfl
  · rfl

theorem unbind_records (s : State) (t : Nat) (k : SlotNo) (b : Bank) : (s.unbind t k b).records = s.records :=
  dropScans_records s t _

theorem leaveBarrier_records (s : State) (c : Context) : (s.leaveBarrier c).records = s.records := by
  unfold State.leaveBarrier
  split
  · rfl
  · rfl

theorem writeAcc_records (s : State) (a : TileArea) (off : Nat) (acc : List (Nat × Quire)) :
    (s.writeAcc a off acc).records = s.records := by
  refine foldl_records _ (fun u x => ?_) _ _
  rfl

/-- Parts of an image that are written one after the other. -/
theorem foldl_writeArea_records {α : Type} (a : TileArea) (off : α → Nat) (bs : α → List Byte) (xs : List α) (s : State) :
    (xs.foldl (fun (u : State) x => u.writeArea a (off x) (bs x)) s).records = s.records :=
  foldl_records (fun (u : State) x => u.writeArea a (off x) (bs x)) (fun _ _ => rfl) xs s

theorem saveArea_records (s : State) (r : Record) (xs : List SavedCtx) (a : TileArea) :
    (s.saveArea r xs a).records = s.records := by
  unfold State.saveArea
  dsimp only
  refine (foldl_records _ (fun u x => foldl_writeArea_records a _ _ _ u) _ _).trans ?_
  split
  · refine (writeAcc_records _ _ _ _).trans ?_
    split
    · exact foldl_writeArea_records a _ _ _ _
    · rfl
  · split
    · exact foldl_writeArea_records a _ _ _ _
    · rfl

/-- The record of a save is held as saved; nothing else about it changes but what the save keeps. -/
theorem record_saveRecord {s : State} {r q : Record} (h : s.record r.rid = some q) :
    ∃ x, (s.saveRecord r).record r.rid = some x ∧ x.phase = .saved ∧ x.aborting = q.aborting := by
  refine ⟨_, record_modRecord _ (fun _ => rfl) ((record_congr r.rid ?_).trans h), rfl, rfl⟩
  exact (foldl_records _ (fun u x => unbind_records u _ _ _) _ _).trans <|
    (foldl_records _ (fun u x => leaveBarrier_records u _) _ _).trans <|
      foldl_records _ (fun u a => saveArea_records u _ _ a) _ _

theorem watchAgain_records (s : State) (t : Nat) (k : SlotNo) (c : Context) : (s.watchAgain t k c).records = s.records := by
  unfold State.watchAgain
  split
  · rfl
  · rfl

theorem moveScans_records (s : State) (uid t : Nat) (k : SlotNo) : (s.moveScans uid t k).records = s.records := by
  refine foldl_records _ (fun u o => foldl_records _ (fun u c => ?_) _ _) _ _
  split
  · rfl
  · rfl

theorem postOpen_records (s : State) (cls : BitVec 8) (code : Option (BitVec 8)) (place : Option (Nat × SlotNo))
    (asid : Option (BitVec 12)) (w1 w2 : Option Word) : (s.postOpen cls code place asid w1 w2).records = s.records :=
  postFault_records _ _

theorem postEvent_records (s : State) (t : Nat) (k : SlotNo) (uid : Nat) (asid : BitVec 12) (tr : Trap) :
    (s.postEvent t k uid asid tr).records = s.records := by
  unfold State.postEvent
  split
  · exact postOpen_records _ _ _ _ _ _ _
  · dsimp only
    split
    · exact postFault_records _ _
    · split
      · exact postFault_records _ _
      · rfl

theorem restoreCtx_records (s : State) (r : Record) (pl : Placement) (x : SavedCtx) :
    (s.restoreCtx r pl x).records = s.records :=
  (foldl_records _ (fun u _ => postEvent_records u _ _ _ _ _) _ _).trans <|
    (moveScans_records _ _ _ x.slot).trans (watchAgain_records _ _ _ _)

theorem arriveBarrier_records (s : State) (c : Context) (level : BitVec 3) :
    (s.arriveBarrier c level).records = s.records := by
  unfold State.arriveBarrier
  split
  · rfl
  · dsimp only
    split
    · rfl
    · rfl

theorem arriveAgain_records (s : State) (x : SavedCtx) : (s.arriveAgain x).records = s.records := by
  unfold State.arriveAgain
  split
  · exact arriveBarrier_records _ _ _
  · rfl

/-- A record that passes over others keeps its own place. -/
theorem record_passOver {s : State} {r q : Record} {rid : Nat} (h : s.record rid = some q) :
    ∃ x, (s.passOver r).record rid = some x := by
  refine Option.isSome_iff_exists.1 (List.find?_isSome.2 ?_)
  refine ⟨_, List.mem_map_of_mem (List.mem_of_find?_eq_some h), ?_⟩
  have hq : (q.rid == rid) = true := List.find?_some (p := fun x : Record => x.rid == rid) h
  split
  · exact hq
  · exact hq

/-- A record that ends is not held any more. -/
theorem rid_ne_of_mem_endRecord {s : State} {rid : Nat} {y : Record} (h : y ∈ (s.endRecord rid).records) : y.rid ≠ rid := by
  simpa using (List.mem_filter.1 h).2

/-- A record that is aborted ends at once, unless its completion add is still to be made. -/
theorem rid_ne_of_mem_abortRecord {s : State} {r y : Record} {post : Bool} (h : post = false ∨ r.pkgIndex ≠ 0)
    (hy : y ∈ (s.abortRecord r post).records) : y.rid ≠ r.rid := by
  have hn : ¬ (post && r.pkgIndex == 0) = true := by
    obtain h | h := h
    · simp [h]
    · simp [h]
  unfold State.abortRecord at hy
  rw [postOpen_records, if_neg hn] at hy
  exact rid_ne_of_mem_endRecord hy

/-! #### Completion (R36) -/

section Completion
variable (s : State) (r : Record) (hr : s.record r.rid = some r)
include hr

theorem exec_completionAdd_away (n : Nat) (away : List Nat) (hp : r.phase = .running ∨ r.phase = .saved)
    (ha : r.away = n :: away) :
    exec (.completionAdd r.rid) s = .next (s.modRecord r.rid (fun r => { r with away := away })) := by
  show execCompletionAdd r.rid s = _
  obtain hp | hp := hp
  · simp only [execCompletionAdd, hr, hp, ha]
  · simp only [execCompletionAdd, hr, hp, ha]

theorem exec_completionAdd_left (hp : r.phase = .running) (ha : r.away = []) (hl : r.left ≠ []) :
    exec (.completionAdd r.rid) s = .next s := by
  show execCompletionAdd r.rid s = _
  simp only [execCompletionAdd, hr, hp, ha, List.isEmpty_eq_false_iff.2 hl, if_true]

theorem exec_completionAdd_aborts (post : Bool) (hp : r.phase = .running) (ha : r.away = []) (hl : r.left = [])
    (hb : r.aborting = some post) : exec (.completionAdd r.rid) s = .next (s.abortRecord r post) := by
  show execCompletionAdd r.rid s = _
  simp only [execCompletionAdd, hr, hp, ha, hl, hb, List.isEmpty_nil, Bool.true_eq_false, if_false]

/-- NODE0 adds the completion amount of a record that has ended, or whose add still waits. -/
theorem exec_completionAdd_node0 (h : r.phase = .running ∧ r.away = [] ∧ r.left = [] ∧ r.aborting = none ∨ r.phase = .ended)
    (hi : r.pkgIndex = 0) : exec (.completionAdd r.rid) s = .next (s.completeRecord r) := by
  show execCompletionAdd r.rid s = _
  obtain ⟨hp, ha, hl, hb⟩ | hp := h
  · simp only [execCompletionAdd, hr, hp, ha, hl, hb, hi, List.isEmpty_nil, Bool.true_eq_false, ne_eq, not_true, if_false]
  · simp only [execCompletionAdd, hr, hp]

/-- Another package than NODE0's reports the end of its part. -/
theorem exec_completionAdd_part (hp : r.phase = .running) (ha : r.away = []) (hl : r.left = []) (hb : r.aborting = none)
    (hi : r.pkgIndex ≠ 0) :
    exec (.completionAdd r.rid) s
      = .next (({ s with out := s.out ++ [.partDone (recNode0 r.words) r.source.2] } : State).endRecord r.rid) := by
  show execCompletionAdd r.rid s = _
  simp only [execCompletionAdd, hr, hp, ha, hl, hb, hi, List.isEmpty_nil, Bool.true_eq_false, ne_eq, not_false_iff, if_false,
    if_true]

end Completion

theorem completeRecord_added {s s1 s2 : State} {r : Record} (h : s.postCompletion r = (some s1, s2)) :
    s.completeRecord r = s1.endRecord r.rid := by
  simp only [State.completeRecord, h]

theorem completeRecord_waits {s s2 : State} {r : Record} (h : s.postCompletion r = (none, s2)) : s.completeRecord r = s2 := by
  simp only [State.completeRecord, h]

/-- A record with no completion counter ends without an add. -/
theorem postCompletion_noCounter (s : State) (r : Record) (h : (recCounter r.words 24).space = 0) :
    s.postCompletion r = (some s, s) := by
  simp only [State.postCompletion, h, if_true]

/-! #### Pre-emption (R34, R296) -/

section Preemption
variable (s : State) (r : Record) (why : PreemptCause) (hr : s.record r.rid = some r)
include hr

/-- The contexts of a record that is chosen stop, and the record stands as one that is being saved. -/
theorem record_stopped :
    ((s.freezeRecord r.rid).modRecord r.rid (fun r => { r with saving := true })).record r.rid = some { r with saving := true } :=
  record_modRecord _ (fun _ => rfl) ((record_congr r.rid (freezeRecord_records s r.rid)).trans hr)

theorem exec_preemption_chosen (hp : r.phase = .running) (hl : r.left ≠ []) (hm : r.saving = true ∨ mayPreempt s r why = true)
    {q : Record} (hq : (s.preempt r).record r.rid = some q) (hn : q.phase = .saved → q.aborting = none) :
    exec (.preemption r.rid why) s = .next (s.preempt r) := by
  show execPreemption r.rid why s = _
  simp only [execPreemption, hr, hp, List.isEmpty_eq_false_iff.2 hl, hm, and_self, if_true, hq]
  split
  · next post hphase hab => exact absurd (hab.symm.trans (hn hphase)) (by simp)
  · rfl

/-- The save waits for what a context has under way. -/
theorem exec_preemption_stops (hp : r.phase = .running) (hl : r.left ≠ []) (hm : r.saving = true ∨ mayPreempt s r why = true)
    (hw : ∃ x ∈ ((s.freezeRecord r.rid).modRecord r.rid (fun r => { r with saving := true })).bound r.rid,
      x.2.2.2.saving = false
        ∨ savable ((s.freezeRecord r.rid).modRecord r.rid (fun r => { r with saving := true })) x.1 x.2.2.2 = false) :
    exec (.preemption r.rid why) s
      = .next ((s.freezeRecord r.rid).modRecord r.rid (fun r => { r with saving := true })) := by
  have he : s.preempt r = (s.freezeRecord r.rid).modRecord r.rid (fun r => { r with saving := true }) := by
    refine if_neg (fun hall => ?_)
    obtain ⟨x, hx, hx'⟩ := hw
    have hboth := List.all_eq_true.1 hall x hx
    rw [Bool.and_eq_true] at hboth
    obtain h | h := hx'
    · exact absurd (hboth.1.symm.trans h) (by decide)
    · exact absurd (hboth.2.symm.trans h) (by decide)
  have hq := record_stopped s r hr
  rw [← he] at hq ⊢
  exact exec_preemption_chosen s r why hr hp hl hm hq (fun h => absurd (hp.symm.trans h) (by simp))

/-- Once all of its contexts can be saved, the record is saved. -/
theorem exec_preemption_saves (hp : r.phase = .running) (hl : r.left ≠ []) (hm : r.saving = true ∨ mayPreempt s r why = true)
    (hb : r.aborting = none)
    (hall : ∀ x ∈ ((s.freezeRecord r.rid).modRecord r.rid (fun r => { r with saving := true })).bound r.rid,
      x.2.2.2.saving = true
        ∧ savable ((s.freezeRecord r.rid).modRecord r.rid (fun r => { r with saving := true })) x.1 x.2.2.2 = true) :
    exec (.preemption r.rid why) s
      = .next (((s.freezeRecord r.rid).modRecord r.rid (fun r => { r with saving := true })).saveRecord r) := by
  have he : s.preempt r
      = ((s.freezeRecord r.rid).modRecord r.rid (fun r => { r with saving := true })).saveRecord r :=
    if_pos (List.all_eq_true.2 fun x hx => Bool.and_eq_true_iff.2 (hall x hx))
  obtain ⟨q, hq, -, hqa⟩ := record_saveRecord (record_stopped s r hr)
  rw [← he] at hq ⊢
  exact exec_preemption_chosen s r why hr hp hl hm hq (fun _ => hqa.trans hb)

theorem exec_preemption_not_chosen (hs : r.saving = false) (hm : mayPreempt s r why = false) :
    exec (.preemption r.rid why) s = .next s := by
  show execPreemption r.rid why s = _
  simp only [execPreemption, hr, hs, hm, Bool.false_eq_true, or_self, and_false, if_false]

end Preemption

/-- No bundle of a context that stops is presented: it keeps all that it has computed, and gives up its tile. -/
theorem freeze_keeps (c : Context) (gtc : Nat) :
    (c.freeze gtc).saving = true ∧ (c.freeze gtc).pc = c.pc ∧ (c.freeze gtc).bcnt = c.bcnt ∧ (c.freeze gtc).regs = c.regs
      ∧ (c.freeze gtc).landing = c.landing ∧ (c.status = .issuing → (c.freeze gtc).status = .ready)
      ∧ (c.status ≠ .issuing → (c.freeze gtc).status = c.status) := by
  cases h : c.status <;> simp [Context.freeze, h]

/-! #### Restore (R300) -/

section Restore
variable (s : State) (r : Record) (pl : Placement) (hr : s.record r.rid = some r)
include hr

/-- A saved record of NODE0 whose dependence is not mapped asks the MMP for it, once. -/
theorem exec_restore_unmapped (need : Need) (tv : Word) (hp : r.phase = .saved) (hi : r.pkgIndex = 0)
    (hd : depMiss s r.words = some (need, tv)) :
    exec (.restore r.rid pl) s
      = .next (if askedFor s r.rid need then s else s.touchCounter r.rid (recAsid r.words) need tv) := by
  show execRestore r.rid pl s = _
  simp only [execRestore, hr, hp, hi, hd, ne_eq, not_true, if_false, if_true]

theorem exec_restore_waits (hd : r.pkgIndex ≠ 0 ∨ depMiss s r.words = none) (ha : admits s r pl r.seen = false) :
    exec (.restore r.rid pl) s = .next s := by
  have hn : (if r.pkgIndex = 0 then depMiss s r.words else none) = none := by
    obtain h | h := hd
    · exact if_neg h
    · rw [h, ite_self]
  show execRestore r.rid pl s = _
  simp only [execRestore, hr, hn, ha, Bool.false_eq_true, if_false, ite_self]

/-- A saved record that is admitted is bound again, on its new placement. -/
theorem exec_restore_binds (hp : r.phase = .saved) (hd : r.pkgIndex ≠ 0 ∨ depMiss s r.words = none)
    (ha : admits s r pl r.seen = true) :
    ∃ u, exec (.restore r.rid pl) s = .next u
      ∧ ∃ x, u.record r.rid = some x ∧ x.phase = .running ∧ x.placement = pl ∧ x.savedCtxs = [] := by
  have hn : (if r.pkgIndex = 0 then depMiss s r.words else none) = none := by
    obtain h | h := hd
    · exact if_neg h
    · rw [h, ite_self]
  show ∃ u, execRestore r.rid pl s = .next u ∧ _
  simp only [execRestore, hr, hp, hn, ha, ne_eq, not_true, if_false, if_true]
  refine ⟨_, rfl, ?_⟩
  obtain ⟨q, hq⟩ := record_passOver (r := r) hr
  refine ⟨_, (record_congr r.rid (foldl_records _ arriveAgain_records _ _)).trans
    (record_modRecord _ (fun _ => rfl) ((record_congr r.rid ?_).trans hq)), rfl, rfl, rfl⟩
  refine (foldl_records _ (fun u x => restoreCtx_records u r pl x) _ _).trans (foldl_records _ (fun u a => ?_) _ _)
  rfl

end Restore

/-- A context whose answered wait has not issued is saved Blocked; only what a lead has reported is kept of the wait. -/
theorem saved_cleared (c : Context) (bc : BlockCond) (h : c.cleared = some bc) :
    (c.status = .ready ∨ c.status = .issuing ∨ c.status = .readyOut → c.saved.status = .blocked bc)
      ∧ (bc ≠ .reportAwaited → c.saved.observed = none) ∧ (bc = .reportAwaited → c.saved.observed = c.observed) := by
  refine ⟨fun hs => ?_, fun hb => ?_, fun hb => ?_⟩
  · obtain hs | hs | hs := hs
    · simp only [Context.saved, CtxStatus.saved, hs, h]
    · simp only [Context.saved, CtxStatus.saved, hs, h]
    · simp only [Context.saved, CtxStatus.saved, hs, h]
  · exact if_neg (by simp [h, hb])
  · exact if_pos (h.trans (congrArg some hb))

theorem saved_not_cleared (c : Context) (h : c.cleared = none) :
    c.saved.observed = none ∧ c.saved.cleared = none
      ∧ (c.status = .ready ∨ c.status = .issuing ∨ c.status = .readyOut → c.saved.status = .ready) := by
  refine ⟨if_neg (by simp [h]), rfl, fun hs => ?_⟩
  obtain hs | hs | hs := hs
  · simp only [Context.saved, CtxStatus.saved, hs, h]
  · simp only [Context.saved, CtxStatus.saved, hs, h]
  · simp only [Context.saved, CtxStatus.saved, hs, h]

/-! #### RECORD_ABORT (R298) -/

/-- The target of a command of the host, which has an answer. -/
def AbortTarget.ofHost (tgt : AbortTarget) : Prop :=
  (∃ h, tgt = .handle h) ∨ (∃ q i, tgt = .queueIndex q i) ∨ (∃ a, tgt = .asid a)

/-- A command takes the request that a doorbell has handed over, and changes nothing else. -/
theorem takeRequest_eq (s : State) : ∃ x, s.takeRequest = s.modPlatform (fun p => { p with rung := x }) := by
  unfold State.takeRequest
  split
  · exact ⟨none, rfl⟩
  · exact ⟨s.platform.rung, rfl⟩
  · exact ⟨s.platform.rung, rfl⟩

theorem exec_recordAbort_host (s : State) (seq : BitVec 16) (tgt : AbortTarget) (post : Bool) (ht : AbortTarget.ofHost tgt)
    (hs : s.platform.safe = false) (hm : s.mmp.pending = none) :
    exec (.recordAbort seq tgt post) s
      = .next ((s.takeRequest.abortAll tgt post).1.reply seq 0 [(s.takeRequest.abortAll tgt post).2]) := by
  have hc : ∀ act : State → State, s.command seq act = act s.takeRequest := fun act => by
    obtain ⟨x, hx⟩ := takeRequest_eq s
    simp [State.command, hx, hs, hm]
  show execRecordAbort seq tgt post s = _
  obtain ⟨h, rfl⟩ | ⟨q, i, rfl⟩ | ⟨a, rfl⟩ := ht
  · exact congrArg Host.Outcome.next (hc _)
  · exact congrArg Host.Outcome.next (hc _)
  · exact congrArg Host.Outcome.next (hc _)

theorem setQueueOf_self (s : State) (q : BitVec 3) : s.setQueueOf q (s.queueOf q) = s := by
  simp [State.setQueueOf, State.queueOf]

/-- With nothing waiting in a launch queue, nothing is withdrawn from it. -/
theorem abortQueue_empty (s : State) (tgt : AbortTarget) (q : Nat) (h : (s.queueOf (BitVec.ofNat 3 q)).waiting = []) :
    s.abortQueue tgt q = (s, 0) := by
  simp only [State.abortQueue, h, List.filter_nil, List.map_nil, List.append_nil, List.foldl_nil, List.length_nil]
  exact congrArg (·, 0) (setQueueOf_self s _)

/-- With no record in the package and none to pass the command to, there is no match. -/
theorem abortAll_no_match (s : State) (tgt : AbortTarget) (post : Bool) (hr : s.records = [])
    (hq : ∀ q : BitVec 3, (s.queueOf q).waiting = []) (hl : s.relayed = []) (ht : AbortTarget.passedTo tgt s false = []) :
    s.abortAll tgt post = (s, 2) := by
  have hfold : (List.range 8).foldl (fun (acc : State × Nat) q =>
      let (st, m) := acc.1.abortQueue tgt q
      (st, acc.2 + m)) (s, 0) = (s, 0) :=
    List.foldl_fixed' (fun q => by simp only [abortQueue_empty s tgt q (hq _), Nat.add_zero]) _
  simp [State.abortAll, hfold, State.abortRelays, hr, hl, ht]

/-- A dispatched record that an abort names has been aborted. -/
theorem abortAll_dispatched (s : State) (tgt : AbortTarget) (post : Bool)
    (h : ∃ z ∈ s.records, AbortTarget.names tgt s z = true ∧ z.phase.dispatched = true ∧ z.phase ≠ .ended) :
    (s.abortAll tgt post).2 = 1 := by
  have hits : ((s.records.filter (fun r => r.phase != .ended && AbortTarget.names tgt s r)).any
      (fun r => r.phase.dispatched)) = true := by
    obtain ⟨z, hz, hn, hd, he⟩ := h
    exact List.any_eq_true.2 ⟨z, List.mem_filter.2 ⟨hz, by simp [hn, he]⟩, hd⟩
  unfold State.abortAll
  simp only [hits, if_true]

theorem exec_recordAbort_no_match (s : State) (seq : BitVec 16) (tgt : AbortTarget) (post : Bool) (ht : AbortTarget.ofHost tgt)
    (hs : s.platform.safe = false) (hm : s.mmp.pending = none) (hr : s.records = [])
    (hq : ∀ q : BitVec 3, (s.queueOf q).waiting = []) (hl : s.relayed = []) (hp : AbortTarget.passedTo tgt s false = []) :
    exec (.recordAbort seq tgt post) s = .next (s.takeRequest.reply seq 0 [2]) := by
  obtain ⟨x, hx⟩ := takeRequest_eq s
  have hp' : AbortTarget.passedTo tgt s.takeRequest false = [] := by
    rw [hx]
    obtain ⟨h, rfl⟩ | ⟨q, i, rfl⟩ | ⟨a, rfl⟩ := ht
    · exact hp
    · exact hp
    · exact hp
  rw [exec_recordAbort_host s seq tgt post ht hs hm,
    abortAll_no_match s.takeRequest tgt post (by rw [hx]; exact hr) (by rw [hx]; exact hq) (by rw [hx]; exact hl) hp']

theorem names_takeRequest (s : State) (tgt : AbortTarget) (r : Record) :
    AbortTarget.names tgt s.takeRequest r = AbortTarget.names tgt s r := by
  obtain ⟨x, hx⟩ := takeRequest_eq s
  rw [hx]
  cases tgt <;> rfl

/-- Settles O56: the end of a record, its save and restore, and the aborts, from the lemmas on each. -/
theorem recordsEnd : Obligations.RecordsEnd := by
  intro s s1 s2 r pl why seq tgt post n0 j n away need tv host
  refine ⟨fun hr => exec_completionAdd_away s r hr n away, fun hr => exec_completionAdd_left s r hr,
    fun hr => exec_completionAdd_aborts s r hr post,
    fun hr h => ⟨fun hi hc => ?_, fun hi hc => ?_, fun hi hc => ?_, fun hi => ?_⟩,
    fun hr hp hl hm => ⟨exec_preemption_stops s r why hr hp hl hm, exec_preemption_saves s r why hr hp hl hm⟩,
    exec_preemption_not_chosen s r why, fun c => freeze_keeps c _,
    fun hr hp hi hd => ⟨fun hk => ?_, fun hk => ?_⟩, exec_restore_binds s r pl, exec_restore_waits s r pl,
    fun x t => ⟨rfl, rfl, rfl, rfl, rfl, rfl, rfl, rfl, rfl⟩, saved_cleared, saved_not_cleared,
    fun hs hm hrec hq hl hp hh => ?_, fun hs hm hh hz => ?_, fun h q => ⟨rfl, rfl, rfl, rfl⟩,
    fun y hy hmem => rid_ne_of_mem_abortRecord hy hmem⟩
  · rw [exec_completionAdd_node0 s r hr (h.imp_right And.left) hi, completeRecord_added (postCompletion_noCounter s r hc)]
  · rw [exec_completionAdd_node0 s r hr (h.imp_right And.left) hi, completeRecord_added hc]
  · rw [exec_completionAdd_node0 s r hr (h.imp_right And.left) hi, completeRecord_waits hc]
  · obtain ⟨hp, ha, hl, hb⟩ | ⟨-, h0⟩ := h
    · exact exec_completionAdd_part s r hr hp ha hl hb hi
    · exact absurd h0 hi
  · rw [exec_restore_unmapped s r pl hr need tv hp hi hd, if_pos hk]
  · rw [exec_restore_unmapped s r pl hr need tv hp hi hd, hk]
    rfl
  · obtain ⟨x, hx⟩ := takeRequest_eq s
    refine ⟨_, exec_recordAbort_no_match s seq tgt post hh hs hm hrec hq hl hp, ?_⟩
    rw [hx]
    exact ⟨rfl, hrec, rfl⟩
  · obtain ⟨x, hx⟩ := takeRequest_eq s
    have h1 : (s.takeRequest.abortAll tgt post).2 = 1 := by
      refine abortAll_dispatched s.takeRequest tgt post ?_
      obtain ⟨z, hmem, hn, hd⟩ := hz
      exact ⟨z, by rw [hx]; exact hmem, (names_takeRequest s tgt z).trans hn, hd⟩
    refine ⟨_, (s.takeRequest.abortAll tgt post).1.out, exec_recordAbort_host s seq tgt post hh hs hm, ?_⟩
    rw [h1]
    rfl

end Sys2Proof.Machine
end

section
/-! ### Branches (R92, R331, R332) -/

namespace Sys2Proof.Machine

/-- A taken BR branches at the end of its bundle (R331). -/
theorem exec_br (s : State) (disp : Lit 9) (hp : s.cur.pos = .sa) :
    exec (.br disp) s = .next (s.defer (.branch (s.me.pc + litSigned disp * 32))) :=
  exec_plain _ (brMeaning disp) s rfl rfl (slotOk_sa _ _ hp rfl) rfl rfl rfl rfl rfl rfl

/-- BRL lands its link beside the branch (R331). -/
theorem exec_brl (s : State) (d : SReg) (disp : Lit 9) (hp : s.cur.pos = .sa) :
    exec (.brl d disp) s
      = .next ((s.land (.s d (s.me.pc + 96)) 1).defer (.branch (s.me.pc + litSigned disp * 32))) :=
  exec_plain _ (brlMeaning d disp) s rfl rfl (slotOk_sa _ _ hp rfl) rfl rfl rfl rfl rfl rfl

/-- BRI to a bundle address branches there, and lands its link unless it names s0 (R332). -/
theorem exec_bri_aligned (s : State) (d a : SReg) (hp : s.cur.pos = .sa) (ha : (s.me.sreg a).toNat % 32 = 0) :
    exec (.bri d a) s
      = .next ((if d = 0 then s else s.land (.s d (s.me.pc + 96)) 1).defer (.branch (s.me.sreg a))) :=
  exec_issued _ (briMeaning d a) s rfl rfl (slotOk_sa _ _ hp rfl) rfl (headsReady_of_nil _ s rfl) rfl rfl
    (if_neg (not_not.2 ha)) (.inl rfl)

/-- BRI to an address that is no bundle address raises ALIGN (R332). -/
theorem exec_bri_misaligned (s : State) (d a : SReg) (hp : s.cur.pos = .sa) (ha : (s.me.sreg a).toNat % 32 ≠ 0) :
    exec (.bri d a) s = .next (s.raise { name := .align, tval := s.me.sreg a }) :=
  exec_trapped _ (briMeaning d a) s _ rfl rfl (slotOk_sa _ _ hp rfl) rfl (headsReady_of_nil _ s rfl) rfl rfl
    (if_pos ha)

/-- The redirect that is due at the next bundle gives its address (R92). -/
theorem nextPc_redirected (c : Context) (r : Redirect)
    (h : c.redirects.find? (fun r => r.due == c.bcnt + 1) = some r) : nextPc c = r.target := by
  simp only [nextPc, h]

/-- Settles O19: each branch by its own lemma, and the redirect by what the end of a bundle does with it. -/
theorem branchesRedirect : Obligations.BranchesRedirect := fun s d a disp hp =>
  ⟨exec_br s disp hp, exec_brl s d disp hp, exec_bri_aligned s d a hp, exec_bri_misaligned s d a hp, fun _ => rfl,
    nextPc_redirected⟩

end Sys2Proof.Machine
end

section
/-! ### Divides and loops (R91, R238, R239, R338, R350, R351, R375) -/

namespace Sys2Proof.Machine

/-! #### The dividers -/

/-- The divider of the slot is not held by another context. -/
def State.dividerFree (s : State) : Prop :=
  ¬ ((s.here.dividers[(dividerOf s.cur.pos).val]'(dividerOf s.cur.pos).isLt).2 ≠ s.me.uid
    ∧ s.gtc.toNat < (s.here.dividers[(dividerOf s.cur.pos).val]'(dividerOf s.cur.pos).isLt).1)

/-- The state after a divide of the slot that lands a value. -/
def State.divided (s : State) (d : SReg) (v : Word) : State :=
  ((s.land (.s d v) 18).modMe (fun c => { c with
      divider := c.divider.set (dividerOf s.cur.pos).val (some c.bcnt) (dividerOf s.cur.pos).isLt })).modHere
    (fun t => { t with
      dividers := t.dividers.set (dividerOf s.cur.pos).val (s.gtc.toNat + 18, s.me.uid) (dividerOf s.cur.pos).isLt })

theorem divValue_signed_quotient (x : TypeCode) (a b : Word) :
    divValue true false x a b = TypeCode.extInt x ((TypeCode.lowInt x a).tdiv (TypeCode.lowInt x b)) := rfl

theorem divValue_signed_remainder (x : TypeCode) (a b : Word) :
    divValue true true x a b = TypeCode.extInt x ((TypeCode.lowInt x a).tmod (TypeCode.lowInt x b)) := rfl

theorem extInt_natCast (x : TypeCode) (n : Nat) : TypeCode.extInt x (n : Int) = TypeCode.extNat x n := by
  simp [TypeCode.extInt, TypeCode.extNat]

theorem divValue_unsigned_quotient (x : TypeCode) (a b : Word) :
    divValue false false x a b = TypeCode.extNat x (TypeCode.low x a / TypeCode.low x b) :=
  extInt_natCast x _

theorem divValue_unsigned_remainder (x : TypeCode) (a b : Word) :
    divValue false true x a b = TypeCode.extNat x (TypeCode.low x a % TypeCode.low x b) :=
  extInt_natCast x _

/-- The bundle of a divide that still holds the divider: one of the same context, less than 18 bundles ago (R91). -/
theorem dividerSpan_eq_some_iff (c : Context) (p : Pos) (b0 : Word) :
    dividerSpan c p = some b0
      ↔ c.divider[(dividerOf p).val]'(dividerOf p).isLt = some b0 ∧ (c.bcnt - b0).toNat < 18 := by
  unfold dividerSpan
  split
  · rename_i b hb
    simp only [hb, Option.ite_none_right_eq_some, Option.some.injEq]
    constructor
    · rintro ⟨hlt, rfl⟩
      exact ⟨rfl, hlt⟩
    · rintro ⟨rfl, hlt⟩
      exact ⟨hlt, rfl⟩
  · rename_i hb
    simp [hb]

section Divider

variable (i : Instr) (s : State) (sg rm : Bool) (x : TypeCode) (d a b : SReg)
  (hi : meaningOf i = some (dividerMeaning sg rm x d a b)) (hw : i.wf = true) (ha : i.saOnly = false)
  (hv : i.vbOnly = false) (hf : s.dividerFree)

include hi hw ha hv hf

/-- A divide whose divider is free and whose divisor is not zero lands its value (R338, R375). -/
theorem exec_divider_lands (hd : dividerSpan s.me s.cur.pos = none) (hz : TypeCode.low x (s.me.sreg b) ≠ 0) :
    exec i s = .next (s.divided d (divValue sg rm x (s.me.sreg a) (s.me.sreg b))) := by
  have hc : (dividerMeaning sg rm x d a b).check s = none := by simp only [dividerMeaning, hd, if_neg hz]
  exact exec_issued i _ s hi hw (slotOk_any _ _ ha hv) rfl (headsReady_of_nil _ s rfl) (if_neg hf) rfl hc (.inl rfl)

/-- A zero divisor raises DIV_ZERO with the slot (R338, R375). -/
theorem exec_divider_zero (hd : dividerSpan s.me s.cur.pos = none) (hz : TypeCode.low x (s.me.sreg b) = 0) :
    exec i s = .next (s.raise { name := .divZero, tval := BitVec.ofNat 64 s.cur.pos.toNat }) := by
  have hc : (dividerMeaning sg rm x d a b).check s
      = some { name := .divZero, tval := BitVec.ofNat 64 s.cur.pos.toNat } := by
    simp only [dividerMeaning, hd, if_pos hz]
  exact exec_trapped i _ s _ hi hw (slotOk_any _ _ ha hv) rfl (headsReady_of_nil _ s rfl) (if_neg hf) rfl hc

/-- A divide while one of the same context holds the divider raises OCCUPANCY with the bundle of that one (R91). -/
theorem exec_divider_busy (b0 : Word) (hd : dividerSpan s.me s.cur.pos = some b0) :
    exec i s = .next (s.raise { name := .occupancy, tval := b0 }) := by
  have hc : (dividerMeaning sg rm x d a b).check s = some { name := .occupancy, tval := b0 } := by
    simp only [dividerMeaning, hd]
  exact exec_trapped i _ s _ hi hw (slotOk_any _ _ ha hv) rfl (headsReady_of_nil _ s rfl) (if_neg hf) rfl hc

end Divider

/-! #### The loops -/

/-- The counts of s_A: three of 16 bits and a depth of 3 (R238). -/
theorem loopCounts_fields (v : Word) :
    (loopCounts v).m = v.toNat % 2 ^ 16 ∧ (loopCounts v).n = v.toNat / 2 ^ 16 % 2 ^ 16
      ∧ (loopCounts v).k = v.toNat / 2 ^ 32 % 2 ^ 16 ∧ (loopCounts v).depth = v.toNat / 2 ^ 48 % 2 ^ 3 + 1 := by
  simp only [loopCounts, natBits, Nat.shiftRight_eq_div_pow, Nat.pow_zero, Nat.div_one, and_self]

/-- LOOP lands s_D − 1, and returns to its top while that is not 0 (R350). -/
theorem exec_loop (s : State) (d : SReg) (off : BitVec 9) (hp : s.cur.pos = .sa) (hd : d ≠ 0) :
    exec (.loop d off) s = .next (if s.me.sreg d - 1 = 0 then s.land (.s d (s.me.sreg d - 1)) 1
      else (s.land (.s d (s.me.sreg d - 1)) 1).defer (.loopTo (s.me.pc + off.signExtend 64 * 32))) :=
  exec_plain _ (loopMeaning d off) s rfl (bne_iff_ne.2 hd) (slotOk_sa _ _ hp rfl) rfl rfl rfl rfl rfl rfl

/-- The loop in its next pass. -/
def LoopState.nextPass (l : LoopState) : LoopState := { l with i := l.i + 1 }

/-- A count of 0, or a reserved bit (R351). -/
def LoopState.badCounts (l : LoopState) (v : Word) : Prop := l.m = 0 ∨ l.n = 0 ∨ l.k = 0 ∨ v >>> 51 ≠ 0

section Loopm

variable (s : State) (d a : SReg) (b : PReg) (hp : s.cur.pos = .sa) (hb : loopmPredOk b = true)

include hp hb

/-- The start form of LOOPM lands the registers of the first pass and pushes the loop (R351, R238). -/
theorem exec_loopmStart_pushes (hg : ¬ (loopCounts (s.me.sreg a)).badCounts (s.me.sreg a)) (hl : s.me.loops.length < 2) :
    exec (.loopmStart d b a) s
      = .next ((landStages (landPass d b (loopCounts (s.me.sreg a)) s)).defer (.loopPush (loopCounts (s.me.sreg a)))) := by
  have hc : (loopmStartMeaning d b a).check s = none := (if_neg hg).trans (if_neg (Nat.not_le.2 hl))
  exact exec_issued (.loopmStart d b a) _ s rfl hb (slotOk_sa _ _ hp rfl) rfl (headsReady_of_nil _ s rfl) rfl rfl hc
    (.inl rfl)

/-- Bad counts raise LOOP_NEST with s_A (R351). -/
theorem exec_loopmStart_badCounts (hg : (loopCounts (s.me.sreg a)).badCounts (s.me.sreg a)) :
    exec (.loopmStart d b a) s = .next (s.raise { name := .loopNest, tval := s.me.sreg a }) :=
  exec_trapped _ (loopmStartMeaning d b a) s _ rfl hb (slotOk_sa _ _ hp rfl) rfl (headsReady_of_nil _ s rfl) rfl rfl
    (if_pos hg)

/-- A third loop raises LOOP_NEST with 0 (R238). -/
theorem exec_loopmStart_third (hg : ¬ (loopCounts (s.me.sreg a)).badCounts (s.me.sreg a)) (hl : 2 ≤ s.me.loops.length) :
    exec (.loopmStart d b a) s = .next (s.raise { name := .loopNest, tval := 0 }) := by
  have hc : (loopmStartMeaning d b a).check s = some { name := .loopNest, tval := 0 } := (if_neg hg).trans (if_pos hl)
  exact exec_trapped (.loopmStart d b a) _ s _ rfl hb (slotOk_sa _ _ hp rfl) rfl (headsReady_of_nil _ s rfl) rfl rfl hc

/-- The end form of LOOPM lands the registers of the next pass, and goes to its top or drops the loop (R351, R239). -/
theorem exec_loopmEnd_passes (l0 : LoopState) (rest : List LoopState) (hl : s.me.loops = l0 :: rest) :
    exec (.loopmEnd d b) s = .next (if l0.nextPass.i < l0.nextPass.total + l0.nextPass.depth - 1
      then ((landPass d b l0.nextPass s).defer (.loopSet l0.nextPass)).defer (.loopTo l0.nextPass.top)
      else (landPass d b l0.nextPass s).defer .loopDrop) := by
  have hc : (loopmEndMeaning d b).check s = none := by simp [loopmEndMeaning, hl]
  rw [exec_issued (.loopmEnd d b) _ s rfl hb (slotOk_sa _ _ hp rfl) rfl (headsReady_of_nil _ s rfl) rfl rfl hc (.inl rfl)]
  simp only [loopmEndMeaning, hl]
  rfl

/-- An end without a loop raises LOOP_NEST with 0 (R239). -/
theorem exec_loopmEnd_alone (hl : s.me.loops = []) :
    exec (.loopmEnd d b) s = .next (s.raise { name := .loopNest, tval := 0 }) := by
  have hc : (loopmEndMeaning d b).check s = some { name := .loopNest, tval := 0 } := by simp [loopmEndMeaning, hl]
  exact exec_trapped (.loopmEnd d b) _ s _ rfl hb (slotOk_sa _ _ hp rfl) rfl (headsReady_of_nil _ s rfl) rfl rfl hc

end Loopm

/-- Each of the four divides lands its quotient or its remainder (R338, R375). -/
theorem divides_land (s : State) (x : TypeCode) (d a b : SReg) (hf : s.dividerFree) :
    let u := TypeCode.low x (s.me.sreg a)
    let v := TypeCode.low x (s.me.sreg b)
    let p := TypeCode.lowInt x (s.me.sreg a)
    let q := TypeCode.lowInt x (s.me.sreg b)
    dividerSpan s.me s.cur.pos = none → v ≠ 0 →
      (x.signedOk = true → exec (.div x d a b) s = .next (s.divided d (TypeCode.extInt x (p.tdiv q)))
        ∧ exec (.rem x d a b) s = .next (s.divided d (TypeCode.extInt x (p.tmod q))))
      ∧ (x.unsignedOk = true → exec (.divn x d a b) s = .next (s.divided d (TypeCode.extNat x (u / v)))
        ∧ exec (.remn x d a b) s = .next (s.divided d (TypeCode.extNat x (u % v)))) := by
  intro u v p q hd hz
  have lands (i : Instr) (sg rm : Bool) (hi : meaningOf i = some (dividerMeaning sg rm x d a b)) (hw : i.wf = true)
      (ha : i.saOnly = false) (hv : i.vbOnly = false) := exec_divider_lands i s sg rm x d a b hi hw ha hv hf hd hz
  refine ⟨fun hs => ⟨?_, ?_⟩, fun hu => ⟨?_, ?_⟩⟩
  · exact lands _ true false rfl hs rfl rfl
  · exact lands _ true true rfl hs rfl rfl
  · rw [lands (.divn x d a b) false false rfl hu rfl rfl, divValue_unsigned_quotient]
  · rw [lands (.remn x d a b) false true rfl hu rfl rfl, divValue_unsigned_remainder]

/-- A trap of the common meaning, whatever the sign of the operands and whatever is returned, is one of the four divides. -/
theorem divides_raise (s : State) (x : TypeCode) (d a b : SReg) (tr : Trap)
    (h : ∀ (i : Instr) (sg rm : Bool), meaningOf i = some (dividerMeaning sg rm x d a b) → i.wf = true → i.saOnly = false →
      i.vbOnly = false → exec i s = .next (s.raise tr)) :
    (x.signedOk = true → exec (.div x d a b) s = .next (s.raise tr) ∧ exec (.rem x d a b) s = .next (s.raise tr))
      ∧ (x.unsignedOk = true →
        exec (.divn x d a b) s = .next (s.raise tr) ∧ exec (.remn x d a b) s = .next (s.raise tr)) :=
  ⟨fun hs => ⟨h _ true false rfl hs rfl rfl, h _ true true rfl hs rfl rfl⟩,
    fun hu => ⟨h _ false false rfl hu rfl rfl, h _ false true rfl hu rfl rfl⟩⟩

/-- Settles O18: the divides by the lemmas on their common meaning, and each form of the loops by its own. -/
theorem dividesAndLoopsAct : Obligations.DividesAndLoopsAct := by
  refine ⟨fun s x d a b => ?_, fun s d a b off hp => ?_⟩
  · intro i free after p q u v zero busy hf
    refine ⟨divides_land s x d a b hf, fun hd hz => ?_, fun b0 hd => ?_,
      fun b0 => (dividerSpan_eq_some_iff s.me s.cur.pos b0).symm⟩
    · exact divides_raise s x d a b _ (fun i sg rm hi hw ha hv => exec_divider_zero i s sg rm x d a b hi hw ha hv hf hd hz)
    · exact divides_raise s x d a b _ (fun i sg rm hi hw ha hv => exec_divider_busy i s sg rm x d a b hi hw ha hv hf b0 hd)
  · refine ⟨loopCounts_fields _, exec_loop s d off hp, fun hb => ⟨fun hm hn hk hr hl => ?_, ?_, fun hm hn hk hr hl => ?_,
      exec_loopmEnd_passes s d b hp hb, exec_loopmEnd_alone s d b hp hb⟩⟩
    · exact exec_loopmStart_pushes s d a b hp hb (by simp [LoopState.badCounts, *]) hl
    · exact exec_loopmStart_badCounts s d a b hp hb
    · exact exec_loopmStart_third s d a b hp hb (by simp [LoopState.badCounts, *]) hl

end Sys2Proof.Machine
end

section
/-! ### The state after reset (Table 4-1, Table 13-5, Table 16-7, Table 16-9, Tables 17-2 to 17-5) -/

namespace Sys2Proof.Machine

theorem reset_tile (t : Nat) : State.reset.tile t = Tile.reset := rfl

theorem reset_slot (k : SlotNo) : Tile.reset.slot k = Slot.reset := by
  simp [Tile.slot, Tile.reset]

/-- Every context of every tile is as no binding has left it. -/
theorem reset_ctx (t : Nat) (k : SlotNo) (b : Bank) : State.reset.ctx t k b = Context.reset := by
  unfold State.ctx Tile.ctx
  rw [reset_tile, reset_slot]
  cases b <;> rfl

theorem reset_queueOf (q : BitVec 3) : State.reset.queueOf q = LaunchQueue.reset := by
  simp [State.queueOf, State.reset]

theorem reset_accAt (t i : Nat) : (State.reset.tile t).mxu.accAt i = Quire.zero := rfl

theorem reset_dieMap (d : Fin 17) : State.reset.platform.dieMap[d] = (true, BitVec.ofNat 5 d.val) := by
  simp [State.reset, Platform.reset, straightMap]

theorem reset_meters (m : Fin 5) : State.reset.platform.meters[m] = 0 := by
  simp [State.reset, Platform.reset]

/-- EBUD has a window of 3,125 and a budget of 2,800,000, and its upper bits are 0 (Table 17-3). -/
theorem reset_ebud : natBits State.reset.platform.ebud.toNat 32 16 = 3125
    ∧ natBits State.reset.platform.ebud.toNat 0 32 = 2800000 ∧ natBits State.reset.platform.ebud.toNat 48 16 = 0 := by
  decide

/-- TEMPER_STAT, TEMPER_STEP and THERM_STAT read 0 (Table 17-5). -/
theorem reset_bar0 : bar0Read State.reset.platform 0x1000 = 0 ∧ bar0Read State.reset.platform 0x1008 = 0
    ∧ bar0Read State.reset.platform 0x1050 = 0 := by
  decide

/-- Settles O9: each part of the state by what reset puts there. -/
theorem resetState : Obligations.ResetState := by
  obtain ⟨hwindow, hbudget, habove⟩ := reset_ebud
  obtain ⟨hstat, hstep, htherm⟩ := reset_bar0
  refine ⟨rfl, rfl, rfl, fun t k b => ?_, fun q => ?_, reset_accAt, rfl, rfl, rfl, rfl, rfl, rfl, rfl, reset_dieMap,
    reset_meters, hwindow, hbudget, habove, rfl, rfl, rfl, hstat, hstep, htherm, fun q => ?_⟩
  · rw [reset_ctx]
    exact ⟨rfl, rfl⟩
  · rw [reset_queueOf]
    exact ⟨rfl, rfl, rfl⟩
  · rw [reset_queueOf]
    rfl

end Sys2Proof.Machine
end

section
/-! ### Values that arrive (R96, R151, R290, R310, R327, R337) -/

namespace Sys2Proof.Machine

/-! #### The context of a number after a change -/

/-- The bank that holds a number still holds it when its context changes and keeps the number. -/
theorem bankOf_setCtx (x : Tile) (k : SlotNo) (uid : Nat) (b : Bank) (c : Context) (hb : x.bankOf k uid = some b)
    (hc : c.uid = uid) : (x.setCtx k b c).bankOf k uid = some b := by
  cases b with
  | primary => simp [Tile.bankOf, Tile.setCtx, Tile.ctx, slot_setSlot_self, Slot.setCtx, Slot.ctx, hc]
  | second =>
    have hp : (x.slot k).primary.uid ≠ uid := fun h => by simp [Tile.bankOf, Tile.ctx, Slot.ctx, h] at hb
    simp [Tile.bankOf, Tile.setCtx, Tile.ctx, slot_setSlot_self, Slot.setCtx, Slot.ctx, hc, hp]

theorem uidCtx_eq_some_iff (s : State) (t : Nat) (k : SlotNo) (uid : Nat) (c : Context) :
    s.uidCtx t k uid = some c ↔ ∃ b, (s.tile t).bankOf k uid = some b ∧ s.ctx t k b = c := by
  simp [State.uidCtx]

theorem uid_of_bankOf {x : Tile} {k : SlotNo} {uid : Nat} {b : Bank} (h : x.bankOf k uid = some b) :
    (x.ctx k b).uid = uid := by
  unfold Tile.bankOf at h
  split at h
  · next hp =>
    cases h
    exact hp
  · split at h
    · next hs =>
      cases h
      exact hs
    · cases h

/-- A change that keeps the number of a context is the context found under that number. -/
theorem uidCtx_modUid {s : State} {t : Nat} {k : SlotNo} {uid : Nat} {c : Context} (f : Context → Context)
    (h : s.uidCtx t k uid = some c) (hf : (f c).uid = c.uid) : (s.modUid t k uid f).uidCtx t k uid = some (f c) := by
  obtain ⟨b, hb, rfl⟩ := (uidCtx_eq_some_iff s t k uid c).1 h
  have hm : s.modUid t k uid f = s.modCtx t k b f := by simp only [State.modUid, hb]
  rw [hm]
  refine (uidCtx_eq_some_iff _ t k uid _).2 ⟨b, ?_, ctx_modCtx s t k b f⟩
  simp only [State.modCtx, State.setCtx, tile_setTile_self]
  exact bankOf_setCtx _ k uid b _ hb (hf.trans (uid_of_bankOf hb))

/-! #### Landings -/

section Arrival

variable {s : State} {f : Flight} (hf : s.flights.find? (fun g => g.id == f.id) = some f)
  {t : TileId} {k : SlotNo} {uid : Nat} (hi : f.issuer = .ctx t k uid) (ho : f.isOpen = false)

include hf hi ho

/-- The value of a load arrives at its landing, and the access is over (R96). -/
theorem exec_lateValueArrival_landing {z : Nat} {sg : Bool} (hs : f.sink = .landing z sg) :
    exec (.lateValueArrival f.id) s = .next (((s.noteSeen t.toNat k uid f.id none f.seen).arriveWord t.toNat k uid f.id
      (extendLoad z sg f.data) f.poison none).dropFlight f.id) := by
  show execLateValueArrival f.id s = _
  simp [execLateValueArrival, hf, hi, ho, hs, Issuer.ctx?]

/-- A load of S that has waited arrives at its landing (R96, R184). -/
theorem exec_lateValueArrival_core {d : CoreDest} (hs : f.sink = .core d) :
    exec (.lateValueArrival f.id) s
      = .next (((s.noteSeen t.toNat k uid f.id none f.seen).arriveCore t.toNat k uid f d).dropFlight f.id) := by
  show execLateValueArrival f.id s = _
  simp [execLateValueArrival, hf, hi, ho, hs, Issuer.ctx?]

/-- The data of a load complete the element that it has reserved (R327). -/
theorem exec_queueElementDelivery {q : HReg} {eb z : Nat} {sg : Bool} (hs : f.sink = .queue q eb z sg) :
    exec (.queueElementDelivery f.id) s
      = .next (((s.noteSeen t.toNat k uid f.id (some q) f.seen).arriveElem t.toNat k uid q f.id 1 (tongsKey f.at_ .ma)
          (if z = 256 then f.data else padBytes eb (bytesOfNat 8 (extendLoad z sg f.data).toNat)) f.poison).dropFlight
            f.id) := by
  show execQueueElementDelivery f.id s = _
  simp [execQueueElementDelivery, hf, hi, ho, hs, Issuer.ctx?]

end Arrival

/-- The landing that waits for a load of S takes its data. -/
theorem uidCtx_arriveCore (s : State) (f : Flight) (t : Nat) (k : SlotNo) (uid : Nat) (d : CoreDest) (c : Context)
    (l : Landing) (hc : s.uidCtx t k uid = some c) (hl : c.awaits f.id = some l) :
    (s.arriveCore t k uid f d).uidCtx t k uid = some (c.arrive f.id s.gtc.toNat (fun l =>
      { l with write := d.write l.write f.data, poison := f.poison })) := by
  refine (uidCtx_modUid _ hc ?_).trans ?_ <;> simp only [hl, Option.isSome_some, if_true, Context.arrive]

/-- The landing that waits for a word takes it, where nothing is recorded or shared. -/
theorem uidCtx_arriveWord (s : State) (t : Nat) (k : SlotNo) (uid tag : Nat) (x : Word) (p : Option Word) (c : Context)
    (l : Landing) (hc : s.uidCtx t k uid = some c) (hl : c.awaits tag = some l) (hp : c.plain = true)
    (hlog : l.logAt = none) :
    (s.arriveWord t k uid tag x p none).uidCtx t k uid = some (c.arrive tag s.gtc.toNat (fun l =>
      { l with write := l.write.withWord x, poison := p, event := none })) := by
  have hw : s.arriveWord t k uid tag x p none = s.modUid t k uid (fun c => c.arrive tag s.gtc.toNat (fun l =>
      { l with write := l.write.withWord x, poison := p, event := none })) := by
    simp [State.arriveWord, hc, hl, hlog, plain_share _ c hp]
  rw [hw]
  exact uidCtx_modUid _ hc rfl

/-! #### Replies of another package (R290) -/

/-- The package to which the record of a LAUNCH went, as the messages that left tell. -/
def State.launchedTo (s : State) (tag : Nat) : Option (BitVec 21) := s.out.findSome? (fun m => match m with
  | .record n _ o => if o.node = s.node ∧ o.tag = tag then some n else none
  | _ => none)

theorem launchedTo_eq_some {s : State} {tag : Nat} {n : BitVec 21} (h : s.launchedTo tag = some n) :
    ∃ ws og, OutMsg.record n ws og ∈ s.out ∧ og.node = s.node ∧ og.tag = tag := by
  obtain ⟨m, hm, hx⟩ := List.exists_of_findSome?_eq_some h
  split at hx
  · next a ws og =>
    obtain ⟨ho, hn⟩ := Option.ite_none_right_eq_some.1 hx
    cases hn
    exact ⟨ws, og, hm, ho⟩
  · cases hx

theorem launchedTo_ne_none {s : State} {tag : Nat} {n : BitVec 21} {ws : List Word} {og : Origin}
    (hm : OutMsg.record n ws og ∈ s.out) (hn : og.node = s.node) (ht : og.tag = tag) : s.launchedTo tag ≠ none := by
  intro h
  have := List.findSome?_eq_none_iff.1 h _ hm
  simp [hn, ht] at this

theorem and_low32 (x : Word) : x &&& 0xFFFFFFFF = (x.setWidth 32 : BitVec 32).setWidth 64 := by
  refine BitVec.eq_of_toNat_eq ?_
  calc (x &&& 0xFFFFFFFF).toNat = x.toNat % 2 ^ 32 := Nat.and_two_pow_sub_one_eq_mod x.toNat 32
    _ = ((x.setWidth 32 : BitVec 32).setWidth 64).toNat := by
      simp only [BitVec.toNat_setWidth]
      omega

section Reply

variable {s : State} {tag : Nat} (t : Nat) (k : SlotNo) (uid : Nat) (addr : Word)

/-- The reply to a CANCEL is one of its three codes. -/
theorem replyElsewhere_cancel (h : s.launchedTo tag = none) :
    s.replyElsewhere t k uid tag addr = ({ s with drawn := s.drawn + 1 } : State).arriveWord t k uid tag
      (BitVec.ofNat 64 ((Config.freeWord s.drawn).toNat % 3)) none none := by
  simp only [State.replyElsewhere, State.freeWord]
  split
  · rfl
  · next n hn => exact absurd (h.symm.trans hn) (by simp)

/-- The reply to a LAUNCH is a handle of the package that has the record, or 0 with LAUNCH_FORMAT. -/
theorem replyElsewhere_launch {n : BitVec 21} (h : s.launchedTo tag = some n) :
    (∃ x : BitVec 32, x ≠ 0 ∧ s.replyElsewhere t k uid tag addr
      = ({ s with drawn := s.drawn + 1 } : State).arriveWord t k uid tag (n.setWidth 64 <<< 32 ||| x.setWidth 64) none none)
    ∨ (∃ u tr, s.replyElsewhere t k uid tag addr = State.arriveWord u t k uid tag 0 none (some tr)
      ∧ tr.name = .launchFormat ∧ u.tiles = s.tiles) := by
  simp only [State.replyElsewhere]
  split
  · next hn => exact absurd (h.symm.trans hn) (by simp)
  · next a ha =>
    obtain rfl : n = a := Option.some.inj (h.symm.trans ha)
    by_cases hz : s.freeWord.1.setWidth 32 = (0 : BitVec 32)
    · rw [if_pos hz]
      exact .inr ⟨_, _, rfl, rfl, rfl⟩
    · rw [if_neg hz, and_low32]
      exact .inl ⟨_, hz, rfl⟩

end Reply

/-- The reply of another package's scheduler arrives at the context that waits for it. -/
theorem exec_lateValueArrival_elsewhere (s : State) (tag r : Nat) (k : SlotNo) (c : Context)
    (hf : s.flights.find? (fun g => g.id == tag) = none) (hw : s.awaiting tag = some (r, k, c))
    (ha : s.askedElsewhere tag = true) :
    ∃ addr, exec (.lateValueArrival tag) s = .next (s.replyElsewhere r k c.uid tag addr) := by
  show ∃ addr, execLateValueArrival tag s = _
  simp only [execLateValueArrival, hf, hw, ha, if_true]
  exact ⟨_, rfl⟩

/-! #### Multicast stores and watched counters -/

/-- A multicast store that is due, and has no other before it, lands at every tile of its window (R151). -/
theorem exec_multicastLanding (s : State) (m : Mcast) (hm : s.mcasts.find? (fun n => n.id == m.id) = some m)
    (hd : m.land ≤ s.gtc.toNat) (hb : ∀ n ∈ s.mcasts, n.before m = false) :
    exec (.multicastLanding m.id) s
      = .next (((rectTiles m.x0 m.y0 m.x1 m.y1).foldl (fun (st : State) t => st.landAt m t)
          { s with mcasts := s.mcasts.filter (fun n => n.id != m.id) }).mcastLost m (rectTiles m.x0 m.y0 m.x1 m.y1)) := by
  have hany : s.mcasts.any (fun n => n.before m) = false := by simpa using hb
  show execMulticastLanding m.id s = _
  simp [execMulticastLanding, hm, Nat.not_lt.2 hd, hany]

/-- A home answers with the value that it reads, once that has reached the threshold and the context's access follows
nothing that is still open (R337). -/
theorem watchAnswer_eq (s : State) (w : Watch) (c : Context) (ext : Word) :
    watchAnswer s w c ext
      = if w.thr ≤ BitVec.ofNat 64 (natOfBytes (placeRead s (w.homeNow s) 8 (ext.setWidth 640)))
          ∧ s.afterOf c w.tile.toNat [w.unit s] false .relaxed = []
        then some (BitVec.ofNat 64 (natOfBytes (placeRead s (w.homeNow s) 8 (ext.setWidth 640)))) else none := by
  simp [watchAnswer, BitVec.ule_iff_le]

section Watched

variable {s : State} {w : Watch} {b : Bank} (hw : s.watches.find? (fun x => x.id == w.id) = some w)
  (hb : (s.tile w.tile.toNat).bankOf w.slot w.uid = some b)
  (hc : (s.ctx w.tile.toNat w.slot b).status = .blocked (.watch w.place w.thr)) (ext : Word)

include hw hb hc

/-- The answer makes the context Ready with the value observed. -/
theorem exec_counterWatchAnswer_reached (ht : watchTrap s w = none) (v : Word)
    (hv : watchAnswer s w (s.ctx w.tile.toNat w.slot b) ext = some v) :
    exec (.counterWatchAnswer w.id ext) s = .next { s.setCtx w.tile.toNat w.slot b
        { s.ctx w.tile.toNat w.slot b with
          status := unblocked b, observed := some v, cleared := some (.watch w.place w.thr) } with
      watches := s.watches.filter (fun x => x.id != w.id) } := by
  show execCounterWatchAnswer w.id ext s = _
  simp only [execCounterWatchAnswer, hw, hb, hc, ht, hv, if_true]

theorem exec_counterWatchAnswer_waits (ht : watchTrap s w = none)
    (hv : watchAnswer s w (s.ctx w.tile.toNat w.slot b) ext = none) : exec (.counterWatchAnswer w.id ext) s = .next s := by
  show execCounterWatchAnswer w.id ext s = _
  simp only [execCounterWatchAnswer, hw, hb, hc, ht, hv, if_true]

/-- A counter that cannot be read raises MEM_DATA in the context that waits for it (R307, R310). -/
theorem exec_counterWatchAnswer_unreadable (tr : Trap) (ht : watchTrap s w = some tr) :
    exec (.counterWatchAnswer w.id ext) s
      = .next (({ s.setCtx w.tile.toNat w.slot b { s.ctx w.tile.toNat w.slot b with status := unblocked b } with
          watches := s.watches.filter (fun x => x.id != w.id) } : State).engineTrap w.tile.toNat w.slot w.uid
            (s.ctx w.tile.toNat w.slot b).asid tr) := by
  show execCounterWatchAnswer w.id ext s = _
  simp only [execCounterWatchAnswer, hw, hb, hc, ht, if_true]

end Watched

/-- Settles O49: the arrivals of loads, of replies, of queue elements and of multicast stores, and the answers of watched
counters, by the lemmas on each. -/
theorem valuesArrive : Obligations.ValuesArrive := by
  intro s f m w t k uid z eb sg q ext b tag r c n d drawn
  refine ⟨fun hf hi ho hs => exec_lateValueArrival_landing hf hi ho hs,
    fun hf hi ho hs => exec_lateValueArrival_core hf hi ho hs,
    fun l hc hl => uidCtx_arriveCore s f t.toNat k uid d c l hc hl, fun hf hw ha => ?_, fun hf hi ho => ⟨?_, ?_⟩,
    fun x l hc hl hp hlog => ⟨_, rfl, uidCtx_arriveWord s t.toNat k uid tag x f.poison c l hc hl hp hlog⟩,
    exec_multicastLanding s m, fun hw hb => ?_⟩
  · obtain ⟨addr, he⟩ := exec_lateValueArrival_elsewhere s tag r k c hf hw ha
    rw [he]
    refine ⟨fun hno => ?_, fun ws og hm hnode htag hall => ?_⟩
    · have hnone : s.launchedTo tag = none := by
        rw [Option.eq_none_iff_forall_ne_some]
        intro a ha
        obtain ⟨ws, og, hm, hnode, htag⟩ := launchedTo_eq_some ha
        exact hno a ws og hm hnode htag
      exact ⟨_, Nat.mod_lt _ (by decide), congrArg _ (replyElsewhere_cancel r k c.uid addr hnone)⟩
    · obtain ⟨a, ha⟩ := Option.ne_none_iff_exists'.1 (launchedTo_ne_none hm hnode htag)
      obtain ⟨ws', og', hm', hnode', htag'⟩ := launchedTo_eq_some ha
      obtain rfl := hall a ws' og' hm' hnode' htag'
      obtain ⟨x, hx, h⟩ | ⟨u, tr, h, htr⟩ := replyElsewhere_launch r k c.uid addr ha
      · exact .inl ⟨x, hx, congrArg _ h⟩
      · exact .inr ⟨u, tr, congrArg _ h, htr⟩
  · intro hs hz
    have h := exec_queueElementDelivery hf hi ho hs
    rwa [if_neg hz] at h
  · intro hs
    have h := exec_queueElementDelivery hf hi ho hs
    rwa [if_pos rfl] at h
  · intro cw v gone first hc
    refine ⟨fun ht => ⟨fun hv hfirst => ?_, fun hv => ?_⟩, exec_counterWatchAnswer_unreadable hw hb hc ext⟩
    · exact exec_counterWatchAnswer_reached hw hb hc ext ht v ((watchAnswer_eq s w cw ext).trans (if_pos ⟨hv, hfirst⟩))
    · refine exec_counterWatchAnswer_waits hw hb hc ext ht ((watchAnswer_eq s w cw ext).trans (if_neg ?_))
      rintro ⟨hreached, hfirst⟩
      exact hv.elim (fun h => BitVec.not_lt.2 hreached h) (fun h => h hfirst)

end Sys2Proof.Machine
end

section
/-! ### Lane arithmetic, conversions and functions (R112, R394, R400 to R402) -/

namespace Sys2Proof.Machine

/-- A lane operation on two sources in its integer formats: the format's width, L = 1, and no flag. -/
theorem exec_intLanes (i : Instr) (s : State) (f : Fmt) (d a b : VReg) (m : MReg) (op : Int → Int → Int)
    (g : Nat → Nat → Rounded)
    (h : meaningOf i = some (lanes2 f.width d a b m (fmtLatency f 1 4)
      (fun x y => if f.isInt then wrapLane f (op x y) else g x y)))
    (hw : i.wf = true) (hs : slotOk i s.cur.pos = true) (hf : f.isInt = true) :
    s.landsLanes (exec i s) f.width d m 1 (fun l => wrapLane f
      (op (laneNat f.width (s.me.vreg a) l) (laneNat f.width (s.me.vreg b) l))) := by
  simp only [fmtLatency, hf, if_true] at h
  exact exec_lanes2 i s f.width d a b m 1 _ h hw hs

/-- The same operation in its Float formats: the exact result rounded once, at L = 4. -/
theorem exec_floatLanes (i : Instr) (s : State) (f : Fmt) (d a b : VReg) (m : MReg) (op : Int → Int → Int)
    (g : Nat → Nat → Rounded)
    (h : meaningOf i = some (lanes2 f.width d a b m (fmtLatency f 1 4)
      (fun x y => if f.isInt then wrapLane f (op x y) else g x y)))
    (hw : i.wf = true) (hs : slotOk i s.cur.pos = true) (hf : f.isInt = false) :
    s.landsLanes (exec i s) f.width d m 4
      (fun l => g (laneNat f.width (s.me.vreg a) l) (laneNat f.width (s.me.vreg b) l)) := by
  simp only [fmtLatency, hf, Bool.false_eq_true, if_false] at h
  exact exec_lanes2 i s f.width d a b m 4 _ h hw hs

theorem isInt_eq_false_of_isFloat (f : Fmt) (h : f.isFloat = true) : f.isInt = false := by
  cases f with
  | int => cases h
  | tap | f32 | bf16 | e4m3 | e5m2 => rfl

/-- VFMA and VFMS read the lanes of v_A, v_B and v_D (R394). -/
theorem exec_fusedLanes (i : Instr) (s : State) (sub : Bool) (f : Fmt) (d a b : VReg) (m : MReg)
    (h : meaningOf i = some (fusedMeaning sub f d a b m)) (hw : i.wf = true) (hs : slotOk i s.cur.pos = true) :
    s.landsLanes (exec i s) f.width d m 4 (fun l => laneFma f sub (laneNat f.width (s.me.vreg a) l)
      (laneNat f.width (s.me.vreg b) l) (laneNat f.width (s.me.vreg d) l)) := by
  refine exec_lanes i s f.width d m 4 _ _ h hw hs (by simp [vecLanes_length]) (fun l hl => ?_)
  have hab : ((vecLanes f.width (s.me.vreg a)).zip (vecLanes f.width (s.me.vreg b)))[l]?
      = some (laneNat f.width (s.me.vreg a) l, laneNat f.width (s.me.vreg b) l) :=
    List.getElem?_zip_eq_some.2 ⟨vecLanes_get _ _ _ hl, vecLanes_get _ _ _ hl⟩
  rw [List.getElem?_zipWith, hab, vecLanes_get _ _ _ hl]

/-- Settles O28: integer and Float formats by the two lemmas on operations of two sources, the fused ones by theirs. -/
theorem laneArithmeticLands : Obligations.LaneArithmeticLands := by
  intro s f d a b m hl
  refine ⟨fun hf => ⟨?_, ?_, ?_⟩, fun hf => ⟨?_, ?_, ?_, ?_, ?_⟩⟩
  · exact exec_intLanes (.vadd f d a b m) s f d a b m (· + ·) (laneAdd f) rfl hl (slotOk_any _ _ rfl rfl) hf
  · exact exec_intLanes (.vsub f d a b m) s f d a b m (· - ·) (laneSub f) rfl hl (slotOk_any _ _ rfl rfl) hf
  · exact exec_intLanes (.vmul f d a b m) s f d a b m (· * ·) (laneMul f) rfl hl (slotOk_any _ _ rfl rfl) hf
  all_goals have hn := isInt_eq_false_of_isFloat f hf
  · exact exec_floatLanes (.vadd f d a b m) s f d a b m (· + ·) (laneAdd f) rfl hl (slotOk_any _ _ rfl rfl) hn
  · exact exec_floatLanes (.vsub f d a b m) s f d a b m (· - ·) (laneSub f) rfl hl (slotOk_any _ _ rfl rfl) hn
  · exact exec_floatLanes (.vmul f d a b m) s f d a b m (· * ·) (laneMul f) rfl hl (slotOk_any _ _ rfl rfl) hn
  · exact exec_fusedLanes (.vfma f d a b m) s false f d a b m rfl hf (slotOk_any _ _ rfl rfl)
  · exact exec_fusedLanes (.vfms f d a b m) s true f d a b m rfl hf (slotOk_any _ _ rfl rfl)

theorem convLanes_length (dst : Fmt) (n : Nat) (xs : List Rounded) (hn : n ≤ dst.width.lanes) (hx : n ≤ xs.length) :
    (convLanes dst n xs).length = dst.width.lanes := by
  simp [convLanes]
  omega

/-- Below n a conversion has its results, and zeros from n on (R400). -/
theorem convLanes_get (dst : Fmt) (n : Nat) (xs : List Rounded) (l : Nat) (r : Rounded) (hx : n ≤ xs.length)
    (hl : l < dst.width.lanes) (hr : l < n → xs[l]? = some r) :
    (convLanes dst n xs)[l]? = some (if l < n then r else (0, 0)) := by
  unfold convLanes
  by_cases h : l < n
  · rw [List.getElem?_append_left (by simp; omega), List.getElem?_take_of_lt h, hr h, if_pos h]
  · rw [List.getElem?_append_right (by simp; omega), if_neg h, List.getElem?_replicate, if_pos (by simp; omega)]

/-- A conversion whose first n results are given lane by lane. -/
theorem exec_convLanes (i : Instr) (s : State) (dst : Fmt) (d : VReg) (m : MReg) (n : Nat) (g : Context → List Rounded)
    (r : Nat → Rounded) (h : meaningOf i = some (laneMeaning dst.width d m 3 (fun c => convLanes dst n (g c))))
    (hw : i.wf = true) (hs : slotOk i s.cur.pos = true) (hn : n ≤ dst.width.lanes) (hx : n ≤ (g s.me).length)
    (hr : ∀ l, l < n → (g s.me)[l]? = some (r l)) :
    s.landsLanes (exec i s) dst.width d m 3 (fun l => if l < n then r l else (0, 0)) :=
  exec_lanes i s dst.width d m 3 _ _ h hw hs (convLanes_length dst n _ hn hx)
    (fun l hl => convLanes_get dst n _ l (r l) hx hl (hr l))

/-- 2,048 over the wider lane width is at most the lanes of either format. -/
theorem convCount_le (v w : LaneW) :
    2048 / Nat.max v.bits w.bits ≤ v.lanes ∧ 2048 / Nat.max v.bits w.bits ≤ w.lanes := by
  cases v <;> cases w <;> decide

theorem lanes_ge (w : LaneW) : 64 ≤ w.lanes := by
  cases w <;> decide

/-- VCVT (R400). -/
theorem exec_vcvt (s : State) (sat : Bool) (dst src : Fmt) (d a : VReg) (m : MReg) (hd : dst.legal = true)
    (hs : src.legal = true) :
    s.landsLanes (exec (.vcvt sat dst src d a m) s) dst.width d m 3
      (fun l => if l < 2048 / Nat.max src.width.bits dst.width.bits then
        convertLane (laneNat src.width (s.me.vreg a) l) src dst sat .nearest else (0, 0)) := by
  obtain ⟨hsrc, hdst⟩ := convCount_le src.width dst.width
  refine exec_convLanes (.vcvt sat dst src d a m) s dst d m _ _ _ rfl (Bool.and_eq_true_iff.2 ⟨hd, hs⟩)
    (slotOk_any _ _ rfl rfl) hdst (by simpa [vecLanes_length] using hsrc) (fun l hl => ?_)
  rw [List.getElem?_map, vecLanes_get _ _ _ (hl.trans_le hsrc)]
  rfl

/-- VCVTS: a random word for each of the 64 lanes (R401). -/
theorem exec_vcvts (s : State) (sat : Bool) (dst : Fmt) (d a b : VReg) (m : MReg) (hd : dst.isNarrow = true) :
    s.landsLanes (exec (.vcvts sat dst d a b m) s) dst.width d m 3
      (fun l => if l < 64 then convert (laneNat .w32 (s.me.vreg a) l) .f32 dst sat
        (.stochastic (BitVec.ofNat 32 (laneNat .w32 (s.me.vreg b) l))) else (0, 0)) := by
  refine exec_convLanes (.vcvts sat dst d a b m) s dst d m 64 _ _ rfl hd (slotOk_any _ _ rfl rfl) (lanes_ge _)
    (by simp [vecLanes_length, LaneW.lanes]) (fun l hl => ?_)
  rw [List.getElem?_zipWith, vecLanes_get _ _ _ hl, vecLanes_get _ _ _ hl]

/-- A function of R122 in VB (R402). -/
theorem exec_fnLanes (i : Instr) (s : State) (fn : Fn) (f : Fmt) (d a : VReg) (m : MReg)
    (h : meaningOf i = some (fnMeaning fn f d a m)) (hw : i.wf = true) (ha : i.saOnly = false) (hp : s.cur.pos = .vb) :
    s.landsLanes (exec i s) f.width d m 10 (fun l => laneFn fn f (laneNat f.width (s.me.vreg a) l)) :=
  exec_lanes1 i s f.width d a m 10 _ h hw (slotOk_vb _ _ hp ha)

/-- Settles O30: the two conversions by their lemmas, and the seven functions by the one on functions. -/
theorem conversionsAndFunctionsLand : Obligations.ConversionsAndFunctionsLand := by
  intro s sat dst src d a b m
  refine ⟨exec_vcvt s sat dst src d a m, exec_vcvts s sat dst d a b m, fun hp hf => ⟨?_, ?_, ?_, ?_, ?_, ?_, ?_⟩⟩
  · exact exec_fnLanes (.vrcp dst d a m) s .rcp dst d a m rfl hf rfl hp
  · exact exec_fnLanes (.vrsq dst d a m) s .rsq dst d a m rfl hf rfl hp
  · exact exec_fnLanes (.vsqrt dst d a m) s .sqrt dst d a m rfl hf rfl hp
  · exact exec_fnLanes (.vexp2 dst d a m) s .exp2 dst d a m rfl hf rfl hp
  · exact exec_fnLanes (.vlog2 dst d a m) s .log2 dst d a m rfl hf rfl hp
  · exact exec_fnLanes (.vtanh dst d a m) s .tanh dst d a m rfl hf rfl hp
  · exact exec_fnLanes (.vsigm dst d a m) s .sigm dst d a m rfl hf rfl hp

end Sys2Proof.Machine
end

section
/-! ### The value of a cut (R115, R116)

A magnitude is followed as a real number: `Exact.Holds` says which one an exact value with a rest stands for,
`CutResult.At` at which place between two strings a cut puts it. -/

namespace Sys2Proof.Machine

/-- The real number m·2^e. -/
noncomputable def Dyadic.real (d : Dyadic) : ℝ := d.m * 2 ^ d.e

/-- A rest θ of [0, 1), which is 0 exactly where nothing is sticky. -/
structure Rest (sticky : Bool) (θ : ℝ) : Prop where
  nonneg : 0 ≤ θ
  lt_one : θ < 1
  eq_zero : sticky = false → θ = 0
  pos : sticky = true → 0 < θ

theorem rest_exact : Rest false 0 := ⟨le_rfl, one_pos, fun _ => rfl, fun h => absurd h (by simp)⟩

/-- The exact value stands for the real number X. -/
def Exact.Holds (x : Exact) (X : ℝ) : Prop := ∃ θ, Rest x.sticky θ ∧ X = (x.mag + θ) * 2 ^ x.e

/-- The cut stands at the place P: from the string u by the tail r/2^k and a rest below it. -/
def CutResult.At (c : CutResult) (P : ℝ) : Prop :=
  c.r < 2 ^ c.k ∧ ∃ θ, Rest c.sticky θ ∧ (c.sticky = true → 0 < c.k) ∧ P = c.u + (c.r + θ) / 2 ^ c.k

/-- Moving the string and the place together. -/
theorem CutResult.At.shift {c : CutResult} {P : ℝ} (h : c.At P) (n : Nat) :
    ({ c with u := n + c.u } : CutResult).At (n + P) := by
  obtain ⟨hr, θ, hθ, hk, rfl⟩ := h
  exact ⟨hr, θ, hθ, hk, by push_cast; ring⟩

/-- Dropping the low k bits of x leaves them as the tail. -/
theorem shiftRight_add_tail (x k : Nat) : (x : ℝ) = (x >>> k : Nat) * 2 ^ k + (x % 2 ^ k : Nat) := by
  rw [Nat.shiftRight_eq_div_pow]
  exact_mod_cast (Nat.div_add_mod' x (2 ^ k)).symm

/-- The cut of x·2^s stands at (x + θ)·2^s; with a rest, bits have to be dropped. -/
theorem cutShift_at (x : Nat) (s : Int) (sticky : Bool) (θ : ℝ) (hθ : Rest sticky θ) (hs : sticky = true → s < 0) :
    (cutShift x s sticky).At ((x + θ) * 2 ^ s) := by
  unfold cutShift
  split
  case isTrue h =>
    have hst : sticky = false := by
      cases sticky
      · rfl
      · exact absurd (hs rfl) (not_lt.2 h)
    refine ⟨by simp, θ, hθ, fun h' => absurd h' (by simp [hst]), ?_⟩
    rw [hθ.eq_zero hst]
    lift s to ℕ using h
    simp [Nat.shiftLeft_eq]
  case isFalse h =>
    obtain ⟨k, rfl⟩ : ∃ k : Nat, s = -(k : Int) := ⟨(-s).toNat, by omega⟩
    simp only [neg_neg, Int.toNat_natCast]
    refine ⟨Nat.mod_lt _ (by positivity), θ, hθ, fun _ => by simp only; omega, ?_⟩
    conv_lhs => rw [shiftRight_add_tail x k]
    simp only [zpow_neg, zpow_natCast]
    field_simp
    ring

theorem cutShift_flags (x : Nat) (s : Int) (sticky : Bool) : (cutShift x s sticky).flags = 0 := by
  unfold cutShift
  split <;> rfl

theorem CutResult.inexact_iff (c : CutResult) : c.inexact = true ↔ c.r ≠ 0 ∨ c.sticky = true := by
  simp [CutResult.inexact]

/-- A cut without a tail stands at its string. -/
theorem CutResult.At.eq_of_exact {c : CutResult} {P : ℝ} (h : c.At P) (hc : c.inexact = false) : P = c.u := by
  obtain ⟨-, θ, hθ, -, rfl⟩ := h
  simp only [CutResult.inexact, Bool.or_eq_false_iff, bne_eq_false_iff_eq] at hc
  simp [hc.1, hθ.eq_zero hc.2]

/-- A cut with a tail stands strictly between its string and the next. -/
theorem CutResult.At.between_of_inexact {c : CutResult} {P : ℝ} (h : c.At P) (hc : c.inexact = true) :
    (c.u : ℝ) < P ∧ P < c.u + 1 := by
  obtain ⟨hr, θ, hθ, -, rfl⟩ := h
  have hp : (0 : ℝ) < 2 ^ c.k := by positivity
  have hr' : (c.r : ℝ) + 1 ≤ 2 ^ c.k := by exact_mod_cast hr
  have htail : 0 < (c.r : ℝ) + θ := by
    rcases (c.inexact_iff).1 hc with h0 | h0
    · have : (0 : ℝ) < c.r := by exact_mod_cast Nat.pos_of_ne_zero h0
      linarith [hθ.nonneg]
    · have : (0 : ℝ) ≤ c.r := Nat.cast_nonneg _
      linarith [hθ.pos h0]
  constructor
  · linarith [div_pos htail hp]
  · have : ((c.r : ℝ) + θ) / 2 ^ c.k < 1 := by
      rw [div_lt_one hp]
      linarith [hθ.lt_one]
    linarith

/-- Whether a mode raises the string of a cut with a tail (R115). -/
def CutResult.up (c : CutResult) : RMode → Bool
  | .nearest => decide (2 ^ c.k < 2 * c.r) || (decide (2 * c.r = 2 ^ c.k) && (c.sticky || c.u.testBit 0) && c.k != 0)
  | .stochastic rnd => decide (2 ^ 32 ≤ (c.r <<< 32) >>> c.k + rnd.toNat)

theorem CutResult.round_of_exact (c : CutResult) (mode : RMode) (h : c.inexact = false) :
    c.round mode = (c.u, c.flags) := by
  simp [CutResult.round, h]

theorem CutResult.round_of_inexact (c : CutResult) (mode : RMode) (h : c.inexact = true) :
    c.round mode = (if c.up mode then c.u + 1 else c.u, c.flags ||| flInx) := by
  cases mode <;> simp [CutResult.round, h, CutResult.up]

/-- Mode nearest raises the string above the middle and, of an odd string, at the middle. -/
theorem CutResult.At.up_nearest {c : CutResult} {P : ℝ} (h : c.At P) :
    (c.up .nearest = true → 2 * (c.u : ℝ) + 1 ≤ 2 * P ∧ (2 * P = 2 * c.u + 1 → c.u % 2 = 1))
    ∧ (c.up .nearest = false → c.inexact = true → 2 * P ≤ 2 * (c.u : ℝ) + 1 ∧ (2 * P = 2 * c.u + 1 → c.u % 2 = 0)) := by
  obtain ⟨hr, θ, hθ, hk, rfl⟩ := h
  have hp : (0 : ℝ) < 2 ^ c.k := by positivity
  have hle : ∀ a b : ℝ, 2 * (a + b / 2 ^ c.k) ≤ 2 * a + 1 ↔ 2 * b ≤ 2 ^ c.k := fun a b => by
    rw [mul_add, add_le_add_iff_left, ← mul_div_assoc, div_le_one hp]
  have hge : ∀ a b : ℝ, 2 * a + 1 ≤ 2 * (a + b / 2 ^ c.k) ↔ 2 ^ c.k ≤ 2 * b := fun a b => by
    rw [mul_add, add_le_add_iff_left, ← mul_div_assoc, one_le_div hp]
  have heq : ∀ a b : ℝ, 2 * (a + b / 2 ^ c.k) = 2 * a + 1 ↔ 2 * b = 2 ^ c.k := fun a b => by
    rw [mul_add, add_right_inj, ← mul_div_assoc, div_eq_one_iff_eq hp.ne']
  have h0 := hθ.nonneg
  have h1 := hθ.lt_one
  have hodd : c.u.testBit 0 = decide (c.u % 2 = 1) := by simp [Nat.testBit_zero]
  simp only [CutResult.up, hodd, Bool.or_eq_true, Bool.and_eq_true, decide_eq_true_eq, bne_iff_ne, hle, hge, heq,
    Bool.or_eq_false_iff, Bool.and_eq_false_iff, decide_eq_false_iff_not, not_lt]
  constructor
  · rintro (hgt | ⟨⟨htie, hst⟩, -⟩)
    · have hgt' : (2 : ℝ) ^ c.k < 2 * c.r := by exact_mod_cast hgt
      exact ⟨by linarith, fun he => by linarith⟩
    · have htie' : 2 * (c.r : ℝ) = 2 ^ c.k := by exact_mod_cast htie
      refine ⟨by linarith, fun he => hst.resolve_left (fun hs => ?_)⟩
      linarith [hθ.pos hs]
  · rintro ⟨hlt, htie⟩ hin
    rcases hlt.lt_or_eq with hlt | he
    · have hlt' : 2 * (c.r : ℝ) + 1 ≤ 2 ^ c.k := by exact_mod_cast hlt
      have hk0 : c.k ≠ 0 := by
        intro hk0
        have hr0 : c.r = 0 := by rw [hk0] at hlt; omega
        rcases (c.inexact_iff).1 hin with h | h
        · exact h hr0
        · exact absurd (hk h) (by omega)
      have heven : 2 * c.r + 2 ≤ 2 ^ c.k := by
        obtain ⟨j, hj⟩ := Nat.exists_eq_succ_of_ne_zero hk0
        rw [hj, Nat.pow_succ] at hlt ⊢
        omega
      have heven' : 2 * (c.r : ℝ) + 2 ≤ 2 ^ c.k := by exact_mod_cast heven
      exact ⟨by linarith, fun he => by linarith⟩
    · have hk0 : c.k ≠ 0 := by
        intro hk0
        rw [hk0] at he
        omega
      have hboth := (htie.resolve_right (by simp [hk0])).resolve_left (by simp [he])
      have hst : c.sticky = false := hboth.1
      have he' : 2 * (c.r : ℝ) = 2 ^ c.k := by exact_mod_cast he
      rw [hθ.eq_zero hst]
      exact ⟨by linarith, fun _ => by have := hboth.2; omega⟩

/-- The random word 0 never raises the string (R116). -/
theorem CutResult.At.up_zero {c : CutResult} {P : ℝ} (h : c.At P) : c.up (.stochastic 0) = false := by
  have hr : c.r < 2 ^ c.k := h.1
  have : (c.r <<< 32) >>> c.k < 2 ^ 32 := by
    rw [Nat.shiftLeft_eq, Nat.shiftRight_eq_div_pow, Nat.div_lt_iff_lt_mul (by positivity), Nat.mul_comm]
    exact Nat.mul_lt_mul_of_pos_left hr (by positivity)
  simp [CutResult.up]
  omega

end Sys2Proof.Machine
end

section
/-! ### The values of the IEEE-style magnitude strings (R110) -/

namespace Sys2Proof.Machine

/-- −1 or 1: the sign of a string. -/
noncomputable def sgn (neg : Bool) : ℝ := if neg then -1 else 1

/-- The value of the magnitude string u: in the binade of its exponent field, the subnormals in that of field 1. The
string of infinity has here the value that follows the largest finite one. -/
noncomputable def ieeeValue (p : Ieee) (u : Nat) : ℝ :=
  ((u : ℝ) - ((max (u / 2 ^ p.m) 1 : Nat) - 1) * 2 ^ p.m) * 2 ^ ((max (u / 2 ^ p.m) 1 : Nat) - (p.b : Int) - p.m)

/-- The strings of one binade, its end included, are evenly spaced. -/
theorem ieeeValue_cell (p : Ieee) (j q : Nat) (hq : q ≤ 2 ^ (p.m + 1)) (h : j = 0 ∨ 2 ^ p.m ≤ q) :
    ieeeValue p (j * 2 ^ p.m + q) = q * 2 ^ ((j : Int) + 1 - p.b - p.m) := by
  have hpos : 0 < 2 ^ p.m := by positivity
  have hdiv : (j * 2 ^ p.m + q) / 2 ^ p.m = j + q / 2 ^ p.m := by
    rw [Nat.add_comm, Nat.add_mul_div_right _ _ hpos, Nat.add_comm]
  unfold ieeeValue
  rw [hdiv]
  rw [Nat.pow_succ] at hq
  rcases lt_or_ge q (2 ^ p.m) with hlt | hge
  · obtain rfl : j = 0 := h.resolve_right (not_le.2 hlt)
    simp [Nat.div_eq_of_lt hlt]
  · rcases hq.lt_or_eq with hlt | rfl
    · have h1 : q / 2 ^ p.m = 1 := Nat.div_eq_of_lt_le (by omega) (by omega)
      rw [h1, max_eq_left (by omega)]
      push_cast
      congr 1
      ring
    · have h2 : 2 ^ p.m * 2 / 2 ^ p.m = 2 := Nat.mul_div_cancel_left _ hpos
      rw [h2, max_eq_left (by omega)]
      push_cast
      rw [show ((j : Int) + 2 - p.b - p.m) = ((j : Int) + 1 - p.b - p.m) + 1 by ring, zpow_add_one₀ two_ne_zero]
      ring

/-- Every string stands in a binade. -/
theorem exists_cell (p : Ieee) (u : Nat) :
    ∃ j q, u = j * 2 ^ p.m + q ∧ q < 2 ^ (p.m + 1) ∧ (j = 0 ∨ 2 ^ p.m ≤ q) := by
  have hpos : 0 < 2 ^ p.m := by positivity
  have hu := Nat.div_add_mod' u (2 ^ p.m)
  have hlt := Nat.mod_lt u hpos
  rw [Nat.pow_succ]
  rcases Nat.eq_zero_or_pos (u / 2 ^ p.m) with h0 | h0
  · rw [h0] at hu
    exact ⟨0, u % 2 ^ p.m, by omega, by omega, .inl rfl⟩
  · obtain ⟨j, hj⟩ := Nat.exists_eq_succ_of_ne_zero h0.ne'
    refine ⟨j, 2 ^ p.m + u % 2 ^ p.m, ?_, by omega, .inr (by omega)⟩
    rw [hj, Nat.succ_mul] at hu
    omega

theorem ieeeValue_lt_succ (p : Ieee) (u : Nat) : ieeeValue p u < ieeeValue p (u + 1) := by
  obtain ⟨j, q, rfl, hq, h⟩ := exists_cell p u
  rw [Nat.add_assoc, ieeeValue_cell p j q hq.le h,
      ieeeValue_cell p j (q + 1) hq (h.imp_right (·.trans (Nat.le_succ q)))]
  have : (0 : ℝ) < 2 ^ ((j : Int) + 1 - p.b - p.m) := by positivity
  push_cast
  linarith

theorem ieeeValue_strictMono (p : Ieee) : StrictMono (ieeeValue p) := strictMono_nat_of_lt_succ (ieeeValue_lt_succ p)

theorem ieeeValue_zero (p : Ieee) : ieeeValue p 0 = 0 := by
  simp [ieeeValue]

/-! #### The four formats -/

theorem ieee_width {f : Fmt} {p : Ieee} (h : Fmt.ieee f = some p) : f.width.bits = p.we + p.m + 1 := by
  cases f with
  | int | tap => cases h
  | f32 | bf16 | e4m3 | e5m2 => cases h; rfl

theorem ieee_isTap {f : Fmt} {p : Ieee} (h : Fmt.ieee f = some p) : isTap f = false := by
  cases f with
  | int | tap => cases h
  | f32 | bf16 | e4m3 | e5m2 => rfl

theorem ieee_decode {f : Fmt} {p : Ieee} (h : Fmt.ieee f = some p) (b : Nat) : decodeFmt f b = decodeIeee f p b := by
  cases f with
  | int | tap => cases h
  | f32 | bf16 | e4m3 | e5m2 => cases h; rfl

theorem ieee_infMag_lt {f : Fmt} {p : Ieee} (h : Fmt.ieee f = some p) : infMag f < 2 ^ (p.we + p.m) := by
  cases f with
  | int | tap => cases h
  | f32 | bf16 | e4m3 | e5m2 => cases h; decide

theorem ieee_le_infMag {f : Fmt} {p : Ieee} (h : Fmt.ieee f = some p) : 2 ^ p.m ≤ infMag f := by
  cases f with
  | int | tap => cases h
  | f32 | bf16 | e4m3 | e5m2 => cases h; decide

theorem ieee_maxFinite {f : Fmt} {p : Ieee} (h : Fmt.ieee f = some p) : maxFiniteMag f + 1 = infMag f := by
  cases f with
  | int | tap => cases h
  | f32 | bf16 | e4m3 | e5m2 => rfl

theorem ieee_sizes {f : Fmt} {p : Ieee} (h : Fmt.ieee f = some p) : 1 ≤ p.m ∧ p.m ≤ 23 := by
  cases f with
  | int | tap => cases h
  | f32 | bf16 | e4m3 | e5m2 => cases h; decide

/-- The special encodings of Table 5-3 are the magnitude strings from that of infinity, or of E4M3's NaN, on. -/
theorem ieee_special_iff {f : Fmt} {p : Ieee} (h : Fmt.ieee f = some p) (u : Nat) (hu : u < 2 ^ (p.we + p.m)) :
    (u / 2 ^ p.m = 2 ^ p.we - 1 ∧ f ≠ .e4m3 ∨ u / 2 ^ p.m = 2 ^ p.we - 1 ∧ u % 2 ^ p.m = 2 ^ p.m - 1)
        ↔ infMag f ≤ u := by
  cases f with
  | int | tap => cases h
  | f32 | bf16 | e4m3 | e5m2 =>
    cases h
    simp [infMag] at hu ⊢
    omega

/-- The highest bit of a string. -/
theorem testBit_top (n x : Nat) (hx : x < 2 ^ n) : (2 ^ n + x).testBit n = true := by
  rw [Nat.testBit_two_pow_add_eq, Nat.testBit_lt_two_pow hx]
  rfl

/-- The fields of a signed magnitude string. -/
theorem withSign_fields (we m u : Nat) (neg : Bool) (hu : u < 2 ^ (we + m)) :
    (withSign (we + m + 1) neg u).testBit (we + m) = neg ∧ (withSign (we + m + 1) neg u >>> m) % 2 ^ we = u / 2 ^ m
    ∧ withSign (we + m + 1) neg u % 2 ^ m = u % 2 ^ m := by
  have hdiv : u / 2 ^ m < 2 ^ we := by
    rw [Nat.div_lt_iff_lt_mul (by positivity), ← pow_add]
    exact hu
  cases neg
  · simp [withSign, Nat.shiftRight_eq_div_pow, Nat.testBit_lt_two_pow hu, Nat.mod_eq_of_lt hdiv]
  · simp only [withSign, if_true, Nat.add_sub_cancel]
    refine ⟨?_, ?_, ?_⟩
    · rw [Nat.add_comm]
      exact testBit_top _ u hu
    · rw [Nat.shiftRight_eq_div_pow, pow_add, Nat.add_mul_div_right _ _ (by positivity), Nat.add_mod_right,
        Nat.mod_eq_of_lt hdiv]
    · rw [pow_add, Nat.add_mul_mod_self_right]

/-- Every string is a signed magnitude string. -/
theorem exists_withSign (n b : Nat) (hb : b < 2 ^ (n + 1)) : ∃ neg u, u < 2 ^ n ∧ b = withSign (n + 1) neg u := by
  rw [Nat.pow_succ] at hb
  rcases lt_or_ge b (2 ^ n) with h | h
  · exact ⟨false, b, h, rfl⟩
  · exact ⟨true, b - 2 ^ n, by omega, by simp only [withSign, if_true, Nat.add_sub_cancel]; omega⟩

/-- A string below infinity names the zero or the finite value of its magnitude. -/
theorem decodeIeee_finite {f : Fmt} {p : Ieee} (h : Fmt.ieee f = some p) (neg : Bool) (u : Nat) (hu : u < infMag f) :
    (u = 0 → decodeFmt f (withSign f.width.bits neg u) = .zero neg)
    ∧ (u ≠ 0 → ∃ x, decodeFmt f (withSign f.width.bits neg u) = .fin x ∧ x.real = sgn neg * ieeeValue p u) := by
  have hlt := hu.trans (ieee_infMag_lt h)
  have hsp := mt (ieee_special_iff h u hlt).1 (not_le.2 hu)
  obtain ⟨hs, he, hf⟩ := withSign_fields p.we p.m u neg hlt
  rw [not_or] at hsp
  have hpos : 0 < 2 ^ p.m := by positivity
  have hdm := Nat.div_add_mod' u (2 ^ p.m)
  rw [ieee_decode h, ieee_width h]
  simp only [decodeIeee, hs, he, hf, if_neg hsp.1, if_neg hsp.2]
  constructor
  · rintro rfl
    simp
  · intro h0
    by_cases hd : u / 2 ^ p.m = 0
    · rw [hd] at hdm
      have hmod : u % 2 ^ p.m = u := by omega
      rw [if_pos hd, hmod, if_neg h0]
      refine ⟨_, rfl, ?_⟩
      simp only [Dyadic.real, ieeeValue, hd]
      cases neg <;> simp [sgn]
    · rw [if_neg hd]
      refine ⟨_, rfl, ?_⟩
      have hmax : max (u / 2 ^ p.m) 1 = u / 2 ^ p.m := max_eq_left (Nat.pos_of_ne_zero hd)
      have hdm' : (u : ℝ) = (u / 2 ^ p.m : Nat) * 2 ^ p.m + (u % 2 ^ p.m : Nat) := by exact_mod_cast hdm.symm
      have hmag : (2 ^ p.m : ℝ) + (u % 2 ^ p.m : Nat) = u - ((u / 2 ^ p.m : Nat) - 1) * 2 ^ p.m := by
        rw [hdm']
        ring
      simp only [Dyadic.real, ieeeValue, hmax, ← hmag]
      generalize u / 2 ^ p.m = ef
      generalize u % 2 ^ p.m = fr
      cases neg
      · simp [sgn]
      · simp only [sgn, if_true]
        push_cast
        ring

/-- A string from infinity on names no value. -/
theorem decodeIeee_special {f : Fmt} {p : Ieee} (h : Fmt.ieee f = some p) (neg : Bool) (u : Nat) (hu : infMag f ≤ u)
    (hlt : u < 2 ^ (p.we + p.m)) :
    decodeFmt f (withSign f.width.bits neg u) = .inf neg ∨ decodeFmt f (withSign f.width.bits neg u) = .nan neg := by
  have hsp := (ieee_special_iff h u hlt).2 hu
  obtain ⟨hs, he, hf⟩ := withSign_fields p.we p.m u neg hlt
  rw [ieee_decode h, ieee_width h]
  simp only [decodeIeee, hs, he, hf]
  split
  · split
    · exact .inl rfl
    · exact .inr rfl
  · rename_i h1
    rw [if_pos (hsp.resolve_left h1)]
    exact .inr rfl

/-! #### The cut -/

theorem CutResult.At.floor {c : CutResult} {P : ℝ} (h : c.At P) : (c.u : ℝ) ≤ P ∧ P < c.u + 1 := by
  cases hc : c.inexact
  · rw [h.eq_of_exact hc]
    exact ⟨le_rfl, by linarith⟩
  · obtain ⟨h1, h2⟩ := h.between_of_inexact hc
    exact ⟨h1.le, h2⟩

/-- A cut inside the binade j: the place is the position between two strings, in proportion to their values. -/
theorem cutShift_cell (p : Ieee) (x : Exact) (X : ℝ) (j : Nat) (s : Int) (hs : s = x.e + p.b + p.m - 1 - j)
    (hX : x.Holds X)
    (hsticky : x.sticky = true → s < 0) (hlt : X < 2 ^ ((j : Int) + 2 - p.b))
    (hge : j = 0 ∨ (2 : ℝ) ^ ((j : Int) + 1 - p.b) ≤ X) :
    ∃ P, ({ cutShift x.mag s x.sticky with u := j * 2 ^ p.m + (cutShift x.mag s x.sticky).u } : CutResult).At P
      ∧ X = ieeeValue p (j * 2 ^ p.m + (cutShift x.mag s x.sticky).u)
        + (P - (j * 2 ^ p.m + (cutShift x.mag s x.sticky).u : Nat))
          * (ieeeValue p (j * 2 ^ p.m + (cutShift x.mag s x.sticky).u + 1)
            - ieeeValue p (j * 2 ^ p.m + (cutShift x.mag s x.sticky).u)) := by
  obtain ⟨θ, hθ, rfl⟩ := hX
  have hat := cutShift_at x.mag s x.sticky θ hθ hsticky
  set c := cutShift x.mag s x.sticky
  obtain ⟨h1, h2⟩ := hat.floor
  have hscale : ((x.mag : ℝ) + θ) * 2 ^ x.e = ((x.mag + θ) * 2 ^ s) * 2 ^ ((j : Int) + 1 - p.b - p.m) := by
    rw [mul_assoc, ← zpow_add₀ two_ne_zero, hs]
    congr 2
    ring
  set P := ((x.mag : ℝ) + θ) * 2 ^ s
  have hpos : (0 : ℝ) < 2 ^ ((j : Int) + 1 - p.b - p.m) := by positivity
  have hq : c.u < 2 ^ (p.m + 1) := by
    have : P < 2 ^ (p.m + 1) := by
      rw [hscale, ← lt_div_iff₀ hpos, ← zpow_sub₀ two_ne_zero] at hlt
      refine hlt.trans_eq ?_
      rw [← zpow_natCast]
      congr 1
      push_cast
      ring
    exact_mod_cast h1.trans_lt this
  have hj : j = 0 ∨ 2 ^ p.m ≤ c.u := hge.imp_right fun hge => by
    have : 2 ^ p.m ≤ P := by
      rw [hscale, ← div_le_iff₀ hpos, ← zpow_sub₀ two_ne_zero] at hge
      refine Eq.trans_le ?_ hge
      rw [← zpow_natCast]
      congr 1
      ring
    have : (2 ^ p.m : ℝ) < c.u + 1 := this.trans_lt h2
    exact Nat.lt_succ_iff.1 (by exact_mod_cast this)
  refine ⟨_, hat.shift (j * 2 ^ p.m), ?_⟩
  rw [Nat.add_assoc, ieeeValue_cell p j c.u hq.le hj,
      ieeeValue_cell p j (c.u + 1) hq (hj.imp_right (·.trans (Nat.le_succ _))),
    hscale]
  push_cast
  ring

/-- A magnitude with its rest stands in the binade of its highest bit. -/
theorem Exact.Holds.log2_bounds {x : Exact} {X : ℝ} (h : x.Holds X) (hm : x.mag ≠ 0) :
    (2 : ℝ) ^ ((x.mag.log2 : Int) + x.e) ≤ X ∧ X < 2 ^ ((x.mag.log2 : Int) + x.e + 1) := by
  obtain ⟨θ, hθ, rfl⟩ := h
  have hlo : (2 : ℝ) ^ x.mag.log2 ≤ x.mag := by exact_mod_cast Nat.log2_self_le hm
  have hhi : (x.mag : ℝ) + 1 ≤ 2 ^ (x.mag.log2 + 1) := by exact_mod_cast Nat.lt_log2_self
  have hp : (0 : ℝ) < 2 ^ x.e := by positivity
  constructor
  · rw [zpow_add₀ two_ne_zero, zpow_natCast]
    exact mul_le_mul_of_nonneg_right (by linarith [hθ.nonneg]) hp.le
  · rw [add_right_comm, zpow_add₀ two_ne_zero]
    refine mul_lt_mul_of_pos_right ?_ hp
    have h1 := hθ.lt_one
    rw [show ((x.mag.log2 : Int) + 1) = ((x.mag.log2 + 1 : Nat) : Int) by push_cast; rfl, zpow_natCast]
    linarith

theorem cutIeee_normal (p : Ieee) (x : Exact) (h : 1 - (p.b : Int) ≤ x.mag.log2 + x.e) (j : Nat)
    (hj : (x.mag.log2 : Int) + x.e + p.b - 1 = j) :
    cutIeee p x = { cutShift x.mag (p.m - x.mag.log2) x.sticky with
      u := j * 2 ^ p.m + (cutShift x.mag (p.m - x.mag.log2) x.sticky).u } := by
  simp only [cutIeee, if_pos h, hj, Int.toNat_natCast]

theorem cutIeee_subnormal (p : Ieee) (x : Exact) (h : ¬ 1 - (p.b : Int) ≤ x.mag.log2 + x.e) :
    cutIeee p x = cutShift x.mag (x.e + p.b - 1 + p.m) x.sticky := by
  simp only [cutIeee, if_neg h]

/-- The cut of the IEEE-style class (Table 5-5). -/
theorem cutIeee_at (p : Ieee) (x : Exact) (X : ℝ) (hX : x.Holds X) (hm : x.mag ≠ 0)
    (hsticky : x.sticky = true → p.m < x.mag.log2) :
    (cutIeee p x).flags = 0 ∧ ∃ P, (cutIeee p x).At P ∧ X = ieeeValue p (cutIeee p x).u
      + (P - (cutIeee p x).u) * (ieeeValue p ((cutIeee p x).u + 1) - ieeeValue p (cutIeee p x).u) := by
  obtain ⟨hlo, hhi⟩ := hX.log2_bounds hm
  by_cases h : 1 - (p.b : Int) ≤ x.mag.log2 + x.e
  · obtain ⟨j, hj⟩ : ∃ j : Nat, (x.mag.log2 : Int) + x.e + p.b - 1 = j := ⟨_, (Int.toNat_of_nonneg (by omega)).symm⟩
    rw [cutIeee_normal p x h j hj]
    refine ⟨cutShift_flags _ _ _,
        cutShift_cell p x X j _ (by omega) hX (fun hs => by have := hsticky hs; omega) ?_ (.inr ?_)⟩
    · rwa [show ((j : Int) + 2 - p.b) = (x.mag.log2 : Int) + x.e + 1 by omega]
    · rwa [show ((j : Int) + 1 - p.b) = (x.mag.log2 : Int) + x.e by omega]
  · rw [cutIeee_subnormal p x h]
    have hcell := cutShift_cell p x X 0 (x.e + p.b - 1 + p.m) (by push_cast; ring) hX
      (fun hs => by have := hsticky hs; omega)
      (hhi.trans_le (zpow_le_zpow_right₀ one_le_two (by push_cast; omega))) (.inl rfl)
    simp only [Nat.zero_mul, Nat.zero_add] at hcell
    exact ⟨cutShift_flags _ _ _, hcell⟩

end Sys2Proof.Machine
end

section
/-! ### The values of the tapered magnitude strings (R105 to R108)

A tapered string is the place of its value on a scale: the logarithm, with straight lines between the powers of two,
in units of 2^es, sent through the lengths of the regimes. The scale is strictly increasing, decoding inverts it, and
the cut reads it off. -/

namespace Sys2Proof.Machine

/-! #### The scale -/

/-- The values of T at the integers, with straight lines between them. -/
noncomputable def interp (T : ℤ → ℝ) (z : ℝ) : ℝ := T ⌊z⌋ + Int.fract z * (T (⌊z⌋ + 1) - T ⌊z⌋)

theorem interp_eq (T : ℤ → ℝ) (k : ℤ) (g : ℝ) (h0 : 0 ≤ g) (h1 : g < 1) :
    interp T (k + g) = T k + g * (T (k + 1) - T k) := by
  have hfl : ⌊(k : ℝ) + g⌋ = k := by
    rw [Int.floor_intCast_add, Int.floor_eq_zero_iff.2 ⟨h0, h1⟩, add_zero]
  have hfr : Int.fract ((k : ℝ) + g) = g := by
    rw [Int.fract_intCast_add, Int.fract_eq_self.2 ⟨h0, h1⟩]
  rw [interp, hfl, hfr]

theorem interp_bounds {T : ℤ → ℝ} (hT : StrictMono T) (z : ℝ) : T ⌊z⌋ ≤ interp T z ∧ interp T z < T (⌊z⌋ + 1) := by
  have hstep : 0 < T (⌊z⌋ + 1) - T ⌊z⌋ := sub_pos.2 (hT (lt_add_one _))
  have h0 := Int.fract_nonneg z
  have h1 := Int.fract_lt_one z
  constructor
  · exact le_add_of_nonneg_right (mul_nonneg h0 hstep.le)
  · have := mul_lt_mul_of_pos_right h1 hstep
    unfold interp
    linarith

theorem interp_strictMono {T : ℤ → ℝ} (hT : StrictMono T) : StrictMono (interp T) := by
  intro y z hyz
  rcases (Int.floor_mono hyz.le).lt_or_eq with hlt | heq
  · exact (interp_bounds hT y).2.trans_le ((hT.monotone hlt).trans (interp_bounds hT z).1)
  · have hstep : 0 < T (⌊z⌋ + 1) - T ⌊z⌋ := sub_pos.2 (hT (lt_add_one _))
    have hfr : Int.fract y < Int.fract z := by
      rw [Int.fract, Int.fract, heq]
      linarith
    unfold interp
    rw [heq]
    exact add_lt_add_right (mul_lt_mul_of_pos_right hfr hstep) _

/-- The logarithm to base 2 with straight lines between the powers of two. -/
noncomputable def plog (X : ℝ) : ℝ := Int.log 2 X + (X / 2 ^ Int.log 2 X - 1)

theorem plog_eq (t : ℤ) (f : ℝ) (h0 : 0 ≤ f) (h1 : f < 1) : plog (2 ^ t * (1 + f)) = t + f := by
  have hp : (0 : ℝ) < 2 ^ t := by positivity
  have hX : 0 < (2 : ℝ) ^ t * (1 + f) := by positivity
  have hlog : Int.log 2 ((2 : ℝ) ^ t * (1 + f)) = t := by
    refine le_antisymm (Int.lt_add_one_iff.1 ((Int.lt_zpow_iff_log_lt one_lt_two hX).1 ?_))
      ((Int.zpow_le_iff_le_log one_lt_two hX).1 ?_)
    · rw [Nat.cast_two, zpow_add_one₀ two_ne_zero]
      exact mul_lt_mul_of_pos_left (by linarith) hp
    · rw [Nat.cast_two]
      exact le_mul_of_one_le_right hp.le (by linarith)
  rw [plog, hlog, mul_div_cancel_left₀ _ hp.ne']
  ring

theorem plog_bounds (X : ℝ) (hX : 0 < X) : (Int.log 2 X : ℝ) ≤ plog X ∧ plog X < Int.log 2 X + 1 := by
  have hp : (0 : ℝ) < 2 ^ Int.log 2 X := by positivity
  have h1 := Int.zpow_log_le_self one_lt_two hX
  have h2 := Int.lt_zpow_succ_log_self one_lt_two X
  rw [Nat.cast_two] at h1 h2
  rw [zpow_add_one₀ two_ne_zero] at h2
  unfold plog
  constructor
  · have := (one_le_div hp).2 h1
    linarith
  · have : X / 2 ^ Int.log 2 X < 2 := (div_lt_iff₀' hp).2 h2
    linarith

theorem plog_strictMonoOn : StrictMonoOn plog (Set.Ioi 0) := by
  intro X hX Y hY hXY
  rcases (Int.log_mono_right (b := 2) hX hXY.le).lt_or_eq with hlt | heq
  · have hlt' : (Int.log 2 X : ℝ) + 1 ≤ Int.log 2 Y := by exact_mod_cast hlt
    exact (plog_bounds X hX).2.trans_le (hlt'.trans (plog_bounds Y hY).1)
  · unfold plog
    rw [heq]
    have := div_lt_div_of_pos_right hXY (show (0 : ℝ) < 2 ^ Int.log 2 Y by positivity)
    linarith

/-- The n-bit string of useed^k (R108), for any k. -/
noncomputable def taperStep (n : Nat) (k : ℤ) : ℝ :=
  if k < 0 then 2 ^ ((n : ℤ) - 2 + k) else 2 ^ ((n : ℤ) - 1) - 2 ^ ((n : ℤ) - 2 - k)

theorem taperStep_neg (n : Nat) (k : ℤ) (h : k < 0) :
    taperStep n k = 2 ^ ((n : ℤ) - 2 + k) ∧ taperStep n (k + 1) - taperStep n k = 2 ^ ((n : ℤ) - 2 + k) := by
  have hk : taperStep n k = 2 ^ ((n : ℤ) - 2 + k) := if_pos h
  refine ⟨hk, ?_⟩
  rw [hk]
  rcases (Int.add_one_le_of_lt h).lt_or_eq with h1 | h1
  · rw [taperStep, if_pos h1, ← add_assoc, zpow_add_one₀ two_ne_zero]
    ring
  · obtain rfl : k = -1 := by omega
    rw [taperStep, if_neg (by norm_num), show (n : ℤ) - 1 = (n : ℤ) - 2 + -1 + 1 + 1 by ring,
      show (n : ℤ) - 2 - (-1 + 1) = (n : ℤ) - 2 + -1 + 1 by ring, zpow_add_one₀ two_ne_zero, zpow_add_one₀ two_ne_zero]
    ring

theorem taperStep_nonneg (n : Nat) (k : ℤ) (h : 0 ≤ k) :
    taperStep n k = 2 ^ ((n : ℤ) - 1) - 2 ^ ((n : ℤ) - 2 - k)
    ∧ taperStep n (k + 1) - taperStep n k = 2 ^ ((n : ℤ) - 3 - k) := by
  have hk : ∀ j, 0 ≤ j → taperStep n j = 2 ^ ((n : ℤ) - 1) - 2 ^ ((n : ℤ) - 2 - j) := fun j hj => if_neg (not_lt.2 hj)
  refine ⟨hk k h, ?_⟩
  rw [hk k h, hk (k + 1) (by omega), show (n : ℤ) - 2 - (k + 1) = (n : ℤ) - 3 - k by ring,
    show (n : ℤ) - 2 - k = (n : ℤ) - 3 - k + 1 by ring, zpow_add_one₀ two_ne_zero]
  ring

theorem taperStep_strictMono (n : Nat) : StrictMono (taperStep n) := by
  refine strictMono_int_of_lt_succ fun k => sub_pos.1 ?_
  rcases lt_or_ge k 0 with h | h
  · rw [(taperStep_neg n k h).2]
    positivity
  · rw [(taperStep_nonneg n k h).2]
    positivity

/-- The place of a positive value among the n-bit strings with es exponent bits. -/
noncomputable def taperPlace (n es : Nat) (X : ℝ) : ℝ := interp (taperStep n) (plog X / 2 ^ es)

theorem taperPlace_strictMonoOn (n es : Nat) : StrictMonoOn (taperPlace n es) (Set.Ioi 0) := by
  intro X hX Y hY hXY
  exact interp_strictMono (taperStep_strictMono n)
    (div_lt_div_of_pos_right (plog_strictMonoOn hX hY hXY) (by positivity))

/-- The place of 2^(k·2^es + e)·(1 + f). -/
theorem taperPlace_eq (n es : Nat) (k : ℤ) (e : Nat) (f : ℝ) (he : e < 2 ^ es) (h0 : 0 ≤ f) (h1 : f < 1) :
    taperPlace n es (2 ^ (k * 2 ^ es + e) * (1 + f))
      = taperStep n k + (e + f) / 2 ^ es * (taperStep n (k + 1) - taperStep n k) := by
  have hp : (0 : ℝ) < 2 ^ es := by positivity
  have he' : (e : ℝ) + 1 ≤ 2 ^ es := by exact_mod_cast he
  have hz : (((k * 2 ^ es + e : ℤ) : ℝ) + f) / 2 ^ es = k + (e + f) / 2 ^ es := by
    push_cast
    field_simp
    ring
  rw [taperPlace, plog_eq _ f h0 h1, hz]
  exact interp_eq _ _ _ (by positivity) ((div_lt_one hp).2 (by linarith))

/-- The place below 1: the regime is a run of zeros. -/
theorem taperPlace_neg (n es : Nat) (k : ℤ) (hk : k < 0) (e : Nat) (f : ℝ) (he : e < 2 ^ es) (h0 : 0 ≤ f) (h1 : f < 1) :
    taperPlace n es (2 ^ (k * 2 ^ es + e) * (1 + f)) = (1 + (e + f) / 2 ^ es) * 2 ^ ((n : ℤ) - 2 + k) := by
  rw [taperPlace_eq n es k e f he h0 h1, (taperStep_neg n k hk).2, (taperStep_neg n k hk).1]
  ring

/-- The place from 1 on: the regime is a run of ones. -/
theorem taperPlace_nonneg (n es : Nat) (k : ℤ) (hk : 0 ≤ k) (e : Nat) (f : ℝ) (he : e < 2 ^ es) (h0 : 0 ≤ f)
    (h1 : f < 1) :
    taperPlace n es (2 ^ (k * 2 ^ es + e) * (1 + f))
      = 2 ^ ((n : ℤ) - 1) - 2 ^ ((n : ℤ) - 2 - k) + (e + f) / 2 ^ es * 2 ^ ((n : ℤ) - 3 - k) := by
  rw [taperPlace_eq n es k e f he h0 h1, (taperStep_nonneg n k hk).2, (taperStep_nonneg n k hk).1]

/-- maxpos has the last place, and minpos the first (R108). -/
theorem taperPlace_max (n es : Nat) (hn : 2 ≤ n) :
    taperPlace n es (2 ^ (((n - 2 : Nat) : ℤ) * 2 ^ es)) = 2 ^ (n - 1) - 1 := by
  have h := taperPlace_nonneg n es (n - 2 : Nat) (by positivity) 0 0 (by positivity) le_rfl one_pos
  rw [show (n : ℤ) - 2 - ((n - 2 : Nat) : ℤ) = 0 by omega, show (n : ℤ) - 1 = ((n - 1 : Nat) : ℤ) by omega] at h
  simpa using h

theorem taperPlace_min (n es : Nat) (hn : 3 ≤ n) : taperPlace n es (2 ^ (-(((n - 2 : Nat) : ℤ) * 2 ^ es))) = 1 := by
  have h := taperPlace_neg n es (-((n - 2 : Nat) : ℤ)) (by omega) 0 0 (by positivity) le_rfl one_pos
  rw [show (n : ℤ) - 2 + -((n - 2 : Nat) : ℤ) = 0 by omega] at h
  simpa using h

/-! #### Decoding -/

/-- The low bits of a number, by their highest one. -/
theorem mod_two_pow_succ_testBit (u N : Nat) : u % 2 ^ (N + 1) = u % 2 ^ N + 2 ^ N * (u.testBit N).toNat := by
  rw [Nat.mod_pow_succ, Nat.toNat_testBit]

/-- A run of ones from bit N − 1 downward. -/
theorem runLength_true (u N : Nat) :
    runLength u true N ≤ N
    ∧ u % 2 ^ N + 2 ^ (N - runLength u true N) = 2 ^ N + u % 2 ^ (N - 1 - runLength u true N) := by
  induction N with
  | zero => simp [runLength, Nat.mod_one]
  | succ N ih =>
    obtain ⟨hle, heq⟩ := ih
    have hmod := mod_two_pow_succ_testBit u N
    cases hb : u.testBit N
    · simp [runLength, hb, hmod]
      omega
    · have hrun : runLength u true (N + 1) = runLength u true N + 1 := by simp [runLength, hb]
      rw [hrun, hmod, hb, Nat.add_sub_add_right, show N + 1 - 1 - (runLength u true N + 1)
          = N - 1 - runLength u true N by omega,
        Nat.pow_succ]
      simp
      omega

/-- A run of zeros, which a one ends. -/
theorem runLength_false (u N : Nat) (h : u % 2 ^ N ≠ 0) :
    runLength u false N < N
        ∧ u % 2 ^ N = 2 ^ (N - 1 - runLength u false N) + u % 2 ^ (N - 1 - runLength u false N) := by
  induction N with
  | zero => simp [Nat.mod_one] at h
  | succ N ih =>
    have hmod := mod_two_pow_succ_testBit u N
    cases hb : u.testBit N
    · have hrun : runLength u false (N + 1) = runLength u false N + 1 := by simp [runLength, hb]
      have hmod' : u % 2 ^ (N + 1) = u % 2 ^ N := by simp [hmod, hb]
      rw [hmod'] at h ⊢
      obtain ⟨hlt, heq⟩ := ih h
      rw [hrun, show N + 1 - 1 - (runLength u false N + 1) = N - 1 - runLength u false N by omega]
      exact ⟨by omega, heq⟩
    · simp [runLength, hb, hmod]
      omega

theorem runLength_pos (u N : Nat) (hN : 0 < N) : 0 < runLength u (u.testBit (N - 1)) N := by
  obtain ⟨N, rfl⟩ := Nat.exists_eq_succ_of_ne_zero hN.ne'
  simp [runLength]

/-- The regime, and the bits behind it, of a magnitude string. -/
structure Regime where
  k : Int
  w : Nat
  rest : Nat

/-- The reading of R105: the run m of the bit n − 2, and the w bits behind its end. -/
def regimeOf (n u : Nat) : Regime :=
  let m := runLength u (u.testBit (n - 2)) (n - 1)
  { k := if u.testBit (n - 2) then (m : Int) - 1 else -(m : Int), w := n - 2 - m, rest := u % 2 ^ (n - 2 - m) }

/-- A string that begins with zeros. -/
theorem regimeOf_zeros (n u : Nat) (hn : 2 ≤ n) (h0 : u ≠ 0) (hu : u < 2 ^ (n - 1)) (hb : u.testBit (n - 2) = false) :
    (regimeOf n u).k < 0 ∧ (n : ℤ) - 2 + (regimeOf n u).k = (regimeOf n u).w
    ∧ u = 2 ^ (regimeOf n u).w + (regimeOf n u).rest := by
  have hum : u % 2 ^ (n - 1) = u := Nat.mod_eq_of_lt hu
  have hpos := runLength_pos u (n - 1) (by omega)
  obtain ⟨hlt, heq⟩ := runLength_false u (n - 1) (by rwa [hum])
  rw [show n - 1 - 1 = n - 2 by omega] at hpos heq
  rw [hb] at hpos
  rw [hum] at heq
  simp only [regimeOf, hb, Bool.false_eq_true, if_false]
  exact ⟨by omega, by omega, heq⟩

/-- A string that begins with ones. -/
theorem regimeOf_ones (n u : Nat) (hn : 2 ≤ n) (hu : u < 2 ^ (n - 1)) (hb : u.testBit (n - 2) = true) :
    ∃ j : Nat, (regimeOf n u).k = j ∧ j ≤ n - 2 ∧ (regimeOf n u).w = n - 3 - j
    ∧ u + 2 ^ (n - 2 - j) = 2 ^ (n - 1) + (regimeOf n u).rest := by
  have hpos := runLength_pos u (n - 1) (by omega)
  obtain ⟨hle, heq⟩ := runLength_true u (n - 1)
  rw [show n - 1 - 1 = n - 2 by omega] at hpos heq
  rw [hb] at hpos
  rw [Nat.mod_eq_of_lt hu] at heq
  simp only [regimeOf, hb, if_true]
  refine ⟨runLength u true (n - 1) - 1, by omega, by omega, by omega, ?_⟩
  rwa [show n - 2 - (runLength u true (n - 1) - 1) = n - 1 - runLength u true (n - 1) by omega]

/-- The exponent bits, with zeros for missing ones. -/
def Regime.exp (r : Regime) (es : Nat) : Nat := if es ≤ r.w then r.rest / 2 ^ (r.w - es) else r.rest * 2 ^ (es - r.w)

/-- The value of a magnitude string. -/
def tapDyadic (n es u : Nat) : Dyadic :=
  let r := regimeOf n u
  { m := if es ≤ r.w then 2 ^ (r.w - es) + r.rest % 2 ^ (r.w - es) else 1
    e := r.k * 2 ^ es + r.exp es - (if es ≤ r.w then (r.w - es : Nat) else 0) }

theorem decodeT_pos (n es u : Nat) (h0 : u ≠ 0) (hu : u < 2 ^ (n - 1)) : decodeT u n es = .fin (tapDyadic n es u) := by
  simp only [decodeT, if_neg h0, if_neg hu.ne, Nat.testBit_lt_two_pow hu, Bool.false_eq_true, if_false]
  rfl

theorem decodeT_neg (n es u : Nat) (hn : 1 ≤ n) (h0 : u ≠ 0) (hu : u < 2 ^ (n - 1)) :
    decodeT (2 ^ n - u) n es = .fin (tapDyadic n es u).neg := by
  have h2 := Nat.two_pow_pred_mul_two (w := n) hn
  have hb : (2 ^ n - u).testBit (n - 1) = true := by
    rw [show 2 ^ n - u = 2 ^ (n - 1) + (2 ^ (n - 1) - u) by omega]
    exact testBit_top _ _ (by omega)
  simp only [decodeT, if_neg (show 2 ^ n - u ≠ 0 by omega), if_neg (show 2 ^ n - u ≠ 2 ^ (n - 1) by omega), hb, if_true,
    Nat.sub_sub_self (show u ≤ 2 ^ n by omega)]
  rfl

/-- Exponent and fraction bits: the tail of a string is its place between two regimes. -/
theorem Regime.split (r : Regime) (es : Nat) (h : r.rest < 2 ^ r.w) :
    r.exp es < 2 ^ es ∧ ∃ f : ℝ, 0 ≤ f ∧ f < 1 ∧ (r.exp es + f) / 2 ^ es = r.rest / 2 ^ r.w
      ∧ ((if es ≤ r.w then 2 ^ (r.w - es) + r.rest % 2 ^ (r.w - es) else 1 : Nat) : ℝ)
        = (1 + f) * 2 ^ (if es ≤ r.w then r.w - es else 0) := by
  unfold Regime.exp
  by_cases hes : es ≤ r.w
  · obtain ⟨d, hd⟩ := Nat.exists_eq_add_of_le hes
    have hpos : 0 < 2 ^ d := by positivity
    have hdm : (r.rest : ℝ) = (r.rest / 2 ^ d : Nat) * 2 ^ d + (r.rest % 2 ^ d : Nat) := by
      exact_mod_cast (Nat.div_add_mod' r.rest (2 ^ d)).symm
    have hlt : ((r.rest % 2 ^ d : Nat) : ℝ) < 2 ^ d := by exact_mod_cast Nat.mod_lt r.rest hpos
    have hd' : r.w - es = d := by omega
    simp only [if_pos hes, hd']
    refine ⟨?_, (r.rest % 2 ^ d : Nat) / 2 ^ d, by positivity, (div_lt_one (by positivity)).2 hlt, ?_, ?_⟩
    · rw [Nat.div_lt_iff_lt_mul hpos, ← pow_add, ← hd]
      exact h
    · rw [hdm, hd, pow_add]
      generalize r.rest / 2 ^ d = q
      generalize r.rest % 2 ^ d = s
      field_simp
    · push_cast
      field_simp
  · obtain ⟨d, hd⟩ := Nat.exists_eq_add_of_le (not_le.1 hes).le
    simp only [if_neg hes]
    rw [hd, Nat.add_sub_cancel_left]
    refine ⟨?_, 0, le_rfl, one_pos, ?_, by simp⟩
    · rw [pow_add]
      exact Nat.mul_lt_mul_of_pos_right h (by positivity)
    · rw [pow_add]
      push_cast
      field_simp
      ring

/-- The value in powers of useed and of two (R106). -/
theorem tapDyadic_real (n es u : Nat) : ∃ f : ℝ, 0 ≤ f ∧ f < 1 ∧ (regimeOf n u).exp es < 2 ^ es
    ∧ ((regimeOf n u).exp es + f) / 2 ^ es = (regimeOf n u).rest / 2 ^ (regimeOf n u).w
    ∧ (tapDyadic n es u).real = 2 ^ ((regimeOf n u).k * 2 ^ es + (regimeOf n u).exp es) * (1 + f) := by
  have hrest : (regimeOf n u).rest < 2 ^ (regimeOf n u).w := Nat.mod_lt _ (by positivity)
  obtain ⟨he, f, hf0, hf1, hg, hmag⟩ := (regimeOf n u).split es hrest
  refine ⟨f, hf0, hf1, he, hg, ?_⟩
  have hm : ((tapDyadic n es u).m : ℝ)
      = (1 + f) * 2 ^ (if es ≤ (regimeOf n u).w then (regimeOf n u).w - es else 0) := by
    rw [← hmag]
    simp only [tapDyadic]
    push_cast
    rfl
  rw [Dyadic.real, hm]
  simp only [tapDyadic]
  rw [zpow_sub₀ two_ne_zero, zpow_natCast]
  field_simp

/-- A magnitude string stands at its own place. -/
theorem tapDyadic_place (n es u : Nat) (hn : 2 ≤ n) (h0 : u ≠ 0) (hu : u < 2 ^ (n - 1)) :
    0 < (tapDyadic n es u).real ∧ taperPlace n es (tapDyadic n es u).real = u := by
  obtain ⟨f, hf0, hf1, he, hg, hreal⟩ := tapDyadic_real n es u
  refine ⟨by rw [hreal]; positivity, ?_⟩
  rw [hreal]
  cases hb : u.testBit (n - 2)
  · obtain ⟨hk, hw, heq⟩ := regimeOf_zeros n u hn h0 hu hb
    have heq' : (u : ℝ) = 2 ^ (regimeOf n u).w + (regimeOf n u).rest := by exact_mod_cast heq
    rw [taperPlace_neg n es _ hk _ f he hf0 hf1, hg, hw, heq', zpow_natCast]
    field_simp
  · obtain ⟨j, hk, hj, hw, heq⟩ := regimeOf_ones n u hn hu hb
    have heq' : (u : ℝ) + 2 ^ (n - 2 - j) = 2 ^ (n - 1) + (regimeOf n u).rest := by exact_mod_cast heq
    rw [taperPlace_nonneg n es _ (by omega) _ f he hf0 hf1, hg, hk, eq_sub_of_add_eq heq',
      show (n : ℤ) - 1 = ((n - 1 : Nat) : ℤ) by omega, show (n : ℤ) - 2 - (j : ℤ) = ((n - 2 - j : Nat) : ℤ) by omega,
      zpow_natCast, zpow_natCast]
    rcases hj.lt_or_eq with hlt | rfl
    · rw [show (n : ℤ) - 3 - (j : ℤ) = ((regimeOf n u).w : ℤ) by omega, zpow_natCast]
      field_simp
      ring
    · have hrest : (regimeOf n u).rest < 2 ^ (regimeOf n u).w := Nat.mod_lt _ (by positivity)
      rw [hw, show n - 3 - (n - 2) = 0 by omega, pow_zero, Nat.lt_one_iff] at hrest
      simp [hrest]

end Sys2Proof.Machine
end

section
/-! ### The cut of the tapered class (Table 5-5) -/

namespace Sys2Proof.Machine

/-- The value of an n-bit tapered magnitude string. -/
noncomputable def tapValue (n es u : Nat) : ℝ := if u = 0 then 0 else (tapDyadic n es u).real

theorem tapValue_zero (n es : Nat) : tapValue n es 0 = 0 := if_pos rfl

theorem tapValue_pos (n es u : Nat) (hn : 2 ≤ n) (h0 : u ≠ 0) (hu : u < 2 ^ (n - 1)) : 0 < tapValue n es u := by
  rw [tapValue, if_neg h0]
  exact (tapDyadic_place n es u hn h0 hu).1

theorem taperPlace_tapValue (n es u : Nat) (hn : 2 ≤ n) (h0 : u ≠ 0) (hu : u < 2 ^ (n - 1)) :
    taperPlace n es (tapValue n es u) = u := by
  rw [tapValue, if_neg h0]
  exact (tapDyadic_place n es u hn h0 hu).2

/-- A value and a positive value compare as their places. -/
theorem tapValue_lt_iff (n es u : Nat) (X : ℝ) (hn : 2 ≤ n) (h0 : u ≠ 0) (hu : u < 2 ^ (n - 1)) (hX : 0 < X) :
    tapValue n es u < X ↔ (u : ℝ) < taperPlace n es X := by
  rw [← taperPlace_tapValue n es u hn h0 hu]
  exact ((taperPlace_strictMonoOn n es).lt_iff_lt (tapValue_pos n es u hn h0 hu) hX).symm

theorem lt_tapValue_iff (n es u : Nat) (X : ℝ) (hn : 2 ≤ n) (h0 : u ≠ 0) (hu : u < 2 ^ (n - 1)) (hX : 0 < X) :
    X < tapValue n es u ↔ taperPlace n es X < (u : ℝ) := by
  rw [← taperPlace_tapValue n es u hn h0 hu]
  exact ((taperPlace_strictMonoOn n es).lt_iff_lt hX (tapValue_pos n es u hn h0 hu)).symm

theorem tapValue_eq_iff (n es u : Nat) (X : ℝ) (hn : 2 ≤ n) (h0 : u ≠ 0) (hu : u < 2 ^ (n - 1)) (hX : 0 < X) :
    X = tapValue n es u ↔ taperPlace n es X = u := by
  rw [← taperPlace_tapValue n es u hn h0 hu]
  exact ((taperPlace_strictMonoOn n es).eq_iff_eq hX (tapValue_pos n es u hn h0 hu)).symm

theorem tapValue_strictMono (n es u v : Nat) (hn : 2 ≤ n) (huv : u < v) (hv : v < 2 ^ (n - 1)) :
    tapValue n es u < tapValue n es v := by
  have hpos := tapValue_pos n es v hn (by omega) hv
  rcases Nat.eq_zero_or_pos u with rfl | h0
  · rwa [tapValue_zero]
  · rw [tapValue_lt_iff n es u _ hn h0.ne' (huv.trans hv) hpos, taperPlace_tapValue n es v hn (by omega) hv]
    exact_mod_cast huv

theorem tapValue_max (n es : Nat) (hn : 3 ≤ n) :
    (2 : ℝ) ^ (((n - 2 : Nat) : ℤ) * 2 ^ es) = tapValue n es (2 ^ (n - 1) - 1) := by
  have h2 : 2 ^ 1 < 2 ^ (n - 1) := Nat.pow_lt_pow_right one_lt_two (by omega)
  rw [tapValue_eq_iff n es _ _ (by omega) (by omega) (by omega) (by positivity), taperPlace_max n es (by omega)]
  push_cast [show 1 ≤ 2 ^ (n - 1) by omega]
  ring

theorem tapValue_one (n es : Nat) (hn : 3 ≤ n) : (2 : ℝ) ^ (-(((n - 2 : Nat) : ℤ) * 2 ^ es)) = tapValue n es 1 := by
  have h2 : 2 ^ 1 < 2 ^ (n - 1) := Nat.pow_lt_pow_right one_lt_two (by omega)
  rw [tapValue_eq_iff n es 1 _ (by omega) one_ne_zero (by omega) (by positivity), taperPlace_min n es hn, Nat.cast_one]

/-! #### The branches of the cut -/

/-- The exact value is a power of two. -/
def Exact.power (x : Exact) : Prop := x.mag = 2 ^ x.mag.log2 ∧ x.sticky = false

theorem Exact.Holds.eq_of_power {x : Exact} {X : ℝ} (h : x.Holds X) (hp : x.power) :
    X = 2 ^ ((x.mag.log2 : Int) + x.e) := by
  obtain ⟨θ, hθ, rfl⟩ := h
  obtain ⟨hm, hs⟩ := hp
  have hm' : (x.mag : ℝ) = 2 ^ x.mag.log2 := by exact_mod_cast hm
  rw [hθ.eq_zero hs, add_zero, zpow_add₀ two_ne_zero, zpow_natCast, ← hm']

/-- Another value stands above the power of two of its highest bit. -/
theorem Exact.Holds.lt_of_not_power {x : Exact} {X : ℝ} (h : x.Holds X) (hm : x.mag ≠ 0) (hp : ¬ x.power) :
    2 ^ ((x.mag.log2 : Int) + x.e) < X := by
  obtain ⟨θ, hθ, rfl⟩ := h
  rw [zpow_add₀ two_ne_zero, zpow_natCast]
  refine mul_lt_mul_of_pos_right ?_ (by positivity)
  rcases (Nat.log2_self_le hm).lt_or_eq with hlt | heq
  · have : (2 : ℝ) ^ x.mag.log2 < x.mag := by exact_mod_cast hlt
    linarith [hθ.nonneg]
  · have hs : x.sticky = true := by
      cases hs : x.sticky
      · exact absurd ⟨heq.symm, hs⟩ hp
      · rfl
    have : (2 : ℝ) ^ x.mag.log2 = x.mag := by exact_mod_cast heq
    linarith [hθ.pos hs]

/-- The cut at a bound of the range: the bound's string, with CLMP and INX where the value differs. -/
def boundCut (u : Nat) (isBound : Bool) : CutResult :=
  { u := u, r := 0, k := 0, sticky := false, flags := if isBound then 0 else flClmp ||| flInx }

theorem boundCut_round (u : Nat) (isBound : Bool) (mode : RMode) :
    (boundCut u isBound).round mode = (u, if isBound then 0 else flClmp ||| flInx) := rfl

theorem cutTap_high (n es : Nat) (x : Exact) (X : ℝ) (hn : 3 ≤ n) (hX : x.Holds X) (hm : x.mag ≠ 0)
    (h : ((n - 2 : Nat) : ℤ) * 2 ^ es ≤ (x.mag.log2 : Int) + x.e) :
    (X = tapValue n es (2 ^ (n - 1) - 1) ∧ cutTap n es x = boundCut (2 ^ (n - 1) - 1) true)
    ∨ (tapValue n es (2 ^ (n - 1) - 1) < X ∧ cutTap n es x = boundCut (2 ^ (n - 1) - 1) false) := by
  rw [← tapValue_max n es hn]
  by_cases hb : (x.mag.log2 : Int) + x.e = ((n - 2 : Nat) : ℤ) * 2 ^ es ∧ x.power
  · refine .inl ⟨by rw [hX.eq_of_power hb.2, hb.1], ?_⟩
    have hb' := hb
    unfold Exact.power at hb'
    simp only [cutTap, boundCut, if_pos h, if_pos hb', if_true]
  · refine .inr ⟨?_, ?_⟩
    · rcases h.lt_or_eq with hlt | heq
      · exact (zpow_lt_zpow_right₀ one_lt_two hlt).trans_le (hX.log2_bounds hm).1
      · rw [heq]
        exact hX.lt_of_not_power hm fun hp => hb ⟨heq.symm, hp⟩
    · unfold Exact.power at hb
      simp only [cutTap, boundCut, if_pos h, if_neg hb, Bool.false_eq_true, if_false]

theorem cutTap_low (n es : Nat) (x : Exact) (X : ℝ) (hn : 3 ≤ n) (hX : x.Holds X) (hm : x.mag ≠ 0)
    (h : (x.mag.log2 : Int) + x.e < -(((n - 2 : Nat) : ℤ) * 2 ^ es)
      ∨ ((x.mag.log2 : Int) + x.e = -(((n - 2 : Nat) : ℤ) * 2 ^ es) ∧ x.power)) :
    (X = tapValue n es 1 ∧ cutTap n es x = boundCut 1 true) ∨
        (X < tapValue n es 1 ∧ cutTap n es x = boundCut 1 false) := by
  have hpos : (0 : ℤ) < ((n - 2 : Nat) : ℤ) * 2 ^ es := mul_pos (by omega) (by positivity)
  have hnot : ¬ ((n - 2 : Nat) : ℤ) * 2 ^ es ≤ (x.mag.log2 : Int) + x.e := by omega
  rw [← tapValue_one n es hn]
  have hlow := h
  unfold Exact.power at hlow
  by_cases hb : (x.mag.log2 : Int) + x.e = -(((n - 2 : Nat) : ℤ) * 2 ^ es) ∧ x.power
  · refine .inl ⟨by rw [hX.eq_of_power hb.2, hb.1], ?_⟩
    have hb' := hb
    unfold Exact.power at hb'
    simp only [cutTap, boundCut, if_neg hnot, if_pos hlow, if_pos hb', if_true]
  · refine .inr ⟨?_, ?_⟩
    · exact (hX.log2_bounds hm).2.trans_le (zpow_le_zpow_right₀ one_le_two (h.resolve_right hb))
    · unfold Exact.power at hb
      simp only [cutTap, boundCut, if_neg hnot, if_pos hlow, if_neg hb, Bool.false_eq_true, if_false]

/-- The bits of a regime with its end, and their number. -/
def regimeBits (k : Int) : Nat × Nat :=
  if 0 ≤ k then ((2 ^ (k.toNat + 1) - 1) * 2, k.toNat + 2) else (1, (-k).toNat + 1)

/-- The place of a value by its unbounded string. -/
theorem taperPlace_regimeBits (n es : Nat) (k : ℤ) (e : Nat) (f : ℝ) (he : e < 2 ^ es) (h0 : 0 ≤ f) (h1 : f < 1) :
    taperPlace n es (2 ^ (k * 2 ^ es + e) * (1 + f))
      = ((regimeBits k).1 + (e + f) / 2 ^ es) * 2 ^ ((n : ℤ) - 1 - (regimeBits k).2) := by
  unfold regimeBits
  rcases lt_or_ge k 0 with hk | hk
  · rw [taperPlace_neg n es k hk e f he h0 h1, if_neg (not_le.2 hk)]
    push_cast
    congr 2
    omega
  · lift k to ℕ using hk
    rw [taperPlace_nonneg n es k (by omega) e f he h0 h1, if_pos (by omega), Int.toNat_natCast]
    have h2 : 1 ≤ 2 ^ (k + 1) := Nat.one_le_two_pow
    push_cast [h2]
    rw [show (n : ℤ) - 1 = (n : ℤ) - 1 - (k + 2) + 1 + (k + 1 : Nat) by push_cast; ring,
      show (n : ℤ) - 2 - k = (n : ℤ) - 1 - (k + 2) + 1 by ring, show (n : ℤ) - 3 - k = (n : ℤ) - 1 - (k + 2) by ring,
      show (n : ℤ) - 1 - (k + 2) + 1 + (k + 1 : Nat) - (k + 2) = (n : ℤ) - 1 - (k + 2) by push_cast; ring,
      zpow_add₀ two_ne_zero, zpow_natCast, zpow_add_one₀ two_ne_zero]
    ring

/-- The unbounded string and its length: regime, exponent bits and the digits of the fraction. -/
def unbounded (es : Nat) (x : Exact) : Nat × Nat :=
  let t := (x.mag.log2 : Int) + x.e
  let k := t / 2 ^ es
  ((((regimeBits k).1 <<< es) + (t - k * 2 ^ es).toNat) <<< x.mag.log2 ||| (x.mag - 2 ^ x.mag.log2),
    (regimeBits k).2 + es + x.mag.log2)

theorem cutTap_mid (n es : Nat) (x : Exact) (h1 : ¬ ((n - 2 : Nat) : ℤ) * 2 ^ es ≤ (x.mag.log2 : Int) + x.e)
    (h2 : ¬ ((x.mag.log2 : Int) + x.e < -(((n - 2 : Nat) : ℤ) * 2 ^ es)
      ∨ ((x.mag.log2 : Int) + x.e = -(((n - 2 : Nat) : ℤ) * 2 ^ es) ∧ x.power))) :
    cutTap n es x = cutShift (unbounded es x).1 (((n - 1 : Nat) : ℤ) - (unbounded es x).2) x.sticky := by
  unfold Exact.power at h2
  simp only [cutTap, if_neg h1, if_neg h2, unbounded, regimeBits]
  split <;> rfl

/-- A value by the power of two of its highest bit and the fraction behind it. -/
theorem Exact.Holds.eq_frac {x : Exact} {X : ℝ} (h : x.Holds X) (hm : x.mag ≠ 0) :
    ∃ θ, Rest x.sticky θ ∧ 0 ≤ ((x.mag - 2 ^ x.mag.log2 : Nat) + θ) / 2 ^ x.mag.log2
      ∧ ((x.mag - 2 ^ x.mag.log2 : Nat) + θ) / 2 ^ x.mag.log2 < 1
      ∧ X = 2 ^ ((x.mag.log2 : Int) + x.e) * (1 + ((x.mag - 2 ^ x.mag.log2 : Nat) + θ) / 2 ^ x.mag.log2) := by
  obtain ⟨θ, hθ, rfl⟩ := h
  have hle := Nat.log2_self_le hm
  have hlt := Nat.lt_log2_self (n := x.mag)
  rw [Nat.pow_succ] at hlt
  have hnat : ((x.mag - 2 ^ x.mag.log2 : Nat) : ℝ) + 1 ≤ 2 ^ x.mag.log2 := by
    exact_mod_cast (show x.mag - 2 ^ x.mag.log2 + 1 ≤ 2 ^ x.mag.log2 by omega)
  refine ⟨θ, hθ, ?_, ?_, ?_⟩
  · have := hθ.nonneg
    positivity
  · rw [div_lt_one (by positivity)]
    linarith [hθ.lt_one]
  · rw [zpow_add₀ two_ne_zero, zpow_natCast]
    push_cast [hle]
    field_simp
    ring

/-- An exponent by its regime and its es low bits. -/
theorem exists_exponent (t : Int) (es : Nat) : ∃ e : Nat, t - t / 2 ^ es * 2 ^ es = e ∧ e < 2 ^ es := by
  have hpos : (0 : ℤ) < 2 ^ es := by positivity
  have hmod : t - t / 2 ^ es * 2 ^ es = t % 2 ^ es := by rw [Int.emod_def, Int.mul_comm]
  have h0 := Int.emod_nonneg t hpos.ne'
  refine ⟨(t % 2 ^ es).toNat, by rw [hmod, Int.toNat_of_nonneg h0], ?_⟩
  have : ((t % 2 ^ es).toNat : Int) < (2 ^ es : Nat) := by
    rw [Int.toNat_of_nonneg h0]
    exact_mod_cast Int.emod_lt_of_pos t hpos
  exact_mod_cast this

/-- The cut inside the range stands at the value's place. -/
theorem cutTap_mid_at (n es : Nat) (x : Exact) (X : ℝ) (hn : 3 ≤ n) (hX : x.Holds X) (hm : x.mag ≠ 0)
    (hsticky : x.sticky = true → n < x.mag.log2) :
    (cutShift (unbounded es x).1 (((n - 1 : Nat) : ℤ) - (unbounded es x).2) x.sticky).At (taperPlace n es X) := by
  obtain ⟨θ, hθ, hf0, hf1, hXval⟩ := hX.eq_frac hm
  have hle := Nat.log2_self_le hm
  have hlt := Nat.lt_log2_self (n := x.mag)
  rw [Nat.pow_succ] at hlt
  obtain ⟨e, he, helt⟩ := exists_exponent ((x.mag.log2 : Int) + x.e) es
  have hlen : (unbounded es x).2 = (regimeBits (((x.mag.log2 : Int) + x.e) / 2 ^ es)).2 + es + x.mag.log2 := rfl
  have hfull : (unbounded es x).1
      = ((regimeBits (((x.mag.log2 : Int) + x.e) / 2 ^ es)).1 * 2 ^ es + e) * 2 ^ x.mag.log2 +
          (x.mag - 2 ^ x.mag.log2) := by
    simp only [unbounded, he, Int.toNat_natCast]
    rw [← Nat.shiftLeft_add_eq_or_of_lt (by omega), Nat.shiftLeft_eq, Nat.shiftLeft_eq]
  generalize ((x.mag.log2 : Int) + x.e) / 2 ^ es = k at he hlen hfull
  have hplace : taperPlace n es X = ((unbounded es x).1 + θ) * 2 ^ (((n - 1 : Nat) : ℤ) - (unbounded es x).2) := by
    rw [hXval, show (x.mag.log2 : Int) + x.e = k * 2 ^ es + e by omega, taperPlace_regimeBits n es k e _ helt hf0 hf1,
      hfull, hlen]
    generalize x.mag - 2 ^ x.mag.log2 = tail
    push_cast [show 1 ≤ n by omega]
    rw [show (n : ℤ) - 1 - ((regimeBits k).2 + es + x.mag.log2)
        = (n : ℤ) - 1 - (regimeBits k).2 - (es : Nat) - (x.mag.log2 : Nat)
      by ring, zpow_sub₀ two_ne_zero _ (x.mag.log2 : ℤ), zpow_sub₀ two_ne_zero _ (es : ℤ), zpow_natCast, zpow_natCast]
    field_simp
    ring
  rw [hplace]
  refine cutShift_at _ _ _ θ hθ fun hs => ?_
  have := hsticky hs
  omega

/-- Between minpos and maxpos a value has a place between the first string and the last. -/
theorem taperPlace_range (n es : Nat) (X : ℝ) (hn : 3 ≤ n) (h1 : 2 ^ (-(((n - 2 : Nat) : ℤ) * 2 ^ es)) ≤ X)
    (h2 : X < 2 ^ (((n - 2 : Nat) : ℤ) * 2 ^ es)) : 1 ≤ taperPlace n es X ∧ taperPlace n es X < 2 ^ (n - 1) - 1 := by
  have hpos : ∀ k : ℤ, (2 : ℝ) ^ k ∈ Set.Ioi 0 := fun k => Set.mem_Ioi.2 (by positivity)
  have hX : X ∈ Set.Ioi 0 := lt_of_lt_of_le (hpos _) h1
  exact ⟨(taperPlace_min n es hn).symm.trans_le ((taperPlace_strictMonoOn n es).monotoneOn (hpos _) hX h1),
    (taperPlace_strictMonoOn n es hX (hpos _) h2).trans_eq (taperPlace_max n es (by omega))⟩

end Sys2Proof.Machine
end

section
/-! ### What a rounding can give (R115) -/

namespace Sys2Proof.Machine

/-- The value of a magnitude string of a Float format; of an IEEE-style format also the one after the largest. -/
noncomputable def magValue (f : Fmt) (u : Nat) : ℝ :=
  match Fmt.ieee f, f with
  | some p, _ => ieeeValue p u
  | none, .tap w es => tapValue w.bits es.toNat u
  | none, _ => 0

theorem magValue_ieee {f : Fmt} {p : Ieee} (h : Fmt.ieee f = some p) (u : Nat) : magValue f u = ieeeValue p u := by
  simp only [magValue, h]

theorem magValue_tap (w : LaneW) (es : BitVec 2) (u : Nat) : magValue (.tap w es) u = tapValue w.bits es.toNat u := rfl

/-- The last string of the scale: maxpos, or the string of infinity. -/
def topMag (f : Fmt) : Nat := if isTap f then maxFiniteMag f else infMag f

theorem topMag_ieee {f : Fmt} {p : Ieee} (h : Fmt.ieee f = some p) : topMag f = infMag f := by
  simp [topMag, ieee_isTap h]

theorem topMag_tap (w : LaneW) (es : BitVec 2) : topMag (.tap w es) = 2 ^ (w.bits - 1) - 1 := rfl

theorem isFloat_cases {f : Fmt} (h : f.isFloat = true) : (∃ w es, f = .tap w es) ∨ ∃ p, Fmt.ieee f = some p := by
  cases f with
  | int => cases h
  | tap w es => exact .inl ⟨w, es, rfl⟩
  | f32 | bf16 | e4m3 | e5m2 => exact .inr ⟨_, rfl⟩

theorem bits_ge (w : LaneW) : 8 ≤ w.bits ∧ w.bits ≤ 32 := by
  cases w <;> decide

theorem magValue_zero (f : Fmt) (h : f.isFloat = true) : magValue f 0 = 0 := by
  rcases isFloat_cases h with ⟨w, es, rfl⟩ | ⟨p, hp⟩
  · exact tapValue_zero _ _
  · rw [magValue_ieee hp, ieeeValue_zero]

theorem magValue_strictMonoOn (f : Fmt) (h : f.isFloat = true) : StrictMonoOn (magValue f) (Set.Iic (topMag f)) := by
  intro u _ v hv huv
  rcases isFloat_cases h with ⟨w, es, rfl⟩ | ⟨p, hp⟩
  · have hpos : 0 < 2 ^ (w.bits - 1) := by positivity
    rw [Set.mem_Iic, topMag_tap] at hv
    exact tapValue_strictMono _ _ u v (by have := bits_ge w; omega) huv (by omega)
  · rw [magValue_ieee hp, magValue_ieee hp]
    exact ieeeValue_strictMono p huv

theorem magValue_pos (f : Fmt) (h : f.isFloat = true) (u : Nat) (h0 : u ≠ 0) (hu : u ≤ topMag f) :
    0 < magValue f u := by
  rw [← magValue_zero f h]
  exact magValue_strictMonoOn f h (Nat.zero_le _) hu (Nat.pos_of_ne_zero h0)

theorem magValue_nonneg (f : Fmt) (h : f.isFloat = true) (u : Nat) (hu : u ≤ topMag f) : 0 ≤ magValue f u := by
  rw [← magValue_zero f h]
  exact (magValue_strictMonoOn f h).monotoneOn (Nat.zero_le _) hu (Nat.zero_le _)

/-- The largest finite string is the last one, or the one below infinity. -/
theorem maxFinite_le_top (f : Fmt) (h : f.isFloat = true) :
    maxFiniteMag f ≤ topMag f ∧ topMag f ≤ maxFiniteMag f + 1 ∧ 1 ≤ maxFiniteMag f
        ∧ topMag f < 2 ^ (f.width.bits - 1) := by
  rcases isFloat_cases h with ⟨w, es, rfl⟩ | ⟨p, hp⟩
  · have h2 : 2 ^ 1 < 2 ^ (w.bits - 1) := Nat.pow_lt_pow_right one_lt_two (by have := bits_ge w; omega)
    rw [topMag_tap]
    simp only [maxFiniteMag, Fmt.width]
    omega
  · have h1 := ieee_maxFinite hp
    have h2 := ieee_infMag_lt hp
    have h3 := ieee_le_infMag hp
    have h4 : 2 ^ 1 ≤ 2 ^ p.m := Nat.pow_le_pow_right two_pos (ieee_sizes hp).1
    rw [topMag_ieee hp, ieee_width hp, Nat.add_sub_cancel]
    omega

/-! #### Strings with a sign -/

/-- A signed magnitude string (Apply of Table 5-5). -/
def strOf (f : Fmt) (neg : Bool) (u : Nat) : Nat :=
  if isTap f then (if neg then (2 ^ f.width.bits - u) % 2 ^ f.width.bits else u) else withSign f.width.bits neg u

theorem strOf_ieee {f : Fmt} {p : Ieee} (h : Fmt.ieee f = some p) (neg : Bool) (u : Nat) :
    strOf f neg u = withSign f.width.bits neg u := by
  simp [strOf, ieee_isTap h]

/-- b names the value of x (the `val` of the obligation on rounding). -/
def Names (f : Fmt) (b : Nat) (x : Dyadic) : Prop :=
  b < 2 ^ f.width.bits ∧ (decodeFmt f b = .fin x ∨ (∃ g, decodeFmt f b = .zero g) ∧ x.m = 0)

theorem Dyadic.real_of_m_eq_zero {x : Dyadic} (h : x.m = 0) : x.real = 0 := by
  simp [Dyadic.real, h]

theorem Dyadic.real_neg (x : Dyadic) : x.neg.real = -x.real := by
  simp [Dyadic.real, Dyadic.neg]

/-- A string names one value. -/
theorem Names.unique {f : Fmt} {b : Nat} {x y : Dyadic} (hx : Names f b x) (hy : Names f b y) : x.real = y.real := by
  obtain ⟨-, hx | ⟨⟨g, hg⟩, hx⟩⟩ := hx <;> obtain ⟨-, hy | ⟨⟨g', hg'⟩, hy⟩⟩ := hy
  · rw [hx, Val.fin.injEq] at hy
    rw [hy]
  · rw [hx] at hg'
    cases hg'
  · rw [hg] at hy
    cases hy
  · rw [Dyadic.real_of_m_eq_zero hx, Dyadic.real_of_m_eq_zero hy]

theorem withSign_lt (n u : Nat) (neg : Bool) (hn : 1 ≤ n) (hu : u < 2 ^ (n - 1)) : withSign n neg u < 2 ^ n := by
  have h2 := Nat.two_pow_pred_mul_two (w := n) hn
  unfold withSign
  split <;> omega

theorem strOf_lt (f : Fmt) (neg : Bool) (u : Nat) (hu : u < 2 ^ (f.width.bits - 1)) :
    strOf f neg u < 2 ^ f.width.bits := by
  have hb := (bits_ge f.width).1
  have hle : 2 ^ (f.width.bits - 1) ≤ 2 ^ f.width.bits := Nat.pow_le_pow_right two_pos (Nat.sub_le _ _)
  unfold strOf
  split
  · split
    · exact Nat.mod_lt _ (by positivity)
    · omega
  · exact withSign_lt _ u neg (by omega) hu

theorem decode_strOf_zero (f : Fmt) (h : f.isFloat = true) (neg : Bool) :
    ∃ g, decodeFmt f (strOf f neg 0) = .zero g := by
  rcases isFloat_cases h with ⟨w, es, rfl⟩ | ⟨p, hp⟩
  · have : strOf (.tap w es) neg 0 = 0 := by cases neg <;> simp [strOf, isTap]
    exact ⟨false, by rw [this]; rfl⟩
  · have hpos : 0 < 2 ^ p.m := by positivity
    exact ⟨neg, strOf_ieee hp neg 0 ▸ (decodeIeee_finite hp neg 0 (hpos.trans_le (ieee_le_infMag hp))).1 rfl⟩

/-- Every finite magnitude string, with a sign, names its value. -/
theorem names_strOf (f : Fmt) (h : f.isFloat = true) (neg : Bool) (u : Nat) (hu : u ≤ maxFiniteMag f) :
    ∃ x, Names f (strOf f neg u) x ∧ x.real = sgn neg * magValue f u := by
  obtain ⟨hmax, -, -, htop⟩ := maxFinite_le_top f h
  have hlt := strOf_lt f neg u (by omega)
  have hb := (bits_ge f.width).1
  rcases Nat.eq_zero_or_pos u with rfl | h0
  · exact ⟨{ m := 0, e := 0 }, ⟨hlt, .inr ⟨decode_strOf_zero f h neg, rfl⟩⟩, by simp [Dyadic.real, magValue_zero f h]⟩
  · rcases isFloat_cases h with ⟨w, es, rfl⟩ | ⟨p, hp⟩
    · have hw : u < 2 ^ (w.bits - 1) := lt_of_le_of_lt (hu.trans hmax) htop
      have hval : (tapDyadic w.bits es.toNat u).real = magValue (.tap w es) u := by
        rw [magValue_tap, tapValue, if_neg h0.ne']
      cases neg
      · refine ⟨tapDyadic w.bits es.toNat u, ⟨hlt, .inl (decodeT_pos _ _ u h0.ne' hw)⟩, by simp [sgn, hval]⟩
      · have hle : 2 ^ (w.bits - 1) ≤ 2 ^ w.bits := Nat.pow_le_pow_right two_pos (Nat.sub_le _ _)
        have hstr : strOf (.tap w es) true u = 2 ^ w.bits - u := by
          simp only [strOf, isTap, if_true, Fmt.width]
          exact Nat.mod_eq_of_lt (by omega)
        refine ⟨(tapDyadic w.bits es.toNat u).neg, ⟨hlt, .inl ?_⟩, by simp [sgn, hval, Dyadic.real_neg]⟩
        rw [hstr]
        exact decodeT_neg _ _ u (by have := bits_ge w; omega) h0.ne' hw
    · have := ieee_maxFinite hp
      obtain ⟨x, hx, hr⟩ := (decodeIeee_finite hp neg u (by omega)).2 h0.ne'
      rw [← strOf_ieee hp] at hx
      exact ⟨x, ⟨hlt, .inl hx⟩, by rw [hr, magValue_ieee hp]⟩

/-- Every string is a signed magnitude string: a finite one, or one without a value. -/
theorem exists_strOf (f : Fmt) (h : f.isFloat = true) (b : Nat) (hb : b < 2 ^ f.width.bits) :
    ∃ neg u, b = strOf f neg u ∧ (u ≤ maxFiniteMag f ∨ ∀ x, ¬ Names f b x) := by
  have hw := (bits_ge f.width).1
  rcases isFloat_cases h with ⟨w, es, rfl⟩ | ⟨p, hp⟩
  · simp only [Fmt.width] at hb hw
    have h2 := Nat.two_pow_pred_mul_two (w := w.bits) (by omega)
    rcases lt_trichotomy b (2 ^ (w.bits - 1)) with hlt | heq | hgt
    · exact ⟨false, b, rfl, .inl (by simp only [maxFiniteMag]; omega)⟩
    · refine ⟨false, b, rfl, .inr ?_⟩
      have hpos : 0 < 2 ^ (w.bits - 1) := by positivity
      have hdec : decodeFmt (.tap w es) b = .nar := by
        simp only [decodeFmt, decodeT, heq, if_neg hpos.ne', if_true]
      rintro x ⟨-, hx | ⟨⟨g, hg⟩, -⟩⟩ <;> simp_all
    · refine ⟨true, 2 ^ w.bits - b, ?_, .inl (by simp only [maxFiniteMag]; omega)⟩
      simp only [strOf, isTap, if_true, Fmt.width]
      rw [Nat.sub_sub_self hb.le, Nat.mod_eq_of_lt hb]
  · rw [ieee_width hp] at hb
    obtain ⟨neg, u, hu, rfl⟩ := exists_withSign _ b hb
    refine ⟨neg, u, by rw [strOf_ieee hp, ieee_width hp], ?_⟩
    have hmax := ieee_maxFinite hp
    rcases lt_or_ge u (infMag f) with hlt | hge
    · exact .inl (by omega)
    · refine .inr ?_
      have hdec := decodeIeee_special hp neg u hge hu
      rw [ieee_width hp] at hdec
      rintro x ⟨-, hx | ⟨⟨g, hg⟩, -⟩⟩ <;> rcases hdec with hd | hd <;> simp_all

/-- A string that names a value is a signed finite magnitude string. -/
theorem Names.exists_mag {f : Fmt} (h : f.isFloat = true) {b : Nat} {x : Dyadic} (hx : Names f b x) :
    ∃ neg u, b = strOf f neg u ∧ u ≤ maxFiniteMag f ∧ x.real = sgn neg * magValue f u := by
  obtain ⟨neg, u, rfl, hu | hno⟩ := exists_strOf f h b hx.1
  · obtain ⟨y, hy, hr⟩ := names_strOf f h neg u hu
    exact ⟨neg, u, rfl, hu, by rw [hx.unique hy, hr]⟩
  · exact absurd hx (hno x)

/-- The string of infinity names no value. -/
theorem not_names_infMag {f : Fmt} {p : Ieee} (hp : Fmt.ieee f = some p) (neg : Bool) (x : Dyadic) :
    ¬ Names f (strOf f neg (infMag f)) x := by
  have hdec := decodeIeee_special hp neg (infMag f) le_rfl (ieee_infMag_lt hp)
  rw [← strOf_ieee hp] at hdec
  rintro ⟨-, hx | ⟨⟨g, hg⟩, -⟩⟩ <;> rcases hdec with hd | hd <;> simp_all

/-! #### The cases -/

/-- The flags of an inexact result below overflow of the cut (Table 5-5). -/
def inexactFlags (f : Fmt) (u : Nat) : Flags :=
  match Fmt.ieee f with
  | none => flInx
  | some p => if infMag f ≤ u then flInx ||| flOvf else if u < 2 ^ p.m then flInx ||| flUnf else flInx

/-- Of the strings c and c + 1 around X, u is the nearer one, and the even one of a tie. -/
def NearestOf (f : Fmt) (X : ℝ) (c u : Nat) : Prop :=
  (u = c → 2 * X ≤ magValue f c + magValue f (c + 1) ∧ (2 * X = magValue f c + magValue f (c + 1) → c % 2 = 0))
  ∧ (u = c + 1 → magValue f c + magValue f (c + 1) ≤ 2 * X ∧ (2 * X = magValue f c + magValue f (c + 1) → c % 2 = 1))

/-- The magnitude string and the flags that RoundT can give for the positive value X. -/
inductive RoundCase (f : Fmt) (mode : RMode) (X : ℝ) : Nat → Flags → Prop where
  | value (u : Nat) (hu : u ≤ maxFiniteMag f) (hX : X = magValue f u) : RoundCase f mode X u 0
  | between (c u : Nat) (hc : c < topMag f) (hlo : magValue f c < X) (hhi : X < magValue f (c + 1))
      (hu : u = c ∨ u = c + 1)
      (htap : isTap f = true → c ≠ 0) (hnear : isTap f = false → mode = .nearest → NearestOf f X c u)
      (hzero : mode = .stochastic 0 → u = c) : RoundCase f mode X u (inexactFlags f u)
  | overflow (fl : Flags) (hf : isTap f = false) (hfl : fl = flOvf ∨ fl = flInx ||| flOvf)
      (hX : magValue f (infMag f) ≤ X) :
      RoundCase f mode X (infMag f) fl
  | clampHigh (hf : isTap f = true) (hX : magValue f (maxFiniteMag f) < X) :
      RoundCase f mode X (maxFiniteMag f) (flClmp ||| flInx)
  | clampLow (hf : isTap f = true) (hX : X < magValue f 1) : RoundCase f mode X 1 (flClmp ||| flInx)

theorem roundExact_ieee {f : Fmt} {p : Ieee} (h : Fmt.ieee f = some p) (mode : RMode) (neg : Bool) (x : Exact) :
    roundExact f mode neg x
        = applyIeee f p neg (cutIeee p x).inexact ((cutIeee p x).round mode).1 ((cutIeee p x).round mode).2 := by
  cases f with
  | int | tap => cases h
  | f32 | bf16 | e4m3 | e5m2 => cases h; rfl

theorem roundExact_tap (w : LaneW) (es : BitVec 2) (mode : RMode) (neg : Bool) (x : Exact) :
    roundExact (.tap w es) mode neg x
      = (strOf (.tap w es) neg ((cutTap w.bits es.toNat x).round mode).1,
          ((cutTap w.bits es.toNat x).round mode).2) := rfl

/-- A cut with a tail, in proportion between two strings, rounds in mode nearest to the nearer one. -/
theorem nearestOf_of_at {f : Fmt} {p : Ieee} (h : Fmt.ieee f = some p) {c : CutResult} {P X : ℝ} (hat : c.At P)
    (hc : c.inexact = true) (hval : X = ieeeValue p c.u + (P - c.u) * (ieeeValue p (c.u + 1) - ieeeValue p c.u)) :
    NearestOf f X c.u (if c.up .nearest then c.u + 1 else c.u) := by
  obtain ⟨hup, hdown⟩ := hat.up_nearest
  have hd := sub_pos.2 (ieeeValue_lt_succ p c.u)
  have hmid : 2 * X - (ieeeValue p c.u + ieeeValue p (c.u + 1))
      = (2 * P - (2 * c.u + 1)) * (ieeeValue p (c.u + 1) - ieeeValue p c.u) := by rw [hval]; ring
  have htie : 2 * X = ieeeValue p c.u + ieeeValue p (c.u + 1) → 2 * P = 2 * c.u + 1 := fun he => by
    rw [sub_eq_zero.2 he] at hmid
    exact sub_eq_zero.1 ((mul_eq_zero.1 hmid.symm).resolve_right hd.ne')
  simp only [NearestOf, magValue_ieee h]
  cases hb : c.up .nearest
  · obtain ⟨h1, h2⟩ := hdown hb hc
    have := mul_nonneg (sub_nonneg.2 h1) hd.le
    exact ⟨fun _ => ⟨by linarith, fun he => h2 (htie he)⟩, fun h => absurd h (by simp)⟩
  · obtain ⟨h1, h2⟩ := hup hb
    have := mul_nonneg (sub_nonneg.2 h1) hd.le
    exact ⟨fun h => absurd h (by simp), fun _ => ⟨by linarith, fun he => h2 (htie he)⟩⟩

theorem round_ieee_case {f : Fmt} {p : Ieee} (h : Fmt.ieee f = some p) (mode : RMode) (neg : Bool) (x : Exact) (X : ℝ)
    (hX : x.Holds X) (hm : x.mag ≠ 0) (hwide : x.sticky = true → 32 < x.mag.log2) :
    ∃ u fl, roundExact f mode neg x = (strOf f neg u, fl) ∧ RoundCase f mode X u fl := by
  obtain ⟨hfl, P, hat, hval⟩ := cutIeee_at p x X hX hm fun hs => by have := hwide hs; have := (ieee_sizes h).2; omega
  have hmax := ieee_maxFinite h
  have hnt := ieee_isTap h
  have hstr : ∀ u, withSign (fmtBits f) neg u = strOf f neg u := fun u => (strOf_ieee h neg u).symm
  have hinf : ∀ u, infMag f ≤ u → magValue f (infMag f) ≤ magValue f u := fun u hu => by
    rw [magValue_ieee h, magValue_ieee h]
    exact (ieeeValue_strictMono p).monotone hu
  rw [roundExact_ieee h]
  generalize cutIeee p x = c at *
  cases hc : c.inexact
  · have hX' : X = magValue f c.u := by
      rw [magValue_ieee h, hval, hat.eq_of_exact hc]
      ring
    rw [c.round_of_exact mode hc, hfl]
    simp only [applyIeee, hstr, Bool.false_and, Bool.false_eq_true, if_false]
    split
    case isTrue hge => exact ⟨_, _, rfl, .overflow _ hnt (.inl rfl) (hX' ▸ hinf _ hge)⟩
    case isFalse hlt => exact ⟨_, _, rfl, .value _ (by omega) hX'⟩
  · obtain ⟨hPlo, hPhi⟩ := hat.between_of_inexact hc
    have hstep := sub_pos.2 (ieeeValue_lt_succ p c.u)
    have hlo : magValue f c.u < X := by
      have := mul_pos (sub_pos.2 hPlo) hstep
      rw [magValue_ieee h]
      linarith
    have hhi : X < magValue f (c.u + 1) := by
      have := mul_lt_mul_of_pos_right (show P - c.u < 1 by linarith) hstep
      rw [magValue_ieee h]
      linarith
    have hnear := nearestOf_of_at h hat hc hval
    have hzero := hat.up_zero
    rw [c.round_of_inexact mode hc, hfl]
    simp only [applyIeee, hstr]
    rcases lt_or_ge c.u (infMag f) with hlt | hge
    · have hu : (if c.up mode then c.u + 1 else c.u) = c.u ∨ (if c.up mode then c.u + 1 else c.u) = c.u + 1 := by
        split <;> simp
      refine ⟨_, inexactFlags f (if c.up mode then c.u + 1 else c.u), ?_,
          .between c.u _ (by rwa [topMag_ieee h]) hlo hhi hu
        (by simp [hnt]) (fun _ hmode => hmode ▸ hnear) (fun hmode => by rw [hmode, hzero]; rfl)⟩
      generalize (if c.up mode then c.u + 1 else c.u) = u at hu
      simp only [inexactFlags, h, Bool.true_and, decide_eq_true_eq]
      split
      case isTrue hle =>
        obtain rfl : u = infMag f := by omega
        rfl
      case isFalse => split <;> rfl
    · rw [if_pos (by split <;> omega)]
      exact ⟨_, _, rfl, .overflow _ hnt (.inr rfl) ((hinf _ hge).trans hlo.le)⟩

/-- Inside the range of a tapered format the cut stands between two of its strings. -/
theorem round_tap_mid (w : LaneW) (es : BitVec 2) (mode : RMode) {c : CutResult} {X : ℝ} (hfl : c.flags = 0)
    (hat : c.At (taperPlace w.bits es.toNat X)) (hX : 0 < X) (h1 : 1 ≤ taperPlace w.bits es.toNat X)
    (h2 : taperPlace w.bits es.toNat X < 2 ^ (w.bits - 1) - 1) :
    RoundCase (.tap w es) mode X (c.round mode).1 (c.round mode).2 := by
  have hn : 2 ≤ w.bits := by have := bits_ge w; omega
  obtain ⟨hlo, hhi⟩ := hat.floor
  have hu1 : c.u ≠ 0 := by
    intro h0
    rw [h0, Nat.cast_zero, zero_add] at hhi
    linarith
  have hu2 : c.u + 1 < 2 ^ (w.bits - 1) := by
    have : (c.u : ℝ) + 1 < 2 ^ (w.bits - 1) := by linarith
    exact_mod_cast this
  cases hc : c.inexact
  · rw [c.round_of_exact mode hc, hfl]
    exact .value _ (by simp only [maxFiniteMag]; omega)
      ((tapValue_eq_iff _ _ _ X hn hu1 (by omega) hX).2 (hat.eq_of_exact hc))
  · obtain ⟨hPlo, hPhi⟩ := hat.between_of_inexact hc
    have hzero := hat.up_zero
    rw [c.round_of_inexact mode hc, hfl]
    exact .between c.u _ (by rw [topMag_tap]; omega) ((tapValue_lt_iff _ _ _ X hn hu1 (by omega) hX).2 hPlo)
      ((lt_tapValue_iff _ _ _ X hn (by omega) hu2 hX).2 (by push_cast; exact hPhi))
      (by split <;> simp) (fun _ => hu1) (by simp [isTap]) (fun hmode => by rw [hmode, hzero]; rfl)

theorem round_tap_case (w : LaneW) (es : BitVec 2) (mode : RMode) (neg : Bool) (x : Exact) (X : ℝ)
    (hX : x.Holds X) (hm : x.mag ≠ 0) (hwide : x.sticky = true → 32 < x.mag.log2) :
    ∃ u fl, roundExact (.tap w es) mode neg x = (strOf (.tap w es) neg u, fl) ∧ RoundCase (.tap w es) mode X u fl := by
  obtain ⟨hw8, hw32⟩ := bits_ge w
  have hn : 3 ≤ w.bits := by omega
  have hpow : 2 ^ 1 < 2 ^ (w.bits - 1) := Nat.pow_lt_pow_right one_lt_two (by omega)
  obtain ⟨hXlo, hXhi⟩ := hX.log2_bounds hm
  rw [roundExact_tap]
  by_cases h1 : ((w.bits - 2 : Nat) : ℤ) * 2 ^ es.toNat ≤ (x.mag.log2 : Int) + x.e
  · rcases cutTap_high w.bits es.toNat x X hn hX hm h1 with ⟨hval, hcut⟩ | ⟨hval, hcut⟩ <;> rw [hcut, boundCut_round]
    · exact ⟨_, _, rfl, .value _ le_rfl hval⟩
    · exact ⟨_, _, rfl, .clampHigh rfl hval⟩
  by_cases h2 : (x.mag.log2 : Int) + x.e < -(((w.bits - 2 : Nat) : ℤ) * 2 ^ es.toNat)
      ∨ ((x.mag.log2 : Int) + x.e = -(((w.bits - 2 : Nat) : ℤ) * 2 ^ es.toNat) ∧ x.power)
  · rcases cutTap_low w.bits es.toNat x X hn hX hm h2 with ⟨hval, hcut⟩ | ⟨hval, hcut⟩ <;> rw [hcut, boundCut_round]
    · exact ⟨_, _, rfl, .value _ (by simp only [maxFiniteMag]; omega) hval⟩
    · exact ⟨_, _, rfl, .clampLow rfl hval⟩
  rw [cutTap_mid w.bits es.toNat x h1 h2]
  obtain ⟨hmin, hmax⟩ := taperPlace_range w.bits es.toNat X hn
    ((zpow_le_zpow_right₀ one_le_two (not_lt.1 (not_or.1 h2).1)).trans hXlo)
    (hXhi.trans_le (zpow_le_zpow_right₀ one_le_two (by omega)))
  exact ⟨_, _, rfl, round_tap_mid w es mode (cutShift_flags _ _ _)
    (cutTap_mid_at w.bits es.toNat x X hn hX hm fun hs => by have := hwide hs; omega)
    (lt_of_lt_of_le (by positivity) hXlo) hmin hmax⟩

/-- What RoundT gives for an exact value that stands for X: one of the cases. -/
theorem roundExact_case (f : Fmt) (h : f.isFloat = true) (mode : RMode) (neg : Bool) (x : Exact) (X : ℝ)
    (hX : x.Holds X) (hm : x.mag ≠ 0) (hwide : x.sticky = true → 32 < x.mag.log2) :
    ∃ u fl, roundExact f mode neg x = (strOf f neg u, fl) ∧ RoundCase f mode X u fl := by
  rcases isFloat_cases h with ⟨w, es, rfl⟩ | ⟨p, hp⟩
  · exact round_tap_case w es mode neg x X hX hm hwide
  · exact round_ieee_case hp mode neg x X hX hm hwide

end Sys2Proof.Machine
end

section
/-! ### RoundT of an exact dyadic (R113, R115 to R117) -/

namespace Sys2Proof.Machine

/-! #### Comparison in units of a power of two -/

/-- x in units of 2^e (the `sc` of the obligation on rounding). -/
def Dyadic.inUnits (e : Int) (x : Dyadic) : Int := x.m * 2 ^ (x.e - e).toNat

theorem inUnits_cast (e : Int) (x : Dyadic) (h : e ≤ x.e) : (x.inUnits e : ℝ) = x.real * 2 ^ (-e) := by
  obtain ⟨k, hk⟩ : ∃ k : Nat, x.e - e = k := ⟨_, (Int.toNat_of_nonneg (by omega)).symm⟩
  rw [Dyadic.inUnits, Dyadic.real, mul_assoc, ← zpow_add₀ two_ne_zero, ← sub_eq_add_neg, hk, zpow_natCast,
      Int.toNat_natCast]
  push_cast
  rfl

theorem inUnits_lt_iff {e : Int} {x y : Dyadic} (hx : e ≤ x.e) (hy : e ≤ y.e) :
    x.inUnits e < y.inUnits e ↔ x.real < y.real := by
  rw [← Int.cast_lt (R := ℝ), inUnits_cast e x hx, inUnits_cast e y hy]
  exact mul_lt_mul_iff_left₀ (by positivity)

theorem inUnits_eq_iff {e : Int} {x y : Dyadic} (hx : e ≤ x.e) (hy : e ≤ y.e) :
    x.inUnits e = y.inUnits e ↔ x.real = y.real := by
  rw [← Int.cast_inj (α := ℝ), inUnits_cast e x hx, inUnits_cast e y hy]
  exact mul_left_inj' (by positivity)

theorem inUnits_natAbs_lt_iff {e : Int} {x y : Dyadic} (hx : e ≤ x.e) (hy : e ≤ y.e) :
    (x.inUnits e).natAbs < (y.inUnits e).natAbs ↔ |x.real| < |y.real| := by
  have hp : (0 : ℝ) < 2 ^ (-e) := by positivity
  rw [← Nat.cast_lt (α := ℝ), Nat.cast_natAbs, Nat.cast_natAbs, Int.cast_abs, Int.cast_abs, inUnits_cast e x hx,
    inUnits_cast e y hy, abs_mul, abs_mul, abs_of_pos hp]
  exact mul_lt_mul_iff_left₀ hp

theorem inUnits_natAbs_le_iff {e : Int} {x y : Dyadic} (hx : e ≤ x.e) (hy : e ≤ y.e) :
    (x.inUnits e).natAbs ≤ (y.inUnits e).natAbs ↔ |x.real| ≤ |y.real| := by
  rw [← not_lt, inUnits_natAbs_lt_iff hy hx, not_lt]

theorem inUnits_sub_cast {e : Int} {x d : Dyadic} (hx : e ≤ x.e) (hd : e ≤ d.e) :
    (((x.inUnits e - d.inUnits e).natAbs : Nat) : ℝ) = |x.real - d.real| * 2 ^ (-e) := by
  have hp : (0 : ℝ) < 2 ^ (-e) := by positivity
  rw [Nat.cast_natAbs, Int.cast_abs, Int.cast_sub, inUnits_cast e x hx, inUnits_cast e d hd, ← sub_mul, abs_mul,
    abs_of_pos hp]

theorem inUnits_dist_le_iff {e : Int} {x y d : Dyadic} (hx : e ≤ x.e) (hy : e ≤ y.e) (hd : e ≤ d.e) :
    (x.inUnits e - d.inUnits e).natAbs ≤ (y.inUnits e - d.inUnits e).natAbs
        ↔ |x.real - d.real| ≤ |y.real - d.real| := by
  rw [← Nat.cast_le (α := ℝ), inUnits_sub_cast hx hd, inUnits_sub_cast hy hd]
  exact mul_le_mul_iff_left₀ (by positivity)

theorem inUnits_dist_eq_iff {e : Int} {x y d : Dyadic} (hx : e ≤ x.e) (hy : e ≤ y.e) (hd : e ≤ d.e) :
    (x.inUnits e - d.inUnits e).natAbs = (y.inUnits e - d.inUnits e).natAbs
        ↔ |x.real - d.real| = |y.real - d.real| := by
  rw [← Nat.cast_inj (R := ℝ), inUnits_sub_cast hx hd, inUnits_sub_cast hy hd]
  exact mul_left_inj' (by positivity)

/-! #### The cases against the values of a format -/

/-- The reals that strings of a format name. -/
def IsValue (f : Fmt) (Y : ℝ) : Prop := ∃ neg u, u ≤ maxFiniteMag f ∧ Y = sgn neg * magValue f u

theorem Names.isValue {f : Fmt} (h : f.isFloat = true) {b : Nat} {x : Dyadic} (hx : Names f b x) :
    IsValue f x.real := by
  obtain ⟨neg, u, -, hu, hr⟩ := hx.exists_mag h
  exact ⟨neg, u, hu, hr⟩

theorem IsValue.neg {f : Fmt} {Y : ℝ} (hY : IsValue f Y) : IsValue f (-Y) := by
  obtain ⟨neg, u, hu, rfl⟩ := hY
  exact ⟨!neg, u, hu, by cases neg <;> simp [sgn]⟩

theorem IsValue.mul_sgn {f : Fmt} {Y : ℝ} (hY : IsValue f Y) (neg : Bool) : IsValue f (sgn neg * Y) := by
  cases neg
  · simpa [sgn] using hY
  · simpa [sgn] using hY.neg

/-- A value is that of a magnitude string, or negative. -/
theorem IsValue.cases {f : Fmt} (h : f.isFloat = true) {Y : ℝ} (hY : IsValue f Y) :
    (∃ v, v ≤ maxFiniteMag f ∧ Y = magValue f v) ∨ Y < 0 := by
  obtain ⟨neg, v, hv, rfl⟩ := hY
  cases neg
  · exact .inl ⟨v, hv, by simp [sgn]⟩
  · rcases Nat.eq_zero_or_pos v with rfl | h0
    · exact .inl ⟨0, hv, by simp [magValue_zero f h]⟩
    · have := magValue_pos f h v h0.ne' (hv.trans (maxFinite_le_top f h).1)
      exact .inr (by simp [sgn, this])

variable {f : Fmt} {mode : RMode} {X : ℝ} {u : Nat} {fl : Flags}

theorem RoundCase.le_top (h : f.isFloat = true) (hc : RoundCase f mode X u fl) : u ≤ topMag f := by
  obtain ⟨hmax, -, hone, -⟩ := maxFinite_le_top f h
  cases hc with
  | value _ hu => exact hu.trans hmax
  | between c _ hc _ _ hu => omega
  | overflow _ hf => simp [topMag, hf]
  | clampHigh => exact hmax
  | clampLow => exact hone.trans hmax

/-- Magnitude strings compare as their values. -/
theorem magValue_lt_iff (h : f.isFloat = true) {v w : Nat} (hv : v ≤ topMag f) (hw : w ≤ topMag f) :
    magValue f v < magValue f w ↔ v < w := (magValue_strictMonoOn f h).lt_iff_lt hv hw

theorem magValue_le_iff (h : f.isFloat = true) {v w : Nat} (hv : v ≤ topMag f) (hw : w ≤ topMag f) :
    magValue f v ≤ magValue f w ↔ v ≤ w := (magValue_strictMonoOn f h).le_iff_le hv hw

/-- The string of infinity is above every finite one. -/
theorem maxFinite_lt_infMag (h : f.isFloat = true) (hf : isTap f = false) :
    maxFiniteMag f < infMag f ∧ infMag f = topMag f := by
  rcases isFloat_cases h with ⟨w, es, rfl⟩ | ⟨p, hp⟩
  · simp [isTap] at hf
  · have := ieee_maxFinite hp
    exact ⟨by omega, (topMag_ieee hp).symm⟩

/-- A value of the format rounds to its own string, without a flag. -/
theorem RoundCase.of_value (h : f.isFloat = true) (hX : 0 < X) (hc : RoundCase f mode X u fl) {v : Nat}
    (hv : v ≤ maxFiniteMag f) (he : X = magValue f v) : u = v ∧ fl = 0 := by
  obtain ⟨hmax, -, hone, -⟩ := maxFinite_le_top f h
  subst he
  cases hc with
  | value _ hu hX => exact ⟨(magValue_strictMonoOn f h).injOn (hu.trans hmax) (hv.trans hmax) hX.symm, rfl⟩
  | between c _ hc hlo hhi =>
    rw [magValue_lt_iff h hc.le (hv.trans hmax)] at hlo
    rw [magValue_lt_iff h (hv.trans hmax) hc] at hhi
    omega
  | overflow _ hf _ hX =>
    obtain ⟨h1, h2⟩ := maxFinite_lt_infMag h hf
    rw [magValue_le_iff h h2.le (hv.trans hmax)] at hX
    omega
  | clampHigh _ hX =>
    rw [magValue_lt_iff h hmax (hv.trans hmax)] at hX
    omega
  | clampLow _ hX' =>
    rw [magValue_lt_iff h (hv.trans hmax) (hone.trans hmax)] at hX'
    rw [← magValue_zero f h, magValue_lt_iff h (Nat.zero_le _) (hv.trans hmax)] at hX
    omega

/-- No value lies strictly between the result and the exact value. -/
theorem RoundCase.no_between (h : f.isFloat = true) (hX : 0 < X) (hc : RoundCase f mode X u fl)
    (hu : u ≤ maxFiniteMag f) {Y : ℝ} (hY : IsValue f Y) :
    ¬ (magValue f u < Y ∧ Y < X) ∧ ¬ (X < Y ∧ Y < magValue f u) := by
  obtain ⟨hmax, -, hone, -⟩ := maxFinite_le_top f h
  have hu0 := magValue_nonneg f h u (hu.trans hmax)
  rcases hY.cases h with ⟨v, hv, rfl⟩ | hneg
  · cases hc with
    | value _ _ hX =>
      subst hX
      exact ⟨fun hb => lt_asymm hb.1 hb.2, fun hb => lt_asymm hb.1 hb.2⟩
    | between c _ hc hlo hhi huc =>
      rw [magValue_lt_iff h (hu.trans hmax) (hv.trans hmax), magValue_lt_iff h (hv.trans hmax) (hu.trans hmax)]
      refine ⟨fun ⟨h1, h2⟩ => ?_, fun ⟨h1, h2⟩ => ?_⟩
      · have h3 := (magValue_lt_iff h (hv.trans hmax) hc).1 (h2.trans hhi)
        omega
      · have h3 := (magValue_lt_iff h hc.le (hv.trans hmax)).1 (hlo.trans h1)
        omega
    | overflow _ hf =>
      have := (maxFinite_lt_infMag h hf).1
      omega
    | clampHigh _ hX =>
      have := (magValue_le_iff h (hv.trans hmax) hmax).2 hv
      exact ⟨fun hb => by linarith [hb.1], fun hb => by linarith [hb.1]⟩
    | clampLow _ hX' =>
      refine ⟨fun ⟨h1, h2⟩ => by linarith, fun ⟨h1, h2⟩ => ?_⟩
      rw [magValue_lt_iff h (hv.trans hmax) (hone.trans hmax), Nat.lt_one_iff] at h2
      subst h2
      rw [magValue_zero f h] at h1
      linarith
  · exact ⟨fun hb => by linarith [hb.1], fun hb => by linarith [hb.1]⟩

/-- In mode nearest no value of an IEEE-style format is nearer, and a tie goes to the even string. -/
theorem RoundCase.nearest (h : f.isFloat = true) (hX : 0 < X) (hc : RoundCase f .nearest X u fl) (hf : isTap f = false)
    (hu : u ≤ maxFiniteMag f) {Y : ℝ} (hY : IsValue f Y) :
    |magValue f u - X| ≤ |Y - X| ∧ (|magValue f u - X| = |Y - X| → magValue f u ≠ Y → u % 2 = 0) := by
  obtain ⟨hmax, -, -, -⟩ := maxFinite_le_top f h
  cases hc with
  | value _ _ hX =>
    subst hX
    rw [sub_self, abs_zero]
    exact ⟨abs_nonneg _, fun h0 hne => absurd (sub_eq_zero.1 (abs_eq_zero.1 h0.symm)).symm hne⟩
  | between c _ hc hlo hhi huc _ hnear =>
    obtain ⟨hdown, hup⟩ := hnear hf rfl
    -- a value is at most the lower of the two strings, or at least the upper
    have hside : Y ≤ magValue f c ∨ magValue f (c + 1) ≤ Y := by
      rcases hY.cases h with ⟨v, hv, rfl⟩ | hneg
      · rw [magValue_le_iff h (hv.trans hmax) hc.le, magValue_le_iff h hc (hv.trans hmax)]
        omega
      · exact .inl (hneg.le.trans (magValue_nonneg f h c hc.le))
    rcases huc with rfl | rfl
    · obtain ⟨h1, h2⟩ := hdown rfl
      rw [abs_of_neg (by linarith)]
      rcases hside with hs | hs
      · rw [abs_of_neg (by linarith)]
        exact ⟨by linarith, fun he hne => absurd (by linarith) hne⟩
      · rw [abs_of_pos (by linarith)]
        exact ⟨by linarith, fun he _ => h2 (by linarith)⟩
    · obtain ⟨h1, h2⟩ := hup rfl
      rw [abs_of_pos (by linarith)]
      rcases hside with hs | hs
      · rw [abs_of_neg (by linarith)]
        exact ⟨by linarith, fun he _ => by have := h2 (by linarith); omega⟩
      · rw [abs_of_pos (by linarith)]
        exact ⟨by linarith, fun he hne => absurd (by linarith) hne⟩
  | overflow _ hf =>
    have := (maxFinite_lt_infMag h hf).1
    omega
  | clampHigh hf' => simp [hf] at hf'
  | clampLow hf' => simp [hf] at hf'

/-! #### The flags -/

/-- The flags of an inexact result: INX always, OVF at infinity, UNF below the least normal string. -/
theorem inexactFlags_bits (h : f.isFloat = true) (hu : u ≤ topMag f) :
    (inexactFlags f u).getLsbD 0 = true ∧ (inexactFlags f u).getLsbD 5 = false
    ∧ ((inexactFlags f u).getLsbD 2 = true ↔ isTap f = false ∧ u = infMag f)
    ∧ ((inexactFlags f u).getLsbD 1 = true ↔ ∃ p, Fmt.ieee f = some p ∧ u < 2 ^ p.m) := by
  rcases isFloat_cases h with ⟨w, es, rfl⟩ | ⟨p, hp⟩
  · simp [inexactFlags, Fmt.ieee, isTap, flInx]
  · have h1 := ieee_le_infMag hp
    rw [topMag_ieee hp] at hu
    simp only [inexactFlags, hp, ieee_isTap hp, Option.some.injEq, true_and, exists_eq_left']
    split
    · simp [flInx, flOvf]
      omega
    · split
      · simp [flInx, flUnf]
        omega
      · simp [flInx]
        omega

theorem RoundCase.ovf_iff (h : f.isFloat = true) (hc : RoundCase f mode X u fl) :
    fl.getLsbD 2 = true ↔ isTap f = false ∧ u = infMag f := by
  have htop := hc.le_top h
  cases hc with
  | value _ hu =>
    have := fun hf => (maxFinite_lt_infMag h hf).1
    simp
    intro hf
    have := this hf
    omega
  | between _ _ _ _ _ _ => exact (inexactFlags_bits h htop).2.2.1
  | overflow _ hf hfl => rcases hfl with rfl | rfl <;> simp [flOvf, flInx, hf]
  | clampHigh hf => simp [flClmp, flInx, hf]
  | clampLow hf => simp [flClmp, flInx, hf]

/-- OVF only where the exact value is beyond every finite one. -/
theorem RoundCase.above_of_ovf (h : f.isFloat = true) (hc : RoundCase f mode X u fl) (hov : fl.getLsbD 2 = true) :
    magValue f (maxFiniteMag f) < X := by
  obtain ⟨hf, hinf⟩ := (hc.ovf_iff h).1 hov
  obtain ⟨hlt, heq⟩ := maxFinite_lt_infMag h hf
  obtain ⟨hmax, hmax', -, -⟩ := maxFinite_le_top f h
  cases hc with
  | value _ hu => omega
  | between c _ hc hlo _ hu =>
    obtain rfl : c = maxFiniteMag f := by omega
    exact hlo
  | overflow _ _ _ hX => exact ((magValue_lt_iff h hmax heq.le).2 hlt).trans_le hX
  | clampHigh hf' => simp [hf] at hf'
  | clampLow hf' => simp [hf] at hf'

/-- Without OVF the result is a finite string, and INX says whether the exact value is one. -/
theorem RoundCase.inx_iff (h : f.isFloat = true) (hX : 0 < X) (hc : RoundCase f mode X u fl)
    (hov : fl.getLsbD 2 = false) :
    u ≤ maxFiniteMag f ∧ (fl.getLsbD 0 = true ↔ ¬ IsValue f X) := by
  have hfin : u ≤ maxFiniteMag f := by
    obtain ⟨hmax, hmax', -, -⟩ := maxFinite_le_top f h
    have htop := hc.le_top h
    by_contra hlt
    have hu : u = topMag f := by omega
    cases hf : isTap f
    · exact absurd ((hc.ovf_iff h).2 ⟨hf, by rw [(maxFinite_lt_infMag h hf).2, hu]⟩) (hov ▸ Bool.false_ne_true)
    · simp only [topMag, hf, if_true] at hu
      omega
  refine ⟨hfin, ?_⟩
  have hval : IsValue f X → fl = 0 := fun hv => by
    rcases hv.cases h with ⟨v, hv, he⟩ | hneg
    · exact (hc.of_value h hX hv he).2
    · exact absurd hneg (by linarith)
  refine ⟨fun hinx hv => by simp [hval hv] at hinx, fun hno => ?_⟩
  have htop := hc.le_top h
  cases hc with
  | value _ hu he => exact absurd ⟨false, _, hu, by simp [sgn, he]⟩ hno
  | between => exact (inexactFlags_bits h htop).1
  | overflow _ _ hfl => rcases hfl with rfl | rfl <;> simp [flOvf, flInx] at hov
  | clampHigh => simp [flClmp, flInx]
  | clampLow => simp [flClmp, flInx]

theorem RoundCase.unf_iff (h : f.isFloat = true) (hc : RoundCase f mode X u fl) :
    fl.getLsbD 1 = true ↔ ∃ p, Fmt.ieee f = some p ∧ fl.getLsbD 0 = true ∧ u < 2 ^ p.m := by
  have htop := hc.le_top h
  cases hc with
  | value => simp
  | between =>
    obtain ⟨h0, -, -, h1⟩ := inexactFlags_bits h htop
    simp only [h0, h1, true_and]
  | overflow _ hf hfl =>
    have hno : ¬ ∃ p, Fmt.ieee f = some p ∧ infMag f < 2 ^ p.m := by
      rintro ⟨p, hp, hlt⟩
      have := ieee_le_infMag hp
      omega
    have hbit : fl.getLsbD 1 = false := by rcases hfl with rfl | rfl <;> simp [flOvf, flInx]
    rw [hbit]
    exact ⟨fun h => by simp at h, fun ⟨p, hp, _, hlt⟩ => absurd ⟨p, hp, hlt⟩ hno⟩
  | clampHigh hf =>
    simp only [flClmp, flInx]
    exact ⟨fun h => by simp at h, fun ⟨p, hp, _⟩ => by simp [ieee_isTap hp] at hf⟩
  | clampLow hf =>
    simp only [flClmp, flInx]
    exact ⟨fun h => by simp at h, fun ⟨p, hp, _⟩ => by simp [ieee_isTap hp] at hf⟩

/-- CLMP exactly beyond maxpos and below minpos. -/
theorem RoundCase.clmp_iff (h : f.isFloat = true) (hX : 0 < X) (hc : RoundCase f mode X u fl) :
    fl.getLsbD 5 = true ↔ isTap f = true ∧ (magValue f (maxFiniteMag f) < X ∨ X < magValue f 1) := by
  have htop := hc.le_top h
  obtain ⟨hmax, -, hone, -⟩ := maxFinite_le_top f h
  cases hc with
  | value _ hu he =>
    subst he
    rw [← magValue_zero f h, magValue_lt_iff h (Nat.zero_le _) htop] at hX
    rw [magValue_lt_iff h hmax htop, magValue_lt_iff h htop (hone.trans hmax)]
    simp
    omega
  | between c _ hc hlo hhi hu htap =>
    rw [(inexactFlags_bits h htop).2.1]
    refine ⟨fun h => by simp at h, fun ⟨hf, hb⟩ => ?_⟩
    have h1 := (magValue_le_iff h (hone.trans hmax) hc.le).2 (Nat.pos_of_ne_zero (htap hf))
    have h2 := (magValue_le_iff h hc hmax).2 (by simpa [topMag, hf] using hc)
    rcases hb with hb | hb <;> linarith
  | overflow _ hf hfl => rcases hfl with rfl | rfl <;> simp [flOvf, flInx, hf]
  | clampHigh hf hX => simp [flClmp, flInx, hf, hX]
  | clampLow hf hX => simp [flClmp, flInx, hf, hX]

end Sys2Proof.Machine
end

section
/-! ### RoundT against the values of a format -/

namespace Sys2Proof.Machine

theorem Dyadic.abs_real_pos {d : Dyadic} (hd : d.m ≠ 0) : 0 < |d.real| := by
  have : (d.m : ℝ) ≠ 0 := by exact_mod_cast hd
  exact abs_pos.2 (mul_ne_zero this (by positivity))

/-- A dyadic is its magnitude with the sign of its numerator. -/
theorem Dyadic.real_eq_sgn (d : Dyadic) : d.real = sgn (decide (d.m < 0)) * |d.real| := by
  have hp : (0 : ℝ) < 2 ^ d.e := by positivity
  by_cases hn : d.m < 0
  · have : d.real < 0 := mul_neg_of_neg_of_pos (by exact_mod_cast hn) hp
    simp [sgn, hn, abs_of_neg this]
  · have : 0 ≤ d.real := mul_nonneg (by exact_mod_cast not_lt.1 hn) hp.le
    simp [sgn, hn, abs_of_nonneg this]

theorem abs_sgn_mul (neg : Bool) (x : ℝ) : |sgn neg * x| = |x| := by
  cases neg <;> simp [sgn]

/-- A dyadic is an exact value without a rest. -/
theorem Dyadic.holds (d : Dyadic) : ({ mag := d.m.natAbs, e := d.e, sticky := false } : Exact).Holds |d.real| := by
  refine ⟨0, rest_exact, ?_⟩
  rw [Dyadic.real, abs_mul, abs_of_pos (show (0 : ℝ) < 2 ^ d.e by positivity), add_zero, Nat.cast_natAbs, Int.cast_abs]

theorem roundT_case (f : Fmt) (h : f.isFloat = true) (mode : RMode) (d : Dyadic) (hd : d.m ≠ 0) :
    ∃ u fl, roundT f mode d = (strOf f (decide (d.m < 0)) u, fl) ∧ RoundCase f mode |d.real| u fl := by
  rw [roundT, if_neg hd]
  exact roundExact_case f h mode _ _ _ d.holds (Int.natAbs_ne_zero.2 hd) (fun hs => absurd hs (by simp))

/-! #### Signed strings -/

theorem strOf_mod (f : Fmt) (hf : isTap f = false) (neg : Bool) (u : Nat) (hu : u < 2 ^ (f.width.bits - 1)) :
    strOf f neg u % 2 ^ (f.width.bits - 1) = u := by
  cases neg <;> simp [strOf, hf, withSign, Nat.mod_eq_of_lt hu]

theorem strOf_even (f : Fmt) (hf : isTap f = false) (neg : Bool) (u : Nat) : strOf f neg u % 2 = u % 2 := by
  have hdvd : 2 ∣ 2 ^ (f.width.bits - 1) := dvd_pow_self 2 (by have := bits_ge f.width; omega)
  cases neg
  · simp [strOf, hf, withSign]
  · simp only [strOf, hf, withSign, if_true, Bool.false_eq_true, if_false]
    omega

theorem strOf_testBit (f : Fmt) (neg : Bool) (u : Nat) (hu : u < 2 ^ (f.width.bits - 1)) (h0 : isTap f = true → u ≠ 0) :
    (strOf f neg u).testBit (f.width.bits - 1) = neg := by
  have h2 := Nat.two_pow_pred_mul_two (w := f.width.bits) (by have := bits_ge f.width; omega)
  unfold strOf withSign
  cases neg
  · simp [Nat.testBit_lt_two_pow hu]
  · cases hf : isTap f
    · simp only [if_true, Bool.false_eq_true, if_false]
      rw [Nat.add_comm]
      exact testBit_top _ u hu
    · have := h0 hf
      simp only [if_true]
      rw [Nat.mod_eq_of_lt (by omega),
        show 2 ^ f.width.bits - u = 2 ^ (f.width.bits - 1) + (2 ^ (f.width.bits - 1) - u) by omega]
      exact testBit_top _ _ (by omega)

/-- A string on the scale that names a value is finite, and its value that of its magnitude. -/
theorem Names.of_strOf {f : Fmt} (h : f.isFloat = true) {neg : Bool} {u : Nat} {x : Dyadic} (hu : u ≤ topMag f)
    (hx : Names f (strOf f neg u) x) : u ≤ maxFiniteMag f ∧ x.real = sgn neg * magValue f u := by
  have hfin : u ≤ maxFiniteMag f := by
    by_contra hlt
    have htop := (maxFinite_le_top f h).2.1
    rcases isFloat_cases h with ⟨w, es, rfl⟩ | ⟨p, hp⟩
    · exact hlt hu
    · have := ieee_maxFinite hp
      rw [topMag_ieee hp] at hu
      obtain rfl : u = infMag f := by omega
      exact not_names_infMag hp neg x hx
  obtain ⟨y, hy, hr⟩ := names_strOf f h neg u hfin
  exact ⟨hfin, by rw [hx.unique hy, hr]⟩

/-- The magnitude of a value is at most that of the largest finite string. -/
theorem Names.abs_le {f : Fmt} (h : f.isFloat = true) {b : Nat} {y : Dyadic} (hy : Names f b y) :
    |y.real| ≤ magValue f (maxFiniteMag f) := by
  obtain ⟨neg, v, -, hv, hval⟩ := hy.exists_mag h
  have hmax := (maxFinite_le_top f h).1
  rw [hval, abs_sgn_mul, abs_of_nonneg (magValue_nonneg f h v (hv.trans hmax))]
  exact (magValue_le_iff h (hv.trans hmax) hmax).2 hv

theorem RoundCase.ne_zero_of_tap {f : Fmt} {mode : RMode} {X : ℝ} {u : Nat} {fl : Flags} (h : f.isFloat = true)
    (hX : 0 < X)
    (hc : RoundCase f mode X u fl) (hf : isTap f = true) : u ≠ 0 := by
  obtain ⟨-, -, hone, -⟩ := maxFinite_le_top f h
  cases hc with
  | value _ _ he =>
    rintro rfl
    rw [he, magValue_zero f h] at hX
    exact lt_irrefl _ hX
  | between c _ _ _ _ hu htap =>
    have := htap hf
    omega
  | overflow _ hf' => simp [hf] at hf'
  | clampHigh => omega
  | clampLow => exact one_ne_zero

/-! #### The clauses on RoundT -/

section
variable (f : Fmt) (h : f.isFloat = true) (mode : RMode) (d : Dyadic) (hd : d.m ≠ 0)
include h hd

theorem roundT_sign : (roundT f mode d).1 < 2 ^ f.width.bits
    ∧ (roundT f mode d).1.testBit (f.width.bits - 1) = decide (d.m < 0) := by
  obtain ⟨u, fl, hr, hc⟩ := roundT_case f h mode d hd
  have hu := lt_of_le_of_lt (hc.le_top h) (maxFinite_le_top f h).2.2.2
  rw [hr]
  exact ⟨strOf_lt f _ u hu, strOf_testBit f _ u hu (hc.ne_zero_of_tap h (Dyadic.abs_real_pos hd))⟩

/-- A value of the format rounds to the string that names it, without a flag. -/
theorem roundT_of_names {b : Nat} {x : Dyadic} (hx : Names f b x) (he : x.real = d.real) :
    roundT f mode d = (b, 0) := by
  obtain ⟨u, fl, hr, hc⟩ := roundT_case f h mode d hd
  obtain ⟨neg, v, rfl, hv, hval⟩ := hx.exists_mag h
  have hX := Dyadic.abs_real_pos hd
  have hmag : |d.real| = magValue f v := by
    rw [← he, hval, abs_sgn_mul, abs_of_nonneg (magValue_nonneg f h v (hv.trans (maxFinite_le_top f h).1))]
  obtain ⟨rfl, rfl⟩ := hc.of_value h hX hv hmag
  rw [hmag] at hX
  have hsign : neg = decide (d.m < 0) := by
    have hsame := d.real_eq_sgn
    rw [← he, hval, abs_sgn_mul, abs_of_pos hX] at hsame
    have := mul_right_cancel₀ hX.ne' hsame
    revert this
    cases neg <;> cases decide (d.m < 0) <;> simp [sgn] <;> norm_num
  rw [hr, hsign]

/-- Without OVF the result names a value, and INX is set exactly where the exact value is none of the format. -/
theorem roundT_finite (hov : (roundT f mode d).2.getLsbD 2 = false) : (∃ x, Names f (roundT f mode d).1 x)
    ∧ ((roundT f mode d).2.getLsbD 0 = true ↔ ¬ ∃ b x, Names f b x ∧ x.real = d.real) := by
  obtain ⟨u, fl, hr, hc⟩ := roundT_case f h mode d hd
  rw [hr] at hov ⊢
  obtain ⟨hu, hinx⟩ := hc.inx_iff h (Dyadic.abs_real_pos hd) hov
  obtain ⟨x, hx, -⟩ := names_strOf f h (decide (d.m < 0)) u hu
  refine ⟨⟨x, hx⟩, hinx.trans (not_congr ⟨fun hv => ?_, fun ⟨b, y, hy, he⟩ => ?_⟩)⟩
  · obtain ⟨neg, v, hv, he⟩ := hv.mul_sgn (decide (d.m < 0))
    obtain ⟨y, hy, hval⟩ := names_strOf f h neg v hv
    exact ⟨_, y, hy, by rw [hval, ← he, ← d.real_eq_sgn]⟩
  · have := (hy.isValue h).mul_sgn (decide (d.m < 0))
    rw [he, d.real_eq_sgn, ← mul_assoc] at this
    cases hb : decide (d.m < 0) <;> simpa [sgn, hb] using this

/-- The result is next to the exact value; in mode nearest it is the nearest, and of two the even one; the random word
0 rounds toward zero. -/
theorem roundT_neighbour {b : Nat} {x y : Dyadic} (hx : Names f (roundT f mode d).1 x) (hy : Names f b y) :
    ¬ (x.real < y.real ∧ y.real < d.real) ∧ ¬ (d.real < y.real ∧ y.real < x.real)
    ∧ (isTap f = false → mode = .nearest → |x.real - d.real| ≤ |y.real - d.real|
        ∧ (|x.real - d.real| = |y.real - d.real| → x.real ≠ y.real → (roundT f mode d).1 % 2 = 0))
    ∧ (mode = .stochastic 0 → (roundT f mode d).2.getLsbD 5 = false → |x.real| ≤ |d.real|) := by
  obtain ⟨u, fl, hr, hc⟩ := roundT_case f h mode d hd
  rw [hr] at hx ⊢
  have hX := Dyadic.abs_real_pos hd
  obtain ⟨hu, hval⟩ := hx.of_strOf h (hc.le_top h)
  set neg := decide (d.m < 0)
  have hY := (hy.isValue h).mul_sgn neg
  have hyv : y.real = sgn neg * (sgn neg * y.real) := by cases neg <;> simp [sgn]
  have hdv : d.real = sgn neg * |d.real| := d.real_eq_sgn
  set X := |d.real|
  set Y := sgn neg * y.real
  have hmid := hc.no_between h hX hu hY
  have hdist : ∀ z, |sgn neg * z - sgn neg * X| = |z - X| := fun z => by rw [← mul_sub, abs_sgn_mul]
  refine ⟨?_, ?_, ?_, ?_⟩
  · rw [hval, hyv, hdv]
    cases hb : neg
    · simpa [sgn] using hmid.1
    · simpa [sgn, and_comm] using hmid.2
  · rw [hval, hyv, hdv]
    cases hb : neg
    · simpa [sgn] using hmid.2
    · simpa [sgn, and_comm] using hmid.1
  · rintro hf rfl
    obtain ⟨hle, htie⟩ := hc.nearest h hX hf hu hY
    rw [hval, hyv, hdv, hdist, hdist, strOf_even f hf]
    exact ⟨hle, fun he hne => htie he fun heq => hne (by rw [heq])⟩
  · rintro rfl hcl
    rw [hval, abs_sgn_mul, abs_of_nonneg (magValue_nonneg f h u (hc.le_top h))]
    cases hc with
    | value _ _ he => exact he.ge
    | between c _ _ hlo _ _ _ _ hzero => exact (hzero rfl) ▸ hlo.le
    | overflow _ _ _ hX => exact hX
    | clampHigh _ hX => exact hX.le
    | clampLow => simp [flClmp, flInx] at hcl

theorem roundT_ovf_iff : (roundT f mode d).2.getLsbD 2 = true
    ↔ isTap f = false ∧ (roundT f mode d).1 % 2 ^ (f.width.bits - 1) = infMag f := by
  obtain ⟨u, fl, hr, hc⟩ := roundT_case f h mode d hd
  rw [hr, hc.ovf_iff h]
  refine and_congr_right fun hf => ?_
  rw [strOf_mod f hf _ u (lt_of_le_of_lt (hc.le_top h) (maxFinite_le_top f h).2.2.2)]

theorem roundT_above_of_ovf (hov : (roundT f mode d).2.getLsbD 2 = true) {b : Nat} {y : Dyadic} (hy : Names f b y) :
    |y.real| < |d.real| := by
  obtain ⟨u, fl, hr, hc⟩ := roundT_case f h mode d hd
  rw [hr] at hov
  exact (hy.abs_le h).trans_lt (hc.above_of_ovf h hov)

theorem roundT_unf_iff : (roundT f mode d).2.getLsbD 1 = true ↔ ∃ p, Fmt.ieee f = some p
    ∧ (roundT f mode d).2.getLsbD 0 = true ∧ (roundT f mode d).1 % 2 ^ (f.width.bits - 1) < 2 ^ p.m := by
  obtain ⟨u, fl, hr, hc⟩ := roundT_case f h mode d hd
  rw [hr, hc.unf_iff h]
  refine exists_congr fun p => and_congr_right fun hp => ?_
  rw [strOf_mod f (ieee_isTap hp) _ u (lt_of_le_of_lt (hc.le_top h) (maxFinite_le_top f h).2.2.2)]

theorem roundT_clmp_iff : (roundT f mode d).2.getLsbD 5 = true ↔ isTap f = true
    ∧ ((∀ b y, Names f b y → |y.real| < |d.real|) ∨ ∀ b y, Names f b y → y.m ≠ 0 → |d.real| < |y.real|) := by
  obtain ⟨u, fl, hr, hc⟩ := roundT_case f h mode d hd
  obtain ⟨hmax, -, hone, -⟩ := maxFinite_le_top f h
  rw [hr, hc.clmp_iff h (Dyadic.abs_real_pos hd)]
  refine and_congr_right fun hf => or_congr ⟨fun hlt b y hy => (hy.abs_le h).trans_lt hlt, fun hall => ?_⟩
    ⟨fun hlt b y hy hy0 => ?_, fun hall => ?_⟩
  · obtain ⟨y, hy, hval⟩ := names_strOf f h false _ le_rfl
    have := hall _ y hy
    rwa [hval, abs_sgn_mul, abs_of_nonneg (magValue_nonneg f h _ hmax)] at this
  · obtain ⟨neg, v, -, hv, hval⟩ := hy.exists_mag h
    have hv0 : v ≠ 0 := by
      rintro rfl
      have := Dyadic.abs_real_pos hy0
      simp [hval, magValue_zero f h] at this
    rw [hval, abs_sgn_mul, abs_of_nonneg (magValue_nonneg f h v (hv.trans hmax))]
    exact hlt.trans_le ((magValue_le_iff h (hone.trans hmax) (hv.trans hmax)).2 (Nat.pos_of_ne_zero hv0))
  · obtain ⟨y, hy, hval⟩ := names_strOf f h false 1 hone
    have hpos := magValue_pos f h 1 one_ne_zero (hone.trans hmax)
    have hy0 : y.m ≠ 0 := by
      intro h0
      rw [Dyadic.real_of_m_eq_zero h0] at hval
      simp [sgn] at hval
      linarith
    have := hall _ y hy hy0
    rwa [hval, abs_sgn_mul, abs_of_pos hpos] at this

end

end Sys2Proof.Machine
end
section
/-! #### The first part of the obligation on rounding -/

namespace Sys2Proof.Machine

/-- RoundT of a nonzero exact value (R107, R110, R113, R115 to R117). -/
theorem roundT_correct (f : Fmt) (mode : RMode) (d : Dyadic) (h : f.isFloat = true) (hd : d.m ≠ 0) :
    let w := f.width.bits
    let r := (roundT f mode d).1
    let fl := (roundT f mode d).2
    r < 2 ^ w ∧ (r.testBit (w - 1) = decide (d.m < 0))
    ∧ (∀ b x e, Names f b x → e ≤ x.e → e ≤ d.e → x.inUnits e = d.inUnits e → roundT f mode d = (b, 0))
    ∧ (fl.getLsbD 2 = false → (∃ x, Names f r x)
        ∧ (fl.getLsbD 0 = true ↔ ¬ ∃ b x e, Names f b x ∧ e ≤ x.e ∧ e ≤ d.e ∧ x.inUnits e = d.inUnits e))
    ∧ (∀ b x y e, Names f r x → Names f b y → e ≤ x.e → e ≤ y.e → e ≤ d.e →
        ¬ (x.inUnits e < y.inUnits e ∧ y.inUnits e < d.inUnits e)
            ∧ ¬ (d.inUnits e < y.inUnits e ∧ y.inUnits e < x.inUnits e)
        ∧ (isTap f = false → mode = .nearest →
            (x.inUnits e - d.inUnits e).natAbs ≤ (y.inUnits e - d.inUnits e).natAbs
            ∧ ((x.inUnits e - d.inUnits e).natAbs = (y.inUnits e - d.inUnits e).natAbs → x.inUnits e ≠ y.inUnits e →
                r % 2 = 0))
        ∧ (mode = .stochastic 0 → fl.getLsbD 5 = false → (x.inUnits e).natAbs ≤ (d.inUnits e).natAbs))
    ∧ (fl.getLsbD 2 = true ↔ isTap f = false ∧ r % 2 ^ (w - 1) = infMag f)
    ∧ (fl.getLsbD 2 = true → ∀ b y e, Names f b y → e ≤ y.e → e ≤ d.e → (y.inUnits e).natAbs < (d.inUnits e).natAbs)
    ∧ (fl.getLsbD 1 = true ↔ ∃ p, Fmt.ieee f = some p ∧ fl.getLsbD 0 = true ∧ r % 2 ^ (w - 1) < 2 ^ p.m)
    ∧ (fl.getLsbD 5 = true ↔ isTap f = true
        ∧ ((∀ b y e, Names f b y → e ≤ y.e → e ≤ d.e → (y.inUnits e).natAbs < (d.inUnits e).natAbs)
          ∨ (∀ b y e, Names f b y → y.m ≠ 0 → e ≤ y.e → e ≤ d.e → (d.inUnits e).natAbs < (y.inUnits e).natAbs))) := by
  obtain ⟨hlt, hsign⟩ := roundT_sign f h mode d hd
  refine ⟨hlt, hsign, fun b x e hx hxe hde he => ?_, fun hov => ?_, fun b x y e hx hy hxe hye hde => ?_,
    roundT_ovf_iff f h mode d hd, fun hov b y e hy hye hde => ?_, roundT_unf_iff f h mode d hd, ?_⟩
  · exact roundT_of_names f h mode d hd hx ((inUnits_eq_iff hxe hde).1 he)
  · obtain ⟨hx, hinx⟩ := roundT_finite f h mode d hd hov
    refine ⟨hx, hinx.trans (not_congr ⟨?_, ?_⟩)⟩
    · rintro ⟨b, x, hx, he⟩
      exact ⟨b, x, min x.e d.e, hx, min_le_left _ _, min_le_right _ _,
        (inUnits_eq_iff (min_le_left _ _) (min_le_right _ _)).2 he⟩
    · rintro ⟨b, x, e, hx, hxe, hde, he⟩
      exact ⟨b, x, hx, (inUnits_eq_iff hxe hde).1 he⟩
  · rw [inUnits_lt_iff hxe hye, inUnits_lt_iff hye hde, inUnits_lt_iff hde hye, inUnits_lt_iff hye hxe,
      inUnits_dist_le_iff hxe hye hde, inUnits_dist_eq_iff hxe hye hde, Ne, inUnits_eq_iff hxe hye,
      inUnits_natAbs_le_iff hxe hde]
    exact roundT_neighbour f h mode d hd hx hy
  · exact (inUnits_natAbs_lt_iff hye hde).2 (roundT_above_of_ovf f h mode d hd hov hy)
  · rw [roundT_clmp_iff f h mode d hd]
    refine and_congr_right fun _ => or_congr ⟨fun hall b y e hy hye hde => ?_, fun hall b y hy => ?_⟩
      ⟨fun hall b y e hy hy0 hye hde => ?_, fun hall b y hy hy0 => ?_⟩
    · exact (inUnits_natAbs_lt_iff hye hde).2 (hall b y hy)
    · exact (inUnits_natAbs_lt_iff (min_le_left _ _) (min_le_right _ _)).1
        (hall b y (min y.e d.e) hy (min_le_left _ _) (min_le_right _ _))
    · exact (inUnits_natAbs_lt_iff hde hye).2 (hall b y hy hy0)
    · exact (inUnits_natAbs_lt_iff (min_le_right _ _) (min_le_left _ _)).1
        (hall b y (min y.e d.e) hy hy0 (min_le_left _ _) (min_le_right _ _))

end Sys2Proof.Machine
end

section
/-! ### Lane operations of the Float formats (R109, R111, R113, R114, R395, R397, R413) -/

namespace Sys2Proof.Machine

/-! #### Special operands of sums and products (Table 5-4) -/

theorem isNan_cases {x : Val} (h : x.isNan = true) : (∃ s, x = .nan s) ∨ x = .nar := by
  cases x with
  | nan s => exact .inl ⟨s, rfl⟩
  | nar => exact .inr rfl
  | zero | fin | inf => cases h

theorem neg_isNan (x : Val) : x.neg.isNan = x.isNan := by
  cases x <;> rfl

theorem addRound_nan (f : Fmt) {x y : Val} (h : x.isNan = true ∨ y.isNan = true) :
    addRound f x y = (canonicalNan f false, 0) := by
  rcases h with h | h
  · obtain ⟨s, rfl⟩ | rfl := isNan_cases h <;> rfl
  · obtain ⟨s, rfl⟩ | rfl := isNan_cases h <;> cases x <;> rfl

theorem mulVal_nan {x y : Val} (h : x.isNan = true ∨ y.isNan = true) : mulVal x y = (.nan false, 0) := by
  rcases h with h | h
  · obtain ⟨s, rfl⟩ | rfl := isNan_cases h <;> rfl
  · obtain ⟨s, rfl⟩ | rfl := isNan_cases h <;> cases x <;> rfl

section
variable {f : Fmt} {a b c : Nat}

theorem laneAdd_of {x y : Val} (ha : decodeFmt f a = x) (hb : decodeFmt f b = y) : laneAdd f a b = addRound f x y := by
  rw [laneAdd, ha, hb]

theorem laneSub_of {x y : Val} (ha : decodeFmt f a = x) (hb : decodeFmt f b = y) :
    laneSub f a b = addRound f x y.neg := by
  rw [laneSub, ha, hb]

/-- A product is rounded with the flags of the multiplication. -/
theorem laneMul_of {x y p : Val} {fl : Flags} (ha : decodeFmt f a = x) (hb : decodeFmt f b = y)
    (hp : mulVal x y = (p, fl)) :
    laneMul f a b = ((roundVal f p).1, fl ||| (roundVal f p).2) := by
  simp only [laneMul, ha, hb, hp]

/-- A fused result is the sum of the product and the addend. -/
theorem laneFma_of {x y z p : Val} {fl : Flags} {sub : Bool} (ha : decodeFmt f a = x) (hb : decodeFmt f b = y)
    (hc : decodeFmt f c = z) (hz : z.isNan = false) (hp : mulVal x y = (p, fl)) :
    laneFma f sub a b c =
        ((addRound f p (if sub then z.neg else z)).1, fl ||| (addRound f p (if sub then z.neg else z)).2) := by
  simp only [laneFma, ha, hb, hc, hz, hp, Bool.false_eq_true, if_false]

/-- No flag of a multiplication leaves a result as it is. -/
theorem zero_or_flags (r : Rounded) : (r.1, (0 : Flags) ||| r.2) = r := Prod.ext rfl BitVec.zero_or

theorem inv_or_zero : flInv ||| (0 : Flags) = 0x10 := by decide

/-- Finite operands: the exact result rounded once. -/
theorem lanes_fin {x y : Dyadic} (ha : decodeFmt f a = .fin x) (hb : decodeFmt f b = .fin y) :
    laneAdd f a b = roundT f .nearest (x.add y) ∧ laneSub f a b = roundT f .nearest (x.add y.neg)
    ∧ laneMul f a b = roundT f .nearest (x.mul y)
    ∧ (∀ z, decodeFmt f c = .fin z → laneFma f false a b c = roundT f .nearest ((x.mul y).add z)
        ∧ laneFma f true a b c = roundT f .nearest ((x.mul y).add z.neg)) := by
  refine ⟨laneAdd_of ha hb, laneSub_of ha hb, ?_, fun z hc => ⟨?_, ?_⟩⟩
  · rw [laneMul_of ha hb rfl, zero_or_flags]
    rfl
  · rw [laneFma_of ha hb hc rfl rfl, zero_or_flags]
    rfl
  · rw [laneFma_of ha hb hc rfl rfl, zero_or_flags]
    rfl

theorem lanes_nan (h : (decodeFmt f a).isNan = true ∨ (decodeFmt f b).isNan = true) :
    laneAdd f a b = (canonicalNan f false, 0) ∧ laneSub f a b = (canonicalNan f false, 0)
    ∧ laneMul f a b = (canonicalNan f false, 0) := by
  refine ⟨addRound_nan f h, addRound_nan f (by rwa [neg_isNan]), ?_⟩
  rw [laneMul_of rfl rfl (mulVal_nan h), zero_or_flags]
  rfl

theorem fused_nan (h : (decodeFmt f a).isNan = true ∨ (decodeFmt f b).isNan = true ∨ (decodeFmt f c).isNan = true)
    (sub : Bool) :
    laneFma f sub a b c = (canonicalNan f false, 0) := by
  cases hc : (decodeFmt f c).isNan
  · have hab : (decodeFmt f a).isNan = true ∨ (decodeFmt f b).isNan = true := by simpa [hc] using h
    rw [laneFma_of rfl rfl rfl hc (mulVal_nan hab), zero_or_flags, addRound_nan f (.inl rfl)]
  · simp [laneFma, hc, nanResult]

theorem lanes_inf_inf {p q : Bool} (ha : decodeFmt f a = .inf p) (hb : decodeFmt f b = .inf q) :
    laneAdd f a b = (if p = q then (withSign f.width.bits p (infMag f), 0) else (canonicalNan f false, 0x10))
    ∧ laneSub f a b = (if p = q then (canonicalNan f false, 0x10) else (withSign f.width.bits p (infMag f), 0))
    ∧ laneMul f a b = (withSign f.width.bits (p != q) (infMag f), 0) := by
  refine ⟨laneAdd_of ha hb, ?_, ?_⟩
  · rw [laneSub_of ha hb]
    cases p <;> cases q <;> rfl
  · rw [laneMul_of ha hb rfl, zero_or_flags]
    rfl

theorem lanes_inf_zero {p q : Bool} (ha : decodeFmt f a = .inf p) (hb : decodeFmt f b = .zero q) :
    laneAdd f a b = (withSign f.width.bits p (infMag f), 0) ∧ laneMul f a b = (canonicalNan f false, 0x10)
    ∧ ((decodeFmt f c).isNan = false → laneFma f false a b c = (canonicalNan f false, 0x10)) := by
  refine ⟨laneAdd_of ha hb, ?_, fun hc => ?_⟩
  · rw [laneMul_of ha hb rfl]
    exact congrArg (Prod.mk _) inv_or_zero
  · rw [laneFma_of ha hb rfl hc rfl, addRound_nan f (.inl rfl)]
    exact congrArg (Prod.mk _) inv_or_zero

theorem lanes_inf_fin {p : Bool} {y : Dyadic} (ha : decodeFmt f a = .inf p) (hb : decodeFmt f b = .fin y) :
    laneAdd f a b = (withSign f.width.bits p (infMag f), 0) ∧ laneSub f a b = (withSign f.width.bits p (infMag f), 0)
    ∧ laneMul f a b = (withSign f.width.bits (p != decide (y.m < 0)) (infMag f), 0) := by
  refine ⟨laneAdd_of ha hb, laneSub_of ha hb, ?_⟩
  rw [laneMul_of ha hb rfl, zero_or_flags]
  rfl

/-- The string of a zero: the sign stands in the IEEE-style formats alone. -/
theorem zeroResult_eq (f : Fmt) (neg : Bool) :
    zeroResult f neg = if neg && !isTap f then 2 ^ (f.width.bits - 1) else 0 := by
  cases neg <;> cases h : isTap f <;> simp [zeroResult, withSign, fmtBits, h]

theorem lanes_zero_zero {p q : Bool} (ha : decodeFmt f a = .zero p) (hb : decodeFmt f b = .zero q) :
    laneAdd f a b = (if p && q && !isTap f then 2 ^ (f.width.bits - 1) else 0, 0)
    ∧ laneMul f a b = (if (p != q) && !isTap f then 2 ^ (f.width.bits - 1) else 0, 0) := by
  rw [laneAdd_of ha hb, laneMul_of ha hb rfl, zero_or_flags, ← zeroResult_eq, ← zeroResult_eq]
  exact ⟨rfl, rfl⟩

theorem lanes_zero_fin {p : Bool} {y : Dyadic} (ha : decodeFmt f a = .zero p) (hb : decodeFmt f b = .fin y) :
    laneAdd f a b = roundT f .nearest y
    ∧ laneMul f a b = (if (p != decide (y.m < 0)) && !isTap f then 2 ^ (f.width.bits - 1) else 0, 0) := by
  rw [laneAdd_of ha hb, laneMul_of ha hb rfl, zero_or_flags, ← zeroResult_eq]
  exact ⟨rfl, rfl⟩

/-! #### Order (R395, R397) -/

/-- What a relation of VCMP makes of unordered, equal and less. -/
def relHolds (rel : CmpRel) (un eq lt : Bool) : Bool :=
  match rel with
  | .eq => !un && eq
  | .ne => un || !eq
  | .lt => !un && lt
  | .le => !un && (lt || eq)
  | .gt => !un && !lt && !eq
  | .ge => !un && !lt
  | .un => un

/-- The strings are equal, or both values are zeros. -/
def equalLanes (x y : Val) (a b : Nat) : Bool :=
  match x, y with
  | .zero _, .zero _ => true
  | _, _ => a == b

theorem laneCmp_ieee (h : f.isFloat = true) (hf : isTap f = false) (rel : CmpRel) : laneCmp f rel a b
    = relHolds rel ((decodeFmt f a).isNan || (decodeFmt f b).isNan) (equalLanes (decodeFmt f a) (decodeFmt f b) a b)
        (!equalLanes (decodeFmt f a) (decodeFmt f b) a b && ieeeLt (decodeFmt f a) (decodeFmt f b)) := by
  cases f with
  | int => cases h
  | tap => cases hf
  | f32 | bf16 | e4m3 | e5m2 => cases rel <;> rfl

theorem laneMaxMin_ieee (h : f.isFloat = true) (hf : isTap f = false) (wantMax : Bool) : laneMaxMin f wantMax a b
    = if (decodeFmt f a).isNan || (decodeFmt f b).isNan then canonicalNan f false
      else if ieeeLt (decodeFmt f a) (decodeFmt f b) == wantMax then b else a := by
  cases f with
  | int => cases h
  | tap => cases hf
  | f32 | bf16 | e4m3 | e5m2 => rfl

theorem order_nan (h : f.isFloat = true) (hf : isTap f = false)
    (hn : (decodeFmt f a).isNan = true ∨ (decodeFmt f b).isNan = true) :
    laneMaxMin f true a b = canonicalNan f false ∧ laneMaxMin f false a b = canonicalNan f false
    ∧ ∀ rel, laneCmp f rel a b = decide (rel = .un ∨ rel = .ne) := by
  have hor : ((decodeFmt f a).isNan || (decodeFmt f b).isNan) = true := by simpa using hn
  refine ⟨by rw [laneMaxMin_ieee h hf, if_pos hor], by rw [laneMaxMin_ieee h hf, if_pos hor], fun rel => ?_⟩
  rw [laneCmp_ieee h hf, hor]
  cases rel <;> rfl

/-- x is below y in every unit fine enough for both. -/
def Dyadic.Below (x y : Dyadic) : Prop :=
  ∀ e, e ≤ x.e → e ≤ y.e → x.m * 2 ^ (x.e - e).toNat < y.m * 2 ^ (y.e - e).toNat

theorem Dyadic.Below.sub_neg {x y : Dyadic} (h : x.Below y) : (x.add y.neg).m < 0 ∧ 0 < (y.add x.neg).m := by
  have hxy := h (min x.e y.e) (min_le_left _ _) (min_le_right _ _)
  simp only [Dyadic.add, Dyadic.neg, pow2, min_comm y.e x.e]
  constructor <;> linarith

/-- Of two lanes whose values are ordered, the choices of the larger and of the smaller one. -/
theorem maxMin_of_lt (h : f.isFloat = true) (hf : isTap f = false) (ha : (decodeFmt f a).isNan = false)
    (hb : (decodeFmt f b).isNan = false) (hlt : ieeeLt (decodeFmt f a) (decodeFmt f b) = true)
    (hge : ieeeLt (decodeFmt f b) (decodeFmt f a) = false) :
    laneMaxMin f true a b = b ∧ laneMaxMin f true b a = b ∧ laneMaxMin f false a b = a
        ∧ laneMaxMin f false b a = a := by
  simp [laneMaxMin_ieee h hf, ha, hb, hlt, hge]

theorem order_fin (h : f.isFloat = true) (hf : isTap f = false) {x y : Dyadic} (ha : decodeFmt f a = .fin x)
    (hb : decodeFmt f b = .fin y) (hxy : x.Below y) :
    laneMaxMin f true a b = b ∧ laneMaxMin f true b a = b ∧ laneMaxMin f false a b = a ∧ laneMaxMin f false b a = a
    ∧ (∀ rel, laneCmp f rel a b = decide (rel = .lt ∨ rel = .le ∨ rel = .ne))
    ∧ (∀ rel, laneCmp f rel b a = decide (rel = .gt ∨ rel = .ge ∨ rel = .ne)) := by
  obtain ⟨hneg, hpos⟩ := hxy.sub_neg
  have hlt : ieeeLt (decodeFmt f a) (decodeFmt f b) = true := by
    rw [ha, hb]
    exact decide_eq_true hneg
  have hge : ieeeLt (decodeFmt f b) (decodeFmt f a) = false := by
    rw [ha, hb]
    exact decide_eq_false hpos.le.not_gt
  have hne : a ≠ b := by
    rintro rfl
    rw [hlt] at hge
    cases hge
  have hab : equalLanes (decodeFmt f a) (decodeFmt f b) a b = false := by
    rw [ha, hb]
    exact beq_false_of_ne hne
  have hba : equalLanes (decodeFmt f b) (decodeFmt f a) b a = false := by
    rw [ha, hb]
    exact beq_false_of_ne hne.symm
  have hna : (decodeFmt f a).isNan = false := by rw [ha]; rfl
  have hnb : (decodeFmt f b).isNan = false := by rw [hb]; rfl
  obtain ⟨h1, h2, h3, h4⟩ := maxMin_of_lt h hf hna hnb hlt hge
  refine ⟨h1, h2, h3, h4, fun rel => ?_, fun rel => ?_⟩
  · rw [laneCmp_ieee h hf, hab, hna, hnb, hlt]
    cases rel <;> rfl
  · rw [laneCmp_ieee h hf, hba, hna, hnb, hge]
    cases rel <;> rfl

theorem order_zero (h : f.isFloat = true) (hf : isTap f = false) (ha : decodeFmt f a = .zero true)
    (hb : decodeFmt f b = .zero false) :
    laneMaxMin f true a b = b ∧ laneMaxMin f true b a = b ∧ laneMaxMin f false a b = a ∧ laneMaxMin f false b a = a
    ∧ ∀ rel, laneCmp f rel a b = decide (rel = .eq ∨ rel = .le ∨ rel = .ge) := by
  have hna : (decodeFmt f a).isNan = false := by rw [ha]; rfl
  have hnb : (decodeFmt f b).isNan = false := by rw [hb]; rfl
  obtain ⟨h1, h2, h3, h4⟩ := maxMin_of_lt h hf hna hnb (by rw [ha, hb]; rfl) (by rw [ha, hb]; rfl)
  refine ⟨h1, h2, h3, h4, fun rel => ?_⟩
  rw [laneCmp_ieee h hf, ha, hb]
  cases rel <;> rfl

/-- The signed value of a string is that of the word. -/
theorem signedOf_eq_toInt (w x : Nat) (hw : 1 ≤ w) (hx : x < 2 ^ w) : signedOf w x = (BitVec.ofNat w x).toInt := by
  have h2 := Nat.two_pow_pred_mul_two (w := w) hw
  rw [BitVec.toInt_eq_toNat_cond, BitVec.toNat_ofNat, Nat.mod_eq_of_lt hx, signedOf]
  rcases lt_or_ge x (2 ^ (w - 1)) with hlt | hge
  · rw [Nat.testBit_lt_two_pow hlt, if_neg Bool.false_ne_true, if_pos (by omega)]
  · have hbit : x.testBit (w - 1) = true := by
      obtain ⟨y, rfl⟩ := Nat.exists_eq_add_of_le hge
      exact testBit_top _ y (by omega)
    rw [hbit, if_pos rfl, if_neg (by omega)]
    push_cast
    rfl

theorem order_tap (hf : isTap f = true) (ha : a < 2 ^ f.width.bits) (hb : b < 2 ^ f.width.bits)
    (hlt : (BitVec.ofNat f.width.bits a).toInt < (BitVec.ofNat f.width.bits b).toInt) :
    laneMaxMin f true a b = b ∧ laneMaxMin f true b a = b ∧ laneMaxMin f false a b = a ∧ laneMaxMin f false b a = a
    ∧ laneCmp f .lt a b = true ∧ laneCmp f .ge a b = false ∧ laneCmp f .gt b a = true ∧ laneCmp f .eq a b = false := by
  have hw := (bits_ge f.width).1
  rw [← signedOf_eq_toInt _ a (by omega) ha, ← signedOf_eq_toInt _ b (by omega) hb] at hlt
  have hne : a ≠ b := by
    rintro rfl
    exact lt_irrefl _ hlt
  cases f with
  | tap w es =>
    simp only [Fmt.width] at hlt
    simp [laneMaxMin, laneCmp, hlt, hlt.le.not_gt, hne, hne.symm]
  | int | f32 | bf16 | e4m3 | e5m2 => cases hf

/-! #### Prefixes (R413) -/

/-- Finite terms add their units, and leave every mark but that of the signed zeros. -/
theorem foldl_add_fin (ts : List Dyadic) (p : Prefix) :
    let q := (ts.map Val.fin).foldl Prefix.add p
    q.sum = p.sum + (ts.map quireUnits).sum ∧ q.nan = p.nan ∧ q.posInf = p.posInf ∧ q.negInf = p.negInf := by
  induction ts generalizing p with
  | nil => simp
  | cons t ts ih =>
    obtain ⟨hs, hn, hp, hi⟩ := ih (p.add (.fin t))
    refine ⟨?_, hn, hp, hi⟩
    rw [List.map_cons, List.foldl_cons, hs, List.map_cons, List.sum_cons, ← add_assoc]
    rfl

theorem prefixResult_fin (f : Fmt) (ts : List Dyadic) (hts : ∀ t ∈ ts, -336 ≤ t.e)
    (h0 : (ts.map (fun t => t.m * 2 ^ (t.e + 336).toNat)).sum ≠ 0) :
    ((ts.map Val.fin).foldl Prefix.add Prefix.empty).result f
      = roundT f .nearest { m := (ts.map (fun t => t.m * 2 ^ (t.e + 336).toNat)).sum, e := -336 } := by
  have hunits : ts.map quireUnits = ts.map (fun t => t.m * 2 ^ (t.e + 336).toNat) := by
    refine List.map_congr_left fun t ht => ?_
    rw [quireUnits, shiftInt, if_pos (by have := hts t ht; omega), pow2]
  obtain ⟨hs, hn, hp, hi⟩ := foldl_add_fin ts Prefix.empty
  rw [hunits, show Prefix.empty.sum = 0 from rfl, zero_add] at hs
  rw [Prefix.result, hs, hn, hp, hi, if_neg h0]
  rfl

end

end Sys2Proof.Machine
end

section
/-! ### Conversions (R119, R120) -/

namespace Sys2Proof.Machine

theorem convertLane_of_ne {src dst : Fmt} (h : src ≠ dst) (bits : Nat) (sat : Bool) (mode : RMode) :
    convertLane bits src dst sat mode = convertVal (decodeFmt src bits) src dst sat mode := by
  rw [convertLane, if_neg h, convert]

/-- A finite value of the same format stays. -/
theorem convertLane_same {src : Fmt} {bits : Nat} {d : Dyadic} (hd : decodeFmt src bits = .fin d) (sat : Bool)
    (mode : RMode) :
    convertLane bits src src sat mode = (bits, 0) := by
  rw [convertLane, if_pos rfl, hd]

/-! #### To a Float format -/

theorem convertVal_tap (w : LaneW) (es : BitVec 2) (src : Fmt) (d : Dyadic) (sat : Bool) (mode : RMode) :
    convertVal (.fin d) src (.tap w es) sat mode = roundT (.tap w es) mode d := rfl

theorem convertVal_ieee {dst : Fmt} {p : Ieee} (hp : Fmt.ieee dst = some p) (src : Fmt) (d : Dyadic) (sat : Bool)
    (mode : RMode) :
    convertVal (.fin d) src dst sat mode = saturate dst sat (decide (d.m < 0)) (roundT dst mode d) := by
  cases dst with
  | int | tap => cases hp
  | f32 | bf16 | e4m3 | e5m2 => rfl

/-- The result of a rounding is infinite exactly with OVF, also of the value 0. -/
theorem roundT_infinite_iff {dst : Fmt} {p : Ieee} (hp : Fmt.ieee dst = some p) (h : dst.isFloat = true) (mode : RMode)
    (d : Dyadic) : decide ((roundT dst mode d).1 % 2 ^ (dst.width.bits - 1) = infMag dst)
        = (roundT dst mode d).2.getLsbD 2 := by
  by_cases hd : d.m = 0
  · have hpos : 0 < 2 ^ p.m := by positivity
    have hinf := ieee_le_infMag hp
    rw [roundT, if_pos hd, decide_eq_false (by rw [Nat.zero_mod]; omega)]
    exact BitVec.getLsbD_zero.symm
  · rw [Bool.eq_iff_iff, roundT_ovf_iff dst h mode d hd, decide_eq_true_eq]
    simp [ieee_isTap hp]

theorem convertLane_float {src dst : Fmt} (hne : src ≠ dst) (h : dst.isFloat = true) (sat : Bool) (mode : RMode)
    {bits : Nat}
    {d : Dyadic} (hd : decodeFmt src bits = .fin d) :
    convertLane bits src dst sat mode = if sat && !isTap dst && (roundT dst mode d).2.getLsbD 2 then
      (maxFiniteMag dst + (if d.m < 0 then 2 ^ (dst.width.bits - 1) else 0), (roundT dst mode d).2 ||| 0x20)
      else roundT dst mode d := by
  rw [convertLane_of_ne hne, hd]
  rcases isFloat_cases h with ⟨w, es, rfl⟩ | ⟨p, hp⟩
  · simp [convertVal_tap, isTap]
  · rw [convertVal_ieee hp, saturate, fmtBits, roundT_infinite_iff hp h]
    congr 2
    by_cases hs : d.m < 0 <;> simp [withSign, hs]

/-! #### To an integer format -/

/-- y is the integer nearest to D, the even one of a tie. -/
def NearestInt (D : ℝ) (y : Int) : Prop := |(y : ℝ) - D| < 1 / 2 ∨ |(y : ℝ) - D| = 1 / 2 ∧ y % 2 = 0

theorem NearestInt.unique {D : ℝ} {y z : Int} (hy : NearestInt D y) (hz : NearestInt D z) : y = z := by
  have hle : ∀ {x : Int}, NearestInt D x → |(x : ℝ) - D| ≤ 1 / 2 := fun h => h.elim le_of_lt fun h => h.1.le
  have htri : |(y : ℝ) - z| ≤ |(y : ℝ) - D| + |(z : ℝ) - D| := by
    rw [abs_sub_comm (z : ℝ) D]
    exact abs_sub_le _ _ _
  have hcast : |(y : ℝ) - z| = ((|y - z| : Int) : ℝ) := by push_cast; rfl
  rw [hcast] at htri
  have h1 : ((|y - z| : Int) : ℝ) ≤ 1 := htri.trans (by linarith [hle hy, hle hz])
  replace h1 : |y - z| ≤ 1 := by exact_mod_cast h1
  rcases h1.lt_or_eq with hlt | heq
  · have := abs_lt.1 hlt
    omega
  · rw [heq, Int.cast_one] at htri
    have hy2 : y % 2 = 0 := (hy.resolve_left fun h => by linarith [hle hz]).2
    have hz2 : z % 2 = 0 := (hz.resolve_left fun h => by linarith [hle hy]).2
    rcases abs_eq (zero_le_one' Int) |>.1 heq with h | h <;> omega

theorem NearestInt.neg {D : ℝ} {y : Int} (h : NearestInt D y) : NearestInt (-D) (-y) := by
  have hd : |((-y : Int) : ℝ) - -D| = |(y : ℝ) - D| := by
    rw [← abs_neg]
    congr 1
    push_cast
    ring
  unfold NearestInt at h ⊢
  rw [hd]
  exact h.imp_right fun ⟨h1, h2⟩ => ⟨h1, by omega⟩

/-- A cut without flags of its own rounds to the nearest integer. -/
theorem CutResult.At.nearestInt {c : CutResult} {P : ℝ} (h : c.At P) (hfl : c.flags = 0) :
    NearestInt P (c.round .nearest).1 ∧ (P = (c.round .nearest).1 → (c.round .nearest).2 = 0)
    ∧ (P ≠ (c.round .nearest).1 → (c.round .nearest).2 = flInx) := by
  cases hc : c.inexact
  · rw [c.round_of_exact _ hc, h.eq_of_exact hc, hfl]
    exact ⟨.inl (by norm_num), fun _ => rfl, fun hne => absurd rfl hne⟩
  · obtain ⟨hlo, hhi⟩ := h.between_of_inexact hc
    obtain ⟨hup, hdown⟩ := h.up_nearest
    rw [c.round_of_inexact _ hc, hfl]
    cases hb : c.up .nearest
    · obtain ⟨h1, h2⟩ := hdown hb hc
      simp only [Bool.false_eq_true, if_false]
      refine ⟨?_, fun he => by linarith, fun _ => rfl⟩
      rw [NearestInt, Int.cast_natCast, abs_of_neg (by linarith)]
      rcases h1.lt_or_eq with hlt | heq
      · exact .inl (by linarith)
      · exact .inr ⟨by linarith, by have := h2 heq; omega⟩
    · obtain ⟨h1, h2⟩ := hup hb
      simp only [if_true]
      push_cast
      refine ⟨?_, fun he => by linarith, fun _ => rfl⟩
      rw [NearestInt]
      push_cast
      rw [abs_of_pos (by linarith)]
      rcases h1.lt_or_eq with hlt | heq
      · exact .inl (by linarith)
      · exact .inr ⟨by linarith, by have := h2 heq.symm; omega⟩

theorem roundToInt_nearest (d : Dyadic) :
    NearestInt d.real (roundToInt .nearest d).1 ∧ (d.real = (roundToInt .nearest d).1 → (roundToInt .nearest d).2 = 0)
    ∧ (d.real ≠ (roundToInt .nearest d).1 → (roundToInt .nearest d).2 = flInx) := by
  by_cases hd : d.m = 0
  · rw [roundToInt, if_pos hd, Dyadic.real_of_m_eq_zero hd]
    exact ⟨.inl (by norm_num), fun _ => rfl, fun hne => absurd Int.cast_zero.symm hne⟩
  · have hat : (cutInt { mag := d.m.natAbs, e := d.e, sticky := false }).At |d.real| := by
      obtain ⟨θ, hθ, hval⟩ := d.holds
      rw [hval]
      exact cutShift_at _ _ _ θ hθ (fun h => absurd h (by simp))
    obtain ⟨hn, h0, h1⟩ := hat.nearestInt (cutShift_flags _ _ _)
    have hr := d.real_eq_sgn
    rw [roundToInt, if_neg hd]
    generalize (cutInt { mag := d.m.natAbs, e := d.e, sticky := false }).round .nearest = r at *
    by_cases hs : d.m < 0
    · rw [decide_eq_true hs, sgn, if_pos rfl, neg_one_mul] at hr
      simp only [if_pos hs]
      rw [hr]
      refine ⟨hn.neg, fun he => h0 ?_, fun hne => h1 fun he => hne ?_⟩ <;> push_cast at * <;> linarith
    · rw [decide_eq_false hs, sgn, if_neg Bool.false_ne_true, one_mul] at hr
      simp only [if_neg hs]
      rw [hr]
      exact ⟨hn, h0, h1⟩

/-- The condition of the obligation on y: twice the distance in units of a power of two. -/
theorem nearestInt_of_units (d : Dyadic) (y e : Int) (he : e = min 0 d.e)
    (h : 2 * (y * 2 ^ (-e).toNat - d.m * 2 ^ (d.e - e).toNat).natAbs < 2 ^ (-e).toNat
      ∨ (2 * (y * 2 ^ (-e).toNat - d.m * 2 ^ (d.e - e).toNat).natAbs = 2 ^ (-e).toNat ∧ y % 2 = 0)) :
    NearestInt d.real y := by
  have hunit := inUnits_sub_cast (x := { m := y, e := 0 }) (d := d) (e := e) (by simp only; omega) (by omega)
  have hp : (0 : ℝ) < 2 ^ (-e) := by positivity
  have hone : ((2 ^ (-e).toNat : Nat) : ℝ) = 2 ^ (-e) := by
    rw [Nat.cast_pow, Nat.cast_two, ← zpow_natCast, Int.toNat_of_nonneg (by omega)]
  have hy : ({ m := y, e := 0 } : Dyadic).real = y := by simp [Dyadic.real]
  simp only [Dyadic.inUnits, zero_sub] at hunit
  rw [hy] at hunit
  refine h.imp (fun h => ?_) (fun ⟨h, h2⟩ => ⟨?_, h2⟩)
  · have hr : (2 : ℝ) * (|(y : ℝ) - d.real| * 2 ^ (-e)) < 2 ^ (-e) := by
      rw [← hunit, ← hone]
      exact_mod_cast h
    rw [← mul_assoc] at hr
    linarith [lt_of_mul_lt_mul_right (hr.trans_eq (one_mul _).symm) hp.le]
  · have hr : (2 : ℝ) * (|(y : ℝ) - d.real| * 2 ^ (-e)) = 2 ^ (-e) := by
      rw [← hunit, ← hone]
      exact_mod_cast h
    rw [← mul_assoc] at hr
    linarith [mul_right_cancel₀ hp.ne' (hr.trans (one_mul _).symm)]

theorem exact_iff_real (d : Dyadic) (y : Int) : d.m * 2 ^ d.e.toNat = y * 2 ^ (-d.e).toNat ↔ d.real = y := by
  have hunit := inUnits_eq_iff (x := d) (y := { m := y, e := 0 }) (min_le_right 0 d.e) (min_le_left 0 d.e)
  have hy : ({ m := y, e := 0 } : Dyadic).real = y := by simp [Dyadic.real]
  rw [hy] at hunit
  rw [← hunit, Dyadic.inUnits, Dyadic.inUnits, show (d.e - min 0 d.e).toNat = d.e.toNat by omega,
    show ((0 : Int) - min 0 d.e).toNat = (-d.e).toNat by omega]

/-- The range rules of R119 for an integer destination. -/
theorem convertVal_int (src : Fmt) (sg : Bool) (lw : LaneW) (sat : Bool) (mode : RMode) (d : Dyadic) :
    let y := (roundToInt mode d).1
    let low := intMin sg lw.bits
    let high := intMax sg lw.bits
    (convertVal (.fin d) src (.int sg lw) sat mode).1 = (if low ≤ y ∧ y ≤ high then wrapInt lw.bits y
      else if sat then wrapInt lw.bits (if y < 0 then low else high)
      else if src.isInt then wrapInt lw.bits y else 2 ^ (lw.bits - 1))
    ∧ (convertVal (.fin d) src (.int sg lw) sat mode).2 = (roundToInt mode d).2
      ||| (if low ≤ y ∧ y ≤ high then 0 else (if src.isInt then 0 else flInv) ||| (if sat then flClmp else 0)) := by
  simp only [convertVal]
  by_cases hr : intMin sg lw.bits ≤ (roundToInt mode d).1 ∧ (roundToInt mode d).1 ≤ intMax sg lw.bits
  · simp [hr]
  · cases hi : src.isInt <;> cases sat <;> simp [hr, BitVec.or_assoc]

theorem convertLane_int {src : Fmt} {sg : Bool} {lw : LaneW} (hne : src ≠ .int sg lw) (sat : Bool) {bits : Nat}
    {d : Dyadic}
    (hd : decodeFmt src bits = .fin d) (y : Int) (hy : NearestInt d.real y) :
    let w := lw.bits
    let low : Int := if sg then -(2 ^ (w - 1)) else 0
    let high : Int := if sg then 2 ^ (w - 1) - 1 else 2 ^ w - 1
    (convertLane bits src (.int sg lw) sat .nearest).1 = (if low ≤ y ∧ y ≤ high then (y % 2 ^ w).toNat
        else if sat then ((if y < 0 then low else high) % 2 ^ w).toNat
        else if src.isInt then (y % 2 ^ w).toNat else 2 ^ (w - 1))
    ∧ (convertLane bits src (.int sg lw) sat .nearest).2
        = (if d.m * 2 ^ d.e.toNat = y * 2 ^ (-d.e).toNat then 0 else 0x01)
        ||| (if low ≤ y ∧ y ≤ high then 0 else (if src.isInt then 0 else 0x10) ||| (if sat then 0x20 else 0)) := by
  obtain ⟨hn, h0, h1⟩ := roundToInt_nearest d
  obtain rfl := hy.unique hn
  obtain ⟨hv, hf⟩ := convertVal_int src sg lw sat .nearest d
  have hfl : (roundToInt .nearest d).2
      = if d.m * 2 ^ d.e.toNat = (roundToInt .nearest d).1 * 2 ^ (-d.e).toNat then 0 else 0x01 := by
    split
    · rename_i he
      exact h0 ((exact_iff_real d _).1 he)
    · rename_i he
      exact h1 (mt (exact_iff_real d _).2 he)
  rw [convertLane_of_ne hne, hd, hv, hf, hfl]
  simp only [wrapInt, intMin, intMax, Nat.cast_pow, Nat.cast_ofNat, true_and]
  rfl

/-! #### Special values (Table 5-7) -/

theorem convertLane_special {src dst : Fmt} (hne : src ≠ dst) (sat : Bool) (mode : RMode) {bits : Nat} {x : Val}
    (hx : decodeFmt src bits = x) (hfin : ∀ d, x ≠ .fin d) :
    convertLane bits src dst sat mode = specialConv x dst sat := by
  rw [convertLane_of_ne hne, hx]
  cases x with
  | fin d => exact absurd rfl (hfin d)
  | zero | inf | nan | nar => rfl

/-- The largest finite, the infinite and the not-a-number string of an IEEE-style format with a sign. -/
theorem specialConv_ieee {dst : Fmt} (h : (!isTap dst && !dst.isInt) = true) (sat neg : Bool) :
    let sign := if neg then 2 ^ (dst.width.bits - 1) else 0
    specialConv (.zero neg) dst sat = (sign, 0)
    ∧ specialConv (.inf neg) dst sat
      = (if sat then (maxFiniteMag dst + sign, 0x24) else (infMag dst + sign, if dst = .e4m3 then 0x04 else 0))
    ∧ specialConv (.nan neg) dst sat = (canonicalNan dst neg, 0)
        ∧ specialConv .nar dst sat = (canonicalNan dst false, 0x10) := by
  cases dst with
  | int | tap => cases h
  | f32 | bf16 | e4m3 | e5m2 => cases neg <;> cases sat <;> decide

theorem specialConv_tap {dst : Fmt} (h : isTap dst = true) (sat neg : Bool) :
    let nar : Rounded := (2 ^ (dst.width.bits - 1), 0x50)
    specialConv (.zero neg) dst sat = (0, 0) ∧ specialConv (.inf neg) dst sat = nar
        ∧ specialConv (.nan neg) dst sat = nar
    ∧ specialConv .nar dst sat = (2 ^ (dst.width.bits - 1), 0) := by
  have hfl : flInv ||| flNar = 0x50 := by decide
  cases dst with
  | tap w es => exact ⟨rfl, congrArg (Prod.mk _) hfl, congrArg (Prod.mk _) hfl, rfl⟩
  | int | f32 | bf16 | e4m3 | e5m2 => cases h

/-- The bounds of an integer format as words of its width. -/
theorem wrapInt_bound (sg neg : Bool) (w : LaneW) :
    wrapInt w.bits (if neg then intMin sg w.bits else intMax sg w.bits)
      = if neg then (if sg then 2 ^ (w.bits - 1) else 0) else
          (if sg then 2 ^ (w.bits - 1) - 1 else 2 ^ w.bits - 1) := by
  cases w <;> cases sg <;> cases neg <;> decide

theorem specialConv_int (sg : Bool) (lw : LaneW) (sat neg : Bool) :
    let w := lw.bits
    specialConv (.zero neg) (.int sg lw) sat = (0, 0)
    ∧ specialConv (.inf neg) (.int sg lw) sat
      = (if sat then (if neg then (if sg then 2 ^ (w - 1) else 0) else (if sg then 2 ^ (w - 1) - 1 else 2 ^ w - 1),
          0x30)
        else (2 ^ (w - 1), 0x10))
    ∧ specialConv (.nan neg) (.int sg lw) sat = (if sat then 0 else 2 ^ (w - 1), 0x10)
    ∧ specialConv .nar (.int sg lw) sat = (if sat then 0 else 2 ^ (w - 1), 0x10) := by
  have hfl : flInv ||| flClmp = 0x30 := by decide
  refine ⟨rfl, ?_, rfl, rfl⟩
  simp only [specialConv, wrapInt_bound, hfl]
  rfl

/-- Special values convert as the table says. -/
theorem convertLane_table {src dst : Fmt} (hne : src ≠ dst) (sat neg : Bool) (mode : RMode) (bits : Nat) :
    let w := dst.width.bits
    let ieee := !isTap dst && !dst.isInt
    let sign := if neg then 2 ^ (w - 1) else 0
    let tapNan : Rounded := (2 ^ (w - 1), 0x50)
    (decodeFmt src bits = .zero neg → convertLane bits src dst sat mode = (if ieee then sign else 0, 0))
    ∧ (decodeFmt src bits = .inf neg →
        (ieee = true → convertLane bits src dst sat mode
          = if sat then (maxFiniteMag dst + sign, 0x24) else (infMag dst + sign, if dst = .e4m3 then 0x04 else 0))
        ∧ (isTap dst = true → convertLane bits src dst sat mode = tapNan)
        ∧ (∀ sg lw, dst = .int sg lw → convertLane bits src dst sat mode =
            if sat then (if neg then (if sg then 2 ^ (w - 1) else 0) else (if sg then 2 ^ (w - 1) - 1 else 2 ^ w - 1),
                0x30)
            else (2 ^ (w - 1), 0x10)))
    ∧ (decodeFmt src bits = .nan neg →
        (ieee = true → convertLane bits src dst sat mode = (canonicalNan dst neg, 0))
        ∧ (isTap dst = true → convertLane bits src dst sat mode = tapNan)
        ∧ (dst.isInt = true → convertLane bits src dst sat mode = (if sat then 0 else 2 ^ (w - 1), 0x10)))
    ∧ (decodeFmt src bits = .nar →
        (ieee = true → convertLane bits src dst sat mode = (canonicalNan dst false, 0x10))
        ∧ (isTap dst = true → convertLane bits src dst sat mode = (2 ^ (w - 1), 0))
        ∧ (dst.isInt = true → convertLane bits src dst sat mode = (if sat then 0 else 2 ^ (w - 1), 0x10))) := by
  have hint : ∀ {g : Fmt}, g.isInt = true → ∃ sg lw, g = .int sg lw := fun {g} h => by
    cases g with
    | int sg lw => exact ⟨sg, lw, rfl⟩
    | tap | f32 | bf16 | e4m3 | e5m2 => cases h
  have hconv : ∀ {x : Val}, decodeFmt src bits = x → (∀ d, x ≠ .fin d) →
      convertLane bits src dst sat mode = specialConv x dst sat := fun hx => convertLane_special hne sat mode hx
  refine ⟨fun hx => ?_, fun hx => ?_, fun hx => ?_, fun hx => ?_⟩ <;> rw [hconv hx (by simp)]
  · cases hi : (!isTap dst && !dst.isInt)
    · cases dst with
      | int | tap => rfl
      | f32 | bf16 | e4m3 | e5m2 => cases hi
    · exact (specialConv_ieee hi sat neg).1
  · refine ⟨fun h => (specialConv_ieee h sat neg).2.1, fun h => (specialConv_tap h sat neg).2.1, ?_⟩
    rintro sg lw rfl
    exact (specialConv_int sg lw sat neg).2.1
  · refine ⟨fun h => (specialConv_ieee h sat neg).2.2.1, fun h => (specialConv_tap h sat neg).2.2.1, fun h => ?_⟩
    obtain ⟨sg, lw, rfl⟩ := hint h
    exact (specialConv_int sg lw sat neg).2.2.1
  · refine ⟨fun h => (specialConv_ieee h sat neg).2.2.2, fun h => (specialConv_tap h sat neg).2.2.2, fun h => ?_⟩
    obtain ⟨sg, lw, rfl⟩ := hint h
    exact (specialConv_int sg lw sat neg).2.2.2

end Sys2Proof.Machine
end

section
/-! ### The functions of R122 and their special cases (R123, Table 5-8) -/

namespace Sys2Proof.Machine

theorem laneFn_bits {fn : Fn} {f : Fmt} {a : Nat} {r : Rounded} (h : fnSpecial fn f (decodeFmt f a) = .bits r) :
    laneFn fn f a = r := by
  rw [laneFn, h]

/-- A value is rounded once. -/
theorem laneFn_val_fst {fn : Fn} {f : Fmt} {a : Nat} {neg : Bool} {x : Exact}
    (h : fnSpecial fn f (decodeFmt f a) = .val neg x) : (laneFn fn f a).1 = (roundExact f .nearest neg x).1 := by
  rw [laneFn, h]

/-- Where the result stays inside the range, the flags are those of RoundT. -/
theorem laneFn_val {fn : Fn} {f : Fmt} {a : Nat} {neg : Bool} {x : Exact}
    (h : fnSpecial fn f (decodeFmt f a) = .val neg x)
        (hr : (roundExact f .nearest neg x).2 &&& (flOvf ||| flClmp) = 0) :
    laneFn fn f a = roundExact f .nearest neg x := by
  rw [laneFn, h]
  simp only [hr, ne_eq, not_true_eq_false, if_false]

/-- 1, −1 and 1/2 stand inside the range of every format of the functions. -/
theorem unit_flags (f : Fmt) (h : f.isTransc = true) (neg : Bool) (e : Int) (he : e = 0 ∨ e = -1) :
    (roundExact f .nearest neg { mag := 1, e := e, sticky := false }).2 &&& (flOvf ||| flClmp) = 0 := by
  rcases he with rfl | rfl <;> cases f with
  | f32 | bf16 => revert neg; decide
  | tap w es =>
    cases w with
    | w16 => revert neg es; decide
    | w32 | w8 => cases h
  | int | e4m3 | e5m2 => cases h

theorem isFloat_of_isTransc {f : Fmt} (h : f.isTransc = true) : f.isFloat = true := by
  cases f with
  | f32 | bf16 => rfl
  | tap w es =>
    cases w with
    | w16 => rfl
    | w32 | w8 => cases h
  | int | e4m3 | e5m2 => cases h

/-- The NaN or NaR of a special case, with its flags. -/
def badResult (f : Fmt) (fl : Flags) : Rounded := (canonicalNan f false, if isTap f then fl ||| 0x40 else fl)

/-- An infinite result of a zero, or the NaR of a tapered format, with DZ. -/
theorem dz_result (f : Fmt) (neg : Bool) :
    (if isTap f then FnResult.bits (canonicalNan f false, if isTap f then flDz ||| flNar else flDz)
      else .bits (withSign (fmtBits f) neg (infMag f), flDz))
    = .bits (if isTap f then badResult f 0x08 else (withSign f.width.bits neg (infMag f), 0x08)) := by
  cases h : isTap f <;> simp [badResult, h, flDz, flNar, fmtBits]

section
variable {f : Fmt} {a : Nat}

theorem laneFn_nan (h : (decodeFmt f a).isNan = true) (fn : Fn) : laneFn fn f a = (canonicalNan f false, 0) := by
  obtain ⟨s, hs⟩ | hs := isNan_cases h <;> exact laneFn_bits (by rw [hs]; rfl)

theorem laneFn_zero (h : f.isTransc = true) {n : Bool} (hz : decodeFmt f a = .zero n) :
    laneFn .rcp f a = (if isTap f then badResult f 0x08 else (withSign f.width.bits n (infMag f), 0x08))
    ∧ laneFn .rsq f a = (if isTap f then badResult f 0x08 else (withSign f.width.bits n (infMag f), 0x08))
    ∧ laneFn .sqrt f a = (zeroResult f n, 0) ∧ laneFn .tanh f a = (zeroResult f n, 0)
    ∧ laneFn .log2 f a = (if isTap f then badResult f 0x08 else (withSign f.width.bits true (infMag f), 0x08))
    ∧ laneFn .exp2 f a = roundT f .nearest { m := 1, e := 0 }
        ∧ laneFn .sigm f a = roundT f .nearest { m := 1, e := -1 } := by
  refine ⟨laneFn_bits ?_, laneFn_bits ?_, laneFn_bits (by rw [hz]; rfl), laneFn_bits (by rw [hz]; rfl), laneFn_bits ?_,
    laneFn_val (by rw [hz]; rfl) (unit_flags f h false 0 (.inl rfl)),
    laneFn_val (by rw [hz]; rfl) (unit_flags f h false (-1) (.inr rfl))⟩ <;> rw [hz] <;> exact dz_result f _

theorem laneFn_inf (h : f.isTransc = true) {n : Bool} (hi : decodeFmt f a = .inf n) :
    laneFn .rcp f a = (zeroResult f n, 0) ∧ laneFn .rsq f a = (if n then badResult f 0x10 else (0, 0))
    ∧ laneFn .sqrt f a = (if n then badResult f 0x10 else (withSign f.width.bits false (infMag f), 0))
    ∧ laneFn .exp2 f a = (if n then (0, 0) else (withSign f.width.bits false (infMag f), 0))
    ∧ laneFn .log2 f a = (if n then badResult f 0x10 else (withSign f.width.bits false (infMag f), 0))
    ∧ laneFn .tanh f a = roundT f .nearest { m := if n then -1 else 1, e := 0 }
    ∧ laneFn .sigm f a = (if n then (0, 0) else roundT f .nearest { m := 1, e := 0 }) := by
  have hzero : zeroResult f false = 0 := by rw [zeroResult_eq]; rfl
  refine ⟨laneFn_bits (by rw [hi]; rfl), laneFn_bits ?_, laneFn_bits ?_, laneFn_bits ?_, laneFn_bits ?_, ?_, ?_⟩
  · rw [hi]
    cases n <;> simp [fnSpecial, badResult, hzero, flInv, flNar]
  · rw [hi]
    cases n <;> simp [fnSpecial, badResult, flInv, flNar, fmtBits]
  · rw [hi]
    cases n <;> simp [fnSpecial, hzero, fmtBits]
  · rw [hi]
    cases n <;> simp [fnSpecial, badResult, flInv, flNar, fmtBits]
  · rw [laneFn_val (neg := n) (x := { mag := 1, e := 0, sticky := false }) (by rw [hi]; rfl)
      (unit_flags f h n 0 (.inl rfl))]
    cases n <;> rfl
  · cases n
    · exact laneFn_val (by rw [hi]; rfl) (unit_flags f h false 0 (.inl rfl))
    · exact laneFn_bits (by rw [hi]; simp [fnSpecial, hzero])

theorem laneFn_negative {x : Dyadic} (hx : decodeFmt f a = .fin x) (hm : x.m < 0) :
    laneFn .rsq f a = badResult f 0x10 ∧ laneFn .sqrt f a = badResult f 0x10 ∧ laneFn .log2 f a = badResult f 0x10 := by
  refine ⟨laneFn_bits ?_, laneFn_bits ?_, laneFn_bits ?_⟩ <;> rw [hx] <;> exact if_pos hm

/-! #### Powers of two -/

/-- A finite value is not zero. -/
theorem decode_fin_ne_zero (h : f.isFloat = true) (ha : a < 2 ^ f.width.bits) {x : Dyadic}
    (hx : decodeFmt f a = .fin x) :
    x.m ≠ 0 := by
  intro h0
  have hn : Names f a x := ⟨ha, .inl hx⟩
  obtain ⟨neg, u, rfl, hu, hval⟩ := hn.exists_mag h
  have hu0 : u = 0 := by
    by_contra hne
    have hpos := magValue_pos f h u hne (hu.trans (maxFinite_le_top f h).1)
    rw [Dyadic.real_of_m_eq_zero h0] at hval
    cases neg <;> simp [sgn] at hval <;> linarith
  obtain ⟨g, hg⟩ := decode_strOf_zero f h neg
  rw [hu0, hg] at hx
  cases hx

/-- 2^n of an integer n (R122). -/
theorem fnExp2_int {x : Dyadic} (hm : x.m ≠ 0) (n : Int) (hn : n.natAbs < 1024)
    (hx : x.m * 2 ^ x.e.toNat = n * 2 ^ (-x.e).toNat) :
    fnExp2 x = .val false { mag := 1, e := n, sticky := false } := by
  have hlog : ¬ 10 < (x.m.natAbs.log2 : Int) + x.e := by
    have habs : x.m.natAbs * 2 ^ x.e.toNat = n.natAbs * 2 ^ (-x.e).toNat := by
      have := congrArg Int.natAbs hx
      rwa [Int.natAbs_mul, Int.natAbs_mul, Int.natAbs_pow, Int.natAbs_pow] at this
    have hle := Nat.log2_self_le (Int.natAbs_ne_zero.2 hm)
    have hlt : 2 ^ (x.m.natAbs.log2 + x.e.toNat) < 2 ^ (10 + (-x.e).toNat) := by
      calc 2 ^ (x.m.natAbs.log2 + x.e.toNat) ≤ x.m.natAbs * 2 ^ x.e.toNat := by
            rw [pow_add]
            exact Nat.mul_le_mul_right _ hle
        _ = n.natAbs * 2 ^ (-x.e).toNat := habs
        _ < 2 ^ (10 + (-x.e).toNat) := by
            rw [pow_add]
            exact Nat.mul_lt_mul_of_pos_right hn (by positivity)
    have := (Nat.pow_lt_pow_iff_right one_lt_two).1 hlt
    omega
  by_cases he : 0 ≤ x.e
  · rw [show (-x.e).toNat = 0 by omega, pow_zero, mul_one] at hx
    rw [fnExp2, if_neg hlog, if_pos he, pow2, hx]
  · have hden : (2 : Int) ^ (-x.e).toNat ≠ 0 := by positivity
    rw [show x.e.toNat = 0 by omega, pow_zero, mul_one] at hx
    rw [fnExp2, if_neg hlog, if_neg he]
    simp only [pow2, hx, Int.mul_emod_left, Int.toNat_zero, if_true, Int.mul_ediv_cancel _ hden]

theorem laneFn_exp2_int (h : f.isFloat = true) (ha : a < 2 ^ f.width.bits) {x : Dyadic} (hx : decodeFmt f a = .fin x)
    (n : Int)
    (hn : n.natAbs < 1024) (hval : x.m * 2 ^ x.e.toNat = n * 2 ^ (-x.e).toNat) :
    (laneFn .exp2 f a).1 = (roundT f .nearest { m := 1, e := n }).1 := by
  have hfn := fnExp2_int (decode_fin_ne_zero h ha hx) n hn hval
  exact laneFn_val_fst (by rw [hx]; exact hfn)

/-- The numerator of a power of two. -/
theorem log2_of_power {x : Dyadic} (hm : 0 < x.m) (n : Int) (hx : x.m * 2 ^ (x.e - n).toNat = 2 ^ (n - x.e).toNat) :
    x.m.natAbs = 2 ^ x.m.natAbs.log2 ∧ (x.m.natAbs.log2 : Int) + x.e = n := by
  have hle : x.e ≤ n := by
    by_contra hlt
    rw [show (n - x.e).toNat = 0 by omega, pow_zero] at hx
    have h2 : (2 : Int) ≤ 2 ^ (x.e - n).toNat := by
      rw [show (x.e - n).toNat = (x.e - n).toNat - 1 + 1 by omega, pow_succ]
      have : (1 : Int) ≤ 2 ^ ((x.e - n).toNat - 1) := one_le_pow₀ (by norm_num)
      linarith
    nlinarith
  rw [show (x.e - n).toNat = 0 by omega, pow_zero, mul_one] at hx
  have habs : x.m.natAbs = 2 ^ (n - x.e).toNat := by
    rw [hx, Int.natAbs_pow]
    rfl
  rw [habs, Nat.log2_two_pow]
  exact ⟨rfl, by omega⟩

theorem laneFn_log2_power {x : Dyadic} (hx : decodeFmt f a = .fin x) (n : Int) (hm : 0 < x.m)
    (hval : x.m * 2 ^ (x.e - n).toNat = 2 ^ (n - x.e).toNat) :
    (laneFn .log2 f a).1 = if n = 0 then 0 else (roundT f .nearest { m := n, e := 0 }).1 := by
  obtain ⟨hpow, hlog⟩ := log2_of_power hm n hval
  have hfn : fnSpecial .log2 f (decodeFmt f a) = fnLog2 f x := by
    rw [hx]
    exact if_neg hm.le.not_gt
  by_cases hn : n = 0
  · rw [if_pos hn, laneFn_bits (r := (zeroResult f false, 0)) (by rw [hfn, fnLog2, if_pos hpow, hlog, if_pos hn]),
      zeroResult_eq]
    rfl
  · rw [if_neg hn, laneFn_val_fst (by rw [hfn, fnLog2, if_pos hpow, hlog, if_neg hn]), roundT, if_neg hn]

end

end Sys2Proof.Machine
end

section
/-! ### Correct rounding of the reciprocal and of the roots (R122, R123) -/

namespace Sys2Proof.Machine

/-! #### The exact values behind the truncated ones -/

/-- A truncated number with a mark for a rest stands for the number. -/
theorem exact_of_floor (q : Nat) (e : Int) (sticky : Bool) (R : ℝ) (h1 : (q : ℝ) ≤ R) (h2 : R < q + 1)
    (hs : sticky = true ↔ R ≠ q) : ({ mag := q, e := e, sticky := sticky } : Exact).Holds (R * 2 ^ e) := by
  refine ⟨R - q, ⟨by linarith, by linarith, fun h => ?_, fun h => ?_⟩, by simp⟩
  · have : R = q := by
      by_contra hne
      rw [hs.2 hne] at h
      cases h
    linarith
  · exact sub_pos.2 (lt_of_le_of_ne h1 (Ne.symm (hs.1 h)))

/-- The magnitude m of a positive dyadic. -/
theorem Dyadic.real_natAbs {x : Dyadic} (hm : 0 < x.m) : x.real = x.m.natAbs * 2 ^ x.e := by
  rw [Dyadic.real, Nat.cast_natAbs, abs_of_pos hm]

/-- 1/x (the quotient of a power of two, truncated, and its remainder). -/
theorem fnRcp_holds {x : Dyadic} (hm : 0 < x.m) :
    ∃ E : Exact, fnRcp x = .val false E ∧ E.mag ≠ 0 ∧ 32 < E.mag.log2 ∧ E.Holds (1 / x.real) := by
  have ha : 0 < x.m.natAbs := Int.natAbs_pos.2 hm.ne'
  set a := x.m.natAbs with hadef
  have hbig : 2 ^ 33 ≤ 2 ^ (a.log2 + 96) / a := by
    rw [Nat.le_div_iff_mul_le ha]
    calc 2 ^ 33 * a ≤ 2 ^ 33 * 2 ^ (a.log2 + 1) := Nat.mul_le_mul_left _ Nat.lt_log2_self.le
      _ ≤ 2 ^ (a.log2 + 96) := by
        rw [← pow_add]
        exact Nat.pow_le_pow_right two_pos (by omega)
  have hne : 2 ^ (a.log2 + 96) / a ≠ 0 := by
    intro h0
    rw [h0] at hbig
    exact absurd hbig (by norm_num)
  refine ⟨_, by rw [fnRcp, decide_eq_false hm.le.not_gt], hne, ?_, ?_⟩
  · exact Nat.lt_of_succ_le ((Nat.le_log2 hne).2 hbig)
  · have ha' : (0 : ℝ) < a := by exact_mod_cast ha
    have hval : 1 / x.real = (2 ^ (a.log2 + 96) / a : ℝ) * 2 ^ (-((a.log2 + 96 : Nat) : Int) - x.e) := by
      rw [Dyadic.real_natAbs hm, ← hadef, zpow_sub₀ two_ne_zero, zpow_neg, zpow_natCast]
      field_simp
    have hdm : (2 ^ (a.log2 + 96) : ℝ) = (2 ^ (a.log2 + 96) / a : Nat) * a + (2 ^ (a.log2 + 96) % a : Nat) := by
      exact_mod_cast (Nat.div_add_mod' _ a).symm
    have hmod : ((2 ^ (a.log2 + 96) % a : Nat) : ℝ) < a := by exact_mod_cast Nat.mod_lt _ ha
    rw [hval]
    refine exact_of_floor _ _ _ _ ?_ ?_ ?_
    · rw [le_div_iff₀ ha', hdm]
      exact le_add_of_nonneg_right (Nat.cast_nonneg _)
    · rw [div_lt_iff₀ ha', hdm]
      linarith
    · rw [decide_eq_true_eq, not_iff_not, div_eq_iff ha'.ne', hdm, add_eq_left]
      exact Nat.cast_eq_zero.symm

/-- The search keeps a lower bound r whose distance to the root is below 2^k. -/
theorem sqrtFloor_eq (n k r : Nat) (h1 : r * r ≤ n) (h2 : n < (r + 2 ^ k) * (r + 2 ^ k)) :
    sqrtFloor n k r = Nat.sqrt n := by
  induction k generalizing r with
  | zero => exact (Nat.eq_sqrt.2 ⟨h1, h2⟩)
  | succ k ih =>
    rw [sqrtFloor]
    rw [pow_succ, mul_two, ← add_assoc] at h2
    split
    · exact ih _ ‹_› h2
    · exact ih _ h1 (not_le.1 ‹_›)

theorem natSqrt_eq (n : Nat) : natSqrt n = Nat.sqrt n := by
  refine sqrtFloor_eq n _ 0 (Nat.zero_le _) ?_
  rw [zero_add, ← pow_add]
  exact Nat.lt_log2_self.trans_le (Nat.pow_le_pow_right two_pos (by omega))

/-- The same value with an even exponent. -/
theorem evenExp_spec {x : Dyadic} (hm : 0 < x.m) :
    (evenExp x).2 % 2 = 0 ∧ 0 < (evenExp x).1 ∧ x.real = (evenExp x).1 * 2 ^ (evenExp x).2 := by
  have ha : 0 < x.m.natAbs := Int.natAbs_pos.2 hm.ne'
  rw [Dyadic.real_natAbs hm]
  unfold evenExp
  split
  · exact ⟨‹_›, ha, rfl⟩
  · refine ⟨by simp only; omega, by simp only; omega, ?_⟩
    rw [zpow_sub_one₀ two_ne_zero]
    push_cast
    ring

theorem evenExp_half {x : Dyadic} (hm : 0 < x.m) :
    x.real = (evenExp x).1 * (2 ^ ((evenExp x).2 / 2) * 2 ^ ((evenExp x).2 / 2)) := by
  obtain ⟨h2, -, hval⟩ := evenExp_spec hm
  rw [hval, ← zpow_add₀ two_ne_zero]
  congr 2
  omega

/-- √x (the integer root of the scaled numerator). -/
theorem fnSqrt_holds {x : Dyadic} (hm : 0 < x.m) :
    ∃ E : Exact, fnSqrt x = .val false E ∧ E.mag ≠ 0 ∧ 32 < E.mag.log2 ∧ E.Holds (Real.sqrt x.real) := by
  obtain ⟨-, ha, -⟩ := evenExp_spec hm
  have hval := evenExp_half hm
  set a := (evenExp x).1
  set e := (evenExp x).2
  have hbig : 2 ^ 96 ≤ Nat.sqrt (a * 2 ^ 192) := by
    rw [Nat.le_sqrt, ← pow_add]
    exact Nat.le_mul_of_pos_left _ ha
  have hne : Nat.sqrt (a * 2 ^ 192) ≠ 0 := by
    intro h0
    rw [h0] at hbig
    exact absurd hbig (by norm_num)
  have hfn : fnSqrt x = .val false
      { mag := natSqrt (a * 2 ^ 192), e := e / 2 - 96
        sticky := decide (natSqrt (a * 2 ^ 192) * natSqrt (a * 2 ^ 192) ≠ a * 2 ^ 192) } := rfl
  simp only [natSqrt_eq] at hfn
  refine ⟨_, hfn, hne, ?_, ?_⟩
  · exact lt_of_lt_of_le (by norm_num) ((Nat.le_log2 hne).2 hbig)
  · have hroot : Real.sqrt x.real = Real.sqrt ((a * 2 ^ 192 : Nat) : ℝ) * 2 ^ (e / 2 - 96) := by
      have hp : (0 : ℝ) ≤ 2 ^ (e / 2 - 96) := by positivity
      conv_rhs => rw [← Real.sqrt_mul_self hp, ← Real.sqrt_mul (Nat.cast_nonneg _)]
      rw [hval]
      congr 1
      rw [zpow_sub₀ two_ne_zero]
      push_cast
      norm_num
      ring
    rw [hroot]
    refine exact_of_floor _ _ _ _ Real.nat_sqrt_le_real_sqrt Real.real_sqrt_lt_nat_sqrt_succ ?_
    rw [decide_eq_true_eq, not_iff_not, Real.sqrt_eq_iff_mul_self_eq (Nat.cast_nonneg _) (Nat.cast_nonneg _)]
    rw [eq_comm]
    exact_mod_cast Iff.rfl

/-- The integer root of 2^(2k)/a is 2^k/√a truncated. -/
theorem rsq_floor (a k : Nat) (ha : 0 < a) :
    let q := Nat.sqrt (2 ^ (2 * k) / a)
    (q : ℝ) ≤ 2 ^ k / Real.sqrt a ∧ 2 ^ k / Real.sqrt a < (q : ℝ) + 1
    ∧ (decide (a * (q * q) ≠ 2 ^ (2 * k)) = true ↔ 2 ^ k / Real.sqrt a ≠ (q : ℝ)) := by
  intro q
  have ha' : (0 : ℝ) < a := by exact_mod_cast ha
  have hsa : 0 < Real.sqrt a := Real.sqrt_pos.2 ha'
  have hlo : q * q * a ≤ 2 ^ (2 * k) := (Nat.le_div_iff_mul_le ha).1 (Nat.sqrt_le (2 ^ (2 * k) / a))
  have hhi : 2 ^ (2 * k) < (q + 1) * (q + 1) * a := (Nat.div_lt_iff_lt_mul ha).1 (Nat.lt_succ_sqrt (2 ^ (2 * k) / a))
  have hsq : ∀ n : Nat, (n * Real.sqrt a) * (n * Real.sqrt a) = (n * n * a : Nat) := fun n => by
    rw [mul_mul_mul_comm, Real.mul_self_sqrt ha'.le]
    push_cast
    rfl
  have hpow : (2 : ℝ) ^ k * 2 ^ k = (2 ^ (2 * k) : Nat) := by
    rw [← pow_add, ← two_mul]
    push_cast
    rfl
  have hp : (0 : ℝ) ≤ 2 ^ k := by positivity
  refine ⟨?_, ?_, ?_⟩
  · rw [le_div_iff₀ hsa, mul_self_le_mul_self_iff (by positivity) hp, hsq, hpow]
    exact_mod_cast hlo
  · rw [div_lt_iff₀ hsa, mul_self_lt_mul_self_iff hp (by positivity), hpow, ← Nat.cast_succ, hsq]
    exact_mod_cast hhi
  · rw [decide_eq_true_eq, not_iff_not, div_eq_iff hsa.ne', ← mul_self_inj hp (by positivity), hsq, hpow, Nat.cast_inj,
      eq_comm, Nat.mul_comm a]

theorem rsq_large (a k : Nat) (ha : 0 < a) (hk : a.log2 + 67 ≤ 2 * k) : 2 ^ 33 ≤ Nat.sqrt (2 ^ (2 * k) / a) := by
  rw [Nat.le_sqrt, ← pow_add, Nat.le_div_iff_mul_le ha]
  calc 2 ^ (33 + 33) * a ≤ 2 ^ (33 + 33) * 2 ^ (a.log2 + 1) := Nat.mul_le_mul_left _ Nat.lt_log2_self.le
    _ ≤ 2 ^ (2 * k) := by
      rw [← pow_add]
      exact Nat.pow_le_pow_right two_pos (by omega)

/-- 1/√x (the integer root of the scaled reciprocal). -/
theorem fnRsq_holds {x : Dyadic} (hm : 0 < x.m) :
    ∃ E : Exact, fnRsq x = .val false E ∧ E.mag ≠ 0 ∧ 32 < E.mag.log2 ∧ E.Holds (1 / Real.sqrt x.real) := by
  obtain ⟨-, ha, -⟩ := evenExp_spec hm
  have hval := evenExp_half hm
  set a := (evenExp x).1
  set e := (evenExp x).2
  obtain ⟨k, hk⟩ : ∃ k, k = a.log2 + 192 := ⟨_, rfl⟩
  have hfn : fnRsq x = .val false
      { mag := natSqrt (2 ^ (2 * k) / a), e := -(e / 2) - k
        sticky := decide (a * (natSqrt (2 ^ (2 * k) / a) * natSqrt (2 ^ (2 * k) / a)) ≠ 2 ^ (2 * k)) } := by
    rw [hk]
    rfl
  simp only [natSqrt_eq] at hfn
  have hbig := rsq_large a k ha (by omega)
  obtain ⟨hlo, hhi, hst⟩ := rsq_floor a k ha
  have hne : Nat.sqrt (2 ^ (2 * k) / a) ≠ 0 := (lt_of_lt_of_le (by positivity) hbig).ne'
  have ha' : (0 : ℝ) < a := by exact_mod_cast ha
  have hsa : 0 < Real.sqrt a := Real.sqrt_pos.2 ha'
  have hroot : 1 / Real.sqrt x.real = (2 ^ k / Real.sqrt a) * 2 ^ (-(e / 2) - (k : Int)) := by
    rw [hval, Real.sqrt_mul ha'.le, Real.sqrt_mul_self (by positivity), zpow_sub₀ two_ne_zero, zpow_neg, zpow_natCast]
    field_simp
  refine ⟨_, hfn, hne, Nat.lt_of_succ_le ((Nat.le_log2 hne).2 hbig), ?_⟩
  rw [hroot]
  exact exact_of_floor _ _ _ _ hlo hhi hst

/-! #### The nearest value to a function's exact one -/

/-- U is next to S among the values of f, and in an IEEE-style format the nearest: against the value Y. -/
structure Neighbour (f : Fmt) (S U Y : ℝ) : Prop where
  le_of_lt : U < Y → S ≤ Y
  ge_of_lt : Y < U → Y ≤ S
  nearest : isTap f = false → |U - S| ≤ |Y - S|
  nonneg : 0 ≤ U

/-- A function whose exact value is S rounds to a neighbour of S. -/
theorem laneFn_neighbour {fn : Fn} {f : Fmt} (h : f.isFloat = true) {a : Nat} {E : Exact} {S : ℝ}
    (hfn : fnSpecial fn f (decodeFmt f a) = .val false E) (hm : E.mag ≠ 0) (hwide : 32 < E.mag.log2) (hS : E.Holds S)
    {U Y : Dyadic} {b : Nat} (hU : Names f (laneFn fn f a).1 U) (hY : Names f b Y) : Neighbour f S U.real Y.real := by
  obtain ⟨u, fl, hr, hc⟩ := roundExact_case f h .nearest false E S hS hm (fun _ => hwide)
  have hpos : 0 < S := lt_of_lt_of_le (by positivity) (hS.log2_bounds hm).1
  rw [laneFn_val_fst hfn, hr] at hU
  obtain ⟨hu, hval⟩ := hU.of_strOf h (hc.le_top h)
  rw [sgn, if_neg Bool.false_ne_true, one_mul] at hval
  have hYv := hY.isValue h
  obtain ⟨h1, h2⟩ := hc.no_between h hpos hu hYv
  rw [hval]
  exact ⟨fun hlt => not_lt.1 fun hYS => h1 ⟨hlt, hYS⟩, fun hlt => not_lt.1 fun hYS => h2 ⟨hYS, hlt⟩,
    fun hf => (hc.nearest h hpos hf hu hYv).1, magValue_nonneg f h u (hc.le_top h)⟩

/-- The middle of U and Y is on the far side of S. -/
theorem Neighbour.middle {f : Fmt} {S U Y : ℝ} (h : Neighbour f S U Y) (hf : isTap f = false) :
    (U < Y → 2 * S ≤ U + Y) ∧ (Y < U → U + Y ≤ 2 * S) := by
  have hn := h.nearest hf
  refine ⟨fun hlt => ?_, fun hlt => ?_⟩
  · have := h.le_of_lt hlt
    rw [abs_of_nonneg (sub_nonneg.2 this)] at hn
    linarith [neg_abs_le (U - S)]
  · have := h.ge_of_lt hlt
    rw [abs_of_nonpos (sub_nonpos.2 this)] at hn
    linarith [le_abs_self (U - S)]

end Sys2Proof.Machine
end

section
/-! ### The clauses on the reciprocal and the roots, in units of a power of two -/

namespace Sys2Proof.Machine

theorem one_inUnits (e : Int) (he : e ≤ 0) : (((2 : Int) ^ (-e).toNat : Int) : ℝ) = 2 ^ (-e) := by
  rw [Int.cast_pow, Int.cast_ofNat, ← zpow_natCast, Int.toNat_of_nonneg (by omega)]

section
variable {f : Fmt} {X U Y : Dyadic} {e : Int} (he : e ≤ 0) (hx : e ≤ X.e) (hu : e ≤ U.e) (hy : e ≤ Y.e)
    (hX : 0 < X.real)
include he hx hu hy hX

theorem rcp_units (hn : Neighbour f (1 / X.real) U.real Y.real) :
    (U.inUnits e < Y.inUnits e → 2 ^ (-e).toNat * 2 ^ (-e).toNat ≤ Y.inUnits e * X.inUnits e)
    ∧ (Y.inUnits e < U.inUnits e → Y.inUnits e * X.inUnits e ≤ 2 ^ (-e).toNat * 2 ^ (-e).toNat)
    ∧ (isTap f = false → (U.inUnits e * X.inUnits e - 2 ^ (-e).toNat * 2 ^ (-e).toNat).natAbs
        ≤ (Y.inUnits e * X.inUnits e - 2 ^ (-e).toNat * 2 ^ (-e).toNat).natAbs) := by
  have hone := one_inUnits e he
  have hXc := inUnits_cast e X hx
  have hUc := inUnits_cast e U hu
  have hYc := inUnits_cast e Y hy
  have hs : (0 : ℝ) < 2 ^ (-e) * 2 ^ (-e) := by positivity
  rw [inUnits_lt_iff hu hy, inUnits_lt_iff hy hu, ← Int.cast_le (R := ℝ), ← Int.cast_le (R := ℝ),
    ← Nat.cast_le (α := ℝ), Nat.cast_natAbs, Nat.cast_natAbs, Int.cast_abs, Int.cast_abs, Int.cast_sub, Int.cast_sub,
    Int.cast_mul, Int.cast_mul, Int.cast_mul, hone, hXc, hUc, hYc]
  refine ⟨fun hlt => ?_, fun hlt => ?_, fun hf => ?_⟩
  · have := mul_le_mul_of_nonneg_right ((div_le_iff₀ hX).1 (hn.le_of_lt hlt)) hs.le
    linarith
  · have := mul_le_mul_of_nonneg_right ((le_div_iff₀ hX).1 (hn.ge_of_lt hlt)) hs.le
    linarith
  · have hscale : ∀ z : ℝ, |z * 2 ^ (-e) * (X.real * 2 ^ (-e)) - 2 ^ (-e) * 2 ^ (-e)|
        = |z - 1 / X.real| * (X.real * (2 ^ (-e) * 2 ^ (-e))) := fun z => by
      rw [← abs_of_pos (mul_pos hX hs), ← abs_mul]
      congr 1
      field_simp
    rw [hscale, hscale]
    exact mul_le_mul_of_nonneg_right (hn.nearest hf) (mul_pos hX hs).le

omit he hx hX in
/-- The clauses on a function whose exact value S has the square A/B in units of 2^e. -/
theorem root_units {S : ℝ} {A B : Int} (hB : 0 < (B : ℝ)) (hA : (A : ℝ) = B * (S * 2 ^ (-e) * (S * 2 ^ (-e))))
    (hS : 0 ≤ S)
    (hY : 0 ≤ Y.real) (hn : Neighbour f S U.real Y.real) :
    ((U.inUnits e < Y.inUnits e → A ≤ B * (Y.inUnits e * Y.inUnits e))
      ∧ (Y.inUnits e < U.inUnits e → B * (Y.inUnits e * Y.inUnits e) ≤ A))
    ∧ (isTap f = false →
      (U.inUnits e < Y.inUnits e → 4 * A ≤ B * ((U.inUnits e + Y.inUnits e) * (U.inUnits e + Y.inUnits e)))
      ∧ (Y.inUnits e < U.inUnits e → B * ((U.inUnits e + Y.inUnits e) * (U.inUnits e + Y.inUnits e)) ≤ 4 * A)) := by
  have hUc := inUnits_cast e U hu
  have hYc := inUnits_cast e Y hy
  have hs : (0 : ℝ) < 2 ^ (-e) := by positivity
  have hle : ∀ {c T : ℝ}, 0 ≤ c → 0 ≤ T → c * S ≤ T →
      c * c * A ≤ B * (T * 2 ^ (-e) * (T * 2 ^ (-e))) := fun hc hT h => by
    have h1 := mul_le_mul_of_nonneg_right h hs.le
    have h2 := mul_le_mul_of_nonneg_left (mul_self_le_mul_self (mul_nonneg (mul_nonneg hc hS) hs.le) h1) hB.le
    rw [hA]
    linarith
  have hge : ∀ {c T : ℝ}, 0 ≤ T → T ≤ c * S → B * (T * 2 ^ (-e) * (T * 2 ^ (-e))) ≤ c * c * A := fun hT h => by
    have h1 := mul_le_mul_of_nonneg_right h hs.le
    have h2 := mul_le_mul_of_nonneg_left (mul_self_le_mul_self (mul_nonneg hT hs.le) h1) hB.le
    rw [hA]
    linarith
  have hUY := add_nonneg hn.nonneg hY
  rw [inUnits_lt_iff hu hy, inUnits_lt_iff hy hu]
  simp only [← Int.cast_le (R := ℝ), Int.cast_mul, Int.cast_add, hUc, hYc, Int.cast_ofNat, ← add_mul]
  refine ⟨⟨fun hlt => ?_, fun hlt => ?_⟩, fun hf => ⟨fun hlt => ?_, fun hlt => ?_⟩⟩
  · linarith [hle zero_le_one hY ((one_mul S).trans_le (hn.le_of_lt hlt))]
  · linarith [hge hY ((hn.ge_of_lt hlt).trans_eq (one_mul S).symm)]
  · linarith [hle zero_le_two hUY ((hn.middle hf).1 hlt)]
  · linarith [hge hUY ((hn.middle hf).2 hlt)]

theorem sqrt_units (hY : 0 ≤ Y.real) (hn : Neighbour f (Real.sqrt X.real) U.real Y.real) :
    ((U.inUnits e < Y.inUnits e → 2 ^ (-e).toNat * X.inUnits e ≤ Y.inUnits e * Y.inUnits e)
      ∧ (Y.inUnits e < U.inUnits e → Y.inUnits e * Y.inUnits e ≤ 2 ^ (-e).toNat * X.inUnits e))
    ∧ (isTap f = false →
      (U.inUnits e < Y.inUnits e →
        4 * (2 ^ (-e).toNat * X.inUnits e) ≤ (U.inUnits e + Y.inUnits e) * (U.inUnits e + Y.inUnits e))
      ∧ (Y.inUnits e < U.inUnits e →
        (U.inUnits e + Y.inUnits e) * (U.inUnits e + Y.inUnits e) ≤ 4 * (2 ^ (-e).toNat * X.inUnits e))) := by
  have hA : ((2 ^ (-e).toNat * X.inUnits e : Int) : ℝ)
      = (1 : Int) * (Real.sqrt X.real * 2 ^ (-e) * (Real.sqrt X.real * 2 ^ (-e))) := by
    rw [mul_mul_mul_comm, Real.mul_self_sqrt hX.le, Int.cast_mul, one_inUnits e he, inUnits_cast e X hx, Int.cast_one]
    ring
  have := root_units hu hy (B := 1) (by simp) hA (Real.sqrt_nonneg _) hY hn
  simpa only [one_mul] using this

theorem rsq_units (hY : 0 ≤ Y.real) (hn : Neighbour f (1 / Real.sqrt X.real) U.real Y.real) :
    ((U.inUnits e < Y.inUnits e →
        2 ^ (-e).toNat * 2 ^ (-e).toNat * 2 ^ (-e).toNat ≤ X.inUnits e * (Y.inUnits e * Y.inUnits e))
      ∧ (Y.inUnits e < U.inUnits e →
        X.inUnits e * (Y.inUnits e * Y.inUnits e) ≤ 2 ^ (-e).toNat * 2 ^ (-e).toNat * 2 ^ (-e).toNat))
    ∧ (isTap f = false →
      (U.inUnits e < Y.inUnits e → 4 * (2 ^ (-e).toNat * 2 ^ (-e).toNat * 2 ^ (-e).toNat)
        ≤ X.inUnits e * ((U.inUnits e + Y.inUnits e) * (U.inUnits e + Y.inUnits e)))
      ∧ (Y.inUnits e < U.inUnits e → X.inUnits e * ((U.inUnits e + Y.inUnits e) * (U.inUnits e + Y.inUnits e))
        ≤ 4 * (2 ^ (-e).toNat * 2 ^ (-e).toNat * 2 ^ (-e).toNat))) := by
  have hXc := inUnits_cast e X hx
  have hone := one_inUnits e he
  have hA : ((2 ^ (-e).toNat * 2 ^ (-e).toNat * 2 ^ (-e).toNat : Int) : ℝ)
      = X.inUnits e * (1 / Real.sqrt X.real * 2 ^ (-e) * (1 / Real.sqrt X.real * 2 ^ (-e))) := by
    have hr : X.real * (1 / Real.sqrt X.real * (1 / Real.sqrt X.real)) = 1 := by
      rw [div_mul_div_comm, one_mul, Real.mul_self_sqrt hX.le, mul_one_div_cancel hX.ne']
    rw [Int.cast_mul, Int.cast_mul, hone, hXc]
    linear_combination (-(2 ^ (-e) * 2 ^ (-e) * 2 ^ (-e)) : ℝ) * hr
  exact root_units hu hy (by rw [hXc]; positivity) hA (by positivity) hY hn

end

theorem Dyadic.real_pos {x : Dyadic} (h : 0 < x.m) : 0 < x.real := mul_pos (by exact_mod_cast h) (by positivity)

theorem Dyadic.real_nonneg {x : Dyadic} (h : 0 ≤ x.m) : 0 ≤ x.real := mul_nonneg (by exact_mod_cast h) (by positivity)

/-! #### Each function of a positive operand -/

section
variable {f : Fmt} (h : f.isFloat = true) {a b : Nat} {x U Y : Dyadic} (hx : decodeFmt f a = .fin x) (hm : 0 < x.m)
  (hY : Names f b Y)
include h hx hm hY

theorem rcp_neighbour (hU : Names f (laneFn .rcp f a).1 U) : Neighbour f (1 / x.real) U.real Y.real := by
  obtain ⟨E, hE, hne, hwide, hhold⟩ := fnRcp_holds hm
  exact laneFn_neighbour h (by rw [hx]; exact hE) hne hwide hhold hU hY

theorem sqrt_neighbour (hU : Names f (laneFn .sqrt f a).1 U) : Neighbour f (Real.sqrt x.real) U.real Y.real := by
  obtain ⟨E, hE, hne, hwide, hhold⟩ := fnSqrt_holds hm
  exact laneFn_neighbour h (by rw [hx]; exact (if_neg hm.le.not_gt).trans hE) hne hwide hhold hU hY

theorem rsq_neighbour (hU : Names f (laneFn .rsq f a).1 U) : Neighbour f (1 / Real.sqrt x.real) U.real Y.real := by
  obtain ⟨E, hE, hne, hwide, hhold⟩ := fnRsq_holds hm
  exact laneFn_neighbour h (by rw [hx]; exact (if_neg hm.le.not_gt).trans hE) hne hwide hhold hU hY

end

/-! #### The obligation -/

/-- Settles O32: RoundT by `roundT_correct`; the lanes by their rows of Table 5-4 and the order of their values; the
conversions by R119 and Table 5-7; the functions by Table 5-8, and the reciprocal and the roots as neighbours of their
exact values. -/
theorem roundingIsCorrect : Obligations.RoundingIsCorrect := by
  refine ⟨roundT_correct, fun f a b c h => ?_, fun src dst sat mode bits d _ h => ?_, ?_, ?_, fun f a h => ?_⟩
  · refine ⟨?_, fun x y => lanes_fin, lanes_nan, fun hn => ⟨fused_nan hn false, fused_nan hn true⟩,
      fun p q => lanes_inf_inf,
      fun p q => lanes_inf_zero, fun p y => lanes_inf_fin, fun p q => lanes_zero_zero, fun p y => lanes_zero_fin,
      order_nan h, fun x y hf => order_fin h hf, order_zero h, order_tap, prefixResult_fin f⟩
    rintro x y e rfl
    exact ⟨rfl, rfl, rfl, rfl⟩
  · exact fun hd => ⟨fun he => he ▸ convertLane_same hd sat mode, fun hne => convertLane_float hne h sat mode hd⟩
  · exact fun src sg lw sat bits d y hne hd hy => convertLane_int hne sat hd y (nearestInt_of_units d y _ rfl hy)
  · exact fun src dst sat neg mode bits hne _ => convertLane_table hne sat neg mode bits
  · have hfl := isFloat_of_isTransc h
    refine ⟨laneFn_nan, fun n hz => ?_, fun n hi => ?_, fun x hx => ⟨fun hm => laneFn_negative hx.2 hm,
      fun n => laneFn_exp2_int hfl hx.1 hx.2 n, fun n => laneFn_log2_power hx.2 n, ?_⟩⟩
    · have := laneFn_zero h hz
      rw [zeroResult_eq] at this
      exact this
    · have := laneFn_inf h hi
      rw [zeroResult_eq] at this
      exact this
    · rintro U v b Y e he hxe hue hye hY rfl
      have hYn : Names f b Y := ⟨hY.1, .inl hY.2⟩
      have hN : ∀ {r : Nat}, r < 2 ^ f.width.bits ∧ decodeFmt f r = .fin U → Names f r U := fun hr => ⟨hr.1, .inl hr.2⟩
      refine ⟨fun hm hYm => ⟨fun hU => ?_, fun hU => ?_, fun hU => ?_⟩,
          fun hm ht hYm => ⟨fun hU => ?_, fun hU => ?_, fun hU => ?_⟩⟩
      · have := rcp_units he hxe hue hye (Dyadic.real_pos hm) (rcp_neighbour hfl hx.2 hm hYn (hN hU))
        exact ⟨this.1, this.2.1⟩
      · exact (sqrt_units he hxe hue hye (Dyadic.real_pos hm) (Dyadic.real_pos hYm).le
          (sqrt_neighbour hfl hx.2 hm hYn (hN hU))).1
      · exact (rsq_units he hxe hue hye (Dyadic.real_pos hm) (Dyadic.real_pos hYm).le
          (rsq_neighbour hfl hx.2 hm hYn (hN hU))).1
      · exact (rcp_units he hxe hue hye (Dyadic.real_pos hm) (rcp_neighbour hfl hx.2 hm hYn (hN hU))).2.2 ht
      · exact (sqrt_units he hxe hue hye (Dyadic.real_pos hm) (Dyadic.real_nonneg hYm)
          (sqrt_neighbour hfl hx.2 hm hYn (hN hU))).2 ht
      · exact (rsq_units he hxe hue hye (Dyadic.real_pos hm) (Dyadic.real_nonneg hYm)
          (rsq_neighbour hfl hx.2 hm hYn (hN hU))).2 ht

end Sys2Proof.Machine
end

section
/-! ### Quires (R95, R124, R125, R369 to R371, R374) -/

namespace Sys2Proof.Machine

/-! #### The sum of the active terms (R369) -/

/-- Folding terms with an addition that a none stops gives their sum, or none where some term is none. -/
theorem foldl_optionAdd {step : Option Int → Option Int → Option Int} (hadd : ∀ a b, step (some a) (some b) = some (a + b))
    (hleft : ∀ t, step none t = none) (hright : ∀ t, step t none = none) (ts : List (Option Int)) (acc : Option Int) :
    ts.foldl step acc
      = if ts.all Option.isSome then acc.map (fun a => a + (ts.map (fun t => t.getD 0)).sum) else none := by
  induction ts generalizing acc with
  | nil => cases acc <;> simp
  | cons t ts ih =>
    rw [List.foldl_cons, ih]
    cases t with
    | none => simp [hright]
    | some b => cases acc <;> simp [hadd, hleft, add_assoc]

/-- Terms of which some is none leave the quire with NaR; otherwise their exact sum is added once. -/
theorem addTerms_eq (q : Quire) (ts : List (Option Int)) :
    q.addTerms ts = if ts.all Option.isSome then q.addInt (ts.map (fun t => t.getD 0)).sum else (q.addNar, false) := by
  unfold Quire.addTerms
  rw [foldl_optionAdd (fun _ _ => rfl) (fun _ => rfl) (fun t => by cases t <;> rfl)]
  by_cases h : ts.all Option.isSome = true
  · rw [if_pos h, if_pos h]
    simp
  · rw [if_neg h, if_neg h]

/-- QuireAdd of the terms of some lanes: their exact sum once, or NaR where a term is no real value (R121, R369). -/
def Quire.addLanes (q : Quire) (act : List Nat) (g : Nat → Option Int) : Quire × Bool :=
  if act.all (fun l => (g l).isSome) then q.addInt (act.map (fun l => (g l).getD 0)).sum else (q.addNar, false)

theorem addTerms_map (q : Quire) (act : List Nat) (g : Nat → Option Int) : q.addTerms (act.map g) = q.addLanes act g := by
  rw [addTerms_eq, List.all_map, List.map_map]
  rfl

/-- The lanes that a mask makes active. -/
def activeList (w : LaneW) (m : MaskWord) : List Nat :=
  (List.range w.lanes).filter (fun l => m.getLsbD (l * w.bits / 32))

/-- R354, R390: a mask picks the terms of its active lanes. -/
theorem activeTerms_range (w : LaneW) (m : MaskWord) (g : Nat → Option Int) :
    activeTerms (activeLanes w m) ((List.range w.lanes).map g) = (activeList w m).map g := by
  rw [activeTerms, activeLanes, List.zip_map', List.filter_map, List.map_map]
  rfl

theorem vecLanes_eq_map (w : LaneW) (v : Vec) : vecLanes w v = (List.range w.lanes).map (laneNat w v) := by
  refine List.ext_getElem? fun l => ?_
  by_cases hl : l < w.lanes
  · rw [vecLanes_get w v l hl, List.getElem?_map, List.getElem?_range hl]
    rfl
  · rw [List.getElem?_eq_none (by rw [vecLanes_length]; omega), List.getElem?_eq_none (by simpa using hl)]

theorem zipWith_vecLanes (w : LaneW) (u v : Vec) (g : Nat → Nat → Option Int) :
    List.zipWith g (vecLanes w u) (vecLanes w v)
      = (List.range w.lanes).map (fun l => g (laneNat w u l) (laneNat w v l)) := by
  rw [vecLanes_eq_map, vecLanes_eq_map, List.zipWith_map, List.zipWith_self]

/-! #### The check of the other vector slot (R95) -/

section
variable {s : State} {d : QReg} {i : Instr} {g : State → State → State}
  (hi : meaningOf i = some { quire := some d, check := quireTaken d, effect := g }) (hw : i.wf = true)
  (hs : slotOk i s.cur.pos = true)
include hi hw hs

/-- An operation on a quire of which the other slot has no pending entry takes effect. -/
theorem exec_quire_free (hfree : pendingElsewhere s.me d s.cur.pos = false) : exec i s = .next (g s s) :=
  exec_issued i _ s hi hw hs rfl (fun _ h => absurd h List.not_mem_nil) rfl rfl (by simp [quireTaken, hfree]) (.inl rfl)

/-- An operation on a quire of which the other slot has a pending entry raises OCCUPANCY. -/
theorem exec_quire_taken (htaken : pendingElsewhere s.me d s.cur.pos = true) :
    exec i s = .next (s.raise { name := .occupancy, tval := d.setWidth 64 }) :=
  exec_trapped i _ s _ hi hw hs rfl (fun _ h => absurd h List.not_mem_nil) rfl rfl (by simp [quireTaken, htaken])

end

/-! #### What an operation lands -/

/-- The sum with an exact number is below −2^639 or from 2^639 on, and sets OVF (R121). -/
def Quire.overflowsBy (q : Quire) (x : Int) : Bool := decide (q.bits.toInt + x < -(2 ^ 639) ∨ 2 ^ 639 ≤ q.bits.toInt + x)

theorem addInt_eq (q : Quire) (x : Int) : q.addInt x
    = ({ q with bits := BitVec.ofInt 640 (q.bits.toInt + x), ovf := q.ovf || q.overflowsBy x }, q.overflowsBy x) := by
  have hwide : (q.bits.toInt + x < -(2 ^ 639) ∨ 2 ^ 639 - 1 < q.bits.toInt + x)
      ↔ (q.bits.toInt + x < -(2 ^ 639) ∨ 2 ^ 639 ≤ q.bits.toInt + x) := or_congr_right Int.sub_one_lt_iff
  rw [Quire.overflowsBy, ← decide_eq_decide.2 hwide]
  rfl

/-- The value onto which an accumulation adds: the latest pending entry of its slot, or the committed quire (R95). -/
def State.quireBase (s : State) (d : QReg) : Quire := (pendingChain s.me d s.cur.pos).getD (s.me.qreg d)

/-- A value and its overflow land at L = 6 as an entry onto which the slot adds on (R95, R369). -/
def State.landChained (s : State) (d : QReg) (q : Quire) (ov : Bool) : State :=
  s.modMe (fun c => c.addLanding { s.landed (.q d q) 6 with chain := true, overflow := ov })

section
variable {s : State} {d : QReg}

theorem exec_accumulate {i : Instr} {g : Context → Quire → Quire × Bool} {r : Quire × Bool}
    (hi : meaningOf i = some (accumulateMeaning d g)) (hw : i.wf = true) (hs : slotOk i s.cur.pos = true)
    (hfree : pendingElsewhere s.me d s.cur.pos = false) (hr : g s.me (s.quireBase d) = r) :
    exec i s = .next (s.landChained d r.1 r.2) := by
  rw [exec_quire_free hi hw hs hfree, ← hr]
  rfl

theorem exec_qadd {f : Fmt} {x : VReg} {m : MReg} (hf : f.isFloat = true)
    (hfree : pendingElsewhere s.me d s.cur.pos = false) :
    let r := (s.quireBase d).addLanes (activeList f.width (s.me.mreg m))
      (fun l => addendUnits f (laneNat f.width (s.me.vreg x) l))
    exec (.qadd f d x m) s = .next (s.landChained d r.1 r.2) := by
  refine exec_accumulate (i := .qadd f d x m) rfl hf (slotOk_any _ _ rfl rfl) hfree ?_
  rw [vecLanes_eq_map, List.map_map, activeTerms_range]
  exact addTerms_map _ _ _

theorem exec_qdot {f : Fmt} {x y : VReg} {m : MReg} (hf : f.isProduct = true)
    (hfree : pendingElsewhere s.me d s.cur.pos = false) :
    let r := (s.quireBase d).addLanes (activeList f.width (s.me.mreg m))
      (fun l => productUnits f (laneNat f.width (s.me.vreg x) l) (laneNat f.width (s.me.vreg y) l))
    exec (.qdot f d x y m) s = .next (s.landChained d r.1 r.2) := by
  refine exec_accumulate (i := .qdot f d x y m) rfl hf (slotOk_any _ _ rfl rfl) hfree ?_
  rw [zipWith_vecLanes, activeTerms_range]
  exact addTerms_map _ _ _

theorem exec_qacc {a : QReg} (hfree : pendingElsewhere s.me d s.cur.pos = false) :
    exec (.qacc d a) s = .next (if (s.me.qreg a).valid then
        s.landChained d ((s.quireBase d).addInt (s.me.qreg a).toInt).1 ((s.quireBase d).addInt (s.me.qreg a).toInt).2
      else s.landChained d (s.quireBase d).addNar false) := by
  rw [exec_accumulate (i := .qacc d a) rfl rfl (slotOk_any _ _ rfl rfl) hfree rfl]
  split <;> rfl

/-- The landing of an accumulation, with the bits and the overflow of its sum written out (R121). -/
theorem landChained_addLanes (q : Quire) (act : List Nat) (g : Nat → Option Int) :
    let t := (act.map (fun l => (g l).getD 0)).sum
    s.landChained d (q.addLanes act g).1 (q.addLanes act g).2
      = if act.all (fun l => (g l).isSome) then
          s.landChained d { q with bits := BitVec.ofInt 640 (q.bits.toInt + t), ovf := q.ovf || q.overflowsBy t }
            (q.overflowsBy t)
        else s.landChained d { q with nar := true } false := by
  rw [Quire.addLanes, addInt_eq]
  split
  · dsimp only
  · rfl

end

/-- QRND rounds the quire once into every active lane (R374). -/
theorem exec_qrnd (s : State) (sat : Bool) {f : Fmt} (e : VReg) (a : QReg) (b : VReg) (m : MReg) (hf : f.isFloat = true) :
    s.landsLanes (exec (.qrnd sat f e a b m) s) f.width e m 5 (fun _ => (s.me.qreg a).round f sat
      (if b = 0 then .nearest else .stochastic ((s.me.vreg b).setWidth 32))) :=
  exec_lanes (.qrnd sat f e a b m) s f.width e m 5 _ _ rfl hf (slotOk_any _ _ rfl rfl) List.length_replicate
    (fun l hl => by rw [List.getElem?_replicate, if_pos hl])

/-- Settles O31: the accumulations by the sum of their terms, the other operations by their meanings, and OCCUPANCY by
the check that all of them share. -/
theorem quiresAccumulate : Obligations.QuiresAccumulate := by
  intro s f d a x y e r m sat
  refine ⟨exec_plain (.qtest r a) _ s rfl rfl (slotOk_any _ _ rfl rfl) rfl rfl rfl rfl rfl rfl, fun hfree => ?_,
    fun ht => ?_, fun hf => exec_qrnd s sat e a y m hf⟩
  · refine ⟨?_, ?_, fun hf => ?_, fun hf => ?_, exec_qacc hfree⟩
    · exact exec_quire_free (i := .qclr d) rfl rfl (slotOk_any _ _ rfl rfl) hfree
    · exact exec_quire_free (i := .qneg d a) rfl rfl (slotOk_any _ _ rfl rfl) hfree
    · exact (exec_qadd hf hfree).trans (congrArg _ (landChained_addLanes _ _ _))
    · exact (exec_qdot hf hfree).trans (congrArg _ (landChained_addLanes _ _ _))
  · refine ⟨?_, ?_, ?_, fun hf => ?_, fun hf => ?_⟩
    · exact exec_quire_taken (i := .qacc d a) rfl rfl (slotOk_any _ _ rfl rfl) ht
    · exact exec_quire_taken (i := .qclr d) rfl rfl (slotOk_any _ _ rfl rfl) ht
    · exact exec_quire_taken (i := .qneg d a) rfl rfl (slotOk_any _ _ rfl rfl) ht
    · exact exec_quire_taken (i := .qadd f d x m) rfl hf (slotOk_any _ _ rfl rfl) ht
    · exact exec_quire_taken (i := .qdot f d x y m) rfl hf (slotOk_any _ _ rfl rfl) ht

end Sys2Proof.Machine
end

section
/-! ### The matrix unit (R130, R221, R226, R228, R231, R234 to R236, R310) -/

namespace Sys2Proof.Machine

/-! #### The accumulators after a change of all of them -/

/-- The value of a key in a list that holds at most one pair for each key of `l`. -/
theorem assocGet_filterMap {α : Type} (g : Nat → Option (Nat × α)) (hg : ∀ j p, g j = some p → p.1 = j) (i : Nat)
    (l : List Nat) : assocGet i (l.filterMap g) = if i ∈ l then (g i).map Prod.snd else none := by
  induction l with
  | nil => rfl
  | cons j l ih =>
    cases hj : g j with
    | none =>
      rw [List.filterMap_cons_none hj, ih]
      by_cases hij : i = j
      · subst hij
        simp [hj]
      · simp [hij]
    | some p =>
      obtain ⟨k, v⟩ := p
      obtain rfl : k = j := hg j _ hj
      rw [List.filterMap_cons_some hj, assocGet, ih]
      by_cases hij : k = i
      · subst hij
        simp [hj]
      · simp [hij, Ne.symm hij]

theorem accAt_mapAcc (m : Mxu) (f : Nat → Quire → Quire) (i : Nat) (hi : i < 4096) :
    (m.mapAcc f).accAt i = f i (m.accAt i) := by
  have hkey : ∀ j p, (if f j (m.accAt j) = Quire.zero then none else some (j, f j (m.accAt j))) = some p → p.1 = j := by
    intro j p h
    split at h
    · cases h
    · cases h
      rfl
  rw [Mxu.accAt, Mxu.mapAcc]
  dsimp only
  rw [assocGet_filterMap _ hkey, if_pos (List.mem_range.2 hi)]
  by_cases h : f i (m.accAt i) = Quire.zero <;> simp [h]

/-- Output (i, j) of a completed step (R235). -/
theorem accAt_applyStep (m : Mxu) (f : Fmt) (sc : List Byte)
    (terms : Nat → Nat → List (Option Dyadic × Option Dyadic)) (i j : Nat) (hi : i < 64) (hj : j < 64) :
    (m.applyStep f sc terms).accAt (64 * i + j)
      = promoteTerms f ((scaleAt sc i).mul (scaleAt sc 64)) (m.accAt (64 * i + j)) (terms i j) := by
  have hdiv : (64 * i + j) / 64 = i := by omega
  have hmod : (64 * i + j) % 64 = j := by omega
  rw [Mxu.applyStep, accAt_mapAcc _ _ _ (by omega), hdiv, hmod]

/-! #### The start of an operation -/

/-- The routine of a tile's unit stands at a word whose operation may start now. -/
def State.standsAt (s : State) (t : TileId) (r : MxuRun) (w : MicroOp) : Prop :=
  (s.tile t.toNat).mxu.run = some r ∧ w = (s.tile t.toNat).mxu.microAt r.pc
    ∧ (s.tile t.toNat).mxu.busyUntil ≤ s.gtc.toNat ∧ r.words ≤ 4096

section
variable {s : State} {t : TileId} {r : MxuRun} {w : MicroOp}

theorem mxuReady_of_standsAt (h : s.standsAt t r w) : mxuReady s t.toNat w.opa = some (r, w) := by
  obtain ⟨hrun, rfl, hbusy, hwords⟩ := h
  simp [mxuReady, hrun, hbusy, hwords]

theorem exec_mxuDenseStep (h : s.standsAt t r w) (hw : w.opa = 1) : exec (.mxuDenseStep t) s
    = .next (if gatherWaits s t.toNat r w then s else s.startStep t.toNat r w false) := by
  change execMxuDenseStep t s = _
  rw [execMxuDenseStep, ← hw, mxuReady_of_standsAt h]
  exact (apply_ite Host.Outcome.next _ _ _).symm

theorem exec_mxuSparseStep (h : s.standsAt t r w) (hw : w.opa = 2) : exec (.mxuSparseStep t) s
    = .next (if gatherWaits s t.toNat r w then s else s.startStep t.toNat r w true) := by
  change execMxuSparseStep t s = _
  rw [execMxuSparseStep, ← hw, mxuReady_of_standsAt h]
  exact (apply_ite Host.Outcome.next _ _ _).symm

theorem exec_mxuWriteOut (h : s.standsAt t r w) (hw : w.opa = 3) : exec (.mxuWriteOut t) s
    = .next (if (s.tile t.toNat).mxu.ops.any MxuOp.pendingAcc then s else s.startWriteOut t.toNat r w) := by
  change execMxuWriteOut t s = _
  rw [execMxuWriteOut, ← hw, mxuReady_of_standsAt h]
  exact (apply_ite Host.Outcome.next _ _ _).symm

theorem exec_mxuClear (h : s.standsAt t r w) (hw : w.opa = 4) : exec (.mxuClear t) s
    = .next (if mxdLost s t.toNat r then s.suppressOp t.toNat r w s.gtc.toNat mxdDataTrap
      else s.startOp t.toNat r w s.gtc.toNat .clear) := by
  change execMxuClear t s = _
  rw [execMxuClear, ← hw, mxuReady_of_standsAt h]

end

/-! #### The completion of an operation (R231) -/

/-- The state without a completed operation. -/
def State.withoutOp (s : State) (t : TileId) (o : MxuOp) : State :=
  s.modTile t.toNat (fun x => { x with mxu := { x.mxu with ops := x.mxu.ops.erase o } })

theorem withoutOp_accAt (s : State) (t : TileId) (o : MxuOp) (i : Nat) :
    ((s.withoutOp t o).tile t.toNat).mxu.accAt i = (s.tile t.toNat).mxu.accAt i := by
  rw [State.withoutOp, tile_modTile_self]
  rfl

section
variable {s : State} {t : TileId} {o : MxuOp} (hc : completableOp s t.toNat = some o)
include hc

/-- A dense step promotes its terms into the accumulators. -/
theorem exec_mxuOperationComplete_dense {f : Fmt} {a b sc : List Byte} (hw : o.work = .dense f a b sc) :
    exec (.mxuOperationComplete t) s = .next ((s.withoutOp t o).modTile t.toNat (fun x =>
      { x with mxu := x.mxu.applyStep f sc (denseTerms f a b) })) := by
  change execMxuOperationComplete t s = _
  simp [execMxuOperationComplete, hc, hw, MxuOp.posts, State.withoutOp]

/-- A sparse step promotes its terms into the accumulators. -/
theorem exec_mxuOperationComplete_sparse {f : Fmt} {g : Nat} {a b mk sc : List Byte}
    (hw : o.work = .sparse f g a b mk sc) :
    exec (.mxuOperationComplete t) s = .next ((s.withoutOp t o).modTile t.toNat (fun x =>
      { x with mxu := x.mxu.applyStep f sc (sparseTerms f g a b mk) })) := by
  change execMxuOperationComplete t s = _
  simp [execMxuOperationComplete, hc, hw, MxuOp.posts, State.withoutOp]

theorem exec_mxuOperationComplete_clear (hw : o.work = .clear) :
    exec (.mxuOperationComplete t) s = .next ((s.withoutOp t o).modTile t.toNat (fun x =>
      { x with mxu := { x.mxu with acc := [] } })) := by
  change execMxuOperationComplete t s = _
  simp [execMxuOperationComplete, hc, hw, MxuOp.posts, State.withoutOp]

theorem exec_mxuOperationComplete_cuts {n off : Nat} {fl : BitVec 7} (hw : o.work = .writeOut n fl (some off))
    (hm : s.mustCut t.toNat o.slot o.uid o.cid o.rel = true) :
    exec (.mxuOperationComplete t) s = .next (s.cutPost t.toNat o.slot o.uid o.cid) := by
  change execMxuOperationComplete t s = _
  simp [execMxuOperationComplete, hc, hw, MxuOp.posts, hm]

theorem exec_mxuOperationComplete_posts {n off : Nat} {fl : BitVec 7} (hw : o.work = .writeOut n fl (some off))
    (hm : s.mustCut t.toNat o.slot o.uid o.cid o.rel = false) :
    exec (.mxuOperationComplete t) s
      = .next (((s.withoutOp t o).engineFlags t.toNat o.slot o.uid fl).enginePost t o.slot o.uid o.asid
          { spmode := o.spmode, keys := o.keys } (.s (BitVec.ofNat 64 off)) (BitVec.ofNat 64 n) o.rel
          { cid := o.cid, earlier := o.earlier, writes := [], after := o.after, report := (1 : Word) <<< 56 }) := by
  change execMxuOperationComplete t s = _
  simp [execMxuOperationComplete, hc, hw, MxuOp.posts, hm, State.withoutOp]

theorem exec_mxuOperationComplete_silent {n : Nat} {fl : BitVec 7} (hw : o.work = .writeOut n fl none) :
    exec (.mxuOperationComplete t) s = .next ((s.withoutOp t o).engineFlags t.toNat o.slot o.uid fl) := by
  change execMxuOperationComplete t s = _
  simp [execMxuOperationComplete, hc, hw, MxuOp.posts, State.withoutOp]

theorem exec_mxuOperationComplete_suppressed (hw : o.work = .suppressed) :
    exec (.mxuOperationComplete t) s = .next (s.withoutOp t o) := by
  change execMxuOperationComplete t s = _
  simp [execMxuOperationComplete, hc, hw, MxuOp.posts, State.withoutOp]

end

/-- Where a completion applies a step, each output holds the promotion of its terms. -/
theorem accAt_modTile_applyStep (s : State) (t : TileId) (o : MxuOp) (f : Fmt) (sc : List Byte)
    (terms : Nat → Nat → List (Option Dyadic × Option Dyadic)) (i j : Nat) (hi : i < 64) (hj : j < 64) :
    (((s.withoutOp t o).modTile t.toNat (fun x => { x with mxu := x.mxu.applyStep f sc terms })).tile t.toNat).mxu.accAt
        (64 * i + j)
      = promoteTerms f ((scaleAt sc i).mul (scaleAt sc 64)) ((s.tile t.toNat).mxu.accAt (64 * i + j)) (terms i j) := by
  rw [tile_modTile_self, accAt_applyStep _ _ _ _ _ _ hi hj, withoutOp_accAt]

/-! #### A routine that does not end (R228) -/

theorem exec_mxuRoutineRunaway {s : State} {t : TileId} {r : MxuRun} (hr : (s.tile t.toNat).mxu.run = some r) :
    exec (.mxuRoutineRunaway t) s
      = .next (if (s.tile t.toNat).mxu.busyUntil ≤ s.gtc.toNat ∧ 4096 < r.words then
          s.failMicro t.toNat r { name := .illegalOp, tval := BitVec.ofNat 64 r.pc } else s) := by
  change execMxuRoutineRunaway t s = _
  simp only [execMxuRoutineRunaway, hr]
  exact (apply_ite Host.Outcome.next _ _ _).symm

/-! #### The clear for another address space (R221) -/

theorem busy_eq_false_iff (m : Mxu) (gtc : Nat) : m.busy gtc = false ↔ m.run = none ∧ m.busyUntil ≤ gtc := by
  simp [Mxu.busy]

theorem clearFor_of_claims {x : Tile} {k : SlotNo} {c : Context} {more : List (SlotNo × Context)}
    (ho : x.mxu.owner = none) (hx : x.claims = (k, c) :: more) (hm : ∀ y ∈ x.claims, x.mxu.mustClear y.2.asid = true) :
    x.clearFor = some (k, c.uid) := by
  have hall : x.claims.all (fun y => x.mxu.mustClear y.2.asid) = true := List.all_eq_true.2 hm
  rw [Tile.clearFor, if_pos (by rw [ho, hall]; rfl), hx]
  rfl

section
variable {s : State} {t : TileId} {k : SlotNo} {uid : Nat}

theorem exec_mxuAsidClear_begins (hn : (s.tile t.toNat).mxu.clearing = none)
    (hf : (s.tile t.toNat).clearFor = some (k, uid)) :
    exec (.mxuAsidClear t) s = .next (s.modTile t.toNat (fun x =>
      { x with mxu := { x.mxu with clearing := some (k, uid, 0) } })) := by
  change execMxuAsidClear t s = _
  simp only [execMxuAsidClear, hn, hf]
  rfl

theorem exec_mxuAsidClear_busy (hk : (s.tile t.toNat).mxu.clearing = some (k, uid, 0))
    (hb : (s.tile t.toNat).mxu.busy s.gtc.toNat = true) : exec (.mxuAsidClear t) s = .next s := by
  change execMxuAsidClear t s = _
  simp [execMxuAsidClear, hk, hb]

theorem exec_mxuAsidClear_starts (hk : (s.tile t.toNat).mxu.clearing = some (k, uid, 0))
    (hb : (s.tile t.toNat).mxu.busy s.gtc.toNat = false)
    (ho : (s.tile t.toNat).mxu.ops.any MxuOp.pendingAcc = false) :
    exec (.mxuAsidClear t) s = .next (s.modTile t.toNat (fun x =>
      { x with mxu := { x.mxu with acc := [], clearing := some (k, uid, s.gtc.toNat + 128) } })) := by
  change execMxuAsidClear t s = _
  simp only [execMxuAsidClear, hk, hb, ho]
  rfl

theorem exec_mxuAsidClear_ends {n : Nat} (hk : (s.tile t.toNat).mxu.clearing = some (k, uid, n + 1))
    (hn : n + 1 ≤ s.gtc.toNat) :
    exec (.mxuAsidClear t) s = .next (s.modTile t.toNat (fun x => { x with mxu := { x.mxu with
      clearing := none, lastAsid := (s.uidCtx t.toNat k uid).map (fun c => c.asid) } })) := by
  change execMxuAsidClear t s = _
  simp only [execMxuAsidClear, hk, if_neg (Nat.succ_ne_zero n), if_pos hn]
  rfl

end

/-- What an event does to the unit of its tile alone. -/
theorem next_modTile_mxu {s : State} {t : TileId} {i : Instr} {f : Tile → Tile} {m : Mxu}
    (h : exec i s = .next (s.modTile t.toNat f)) (hm : (f (s.tile t.toNat)).mxu = m) :
    ∃ u, exec i s = .next u ∧ (u.tile t.toNat).mxu = m :=
  ⟨_, h, by rw [tile_modTile_self, hm]⟩

/-- Settles O51: the start of each kind of operation, its completion, the runaway and the clear by their lemmas, and the
outputs of a step by the one on the accumulators. -/
theorem matrixOperationsRun : Obligations.MatrixOperationsRun := by
  intro s t r w o k uid n
  refine ⟨fun h hg hw => ?_, fun h hg hw => ?_, fun h hg => ⟨fun hw => ?_, fun hw => ?_⟩, fun h hw hp => ?_,
    fun h hw hp => ?_, fun h hw => ⟨fun hl => ?_, fun hl => ?_⟩, fun hc => ⟨?_, ?_, ?_, ?_, ?_, ?_, ?_⟩,
    fun hr hb hw => ?_, fun hr hb => ?_, fun c more hn ho hx hm => ?_, fun hk hb => ?_, fun hk hr hb hp => ?_,
    fun hk hn => ?_⟩
  · rw [exec_mxuDenseStep h hw, hg]; rfl
  · rw [exec_mxuSparseStep h hw, hg]; rfl
  · rw [exec_mxuDenseStep h hw, hg]; rfl
  · rw [exec_mxuSparseStep h hw, hg]; rfl
  · rw [exec_mxuWriteOut h hw, hp]; rfl
  · rw [exec_mxuWriteOut h hw, hp]; rfl
  · exact (exec_mxuClear h hw).trans (congrArg _ (if_neg (Bool.not_eq_true _ ▸ hl)))
  · exact (exec_mxuClear h hw).trans (congrArg _ (if_pos hl))
  · exact fun f a b sc hw => ⟨_, exec_mxuOperationComplete_dense hc hw, accAt_modTile_applyStep s t o f sc _⟩
  · exact fun f g a b mk sc hw => ⟨_, exec_mxuOperationComplete_sparse hc hw, accAt_modTile_applyStep s t o f sc _⟩
  · exact fun hw => ⟨_, exec_mxuOperationComplete_clear hc hw, fun i => by rw [tile_modTile_self]; rfl⟩
  · exact fun fl off hw hm => exec_mxuOperationComplete_cuts hc hw hm
  · exact fun fl off hw hm => exec_mxuOperationComplete_posts hc hw hm
  · exact fun fl hw => exec_mxuOperationComplete_silent hc hw
  · exact exec_mxuOperationComplete_suppressed hc
  · rw [exec_mxuRoutineRunaway hr, if_pos ⟨hb, hw⟩]
  · rw [exec_mxuRoutineRunaway hr, if_neg (by omega)]
  · exact next_modTile_mxu (exec_mxuAsidClear_begins hn (clearFor_of_claims ho hx hm)) rfl
  · refine exec_mxuAsidClear_busy hk (Bool.not_eq_false _ ▸ fun h => ?_)
    obtain ⟨hrun, hle⟩ := (busy_eq_false_iff _ _).1 h
    exact hb.elim (fun hne => hne hrun) (fun hlt => by omega)
  · exact next_modTile_mxu (exec_mxuAsidClear_starts hk ((busy_eq_false_iff _ _).2 ⟨hr, hb⟩) hp) rfl
  · exact next_modTile_mxu (exec_mxuAsidClear_ends hk hn) rfl

end Sys2Proof.Machine
end

section
/-! ### Memories in canonical form

A state is canonical where each of its memories is. Each operation of the model keeps that: those that write bytes by the
laws of memories, and all others because they are made of operations that keep it. The lemma on an operation `s.f` is
`State.Canonical.f`, so that a proof reads as the operations that its definition is made of. -/

namespace Sys2Proof.Machine


/-- The scratchpad of a tile is in canonical form. -/
structure Tile.Canonical (x : Tile) : Prop where
  scratch : Memory.wf x.scratch = true

/-- Every memory of the package is in canonical form. -/
structure State.Canonical (s : State) : Prop where
  hbm : Memory.wf s.hbm = true
  lpddr : Memory.wf s.lpddr = true
  code : ∀ c ∈ s.code, Memory.wf c.2 = true
  tiles : ∀ x ∈ s.tiles, x.2.Canonical

theorem State.canonical_iff (s : State) : s.Canonical ↔ s.memoriesCanonical = true := by
  simp only [State.memoriesCanonical, Bool.and_eq_true, List.all_eq_true]
  exact ⟨fun ⟨hh, hl, hc, ht⟩ => ⟨⟨⟨hh, hl⟩, hc⟩, fun x hx => (ht x hx).scratch⟩,
    fun ⟨⟨⟨hh, hl⟩, hc⟩, ht⟩ => ⟨hh, hl, hc, fun x hx => ⟨ht x hx⟩⟩⟩

/-- An update of other fields than the memories. -/
theorem State.Canonical.keep {s : State} {gtc turn admitted agenda cur drawn nextId node procs bad flights marks
    mcasts watches barriers pulses scans carries groups tongs records relayed queues rotation nextSeq mmp platform out
    outAt linkHeld} (h : s.Canonical) : State.Canonical ⟨gtc, turn, admitted, agenda, cur, drawn, nextId, node,
    s.tiles, s.hbm, s.lpddr, s.code, procs, bad, flights, marks, mcasts, watches, barriers, pulses, scans, carries,
    groups, tongs, records, relayed, queues, rotation, nextSeq, mmp, platform, out, outAt, linkHeld⟩ :=
  ⟨h.hbm, h.lpddr, h.code, h.tiles⟩

theorem State.Canonical.withHbm {s : State} {gtc turn admitted agenda cur drawn nextId node procs bad flights marks
    mcasts watches barriers pulses scans carries groups tongs records relayed queues rotation nextSeq mmp platform out
    outAt linkHeld} {hbm : Memory} (h : s.Canonical) (hm : Memory.wf hbm = true) : State.Canonical ⟨gtc, turn,
    admitted, agenda, cur, drawn, nextId, node, s.tiles, hbm, s.lpddr, s.code, procs, bad, flights, marks, mcasts,
    watches, barriers, pulses, scans, carries, groups, tongs, records, relayed, queues, rotation, nextSeq, mmp,
    platform, out, outAt, linkHeld⟩ :=
  ⟨hm, h.lpddr, h.code, h.tiles⟩

theorem State.Canonical.withLpddr {s : State} {gtc turn admitted agenda cur drawn nextId node procs bad flights marks
    mcasts watches barriers pulses scans carries groups tongs records relayed queues rotation nextSeq mmp platform out
    outAt linkHeld} {lpddr : Memory} (h : s.Canonical) (hm : Memory.wf lpddr = true) : State.Canonical ⟨gtc, turn,
    admitted, agenda, cur, drawn, nextId, node, s.tiles, s.hbm, lpddr, s.code, procs, bad, flights, marks, mcasts,
    watches, barriers, pulses, scans, carries, groups, tongs, records, relayed, queues, rotation, nextSeq, mmp,
    platform, out, outAt, linkHeld⟩ :=
  ⟨h.hbm, hm, h.code, h.tiles⟩

theorem State.Canonical.withTiles {s : State} {gtc turn admitted agenda cur drawn nextId node procs bad flights marks
    mcasts watches barriers pulses scans carries groups tongs records relayed queues rotation nextSeq mmp platform out
    outAt linkHeld} {tiles : List (Nat × Tile)} (h : s.Canonical) (hx : ∀ x ∈ tiles, x.2.Canonical) : State.Canonical
    ⟨gtc, turn, admitted, agenda, cur, drawn, nextId, node, tiles, s.hbm, s.lpddr, s.code, procs, bad, flights, marks,
    mcasts, watches, barriers, pulses, scans, carries, groups, tongs, records, relayed, queues, rotation, nextSeq,
    mmp, platform, out, outAt, linkHeld⟩ :=
  ⟨h.hbm, h.lpddr, h.code, hx⟩

theorem Tile.Canonical.keep {x : Tile} {slots lreq xreq counted descs entries buffer channels done mxu geu comparators
    ending tokens scans dividers granted} (h : x.Canonical) : Tile.Canonical ⟨x.scratch, slots, lreq, xreq, counted,
    descs, entries, buffer, channels, done, mxu, geu, comparators, ending, tokens, scans, dividers, granted⟩ :=
  ⟨h.scratch⟩

theorem Tile.Canonical.withScratch {scratch slots lreq xreq counted descs entries buffer channels done mxu geu
    comparators ending tokens scans dividers granted} (hm : Memory.wf scratch = true) : Tile.Canonical ⟨scratch,
    slots, lreq, xreq, counted, descs, entries, buffer, channels, done, mxu, geu, comparators, ending, tokens, scans,
    dividers, granted⟩ :=
  ⟨hm⟩

/-- Where a step ends in a state, that state is canonical. -/
def EndsCanonical : Host.Outcome State Fault Refusal → Prop
  | .next s => s.Canonical
  | .fault _ | .refused _ => True

theorem EndsCanonical.next {s : State} (h : s.Canonical) : EndsCanonical (.next s) := h

theorem EndsCanonical.fault {f : Fault} : EndsCanonical (.fault f) := trivial

theorem EndsCanonical.refused {r : Refusal} : EndsCanonical (.refused r) := trivial

theorem EndsCanonical.of_next {o : Host.Outcome State Fault Refusal} {s : State} (h : EndsCanonical o)
    (e : o = .next s) :
    s.Canonical := by
  subst e
  exact h

theorem EndsCanonical.ite {c : Prop} [Decidable c] {o p : Host.Outcome State Fault Refusal} (ho : EndsCanonical o)
    (hp : EndsCanonical p) : EndsCanonical (if c then o else p) := by
  split <;> assumption

/-- Tiles changed one by one. -/
theorem State.Canonical.mapTiles {s : State} {gtc turn admitted agenda cur drawn nextId node procs bad flights marks
    mcasts watches barriers pulses scans carries groups tongs records relayed queues rotation nextSeq mmp platform out
    outAt linkHeld} {f : Nat × Tile → Nat × Tile} (h : s.Canonical) (hf : ∀ x, x.2.Canonical → (f x).2.Canonical) :
    State.Canonical ⟨gtc, turn, admitted, agenda, cur, drawn, nextId, node, s.tiles.map f, s.hbm, s.lpddr, s.code,
        procs, bad,
    flights, marks, mcasts, watches, barriers, pulses, scans, carries, groups, tongs, records, relayed, queues,
    rotation, nextSeq, mmp, platform, out, outAt, linkHeld⟩ :=
  h.withTiles fun y hy => by
    obtain ⟨x, hx, rfl⟩ := List.mem_map.1 hy
    exact hf x (h.tiles x hx)

theorem State.Canonical.ite {c : Prop} [Decidable c] {s t : State} (hs : s.Canonical) (ht : t.Canonical) :
    (if c then s else t).Canonical := by
  split <;> assumption

theorem Tile.Canonical.ite {c : Prop} [Decidable c] {x y : Tile} (hx : x.Canonical) (hy : y.Canonical) :
    (if c then x else y).Canonical := by
  split <;> assumption

/-- Operations made one after another along a list. -/
theorem State.Canonical.foldl {α : Type} {f : State → α → State} {xs : List α} {s : State} (h : s.Canonical)
    (hf : ∀ s a, s.Canonical → (f s a).Canonical) : (xs.foldl f s).Canonical := by
  induction xs generalizing s with
  | nil => exact h
  | cons x xs ih => exact ih (hf s x h)

theorem Tile.Canonical.foldl {α : Type} {f : Tile → α → Tile} {xs : List α} {x : Tile} (h : x.Canonical)
    (hf : ∀ x a, x.Canonical → (f x a).Canonical) : (xs.foldl f x).Canonical := by
  induction xs generalizing x with
  | nil => exact h
  | cons a as ih => exact ih (hf x a h)

/-- Operations made one after another, with a value gathered on the way. -/
theorem State.Canonical.foldlPair {α β : Type} {f : State × β → α → State × β} {xs : List α} {p : State × β}
    (h : p.1.Canonical) (hf : ∀ p a, p.1.Canonical → (f p a).1.Canonical) : (xs.foldl f p).1.Canonical := by
  induction xs generalizing p with
  | nil => exact h
  | cons x xs ih => exact ih (hf p x h)

theorem Tile.Canonical.reset : Tile.reset.Canonical := ⟨Memory.wf_nil⟩

theorem mem_assocSet {α : Type} {k : Nat} {v : α} {l : List (Nat × α)} {p : Nat × α} (h : p ∈ assocSet k v l) :
    p = (k, v) ∨ p ∈ l := by
  induction l with
  | nil => exact .inl (List.mem_singleton.1 h)
  | cons q l ih =>
    unfold assocSet at h
    split at h
    · exact (List.mem_cons.1 h).imp_right (.tail _)
    · rcases List.mem_cons.1 h with rfl | h
      · exact .inr (.head _)
      · exact (ih h).imp_right (.tail _)

theorem mem_of_assocGet {α : Type} {k : Nat} {v : α} {l : List (Nat × α)} (h : assocGet k l = some v) : (k, v) ∈ l
    := by
  induction l with
  | nil => cases h
  | cons q l ih =>
    obtain ⟨i, a⟩ := q
    unfold assocGet at h
    split at h
    · rename_i hi
      obtain rfl := hi
      obtain rfl := Option.some.inj h
      exact .head _
    · exact .tail _ (ih h)

theorem State.Canonical.iteFst {β : Type} {c : Prop} [Decidable c] {p q : State × β} (hp : p.1.Canonical)
    (hq : q.1.Canonical) : (if c then p else q).1.Canonical := by
  split <;> assumption

/-! #### Machine/State -/

theorem State.Canonical.reset : State.reset.Canonical := (State.canonical_iff _).2 rfl

/-! #### Machine/Ops -/

theorem State.Canonical.tile {s : State} (h : s.Canonical) (t : Nat) : (s.tile t).Canonical := by
  unfold State.tile
  cases hx : assocGet t s.tiles with
  | none => exact Tile.Canonical.reset
  | some x => exact h.tiles _ (mem_of_assocGet hx)

theorem State.Canonical.setTile {s : State} {t : Nat} {x : Tile} (h : s.Canonical) (hx : x.Canonical) :
    (s.setTile t x).Canonical :=
  h.withTiles fun y hy => (mem_assocSet hy).elim (fun e => e ▸ hx) (h.tiles y)

theorem State.Canonical.modTile {s : State} {t : Nat} {f : Tile → Tile} (h : s.Canonical)
    (hf : ∀ x, x.Canonical → (f x).Canonical) : (s.modTile t f).Canonical := h.setTile (hf _ (h.tile t))

theorem Tile.Canonical.setSlot {x : Tile} {k : SlotNo} {sl : Slot} (h : x.Canonical) :
    (x.setSlot k sl).Canonical := h.keep

theorem Tile.Canonical.setCtx {x : Tile} {k : SlotNo} {b : Bank} {c : Context} (h : x.Canonical) :
    (x.setCtx k b c).Canonical := h.setSlot

theorem State.Canonical.setCtx {s : State} {t : Nat} {k : SlotNo} {b : Bank} {c : Context} (h : s.Canonical) :
    (s.setCtx t k b c).Canonical := h.setTile ((h.tile _).setCtx)

theorem State.Canonical.modCtx {s : State} {t : Nat} {k : SlotNo} {b : Bank} {f : Context → Context}
    (h : s.Canonical) :
    (s.modCtx t k b f).Canonical := h.setCtx

theorem State.Canonical.setMe {s : State} {c : Context} (h : s.Canonical) :
    (s.setMe c).Canonical := h.setCtx

theorem State.Canonical.modMe {s : State} {f : Context → Context} (h : s.Canonical) :
    (s.modMe f).Canonical := h.setMe

theorem State.Canonical.here {s : State} (h : s.Canonical) :
    (s.here).Canonical := (h.tile _)

theorem State.Canonical.modHere {s : State} {f : Tile → Tile} (h : s.Canonical)
    (hf : ∀ x, x.Canonical → (f x).Canonical) : (s.modHere f).Canonical := h.modTile hf

theorem State.Canonical.atPos {s : State} {p : Pos} (h : s.Canonical) :
    (s.atPos p).Canonical := h.keep

theorem State.Canonical.modUid {s : State} {t : Nat} {k : SlotNo} {uid : Nat} {f : Context → Context}
    (h : s.Canonical) :
    (s.modUid t k uid f).Canonical := by
  dsimp only [State.modUid]
  split
  · exact h.modCtx
  · exact h

theorem State.Canonical.fresh {s : State} (h : s.Canonical) {p : Nat × State} (hp : s.fresh = p) :
    p.2.Canonical := by
  subst hp
  exact h.keep

theorem State.Canonical.freeWord {s : State} (h : s.Canonical) {p : Word × State} (hp : s.freeWord = p) :
    p.2.Canonical := by
  subst hp
  exact h.keep

theorem State.Canonical.land {s : State} {w : Write} {lat : Nat} (h : s.Canonical) :
    (s.land w lat).Canonical := h.modMe

theorem State.Canonical.landFlags {s : State} {w : Write} {lat : Nat} {fl : BitVec 7} (h : s.Canonical) :
    (s.landFlags w lat fl).Canonical := h.modMe

theorem State.Canonical.landTag {s : State} {w : Write} {lat tag : Nat} (h : s.Canonical) :
    (s.landTag w lat tag).Canonical := h.modMe

theorem State.Canonical.blockOn {s : State} {bc : BlockCond} (h : s.Canonical) :
    (s.blockOn bc).Canonical := h.modMe

theorem State.Canonical.ringWrite {s : State} {e : FaultEvent} (h : s.Canonical) :
    (s.ringWrite e).Canonical := h.keep

theorem State.Canonical.postFault {s : State} {e : FaultEvent} (h : s.Canonical) :
    (s.postFault e).Canonical := .ite h.ringWrite (.ite h.keep h.keep)

theorem State.Canonical.deliverDropped {s : State} {d : Dropped} {ds : List Dropped} (h : s.Canonical) :
    (s.deliverDropped d ds).Canonical := ((h.freeWord rfl).freeWord rfl).keep.ringWrite

theorem State.Canonical.drainEvents {s : State} {n : Nat} (h : s.Canonical) : (s.drainEvents n).Canonical := by
  induction n generalizing s with
  | zero => exact h
  | succ n ih =>
    unfold State.drainEvents
    split
    · exact h
    · split
      · exact ih (State.Canonical.ringWrite h.keep)
      · exact ih h.deliverDropped
      · exact h

theorem State.Canonical.postOpen {s : State} {cls : BitVec 8} {code : Option (BitVec 8)}
    {place : Option (Nat × SlotNo)} {asid : Option (BitVec 12)} {w1 w2 : Option Word} (h : s.Canonical) :
    (s.postOpen cls code place asid w1 w2).Canonical := (((h.freeWord rfl).freeWord rfl).freeWord rfl).postFault

theorem State.Canonical.takeTrap {s : State} {tr : Trap} {async : Bool} (h : s.Canonical) :
    (s.takeTrap tr async).Canonical := .ite h.modMe.postFault h.modMe

theorem State.Canonical.raise {s : State} {tr : Trap} (h : s.Canonical) :
    (s.raise tr).Canonical := h.takeTrap

theorem State.Canonical.postEvent {s : State} {t : Nat} {k : SlotNo} {uid : Nat} {asid : BitVec 12} {tr : Trap}
    (h : s.Canonical) :
    (s.postEvent t k uid asid tr).Canonical := by
  dsimp only [State.postEvent]
  split
  · exact h.postOpen
  · exact .ite h.postFault (.ite h.setCtx.postFault h.setCtx)

/-! #### Machine/Issue -/

theorem State.Canonical.waitOn {s : State} {b : BlockCond} (h : s.Canonical) :
    (s.waitOn b).Canonical := by
  dsimp only [State.waitOn]
  split
  · exact h.keep
  · exact .ite h h.modMe
  · exact h

theorem State.Canonical.park {s : State} {needs : List Need} {tval : Word} (h : s.Canonical) :
    (s.park needs tval).Canonical := by
  dsimp only [State.park]
  split
  · exact h.keep.modTile (fun _ hx => hx.setSlot)
  · exact h.keep.setMe

theorem State.Canonical.defer {s : State} {d : Deferred} (h : s.Canonical) :
    (s.defer d).Canonical := h.modMe

/-! #### Machine/Tables -/

theorem State.Canonical.writeHbm {s : State} {a : Nat} {bs : List Byte} (h : s.Canonical) :
    (s.writeHbm a bs).Canonical :=
  h.withHbm (Memory.wf_writeN bs _ a h.hbm)

theorem State.Canonical.writeLpddr {s : State} {a : Nat} {bs : List Byte} (h : s.Canonical) :
    (s.writeLpddr a bs).Canonical := h.withLpddr (Memory.wf_writeN bs _ a h.lpddr)

theorem State.Canonical.writeHbmWord {s : State} {a : Nat} {x : Word} (h : s.Canonical) :
    (s.writeHbmWord a x).Canonical := h.writeHbm

theorem State.Canonical.modAsid {s : State} {a : BitVec 12} {f : AsidEntry → AsidEntry} (h : s.Canonical) :
    (s.modAsid a f).Canonical := h.keep

theorem Tile.Canonical.fillDesc {x : Tile} {d : CachedDesc} (h : x.Canonical) :
    (x.fillDesc d).Canonical := h.keep

theorem Tile.Canonical.fillEntry {x : Tile} {e : CachedEntry} (h : x.Canonical) :
    (x.fillEntry e).Canonical := h.keep

/-! #### Machine/Order -/

theorem State.Canonical.observe {s : State} {ids : List Nat} (h : s.Canonical) :
    (s.observe ids).Canonical := .ite h h.modMe

theorem State.Canonical.mark {s : State} {places : List Home} {history : List Nat} {keeps : Bool} (h : s.Canonical) :
    (s.mark places history keeps).Canonical := .ite h h.keep

theorem State.Canonical.noteSeen {s : State} {t : Nat} {k : SlotNo} {uid tag : Nat} {q : Option HReg}
    {seen : List Nat} (h : s.Canonical) :
    (s.noteSeen t k uid tag q seen).Canonical := .ite h h.modUid

theorem State.Canonical.noteRead {s : State} {seen : List Nat} (h : s.Canonical) :
    (s.noteRead seen).Canonical := .ite h h.modMe

/-! #### Machine/Scratch -/

theorem Tile.Canonical.modByUid {x : Tile} {uid : Nat} {f : Context → Context} (h : x.Canonical) :
    (x.modByUid uid f).Canonical := h.foldl (fun _ _ hs => hs.foldl (fun _ _ hs => .ite hs.setCtx hs))

theorem Tile.Canonical.pushToken {n : Nat} {cm : Comparator} {cls : BitVec 4} {off gtc : Nat} {x : Tile}
    (h : x.Canonical) :
    (addToken.pushToken n cm cls off gtc x).Canonical := .ite h.keep h.modByUid

theorem Tile.Canonical.addToken {x : Tile} {n : Nat} {cm : Comparator} {cls : BitVec 4} {off gtc : Nat}
    (h : x.Canonical) :
    (addToken x n cm cls off gtc).Canonical := by
  dsimp only [Machine.addToken]
  split
  · exact .ite h.keep h.pushToken
  · exact h.pushToken

theorem Tile.Canonical.wakeBy {x : Tile} {mute : List Nat} {cls : BitVec 4} {writer : Nat}
    {first : Nat → Nat → Option Nat} {gtc : Nat} (h : x.Canonical) :
    (x.wakeBy mute cls writer first gtc).Canonical := h.foldl fun _ _ hs => by
      refine .ite ?_ ?_
      · split
        · exact hs.addToken
        · exact hs
      · exact hs

theorem Tile.Canonical.wake {x : Tile} {mute : List Nat} {cls : BitVec 4} {writer : Nat} {a : Word} {n gtc : Nat}
    (h : x.Canonical) :
    (x.wake mute cls writer a n gtc).Canonical := h.wakeBy

theorem State.Canonical.coreLoadCapture {s : State} {a : Word} {n : Nat} (h : s.Canonical) :
    (s.coreLoadCapture a n).Canonical := h.modMe.noteRead

/-- Bytes written into the scratchpad of a tile. -/
theorem Tile.Canonical.writeBytes {x : Tile} {m : Mapping} {limit : Nat} {a : Word} {bs : List Byte}
    (h : x.Canonical) :
    ({ x with scratch := Machine.writeBytes x.scratch m limit a bs } : Tile).Canonical :=
  .withScratch (Memory.wf_writeBytes bs _ m limit a h.scratch)

theorem State.Canonical.coreStore {s : State} {a : Word} {bs : List Byte} (h : s.Canonical) :
    (s.coreStore a bs).Canonical :=
  (h.modHere (fun _ hx => hx.writeBytes.wake)).modMe.mark

theorem Tile.Canonical.writeElem {x : Tile} {m : Mapping} {q : Queue} {j : Nat} {bs : List Byte} (h : x.Canonical) :
    (writeElem x m q j bs).Canonical := h.writeBytes

theorem State.Canonical.latchHead {s : State} {t : Nat} {k : SlotNo} {uid : Nat} {q : HReg} (h : s.Canonical) :
    (s.latchHead t k uid q).Canonical := h.modUid

theorem State.Canonical.fillResv {s : State} {t : Nat} {k : SlotNo} {uid : Nat} {q : HReg} {id : Nat}
    {bs : List Byte} {poison : Option Word} (h : s.Canonical) :
    (s.fillResv t k uid q id bs poison).Canonical := by
  dsimp only [State.fillResv]
  split
  · exact h
  · exact (h.modTile (fun _ hx => hx.writeElem.wake)).modUid.latchHead

theorem State.Canonical.pushElem {s : State} {t : Nat} {k : SlotNo} {uid : Nat} {q : HReg} {key : Option Nat}
    {bs : List Byte} {poison : Option Word} (h : s.Canonical) :
    (s.pushElem t k uid q key bs poison).Canonical := by
  dsimp only [State.pushElem]
  split
  · exact h
  · exact (h.modTile (fun _ hx => hx.writeElem.wake)).modUid.latchHead

theorem State.Canonical.dropResv {s : State} {t : Nat} {k : SlotNo} {uid : Nat} {q : HReg} {id : Nat}
    (h : s.Canonical) :
    (s.dropResv t k uid q id).Canonical := h.modUid.latchHead

/-! #### Machine/Mmp -/

theorem State.Canonical.modMmp {s : State} {f : Mmp → Mmp} (h : s.Canonical) :
    (s.modMmp f).Canonical := h.keep

theorem State.Canonical.takeFrame {s : State} {place stack hint : Nat} (h : s.Canonical) {p : Nat × State}
    (hp : s.takeFrame place stack hint = some p) : p.2.Canonical := by
  have taken : ∀ {f : Nat} {m : Mmp}, some (f, { s with mmp := m }) = some p → p.2.Canonical := by
    rintro f m ⟨⟩
    exact h.keep
  dsimp only [State.takeFrame] at hp
  split at hp
  · exact taken hp
  · split at hp
    · exact taken hp
    · split at hp
      · exact taken hp
      · split at hp
        · exact taken hp
        · cases hp

theorem State.Canonical.takeFrames {s : State} {n : Nat} (h : s.Canonical) {p : Nat × State}
    (hp : s.takeFrames n = some p) : p.2.Canonical := by
  have cleared : ∀ {f : Nat} {m : Mmp},
      some (f, { s with mmp := m, hbm := clearRange s.hbm (f * 65536) (n * 65536) }) = some p → p.2.Canonical := by
    rintro f m ⟨⟩
    exact h.withHbm (Memory.wf_clearRange _ _ _ h.hbm)
  dsimp only [State.takeFrames] at hp
  split at hp
  · exact cleared hp
  · split at hp
    · exact cleared hp
    · cases hp

theorem State.Canonical.takePage {s : State} (h : s.Canonical) {p : Nat × State}
    (hp : s.takePage = some p) : p.2.Canonical := by
  unfold State.takePage at hp
  split at hp
  · obtain rfl := Option.some.inj hp
    exact h.keep
  · split at hp
    · obtain rfl := Option.some.inj hp
      exact h.keep
    · cases hp

theorem State.Canonical.freeFrame {s : State} {place stack f : Nat} (h : s.Canonical) :
    (s.freeFrame place stack f).Canonical := h.modMmp

theorem State.Canonical.freeEntryFrame {s : State} {w : Word} (h : s.Canonical) :
    (s.freeEntryFrame w).Canonical := h.freeFrame

theorem State.Canonical.freePage {s : State} {p : Nat} (h : s.Canonical) :
    (s.freePage p).Canonical := h.modMmp

theorem State.Canonical.mapFrame {s : State} {e : AsidEntry} {n : Need} {addr : Nat} {stack : BitVec 2} {hint : Nat}
    (h : s.Canonical)
    {p : State × Served} (hp : s.mapFrame e n addr stack hint = p) : p.1.Canonical := by
  subst hp
  dsimp only [State.mapFrame]
  split
  · exact h
  · rename_i f s1 hs1
    have h1 : ({ s1 with hbm := clearRange s1.hbm (f * 65536) 65536 } : State).Canonical :=
      (h.takeFrame hs1).withHbm (Memory.wf_clearRange _ _ _ (h.takeFrame hs1).hbm)
    refine State.Canonical.writeHbmWord ?_
    split
    · exact (h1.withHbm (Memory.wf_copyRange _ _ _ _ _ h1.hbm)).freePage.modAsid
    · exact h1

/-- The table that a page's entry goes into: the one that stands there, or a new one in a frame taken for it. -/
theorem State.Canonical.pageTable {s s2 : State} {found : Option Nat} {l1 : Nat} (h : s.Canonical)
    (hs2 : (match found with
      | some _ => some s
      | none => (s.takeFrame 0 0 0).map (fun (f, s') =>
          { s' with hbm := clearRange s'.hbm (f * 65536) 65536 }.writeHbmWord l1
            (BitVec.ofNat 64 (2 ^ 63 + f * 65536)))) = some s2) : s2.Canonical := by
  cases found with
  | some => exact Option.some.inj hs2 ▸ h
  | none =>
    obtain ⟨p, hp, rfl⟩ := Option.map_eq_some_iff.1 hs2
    exact ((h.takeFrame hp).withHbm (Memory.wf_clearRange _ _ _ (h.takeFrame hp).hbm)).writeHbmWord

theorem State.Canonical.mapPage {s : State} {e : AsidEntry} {n : Nat} (h : s.Canonical)
    {p : State × Served} (hp : s.mapPage e n = p) : p.1.Canonical := by
  subst hp
  unfold State.mapPage
  -- The kernel is not to compute the entry's address, whose table index is a large number's quotient.
  obtain ⟨entryAt, he⟩ : ∃ f, capEntryAddr = f := ⟨_, rfl⟩
  rw [he]
  refine .iteFst ?_ h
  split
  · exact h
  · rename_i pg s1 hs1
    have h1 : s1.Canonical := h.takePage hs1
    dsimp only
    split
    · exact h
    · rename_i s2 hs2
      have h2 : s2.Canonical := h1.pageTable hs2
      split
      · exact h
      · exact (h2.withLpddr (Memory.wf_clearRange _ _ _ h2.lpddr)).writeHbmWord

theorem State.Canonical.serveNeed {s : State} {asid : BitVec 12} {stack : BitVec 2} {hint : Nat} {n : Need}
    (h : s.Canonical)
    {p : State × Served} (hp : s.serveNeed asid stack hint n = p) : p.1.Canonical := by
  subst hp
  unfold State.serveNeed
  split
  · exact h
  · split
    · exact h
    · refine .iteFst h ?_
      split
      · exact h
      · exact .iteFst h (.iteFst h (.iteFst h (.iteFst h (h.mapFrame rfl))))
    · refine .iteFst h ?_
      split
      · exact h
      · exact .iteFst h (.iteFst h (.iteFst h (.iteFst h (h.mapFrame rfl))))
    · split
      · exact h
      · exact h.mapPage rfl
    · split
      · exact h
      · exact .iteFst h (.iteFst h h)

theorem State.Canonical.serveNeeds {s : State} {asid : BitVec 12} {stack : Need → BitVec 2} {hint : Nat}
    {ns : List Need}
    (h : s.Canonical)
    {p : State × Served × Option Need} (hp : s.serveNeeds asid stack hint ns = p) : p.1.Canonical := by
  subst hp
  induction ns generalizing s with
  | nil => exact h
  | cons n ns ih =>
    have h1 : (s.serveNeed asid (stack n) hint n).1.Canonical := h.serveNeed rfl
    unfold State.serveNeeds
    split <;> (rename_i hp; rw [hp] at h1)
    · exact ih h1
    · exact h1

theorem State.Canonical.fillNeed {s : State} {t : Nat} {asid : BitVec 12} {n : Need} (h : s.Canonical) :
    (s.fillNeed t asid n).Canonical := by
  dsimp only [State.fillNeed]
  split
  · split
    · exact .ite (h.modTile (fun _ hx => hx.fillDesc)) h
    · exact h
  · split
    · exact h.modTile (fun _ hx => hx.fillEntry)
    · exact h
  · split
    · exact h.modTile (fun _ hx => hx.fillEntry)
    · exact h
  · split
    · exact h.modTile (fun _ hx => hx.fillEntry)
    · exact h
  · split
    · exact h.modTile (fun _ hx => hx.fillEntry)
    · exact h

theorem Tile.Canonical.invalidate {x : Tile} {asid : BitVec 12} {k : EntryKey} (h : x.Canonical) :
    (x.invalidate asid k).Canonical := h.keep

theorem State.Canonical.shootEntry {s : State} {asid : BitVec 12} {addr : Nat} {work : ShootWork}
    {seq : Option (BitVec 16)} (h : s.Canonical) :
    (s.shootEntry asid addr work seq).Canonical := by
  dsimp only [State.shootEntry]
  exact h.writeHbmWord.keep.modMmp

theorem State.Canonical.setWindows {s : State} {asid : BitVec 12} {f : List HostWindow → List HostWindow}
    (h : s.Canonical) :
    (s.setWindows asid f).Canonical := by
  dsimp only [State.setWindows]
  split
  · exact h
  · exact ((h.withHbm (Memory.wf_clearRange _ _ _ h.hbm)).foldl (fun _ _ hs => hs.writeHbmWord)).modAsid

theorem State.Canonical.shootWindow {s : State} {asid : BitVec 12} {hva : Word} {seq : Option (BitVec 16)}
    (h : s.Canonical) :
    (s.shootWindow asid hva seq).Canonical := by
  dsimp only [State.shootWindow]
  exact h.setWindows.keep.modMmp

theorem State.Canonical.shootPage {s : State} {asid : BitVec 12} {page addr : Nat} {seq : Option (BitVec 16)}
    (h : s.Canonical) :
    (s.shootPage asid page addr seq).Canonical := by
  dsimp only [State.shootPage]
  exact h.writeHbmWord.keep.modMmp

theorem State.Canonical.startEviction {s : State} {inUse : List Nat} {place stack : Nat} (h : s.Canonical) :
    (s.startEviction inUse place stack).Canonical := by
  dsimp only [State.startEviction]
  split
  · exact h.shootEntry
  · split
    · exact (h.foldl (fun _ _ hs => hs.writeHbmWord)).shootEntry
    · exact h

theorem State.Canonical.writeCap {s : State} {asid : BitVec 12} {a : Nat} {bs : List Byte} (h : s.Canonical) :
    (s.writeCap asid a bs).Canonical := by
  dsimp only [State.writeCap]
  split
  · exact (State.Canonical.ite h (h.serveNeed rfl)).writeLpddr
  · exact .ite h (h.serveNeed rfl)
  · exact .ite h (h.serveNeed rfl)
  · exact .ite h (h.serveNeed rfl)

/-! #### Machine/Records -/

theorem State.Canonical.modRecord {s : State} {rid : Nat} {f : Record → Record} (h : s.Canonical) :
    (s.modRecord rid f).Canonical := h.keep

theorem State.Canonical.writeArea {s : State} {a : TileArea} {off : Nat} {bs : List Byte} (h : s.Canonical) :
    (s.writeArea a off bs).Canonical :=
  h.withHbm (Memory.wf_foldl _ (fun m _ hm => Memory.wf_write m _ _ hm) _ _ h.hbm)

theorem State.Canonical.takeArea {s : State} {stack n : Nat} (h : s.Canonical) {p : List Nat × State}
    (hp : s.takeArea stack n = some p) : p.2.Canonical := by
  induction n generalizing s p with
  | zero => exact Option.some.inj hp ▸ h
  | succ n ih =>
    unfold State.takeArea at hp
    split at hp
    · cases hp
    · rename_i f s1 hs1
      have h1 : s1.Canonical := h.takeFrame hs1
      have h2 : ({ s1 with hbm := clearRange s1.hbm (f * 65536) 65536 } : State).Canonical :=
        h1.withHbm (Memory.wf_clearRange _ _ _ h1.hbm)
      split at hp
      · cases hp
      · rename_i fs s2 hs2
        obtain rfl := Option.some.inj hp
        exact ih (p := (fs, s2)) h2 hs2

theorem State.reserveAreas_cons {s : State} {ws : List Word} {t : Nat} {ts : List Nat} {p : List TileArea × State}
    (hp : s.reserveAreas ws (t :: ts) = some p) :
    (match s.takeArea (stackOf t) (ceilDiv (recParts ws true).size 65536) with
    | none => none
    | some (fs, s1) =>
      match State.reserveAreas s1 ws ts with
      | none => none
      | some (as, s2) => some ({ tile := t, stack := stackOf t, frames := fs } :: as, s2)) = some p := hp

theorem State.Canonical.reserveAreas {s : State} {ws : List Word} {ts : List Nat} (h : s.Canonical)
    {p : List TileArea × State} (hp : s.reserveAreas ws ts = some p) : p.2.Canonical := by
  induction ts generalizing s p with
  | nil => exact Option.some.inj hp ▸ h
  | cons t ts ih =>
    have hp := State.reserveAreas_cons hp
    split at hp
    · cases hp
    · rename_i s1 hs1
      split at hp
      · cases hp
      · rename_i as s2 hs2
        obtain rfl := Option.some.inj hp
        exact ih (p := (as, s2)) (h.takeArea hs1) hs2

theorem State.Canonical.freeAreas {s : State} {r : Record} (h : s.Canonical) :
    (s.freeAreas r).Canonical := h.foldl (fun _ _ hs => hs.foldl (fun _ _ hs => hs.freeFrame))

theorem State.Canonical.tellNodes {s : State} {ns : List Nat} {tgt : AbortTarget} {post : Bool} (h : s.Canonical) :
    (s.tellNodes ns tgt post).Canonical := h.keep

theorem State.Canonical.tellParts {s : State} {r : Record} {post : Bool} (h : s.Canonical) :
    (s.tellParts r post).Canonical := .ite h.tellNodes h.tellNodes

theorem State.Canonical.withdraw {s : State} {r : Record} (h : s.Canonical) :
    (s.withdraw r).Canonical := h.tellNodes.freeAreas.keep

/-! #### Machine/Inputs -/

theorem State.Canonical.share {s : State} {c : Context} {at_ : Word} {src : Nat} {v : TongsValue} (h : s.Canonical) :
    (s.share c at_ src v).Canonical := h.foldl (fun _ _ hs => hs.keep)

theorem State.Canonical.shareIssued {s : State} {c : Context} {src : Nat} {v : TongsValue} (h : s.Canonical) :
    (s.shareIssued c src v).Canonical := .ite h h.share

theorem State.Canonical.writeLog {s : State} {asid : BitVec 12} {place : Nat} {cls : BitVec 8} {b : Word}
    {ws : List Word} (h : s.Canonical) :
    (s.writeLog asid place cls b ws).Canonical := h.foldl (fun _ _ hs => hs.writeCap)

theorem State.Canonical.modReplicas {s : State} {t : Nat} {k : SlotNo} {c : Context} {f : Context → Context}
    (h : s.Canonical) :
    (s.modReplicas t k c f).Canonical := by
  dsimp only [State.modReplicas]
  split
  · exact h.foldl (fun _ _ hs => hs.modUid)
  · exact h.modUid

theorem State.Canonical.logPlace {s : State} {t : Nat} {k : SlotNo} {uid n : Nat} (h : s.Canonical)
    {p : Option Nat × State} (hp : s.logPlace t k uid n = p) :
    p.2.Canonical := by
  subst hp
  dsimp only [State.logPlace]
  split
  · exact h
  · split
    · split
      · exact h.modReplicas
      · exact h.modReplicas.postOpen
    · exact h

theorem State.Canonical.logEntry {s : State} {t : Nat} {k : SlotNo} {uid : Nat} {cls : BitVec 8} {b : Word}
    {ws : List Word} (h : s.Canonical) :
    (s.logEntry t k uid cls b ws).Canonical := by
  dsimp only [State.logEntry]
  split
  · rename_i heq1
    split
    · exact (h.logPlace heq1).writeLog
    · exact (h.logPlace heq1)
  · rename_i heq2
    exact (h.logPlace heq2)

theorem State.Canonical.haltMismatch {s : State} {t : Nat} {k : SlotNo} {uid : Nat} {tval : Word} (h : s.Canonical) :
    (s.haltMismatch t k uid tval).Canonical := by
  dsimp only [State.haltMismatch]
  split
  · exact h
  · exact h.modUid.postFault

theorem State.Canonical.replayMismatch {s : State} {t : Nat} {k : SlotNo} {uid : Nat} (h : s.Canonical) :
    (s.replayMismatch t k uid).Canonical := by
  dsimp only [State.replayMismatch]
  split
  · exact h
  · exact h.haltMismatch

theorem State.Canonical.landInput {s : State} {mk : Word → Write} {lat : Nat} {cls : BitVec 8} {pre : List Word}
    {x : Word} {poison : Option Word} (h : s.Canonical) :
    (s.landInput mk lat cls pre x poison).Canonical := by
  dsimp only [State.landInput]
  split
  · exact h.landTag
  · split
    · exact .ite h.modMe.land h.replayMismatch
    · exact h.replayMismatch
  · exact h.modMe.shareIssued.logEntry

theorem State.Canonical.latePlace {s : State} {cls : BitVec 8} {n : Nat} {within : Option Nat} (h : s.Canonical)
    {p : Option Nat × State} (hp : s.latePlace cls n within = p) : p.2.Canonical := by
  subst hp
  dsimp only [State.latePlace]
  split
  · exact h
  · exact h.logPlace rfl
  · split
    · split
      · dsimp only
        exact h.modMe
      · exact h.replayMismatch
    · exact h.replayMismatch

theorem State.Canonical.landLate {s : State} {w : Write} {lat tag : Nat} (h : s.Canonical) :
    (s.landLate w lat tag).Canonical := by
  dsimp only [State.landLate]
  exact (h.latePlace rfl).modMe

theorem State.Canonical.arriveWord {s : State} {t : Nat} {k : SlotNo} {uid tag : Nat} {x : Word}
    {poison : Option Word} {event : Option Trap} (h : s.Canonical) :
    (s.arriveWord t k uid tag x poison event).Canonical := by
  dsimp only [State.arriveWord]
  split
  · exact h
  · split
    · exact h.modUid
    · refine .ite ?_ ?_
      · split
        · exact .ite h.modUid h.modUid.writeLog
        · exact h.modUid
      · refine State.Canonical.share ?_
        split
        · exact .ite h.modUid h.modUid.writeLog
        · exact h.modUid

theorem State.Canonical.dropLanding {s : State} {t : Nat} {k : SlotNo} {uid tag : Nat} (h : s.Canonical) :
    (s.dropLanding t k uid tag).Canonical := h.modUid

theorem State.Canonical.arriveElem {s : State} {t : Nat} {k : SlotNo} {uid : Nat} {q : HReg} {id : Nat}
    {cls : BitVec 8} {key : Nat} {bs : List Byte} {poison : Option Word} (h : s.Canonical) :
    (s.arriveElem t k uid q id cls key bs poison).Canonical := by
  dsimp only [State.arriveElem]
  split
  · exact h
  · refine State.Canonical.fillResv ?_
    refine .ite ?_ ?_
    · split
      · split
        · exact .ite h h.writeLog
        · exact h
      · exact h
    · refine State.Canonical.share ?_
      split
      · split
        · exact .ite h h.writeLog
        · exact h
      · exact h

theorem State.Canonical.reserveIn {s : State} {q : HReg} {op : Nat} {cls : BitVec 8} (h : s.Canonical) :
    (s.reserveIn q op cls).Canonical := by
  dsimp only [State.reserveIn]
  exact (h.latePlace rfl).modMe

theorem Tile.Canonical.endScan {x : Tile} {ch : Option Chan} (h : x.Canonical) :
    (x.endScan ch).Canonical := by
  dsimp only [Tile.endScan]
  split
  · exact h.keep
  · exact h

theorem Tile.Canonical.beginScan {x : Tile} {ch : Chan} (h : x.Canonical) :
    (x.beginScan ch).Canonical := h.keep

theorem State.Canonical.replayLate {s : State} {t : Nat} {k : SlotNo} {c : Context} (h : s.Canonical) :
    (s.replayLate t k c).Canonical := by
  refine State.Canonical.foldl (.foldl (.foldl h ?_) ?_) ?_
  · intro st l hs
    dsimp only
    split
    · refine .ite hs ?_
      split
      · exact hs.arriveWord
      · exact hs
    · exact hs
  · intro st x hs
    dsimp only
    split
    · split
      · exact .ite hs (hs.pushElem.modUid.modTile fun _ hx => hx.endScan)
      · exact hs
    · exact hs
  · intro st i hs
    refine hs.foldl fun st r hs => ?_
    dsimp only
    split
    · split
      · exact hs.fillResv
      · exact hs
    · exact hs

theorem State.Canonical.holdRecord {s : State} {t : Nat} {k : SlotNo} {uid : Nat} {words : List Word}
    {addrs : Nat} {b : Word} {pos : Pos} {aux coords : Word} {num : Option Nat} {cmd : Nat} {follows : List Nat}
    (h : s.Canonical) :
    (s.holdRecord t k uid words addrs b pos aux coords num cmd follows).Canonical := by
  dsimp only [State.holdRecord]
  split
  · exact h
  · exact (State.Canonical.ite h h.keep).modUid

theorem State.Canonical.holdWrite {s : State} {kind size : Nat} {addr : Word} {addrs : List Word} {bs : List Byte}
    {aux coords : Word} {num : Option Nat} (h : s.Canonical) :
    (s.holdWrite kind size addr addrs bs aux coords num).Canonical := h.holdRecord

theorem State.Canonical.cutOf {s : State} {t : Nat} {k : SlotNo} {uid : Nat} {kind : CutKind} {tag : Nat}
    {b : Word} (h : s.Canonical) :
    (s.cutOf t k uid kind tag b).Canonical := h.modUid

theorem State.Canonical.cutFull {s : State} {t : Nat} {k : SlotNo} {uid : Nat} (h : s.Canonical) :
    (s.cutFull t k uid).Canonical := by
  dsimp only [State.cutFull]
  split
  · exact .ite h.cutOf h
  · exact h

theorem State.Canonical.cut {s : State} {kind : CutKind} {tag : Nat} (h : s.Canonical) :
    (s.cut kind tag).Canonical := .ite h.cutOf h

theorem State.Canonical.shareBytes {s : State} {t : Nat} {off : Word} {bs : List Byte} (h : s.Canonical) :
    (s.shareBytes t off bs).Canonical := h.foldl (fun _ _ hs => hs.foldl (fun _ _ hs => .ite hs.share.logEntry hs))

/-! #### Machine/Access -/

theorem Tile.Canonical.count {x : Tile} {gtc near far : Nat} (h : x.Canonical) :
    (x.count gtc near far).Canonical := h.keep

theorem State.Canonical.countRequests {s : State} {t : Nat} {k : SlotNo} {uid : Nat} {found : List (Part × Trans)}
    (h : s.Canonical) :
    (s.countRequests t k uid found).Canonical := (h.modTile (fun _ hx => hx.count)).modUid

theorem State.Canonical.countNew {s : State} {t : Nat} {k : SlotNo} {uid : Nat}
    {found before : List (Part × Trans)} (h : s.Canonical) :
    (s.countNew t k uid found before).Canonical := (h.modTile (fun _ hx => hx.count)).modUid

theorem State.Canonical.addFlight {s : State} {f : Flight} (h : s.Canonical) :
    (s.addFlight f).Canonical := h.keep

theorem State.Canonical.fly {s : State} {id : Nat} {space : Space} {us : List AccessUnit} {isWrite : Bool}
    {o : OrderClass} {sink : Sink} {data : List Byte} {tval : Word} {lat : Nat} (h : s.Canonical) :
    (s.fly id space us isWrite o sink data tval lat).Canonical := h.addFlight

theorem State.Canonical.dueAt {s : State} {id due : Nat} (h : s.Canonical) :
    (s.dueAt id due).Canonical := h.keep

theorem State.Canonical.acquire {s : State} {id : Nat} (h : s.Canonical) :
    (s.acquire id).Canonical := h.modMe

theorem State.Canonical.acquireIf {s : State} {b : Bool} {id : Nat} (h : s.Canonical) :
    (s.acquireIf b id).Canonical := .ite h.acquire h

theorem State.Canonical.placeWrite {s : State} {a : Home} {bs : List Byte} (h : s.Canonical) :
    (s.placeWrite a bs).Canonical := by
  unfold State.placeWrite
  split
  · exact h.writeHbm
  · exact h.writeLpddr
  · exact .ite h (h.modTile (fun _ hx => hx.writeBytes.wake)).shareBytes
  · exact h.keep
  · exact h
  · exact h

theorem State.Canonical.unitWrite {s : State} {space : Space} {a : Home} {bs : List Byte} (h : s.Canonical) :
    (s.unitWrite space a bs).Canonical := by
  unfold State.unitWrite
  split
  · exact h.modTile (fun _ hx => hx.writeBytes)
  · exact h.placeWrite

theorem State.Canonical.countAtomic {s : State} {entry : Option Nat} {home : Nat} {asid : BitVec 12} {st : Nat}
    (h : s.Canonical) :
    (s.countAtomic entry home asid st).Canonical := by
  dsimp only [State.countAtomic]
  split
  · exact h
  · exact .ite ((State.Canonical.ite h.writeHbmWord h).modMmp) (.ite ((State.Canonical.ite h.writeHbmWord
      h).modMmp) (.ite h.writeHbmWord h))

theorem State.Canonical.counterWrap {s : State} {i : Issuer} {asid : BitVec 12} {value addr : Word}
    (h : s.Canonical) :
    (s.counterWrap i asid value addr).Canonical := h.postFault

theorem State.Canonical.perform {s : State} {f : Flight} {u : AccessUnit} {ext : BitVec 640} (h : s.Canonical)
    {p : State × List Byte} (hp : s.perform f u ext = p) : p.1.Canonical := by
  subst hp
  dsimp only [State.perform]
  split
  · exact h
  · exact h
  · exact h.unitWrite
  · exact h.placeWrite.countAtomic
  · split
    · exact h
    all_goals exact (State.Canonical.ite h (.ite h.unitWrite h.counterWrap)).countAtomic
  · exact h.placeWrite.countAtomic

theorem State.Canonical.finishUnit {s : State} {f : Flight} {i : Nat} {u : AccessUnit} {bs : List Byte}
    {poison : Option Word} {seen : List Nat} (h : s.Canonical) :
    (s.finishUnit f i u bs poison seen).Canonical := .ite h.keep (.ite h.keep h.keep)

theorem State.Canonical.acquireSeen {s : State} {f : Flight} {seen : List Nat} (h : s.Canonical) :
    (s.acquireSeen f seen).Canonical := by
  dsimp only [State.acquireSeen]
  split
  · exact h
  · exact h
  · exact h
  · split
    · exact .ite h.modUid.keep h
    · exact h

theorem State.Canonical.performUnit {s : State} {fid i : Nat} {ext : BitVec 640} (h : s.Canonical) :
    EndsCanonical (s.performUnit fid i ext) := by
  unfold State.performUnit
  split
  · exact .next h
  · rename_i f _
    split
    · exact .next h
    · rename_i u _
      have hp : (if s.lostHome (s.mapOf f.issuer) u.home u.entry then (s, List.replicate u.len 0)
          else s.perform f u ext).1.Canonical := .iteFst h (h.perform rfl)
      exact .ite (.next h) (.ite .fault (.next (State.Canonical.acquireSeen (.ite hp.finishUnit.mark hp.finishUnit))))

theorem State.Canonical.engineTrap {s : State} {t : Nat} {k : SlotNo} {uid : Nat} {asid : BitVec 12} {tr : Trap}
    {num : Nat} (h : s.Canonical) :
    (s.engineTrap t k uid asid tr num).Canonical := by
  dsimp only [State.engineTrap]
  split
  · exact h.postEvent
  · exact .ite h ((State.Canonical.ite h.postEvent h.postEvent.share).logEntry)

/-! #### Machine/Local -/

theorem State.Canonical.flyCore {s : State} {id : Nat} {us : List AccessUnit} {isWrite : Bool} {o : OrderClass}
    {sink : Sink} {data : List Byte} {tval : Word} (h : s.Canonical) :
    (s.flyCore id us isWrite o sink data tval).Canonical := h.fly.keep

theorem State.Canonical.storeLater {s : State} {pieces : List (Word × List Byte)} {o : OrderClass} (h : s.Canonical) :
    (s.storeLater pieces o).Canonical := .ite h ((h.fresh rfl).flyCore)

theorem State.Canonical.storeHere {s : State} {a : Word} {bs : List Byte} (h : s.Canonical) :
    (s.storeHere a bs).Canonical := .ite h.modMe.storeLater h.coreStore

theorem State.Canonical.loadLater {s : State} {k : CoreDest} {w : Write} {lat : Nat} {pieces : List (Word × Nat)}
    (h : s.Canonical) :
    (s.loadLater k w lat pieces).Canonical := (h.fresh rfl).modMe.flyCore

theorem State.Canonical.landRead {s : State} {w : Write} {lat : Nat} {poison : Option Word} (h : s.Canonical) :
    (s.landRead w lat poison).Canonical := h.modMe

theorem State.Canonical.gatherLanes {s : State} {w : LaneW} {d : VReg} {old : Vec} {act : List Bool}
    {ls : List (Nat × Word)} {lat : Nat} (h : s.Canonical) :
    (s.gatherLanes w d old act ls lat).Canonical := .ite h.modMe.loadLater h.landRead.modMe.noteRead

theorem State.Canonical.multicastAs {s : State} {id : Nat} {t : TileId} {uid : Nat} {w o : Word} {bs : List Byte}
    (h : s.Canonical) :
    (s.multicastAs id t uid w o bs).Canonical := by
  dsimp only [State.multicastAs]
  split
  · exact h.keep
  · exact h

theorem State.Canonical.multicast {s : State} {t : TileId} {uid : Nat} {w o : Word} {bs : List Byte}
    (h : s.Canonical) :
    (s.multicast t uid w o bs).Canonical := h.keep.multicastAs

theorem State.Canonical.storeWindow {s : State} {w : Win} {word o : Word} {bs : List Byte} (h : s.Canonical) :
    (s.storeWindow w word o bs).Canonical := .ite h.modMe.holdWrite h.modMe.multicast

theorem Tile.Canonical.setComparator {x : Tile} {n : BitVec 3} {cm : Option Comparator} (h : x.Canonical) :
    (x.setComparator n cm).Canonical := h.keep

theorem Tile.Canonical.rearm {x : Tile} {n : BitVec 3} {cm : Option Comparator} {gtc : Nat} (h : x.Canonical) :
    (x.rearm n cm gtc).Canonical := h.setComparator.keep

theorem State.Canonical.cover {s : State} {ws : List Nat} (h : s.Canonical) :
    (s.cover ws).Canonical := h.keep

/-! #### Machine/Remote -/

theorem State.Canonical.putn {s : State} {target : TileId} {o : Word} {bs : List Byte} {post : Option Word}
    (h : s.Canonical) :
    (s.putn target o bs post).Canonical := by
  dsimp only [State.putn]
  split
  · exact (h.fresh rfl).fly.dueAt
  · exact ((h.fresh rfl).fly.dueAt.fresh rfl).fly.dueAt

theorem State.Canonical.storeN {s : State} {base o : Word} {bs : List Byte} {post : Option Word} (h : s.Canonical) :
    (s.storeN base o bs post).Canonical := by
  dsimp only [State.storeN]
  refine .ite ?_ ?_
  · split
    · exact h.modMe.holdWrite.holdWrite
    · exact h.modMe.holdWrite
  · exact h.modMe.putn

theorem State.Canonical.storeFound {s : State} {g : Target} {fo : List (Part × Trans)} {bs : List Byte}
    (h : s.Canonical) :
    (s.storeFound g fo bs).Canonical := .ite h ((h.fresh rfl).countRequests.fly)

theorem State.Canonical.holdStore {s : State} {g : Target} {bs : List Byte} (h : s.Canonical) :
    (s.holdStore g bs).Canonical := by
  dsimp only [State.holdStore]
  split
  · exact h.holdWrite
  · exact h.holdWrite
  · exact h.holdWrite

theorem State.Canonical.flyAtomic {s : State} {id : Nat} {g : Target} {fo : List (Part × Trans)} {op : UnitOp}
    {sink : Sink} {n : Nat} {o : Ord} (h : s.Canonical) :
    (s.flyAtomic id g fo op sink n o).Canonical := .ite h.countRequests.fly.acquire h.countRequests.fly

theorem State.Canonical.captureCounter {s : State} {wr : Bool} {x : Word} (h : s.Canonical) :
    (s.captureCounter wr x).Canonical := by
  dsimp only [State.captureCounter]
  exact h.modMe

theorem State.Canonical.counterStore {s : State} {o amt : Word} {ord : Ord} (h : s.Canonical) :
    (s.counterStore o amt ord).Canonical := by
  dsimp only [State.counterStore]
  refine .ite ?_ ?_
  · exact (h.fresh rfl).flyCore.acquireIf
  · split
    · exact h.coreStore.keep
    · exact h.coreStore
    · exact h.coreStore.observe

theorem State.Canonical.holdCadd {s : State} {r : CounterRef} {amt : Word} {o : Ord} (h : s.Canonical) :
    (s.holdCadd r amt o).Canonical := by
  dsimp only [State.holdCadd]
  split
  · exact h
  · exact h.holdWrite
  · exact h.holdWrite

theorem State.Canonical.captureRef {s : State} {r : CounterRef} (h : s.Canonical) :
    (s.captureRef r).Canonical := by
  dsimp only [State.captureRef]
  split
  · exact h.captureCounter
  · exact h
  · exact h

theorem State.Canonical.waited {s : State} {r : CounterRef} (h : s.Canonical) :
    (s.waited r).Canonical := by
  dsimp only [State.waited]
  split
  · exact h.observe
  · exact h.captureCounter.modMe.observe
  · exact h.countRequests.observe

/-! #### Machine/System -/

theorem State.Canonical.specPoison {s : State} {r : SpecReg} (h : s.Canonical) {p : Option Word × State}
    (hp : s.specPoison r = p) :
    p.2.Canonical := by
  subst hp
  dsimp only [State.specPoison]
  split
  · exact h.freeWord rfl
  · exact h

/-! #### Machine/Extended -/

theorem State.Canonical.arriveBarrier {s : State} {c : Context} {level : BitVec 3} (h : s.Canonical) :
    (s.arriveBarrier c level).Canonical := by
  dsimp only [State.arriveBarrier]
  split
  · exact h
  · split
    · exact h.keep
    · exact h.keep

theorem State.Canonical.settleBarriers {s : State} {rid : Nat} (h : s.Canonical) :
    (s.settleBarriers rid).Canonical := by
  dsimp only [State.settleBarriers]
  split
  · exact h.keep
  · exact h

theorem State.Canonical.sbarArrive {level : BitVec 3} {s : State} (h : s.Canonical) :
    (sbarArrive level s).Canonical := .ite (.ite h h.cutOf) h.arriveBarrier

theorem State.Canonical.setQueueOf {s : State} {q : BitVec 3} {x : LaunchQueue} (h : s.Canonical) :
    (s.setQueueOf q x).Canonical := h.keep

/-! #### Machine/Engines -/

theorem State.Canonical.engineFlags {s : State} {t : Nat} {k : SlotNo} {uid : Nat} {fl : BitVec 7} (h : s.Canonical) :
    (s.engineFlags t k uid fl).Canonical := h.modUid

theorem State.Canonical.captureEngine {s : State} {t : Nat} {k : SlotNo} {uid : Nat} {wr remote : Bool}
    {tile : Nat} {a : Option Word} (h : s.Canonical) :
    (s.captureEngine t k uid wr remote tile a).Canonical := .ite h h.modUid

theorem State.Canonical.engineStore {s : State} {t : Nat} {m : Mapping} {a : Word} {bs : List Byte} {hist : List Nat}
    (h : s.Canonical) : (s.engineStore t m a bs hist).Canonical :=
  (h.modTile (fun _ hx => hx.writeBytes.wake)).mark

theorem State.Canonical.engineFlight {s : State} {t : TileId} {k : SlotNo} {uid : Nat} {asid : BitVec 12}
    {space : Space} {us : List AccessUnit} {after : List Nat} {release : Bool} {tval : Word} {lat cmd : Nat}
    {report : Word} (h : s.Canonical) {p : Nat × State}
    (hp : s.engineFlight t k uid asid space us after release tval lat cmd report = p) :
    p.2.Canonical := by
  subst hp
  exact h.keep.addFlight

theorem State.Canonical.postScratch {s : State} {t : Nat} {k : SlotNo} {uid : Nat} {asid : BitVec 12}
    {m : Mapping} {o amt : Word} {p : Poster} (h : s.Canonical) :
    (s.postScratch t k uid asid m o amt p).Canonical := .ite h.engineTrap (.ite h.engineStore h.postFault)

theorem State.Canonical.cutPost {s : State} {t : Nat} {k : SlotNo} {uid cid : Nat} (h : s.Canonical) :
    (s.cutPost t k uid cid).Canonical := by
  dsimp only [State.cutPost]
  split
  · exact h.cutOf.modUid
  · exact h

theorem State.Canonical.enginePost {s : State} {t : TileId} {k : SlotNo} {uid : Nat} {asid : BitVec 12} {m : Mapping}
    {r : PostRef} {amt : Word} {rel : Bool} {p : Poster} (h : s.Canonical) :
    (s.enginePost t k uid asid m r amt rel p).Canonical := by
  have hcut : ∀ {c : Prop} [Decidable c] {u : State} {b : Word}, u.Canonical →
      (if c then u.cutOf t.toNat k uid .enginePost 0 b else u).Canonical := fun hu => .ite hu.cutOf hu
  cases r with
  | none => exact hcut h
  | s o => exact hcut h.modUid.postScratch
  | n x => exact hcut (.ite h.modUid.captureEngine.holdRecord (h.modUid.captureEngine.engineFlight rfl))
  | flat x => exact hcut (.ite h.holdRecord (h.countRequests.engineFlight rfl))

theorem State.Canonical.channelMiss {s : State} {t : TileId} {ch : Chan} {cid : Nat} {asid : BitVec 12}
    {needs : List Need} {tval : Word} (h : s.Canonical) {p : Nat × State}
    (hp : s.channelMiss t ch cid asid needs tval = p) :
    p.2.Canonical := by
  subst hp
  exact h.keep

/-! #### Machine/Transfer -/

theorem Tile.Canonical.setChannel {x : Tile} {ch : Chan} {c : Channel} (h : x.Canonical) :
    (x.setChannel ch c).Canonical := h.keep

theorem Tile.Canonical.setRun {x : Tile} {ch : Chan} {r : XRun} (h : x.Canonical) :
    (x.setRun ch r).Canonical := h.setChannel

theorem State.Canonical.execTransferStart {t : TileId} {ch : Chan} {s : State} (h : s.Canonical) :
    EndsCanonical (execTransferStart t ch s) := by
  dsimp only [Machine.execTransferStart]
  split
  · exact .ite (.next (h.setTile ((h.tile _).keep.setRun))) (.next h)
  · exact .next h

theorem State.Canonical.popIndices {s : State} {t : TileId} {r : XRun} {n : Nat} (h : s.Canonical)
    {p : Option Trap × XRun × State} (hp : popIndices s t r n = p) : p.2.2.Canonical := by
  subst hp
  induction n generalizing s r with
  | zero => exact h
  | succ n ih =>
    unfold Machine.popIndices
    dsimp only
    split
    · exact h
    · split
      · exact h
      · split
        · exact h
        · split
          · exact h
          · exact ih h.modUid

theorem State.Canonical.holdPieces {s : State} {t : TileId} {x : XCmd} {from_ fuel : Nat} {bs : List Byte}
    (h : s.Canonical)
    {p : List Byte × State} (hp : holdPieces s t x from_ bs fuel = p) : p.2.Canonical := by
  subst hp
  induction fuel generalizing s from_ bs with
  | zero => exact h
  | succ fuel ih =>
    unfold Machine.holdPieces
    split
    · exact h
    · dsimp only
      split
      · exact h
      · split
        · exact h.cutFull
        · exact ih h.holdRecord

theorem State.Canonical.endCommand {s : State} {t : TileId} {ch : Chan} {r : XRun} {status : BitVec 8}
    {tr : Option Trap} (h : s.Canonical) :
    (s.endCommand t ch r status tr).Canonical := h.modTile (fun _ hx => hx.keep.setChannel)

theorem State.Canonical.putRun {s : State} {t : TileId} {ch : Chan} {r : XRun} (h : s.Canonical) :
    (s.putRun t ch r).Canonical := by
  dsimp only [State.putRun]
  split
  · exact h.endCommand
  · exact h.modTile (fun _ hx => hx.setRun)

theorem State.Canonical.shareChunk {s : State} {t : TileId} {r : XRun} {pieces : List (Nat × List Byte)}
    {pops : Nat} (h : s.Canonical) :
    (s.shareChunk t r pieces pops).Canonical := by
  dsimp only [State.shareChunk]
  split
  · exact h
  · exact .ite h (.ite ((State.Canonical.ite h h.share).foldl (fun _ _ hs => hs.logEntry)) (.ite h h.share))

theorem State.Canonical.stopCommand {s : State} {t : TileId} {ch : Chan} {r : XRun} {status : BitVec 8}
    {tr : Trap} (h : s.Canonical) :
    (s.stopCommand t ch r status tr).Canonical := h.shareChunk.endCommand

theorem State.Canonical.chunkMiss {s : State} {t : TileId} {ch : Chan} {r : XRun} {ns : List Need} (h : s.Canonical) :
    (s.chunkMiss t ch r ns).Canonical := (h.channelMiss rfl).modTile (fun _ hx => hx.setRun)

theorem State.Canonical.grant {s : State} {t : Nat} {who : BitVec 3} (h : s.Canonical) :
    (s.grant t who).Canonical := h.modTile (fun _ hx => hx.keep)

/-- The state that writing held pieces leaves. -/
def Wrote.state : Wrote → State
  | .ok _ s => s
  | .miss _ s _ => s
  | .stop _ _ _ s => s

/-- The new flight of a piece is counted, or its stack remembered. -/
theorem State.Canonical.startPiece {s : State} {t : TileId} {k : SlotNo} {uid : Nat} {asid : BitVec 12}
    {space : Space}
    {us : List AccessUnit} {tval : Word} {lat : Nat} {c : Prop} [Decidable c] {f : Context → Context}
    {new old : List (Part × Trans)} (h : s.Canonical) {p : List Nat × State} (hp : (if us.isEmpty then ([], s) else
      let (id, s1) := s.engineFlight t k uid asid space us [] false tval lat
      ([id], if c then s1.modUid t.toNat k uid f else s1.countNew t.toNat k uid new old)) = p) : p.2.Canonical := by
  subst hp
  split
  · exact h
  · exact .ite (h.engineFlight rfl).modUid (h.engineFlight rfl).countNew

theorem State.Canonical.writePiece {s : State} {t : TileId} {r : XRun} {off : Nat} {bs : List Byte}
    (h : s.Canonical) :
    (writePiece s t r off bs).1.state.Canonical := by
  have hcap : State.Canonical (match r.cmd.dstSpace with
    | 0 => s.captureEngine t.toNat r.cmd.slot r.cmd.uid true false 0
        (firstOut (s.tile t.toNat).limit (r.cmd.dst + BitVec.ofNat 64 off) bs.length)
    | 1 => s.captureEngine t.toNat r.cmd.slot r.cmd.uid true true (nTileId r.cmd.dst).toNat
        (firstOut (s.tile (nTileId r.cmd.dst).toNat).limit ((r.cmd.dst &&& 0x1FFFFF) + BitVec.ofNat 64 off) bs.length)
    | _ => s) := by
    split
    · exact h.captureEngine
    · exact h.captureEngine
    · exact h
  unfold Machine.writePiece
  extract_lets x holds a s1
  split
  · exact hcap.engineStore
  · split
    · split
      rename_i hp
      exact .ite (hcap.holdPieces hp).modUid (hcap.holdPieces hp)
    · split
      · exact hcap
      · split
        · exact hcap
        · split
          rename_i hw
          have h1 := hcap.startPiece hw
          split
          · exact h1
          · exact h1

theorem State.Canonical.writeHeld {s : State} {t : TileId} {r : XRun} {later held : List (Nat × List Byte)}
    (h : s.Canonical) : (writeHeld s t r later held).state.Canonical := by
  induction held generalizing s r with
  | nil => exact h
  | cons p rest ih =>
    have h1 : (Machine.writePiece s t r p.1 p.2).1.state.Canonical := h.writePiece
    unfold Machine.writeHeld
    dsimp only
    split <;> (rename_i hp; rw [hp] at h1)
    · exact ih h1
    · exact h1
    · exact h1
    · exact h1

theorem State.Canonical.writeChunk {s : State} {t : TileId} {ch : Chan} {r : XRun} {len : Nat} (h : s.Canonical) :
    (s.writeChunk t ch r len).Canonical := by
  have h1 : (Machine.writeHeld (if (splitHeld len r.held).1.isEmpty then s else s.grant t.toNat (ch.setWidth 3)) t r
      (splitHeld len r.held).2 (splitHeld len r.held).1).state.Canonical := (State.Canonical.ite h h.grant).writeHeld
  dsimp only [State.writeChunk]
  split <;> (rename_i hw; rw [hw] at h1)
  · exact h1.putRun
  · exact h1.chunkMiss
  · exact h1.stopCommand

theorem State.Canonical.replayInput {s : State} {t : TileId} {ch : Chan} {r : XRun} (h : s.Canonical) :
    (s.replayInput t ch r).Canonical := .ite ((h.popIndices rfl).endCommand) ((h.popIndices rfl).modTile (fun _ hx
        => hx.setRun))

theorem State.Canonical.execTransferChunk {t : TileId} {ch : Chan} {len : Nat} {ext : List Byte} {s : State}
    (h : s.Canonical) : EndsCanonical (execTransferChunk t ch len ext s) := by
  unfold Machine.execTransferChunk
  split
  · exact .next h
  · rename_i r _
    refine .ite (.next h) (.ite (.next h.writeChunk) (.ite (.next h.endCommand) ?_))
    split
    · exact .next h
    · exact .next h.replayInput
    · split
      rename_i tr r1 s1 hp
      have h1 : s1.Canonical := by
        split at hp
        · exact h.popIndices hp
        · obtain ⟨-, -, rfl⟩ := hp
          exact h
      split
      · exact .next h1.stopCommand
      · split
        · exact .next (h1.modTile fun _ hx => hx.setRun)
        · exact .next h1.chunkMiss
        · exact .next h1.stopCommand
        · exact .fault
        · rename_i r2 found _
          have h2 : ∀ {c : Prop} [Decidable c], (if c then s1.countRequests t.toNat r.cmd.slot r.cmd.uid found
              else s1).Canonical := .ite h1.countRequests h1
          have h3 : ∀ {c d : Prop} [Decidable c] [Decidable d] {f : Context → Context}, (if d then
              (if c then s1.countRequests t.toNat r.cmd.slot r.cmd.uid found else s1).modUid t.toNat r.cmd.slot
                r.cmd.uid f else (if c then s1.countRequests t.toNat r.cmd.slot r.cmd.uid found else s1)).Canonical :=
            .ite h2.modUid h2
          exact .next h3.captureEngine.shareChunk.writeChunk

theorem State.Canonical.followChunk {s : State} {t : TileId} {uid key : Nat} {pieces : List (Nat × List Byte)}
    {ended : Option (BitVec 8 × Option Trap)} {fl : BitVec 7} {pops : Nat} (h : s.Canonical) {u : State}
    (hu : s.followChunk t uid key pieces ended fl pops = some u) : u.Canonical := by
  obtain ⟨ch, -, hch⟩ := List.exists_of_findSome?_eq_some hu
  dsimp only at hch
  split at hch
  · split at hch
    · split at hch
      · cases hch
      · obtain rfl := Option.some.inj hch
        exact (h.popIndices rfl).putRun
    · cases hch
  · cases hch

theorem Tile.Canonical.reissue {x : Tile} {ch : Chan} {cid g : Nat} (h : x.Canonical) :
    (x.reissue ch cid g).Canonical := by
  dsimp only [Tile.reissue]
  refine h.keep.setChannel.foldl fun y k hy => hy.foldl fun z b hz => ?_
  split
  · exact .ite hz.setCtx hz
  · exact hz

theorem State.Canonical.dropFault {s : State} {fid : Nat} (h : s.Canonical) :
    (s.dropFault fid).Canonical := h.modMmp

theorem State.Canonical.execChannelFaultAnswer {t : TileId} {ch : Chan} {s : State} (h : s.Canonical) :
    EndsCanonical (execChannelFaultAnswer t ch s) := by
  dsimp only [Machine.execChannelFaultAnswer]
  split
  · exact .next h
  · split
    · exact .next ((State.Canonical.ite (h.foldl (fun _ _ hs => hs.fillNeed)) h).dropFault.modTile (fun _ hx =>
        hx.keep.reissue))
    · split
      · refine .ite ?_ ?_
        · split
          · exact .ite (.next (((State.Canonical.ite (h.foldl (fun _ _ hs => hs.fillNeed)) h).dropFault.modTile
              (fun _ hx => hx.reissue)).modTile (fun _ hx => hx.setRun))) (.next (((State.Canonical.ite (h.foldl
              (fun _ _ hs => hs.fillNeed)) h).dropFault.modTile (fun _ hx => hx.reissue)).stopCommand))
          · exact .next ((State.Canonical.ite (h.foldl (fun _ _ hs => hs.fillNeed)) h).dropFault.modTile (fun _ hx
              => hx.reissue))
        · exact .next ((State.Canonical.ite (h.foldl (fun _ _ hs => hs.fillNeed)) h).dropFault)
      · exact .next ((State.Canonical.ite (h.foldl (fun _ _ hs => hs.fillNeed)) h).dropFault)
    · exact .next ((State.Canonical.ite (h.foldl (fun _ _ hs => hs.fillNeed)) h).dropFault)

theorem Tile.Canonical.markMissed {x : Tile} {cid : Nat} (h : x.Canonical) :
    (x.markMissed cid).Canonical := h.keep

theorem State.Canonical.execPromiseExpiry {cid : Nat} {s : State} (h : s.Canonical) :
    EndsCanonical (execPromiseExpiry cid s) := by
  dsimp only [Machine.execPromiseExpiry]
  split
  · exact .next h
  · split
    · exact .next h
    · exact .ite (.next ((h.modTile (fun _ hx => hx.markMissed)).engineTrap)) (.next h)

theorem State.Canonical.complete {s : State} {t : TileId} {d : XDone} (h : s.Canonical) :
    (s.complete t d).Canonical := by
  dsimp only [State.complete]
  split
  · exact ((State.Canonical.ite ((h.modTile (fun _ hx => hx.keep)).captureEngine.engineStore) ((h.modTile (fun _
      hx => hx.keep)).captureEngine.engineStore.enginePost)).engineFlags).engineTrap
  · exact (State.Canonical.ite ((h.modTile (fun _ hx => hx.keep)).captureEngine.engineStore) ((h.modTile (fun _ hx
      => hx.keep)).captureEngine.engineStore.enginePost)).engineFlags

theorem State.Canonical.execTransferComplete {cid : Nat} {s : State} (h : s.Canonical) :
    EndsCanonical (execTransferComplete cid s) := by
  dsimp only [Machine.execTransferComplete]
  split
  · exact .next h
  · split
    · exact .next h
    · refine .ite ?_ ?_
      · exact .next h
      · refine .ite ?_ ?_
        · exact .next h.cutPost
        · refine .ite ?_ ?_
          · exact .next h.cutFull
          · split
            · exact .next ((h.channelMiss rfl).modTile (fun _ hx => hx.keep))
            · exact .ite (.next h.complete) (.next h.complete)
            · exact .next h.complete

theorem State.Canonical.replayAbort {s : State} {t : Nat} {k : SlotNo} {c : Context} {tr : Trap} (h : s.Canonical) :
    (s.replayAbort t k c tr).Canonical := by
  dsimp only [State.replayAbort]
  split
  · exact h
  · split
    · exact h.endCommand
    · exact h.modTile (fun _ hx => hx.keep)
    · exact h.engineStore

theorem State.Canonical.replayAsync {s : State} {t : Nat} {k : SlotNo} {uid n : Nat} (h : s.Canonical) :
    (s.replayAsync t k uid n).Canonical := by
  induction n generalizing s with
  | zero => exact h
  | succ n ih =>
    unfold State.replayAsync
    split
    · exact h
    · split
      · split
        · refine ih ?_
          split
          · split
            · exact h.modUid.replayAbort.postEvent
            · exact h.modUid
          · exact h.modUid.modTile (fun _ hx => hx.writeBytes)
        · exact h
      · exact h

/-! #### Machine/Matrix -/

theorem State.Canonical.startOp {s : State} {t : Nat} {r : MxuRun} {w : MicroOp} {start : Nat} {work : MxuWork}
    (h : s.Canonical) :
    (s.startOp t r w start work).Canonical := by
  dsimp only [State.startOp]
  exact h.modTile (fun _ hx => hx.keep)

theorem State.Canonical.suppressOp {s : State} {t : Nat} {r : MxuRun} {w : MicroOp} {start : Nat} {tr : Trap}
    (h : s.Canonical) :
    (s.suppressOp t r w start tr).Canonical := h.startOp.engineTrap

theorem State.Canonical.failMicro {s : State} {t : Nat} {r : MxuRun} {tr : Trap} (h : s.Canonical) :
    (s.failMicro t r tr).Canonical := (h.modTile (fun _ hx => hx.keep)).engineTrap

theorem State.Canonical.startStep {s : State} {t : Nat} {r : MxuRun} {w : MicroOp} {sparse : Bool} (h : s.Canonical) :
    (s.startStep t r w sparse).Canonical := by
  dsimp only [State.startStep]
  split
  · split
    · exact h.failMicro
    · have h1 : ∀ (c : Prop) [Decidable c] (f g : Context → Context),
          ((if c then s.modUid t r.slot r.uid f else s).modUid t r.slot r.uid g).Canonical :=
        fun c _ f g => (State.Canonical.ite h.modUid h).modUid
      refine .ite (h1 _ _ _).suppressOp ?_
      split
      · exact (h1 _ _ _).suppressOp
      · exact .ite (h1 _ _ _).suppressOp (h1 _ _ _).startOp
  · exact h.modTile (fun _ hx => hx.keep)

theorem State.Canonical.execMxuDenseStep {t : TileId} {s : State} (h : s.Canonical) :
    EndsCanonical (execMxuDenseStep t s) := by
  dsimp only [Machine.execMxuDenseStep]
  split
  · exact .ite (.next h) (.next h.startStep)
  · exact .next h

theorem State.Canonical.execMxuSparseStep {t : TileId} {s : State} (h : s.Canonical) :
    EndsCanonical (execMxuSparseStep t s) := by
  dsimp only [Machine.execMxuSparseStep]
  split
  · exact .ite (.next h) (.next h.startStep)
  · exact .next h

theorem State.Canonical.writeRows {s : State} {t : Nat} {r : MxuRun} {f : Fmt} {sat : Bool} {ko : Word}
    {rnd : Option (List Byte)} (h : s.Canonical) {p : State × BitVec 7} (hp : s.writeRows t r f sat ko rnd = p) :
    p.1.Canonical := by
  subst hp
  exact State.Canonical.foldlPair h fun _ _ hs => hs.engineStore.modUid

theorem State.Canonical.startWriteOut {s : State} {t : Nat} {r : MxuRun} {w : MicroOp} (h : s.Canonical) :
    (s.startWriteOut t r w).Canonical := by
  dsimp only [State.startWriteOut]
  split
  · split
    · exact h.failMicro
    · exact .ite h.modUid.suppressOp (.ite h.modUid.suppressOp ((State.Canonical.ite ((h.modUid.writeRows
        rfl).modTile (fun _ hx => hx.keep)) (h.modUid.writeRows rfl)).startOp))
  · exact h.modTile (fun _ hx => hx.keep)

theorem State.Canonical.execMxuWriteOut {t : TileId} {s : State} (h : s.Canonical) :
    EndsCanonical (execMxuWriteOut t s) := by
  dsimp only [Machine.execMxuWriteOut]
  split
  · exact .ite (.next h) (.next h.startWriteOut)
  · exact .next h

theorem State.Canonical.execMxuClear {t : TileId} {s : State} (h : s.Canonical) :
    EndsCanonical (execMxuClear t s) := by
  dsimp only [Machine.execMxuClear]
  split
  · exact .next (.ite h.suppressOp h.startOp)
  · exact .next h

theorem State.Canonical.execMxuOperationComplete {t : TileId} {s : State} (h : s.Canonical) :
    EndsCanonical (execMxuOperationComplete t s) := by
  dsimp only [Machine.execMxuOperationComplete]
  split
  · exact .next h
  · refine .ite ?_ ?_
    · exact .next h.cutPost
    · split
      · exact .next ((h.modTile (fun _ hx => hx.keep)).modTile (fun _ hx => hx.keep))
      · exact .next ((h.modTile (fun _ hx => hx.keep)).modTile (fun _ hx => hx.keep))
      · exact .next ((h.modTile (fun _ hx => hx.keep)).modTile (fun _ hx => hx.keep))
      · split
        · exact .next ((h.modTile (fun _ hx => hx.keep)).engineFlags.enginePost)
        · exact .next ((h.modTile (fun _ hx => hx.keep)).engineFlags)
      · exact .next (h.modTile (fun _ hx => hx.keep))

theorem State.Canonical.execMxuRoutineRunaway {t : TileId} {s : State} (h : s.Canonical) :
    EndsCanonical (execMxuRoutineRunaway t s) := by
  dsimp only [Machine.execMxuRoutineRunaway]
  split
  · exact .ite (.next h.failMicro) (.next h)
  · exact .next h

theorem State.Canonical.execMxuAsidClear {t : TileId} {s : State} (h : s.Canonical) :
    EndsCanonical (execMxuAsidClear t s) := by
  dsimp only [Machine.execMxuAsidClear]
  split
  · split
    · exact .next (h.setTile ((h.tile _).keep))
    · exact .next h
  · exact .ite (.ite (.next (h.setTile ((h.tile _).keep))) (.next h)) (.ite (.next (h.setTile ((h.tile _).keep)))
      (.next h))

/-! #### Machine/Grammar -/

theorem State.Canonical.modGeu {s : State} {t : Nat} {f : Geu → Geu} (h : s.Canonical) :
    (s.modGeu t f).Canonical := h.modTile (fun _ hx => hx.keep)

theorem State.Canonical.execGeuLoad {t : TileId} {s : State} (h : s.Canonical) :
    EndsCanonical (execGeuLoad t s) := by
  dsimp only [Machine.execGeuLoad]
  split
  · exact .ite (.next h.modUid.modGeu) (.next h)
  · exact .next h

theorem State.Canonical.execGeuRun {t : TileId} {s : State} (h : s.Canonical) :
    EndsCanonical (execGeuRun t s) := by
  dsimp only [Machine.execGeuRun]
  split
  · refine .ite ?_ ?_
    · split
      · exact .next h
      · split
        · exact .next h.modGeu
        · refine .ite ?_ ?_
          · exact .next h.modGeu
          · split
            · exact .next h.modGeu
            · exact .ite (.next h.modGeu) (.next h.modGeu)
    · exact .next h
  · exact .next h

theorem State.Canonical.execGeuRowDeliver {t : TileId} {s : State} (h : s.Canonical) :
    EndsCanonical (execGeuRowDeliver t s) := by
  dsimp only [Machine.execGeuRowDeliver]
  split
  · split
    · exact .ite (.ite (.next h) (.next h.pushElem.modGeu)) (.next h.engineStore.modGeu)
    · exact .next h
  · exact .next h

theorem State.Canonical.postRun {s : State} {t : TileId} {cmd : GeuCmd} {n : Nat} (h : s.Canonical) :
    (s.postRun t cmd n).Canonical := by
  dsimp only [State.postRun]
  split
  · exact h.enginePost
  · exact h
  · exact h

theorem State.Canonical.endGeu {s : State} {t : Nat} {k : SlotNo} {uid cid : Nat} {r : GeuRunning} (h : s.Canonical) :
    (s.endGeu t k uid cid r).Canonical := by
  dsimp only [State.endGeu]
  split
  · exact h.engineFlags.engineTrap
  · exact h.engineFlags

theorem Tile.Canonical.withoutGeu {x : Tile} {cmds : List GeuCmd} (h : x.Canonical) :
    (x.withoutGeu cmds).Canonical := h.keep

theorem State.Canonical.abortRuns {s : State} {t : TileId} {cmds : List GeuCmd} {nrows : Nat} (h : s.Canonical) :
    (s.abortRuns t cmds nrows).Canonical := h.foldl (fun _ _ hs => (hs.modTile (fun _ hx => hx.withoutGeu)).postRun)

theorem State.Canonical.popGeu {s : State} {t : Nat} (h : s.Canonical) :
    (s.popGeu t).Canonical := h.modGeu

theorem State.Canonical.execGeuComplete {t : TileId} {s : State} (h : s.Canonical) :
    EndsCanonical (execGeuComplete t s) := by
  dsimp only [Machine.execGeuComplete]
  split
  · exact .next h
  · split
    · exact .next h
    · refine .ite ?_ ?_
      · exact .next h
      · refine .ite ?_ ?_
        · exact .next (h.foldl (fun _ _ hs => hs.cutPost))
        · split
          · exact .next h.popGeu.endGeu.abortRuns
          · exact .next h.popGeu.postRun.endGeu

/-! #### Machine/Scan -/

theorem State.Canonical.scanPlaces {s : State} {n : Nat} (h : s.Canonical)
    {p : List Nat × State} (hp : s.scanPlaces n = p) : p.2.Canonical := by
  subst hp
  induction n generalizing s with
  | zero => exact h
  | succ n ih =>
    have h1 : (s.latePlace 8 32).2.Canonical := h.latePlace rfl
    unfold State.scanPlaces
    split <;> (rename_i hp; rw [hp] at h1; exact ih h1)

theorem State.Canonical.contribute {s : State} {rid region w h : Nat} {ch : Chan} {c : Contribution}
    (hc : s.Canonical) :
    (s.contribute rid region w h ch c).Canonical := by
  dsimp only [State.contribute]
  split
  · exact hc.keep
  · exact hc.keep

theorem State.Canonical.scanEffect {g : ScanArgs} {a b : Context → Vec} {m : MReg} {st s : State}
    (_ : st.Canonical) (h' : s.Canonical) :
    (scanEffect g a b m st s).Canonical := by
  dsimp only [Machine.scanEffect]
  split
  · exact h'.modHere (fun _ hx => hx.beginScan)
  · exact ((h'.modHere (fun _ hx => hx.beginScan)).scanPlaces rfl).modMe
  · exact ((h'.modHere (fun _ hx => hx.beginScan)).scanPlaces rfl).contribute

theorem State.Canonical.modScan {s : State} {id : Nat} {f : ScanOp → ScanOp} (h : s.Canonical) :
    (s.modScan id f).Canonical := h.keep

theorem State.Canonical.execScanOperationStart {oid : Nat} {s : State} (h : s.Canonical) :
    EndsCanonical (execScanOperationStart oid s) := by
  dsimp only [Machine.execScanOperationStart]
  split
  · exact .next h
  · exact .ite (.next h) (.next (.ite (h.modScan.keep.foldl (fun _ _ hs => hs.engineTrap)) h.modScan.keep))

theorem State.Canonical.pushSaved {s : State} {rid : Nat} {x : SavedCtx} {q : HReg} {bs : List Byte} {fl : Flags}
    (h : s.Canonical) :
    (s.pushSaved rid x q bs fl).Canonical := by
  dsimp only [State.pushSaved]
  split
  · exact h.modRecord
  · split
    · exact .ite h.modRecord.writeArea h.modRecord
    · exact h.modRecord

theorem State.Canonical.sendCarry {s : State} {o : ScanOp} (h : s.Canonical) :
    (s.sendCarry o).Canonical := by
  dsimp only [State.sendCarry]
  split
  · refine .ite ?_ ?_
    · split
      · exact h.modScan.keep
      · exact h.modScan
    · exact h
  · exact h

theorem State.Canonical.scanGiven {s : State} {o : ScanOp} {c : Contribution} {resident : Bool} (h : s.Canonical) :
    (s.scanGiven o c resident).Canonical := .ite (h.modScan.modTile (fun _ hx => hx.endScan)) h.modScan

theorem State.Canonical.scanInput {s : State} {x : Context} {o : ScanOp} {c : Contribution} {bs : List Byte}
    {fl : Flags} (h : s.Canonical) :
    (s.scanInput x o c bs fl).Canonical := by
  dsimp only [State.scanInput]
  split
  · exact (State.Canonical.ite h h.share).writeLog
  · exact .ite h h.share

theorem State.Canonical.execScanDelivery {oid : Nat} {t : TileId} {s0 : State} (h : s0.Canonical) :
    EndsCanonical (execScanDelivery oid t s0) := by
  dsimp only [Machine.execScanDelivery]
  split
  · exact .next h
  · split
    · exact .next h.sendCarry
    · split
      · exact .ite (.next h.sendCarry) (.next h.sendCarry.pushElem.engineFlags.scanInput.scanGiven)
      · split
        · exact .ite (.next h.sendCarry) (.next h.sendCarry.pushSaved.scanInput.scanGiven)
        · exact .next h.sendCarry.scanGiven

theorem State.Canonical.execCarryArrival {op : CarryFor} {carry : List Word} {s : State} (h : s.Canonical) :
    EndsCanonical (execCarryArrival op carry s) := by
  dsimp only [Machine.execCarryArrival]
  split
  · split
    · exact .next h.modScan
    · exact .next h
  · split
    · exact .next h
    · exact .next (.ite h h.keep)

/-! #### Machine/Retire -/

theorem Tile.Canonical.dropCommands {x : Tile} {uid gtc : Nat} (h : x.Canonical) :
    (x.dropCommands uid gtc).Canonical := h.keep

theorem Tile.Canonical.dropClaim {x : Tile} {uid : Nat} {clear : Bool} (h : x.Canonical) :
    (x.dropClaim uid clear).Canonical := .ite h.keep h.keep

theorem Tile.Canonical.dropWake {x : Tile} {uid : Nat} (h : x.Canonical) :
    (x.dropWake uid).Canonical := h.keep

theorem Tile.Canonical.freeSlot {x : Tile} {k : SlotNo} {b : Bank} (h : x.Canonical) : (x.freeSlot k b).Canonical :=
  .ite (.withScratch (Memory.wf_clearRange _ _ _ h.scratch)) h.setCtx

theorem State.Canonical.dropLoads {s : State} {uid : Nat} (h : s.Canonical) :
    (s.dropLoads uid).Canonical := h.keep

theorem State.Canonical.dropScans {s : State} {t uid : Nat} (h : s.Canonical) :
    (s.dropScans t uid).Canonical := h.foldl (fun _ _ hs => hs.foldl (fun _ _ hs => .ite (hs.modTile (fun _ hx =>
        hx.endScan)) hs))

theorem State.Canonical.leaveRecord {s : State} {c : Context} (h : s.Canonical) :
    (s.leaveRecord c).Canonical := h.modRecord

theorem State.Canonical.retire {s : State} {t : Nat} {k : SlotNo} {b : Bank} (h : s.Canonical) :
    (s.retire t k b).Canonical := h.leaveRecord.modTile (fun _ hx => hx.dropClaim.dropWake.freeSlot)

theorem State.Canonical.remove {s : State} {t : Nat} {k : SlotNo} {b : Bank} (h : s.Canonical) :
    (s.remove t k b).Canonical := h.leaveRecord.dropScans.dropLoads.modTile (fun _ hx =>
        hx.dropCommands.dropClaim.dropWake.freeSlot)

theorem State.Canonical.drainLandings {s : State} {t : Nat} {k : SlotNo} {b : Bank} (h : s.Canonical) :
    (s.drainLandings t k b).Canonical := h.foldl fun _ _ hs => by
      split
      · exact hs.postFault
      · split
        · exact hs.postFault
        · split
          · exact .ite hs.postFault hs
          · exact hs
          · exact hs
          · exact hs
          · exact hs
          · exact hs

theorem State.Canonical.execDrainComplete {t : TileId} {k : SlotNo} {s : State} (h : s.Canonical) :
    EndsCanonical (execDrainComplete t k s) := .ite (.next h.drainLandings.retire) (.ite (.next
        h.drainLandings.retire) (.next (h.foldl (fun _ _ hs => .ite hs.cutOf hs))))

/-! #### Machine/Replica -/

theorem State.Canonical.dropTongs {s : State} {id : Nat} (h : s.Canonical) :
    (s.dropTongs id).Canonical := h.keep

theorem State.Canonical.arriveVec {s : State} {t : Nat} {k : SlotNo} {uid tag : Nat} {x : Vec} (h : s.Canonical) :
    (s.arriveVec t k uid tag x).Canonical := h.modUid

theorem State.Canonical.tongsInto {s : State} {i : TongsItem} {c : Context} (h : s.Canonical) {u : State}
    (hu : s.tongsInto i c = some u) : u.Canonical := by
  have of_if : ∀ {c : Prop} [Decidable c] {v : State}, v.Canonical → (if c then some v else none) = some u →
      u.Canonical := fun hv hu => Option.some.inj (Option.ite_none_right_eq_some.1 hu).2 ▸ hv
  unfold State.tongsInto at hu
  dsimp only at hu
  split at hu
  · exact of_if h.arriveWord hu
  · exact of_if h.arriveVec hu
  · split at hu
    · exact of_if h.fillResv hu
    · split at hu
      · cases hu
      · obtain rfl := Option.some.inj hu
        exact h.pushElem.engineFlags.modTile fun _ hx => hx.endScan
  · split at hu
    · exact of_if h.modUid hu
    · cases hu
  · split at hu
    · cases hu
    · obtain rfl := Option.some.inj hu
      exact h.postEvent
  · obtain rfl := Option.some.inj hu
    exact h.modTile fun _ hx => hx.writeBytes.wake
  · exact h.followChunk hu

theorem State.Canonical.execTongsDelivery {id : Nat} {s : State} (h : s.Canonical) :
    EndsCanonical (execTongsDelivery id s) := by
  dsimp only [Machine.execTongsDelivery]
  split
  · exact .next h
  · split
    · exact .next (.ite h h.dropTongs)
    · refine .ite ?_ ?_
      · exact .next h
      · split
        · rename_i heq1
          exact .next ((h.tongsInto heq1).dropTongs)
        · exact .next h

theorem State.Canonical.commitFlight {s : State} {t : TileId} {k : SlotNo} {c : Context} {h : HeldWrite}
    {space : Space} {us : List AccessUnit} {o : OrderClass} {sink : Sink} {n : Nat} {tval : Word} {lat : Nat}
    (hc : s.Canonical) :
    (s.commitFlight t k c h space us o sink n tval lat).Canonical := .ite hc hc.addFlight

/-- Performing a held record leaves canonical memories. -/
def Commit.Canonical : Commit → Prop
  | .done s | .trap s _ => s.Canonical
  | .wait _ _ => True

theorem Commit.Canonical.ite {c : Prop} [Decidable c] {x y : Commit} (hx : x.Canonical) (hy : y.Canonical) :
    (if c then x else y).Canonical := by
  split <;> assumption

theorem State.Canonical.commitParts {s : State} {t : TileId} {k : SlotNo} {c : Context} {h : HeldWrite} {g : Target}
    {parts : List Part} {perm : BitVec 4} {exact_ : Bool} {op : Part → UnitOp} {o : OrderClass} {sink : Sink} {n :
        Nat}
    (hs : s.Canonical) : (s.commitParts t k c h g parts perm exact_ op o sink n).Canonical := by
  refine .ite hs.keep (.ite trivial (.ite hs (.ite hs (.ite hs (State.Canonical.commitFlight ?_)))))
  cases g with
  | tensor => exact hs.countRequests
  | cap => exact hs
  | host => exact hs

theorem State.Canonical.commitExact {s : State} {t : TileId} {k : SlotNo} {c : Context} {h : HeldWrite}
    {a coords : Word}
    {kind : DKind} {fmts : List Nat} {op : Nat → Bool → UnitOp} {nib : Word} {sink : Nat → Bool → Sink}
    (hs : s.Canonical) : (s.commitExact t k c h a coords kind fmts op nib sink).Canonical := by
  unfold State.commitExact
  extract_lets g
  split
  · exact hs
  · refine .ite hs ?_
    split
    · exact hs
    · exact hs.commitParts

theorem State.Canonical.commitRecord {s : State} {t : TileId} {k : SlotNo} {c : Context} {h : HeldWrite}
    (hs : s.Canonical) : (s.commitRecord t k c h).Canonical := by
  unfold State.commitRecord
  extract_lets addr
  split
  · exact hs.multicastAs
  · exact hs.commitFlight
  · split
    · exact hs
    · exact hs.commitParts
  · exact hs.commitParts
  · exact hs.commitParts
  · exact .ite hs.commitFlight hs.commitExact
  · exact hs.commitExact
  · exact hs.commitExact
  · exact hs

theorem State.Canonical.commitRecords {s : State} {t : TileId} {k : SlotNo} {uid : Nat} {hs : List HeldWrite}
    (h : s.Canonical) {p : State × List (HeldWrite × Trap) × Option (List Need × Word)}
    (hp : s.commitRecords t k uid hs = p) : p.1.Canonical := by
  subst hp
  induction hs generalizing s with
  | nil => exact h
  | cons x xs ih =>
    unfold State.commitRecords
    split
    · exact h
    · rename_i c _
      have h1 : (s.commitRecord t k c x).Canonical := h.commitRecord
      split <;> (rename_i hx; rw [hx] at h1)
      · exact h
      · exact ih h1
      · exact ih h1

theorem State.Canonical.modMember {s : State} {m : Member} {f : Context → Context} (h : s.Canonical) :
    (s.modMember m f).Canonical := h.modUid

theorem State.Canonical.modGroup {s : State} {id : Nat} {f : Group → Group} (h : s.Canonical) :
    (s.modGroup id f).Canonical := h.keep

theorem State.Canonical.execVoteStart {gid : Nat} {s : State} (h : s.Canonical) :
    EndsCanonical (execVoteStart gid s) := by
  dsimp only [Machine.execVoteStart]
  split
  · exact .next h
  · exact .ite (.next h.modGroup) (.next h)

theorem State.Canonical.haltGroup {s : State} {g : Group} (h : s.Canonical) :
    (s.haltGroup g).Canonical := (h.foldl (fun _ _ hs => hs.modMember.haltMismatch)).modGroup

theorem State.Canonical.inheritInputs {s : State} {old new : Member} (h : s.Canonical) :
    (s.inheritInputs old new).Canonical := by
  dsimp only [State.inheritInputs]
  split
  · exact h
  · exact h.modMember.keep

theorem State.Canonical.fence {s : State} {g : Group} {m : Member} (h : s.Canonical) :
    (s.fence g m).Canonical := by
  dsimp only [State.fence]
  refine State.Canonical.modGroup ?_
  split
  · refine State.Canonical.remove ?_
    split
    · exact .ite h.inheritInputs h
    · exact h
  · split
    · exact .ite h.inheritInputs h
    · exact h

theorem State.Canonical.afterCommit {s : State} {lead : Member} {cut : Cut} {committed : Nat} (h : s.Canonical) :
    (s.afterCommit lead cut committed).Canonical := by
  dsimp only [State.afterCommit]
  split
  · exact h.arriveWord
  · split
    · exact h.arriveBarrier
    · exact h
  · exact h
  · exact h
  · exact h
  · exact h
  · exact h
  · exact h

theorem State.Canonical.dropHeld {s : State} {g : Group} {lead : Member} {h : HeldWrite} (hc : s.Canonical) :
    (s.dropHeld g lead h).Canonical := .ite (hc.foldl (fun _ _ hs => hs.dropLanding)) hc

theorem State.Canonical.commitVote {s : State} {g : Group} {lead : Member} (h : s.Canonical) {u : State}
    (hu : s.commitVote g lead = some u) : u.Canonical := by
  unfold State.commitVote at hu
  split at hu
  · dsimp only at hu
    split at hu
    · cases hu
    · rename_i traps hp
      obtain rfl := Option.some.inj hu
      refine State.Canonical.afterCommit ?_
      cases traps with
      | nil => exact (h.commitRecords hp).foldl fun _ _ hs => hs.modMember
      | cons x xs =>
        refine State.Canonical.engineTrap (.foldl (.foldl (h.commitRecords hp) ?_) ?_)
        · exact fun _ _ hs => hs.modMember
        · exact fun _ _ hs => hs.dropHeld
  · exact Option.some.inj hu ▸ h

theorem State.Canonical.commitWaits {s : State} {g : Group} {lead : Member} (h : s.Canonical) :
    (s.commitWaits g lead).Canonical := by
  dsimp only [State.commitWaits]
  split
  · split
    · rename_i heq1
      exact .ite h.modGroup h.modGroup.keep
    · rename_i heq2
      exact h
  · exact h

theorem State.Canonical.raiseMinority {s : State} {gid : Nat} {fenced : BitVec 2} {lost : Bool} (h : s.Canonical) :
    (s.raiseMinority gid fenced lost).Canonical := by
  dsimp only [State.raiseMinority]
  split
  · exact h
  · split
    · exact h
    · split
      · exact h
      · exact (State.Canonical.ite h h.modGroup).postEvent.postFault

theorem State.Canonical.execVoteResult {gid : Nat} {s : State} (h : s.Canonical) :
    EndsCanonical (execVoteResult gid s) := by
  dsimp only [Machine.execVoteResult]
  split
  · exact .next h
  · split
    · exact .next h
    · refine .ite ?_ ?_
      · exact .next h
      · split
        · exact .next h.haltGroup
        · split
          · exact .next h
          · split
            · rename_i heq1
              exact .next ((h.commitVote heq1).modGroup)
            · exact .next h.commitWaits
        · split
          · exact .next h
          · split
            · rename_i heq2
              exact .next ((h.fence.commitVote heq2).modGroup.raiseMinority)
            · exact .next h.commitWaits

theorem State.Canonical.haltOn {s : State} {t : Nat} {k : SlotNo} {uid v : Nat} (h : s.Canonical) :
    (s.haltOn t k uid v).Canonical := by
  dsimp only [State.haltOn]
  split
  · exact h
  · exact h.modUid.postFault

theorem State.Canonical.loseDie {s : State} {t : Nat} {k : SlotNo} {b : Bank} {v : Nat} (h : s.Canonical) :
    (s.loseDie t k b v).Canonical := by
  dsimp only [State.loseDie]
  refine .ite ?_ ?_
  · split
    · exact .ite (h.foldl (fun _ _ hs => hs.haltOn)) (.ite h.modGroup.haltOn h.modGroup.postEvent.postFault)
    · exact .ite h.haltOn h.postEvent.postFault
  · exact h

theorem State.Canonical.dropGrammar {s : State} {d : BitVec 5} (h : s.Canonical) : (s.dropGrammar d).Canonical :=
  h.mapTiles fun _ hx => hx.keep

theorem State.Canonical.execDieLoss {d : BitVec 5} {s : State} (h : s.Canonical) : EndsCanonical (execDieLoss d s) :=
  .next (h.dropGrammar.keep.foldl fun _ _ hs => hs.foldl fun _ _ hs => hs.foldl fun _ _ hs => hs.foldl fun _ _ hs =>
    hs.loseDie)

/-! #### Machine/Arrival -/

theorem State.Canonical.grantPort {s : State} {x' : Home} (h : s.Canonical) :
    (s.grantPort x').Canonical := by
  dsimp only [State.grantPort]
  split
  · exact h.grant
  · exact h
  · exact h
  · exact h
  · exact h
  · exact h

theorem State.Canonical.refuseWrite {s : State} {t : TileId} {fid : Nat} {status : BitVec 8} {tr : XCmd → Trap}
    (h : s.Canonical) : (s.refuseWrite t fid status tr).Canonical := by
  dsimp only [State.refuseWrite]
  refine (State.Canonical.foldl h fun st ch hs => ?_).modTile (fun _ hx => hx.keep)
  split
  · exact .ite hs.endCommand hs
  · exact hs

theorem State.Canonical.raiseUnheard {s : State} {f : Flight} {i : Nat} {u : AccessUnit} (h : s.Canonical) :
    (s.raiseUnheard f i u).Canonical := by
  dsimp only [State.raiseUnheard]
  split
  · exact h
  · refine .ite ?_ ?_
    · exact h
    · split
      · exact h.engineTrap
      · exact .ite h.refuseWrite h.engineTrap
      · exact h

theorem State.Canonical.performCore {s : State} {f : Flight} (h : s.Canonical) : EndsCanonical (s.performCore f) := by
  have hall : ∀ {o : Host.Outcome State Fault Refusal} (js : List Nat), EndsCanonical o →
      EndsCanonical (js.foldl (fun (acc : Host.Outcome State Fault Refusal) j =>
        match acc with
        | .next st => st.performUnit f.id j 0
        | .fault e => .fault e
        | .refused r => .refused r) o) := by
    intro o js ho
    induction js generalizing o with
    | nil => exact ho
    | cons j js ih =>
      refine ih ?_
      cases o with
      | next st => exact State.Canonical.performUnit ho
      | fault e => exact .fault
      | refused r => exact .refused
  unfold State.performCore
  dsimp only
  split
  · rename_i s1 hs1
    have h1 : s1.Canonical := (hall _ (.next h)).of_next hs1
    exact .ite (.next (h1.modTile fun _ hx => hx.wakeBy)) (.next h1)
  · exact .fault
  · exact .refused

theorem State.Canonical.performHome {s : State} {f : Flight} {i : Nat} {u : AccessUnit} {ext : BitVec 640}
    (h : s.Canonical) : EndsCanonical (s.performHome f i u ext) := by
  have hp : EndsCanonical (if f.space = .s then s.performCore f else (s.grantPort u.home).performUnit f.id i ext) :=
    .ite h.performCore h.grantPort.performUnit
  unfold State.performHome
  split
  · rename_i s1 hs1
    have h1 : s1.Canonical := hp.of_next hs1
    exact .next (.ite h1.raiseUnheard h1)
  · exact .fault
  · exact .refused

theorem State.Canonical.execHomePortAccess {fid unit : Nat} {ext : BitVec 640} {s : State} (h : s.Canonical) :
    EndsCanonical (execHomePortAccess fid unit ext s) := by
  dsimp only [Machine.execHomePortAccess]
  split
  · exact h.performHome
  · exact .next h

theorem State.Canonical.execIncomingNWrite {fid unit : Nat} {s : State} (h : s.Canonical) :
    EndsCanonical (execIncomingNWrite fid unit s) := by
  dsimp only [Machine.execIncomingNWrite]
  split
  · exact h.performHome
  · exact .next h

theorem State.Canonical.dropFlight {s : State} {id : Nat} (h : s.Canonical) :
    (s.dropFlight id).Canonical := h.keep

theorem State.Canonical.replyElsewhere {s : State} {t : Nat} {k : SlotNo} {uid tag : Nat} {addr : Word}
    (h : s.Canonical) :
    (s.replyElsewhere t k uid tag addr).Canonical := by
  dsimp only [State.replyElsewhere]
  split
  · exact (h.freeWord rfl).arriveWord
  · exact .ite (((h.freeWord rfl).freeWord rfl).arriveWord) ((h.freeWord rfl).arriveWord)

theorem State.Canonical.arriveCore {s : State} {t : Nat} {k : SlotNo} {uid : Nat} {f : Flight} {d : CoreDest}
    (h : s.Canonical) :
    (s.arriveCore t k uid f d).Canonical := h.modUid

theorem State.Canonical.execLateValueArrival {fid : Nat} {s : State} (h : s.Canonical) :
    EndsCanonical (execLateValueArrival fid s) := by
  dsimp only [Machine.execLateValueArrival]
  split
  · split
    · exact .ite (.next h) (.next h.noteSeen.arriveWord.dropFlight)
    · exact .ite (.next h) (.next h.noteSeen.arriveCore.dropFlight)
    · exact .next h
  · split
    · exact .ite (.next h.replyElsewhere) (.next h)
    · exact .next h

theorem State.Canonical.execQueueElementDelivery {fid : Nat} {s : State} (h : s.Canonical) :
    EndsCanonical (execQueueElementDelivery fid s) := by
  dsimp only [Machine.execQueueElementDelivery]
  split
  · split
    · exact .ite (.next h) (.next h.noteSeen.arriveElem.dropFlight)
    · exact .next h
  · exact .next h

theorem State.Canonical.landAt {s : State} {m : Mcast} {t : Nat} (h : s.Canonical) : (s.landAt m t).Canonical :=
  .ite h (h.modTile (fun _ hx => hx.writeBytes.wake)).mark.shareBytes

theorem State.Canonical.mcastLost {s : State} {m : Mcast} {ts : List Nat} (h : s.Canonical) :
    (s.mcastLost m ts).Canonical := by
  dsimp only [State.mcastLost]
  split
  · exact h.engineTrap
  · exact h

theorem State.Canonical.execMulticastLanding {mid : Nat} {s : State} (h : s.Canonical) :
    EndsCanonical (execMulticastLanding mid s) := by
  dsimp only [Machine.execMulticastLanding]
  split
  · exact .next h
  · exact .ite (.next h) (.next ((h.keep.foldl (fun _ _ hs => hs.landAt)).mcastLost))

theorem State.Canonical.execCounterWatchAnswer {wid : Nat} {ext : Word} {s : State} (h : s.Canonical) :
    EndsCanonical (execCounterWatchAnswer wid ext s) := by
  dsimp only [Machine.execCounterWatchAnswer]
  split
  · exact .next h
  · split
    · exact .next h.keep
    · refine .ite ?_ ?_
      · split
        · exact .next h.setCtx.keep.engineTrap
        · exact .next h.setCtx.keep
        · exact .next h
      · exact .next h.keep

theorem State.Canonical.remoteEvent {s : State} {t : TileId} {k : SlotNo} {uid : Nat} {asid : BitVec 12}
    {tval : Word} (h : s.Canonical) :
    (s.remoteEvent t k uid asid tval).Canonical := h.postFault

theorem State.Canonical.dropShared {s : State} {c : Context} {q : Option HReg} {key : Nat} (h : s.Canonical) :
    (s.dropShared c q key).Canonical := h.foldl fun _ _ hs => by
      split
      · exact hs.dropResv
      · exact hs.dropLanding

theorem State.Canonical.refuseCtx {s : State} {f : Flight} {t : TileId} {k : SlotNo} {uid : Nat} (h : s.Canonical) :
    (s.refuseCtx f t k uid).Canonical := by
  dsimp only [State.refuseCtx]
  refine State.Canonical.engineTrap ?_
  refine State.Canonical.dropFlight ?_
  split
  · exact h.dropShared.dropLanding
  · exact h.dropShared.dropResv
  · exact h
  · exact h
  · exact h

theorem State.Canonical.refuseFlight {s : State} {f : Flight} (h : s.Canonical) :
    (s.refuseFlight f).Canonical := by
  dsimp only [State.refuseFlight]
  split
  · exact h.refuseCtx.remoteEvent
  · exact h.refuseWrite.dropFlight.remoteEvent
  · exact h.dropFlight

theorem State.Canonical.refuseWatch {s : State} {w : Watch} (h : s.Canonical) :
    (s.refuseWatch w).Canonical := by
  dsimp only [State.refuseWatch]
  refine State.Canonical.remoteEvent ?_
  refine State.Canonical.engineTrap ?_
  split
  · exact h.keep.modCtx
  · exact h.keep

theorem State.Canonical.refuseRead {s : State} {t : TileId} {ch : Chan} {r : XRun} (h : s.Canonical) :
    (s.refuseRead t ch r).Canonical := h.stopCommand.remoteEvent

theorem State.Canonical.execRemoteRefusal {fid : Nat} {s : State} (h : s.Canonical) :
    EndsCanonical (execRemoteRefusal fid s) := by
  dsimp only [Machine.execRemoteRefusal]
  split
  · exact .next (.ite h.refuseFlight h)
  · split
    · exact .next (.ite h.refuseWatch h)
    · split
      · exact .next h.refuseRead
      · exact .next h

/-! #### Machine/Service -/

theorem State.Canonical.modFault {s : State} {id : Nat} {g : FaultRec → FaultRec} (h : s.Canonical) :
    (s.modFault id g).Canonical := h.modMmp

theorem State.Canonical.refusalEvent {s : State} {f : FaultRec} {reason : BitVec 8} (h : s.Canonical) :
    (s.refusalEvent f reason).Canonical := h.postFault

theorem State.Canonical.execWalkerAnswer {id : Nat} {s : State} (h : s.Canonical) :
    EndsCanonical (execWalkerAnswer id s) := by
  dsimp only [Machine.execWalkerAnswer]
  split
  · exact .next h
  · refine .ite ?_ ?_
    · exact .next h
    · split
      · exact .next h.modFault
      · refine .ite ?_ ?_
        · apply EndsCanonical.next
          refine State.Canonical.modFault ?_
          split
          · exact h.foldl (fun _ _ hs => hs.fillNeed)
          · exact h
          · exact h
          · exact h
        · exact .next h.modFault

theorem State.Canonical.answerServed {s : State} {asid : BitVec 12} (h : s.Canonical) :
    (s.answerServed asid).Canonical := h.keep

theorem State.Canonical.refuseNeed {s : State} {asid : BitVec 12} {n : Need} {reason : BitVec 8} (h : s.Canonical) :
    (s.refuseNeed asid n reason).Canonical := h.keep.foldl (fun _ _ hs => hs.refusalEvent)

theorem State.Canonical.askPin {s : State} {asid : BitVec 12} {n : Need} {addr : Word} {pages : Nat}
    (h : s.Canonical) :
    (s.askPin asid n addr pages).Canonical := by
  dsimp only [State.askPin]
  split
  · exact h.keep
  · exact h.keep.keep

theorem State.Canonical.execFaultService {id frame : Nat} {s : State} (h : s.Canonical) :
    EndsCanonical (execFaultService id frame s) := by
  dsimp only [Machine.execFaultService]
  split
  · exact .next h
  · split
    · rename_i heq1
      exact .next ((h.serveNeeds heq1).answerServed)
    · rename_i heq2
      exact .next ((h.serveNeeds heq2).refuseNeed)
    · rename_i heq3
      exact .next ((h.serveNeeds heq3).askPin)
    · rename_i heq4
      exact .next (.ite h h.startEviction)
    · rename_i heq5
      exact .next h

theorem State.Canonical.answerSaved {s : State} {uid : Nat} {a : Option AnswerKind} (h : s.Canonical) :
    (s.answerSaved uid a).Canonical := h.keep

theorem State.Canonical.execFaultAnswer {id : Nat} {s : State} (h : s.Canonical) :
    EndsCanonical (execFaultAnswer id s) := by
  dsimp only [Machine.execFaultAnswer]
  split
  · exact .next h
  · split
    · split
      · exact .next h.dropFault.answerSaved
      · exact .next ((State.Canonical.ite (h.dropFault.foldl (fun _ _ hs => hs.fillNeed)) h.dropFault).modCtx)
    · exact .next (.ite h.dropFault h)
    · exact .next (.ite h.dropFault h)
    · exact .next h

theorem State.Canonical.execShootdownAck {sid agent : Nat} {s : State} (h : s.Canonical) :
    EndsCanonical (execShootdownAck sid agent s) := by
  dsimp only [Machine.execShootdownAck]
  split
  · exact .next h
  · refine .ite ?_ ?_
    · apply EndsCanonical.next
      refine State.Canonical.modMmp ?_
      split
      · exact h
      · exact h.modTile (fun _ hx => hx.invalidate)
    · exact .next h

theorem State.Canonical.moveMarks {s : State} {lo : Nat} {target : Nat → Home} (h : s.Canonical) :
    (s.moveMarks lo target).Canonical := h.keep

theorem State.Canonical.finishShoot {s : State} {sd : Shootdown} (h : s.Canonical) : (s.finishShoot sd).Canonical
    := by
  dsimp only [State.finishShoot]
  split
  · split
    · exact .ite h.freeEntryFrame h
    · exact h.freePage
    · exact h
  · split
    · exact h.writeHbmWord
    · rename_i pg s1 hs1
      have h1 : s1.Canonical := h.takePage hs1
      exact (h1.withLpddr (Memory.wf_copyRange _ _ _ _ _ (Memory.wf_clearRange _ _ _
        h1.lpddr))).moveMarks.freeEntryFrame.writeHbmWord.modAsid
  · split
    · exact h.writeHbmWord
    · rename_i f s1 hs1
      have h1 : s1.Canonical := h.takeFrame hs1
      exact (h1.withHbm (Memory.wf_copyRange _ _ _ _ _ (Memory.wf_clearRange _ _ _
        h1.hbm))).moveMarks.freeEntryFrame.writeHbmWord
  · exact h.setWindows

theorem State.Canonical.dropHint {s : State} {k : EntryKey} (h : s.Canonical) :
    (s.dropHint k).Canonical := by
  dsimp only [State.dropHint]
  split
  · exact h.modMmp
  · exact h
  · exact h

theorem State.Canonical.modPlatform {s : State} {f : Platform → Platform} (h : s.Canonical) :
    (s.modPlatform f).Canonical := h.keep

theorem State.Canonical.reply {s : State} {seq : BitVec 16} {status : BitVec 8} {ws : List Word} (h : s.Canonical) :
    (s.reply seq status ws).Canonical := h.keep

theorem State.Canonical.freeTable {s : State} {addr n : Nat} (h : s.Canonical) :
    (s.freeTable addr n).Canonical := h.foldl (fun _ _ hs => hs.freeFrame)

theorem State.Canonical.replyShot {s : State} {seq : Option (BitVec 16)} (h : s.Canonical) :
    (s.replyShot seq).Canonical := by
  dsimp only [State.replyShot]
  split
  · exact h
  · exact .ite ((h.foldl (fun _ _ hs => hs.freeTable)).modMmp.reply) h

theorem State.Canonical.execShootdownComplete {sid : Nat} {s : State} (h : s.Canonical) :
    EndsCanonical (execShootdownComplete sid s) := by
  dsimp only [Machine.execShootdownComplete]
  split
  · exact .next h
  · exact .ite (.next h.finishShoot.dropHint.modMmp.replyShot) (.next h)

theorem State.Canonical.execMigrationScan {s : State} (h : s.Canonical) :
    EndsCanonical (execMigrationScan s) := .ite (.next h) (.next (h.modMmp.foldl fun _ _ hs => by
      split
      · exact .ite hs.shootEntry hs
      · exact hs))

/-! #### Machine/Mailbox -/

theorem State.Canonical.takeRequest {s : State} (h : s.Canonical) :
    (s.takeRequest).Canonical := by
  dsimp only [State.takeRequest]
  split
  · exact h.modPlatform
  · exact h
  · exact h

theorem State.Canonical.command {s0 : State} {seq : BitVec 16} {act : State → State} (h : s0.Canonical)
    (ha : ∀ s, s.Canonical → (act s).Canonical) : (s0.command seq act).Canonical :=
  .ite h.takeRequest.reply (.ite h.takeRequest.reply (ha _ h.takeRequest))

theorem State.Canonical.badArgument {s : State} {seq : BitVec 16} (h : s.Canonical) :
    (s.badArgument seq).Canonical := h.reply

theorem State.Canonical.ringDoorbell {s : State} (h : s.Canonical) :
    (s.ringDoorbell).Canonical := by
  dsimp only [State.ringDoorbell]
  split
  · exact h.reply
  · exact h.modPlatform
  · exact h.command (fun _ hs => hs.badArgument)

theorem State.Canonical.execAsidCreate {seq : BitVec 16} {nomig : Bool} {n : BitVec 32} {s : State}
    (h : s.Canonical) :
    EndsCanonical (execAsidCreate seq nomig n s) := by
  refine .next (h.command fun s hs => ?_)
  dsimp only
  split
  · exact hs.reply
  · split
    · exact hs.reply
    · rename_i s1 h1
      split
      · exact hs.reply
      · rename_i s3 h3
        obtain ⟨p2, h2, h3⟩ := Option.bind_eq_some_iff.1 h3
        obtain ⟨p3, h4, he⟩ := Option.map_eq_some_iff.1 h3
        obtain ⟨-, -, rfl⟩ := he
        exact (((hs.takeFrames h1).takeFrames h2).takeFrames h4).modMmp.reply

theorem State.Canonical.execAsidRetire {seq : BitVec 16} {asid : BitVec 12} {s : State} (h : s.Canonical) :
    EndsCanonical (execAsidRetire seq asid s) := .next (h.command fun _ hs => by
      split
      · exact hs.badArgument
      · exact hs.modAsid.reply)

theorem State.Canonical.freeTables {s : State} {e : AsidEntry} (h : s.Canonical) : (s.freeTables e).Canonical := by
  refine State.Canonical.freeTable (.freeTable (.freeTable (.freeTable (.foldl (.foldl (.foldl h ?_) ?_) ?_))))
  · exact fun _ v hs => hs.freePage
  · intro st d hs
    split
    · exact hs.freeTable
    · exact hs
  · exact fun _ i hs => .ite hs.freeFrame hs

theorem State.Canonical.forgetAsid {s : State} {asid : BitVec 12} (h : s.Canonical) : (s.forgetAsid asid).Canonical :=
  h.mapTiles fun _ hx => hx.keep

theorem State.Canonical.execAsidRetireComplete {asid : BitVec 12} {s : State} (h : s.Canonical) :
    EndsCanonical (execAsidRetireComplete asid s) := by
  dsimp only [Machine.execAsidRetireComplete]
  split
  · exact .next h
  · exact .ite (.next h) (.ite (.next h.freeTables.forgetAsid.modMmp) (.next (((h.foldl (fun _ _ hs =>
      hs.shootEntry)).foldl (fun _ _ hs => hs.shootPage)).foldl (fun _ _ hs => hs.shootWindow))))

theorem State.Canonical.growDescs {s : State} {e : AsidEntry} {id : Nat} (h : s.Canonical) {u : State}
    (hu : s.growDescs e id = some u) : u.Canonical := by
  dsimp only [State.growDescs] at hu
  split at hu
  · exact Option.some.inj hu ▸ h
  · split at hu
    · cases hu
    · rename_i f s1 hs1
      obtain rfl := Option.some.inj hu
      have h1 : s1.Canonical := h.takeFrames hs1
      exact (h1.withHbm (Memory.wf_copyRange _ _ _ _ _ h1.hbm)).freeTable.modAsid

theorem State.Canonical.writeDesc {s : State} {asid : BitVec 12} {id : Nat} {w : Vector Word 8} (h : s.Canonical) :
    (s.writeDesc asid id w).Canonical := by
  dsimp only [State.writeDesc]
  split
  · exact h
  · exact h.foldl (fun _ _ hs => hs.writeHbmWord)

theorem State.Canonical.newTileTable {s : State} {n : Nat} {place stack : BitVec 2} {perm : BitVec 4}
    (h : s.Canonical) {p : Nat × State}
    (hp : s.newTileTable n place stack perm = some p) : p.2.Canonical := by
  obtain ⟨⟨f, s1⟩, hs1, rfl⟩ := Option.map_eq_some_iff.1 hp
  exact (h.takeFrames hs1).foldl (fun _ _ hs => hs.writeHbmWord)

theorem State.Canonical.execTensorDefine {seq : BitVec 16} {asid : BitVec 12} {id : BitVec 20} {desc : Vector Word 8}
    {place stack : BitVec 2} {perm : BitVec 4} {base : Option (BitVec 20)} {s : State} (h : s.Canonical) :
    EndsCanonical (execTensorDefine seq asid id desc place stack perm base s) := by
  refine .next (h.command fun s hs => ?_)
  dsimp only
  split
  · exact hs.badArgument
  · refine .ite hs.badArgument ?_
    split
    · split
      · exact hs.badArgument
      · refine .ite hs.reply ?_
        split
        · exact hs.reply
        · rename_i hg
          exact (hs.growDescs hg).writeDesc.modAsid.reply
    · refine .ite hs.reply ?_
      split
      · exact hs.reply
      · rename_i hg
        split
        · exact hs.reply
        · rename_i hn
          exact ((hs.growDescs hg).newTileTable hn).writeDesc.modAsid.reply

theorem State.Canonical.clearDescs {s : State} {asid : BitVec 12} {ids : List Nat} (h : s.Canonical) :
    (s.clearDescs asid ids).Canonical := by
  refine (State.Canonical.foldl h fun st i hs => ?_).mapTiles fun _ hx => hx.keep
  split
  · exact hs.writeDesc
  · exact hs

theorem State.Canonical.shootTensor {s : State} {asid : BitVec 12} {d : Desc} {seq : BitVec 16} (h : s.Canonical) :
    (s.shootTensor asid d seq).Canonical := by
  dsimp only [State.shootTensor]
  split
  · exact h.modMmp.foldl (fun _ _ hs => .ite hs.shootEntry hs)
  · exact ((h.modMmp.foldl (fun _ _ hs => .ite hs.shootEntry hs)).foldl (fun _ _ hs => hs.freePage)).modAsid

theorem State.Canonical.execTensorFree {seq : BitVec 16} {asid : BitVec 12} {id : BitVec 20} {s : State}
    (h : s.Canonical) :
    EndsCanonical (execTensorFree seq asid id s) := .next (h.command fun _ hs => by
      split
      · split
        · exact hs.badArgument
        · exact .ite hs.clearDescs.modAsid.reply hs.shootTensor.clearDescs.modAsid.modMmp.replyShot
      · exact hs.badArgument)

theorem State.Canonical.execCmap {seq : BitVec 16} {asid : BitVec 12} {addr len : Word} {s : State}
    (h : s.Canonical) :
    EndsCanonical (execCmap seq asid addr len s) := .next (h.command fun _ hs => by
      split
      · exact hs.badArgument
      · exact .ite hs.badArgument hs.modAsid.reply)

theorem State.Canonical.execHwinAdd {seq : BitVec 16} {asid : BitVec 12} {hva : Word} {pages : BitVec 32}
    {perm : BitVec 4} {s : State} (h : s.Canonical) :
    EndsCanonical (execHwinAdd seq asid hva pages perm s) := .next (h.command fun _ hs => by
      split
      · exact hs.badArgument
      · exact .ite hs.badArgument (.ite hs.reply hs.setWindows.reply))

theorem State.Canonical.execHwinRemove {seq : BitVec 16} {asid : BitVec 12} {hva : Word} {s : State}
    (h : s.Canonical) :
    EndsCanonical (execHwinRemove seq asid hva s) := .next (h.command fun _ hs => by
      split
      · exact hs.badArgument
      · exact .ite hs.shootWindow.modMmp hs.badArgument)

theorem State.Canonical.writePin {s : State} {p : PinReq} {bus : Word} (h : s.Canonical) :
    (s.writePin p bus).Canonical := by
  dsimp only [State.writePin]
  split
  · exact h.setWindows
  · split
    · exact h.writeHbmWord
    · exact h
  · split
    · exact h.writeHbmWord
    · exact h
  · exact h
  · exact h

theorem State.Canonical.unpinWaiters {s : State} {req : Nat} (h : s.Canonical) :
    (s.unpinWaiters req).Canonical := h.keep

theorem State.Canonical.execPinAnswer {seq : BitVec 16} {req : Nat} {bus : Option Word} {s : State}
    (h : s.Canonical) :
    EndsCanonical (execPinAnswer seq req bus s) := .next (h.command fun _ hs => by
      split
      · exact hs.badArgument
      · refine State.Canonical.reply ?_
        split
        · exact hs.modMmp.unpinWaiters.writePin.answerServed
        · exact hs.modMmp.unpinWaiters.refuseNeed)

theorem State.Canonical.execStatus {seq : BitVec 16} {s0 : State} (h : s0.Canonical) :
    EndsCanonical (execStatus seq s0) := .next (.ite h.takeRequest.reply h.takeRequest.reply)

theorem State.Canonical.freeWords {s : State} {n : Nat} (h : s.Canonical)
    {p : List Word × State} (hp : s.freeWords n = p) : p.2.Canonical := by
  subst hp
  induction n generalizing s with
  | zero => exact h
  | succ n ih => exact ih (h.freeWord rfl)

theorem State.Canonical.execLogRead {seq : BitVec 16} {_offset : Nat} {s0 : State} (h : s0.Canonical) :
    EndsCanonical (execLogRead seq _offset s0) := .ite (.next h.takeRequest.reply) (.next
        (((h.takeRequest.freeWord rfl).freeWords rfl).reply))

/-! #### Machine/Launch -/

theorem State.Canonical.modQueue {s : State} {q : BitVec 3} {f : LaunchQueue → LaunchQueue} (h : s.Canonical) :
    (s.modQueue q f).Canonical := h.setQueueOf

theorem State.Canonical.execLaunchQueueProdWrite {q : BitVec 3} {v : Word} {records : List (List Word)}
    {s : State} (h : s.Canonical) :
    EndsCanonical (execLaunchQueueProdWrite q v records s) := .next (.ite h (.ite h.modQueue h.modQueue))

theorem State.Canonical.execLaunchQueueErrClear {q : BitVec 3} {v : Word} {s : State} (h : s.Canonical) :
    EndsCanonical (execLaunchQueueErrClear q v s) := .next (.ite h.modQueue h)

theorem State.Canonical.pool {s : State} {ws : List Word} {launcher : Nat} {source : Nat × Nat} {after : List Nat}
    (h : s.Canonical) {p : State × Word} (hp : s.pool ws launcher source after = p) : p.1.Canonical := by
  subst hp
  exact h.keep

theorem State.Canonical.launchEvent {s : State} {asid : BitVec 12} {reason : Nat} (h : s.Canonical) :
    (s.launchEvent asid reason).Canonical := h.postOpen

theorem State.Canonical.landHandle {s : State} {tag : Nat} {h : Word} {reason : Nat} (hc : s.Canonical) :
    (s.landHandle tag h reason).Canonical := by
  dsimp only [State.landHandle]
  split
  · exact hc
  · exact .ite hc.arriveWord hc.arriveWord

theorem State.Canonical.accept {s : State} {ws : List Word} {tag : Nat} {source : Nat × Nat} (h : s.Canonical) :
    (s.accept ws tag source).Canonical := .ite h.keep (.ite h.landHandle.launchEvent ((h.pool rfl).landHandle))

theorem State.Canonical.execRecordAcceptance {q : BitVec 3} {s : State} (h : s.Canonical) :
    EndsCanonical (execRecordAcceptance q s) := .ite (.next h) (.ite (.next h.setQueueOf.keep) (.next
        h.setQueueOf.keep.accept))

theorem State.Canonical.dropRelay {s : State} {ws : List Word} {src : Origin} (h : s.Canonical) :
    (s.dropRelay ws src).Canonical := h.keep

theorem State.Canonical.sendRelay {s : State} {ws : List Word} {src : Origin} (h : s.Canonical) :
    (s.sendRelay ws src).Canonical := by
  dsimp only [State.sendRelay]
  split
  · exact .ite h.dropRelay.keep h
  · exact h

theorem State.Canonical.tellLauncher {s : State} {src : Origin} {h : Word} {reason : Nat} (hc : s.Canonical) :
    (s.tellLauncher src h reason).Canonical := .ite hc hc.keep

theorem State.Canonical.execForwardedRecord {words : List Word} {src : Origin} {s : State} (h : s.Canonical) :
    EndsCanonical (execForwardedRecord words src s) := .ite (.next h.sendRelay) (.ite (.next (.ite h h.keep))
        (.ite (.next h.dropRelay.launchEvent.tellLauncher) (.next ((h.dropRelay.pool
        rfl).modRecord.tellLauncher))))

theorem State.Canonical.touchCounter {s : State} {rid : Nat} {asid : BitVec 12} {n : Need} {tval : Word}
    (h : s.Canonical) :
    (s.touchCounter rid asid n tval).Canonical := h.keep.modMmp

theorem State.Canonical.without {s : State} {os : List Record} (h : s.Canonical) :
    (s.without os).Canonical := (h.foldl (fun _ _ hs => hs.foldl (fun _ _ hs => hs.modTile (fun _ hx =>
        hx.dropClaim.setSlot)))).keep

theorem State.Canonical.passOver {s : State} {r : Record} (h : s.Canonical) :
    (s.passOver r).Canonical := h.keep

theorem State.Canonical.reserve {s : State} {r : Record} {pl : Placement} {ph : Phase} (h : s.Canonical) {u : State}
    (hu : s.reserve r pl ph = some u) : u.Canonical := by
  obtain ⟨⟨as, s1⟩, hs1, rfl⟩ := Option.map_eq_some_iff.1 hu
  exact (h.reserveAreas hs1).modRecord

theorem State.Canonical.askNext {s : State} {rid : Nat} {x' : List Nat} (h : s.Canonical) :
    (s.askNext rid x').Canonical := by
  dsimp only [State.askNext]
  split
  · exact h
  · exact h.keep

theorem State.Canonical.execRecordAdmission {rid : Nat} {pl : Placement} {ext : Vector Word 4} {s : State}
    (h : s.Canonical) :
    EndsCanonical (execRecordAdmission rid pl ext s) := by
  dsimp only [Machine.execRecordAdmission]
  split
  · exact .next h
  · split
    · exact .next h.askNext.modRecord
    · split
      · exact .next (.ite h h.touchCounter)
      · refine .ite ?_ ?_
        · split
          · rename_i heq1
            exact .next ((h.modRecord.passOver.reserve heq1).askNext)
          · exact .next h.modRecord
        · exact .next h.modRecord
    · exact .next h
    · exact .next h
    · exact .next h
    · exact .next h
    · exact .next h
    · exact .next h

theorem State.Canonical.answerRequest {s : State} {r : Record} {pl : Placement} (h : s.Canonical) :
    (s.answerRequest r pl).Canonical := by
  dsimp only [State.answerRequest]
  refine .ite ?_ ?_
  · split
    · rename_i heq1
      exact (h.reserve heq1).keep
    · exact h
  · exact h

theorem State.Canonical.execReserveRequest {rid : Nat} {words : List Word} {pl : Placement} {s : State}
    (h : s.Canonical) :
    EndsCanonical (execReserveRequest rid words pl s) := by
  dsimp only [Machine.execReserveRequest]
  split
  · exact .next h.answerRequest
  · refine .ite ?_ ?_
    · split
      · exact .next ((h.pool rfl).modRecord.answerRequest)
      · exact .next ((h.pool rfl).modRecord)
    · exact .next h

theorem State.Canonical.addGroups {s : State} {r : Record} {n : Nat} {cs : List (Nat × SlotNo × Nat × Nat)}
    (h : s.Canonical) :
    (s.addGroups r n cs).Canonical := .ite h h.keep

theorem State.Canonical.sendPulses {s : State} {r : Record} (h : s.Canonical) :
    (s.sendPulses r).Canonical := by
  dsimp only [State.sendPulses]
  split
  · exact h.keep
  · exact h

theorem State.Canonical.firstPulse {s : State} {r : Record} (h : s.Canonical) :
    (s.firstPulse r).Canonical := .ite h.sendPulses h

theorem State.Canonical.bind {s : State} {r : Record} (h : s.Canonical) :
    (s.bind r).Canonical := .ite ((h.foldl (fun _ _ hs => hs.setCtx)).keep.addGroups.firstPulse.modRecord.keep)
        ((h.foldl (fun _ _ hs => hs.setCtx)).keep.addGroups.firstPulse.modRecord.keep)

theorem State.Canonical.boundElsewhere {s : State} {r : Record} (h : s.Canonical) :
    (s.boundElsewhere r).Canonical := (State.Canonical.ite h h.firstPulse).modRecord

theorem State.Canonical.execDispatch {rid : Nat} {s : State} (h : s.Canonical) :
    EndsCanonical (execDispatch rid s) := by
  dsimp only [Machine.execDispatch]
  split
  · exact .next h
  · split
    · exact .ite (.next h.bind) (.next (.ite h h.modRecord))
    · exact .next h.boundElsewhere
    · exact .next h
    · exact .next h
    · exact .next h
    · exact .next h
    · exact .next h

/-! #### Machine/Area -/

theorem State.Canonical.writeAcc {s : State} {a : TileArea} {off : Nat} {acc : List (Nat × Quire)} (h : s.Canonical) :
    (s.writeAcc a off acc).Canonical := h.foldl (fun _ _ hs => hs.writeArea.writeArea)

theorem State.Canonical.saveArea {s : State} {r : Record} {xs : List SavedCtx} {a : TileArea} (h : s.Canonical) :
    (s.saveArea r xs a).Canonical := by
  unfold State.saveArea
  extract_lets here tile owner parts lo hi m s0 range s1 s2 s3 s4
  have h0 : s0.Canonical := h.withHbm (Memory.wf_foldl _ (fun m _ hm => Memory.wf_clearRange m _ _ hm) _ _ h.hbm)
  have h1 : s1.Canonical := h0.withHbm (Memory.wf_foldl _ (fun m _ hm => Memory.wf_write m _ _ hm) _ _ h0.hbm)
  have h2 : s2.Canonical := .ite (h1.foldl fun _ _ hs => hs.writeArea) h1
  have hacc : ∀ o : Option (List (Nat × Quire)), State.Canonical (match o with
      | some acc => s2.writeAcc a parts.acc acc
      | none => s2)
    | some _ => h2.writeAcc
    | none => h2
  have h3 : s3.Canonical := hacc owner
  have h4 : s4.Canonical := h3.writeArea.writeArea
  exact h4.foldl fun _ _ hs => hs.foldl fun _ _ hs => hs.writeArea

/-! #### Machine/Preempt -/

theorem State.Canonical.endRecord {s : State} {rid : Nat} (h : s.Canonical) :
    (s.endRecord rid).Canonical := by
  dsimp only [State.endRecord]
  refine State.Canonical.keep ?_
  split
  · exact h.freeAreas
  · exact h

theorem State.Canonical.completionFlight {s : State} {r : Record} {space : Space} {us : List AccessUnit}
    {tval : Word} {lat : Nat} (h : s.Canonical) :
    (s.completionFlight r space us tval lat).Canonical := h.keep.addFlight

theorem State.Canonical.postCompletion {s : State} {r : Record} (h : s.Canonical) {p : Option State × State}
    (hp : s.postCompletion r = p) : (∀ u, p.1 = some u → u.Canonical) ∧ p.2.Canonical := by
  have hflat : ∀ {st : State}, st.Canonical → ∀ u, (match tableTrans st (recAsid r.words)
      (flatPart (recCounter r.words 24).addr) with
    | .home h p e w =>
      some (st.completionFlight r .d (unitsOf (fun _ => .cadd (recCamt r.words)) [(flatPart (recCounter r.words
          24).addr,
        .home h p e w)]) (dTval 0 (recCounter r.words 24).addr) 560)
    | .miss _ | .none => none) = some u → u.Canonical := by
    intro st hst u hu
    split at hu
    · exact Option.some.inj hu ▸ hst.completionFlight
    · cases hu
    · cases hu
  have hsome : ∀ {v : State}, v.Canonical → ∀ u, some v = some u → u.Canonical := fun hv u hu => Option.some.inj
      hu ▸ hv
  subst hp
  unfold State.postCompletion
  extract_lets c asid amt flat
  split
  · exact ⟨hsome h, h⟩
  · split
    · exact ⟨hsome h.keep, h⟩
    · split
      · exact ⟨hsome h.completionFlight, h⟩
      · split
        · rename_i hf
          exact ⟨fun u hu => hflat h u (hf.trans hu), h⟩
        · split
          · exact ⟨hsome h, h⟩
          · split
            · exact ⟨fun _ hu => absurd hu (Option.some_ne_none _).symm, h⟩
            · exact ⟨hflat h.touchCounter, h.touchCounter⟩

theorem State.Canonical.completeRecord {s : State} {r : Record} (h : s.Canonical) : (s.completeRecord r).Canonical
    := by
  unfold State.completeRecord
  split
  · rename_i hp
    exact ((h.postCompletion hp).1 _ rfl).endRecord
  · rename_i hp
    exact (h.postCompletion hp).2

theorem State.Canonical.freezeRecord {s : State} {rid : Nat} (h : s.Canonical) :
    (s.freezeRecord rid).Canonical := h.foldl (fun _ _ hs => .ite hs.modCtx hs)

theorem State.Canonical.leaveBarrier {s : State} {c : Context} (h : s.Canonical) :
    (s.leaveBarrier c).Canonical := by
  dsimp only [State.leaveBarrier]
  split
  · exact h.keep
  · exact h

theorem State.Canonical.arriveAgain {s : State} {x : SavedCtx} (h : s.Canonical) :
    (s.arriveAgain x).Canonical := by
  dsimp only [State.arriveAgain]
  split
  · exact h.arriveBarrier
  · exact h

theorem State.Canonical.unbind {s : State} {t : Nat} {k : SlotNo} {b : Bank} (h : s.Canonical) :
    (s.unbind t k b).Canonical := (h.dropScans.modTile (fun _ hx => hx.dropCommands.dropClaim.dropWake.freeSlot)).keep

theorem State.Canonical.saveRecord {s : State} {r : Record} (h : s.Canonical) :
    (s.saveRecord r).Canonical := (((h.foldl (fun _ _ hs => hs.saveArea)).foldl (fun _ _ hs =>
        hs.leaveBarrier)).foldl (fun _ _ hs => hs.unbind)).modRecord

theorem State.Canonical.watchAgain {s : State} {t : Nat} {k : SlotNo} {c : Context} (h : s.Canonical) :
    (s.watchAgain t k c).Canonical := by
  dsimp only [State.watchAgain]
  split
  · exact h.keep
  · exact h

theorem Tile.Canonical.resume {x : SavedCtx} {k : SlotNo} {now : Nat} {y : Tile} (h : y.Canonical) :
    (y.resume x k now).Canonical := by
  refine Tile.Canonical.keep (.foldl (.foldl (.foldl (.foldl h ?_) ?_) ?_) ?_)
  · exact fun _ _ hz => hz.setRun
  · intro z ch hz
    dsimp only
    split
    · exact hz.setChannel
    · exact hz
  · exact fun _ _ hz => hz.keep
  · exact fun _ _ hz => hz.setComparator

theorem State.Canonical.moveScans {s : State} {uid t : Nat} {k : SlotNo} (h : s.Canonical) :
    (s.moveScans uid t k).Canonical := (h.foldl (fun _ _ hs => hs.foldl (fun _ _ hs => .ite (hs.modTile (fun _ hx
        => hx.beginScan)) hs))).keep

theorem State.Canonical.restoreCtx {s : State} {r : Record} {pl : Placement} {x : SavedCtx} (h : s.Canonical) :
    (s.restoreCtx r pl x).Canonical := (h.setCtx.watchAgain.modTile (fun _ hx => hx.resume)).moveScans.keep.foldl
        (fun _ _ hs => hs.postEvent)

theorem State.Canonical.restoreGroups {s : State} {r : Record} {pl : Placement} (h : s.Canonical) :
    (s.restoreGroups r pl).Canonical := h.keep

theorem State.Canonical.restoreTile {s : State} {r : Record} {pl : Placement} {a : TileArea} (h : s.Canonical) :
    (s.restoreTile r pl a).Canonical := by
  unfold State.restoreTile
  extract_lets lo n m cells
  refine h.modTile fun y hy => ?_
  exact .withScratch (Memory.wf_foldl _ (fun m _ hm => Memory.wf_write m _ _ hm) _ _
    (Memory.wf_clearRange _ _ _ hy.scratch))

theorem State.Canonical.execRestore {rid : Nat} {pl : Placement} {s : State} (h : s.Canonical) :
    EndsCanonical (execRestore rid pl s) := by
  dsimp only [Machine.execRestore]
  split
  · exact .next h
  · refine .ite ?_ ?_
    · exact .next h
    · split
      · exact .next (.ite h h.touchCounter)
      · exact .ite (.next (((h.passOver.foldl (fun _ _ hs => hs.restoreTile)).foldl (fun _ _ hs =>
          hs.restoreCtx)).restoreGroups.keep.modRecord.foldl (fun _ _ hs => hs.arriveAgain))) (.next h)

theorem State.Canonical.withdrawEarly {s : State} {tag : Nat} {asid : BitVec 12} (h : s.Canonical) :
    (s.withdrawEarly tag asid).Canonical := h.landHandle.keep.postOpen

theorem State.Canonical.abortQueue {s : State} {tgt : AbortTarget} {q : Nat} (h : s.Canonical) {p : State × Nat}
    (hp : s.abortQueue tgt q = p) : p.1.Canonical := by
  subst hp
  exact State.Canonical.foldl h.setQueueOf fun _ _ hs => hs.withdrawEarly

theorem State.Canonical.abortRelays {s : State} {tgt : AbortTarget} (h : s.Canonical) {p : State × Nat}
    (hp : s.abortRelays tgt = p) : p.1.Canonical := by
  subst hp
  exact State.Canonical.foldl h fun _ _ hs =>
    .ite hs.dropRelay.withdrawEarly hs.dropRelay.withdrawEarly.tellLauncher

theorem State.Canonical.abortContexts {s : State} {r : Record} (h : s.Canonical) :
    (s.abortContexts r).Canonical := (h.foldl (fun _ _ hs => hs.remove)).keep

theorem State.Canonical.abortRecord {s : State} {r : Record} {post : Bool} (h : s.Canonical) :
    (s.abortRecord r post).Canonical := by
  dsimp only [State.abortRecord]
  refine State.Canonical.postOpen (.ite ?_ h.tellParts.abortContexts.endRecord)
  split
  · rename_i hp
    exact ((h.tellParts.abortContexts.postCompletion hp).1 _ rfl).endRecord
  · rename_i hp
    exact (h.tellParts.abortContexts.postCompletion hp).2.freeAreas.modRecord

theorem State.Canonical.preempt {s : State} {r : Record} (h : s.Canonical) :
    (s.preempt r).Canonical := .ite h.freezeRecord.modRecord.saveRecord h.freezeRecord.modRecord

theorem State.Canonical.execPreemption {rid : Nat} {why : PreemptCause} {s : State} (h : s.Canonical) :
    EndsCanonical (execPreemption rid why s) := by
  dsimp only [Machine.execPreemption]
  split
  · exact .next h
  · refine .ite ?_ ?_
    · apply EndsCanonical.next
      split
      · split
        · exact h.preempt.abortRecord
        · exact h.preempt
      · exact h.preempt
    · exact .next h

theorem State.Canonical.execCompletionAdd {rid : Nat} {s : State} (h : s.Canonical) :
    EndsCanonical (execCompletionAdd rid s) := by
  dsimp only [Machine.execCompletionAdd]
  split
  · exact .next h
  · split
    · exact .next h.modRecord
    · exact .next h.modRecord
    · refine .ite ?_ ?_
      · exact .next h
      · split
        · exact .next h.abortRecord
        · exact .ite (.next h.keep.endRecord) (.next h.completeRecord)
    · exact .next h.completeRecord
    · exact .next h
    · exact .next h
    · exact .next h
    · exact .next h
    · exact .next h

theorem State.Canonical.abortOne {s : State} {r : Record} {post : Bool} (h : s.Canonical) :
    (s.abortOne r post).Canonical := .ite h.modRecord h.abortRecord

theorem State.Canonical.abortQueues {s s1 : State} {tgt : AbortTarget} {qs : List Nat} {n k : Nat} (h : s.Canonical)
    (hp : qs.foldl (fun (acc : State × Nat) q =>
      let (st, m) := acc.1.abortQueue tgt q
      (st, acc.2 + m)) (s, k) = (s1, n)) : s1.Canonical := by
  have h1 : (qs.foldl (fun (acc : State × Nat) q =>
      let (st, m) := acc.1.abortQueue tgt q
      (st, acc.2 + m)) (s, k)).1.Canonical :=
    .foldlPair h fun p q hs => hs.abortQueue (p := p.1.abortQueue tgt q) rfl
  rw [hp] at h1
  exact h1

theorem State.Canonical.abortAll {s : State} {tgt : AbortTarget} {post : Bool} (h : s.Canonical) {p : State × Word}
    (hp : s.abortAll tgt post = p) : p.1.Canonical := by
  subst hp
  unfold State.abortAll
  extract_lets hits
  split
  rename_i hp1
  split
  rename_i hp2
  extract_lets s3 found there s4
  have h3 : s3.Canonical := ((h.abortQueues hp1).abortRelays hp2).foldl fun _ _ hs => hs.abortOne
  have h4 : s4.Canonical := h3.foldl fun _ _ hs => hs.tellNodes
  exact .iteFst h4 (.iteFst h4 (.iteFst h4 (h4.freeWord rfl)))

theorem State.Canonical.withdrawAll {s : State} {tgt : AbortTarget} (h : s.Canonical) :
    (s.withdrawAll tgt).Canonical := h.foldl (fun _ _ hs => hs.withdraw)

theorem State.Canonical.execRecordAbort {seq : BitVec 16} {tgt : AbortTarget} {post : Bool} {s : State}
    (h : s.Canonical) :
    EndsCanonical (execRecordAbort seq tgt post s) := by
  dsimp only [Machine.execRecordAbort]
  split
  · exact .next h.withdrawAll
  · exact .next (h.abortAll rfl)
  · exact .next (h.abortAll rfl)
  · exact .next (h.abortAll rfl)
  · exact .next (h.command (fun _ hs => (hs.abortAll rfl).reply))
  · exact .next (h.command (fun _ hs => (hs.abortAll rfl).reply))
  · exact .next (h.command (fun _ hs => (hs.abortAll rfl).reply))

/-! #### Machine/Scalar -/

theorem State.Canonical.landPass {d : SReg} {b : PReg} {l : LoopState} {s : State} (h : s.Canonical) :
    (landPass d b l s).Canonical := h.land.land.land

theorem State.Canonical.landStages {s : State} (h : s.Canonical) :
    (landStages s).Canonical := h.land.foldl (fun _ _ hs => hs.land)

/-! #### Machine/Contexts -/

theorem State.Canonical.standing {s : State} {t : TileId} {k : SlotNo} {c : Context} (h : s.Canonical) :
    (s.standing t k c).Canonical := h.setCtx.keep

theorem State.Canonical.unblock {s : State} {t : Nat} {k : SlotNo} {b : Bank} (h : s.Canonical) :
    (s.unblock t k b).Canonical := h.modCtx

theorem State.Canonical.execBlockConditionClears {t : TileId} {k : SlotNo} {b : Bank} {s : State} (h : s.Canonical) :
    EndsCanonical (execBlockConditionClears t k b s) := by
  dsimp only [Machine.execBlockConditionClears]
  split
  · exact .ite (.next h.modCtx) (.next h)
  · exact .next h

theorem State.Canonical.execSleepExpiry {t : TileId} {k : SlotNo} {b : Bank} {s : State} (h : s.Canonical) :
    EndsCanonical (execSleepExpiry t k b s) := by
  dsimp only [Machine.execSleepExpiry]
  split
  · exact .ite (.next h) (.next h.unblock)
  · exact .next h

theorem Tile.Canonical.setStatus {x : Tile} {k : SlotNo} {st : CtxStatus} (h : x.Canonical) :
    (x.setStatus k st).Canonical := h.setCtx

theorem Tile.Canonical.select {x : Tile} {gtc : Nat} (h : x.Canonical) :
    (x.select gtc).Canonical := by
  dsimp only [Tile.select]
  split
  · exact h
  · exact h.setStatus
  · exact .ite h.setCtx.setStatus h

theorem State.Canonical.execIssueSelect {t : TileId} {s : State} (h : s.Canonical) :
    EndsCanonical (execIssueSelect t s) := .next (h.modTile (fun _ hx => hx.select))

theorem State.Canonical.execBankReturn {t : TileId} {k : SlotNo} {s : State} (h : s.Canonical) :
    EndsCanonical (execBankReturn t k s) := by
  dsimp only [Machine.execBankReturn]
  split
  · exact .next h
  · exact .next (h.modTile (fun _ hx => hx.setSlot))

theorem State.Canonical.releaseWaiters {s : State} {b : Barrier} {r : Record} (h : s.Canonical) :
    (s.releaseWaiters b r).Canonical := h.foldl (fun _ _ hs => .ite hs.unblock hs)

theorem State.Canonical.execBarrierRelease {bid : Nat} {s : State} (h : s.Canonical) :
    EndsCanonical (execBarrierRelease bid s) := by
  dsimp only [Machine.execBarrierRelease]
  split
  · exact .next h
  · split
    · exact .next h
    · split
      · exact .next h
      · exact .ite (.next h) (.ite (.ite (.next h) (.next (.ite h.keep.sendPulses h.keep))) (.next
          h.keep.releaseWaiters))

theorem State.Canonical.execStartPulse {rid : Nat} {p : PulseAt} {s : State} (h : s.Canonical) :
    EndsCanonical (execStartPulse rid p s) := by
  dsimp only [Machine.execStartPulse]
  split
  · exact .next h
  · refine .ite (.next (State.Canonical.foldl ?_ fun _ _ hs => .ite hs.modCtx hs)) (.next h)
    split
    · exact h.keep
    · exact h

/-! #### Machine/Platform -/

theorem State.Canonical.platformEvent {s : State} {cls code : BitVec 8} (h : s.Canonical) :
    (s.platformEvent cls code).Canonical := h.postOpen

theorem State.Canonical.openEvent {s : State} {cls : BitVec 8} (h : s.Canonical) :
    (s.openEvent cls).Canonical := h.postOpen

theorem Tile.Canonical.warm {x : Tile} (h : x.Canonical) : x.warm.Canonical := by
  refine ⟨?_⟩
  dsimp only [Tile.warm]
  split
  · exact Memory.wf_clearRange _ _ _ h.scratch
  · exact h.scratch

theorem State.Canonical.clearRun {s : State} (h : s.Canonical) : s.clearRun.Canonical :=
  (h.foldl (fun _ _ hs => hs.freeAreas)).mapTiles fun _ hx => hx.warm

theorem State.Canonical.execWarmReset {s : State} (h : s.Canonical) :
    EndsCanonical (execWarmReset s) := .ite (.next h) (.next h.clearRun.modPlatform)

theorem State.Canonical.execWarmResetComplete {s : State} (h : s.Canonical) :
    EndsCanonical (execWarmResetComplete s) := .ite (.next h.modPlatform.drainEvents) (.next h)

theorem State.Canonical.linkEvents {s : State} {up : BitVec 48} (h : s.Canonical) :
    (s.linkEvents up).Canonical := h.foldl (fun _ _ hs => .ite hs hs.openEvent)

theorem State.Canonical.execColdReset {code : BitVec 8} {node : BitVec 21} {live : LiveParts} {s : State}
    (_ : s.Canonical) :
    EndsCanonical (execColdReset code node live s) :=
  .next (.ite (State.Canonical.reset.keep).linkEvents State.Canonical.reset.keep)

theorem State.Canonical.execEvqConsWrite {v : Word} {s : State} (h : s.Canonical) :
    EndsCanonical (execEvqConsWrite v s) := .ite (.next h) (.next h.modPlatform.drainEvents)

theorem State.Canonical.execEvqSizeWrite {v : Word} {s : State} (h : s.Canonical) :
    EndsCanonical (execEvqSizeWrite v s) := .ite (.next h) (.next h.modPlatform)

theorem State.Canonical.execEvqStatWrite {v : Word} {s : State} (h : s.Canonical) :
    EndsCanonical (execEvqStatWrite v s) := .ite (.next h.modPlatform) (.next h)

theorem State.Canonical.writeBar0 {s : State} {o : Nat} {v : Word} (h : s.Canonical) :
    (s.writeBar0 o v).Canonical := by
  dsimp only [State.writeBar0]
  refine .ite ?_ ?_
  · exact h
  · refine .ite ?_ ?_
    · exact h.modPlatform
    · split
      · exact h.modPlatform
      · exact h

theorem State.Canonical.writeBar2 {s : State} {o : Nat} {v : Word} (h : s.Canonical) :
    (s.writeBar2 o v).Canonical := .ite h h.modQueue

theorem State.Canonical.writeBar4 {s : State} {o : Nat} {v : Word} (h : s.Canonical) :
    (s.writeBar4 o v).Canonical := .ite h (.ite h.modPlatform.ringDoorbell h.modPlatform)

theorem State.Canonical.execRegisterWrite {off : BarOffset} {v : Word} {s : State} (h : s.Canonical) :
    EndsCanonical (execRegisterWrite off v s) := .next (.ite h.writeBar0 (.ite h.writeBar2 (.ite h.writeBar4 h)))

theorem State.Canonical.execEbudSetWrite {v : Word} {s : State} (h : s.Canonical) :
    EndsCanonical (execEbudSetWrite v s) := .ite (.next h) (.next h.modPlatform)

theorem State.Canonical.execMeterAdvance {delta : Vector Word 5} {s : State} (h : s.Canonical) :
    EndsCanonical (execMeterAdvance delta s) := .ite (.next h.modPlatform) (.next h)

theorem State.Canonical.execPowerWindowEnd {s : State} (h : s.Canonical) :
    EndsCanonical (execPowerWindowEnd s) := .ite (.next h) (.next h.modPlatform)

theorem State.Canonical.sense {s : State} {hottest outlet : BitVec 8} (h : s.Canonical) :
    (s.sense hottest outlet).Canonical := h.modPlatform

theorem State.Canonical.execThermalEmergency {hottest outlet : BitVec 8} {s : State} (h : s.Canonical) :
    EndsCanonical (execThermalEmergency hottest outlet s) := .ite (.next h) (.ite (.next h.sense) (.next (.ite
        h.sense.modPlatform h.sense.modPlatform.openEvent)))

theorem State.Canonical.execThermalEmergencyEnd {hottest outlet : BitVec 8} {s : State} (h : s.Canonical) :
    EndsCanonical (execThermalEmergencyEnd hottest outlet s) := .ite (.next h) (.ite (.next
        h.sense.modPlatform.platformEvent) (.next h.sense))

theorem State.Canonical.execThermalShutdown {hottest outlet : BitVec 8} {s : State} (h : s.Canonical) :
    EndsCanonical (execThermalShutdown hottest outlet s) := .ite (.next h) (.next h.openEvent.clearRun.modPlatform)

theorem State.Canonical.execCorrectedErrorReport {count : Word} {s : State} (h : s.Canonical) :
    EndsCanonical (execCorrectedErrorReport count s) := .ite (.next h.postOpen) (.next h)

theorem State.Canonical.execStopGo {link : BitVec 6} {vc : BitVec 3} {stop : Bool} {s : State} (h : s.Canonical) :
    EndsCanonical (execStopGo link vc stop s) := .next h.modPlatform.keep

theorem State.Canonical.sendOut {s : State} (h : s.Canonical) :
    (s.sendOut).Canonical := h.keep

theorem State.Canonical.execLinkLoss {link : BitVec 6} {s : State} (h : s.Canonical) :
    EndsCanonical (execLinkLoss link s) := .ite (.next ((State.Canonical.ite h.modPlatform.keep
        h.modPlatform).openEvent)) (.next h)

theorem State.Canonical.execMmpCoreReset {core : BitVec 3} {s : State} (h : s.Canonical) :
    EndsCanonical (execMmpCoreReset core s) := .ite (.next h.keep) (.next h)

theorem State.Canonical.tick {s0 : State} (h : s0.Canonical) :
    (s0.tick).Canonical := h.sendOut.keep

/-! #### Machine/Present -/

theorem State.Canonical.pend {s : State} {tr : Trap} (h : s.Canonical) :
    (s.pend tr).Canonical := h.postEvent

theorem State.Canonical.keepOverflow {s : State} (h : s.Canonical) :
    (s.keepOverflow).Canonical := by
  dsimp only [State.keepOverflow]
  split
  · exact h.modMe.pend
  · exact h

theorem State.Canonical.commitLandings {s : State} (h : s.Canonical) :
    (s.commitLandings).Canonical := (State.Canonical.ite h h.keepOverflow).modMe.foldl (fun _ _ hs =>
        hs.pend.logEntry)

theorem State.Canonical.pullTraps {s : State} (h : s.Canonical) :
    (s.pullTraps).Canonical := h.foldl fun _ _ hs => by
      split
      · exact hs.dropTongs.pend
      · exact hs
      · exact hs
      · exact hs
      · exact hs
      · exact hs
      · exact hs

theorem State.Canonical.takeMinority {s : State} (h : s.Canonical) :
    (s.takeMinority).Canonical := by
  dsimp only [State.takeMinority]
  split
  · exact h.modGroup.modMe
  · exact h

theorem State.Canonical.deliver {s : State} {tr : Trap} (h : s.Canonical) :
    (s.deliver tr).Canonical := (State.Canonical.ite h.modMe.takeMinority h.modMe).takeTrap

theorem State.Canonical.exitContext {s : State} (h : s.Canonical) :
    (s.exitContext).Canonical := (State.Canonical.ite h.cut h.cut.modRecord).settleBarriers

theorem State.Canonical.applyDeferred {s : State} {d : Deferred} (h : s.Canonical) :
    (s.applyDeferred d).Canonical := by
  dsimp only [State.applyDeferred]
  split
  · exact h.modMe
  · exact h.modMe
  · exact h.modMe
  · exact h.modHere (fun _ hx => hx.dropClaim)
  · exact h.modMe
  · exact h.modMe
  · exact h.modMe
  · exact h.modMe
  · exact h.exitContext
  · exact h
  · exact h
  · exact h
  · exact h

theorem Tile.Canonical.shiftCmds {x : Tile} {uid : Nat} {h n : Word} (hc : x.Canonical) :
    (x.shiftCmds uid h n).Canonical := hc.keep

theorem State.Canonical.shiftReplica {s : State} {gid t : Nat} {k : SlotNo} {b : Bank} {h n : Word}
    (hc : s.Canonical) :
    (s.shiftReplica gid t k b h n).Canonical := (hc.modTile (fun _ hx => hx.shiftCmds)).modCtx.modGroup

theorem State.Canonical.resumeGroup {s : State} (h : s.Canonical) :
    (s.resumeGroup).Canonical := by
  dsimp only [State.resumeGroup]
  split
  · exact h.modMe
  · split
    · exact h.modMe
    · split
      · exact h.modMe.modGroup
      · split
        · exact h.modMe.shiftReplica
        · exact h.modMe.modGroup

theorem State.Canonical.endBundle {s : State} {b : Bundle} (h : s.Canonical) :
    (s.endBundle b).Canonical := .ite (((State.Canonical.ite ((h.modMe.foldl (fun _ _ hs =>
        hs.applyDeferred)).modMe) (h.modMe.foldl (fun _ _ hs => hs.applyDeferred))).modMe).resumeGroup)
        ((State.Canonical.ite ((h.modMe.foldl (fun _ _ hs => hs.applyDeferred)).modMe) (h.modMe.foldl (fun _ _ hs
        => hs.applyDeferred))).modMe)

theorem State.Canonical.raiseConflict {s : State} {old : Context} {bank : Nat} {a : Word} (h : s.Canonical) :
    (s.raiseConflict old bank a).Canonical := by
  dsimp only [State.raiseConflict]
  split
  · exact h
  · split
    · exact h
    · exact .ite h h.engineTrap

theorem State.Canonical.gatherConflict {s : State} {old : Context} {b : Bundle} (h : s.Canonical) :
    (s.gatherConflict old b).Canonical := by
  dsimp only [State.gatherConflict]
  refine .ite ?_ ?_
  · split
    · exact ((h.freeWord rfl).modHere (fun _ hx => hx.keep)).raiseConflict
    · exact h.freeWord rfl
  · exact h

theorem State.Canonical.noteOwed {s : State} {old : Context} {b : Bundle} (h : s.Canonical) :
    (s.noteOwed old b).Canonical := .ite h.modMe h

theorem State.Canonical.askFor {s : State} {needs : List Need} {tval : Word} (h : s.Canonical) :
    (s.askFor needs tval).Canonical := .ite h h.keep

theorem State.Canonical.forgetOwed {s : State} {o : Owed} (h : s.Canonical) :
    (s.forgetOwed o).Canonical := h.dropLanding.foldl (fun _ _ hs => hs.dropResv)

theorem State.Canonical.replayPump {s : State} (h : s.Canonical) :
    (s.replayPump).Canonical := .ite h.replayAsync.replayLate h

end Sys2Proof.Machine
end

section
/-! ### What instructions do keeps the memories in canonical form -/

namespace Sys2Proof.Machine


/-- What a meaning does to a state, in its effect and where it blocks, keeps the memories in canonical form. -/
structure Meaning.Keeps (m : Meaning) : Prop where
  effect : ∀ {s t : State}, s.Canonical → t.Canonical → (m.effect s t).Canonical
  onBlock : ∀ {s : State}, s.Canonical → (m.onBlock s).Canonical

theorem Meaning.Keeps.nopMeaning :
    nopMeaning.Keeps := ⟨fun _ h => h, fun h => h⟩

theorem Meaning.Keeps.scalarMeaning {d : SReg} {lat : Nat} {f : Context → Word} :
    (scalarMeaning d lat f).Keeps := ⟨fun _ h => h.land, fun h => h⟩

theorem Meaning.Keeps.alu2 {x : TypeCode} {d a b : SReg} {f : Word → Word → Word} :
    (alu2 x d a b f).Keeps := .scalarMeaning

theorem Meaning.Keeps.dividerMeaning {signed rem : Bool} {x : TypeCode} {d a b : SReg} :
    (dividerMeaning signed rem x d a b).Keeps := ⟨fun _ h => h.land.modMe.modHere (fun _ hx => hx.keep), fun h => h⟩

theorem Meaning.Keeps.countMeaning {x : TypeCode} {d a : SReg} {f : Nat → Nat → Nat} :
    (countMeaning x d a f).Keeps := .scalarMeaning

theorem Meaning.Keeps.predMeaning {d : PReg} {f : Context → Bool} :
    (predMeaning d f).Keeps := ⟨fun _ h => h.land, fun h => h⟩

theorem Meaning.Keeps.brMeaning {disp : Lit 9} :
    (brMeaning disp).Keeps := ⟨fun _ h => h.defer, fun h => h⟩

theorem Meaning.Keeps.brlMeaning {d : SReg} {disp : Lit 9} :
    (brlMeaning d disp).Keeps := ⟨fun _ h => h.land.defer, fun h => h⟩

theorem Meaning.Keeps.briMeaning {d a : SReg} :
    (briMeaning d a).Keeps := ⟨fun _ h => (State.Canonical.ite h h.land).defer, fun h => h⟩

theorem Meaning.Keeps.loopMeaning {d : SReg} {off : BitVec 9} :
    (loopMeaning d off).Keeps := ⟨fun _ h => .ite h.land h.land.defer, fun h => h⟩

theorem Meaning.Keeps.loopmStartMeaning {d : SReg} {b : PReg} {a : SReg} :
    (loopmStartMeaning d b a).Keeps := ⟨fun _ h => h.landPass.landStages.defer, fun h => h⟩

theorem Meaning.Keeps.loopmEndMeaning {d : SReg} {b : PReg} :
    (loopmEndMeaning d b).Keeps := by
  refine ⟨fun _ h => ?_, fun h => h⟩
  dsimp only [Machine.loopmEndMeaning]
  split
  · exact h
  · exact .ite h.landPass.defer.defer h.landPass.defer

theorem Meaning.Keeps.mfsrMeaning {d : SReg} {r : SpecReg} :
    (mfsrMeaning d r).Keeps := ⟨fun _ h => .ite ((h.specPoison rfl).landInput) ((h.specPoison rfl).landRead), fun
        h => h⟩

theorem Meaning.Keeps.mtsrMeaning {r : SpecReg} {a : SReg} :
    (mtsrMeaning r a).Keeps := by
  refine ⟨fun _ h => ?_, fun h => h⟩
  dsimp only [Machine.mtsrMeaning]
  split
  · exact h.modHere (fun _ hx => hx.keep)
  · exact h.modHere (fun _ hx => hx.keep)
  · exact h.defer

theorem Meaning.Keeps.trapMeaning {imm : BitVec 9} :
    (trapMeaning imm).Keeps := ⟨fun _ h => h, fun h => h⟩

theorem Meaning.Keeps.eretMeaning :
    eretMeaning.Keeps := ⟨fun _ h => h.defer, fun h => h⟩

theorem Meaning.Keeps.exitMeaning :
    exitMeaning.Keeps := ⟨fun _ h => h.defer, fun h => h⟩

theorem Meaning.Keeps.laneMeaning {w : LaneW} {d : VReg} {m : MReg} {lat : Nat} {f : Context → List Rounded} :
    (laneMeaning w d m lat f).Keeps := ⟨fun _ h => h.landFlags, fun h => h⟩

theorem Meaning.Keeps.lanes2 {w : LaneW} {d a b : VReg} {m : MReg} {lat : Nat} {f : Nat → Nat → Rounded} :
    (lanes2 w d a b m lat f).Keeps := .laneMeaning

theorem Meaning.Keeps.vselMeaning {d a b : VReg} {m : MReg} :
    (vselMeaning d a b m).Keeps := ⟨fun _ h => h.land, fun h => h⟩

theorem Meaning.Keeps.lanes1 {w : LaneW} {d a : VReg} {m : MReg} {lat : Nat} {f : Nat → Rounded} :
    (lanes1 w d a m lat f).Keeps := .laneMeaning

theorem Meaning.Keeps.plainLanes {w : LaneW} {d : VReg} {m : MReg} {lat : Nat} {f : Context → List Nat} :
    (plainLanes w d m lat f).Keeps := .laneMeaning

theorem Meaning.Keeps.vrandEntMeaning {d : VReg} {m : MReg} :
    (vrandEntMeaning d m).Keeps := by
  refine ⟨fun _ h => ?_, fun h => h⟩
  dsimp only [Machine.vrandEntMeaning]
  split
  · exact h.modMe
  · split
    · exact .ite h.modMe.land h.replayMismatch
    · exact h.replayMismatch
  · exact h.keep.land.shareIssued.logEntry

theorem Meaning.Keeps.shiftLanes {w : LaneW} {d a b : VReg} {m : MReg} {f : Nat → Nat → Nat → Nat} :
    (shiftLanes w d a b m f).Keeps := .lanes2

theorem Meaning.Keeps.shiftLanesImm {w : LaneW} {d a : VReg} {n : BitVec 5} {m : MReg} {f : Nat → Nat → Nat → Nat} :
    (shiftLanesImm w d a n m f).Keeps := .lanes1

theorem Meaning.Keeps.vcomprMeaning {d a : VReg} {m : MReg} :
    (vcomprMeaning d a m).Keeps := ⟨fun _ h => h.land, fun h => h⟩

theorem Meaning.Keeps.vexpdMeaning {d a : VReg} {m : MReg} :
    (vexpdMeaning d a m).Keeps := ⟨fun _ h => h.land, fun h => h⟩

theorem Meaning.Keeps.maskMeaning {d : MReg} {lat : Nat} {f : Context → MaskWord} :
    (maskMeaning d lat f).Keeps := ⟨fun _ h => h.land, fun h => h⟩

theorem Meaning.Keeps.qclrMeaning {d : QReg} :
    (qclrMeaning d).Keeps := ⟨fun _ h => h.land, fun h => h⟩

theorem Meaning.Keeps.qnegMeaning {d a : QReg} :
    (qnegMeaning d a).Keeps := by
  refine ⟨fun _ h => ?_, fun h => h⟩
  dsimp only [Machine.qnegMeaning]
  exact h.modMe

theorem Meaning.Keeps.qtestMeaning {d : SReg5} {a : QReg} :
    (qtestMeaning d a).Keeps := ⟨fun _ h => h.land, fun h => h⟩

theorem Meaning.Keeps.accumulateMeaning {d : QReg} {f : Context → Quire → Quire × Bool} :
    (accumulateMeaning d f).Keeps := by
  refine ⟨fun _ h => ?_, fun h => h⟩
  dsimp only [Machine.accumulateMeaning]
  exact h.modMe

theorem Meaning.Keeps.fusedMeaning {sub : Bool} {f : Fmt} {d a b : VReg} {m : MReg} :
    (fusedMeaning sub f d a b m).Keeps := .laneMeaning

theorem Meaning.Keeps.fnMeaning {fn : Fn} {f : Fmt} {d a : VReg} {m : MReg} :
    (fnMeaning fn f d a m).Keeps := .lanes1

theorem Meaning.Keeps.coreLoad {addr : Context → Word} {n al lat : Nat} {w : Write} {k : CoreDest} :
    (coreLoad addr n al lat w k).Keeps := ⟨fun _ h => .ite h.modMe.loadLater h.landRead.coreLoadCapture, fun h => h⟩

theorem Meaning.Keeps.ldsMeaning {x : TypeCode} {d a : SReg} {off : Lit 7} :
    (ldsMeaning x d a off).Keeps := by
  unfold Machine.ldsMeaning
  exact .coreLoad

theorem Meaning.Keeps.stsMeaning {x : TypeCode} {d a : SReg} {off : Lit 7} :
    (stsMeaning x d a off).Keeps := ⟨fun _ h => h.storeHere, fun h => h⟩

theorem Meaning.Keeps.vldsmMeaning {d : VReg} {a : SReg} {m : MReg} {off : Lit 6} :
    (vldsmMeaning d a m off).Keeps := ⟨fun _ h => h.gatherLanes, fun h => h⟩

theorem Meaning.Keeps.vldsxMeaning {x : TypeCode} {to16 : Bool} {d : VReg} {a : SReg} {off : Lit 6} :
    (vldsxMeaning x to16 d a off).Keeps := by
  unfold Machine.vldsxMeaning
  exact .coreLoad

theorem Meaning.Keeps.vgtsMeaning {w : LaneW} {d : VReg} {a : SReg} {i : BitVec 4} {m : MReg} :
    (vgtsMeaning w d a i m).Keeps := ⟨fun _ h => h.gatherLanes, fun h => h⟩

theorem Meaning.Keeps.vscsMeaning {w : LaneW} {src : VSrc} {a : SReg} {i : BitVec 4} {m : MReg} :
    (vscsMeaning w src a i m).Keeps := by
  refine ⟨fun _ h => .ite h.modMe.storeLater ((h.modHere fun x hx => Tile.Canonical.wakeBy (.withScratch
      ?_)).modMe.mark),
    fun h => h⟩
  exact Memory.wf_foldl _ (fun mem _ hm => Memory.wf_writeBytes _ mem _ _ _ hm) _ _ hx.scratch

theorem Meaning.Keeps.vstsMeaning {src : VSrc} {a : SReg} {off : Lit 10} :
    (vstsMeaning src a off).Keeps := ⟨fun _ h => h.storeHere, fun h => h⟩

theorem Meaning.Keeps.qsaveMeaning {d : QReg} {a : SReg} {off : Lit 10} :
    (qsaveMeaning d a off).Keeps := ⟨fun _ h => h.storeHere, fun h => h⟩

theorem Meaning.Keeps.stmcMeaning {x : TypeCode} {w : Win} {d a : SReg} {off : Lit 4} :
    (stmcMeaning x w d a off).Keeps := ⟨fun _ h => h.storeWindow, fun h => h⟩

theorem Meaning.Keeps.vstmcMeaning {w : Win} {src : VSrc} {a : SReg} {off : Lit 7} :
    (vstmcMeaning w src a off).Keeps := ⟨fun _ h => h.storeWindow, fun h => h⟩

theorem Meaning.Keeps.putnMeaning {x : TypeCode} {post : Bool} {d a : SReg} {off : BitVec 6} :
    (putnMeaning x post d a off).Keeps := ⟨fun _ h => h.storeN, fun h => h⟩

theorem Meaning.Keeps.vputnMeaning {post : Bool} {src : VSrc} {a : SReg} {off : BitVec 6} :
    (vputnMeaning post src a off).Keeps := ⟨fun _ h => h.storeN, fun h => h⟩

theorem Meaning.Keeps.getnMeaning {x : TypeCode} {q : HReg} {a : SReg} {off : BitVec 7} :
    (getnMeaning x q a off).Keeps := ⟨fun _ h => .ite ((h.fresh rfl).reserveIn.modMe.modMe.fly) ((h.fresh
        rfl).reserveIn.modMe), fun h => h⟩

theorem Meaning.Keeps.warmMeaning {n : BitVec 3} {lo hi : SReg} {filter : BitVec 4} :
    (warmMeaning n lo hi filter).Keeps := ⟨fun _ h => h.modHere (fun _ hx => hx.rearm), fun h => h⟩

theorem Meaning.Keeps.warmOffMeaning {n : BitVec 3} :
    (warmOffMeaning n).Keeps := by
  refine ⟨fun _ h => ?_, fun h => h⟩
  dsimp only [Machine.warmOffMeaning]
  split
  · exact .ite (h.modHere (fun _ hx => hx.rearm)) h
  · exact h

theorem Meaning.Keeps.wtokMeaning {d : SReg} :
    (wtokMeaning d).Keeps := by
  refine ⟨fun _ h => ?_, fun h => h⟩
  dsimp only [Machine.wtokMeaning]
  split
  · exact h.land
  · exact h.landInput
  · split
    · exact h
    · exact (h.modHere (fun _ hx => hx.keep)).modMe.land.shareIssued.logEntry

theorem Meaning.Keeps.queueLoad {q : HReg} {vec : Bool} {g : Context → Target} {form : State → Nat × Bool} :
    (queueLoad q vec g form).Keeps := ⟨fun _ h => .ite ((h.fresh rfl).reserveIn.countRequests.fly) ((h.fresh
        rfl).reserveIn), fun h => h⟩

theorem Meaning.Keeps.targetStore {heads : List HReg} {src : State → Option Trap} {words : Nat}
    {g : Context → Target} {data : State → List Byte} :
    (targetStore heads src words g data).Keeps := ⟨fun _ h => .ite h.holdStore h.storeFound, fun h => h⟩

theorem Meaning.Keeps.atomicMeaning {code : BitVec 6} {d a c : SReg} {o : Ord} {second : Context → Option Word} :
    (atomicMeaning code d a c o second).Keeps := ⟨fun _ h => .ite ((h.fresh rfl).landLate.holdWrite.cut.acquireIf)
        (.ite ((h.fresh rfl).landLate) ((h.fresh rfl).landLate.flyAtomic)), fun h => h⟩

theorem Meaning.Keeps.qredMeaning {d : QReg} {a c : SReg} {o : Ord} :
    (qredMeaning d a c o).Keeps := ⟨fun _ h => .ite h.holdWrite ((h.fresh rfl).flyAtomic), fun h => h⟩

theorem Meaning.Keeps.caddMeaning {d a c : SReg} {o : Ord} :
    (caddMeaning d a c o).Keeps := by
  refine ⟨fun _ h => ?_, fun h => h⟩
  dsimp only [Machine.caddMeaning]
  split
  · refine State.Canonical.cut ?_
    split
    · exact h.counterStore
    · exact .ite h.captureCounter.modMe.holdCadd.acquireIf ((h.captureCounter.modMe.fresh rfl).fly.dueAt.acquireIf)
    · exact .ite h.holdCadd.acquireIf ((h.fresh rfl).flyAtomic)
  · split
    · exact h.counterStore
    · exact .ite h.captureCounter.modMe.holdCadd.acquireIf ((h.captureCounter.modMe.fresh rfl).fly.dueAt.acquireIf)
    · exact .ite h.holdCadd.acquireIf ((h.fresh rfl).flyAtomic)
  · split
    · exact h.counterStore
    · exact .ite h.captureCounter.modMe.holdCadd.acquireIf ((h.captureCounter.modMe.fresh rfl).fly.dueAt.acquireIf)
    · exact .ite h.holdCadd.acquireIf ((h.fresh rfl).flyAtomic)

theorem Meaning.Keeps.cwaitMeaning {thr : WaitThr} {a c : SReg} {sc : Scope} : (cwaitMeaning thr a c sc).Keeps := by
  unfold Machine.cwaitMeaning
  refine ⟨?_, fun h => h⟩
  intro st s _ h
  dsimp only
  split
  · exact h.modMe.captureRef
  · split
    · exact .ite h.captureRef.modMe h.captureRef.replayMismatch
    · exact h.captureRef.replayMismatch
  · have hread : ∀ (seen read : Option Word), (match seen, read with
        | some v, _ => (v, s)
        | none, some v => (v, s)
        | none, none => s.freeWord).2.Canonical := by
      intro seen read
      cases seen with
      | some v => exact h
      | none =>
        cases read with
        | some v => exact h
        | none => exact h.freeWord rfl
    exact (hread _ _).modMe.waited.shareIssued.logEntry

theorem Meaning.Keeps.creadMeaning {d a c : SReg} {o : Ord} :
    (creadMeaning d a c o).Keeps := by
  refine ⟨fun _ h => ?_, fun h => h⟩
  dsimp only [Machine.creadMeaning]
  split
  · exact .ite ((h.fresh rfl).landLate.flyCore.acquireIf) (.ite h.landInput.noteRead.observe h.landInput.noteRead)
  · exact .ite (.ite ((h.captureCounter.fresh rfl).landLate.modMe.fly.acquire) ((h.captureCounter.fresh
      rfl).landLate.modMe.fly)) ((h.captureCounter.fresh rfl).landLate)
  · exact .ite (.ite ((h.fresh rfl).landLate.countRequests.fly.acquire) ((h.fresh
      rfl).landLate.countRequests.fly)) ((h.fresh rfl).landLate)

theorem Meaning.Keeps.fenceMeaning {k : FenceKind} {sc : Scope} :
    (fenceMeaning k sc).Keeps := ⟨fun _ h => .ite h.observe.modMe.cover.cut h.observe.modMe, fun h => h⟩

theorem Meaning.Keeps.ldcMeaning {x : TypeCode} {q : HReg} {a : SReg} {off : BitVec 7} :
    (ldcMeaning x q a off).Keeps := by
  unfold Machine.ldcMeaning
  exact .queueLoad

theorem Meaning.Keeps.stcMeaning {x : TypeCode} {d a : SReg} {off : BitVec 7} :
    (stcMeaning x d a off).Keeps := by
  unfold Machine.stcMeaning
  exact .targetStore

theorem Meaning.Keeps.ldhMeaning {x : TypeCode} {q : HReg} {a : SReg} {off : BitVec 7} :
    (ldhMeaning x q a off).Keeps := by
  unfold Machine.ldhMeaning
  exact .queueLoad

theorem Meaning.Keeps.sthMeaning {x : TypeCode} {d a : SReg} {off : BitVec 7} :
    (sthMeaning x d a off).Keeps := by
  unfold Machine.sthMeaning
  exact .targetStore

theorem Meaning.Keeps.mcallMeaning {routine : BitVec 10} {o : CmdOrd} :
    (mcallMeaning routine o).Keeps := by
  refine ⟨fun _ h => ?_, fun h => h⟩
  dsimp only [Machine.mcallMeaning]
  exact h.keep.modHere (fun _ hx => hx.keep)

theorem Meaning.Keeps.mclaimMeaning : mclaimMeaning.Keeps := by
  refine ⟨fun _ h => .ite h (h.modHere fun _ hx => hx.keep).modMe, fun h => ?_⟩
  dsimp only [Machine.mclaimMeaning]
  refine h.modHere fun x hx => ?_
  split
  · exact Tile.Canonical.keep hx
  · exact hx

theorem Meaning.Keeps.mfreeMeaning :
    mfreeMeaning.Keeps := ⟨fun _ h => h.defer, fun h => h⟩

theorem Meaning.Keeps.mparMeaning {k : KReg} {src : MparSrc} :
    (mparMeaning k src).Keeps := ⟨fun _ h => h.land, fun h => h⟩

theorem Meaning.Keeps.mpldMeaning {routine : BitVec 10} {a : SReg} :
    (mpldMeaning routine a).Keeps := ⟨fun _ h => h.coreLoadCapture.modHere (fun _ hx => hx.keep), fun h => h⟩

theorem Meaning.Keeps.gloadMeaning {a : SReg} :
    (gloadMeaning a).Keeps := ⟨fun _ h => h.keep.modHere (fun _ hx => hx.keep), fun h => h⟩

theorem Meaning.Keeps.grunMeaning {sat : Bool} {f : Fmt} {a c : SReg} {o : CmdOrd} :
    (grunMeaning sat f a c o).Keeps := ⟨fun _ h => h.keep.modHere (fun _ hx => hx.keep), fun h => h⟩

theorem Meaning.Keeps.transferMeaning {tiled : Bool} {ch : Chan} {a : SReg} :
    (transferMeaning tiled ch a).Keeps := by
  refine ⟨fun _ h => ?_, fun h => h⟩
  dsimp only [Machine.transferMeaning]
  exact (h.coreLoadCapture.keep.modHere (fun _ hx => hx.keep.setChannel)).modMe

theorem Meaning.Keeps.xpromMeaning {d : SReg} {ch : Chan} :
    (xpromMeaning d ch).Keeps := ⟨fun _ h => h.landInput, fun h => h⟩

theorem Meaning.Keeps.xwmkMeaning {d : SReg} {ch : Chan} :
    (xwmkMeaning d ch).Keeps := ⟨fun _ h => h.landInput, fun h => h⟩

theorem Meaning.Keeps.sleeptMeaning {a : SReg} :
    (sleeptMeaning a).Keeps := ⟨fun _ h => h, fun h => h⟩

theorem Meaning.Keeps.hcfgMeaning {tgt : BitVec 5} {src : HcfgSrc} :
    (hcfgMeaning tgt src).Keeps := by
  refine ⟨fun _ h => ?_, fun h => h⟩
  dsimp only [Machine.hcfgMeaning]
  split
  · refine State.Canonical.defer ?_
    split
    · exact h.coreLoadCapture
    · exact h
  · refine State.Canonical.defer ?_
    split
    · exact h.coreLoadCapture
    · exact h

theorem Meaning.Keeps.hpushMeaning {q : HReg} {src : SvReg} :
    (hpushMeaning q src).Keeps := by
  refine ⟨fun _ h => ?_, fun h => h⟩
  dsimp only [Machine.hpushMeaning]
  exact (h.modHere (fun _ hx => hx.writeElem.wake)).modMe

theorem Meaning.Keeps.hpopMeaning {q : HReg} {dst : SvReg} :
    (hpopMeaning q dst).Keeps := by
  refine ⟨fun _ h => ?_, fun h => h⟩
  dsimp only [Machine.hpopMeaning]
  refine State.Canonical.defer ?_
  split
  · exact h.land
  · exact h.land

theorem Meaning.Keeps.scanMeaning {f : Fmt} {a : VReg} {q : HReg} {ch : Chan} {carry : Bool} {m : MReg}
    {_acq rel : Bool} :
    (scanMeaning f a q ch carry m _acq rel).Keeps := by
  refine ⟨fun h0 h => ?_, fun h => h⟩
  dsimp only [Machine.scanMeaning]
  exact h0.scanEffect h

theorem Meaning.Keeps.scanaMeaning {f : ScanaFmt} {a b : VReg} {q : HReg} {ch : Chan} {carry : Bool} {m : MReg} :
    (scanaMeaning f a b q ch carry m).Keeps := by
  refine ⟨fun h0 h => ?_, fun h => h⟩
  dsimp only [Machine.scanaMeaning]
  exact h0.scanEffect h

theorem Meaning.Keeps.sbarMeaning {level : BitVec 3} : (sbarMeaning level).Keeps := by
  refine ⟨fun _ h => ?_, fun h => h.sbarArrive⟩
  dsimp only [Machine.sbarMeaning]
  exact h.modMe

theorem Meaning.Keeps.rsigMeaning {sel : RsigSel} {d : SReg} :
    (rsigMeaning sel d).Keeps := ⟨fun _ h => h.land, fun h => h⟩

theorem Meaning.Keeps.rvoteMeaning {d : SReg} :
    (rvoteMeaning d).Keeps := ⟨fun _ h => .ite ((h.fresh rfl).landLate.cut) h.landInput, fun h => h⟩

theorem Meaning.Keeps.rinjMeaning {a b : SReg} :
    (rinjMeaning a b).Keeps := ⟨fun _ h => .ite h.modMe h, fun h => h⟩

theorem Meaning.Keeps.launchMeaning {d a : SReg} {q : BitVec 2} :
    (launchMeaning d a q).Keeps := ⟨fun _ h => .ite ((h.fresh rfl).landLate.coreLoadCapture.setQueueOf) ((h.fresh
        rfl).landLate.coreLoadCapture), fun h => h⟩

theorem Meaning.Keeps.cancelMeaning {d a : SReg} :
    (cancelMeaning d a).Keeps := by
  refine ⟨fun _ h => ?_, fun h => h⟩
  dsimp only [Machine.cancelMeaning]
  refine .ite ?_ ?_
  · exact .ite ((h.fresh rfl).landLate.keep) ((h.fresh rfl).landLate)
  · refine .ite ?_ ?_
    · split
      · exact h.landInput.withdraw
      · exact h.landInput
    · exact h.landInput

theorem Meaning.Keeps.yieldMeaning :
    yieldMeaning.Keeps := ⟨fun _ h => h.defer, fun h => h⟩

theorem Meaning.Keeps.sysMeaning {imm : BitVec 16} :
    (sysMeaning imm).Keeps := ⟨fun _ h => h, fun h => h⟩

/-- A meaning that is the one an instruction has. -/
theorem Meaning.Keeps.of_some {m m' : Meaning} (hm : some m' = some m) (h : m'.Keeps) : m.Keeps :=
  Option.some.inj hm ▸ h

/-- What every instruction does keeps the memories in canonical form. -/
theorem meaningOf_keeps {i : Instr} {m : Meaning} (hm : meaningOf i = some m) : m.Keeps := by
  cases i with
  | nop => exact .of_some hm .nopMeaning
  | add | sub | and | andn | or | xor => exact .of_some hm .alu2
  | shl | shr | sra | rol | mul | mulh | mulhn | max | maxn | min | minn | mov | sel | addi | andi | ori | xori |
    movi | movhi => exact .of_some hm .scalarMeaning
  | div | divn | rem | remn => exact .of_some hm .dividerMeaning
  | clz | ctz | popc => exact .of_some hm .countMeaning
  | cmp | plog | cmpi => exact .of_some hm .predMeaning
  | br => exact .of_some hm .brMeaning
  | brl => exact .of_some hm .brlMeaning
  | bri => exact .of_some hm .briMeaning
  | loop => exact .of_some hm .loopMeaning
  | loopmStart => exact .of_some hm .loopmStartMeaning
  | loopmEnd => exact .of_some hm .loopmEndMeaning
  | mfsr => exact .of_some hm .mfsrMeaning
  | mtsr => exact .of_some hm .mtsrMeaning
  | trap => exact .of_some hm .trapMeaning
  | eret => exact .of_some hm .eretMeaning
  | exit => exact .of_some hm .exitMeaning
  | vand | vor | vxor | vadd | vsub | vmul | vmax | vmin => exact .of_some hm .lanes2
  | vsel => exact .of_some hm .vselMeaning
  | vcnt | vabs | vneg => exact .of_some hm .lanes1
  | vmovs | vrand | vperm | vpermPattern | vext | vredi => exact .of_some hm .plainLanes
  | vrandEnt => exact .of_some hm .vrandEntMeaning
  | vshl | vshr | vsra => exact .of_some hm .shiftLanes
  | vshlImm | vshrImm | vsraImm => exact .of_some hm .shiftLanesImm
  | vcompr => exact .of_some hm .vcomprMeaning
  | vexpd => exact .of_some hm .vexpdMeaning
  | mlog | vcmp => exact .of_some hm .maskMeaning
  | qclr => exact .of_some hm .qclrMeaning
  | qneg => exact .of_some hm .qnegMeaning
  | qtest => exact .of_some hm .qtestMeaning
  | qacc | qadd | qdot => exact .of_some hm .accumulateMeaning
  | vfma | vfms => exact .of_some hm .fusedMeaning
  | vscan | vcvt | vcvts | qrnd => exact .of_some hm .laneMeaning
  | vrcp | vrsq | vsqrt | vexp2 | vlog2 | vtanh | vsigm => exact .of_some hm .fnMeaning
  | lds => exact .of_some hm .ldsMeaning
  | sts => exact .of_some hm .stsMeaning
  | vlds | qrest => exact .of_some hm .coreLoad
  | vldsm => exact .of_some hm .vldsmMeaning
  | vldsx => exact .of_some hm .vldsxMeaning
  | vgts => exact .of_some hm .vgtsMeaning
  | vscs => exact .of_some hm .vscsMeaning
  | vsts => exact .of_some hm .vstsMeaning
  | qsave => exact .of_some hm .qsaveMeaning
  | stmc => exact .of_some hm .stmcMeaning
  | vstmc => exact .of_some hm .vstmcMeaning
  | putn => exact .of_some hm .putnMeaning
  | vputn => exact .of_some hm .vputnMeaning
  | getn => exact .of_some hm .getnMeaning
  | warm => exact .of_some hm .warmMeaning
  | warmOff => exact .of_some hm .warmOffMeaning
  | wtok => exact .of_some hm .wtokMeaning
  | ldd | vldd | vldc | vldh => exact .of_some hm .queueLoad
  | std | vstd | vstc | vsth => exact .of_some hm .targetStore
  | aadd | acas | amaxi | amini | axch | axor => exact .of_some hm .atomicMeaning
  | qred => exact .of_some hm .qredMeaning
  | cadd => exact .of_some hm .caddMeaning
  | cwait => exact .of_some hm .cwaitMeaning
  | cread => exact .of_some hm .creadMeaning
  | fence => exact .of_some hm .fenceMeaning
  | ldc => exact .of_some hm .ldcMeaning
  | stc => exact .of_some hm .stcMeaning
  | ldh => exact .of_some hm .ldhMeaning
  | sth => exact .of_some hm .sthMeaning
  | mcall => exact .of_some hm .mcallMeaning
  | mclaim => exact .of_some hm .mclaimMeaning
  | mfree => exact .of_some hm .mfreeMeaning
  | mpar => exact .of_some hm .mparMeaning
  | mpld => exact .of_some hm .mpldMeaning
  | gload => exact .of_some hm .gloadMeaning
  | grun => exact .of_some hm .grunMeaning
  | xcpy | xcpyt => exact .of_some hm .transferMeaning
  | xprom => exact .of_some hm .xpromMeaning
  | xwmk => exact .of_some hm .xwmkMeaning
  | sleept => exact .of_some hm .sleeptMeaning
  | hcfg => exact .of_some hm .hcfgMeaning
  | hpush => exact .of_some hm .hpushMeaning
  | hpop => exact .of_some hm .hpopMeaning
  | scan => exact .of_some hm .scanMeaning
  | scana => exact .of_some hm .scanaMeaning
  | sbar => exact .of_some hm .sbarMeaning
  | rsig => exact .of_some hm .rsigMeaning
  | rvote => exact .of_some hm .rvoteMeaning
  | rinj => exact .of_some hm .rinjMeaning
  | launch => exact .of_some hm .launchMeaning
  | cancel => exact .of_some hm .cancelMeaning
  | yield => exact .of_some hm .yieldMeaning
  | sys => exact .of_some hm .sysMeaning
  | _ => cases hm

theorem State.Canonical.effects {acts : List Active} {s t : State} (hs : s.Canonical) (h : t.Canonical)
    (ha : ∀ a ∈ acts, a.2.Keeps) :
    (acts.foldl (fun st a => a.2.effect (s.atPos a.1) (st.atPos a.1)) t).Canonical := by
  induction acts generalizing t with
  | nil => exact h
  | cons a as ih =>
    exact ih ((ha a (.head _)).effect hs.atPos h.atPos) fun b hb => ha b (.tail _ hb)

theorem State.Canonical.blockOf {acts : List Active} {pops : BitVec 16} {s t : State} {b : BlockCond}
    {f : State → State}
    (h : t.Canonical) (ha : ∀ a ∈ acts, a.2.Keeps) (hf : blockOf acts pops s = some (b, f)) : (f t).Canonical := by
  unfold Machine.blockOf at hf
  split at hf
  · cases hf
    exact h
  · obtain ⟨a, hmem, he⟩ := List.exists_of_findSome?_eq_some hf
    obtain ⟨b', -, he⟩ := Option.map_eq_some_iff.1 he
    cases he
    exact (ha a hmem).onBlock h

theorem State.Canonical.issueActive {acts : List Active} {pops stamp : BitVec 16} {s : State} (h : s.Canonical)
    (ha : ∀ a ∈ acts, a.2.Keeps) {r : Issue} (hr : issueActive acts pops stamp s = r) : r.state.Canonical := by
  subst hr
  unfold Machine.issueActive
  split
  · exact h.raise
  · split
    · rename_i hf
      exact (h.waitOn.blockOf ha hf).blockOn
    · extract_lets frame
      split
      · exact h.raise
      · split
        · exact h
        · split
          · exact h.park
          · split
            · exact h.raise
            · exact h.effects h ha

theorem State.Canonical.runSyllable {i : Instr} {m : Meaning} {s : State} (h : s.Canonical) (hm : m.Keeps) :
    EndsCanonical (runSyllable i m s) :=
  .ite (.next h.raise) (.ite (.next h.raise) (.next (h.issueActive (by simpa using hm) rfl)))

theorem keeps_of_mem_activeOf {c : Context} {b : Bundle} {a : Active} (ha : a ∈ activeOf c b) : a.2.Keeps := by
  obtain ⟨p, -, hp⟩ := List.mem_filterMap.1 ha
  split at hp
  · obtain ⟨-, hp⟩ := Option.ite_none_right_eq_some.1 hp
    obtain ⟨m, hm, rfl⟩ := Option.map_eq_some_iff.1 hp
    exact meaningOf_keeps hm
  all_goals cases hp

/-! #### Machine/Present -/

theorem State.Canonical.performOwed {s : State} {o : Owed} (h : s.Canonical) :
    (s.performOwed o).Canonical := by
  unfold State.performOwed
  split
  · exact h
  · rename_i m hm
    extract_lets c st
    split
    · exact h.askFor
    · split
      · exact h.forgetOwed.modMe.pend
      · exact ((meaningOf_keeps hm).effect h.setMe.atPos h.setMe.atPos).modMe

theorem State.Canonical.settleOwed {s : State} (h : s.Canonical) :
    (s.settleOwed).Canonical := .ite ((h.foldl (fun _ _ hs => .ite hs.performOwed hs)).modMe) h

theorem State.Canonical.issueBundle {s : State} {b : Bundle} (h : s.Canonical) :
    (s.issueBundle b).Canonical := by
  dsimp only [State.issueBundle]
  split
  · rename_i hr
    exact h.observe.issueActive (fun _ => keeps_of_mem_activeOf) hr
  · rename_i hr
    exact (h.observe.issueActive (fun _ => keeps_of_mem_activeOf) hr).noteOwed.endBundle.gatherConflict

theorem State.Canonical.presentBundle {s : State} (h : s.Canonical) :
    (s.presentBundle).Canonical := by
  dsimp only [State.presentBundle]
  split
  · exact h.raise
  · split
    · exact h.raise
    · split
      · exact (State.Canonical.ite h.pullTraps.keepOverflow h.pullTraps).deliver
      · exact (State.Canonical.ite h.pullTraps.keepOverflow h.pullTraps).issueBundle

theorem State.Canonical.atHold {s : State} (h : s.Canonical) :
    (s.atHold).Canonical := by
  dsimp only [State.atHold]
  split
  · exact h.shiftReplica.presentBundle
  · exact h.blockOn

theorem State.Canonical.present {s : State} (h : s.Canonical) :
    (s.present).Canonical := by
  dsimp only [State.present]
  refine .ite ?_ ?_
  · exact h.replayPump.modMe
  · split
    · exact h.replayPump.commitLandings.raise
    · exact .ite h.replayPump.commitLandings.atHold h.replayPump.commitLandings.presentBundle

theorem State.Canonical.settleTile {s : State} {t : TileId} (h : s.Canonical) :
    (s.settleTile t).Canonical := h.foldl (fun _ _ hs => .ite hs hs.keep.settleOwed)

theorem State.Canonical.presentTile {s0 : State} {t : TileId} (h : s0.Canonical) :
    (s0.presentTile t).Canonical := by
  dsimp only [State.presentTile]
  split
  · exact h.settleTile.keep.present
  · exact h.settleTile

theorem State.Canonical.execBundlePresentation {t : TileId} {s : State} (h : s.Canonical) :
    EndsCanonical (execBundlePresentation t s) := .next h.presentTile

theorem State.Canonical.execStampReached {t : TileId} {s : State} (h : s.Canonical) :
    EndsCanonical (execStampReached t s) := by
  dsimp only [Machine.execStampReached]
  split
  · exact .ite (.next h.keep.present) (.next h)
  · exact .next h

/-! #### Machine/Dispatch -/

theorem State.Canonical.exec {i : Instr} {s : State} (h : s.Canonical) : EndsCanonical (exec i s) := by
  cases hm : meaningOf i with
  | some m =>
    rw [exec_meaning i m s hm]
    exact h.runSyllable (meaningOf_keeps hm)
  | none =>
    cases i with
    | bundlePresentation => exact h.execBundlePresentation
    | issueSelect => exact h.execIssueSelect
    | lateValueArrival => exact h.execLateValueArrival
    | blockConditionClears => exact h.execBlockConditionClears
    | stampReached => exact h.execStampReached
    | sleepExpiry => exact h.execSleepExpiry
    | startPulse => exact h.execStartPulse
    | barrierRelease => exact h.execBarrierRelease
    | walkerAnswer => exact h.execWalkerAnswer
    | faultService => exact h.execFaultService
    | faultAnswer => exact h.execFaultAnswer
    | bankReturn => exact h.execBankReturn
    | remoteRefusal => exact h.execRemoteRefusal
    | shootdownAck => exact h.execShootdownAck
    | shootdownComplete => exact h.execShootdownComplete
    | migrationScan => exact h.execMigrationScan
    | homePortAccess => exact h.execHomePortAccess
    | counterWatchAnswer => exact h.execCounterWatchAnswer
    | incomingNWrite => exact h.execIncomingNWrite
    | queueElementDelivery => exact h.execQueueElementDelivery
    | multicastLanding => exact h.execMulticastLanding
    | transferStart => exact h.execTransferStart
    | transferChunk => exact h.execTransferChunk
    | channelFaultAnswer => exact h.execChannelFaultAnswer
    | promiseExpiry => exact h.execPromiseExpiry
    | transferComplete => exact h.execTransferComplete
    | mxuDenseStep => exact h.execMxuDenseStep
    | mxuSparseStep => exact h.execMxuSparseStep
    | mxuWriteOut => exact h.execMxuWriteOut
    | mxuClear => exact h.execMxuClear
    | mxuOperationComplete => exact h.execMxuOperationComplete
    | mxuRoutineRunaway => exact h.execMxuRoutineRunaway
    | mxuAsidClear => exact h.execMxuAsidClear
    | geuLoad => exact h.execGeuLoad
    | geuRun => exact h.execGeuRun
    | geuRowDeliver => exact h.execGeuRowDeliver
    | geuComplete => exact h.execGeuComplete
    | scanOperationStart => exact h.execScanOperationStart
    | scanDelivery => exact h.execScanDelivery
    | carryArrival => exact h.execCarryArrival
    | tongsDelivery => exact h.execTongsDelivery
    | voteStart => exact h.execVoteStart
    | voteResult => exact h.execVoteResult
    | dieLoss => exact h.execDieLoss
    | drainComplete => exact h.execDrainComplete
    | completionAdd => exact h.execCompletionAdd
    | preemption => exact h.execPreemption
    | restore => exact h.execRestore
    | launchQueueProdWrite => exact h.execLaunchQueueProdWrite
    | launchQueueErrClear => exact h.execLaunchQueueErrClear
    | recordAcceptance => exact h.execRecordAcceptance
    | forwardedRecord => exact h.execForwardedRecord
    | recordAdmission => exact h.execRecordAdmission
    | reserveRequest => exact h.execReserveRequest
    | dispatch => exact h.execDispatch
    | asidCreate seq nomig n => exact h.execAsidCreate (seq := seq) (nomig := nomig) (n := n)
    | asidRetire => exact h.execAsidRetire
    | asidRetireComplete => exact h.execAsidRetireComplete
    | tensorDefine => exact h.execTensorDefine
    | tensorFree => exact h.execTensorFree
    | cmap => exact h.execCmap
    | hwinAdd => exact h.execHwinAdd
    | hwinRemove => exact h.execHwinRemove
    | pinAnswer => exact h.execPinAnswer
    | recordAbort => exact h.execRecordAbort
    | status => exact h.execStatus
    | logRead seq offset => exact h.execLogRead (_offset := offset)
    | warmReset => exact h.execWarmReset
    | warmResetComplete => exact h.execWarmResetComplete
    | coldReset => exact h.execColdReset
    | evqConsWrite => exact h.execEvqConsWrite
    | evqSizeWrite => exact h.execEvqSizeWrite
    | evqStatWrite => exact h.execEvqStatWrite
    | ebudSetWrite => exact h.execEbudSetWrite
    | registerWrite => exact h.execRegisterWrite
    | correctedErrorReport => exact h.execCorrectedErrorReport
    | meterAdvance => exact h.execMeterAdvance
    | powerWindowEnd => exact h.execPowerWindowEnd
    | thermalEmergency => exact h.execThermalEmergency
    | thermalEmergencyEnd => exact h.execThermalEmergencyEnd
    | thermalShutdown => exact h.execThermalShutdown
    | linkLoss => exact h.execLinkLoss
    | stopGo => exact h.execStopGo
    | mmpCoreReset => exact h.execMmpCoreReset
    | _ => cases hm

/-! #### Machine/Due -/

theorem State.Canonical.stepTile {s : State} (h : s.Canonical) :
    EndsCanonical (stepTile s) := by
  dsimp only [Machine.stepTile]
  split
  · exact h.keep.exec
  · split
    · exact h.keep.exec
    · exact .next h.tick

theorem State.Canonical.runAgenda {e : Instr} {s : State} (h : s.Canonical) :
    EndsCanonical (runAgenda e s) := by
  dsimp only [Machine.runAgenda]
  split
  · exact .next h
  · exact h.exec

theorem State.Canonical.stepAgenda {s : State} (h : s.Canonical) :
    EndsCanonical (stepAgenda s) := by
  dsimp only [Machine.stepAgenda]
  split
  · exact .ite h.keep.runAgenda h.stepTile
  · exact h.stepTile

theorem State.Canonical.stepAny {s : State} (h : s.Canonical) :
    EndsCanonical (stepAny s) := by
  dsimp only [Machine.stepAny]
  refine .ite ?_ ?_
  · split
    · exact h.keep.exec
    · exact h.stepAgenda
  · exact h.stepAgenda

/-! #### Machine/Step -/

theorem State.Canonical.step {s : State} (h : s.Canonical) : EndsCanonical (step s) := h.stepAny

/-- Settles O7: a canonical state's step ends in a canonical state. -/
theorem stepKeepsMemoriesCanonical : Obligations.StepKeepsMemoriesCanonical := by
  intro s t hs ht
  exact (State.canonical_iff t).1 (((State.canonical_iff s).2 hs).step.of_next ht)

end Sys2Proof.Machine
end

section
/-! ### Commands of the host to the management processor (R158, R164, R166, R167, R178, R180) -/

namespace Sys2Proof.Machine

/-- Outside the safe state, and with no request unanswered, a command is carried out. -/
theorem command_acts {z : State} {seq : BitVec 16} {act : State → State} (hs : z.takeRequest.platform.safe = false)
    (hp : z.takeRequest.mmp.pending = none) : z.command seq act = act z.takeRequest := by
  simp [State.command, hs, hp]

section
variable {z s1 s2 s3 : State} {seq : BitVec 16} {a : BitVec 12} {e : AsidEntry}
  (hs : z.takeRequest.platform.safe = false) (hp : z.takeRequest.mmp.pending = none)
include hs hp

theorem exec_asidCreate_full {nomig : Bool} {n : BitVec 32} (hf : freeAsid z.takeRequest.mmp.asids = none) :
    exec (.asidCreate seq nomig n) z = .next (z.takeRequest.reply seq 2 []) := by
  change Host.Outcome.next _ = _
  rw [command_acts hs hp, hf]

theorem exec_asidCreate_creates {nomig : Bool} {n : BitVec 32} {id : BitVec 12} {f g h : Nat}
    (hf : freeAsid z.takeRequest.mmp.asids = some id) (h1 : z.takeRequest.takeFrames 2 = some (f, s1))
    (h2 : s1.takeFrames 1 = some (h, s2)) (h3 : s2.takeFrames (tableFrames (8 * n.toNat)) = some (g, s3)) :
    exec (.asidCreate seq nomig n) z = .next ((s3.modMmp (fun m => { m with asids := m.asids ++
          [{ id := id, valid := true, retiring := false, nomig := nomig, dcount := 0, dtb := 0, fttb := g * 65536
             fntiles := n.toNat, cpt := f * 65536, hwt := h * 65536, windows := [], cmaps := [], defs := [],
             evicted := [] }] })).reply seq 0 [id.setWidth 64]) := by
  change Host.Outcome.next _ = _
  rw [command_acts hs hp]
  simp only [hf, h1, h2, h3, Option.bind_some, Option.map_some]

theorem exec_asidRetire_retires (ho : z.takeRequest.openAsid a = some e) : exec (.asidRetire seq a) z
    = .next ((z.takeRequest.modAsid a (fun e => { e with retiring := true })).reply seq 0 []) := by
  change Host.Outcome.next _ = _
  rw [command_acts hs hp, ho]

theorem exec_cmap_maps {addr len : Word} (ho : z.takeRequest.openAsid a = some e) (ha : addr.toNat % 2 ^ 21 = 0)
    (hl : len.toNat % 2 ^ 21 = 0) (h0 : len ≠ 0) (hm : addr.toNat + len.toNat ≤ 2 ^ 48) :
    exec (.cmap seq a addr len) z = .next ((z.takeRequest.modAsid a (fun e =>
      { e with cmaps := e.cmaps ++ [(addr.toNat, len.toNat)] })).reply seq 0 []) := by
  have hn : len.toNat ≠ 0 := fun h => h0 (BitVec.eq_of_toNat_eq h)
  change Host.Outcome.next _ = _
  rw [command_acts hs hp, ho]
  exact congrArg _ (if_neg (by simp only [ha, hl, ne_eq, not_true, false_or, not_or]; exact ⟨hn, not_lt.2 hm⟩))

theorem exec_hwinAdd_adds {addr : Word} {pages : BitVec 32} {perm : BitVec 4} {w : HostWindow}
    (ho : z.takeRequest.openAsid a = some e)
    (hw : w = { hva := addr, pages := pages, bus := 0, valid := true, resident := false, perm := perm })
    (ha : addr.toNat % 4096 = 0) (h0 : pages ≠ 0) (hm : addr.toNat + pages.toNat * 4096 ≤ 2 ^ 64)
    (hx : ∀ x ∈ e.windows, w.overlaps x = false) (hl : e.windows.length < 1024) :
    exec (.hwinAdd seq a addr pages perm) z = .next ((z.takeRequest.setWindows a (insertWindow w)).reply seq 0 []) := by
  subst hw
  change Host.Outcome.next _ = _
  rw [command_acts hs hp, ho]
  refine congrArg _ ((if_neg ?_).trans (if_neg (not_le.2 hl)))
  simp only [ha, h0, not_lt.2 hm, ne_eq, not_true, false_or, List.any_eq_true, not_exists, not_and]
  exact fun x hmem => Bool.eq_false_iff.1 (hx x hmem)

theorem exec_hwinRemove_removes {addr : Word} (hl : z.takeRequest.liveAsid a = some e)
    (hw : ∃ y ∈ e.windows, y.hva = addr ∧ y.valid = true) : exec (.hwinRemove seq a addr) z
      = .next ((z.takeRequest.shootWindow a addr (some seq)).modMmp (fun m => { m with pending := some seq })) := by
  change Host.Outcome.next _ = _
  rw [command_acts hs hp, hl]
  exact congrArg _ (if_pos (by simpa [List.any_eq_true] using hw))

/-- A tensor that the arguments name for the first time. -/
theorem exec_tensorDefine_new {t : BitVec 20} {desc : Vector Word 8} {place stack : BitVec 2} {perm : BitVec 4}
    {ttb : Nat} (ho : z.takeRequest.openAsid a = some e)
    (hb : ¬ (t = 0 ∨ t = 0xFFFFF ∨ place = 3 ∨ e.defs.any (fun d => d.1 == t.toNat) = true))
    (hd : descAccepted desc = true) (hg : z.takeRequest.growDescs e t.toNat = some s1)
    (hn : s1.newTileTable (descOf desc).ntiles place stack perm = some (ttb, s2)) :
    exec (.tensorDefine seq a t desc place stack perm none) z
      = .next (((s2.writeDesc a t.toNat (withTable desc ttb (descOf desc).ntiles)).modAsid a (fun x =>
          { x with defs := x.defs ++ [(t.toNat, place, stack, perm, none)] })).reply seq 0 []) := by
  change Host.Outcome.next _ = _
  rw [command_acts hs hp]
  simp only [ho, if_neg hb, hd, hg, hn, Bool.not_true, Bool.false_eq_true, if_false]

theorem exec_tensorDefine_malformed {t : BitVec 20} {desc : Vector Word 8} {place stack : BitVec 2} {perm : BitVec 4}
    (ho : z.takeRequest.openAsid a = some e)
    (hb : ¬ (t = 0 ∨ t = 0xFFFFF ∨ place = 3 ∨ e.defs.any (fun d => d.1 == t.toNat) = true))
    (hd : descAccepted desc = false) :
    exec (.tensorDefine seq a t desc place stack perm none) z = .next (z.takeRequest.reply seq 1 []) := by
  change Host.Outcome.next _ = _
  rw [command_acts hs hp]
  simp only [ho, if_neg hb, hd, Bool.not_false, if_true]

theorem exec_tensorDefine_alias {t k : BitVec 20} {desc bw : Vector Word 8} {place stack : BitVec 2} {perm : BitVec 4}
    (ho : z.takeRequest.openAsid a = some e)
    (hb : ¬ (t = 0 ∨ t = 0xFFFFF ∨ place = 3 ∨ e.defs.any (fun d => d.1 == t.toNat) = true))
    (hk : tableDesc z.takeRequest a k.toNat = some bw) (hv : (descOf bw).valid = true)
    (hsh : sameShape (descOf desc) (descOf bw) = true)
    (hd : descAccepted (withTable desc (descOf bw).ttb (descOf bw).ntiles) = true)
    (hg : z.takeRequest.growDescs e t.toNat = some s1) :
    exec (.tensorDefine seq a t desc place stack perm (some k)) z
      = .next (((s1.writeDesc a t.toNat (withTable desc (descOf bw).ttb (descOf bw).ntiles)).modAsid a (fun x =>
          { x with defs := x.defs ++ [(t.toNat, place, stack, perm, some k.toNat)] })).reply seq 0 []) := by
  change Host.Outcome.next _ = _
  rw [command_acts hs hp]
  simp only [ho, if_neg hb, hk, Option.filter_some, hv, hsh, hd, hg, if_true, Bool.not_true, Bool.or_self,
    Bool.false_eq_true, if_false]

theorem exec_tensorFree_alias {t : BitVec 20} {d : Vector Word 8} {x : Nat × BitVec 2 × BitVec 2 × BitVec 4 × Option Nat}
    (hl : z.takeRequest.liveAsid a = some e) (hd : tableDesc z.takeRequest a t.toNat = some d)
    (hv : (descOf d).valid = true) (hx : e.defs.find? (fun y => y.1 == t.toNat) = some x)
    (hb : x.2.2.2.2.isSome = true) : exec (.tensorFree seq a t) z
      = .next (((z.takeRequest.clearDescs a (freedWith e t.toNat)).modAsid a (fun x =>
          { x with defs := x.defs.filter (fun y => !(freedWith e t.toNat).contains y.1) })).reply seq 0 []) := by
  change Host.Outcome.next _ = _
  rw [command_acts hs hp]
  simp only [hl, hd, Option.filter_some, hv, hx, hb, if_true]

theorem exec_tensorFree_base {t : BitVec 20} {d : Vector Word 8} {x : Nat × BitVec 2 × BitVec 2 × BitVec 4 × Option Nat}
    (hl : z.takeRequest.liveAsid a = some e) (hd : tableDesc z.takeRequest a t.toNat = some d)
    (hv : (descOf d).valid = true) (hx : e.defs.find? (fun y => y.1 == t.toNat) = some x)
    (hb : x.2.2.2.2 = none) : exec (.tensorFree seq a t) z
      = .next (((((z.takeRequest.shootTensor a (descOf d) seq).clearDescs a (freedWith e t.toNat)).modAsid a (fun x =>
          { x with defs := x.defs.filter (fun y => !(freedWith e t.toNat).contains y.1) })).modMmp (fun m => { m with
            pending := some seq
            tables := m.tables ++ [(seq, (descOf d).ttb, 8 * (descOf d).ntiles)] })).replyShot (some seq)) := by
  change Host.Outcome.next _ = _
  rw [command_acts hs hp]
  simp only [hl, hd, Option.filter_some, hv, hx, hb, if_true, Option.isSome_none, Bool.false_eq_true, if_false]

theorem exec_pinAnswer_answers {req : Nat} {p : PinReq} {bus : Option Word}
    (hf : z.takeRequest.mmp.pins.find? (fun x => x.req == req) = some p) :
    exec (.pinAnswer seq req bus) z = .next ((match bus with
      | some b => ((((z.takeRequest.modMmp (fun m => { m with pins := m.pins.filter (fun x => x.req != req) })).unpinWaiters
          req).writePin p b).answerServed p.asid)
      | none => ((z.takeRequest.modMmp (fun m => { m with pins := m.pins.filter (fun x => x.req != req) })).unpinWaiters
          req).refuseNeed p.asid p.need 4).reply seq 0 []) := by
  change Host.Outcome.next _ = _
  cases bus <;> simp only [command_acts hs hp, hf]

end

/-- A retiring address space that nothing uses any more is gone. -/
theorem exec_asidRetireComplete_frees {z : State} {a : BitVec 12} {e : AsidEntry} (hl : z.liveAsid a = some e)
    (hr : e.retiring = true) (hu : z.asidInUse a = false) (hsh : ∀ x ∈ z.mmp.shoots, x.asid ≠ a)
    (ht : ∀ x ∈ tileEntries z e, (hbmWord z x 8).testBit 63 = false) (hc : capEntries z e = [])
    (hw : ∀ x ∈ e.windows, x.valid = false) : exec (.asidRetireComplete a) z
      = .next (((z.freeTables e).forgetAsid a).modMmp (fun m => { m with asids := m.asids.filter (fun x => x.id != a) })) := by
  have hs : z.mmp.shoots.any (fun x => x.asid == a) = false := by simpa [List.any_eq_false] using hsh
  have ht : (tileEntries z e).filter (fun x => (hbmWord z x 8).testBit 63) = [] := by
    simpa [List.filter_eq_nil_iff] using ht
  have hw : e.windows.filter (fun w => w.valid) = [] := by simpa [List.filter_eq_nil_iff] using hw
  change execAsidRetireComplete a z = _
  unfold execAsidRetireComplete
  simp only [hl, hr, hu, hs, ht, hc, hw, Bool.not_true, Bool.or_self, Bool.false_eq_true, if_false, List.isEmpty_nil,
    Bool.and_self, if_true]

/-- Settles O58, command by command. -/
theorem commandsAct : Obligations.CommandsAct := by
  intro z s1 s2 s3 seq a id t nomig n pages f g h ttb e desc place stack perm addr len b req p w s hs hp
  have hnew : t ≠ 0 → t ≠ 0xFFFFF → place ≠ 3 → (∀ d ∈ e.defs, d.1 ≠ t.toNat) →
      ¬ (t = 0 ∨ t = 0xFFFFF ∨ place = 3 ∨ e.defs.any (fun d => d.1 == t.toNat) = true) := by
    rintro h0 h1 h3 hd (h | h | h | h)
    · exact h0 h
    · exact h1 h
    · exact h3 h
    · obtain ⟨d, hmem, he⟩ := List.any_eq_true.1 h
      exact hd d hmem (beq_iff_eq.1 he)
  refine ⟨exec_asidCreate_creates hs hp, exec_asidCreate_full hs hp, fun ho => ⟨exec_asidRetire_retires hs hp ho,
    exec_cmap_maps hs hp ho, exec_hwinAdd_adds hs hp ho, fun h0 h1 h3 hd => ?_, fun h0 h1 h3 hd => ?_,
    fun h0 h1 h3 hd k bw => ?_⟩, fun hl => ⟨fun x hw hx => ?_, fun d x => ?_, fun d x => ?_⟩,
    exec_asidRetireComplete_frees, fun hf => ⟨?_, ?_⟩⟩
  · exact exec_tensorDefine_new hs hp ho (hnew h0 h1 h3 hd)
  · exact exec_tensorDefine_malformed hs hp ho (hnew h0 h1 h3 hd)
  · exact exec_tensorDefine_alias hs hp ho (hnew h0 h1 h3 hd)
  · exact hx ▸ exec_hwinRemove_removes hs hp hl hw
  · exact exec_tensorFree_alias hs hp hl
  · exact exec_tensorFree_base hs hp hl
  · exact exec_pinAnswer_answers hs hp hf
  · exact exec_pinAnswer_answers hs hp hf
end Sys2Proof.Machine
end

section
/-! ### What a write of a scratchpad changes beside its bytes (R417, R418) -/

namespace Sys2Proof.Machine

/-! #### Tiles and contexts after an update -/

theorem here_modHere (s : State) (f : Tile → Tile) : (s.modHere f).here = f s.here := tile_setTile_self s _ _

theorem me_modHere (s : State) (f : Tile → Tile) : (s.modHere f).me = (f s.here).ctx s.cur.slot .primary := by
  simp only [State.me, State.ctx, State.modHere_cur, ← here_modHere s f]
  rfl

theorem here_modMe_scratch (s : State) (f : Context → Context) : (s.modMe f).here.scratch = s.here.scratch := by
  rw [here_modMe]
  rfl

theorem tile_modHere_other (s : State) (f : Tile → Tile) (t : Nat) (h : t ≠ s.cur.tile.toNat) :
    (s.modHere f).tile t = s.tile t := tile_setTile_other s _ t _ h

theorem tile_modMe_other (s : State) (f : Context → Context) (t : Nat) (h : t ≠ s.cur.tile.toNat) :
    (s.modMe f).tile t = s.tile t := tile_setTile_other s _ t _ h

/-- A context of a tile after a context of it has been set. -/
theorem Tile.ctx_setCtx (x : Tile) (k j : SlotNo) (b d : Bank) (c : Context) :
    (x.setCtx k b c).ctx j d = if j = k ∧ d = b then c else x.ctx j d := by
  unfold Tile.ctx Tile.setCtx
  by_cases hj : j = k
  · subst hj
    rw [slot_setSlot_self]
    cases b <;> cases d <;> simp [Slot.setCtx, Slot.ctx]
  · rw [slot_setSlot_other _ _ _ _ hj, if_neg (fun h => hj h.1)]

/-! #### What the comparators change (R417, R418) -/

/-- From one tile to another the scratchpad stays, and each context keeps all but the mark of a lost wake token. -/
def Tile.WakesTo (x y : Tile) : Prop :=
  y.scratch = x.scratch ∧ ∀ k b, ∃ lost : Bool, y.ctx k b = { x.ctx k b with wakeLost := lost }

theorem Tile.WakesTo.refl (x : Tile) : x.WakesTo x := ⟨rfl, fun k b => ⟨(x.ctx k b).wakeLost, rfl⟩⟩

theorem Tile.WakesTo.trans {x y z : Tile} (h : x.WakesTo y) (g : y.WakesTo z) : x.WakesTo z := by
  refine ⟨g.1.trans h.1, fun k b => ?_⟩
  obtain ⟨l, hl⟩ := h.2 k b
  obtain ⟨l', hl'⟩ := g.2 k b
  exact ⟨l', by rw [hl', hl]⟩

theorem Tile.WakesTo.foldl {α : Type} {f : Tile → α → Tile} (hf : ∀ (t : Tile) (a : α), t.WakesTo (f t a)) (l : List α) (x : Tile) :
    x.WakesTo (l.foldl f x) := by
  induction l generalizing x with
  | nil => exact .refl x
  | cons a l ih => exact (hf x a).trans (ih _)

theorem Tile.WakesTo.ite {p : Prop} [Decidable p] {x y z : Tile} (hy : x.WakesTo y) (hz : x.WakesTo z) :
    x.WakesTo (if p then y else z) := by
  split
  · exact hy
  · exact hz

theorem Tile.WakesTo.setLost (x : Tile) (k : SlotNo) (b : Bank) :
    x.WakesTo (x.setCtx k b { x.ctx k b with wakeLost := true }) := by
  refine ⟨rfl, fun j d => ?_⟩
  rw [Tile.ctx_setCtx]
  split
  · next h => exact ⟨true, by rw [h.1, h.2]⟩
  · exact ⟨_, rfl⟩

theorem Tile.WakesTo.markLost (x : Tile) (uid : Nat) : x.WakesTo (x.modByUid uid fun c => { c with wakeLost := true }) :=
  .foldl (fun t k => .foldl (fun t b => .ite (.setLost t k b) (.refl t)) _ t) _ x

theorem Tile.WakesTo.pushToken (x : Tile) (n : Nat) (cm : Comparator) (cls : BitVec 4) (off gtc : Nat) :
    x.WakesTo (addToken.pushToken n cm cls off gtc x) :=
  .ite ⟨rfl, fun k b => ⟨(x.ctx k b).wakeLost, rfl⟩⟩ (.markLost x cm.uid)

theorem Tile.WakesTo.addToken (x : Tile) (n : Nat) (cm : Comparator) (cls : BitVec 4) (off gtc : Nat) :
    x.WakesTo (addToken x n cm cls off gtc) := by
  unfold Machine.addToken
  split
  · exact .ite ⟨rfl, fun k b => ⟨(x.ctx k b).wakeLost, rfl⟩⟩ (.pushToken x n cm cls off gtc)
  · exact .pushToken x n cm cls off gtc

theorem Tile.WakesTo.wakeBy (x : Tile) (mute : List Nat) (cls : BitVec 4) (writer : Nat)
    (first : Nat → Nat → Option Nat) (gtc : Nat) : x.WakesTo (x.wakeBy mute cls writer first gtc) := by
  refine .foldl (fun t y => .ite ?_ (.refl t)) _ x
  cases first y.2.lo y.2.hi with
  | some off => exact .addToken t _ _ cls off gtc
  | none => exact .refl t

theorem Tile.WakesTo.wake (x : Tile) (mute : List Nat) (cls : BitVec 4) (writer : Nat) (a : Word) (n gtc : Nat) :
    x.WakesTo (x.wake mute cls writer a n gtc) := .wakeBy x mute cls writer _ gtc

/-- The limit rests on the state of the contexts and their groups, which the comparators leave. -/
theorem Tile.WakesTo.limit {x y : Tile} (h : x.WakesTo y) : y.limit = x.limit := by
  have hc : ∀ k b, ((y.ctx k b).status.bound && (y.ctx k b).replica.group != 0)
      = ((x.ctx k b).status.bound && (x.ctx k b).replica.group != 0) := fun k b => by
    obtain ⟨l, hl⟩ := h.2 k b
    rw [hl]
  simp only [Tile.limit, hc]

end Sys2Proof.Machine
end

section
/-! ### HCFG, HPUSH and HPOP (R150, R344 to R347) -/

namespace Sys2Proof.Machine

/-! #### A queue of a context after an update -/

theorem queue_setQueue (c : Context) (q : HReg) (x : Queue) : (c.setQueue q x).queue q = x := by
  simp [Context.queue, Context.setQueue]

/-- The load of the head latch changes the latch alone. -/
theorem Queue.load_frame (q : Queue) (bs : List Byte) :
    ∃ latch latched, q.load bs = { q with latch := latch, latched := latched } := by
  unfold Queue.load
  split <;> exact ⟨_, _, rfl⟩

theorem queue_latchHead (c : Context) (x : Tile) (q : HReg) :
    (c.latchHead x q).queue q
      = (c.queue q).load (x.elemBytes c.mapping (c.queue q) (c.queue q).cons.toNat) := queue_setQueue c q _

/-- The head latch of a queue that has become the oldest element's changes nothing else of the queue. -/
theorem queue_setQueue_latchHead (c : Context) (x : Tile) (q : HReg) (z : Queue) :
    ∃ latch latched, ((c.setQueue q z).latchHead x q).queue q = { z with latch := latch, latched := latched } := by
  rw [queue_latchHead, queue_setQueue]
  exact z.load_frame _

/-! #### HCFG (R344, R345, R150) -/

/-- What HCFG raises for a word: one that breaks the rules of its target, or a queue with loads on their way. -/
def hcfgRefusal (tgt : BitVec 5) (w : Word) (s : State) : Option Trap :=
  match hcfgQueue tgt with
  | some q =>
    if !queueWordOk w s.here.limit then some { name := .queueConfig, tval := tgt.setWidth 64 }
    else if !(s.me.queue q).resv.isEmpty then some { name := .queueConfig, tval := tgt.setWidth 64 + 0x100 }
    else none
  | none =>
    if windowWordOk w s.cur.tile.toNat then none else some { name := .queueConfig, tval := tgt.setWidth 64 }

/-- What HCFG leaves to the end of its bundle. -/
def hcfgDeferred (tgt : BitVec 5) (w : Word) : Deferred :=
  match hcfgQueue tgt with
  | some q => .hcfgQueue q w
  | none => .hcfgWindow (hcfgWindow tgt) w

section
variable {s : State} {tgt : BitVec 5} {q : HReg} {w : Word}

theorem hcfgRefusal_queue_bad (hq : hcfgQueue tgt = some q) (hw : queueWordOk w s.here.limit = false) :
    hcfgRefusal tgt w s = some { name := .queueConfig, tval := tgt.setWidth 64 } := by simp [hcfgRefusal, hq, hw]

theorem hcfgRefusal_queue_busy (hq : hcfgQueue tgt = some q) (hw : queueWordOk w s.here.limit = true)
    (hr : (s.me.queue q).resv ≠ []) :
    hcfgRefusal tgt w s = some { name := .queueConfig, tval := tgt.setWidth 64 + 0x100 } := by
  simp [hcfgRefusal, hq, hw, hr]

theorem hcfgRefusal_queue_sound (hq : hcfgQueue tgt = some q) (hw : queueWordOk w s.here.limit = true)
    (hr : (s.me.queue q).resv = []) : hcfgRefusal tgt w s = none := by simp [hcfgRefusal, hq, hw, hr]

theorem hcfgRefusal_window_bad (hq : hcfgQueue tgt = none) (hw : windowWordOk w s.cur.tile.toNat = false) :
    hcfgRefusal tgt w s = some { name := .queueConfig, tval := tgt.setWidth 64 } := by simp [hcfgRefusal, hq, hw]

theorem hcfgRefusal_window_sound (hq : hcfgQueue tgt = none) (hw : windowWordOk w s.cur.tile.toNat = true) :
    hcfgRefusal tgt w s = none := by simp [hcfgRefusal, hq, hw]

theorem hcfgDeferred_queue (hq : hcfgQueue tgt = some q) : hcfgDeferred tgt w = .hcfgQueue q w := by
  simp [hcfgDeferred, hq]

theorem hcfgDeferred_window (hq : hcfgQueue tgt = none) : hcfgDeferred tgt w = .hcfgWindow (hcfgWindow tgt) w := by
  simp [hcfgDeferred, hq]

end

section
variable (s : State) (tgt : BitVec 5) (a : SReg) (off : Lit 11) (ht : tgt.toNat < 24)

/-- The word that the memory form of HCFG reads. -/
def hcfgMemWord (s : State) (a : SReg) (off : Lit 11) : Word :=
  BitVec.ofNat 64 (natOfBytes (s.coreBytes (effAddr s.me a off 8) 8))

/-- The memory form reads a word without a stop: none of its bytes waits for a transfer, its address is a multiple of
8, and no error stands there. -/
def hcfgReads (s : State) (a : SReg) (off : Lit 11) : Prop :=
  s.watermarkBlock (effAddr s.me a off 8) 8 = none ∧ (effAddr s.me a off 8).toNat % 8 = 0
    ∧ s.corePoison (effAddr s.me a off 8) 8 = none

include ht

theorem hcfg_wf (src : HcfgSrc) : (Instr.hcfg tgt src).wf = true := decide_eq_true ht

theorem exec_hcfg_reg (h : hcfgRefusal tgt (s.me.sreg a) s = none) :
    exec (.hcfg tgt (.reg a)) s = .next (s.defer (hcfgDeferred tgt (s.me.sreg a))) := by
  rw [exec_issued _ (hcfgMeaning tgt (.reg a)) s rfl (hcfg_wf tgt ht _) (slotOk_any _ _ rfl rfl) rfl
    (headsReady_of_nil _ s rfl) rfl rfl h (.inr rfl)]
  unfold hcfgMeaning hcfgDeferred
  cases hcfgQueue tgt <;> rfl

theorem exec_hcfg_reg_refused {tr : Trap} (h : hcfgRefusal tgt (s.me.sreg a) s = some tr) :
    exec (.hcfg tgt (.reg a)) s = .next (s.raise tr) :=
  exec_trapped _ (hcfgMeaning tgt (.reg a)) s tr rfl (hcfg_wf tgt ht _) (slotOk_any _ _ rfl rfl) rfl
    (headsReady_of_nil _ s rfl) rfl rfl h

omit ht in
/-- The checks of a memory form that reads its word are those of the word. -/
theorem hcfgMeaning_mem_check (h : hcfgReads s a off) :
    (hcfgMeaning tgt (.mem a off)).check s = hcfgRefusal tgt (hcfgMemWord s a off) s := by
  obtain ⟨-, ha, hp⟩ := h
  have hn : firstTrap (alignTrap (effAddr s.me a off 8) 8) (poisonCheck s (effAddr s.me a off 8) 8) = none := by
    rw [alignTrap_aligned ha, poisonCheck, hp]
    rfl
  change firstTrap (firstTrap (alignTrap (effAddr s.me a off 8) 8) (poisonCheck s (effAddr s.me a off 8) 8))
    (hcfgRefusal tgt (hcfgMemWord s a off) s) = _
  rw [hn]
  rfl

theorem exec_hcfg_mem (hs : hcfgReads s a off) (h : hcfgRefusal tgt (hcfgMemWord s a off) s = none) :
    exec (.hcfg tgt (.mem a off)) s
      = .next ((s.coreLoadCapture (effAddr s.me a off 8) 8).defer (hcfgDeferred tgt (hcfgMemWord s a off))) := by
  rw [exec_issued _ (hcfgMeaning tgt (.mem a off)) s rfl (hcfg_wf tgt ht _) (slotOk_any _ _ rfl rfl) rfl
    (headsReady_of_nil _ s rfl) hs.1 rfl ((hcfgMeaning_mem_check s tgt a off hs).trans h) (.inr rfl)]
  unfold hcfgMeaning hcfgDeferred
  cases hcfgQueue tgt <;> rfl

theorem exec_hcfg_mem_refused (hs : hcfgReads s a off) {tr : Trap}
    (h : hcfgRefusal tgt (hcfgMemWord s a off) s = some tr) :
    exec (.hcfg tgt (.mem a off)) s = .next (s.raise tr) :=
  exec_trapped _ (hcfgMeaning tgt (.mem a off)) s tr rfl (hcfg_wf tgt ht _) (slotOk_any _ _ rfl rfl) rfl
    (headsReady_of_nil _ s rfl) hs.1 rfl ((hcfgMeaning_mem_check s tgt a off hs).trans h)

theorem exec_hcfg_mem_misaligned (hb : s.watermarkBlock (effAddr s.me a off 8) 8 = none)
    (ha : (effAddr s.me a off 8).toNat % 8 ≠ 0) :
    exec (.hcfg tgt (.mem a off)) s = .next (s.raise { name := .align, tval := effAddr s.me a off 8 }) := by
  refine exec_trapped _ (hcfgMeaning tgt (.mem a off)) s _ rfl (hcfg_wf tgt ht _) (slotOk_any _ _ rfl rfl) rfl
    (headsReady_of_nil _ s rfl) hb rfl ?_
  change firstTrap (firstTrap (alignTrap (effAddr s.me a off 8) 8) _) _ = _
  rw [alignTrap_misaligned ha]
  rfl

theorem exec_hcfg_mem_blocked {b : BlockCond} (hb : s.watermarkBlock (effAddr s.me a off 8) 8 = some b) :
    exec (.hcfg tgt (.mem a off)) s = .next (s.blockOn b) := by
  have h := watermarkBlock_of_ne_none (s := s) (a := effAddr s.me a off 8) (n := 8) (by simp [hb])
  cases hb.symm.trans h
  exact exec_blocked _ (hcfgMeaning tgt (.mem a off)) s _ rfl (hcfg_wf tgt ht _) (slotOk_any _ _ rfl rfl) rfl rfl hb

end

/-- A configured queue holds the elements that its word counts, and the latch takes the oldest (R345, R72). -/
theorem queue_applyDeferred_hcfgQueue (u : State) (q : HReg) (w : Word) :
    (u.applyDeferred (.hcfgQueue q w)).me.queue q
      = Queue.load { queueOfWord w u.gtc.toNat with latch := (u.me.queue q).latch }
          (u.here.elemBytes u.me.mapping (queueOfWord w u.gtc.toNat) (queueOfWord w u.gtc.toNat).cons.toNat) := by
  refine (congrArg (·.queue q) (me_modMe u _)).trans ?_
  rw [queue_latchHead, queue_setQueue]
  rfl

theorem applyDeferred_hcfgQueue (u : State) (q : HReg) (w : Word) :
    let z := (u.applyDeferred (.hcfgQueue q w)).me.queue q
    let new := queueOfWord w u.gtc.toNat
    z.word = new.word ∧ z.prod = new.prod ∧ z.cons = new.cons ∧ z.held = new.held ∧ z.resv = []
      ∧ (new.held ≠ [] → z.latch = BitVec.ofNat 2048 (natOfBytes (u.here.elemBytes u.me.mapping new new.cons.toNat)))
      ∧ (new.held = [] → z.latch = (u.me.queue q).latch) := by
  intro z new
  have hz : z = _ := queue_applyDeferred_hcfgQueue u q w
  obtain ⟨l, l', hl⟩ := Queue.load_frame { new with latch := (u.me.queue q).latch }
    (u.here.elemBytes u.me.mapping new new.cons.toNat)
  refine ⟨by rw [hz, hl], by rw [hz, hl], by rw [hz, hl], by rw [hz, hl], by rw [hz, hl]; rfl, fun hh => ?_, fun hh => ?_⟩
  · rw [hz, Queue.load, if_neg (by simpa [new, queueOfWord] using hh)]
  · rw [hz, Queue.load, if_pos (by simpa [new, queueOfWord] using hh)]

/-! #### HPUSH and HPOP (R346, R347) -/

/-- A queue with an element appended: held, or done behind the loads on their way. -/
def Queue.push (qu : Queue) (e : QElem) : Queue :=
  if qu.resv.isEmpty then { qu with held := qu.held ++ [e], prod := qu.prod + 1 }
  else { qu with resv := qu.resv ++ [{ id := 0, done := some e, logAt := none }] }

section
variable (s : State) (q : HReg) (src : SvReg)

/-- The tile of the cursor with a pushed element in the ring, and its comparators met. -/
def State.pushed (s : State) (q : HReg) (src : SvReg) : State :=
  let qu := s.me.queue q
  let j := qu.prod.toNat + qu.resv.length
  let bs := pushBytes s.me q src
  s.modHere (fun x => (writeElem x s.me.mapping qu j bs).wake (s.muted s.cur.tile.toNat) 3 s.me.uid
    (BitVec.ofNat 64 (qu.place j)) bs.length s.gtc.toNat)

theorem pushed_here : Tile.WakesTo (writeElem s.here s.me.mapping (s.me.queue q)
    ((s.me.queue q).prod.toNat + (s.me.queue q).resv.length) (pushBytes s.me q src)) (s.pushed q src).here := by
  unfold State.pushed
  rw [here_modHere]
  exact .wake ..

theorem pushed_scratch : (s.pushed q src).here.scratch = writeBytes s.here.scratch s.me.mapping s.here.limit
    (BitVec.ofNat 64 ((s.me.queue q).place ((s.me.queue q).prod.toNat + (s.me.queue q).resv.length)))
    (pushBytes s.me q src) := (pushed_here s q src).1

theorem pushed_me : ∃ lost : Bool, (s.pushed q src).me = { s.me with wakeLost := lost } :=
  (pushed_here s q src).2 s.cur.slot .primary

/-- HPUSH with room: the element stands in the ring and behind those of its queue, and the registers and the memories
stay. -/
theorem exec_hpush (hr : s.queueRoom q = true) :
    ∃ t latch latched, exec (.hpush q src) s = .next t
      ∧ t.me.queue q = { (s.me.queue q).push { complete := s.gtc.toNat, poison := none } with
          latch := latch, latched := latched }
      ∧ t.here.scratch = writeBytes s.here.scratch s.me.mapping s.here.limit
          (BitVec.ofNat 64 ((s.me.queue q).place ((s.me.queue q).prod.toNat + (s.me.queue q).resv.length)))
          (pushBytes s.me q src)
      ∧ t.me.regs = s.me.regs ∧ t.me.landing = s.me.landing ∧ t.hbm = s.hbm ∧ t.lpddr = s.lpddr := by
  obtain ⟨hc, hf⟩ : (s.me.queue q).configured = true ∧ (s.me.queue q).full = false := by
    simpa [State.queueRoom] using hr
  obtain ⟨lost, hme⟩ := pushed_me s q src
  have hqu : (s.pushed q src).me.queue q = s.me.queue q := by
    rw [hme]
    rfl
  have hexec : exec (.hpush q src) s = .next ((s.pushed q src).modMe (fun c =>
      (c.setQueue q ((c.queue q).push { complete := s.gtc.toNat, poison := none })).latchHead
        (s.pushed q src).here q)) :=
    exec_issued _ (hpushMeaning q src) s rfl rfl (slotOk_any _ _ rfl rfl) rfl (headsReady_of_nil _ s rfl)
      (by simp [hpushMeaning, queueBlock, hf]) rfl (by simp [hpushMeaning, queueCheck, hc]) (.inl rfl)
  obtain ⟨latch, latched, hl⟩ := queue_setQueue_latchHead (s.pushed q src).me (s.pushed q src).here q
    (((s.pushed q src).me.queue q).push { complete := s.gtc.toNat, poison := none })
  refine ⟨_, latch, latched, hexec, ?_, ?_, ?_, ?_, rfl, rfl⟩
  · rw [me_modMe, hl, hqu]
  · rw [here_modMe_scratch, pushed_scratch]
  · rw [me_modMe, hme]
    rfl
  · rw [me_modMe, hme]
    rfl

/-- HPUSH into a full queue blocks. -/
theorem exec_hpush_full (hc : (s.me.queue q).configured = true) (hf : (s.me.queue q).full = true) :
    exec (.hpush q src) s = .next (s.blockOn (.queueFull q)) :=
  exec_blocked _ (hpushMeaning q src) s (.queueFull q) rfl rfl (slotOk_any _ _ rfl rfl) rfl rfl
    (by simp [hpushMeaning, queueBlock, hc, hf])

/-- HPOP of a head that is ready issues. -/
theorem exec_hpop (dst : SvReg) (h : s.headReady q = true) :
    exec (.hpop q dst) s = .next ((hpopMeaning q dst).effect s s) :=
  exec_issued _ (hpopMeaning q dst) s rfl rfl (slotOk_any _ _ rfl rfl) rfl
    (fun r hr => by rwa [List.mem_singleton.1 hr]) rfl rfl
    (by simp [hpopMeaning, queueCheck, ((headReady_iff s q).1 h).1]) (.inl rfl)

end

/-! #### The statement -/

/-- Settles O41: HCFG by what its word is refused for, HPUSH by the element that it appends, HPOP by its head. -/
theorem queuesAreConfiguredAndUsed : Obligations.QueuesAreConfiguredAndUsed := by
  intro s tgt a off q src d v ht w at_ m qu e sound refused
  refine ⟨fun hq hr => ⟨fun hw => ?_, fun hs hw => ?_⟩, fun hq => ⟨fun hw => ?_, fun hs hw => ?_⟩,
    fun hq hr => ⟨fun hw => ?_, fun hs hw => ?_⟩, fun hq => ⟨fun hw => ?_, fun hw => ?_, fun hs hw => ?_, fun hs hw => ?_⟩,
    exec_hcfg_mem_misaligned s tgt a off ht, fun b => exec_hcfg_mem_blocked s tgt a off ht, fun u n x => me_modMe u _,
    fun u => applyDeferred_hcfgQueue u q w, fun hr hv => ?_, fun hr hv => ?_, exec_hpush_full s q src,
    fun h => ⟨exec_hpop s q (.s d) h, exec_hpop s q (.v v) h⟩⟩
  · rw [exec_hcfg_reg s tgt a ht (hcfgRefusal_queue_sound hq hw hr), hcfgDeferred_queue hq]
  · rw [exec_hcfg_mem s tgt a off ht hs (hcfgRefusal_queue_sound hq hw hr), hcfgDeferred_queue hq]
    rfl
  · simpa [refused] using exec_hcfg_reg_refused s tgt a ht (hcfgRefusal_queue_bad hq hw)
  · simpa [refused] using exec_hcfg_mem_refused s tgt a off ht hs (hcfgRefusal_queue_bad hq hw)
  · exact exec_hcfg_reg_refused s tgt a ht (hcfgRefusal_queue_busy hq hw hr)
  · exact exec_hcfg_mem_refused s tgt a off ht hs (hcfgRefusal_queue_busy hq hw hr)
  · rw [exec_hcfg_reg s tgt a ht (hcfgRefusal_window_sound hq hw), hcfgDeferred_window hq]
  · simpa [refused] using exec_hcfg_reg_refused s tgt a ht (hcfgRefusal_window_bad hq hw)
  · rw [exec_hcfg_mem s tgt a off ht hs (hcfgRefusal_window_sound hq hw), hcfgDeferred_window hq]
    rfl
  · simpa [refused] using exec_hcfg_mem_refused s tgt a off ht hs (hcfgRefusal_window_bad hq hw)
  · obtain ⟨t, latch, latched, hx, hque, hscr, hrest⟩ := exec_hpush s q src hr
    have hp : qu.push e = { qu with held := qu.held ++ [e], prod := qu.prod + 1 } := if_pos (by simp [hv])
    simp only [qu, e] at hp hv
    rw [hp] at hque
    rw [hv, List.length_nil, Nat.add_zero] at hscr
    exact ⟨t, hx, by rw [hque], by rw [hque], by rw [hque]; exact hv, by rw [hque], by rw [hque], hscr, hrest⟩
  · obtain ⟨t, latch, latched, hx, hque, hscr, hrest⟩ := exec_hpush s q src hr
    have hp : qu.push e = { qu with resv := qu.resv ++ [{ id := 0, done := some e, logAt := none }] } :=
      if_neg (by simp [hv])
    simp only [qu, e] at hp
    rw [hp] at hque
    exact ⟨t, hx, by rw [hque], by rw [hque], by rw [hque], by rw [hque], hscr, hrest⟩

end Sys2Proof.Machine
end

section
/-! ### A unit of an access at its home (R143, R160, R186, R195, R306, R307, R328, R333) -/

namespace Sys2Proof.Machine

/-! #### What the grant of an N port leaves -/

/-- A test of the values passes on a list with a key set as on the list, where it says the same of both values. -/
theorem any_assocSet {α : Type} (p : α → Bool) (k : Nat) (v d : α) (l : List (Nat × α)) (hd : p d = false)
    (h : p v = p ((assocGet k l).getD d)) : (assocSet k v l).any (fun x => p x.2) = l.any (fun x => p x.2) := by
  induction l with
  | nil =>
    have hv : p v = false := h.trans hd
    simp [assocSet, hv]
  | cons x l ih =>
    obtain ⟨i, a⟩ := x
    simp only [assocSet]
    split
    · next hi => simp_all [assocGet]
    · next hi => simp_all [assocGet]

/-- A release buffer of a context of the tile holds the write. -/
def Tile.holdsWrite (id : Nat) (x : Tile) : Bool :=
  allSlots.any (fun k => [Bank.primary, Bank.second].any (fun b => (x.ctx k b).replica.buffer.any (fun h => h.id == id)))

theorem heldOp_grant (s : State) (t : Nat) (who : BitVec 3) (id : Nat) : (s.grant t who).heldOp id = s.heldOp id :=
  any_assocSet (Tile.holdsWrite id) t _ Tile.reset s.tiles rfl rfl

theorem openOp_grantPort (s : State) (h : Home) (id : Nat) : (s.grantPort h).openOp id = s.openOp id := by
  cases h with
  | scratch t o => exact congrArg (_ || ·) (heldOp_grant s t.toNat 4 id)
  | hbm a => rfl
  | lpddr a => rfl
  | host b => rfl
  | node n i c => rfl
  | nowhere => rfl

theorem flights_grantPort (s : State) (h : Home) : (s.grantPort h).flights = s.flights := by cases h <;> rfl

theorem canPerform_grantPort (s : State) (h : Home) (f : Flight) (i : Nat) :
    (s.grantPort h).canPerform f i = s.canPerform f i := by
  simp only [State.canPerform, openOp_grantPort]

/-! #### A unit at its home -/

section
variable {s : State} {f : Flight} {u : AccessUnit} {i : Nat} {ext : BitVec 640}
  (hf : s.flights.find? (fun g => g.id == f.id) = some f) (hu : f.units[i]? = some u) (hc : s.canPerform f i = true)

/-- What the readers of the bytes of a unit learn. -/
def State.seenAt (s : State) (u : AccessUnit) : List Nat := if u.op.reads then s.historyAt (u.home.bytes u.len) else []

include hf hu hc

/-- A place that does not exist stops the run (log entry 16). -/
theorem performUnit_absent (he : homeExists u.home u.len = false) : s.performUnit f.id i ext = .fault .absentMemory := by
  simp [State.performUnit, hf, hu, hc, he]

/-- A place on a lost die keeps nothing and returns zeros with the mark (R310). -/
theorem performUnit_lost (he : homeExists u.home u.len = true)
    (hl : s.lostHome (s.mapOf f.issuer) u.home u.entry = true) :
    s.performUnit f.id i ext = .next ((s.finishUnit f i u (List.replicate u.len 0)
      (some (memDataTval s f u.home u.len)) (s.seenAt u)).acquireSeen f (s.seenAt u)) := by
  simp [State.performUnit, State.seenAt, hf, hu, hc, he, hl]

/-- A unit that writes nothing returns what its operation gives; the word of a bad place is marked. -/
theorem performUnit_reading (he : homeExists u.home u.len = true)
    (hl : s.lostHome (s.mapOf f.issuer) u.home u.entry = false) (hw : u.op.writes = false) :
    s.performUnit f.id i ext = .next (((s.perform f u ext).1.finishUnit f i u (s.perform f u ext).2
      (if u.op.reads && badAt s u.home u.len then some (memDataTval s f u.home u.len) else none)
      (s.seenAt u)).acquireSeen f (s.seenAt u)) := by
  simp [State.performUnit, State.seenAt, hf, hu, hc, he, hl, hw]

/-- A unit that writes a sound place leaves its history there. -/
theorem performUnit_writing (he : homeExists u.home u.len = true)
    (hl : s.lostHome (s.mapOf f.issuer) u.home u.entry = false) (hw : u.op.writes = true)
    (hb : (u.op.reads && badAt s u.home u.len) = false) :
    s.performUnit f.id i ext = .next ((((s.perform f u ext).1.finishUnit f i u (s.perform f u ext).2 none
      (s.seenAt u)).mark (u.home.bytes u.len) (f.hist ++ s.seenAt u) u.op.reads).acquireSeen f (s.seenAt u)) := by
  simp [State.performUnit, State.seenAt, hf, hu, hc, he, hl, hw, hb]

end

/-! #### What a unit does -/

section
variable {s : State} {f : Flight} {u : AccessUnit} {ext : BitVec 640}

/-- The counts of an atomic at a home. -/
def State.counted (s : State) (f : Flight) (u : AccessUnit) (t : State) : State :=
  t.countAtomic u.entry (unitStack s u) f.asid (stackOf f.issuer.place.1)

theorem perform_load (h : u.op = .load) : s.perform f u ext = (s, placeRead s u.home u.len ext) := by
  unfold State.perform
  simp only [h]

theorem perform_fill {bs : List Byte} (h : u.op = .fill bs) : s.perform f u ext = (s, bs) := by
  unfold State.perform
  simp only [h]

/-- A store outside the space of the issuing tile is a write at its place. -/
theorem unitWrite_away {sp : Space} (h : sp ≠ .s) (a : Home) (bs : List Byte) : s.unitWrite sp a bs = s.placeWrite a bs := by
  cases sp with
  | s => exact absurd rfl h
  | m => rfl
  | n => rfl
  | d => rfl
  | c => rfl
  | h => rfl

theorem perform_store {bs : List Byte} (hs : f.space ≠ .s) (h : u.op = .store bs) :
    s.perform f u ext = (s.placeWrite u.home bs, []) := by
  unfold State.perform
  simp only [h, unitWrite_away hs]

theorem perform_atomic {code : BitVec 6} {v w : Word} {sg : Bool} (h : u.op = .atomic code v w sg) :
    s.perform f u ext
      = (s.counted f u (s.placeWrite u.home (bytesOfNat u.len (atomicNew code sg u.len
          (natOfBytes (placeRead s u.home u.len ext)) (v.toNat % 2 ^ (8 * u.len)) (w.toNat % 2 ^ (8 * u.len))))),
        bytesOfNat u.len (natOfBytes (placeRead s u.home u.len ext))) := by
  unfold State.perform
  simp only [h]
  rfl

theorem perform_cadd_hbm {amt : Word} {a : Nat} (h : u.op = .cadd amt) (hh : u.home = .hbm a) :
    s.perform f u ext = (s.counted f u (if natOfBytes (placeRead s u.home 8 ext) + amt.toNat < 2 ^ 64
        then s.writeHbm a (bytesOfNat 8 (natOfBytes (placeRead s u.home 8 ext) + amt.toNat))
        else s.counterWrap f.issuer f.asid (BitVec.ofNat 64 (natOfBytes (placeRead s u.home 8 ext))) f.tval), []) := by
  unfold State.perform
  simp only [h, hh]
  cases f.space <;> rfl

theorem perform_cadd_scratch {amt : Word} {t : TileId} {o : Nat} (hs : f.space ≠ .s) (h : u.op = .cadd amt)
    (hh : u.home = .scratch t o) (ho : o < (s.tile t.toNat).limit)
    (hn : natOfBytes (placeRead s u.home 8 ext) + amt.toNat < 2 ^ 64) :
    s.perform f u ext = (s.counted f u (s.placeWrite u.home
      (bytesOfNat 8 (natOfBytes (placeRead s u.home 8 ext) + amt.toNat))), []) := by
  rw [hh] at hn
  unfold State.perform
  simp only [h, hh, unitWrite_away hs, if_pos hn, Nat.not_le.2 ho, decide_false]
  rfl

theorem perform_qred {img : QuireBits} (h : u.op = .qred img false) :
    s.perform f u ext = (s.counted f u (s.placeWrite u.home (bytesOfNat 80
      (((Quire.ofImage (BitVec.ofNat 640 (natOfBytes (placeRead s u.home 80 ext)))).addInt img.toInt).1).image.toNat)),
      []) := by
  unfold State.perform
  simp only [h, addTerms_eq, Quire.valid]
  simp only [Bool.not_false, Bool.and_self, if_true, List.all_cons, Option.isSome_some, List.all_nil, List.map_cons,
    Option.getD_some, List.map_nil, List.sum_cons, List.sum_nil, add_zero, Quire.toInt]
  rfl

/-- The sum of two images, with the overflow that R121 records. -/
theorem addInt_toInt (q : Quire) (x : QuireBits) :
    (q.addInt x.toInt).1 = { q with
      bits := q.bits + x
      ovf := q.ovf || decide (q.bits.toInt + x.toInt < -(2 ^ 639) ∨ 2 ^ 639 ≤ q.bits.toInt + x.toInt) } := by
  rw [addInt_eq, BitVec.ofInt_add, BitVec.ofInt_toInt, BitVec.ofInt_toInt]
  rfl

end

/-- The value that each code of an atomic leaves (R328). -/
theorem atomicNew_cases (code : BitVec 6) (sg : Bool) (n old x y : Nat) :
    let less := fun a b => if sg then signedOf (8 * n) a < signedOf (8 * n) b else a < b
    let new := atomicNew code sg n old x y
    (code = 0x1C → new = (old + x) % 2 ^ (8 * n))
      ∧ (code = 0x1D → new = if old = x then y else old)
      ∧ (code = 0x1E → (less old x → new = x) ∧ (¬ less old x → new = old))
      ∧ (code = 0x1F → (less x old → new = x) ∧ (¬ less x old → new = old))
      ∧ (code = 0x20 → new = x)
      ∧ (code = 0x21 → new = old ^^^ x) := by
  refine ⟨?_, ?_, ?_, ?_, ?_, ?_⟩
  · rintro rfl
    rfl
  · rintro rfl
    rfl
  · rintro rfl
    cases sg <;> exact ⟨fun h => if_pos (by simpa using h), fun h => if_neg (by simpa using h)⟩
  · rintro rfl
    cases sg <;> exact ⟨fun h => if_pos (by simpa using h), fun h => if_neg (by simpa using h)⟩
  · rintro rfl
    rfl
  · rintro rfl
    rfl

/-! #### The events -/

section
variable {s : State} {f : Flight} {u : AccessUnit} {i : Nat}
  (hf : s.flights.find? (fun g => g.id == f.id) = some f) (hu : f.units[i]? = some u)

include hf hu

theorem unitAt_eq {w : Bool} (h : u.nWrite = w) : s.unitAt f.id i w = some (f, u) := by
  simp [State.unitAt, hf, hu, h]

theorem exec_homePortAccess (ext : BitVec 640) (h : u.nWrite = false) :
    exec (.homePortAccess f.id i ext) s = s.performHome f i u ext := by
  change execHomePortAccess f.id i ext s = _
  rw [execHomePortAccess, unitAt_eq hf hu h]

theorem exec_incomingNWrite (h : u.nWrite = true) : exec (.incomingNWrite f.id i) s = s.performHome f i u 0 := by
  change execIncomingNWrite f.id i s = _
  rw [execIncomingNWrite, unitAt_eq hf hu h]

end

/-- A unit comes to its home: it is performed there, and its access reports what nothing brings back. -/
theorem performHome_next {s : State} {f : Flight} {u : AccessUnit} {i : Nat} {ext : BitVec 640} (hs : f.space ≠ .s)
    (hc : s.canPerform f i = true) {t : State} (h : (s.grantPort u.home).performUnit f.id i ext = .next t) :
    s.performHome f i u ext = .next (t.raiseUnheard f i u) := by
  simp [State.performHome, hs, h, hc]

theorem performHome_fault {s : State} {f : Flight} {u : AccessUnit} {i : Nat} {ext : BitVec 640} (hs : f.space ≠ .s)
    {e : Fault} (h : (s.grantPort u.home).performUnit f.id i ext = .fault e) : s.performHome f i u ext = .fault e := by
  simp [State.performHome, hs, h]

/-- A load of S that an earlier access has held reads in its tile. -/
theorem performHome_core {s : State} {f : Flight} {u : AccessUnit} {t : TileId} {o : Nat} {ext : BitVec 640}
    (hf : s.flights.find? (fun g => g.id == f.id) = some f) (hc : s.canPerform f 0 = true) (hs : f.space = .s)
    (hus : f.units = [u]) (hop : u.op = .load) (hw : f.writes = false) (hh : u.home = .scratch t o)
    (hl : s.lostHome (s.mapOf f.issuer) u.home u.entry = false) :
    s.performHome f 0 u ext = .next (((s.finishUnit f 0 u (placeRead s u.home u.len 0)
      (if badAt s u.home u.len then some (memDataTval s f u.home u.len) else none)
      (s.historyAt (u.home.bytes u.len))).acquireSeen f (s.historyAt (u.home.bytes u.len))).raiseUnheard f 0 u) := by
  have hread := performUnit_reading (ext := 0) hf (by rw [hus]; rfl) hc (by rw [hh]; rfl) hl (by rw [hop]; rfl)
  have hseen : s.seenAt u = s.historyAt (u.home.bytes u.len) := if_pos (by rw [hop]; rfl)
  rw [perform_load hop, hseen, hop] at hread
  have hcore : s.performCore f = .next ((s.finishUnit f 0 u (placeRead s u.home u.len 0)
      (if badAt s u.home u.len then some (memDataTval s f u.home u.len) else none)
      (s.historyAt (u.home.bytes u.len))).acquireSeen f (s.historyAt (u.home.bytes u.len))) := by
    simp only [State.performCore, hus, List.length_singleton, List.range_one, List.foldl_cons, List.foldl_nil, hread, hw]
    rfl
  simp [State.performHome, hs, hcore, hc]

/-! #### The statement -/

section
variable {s0 s : State} {f : Flight} {u : AccessUnit} {i : Nat} {ext : BitVec 640}
  (hs : f.space ≠ .s) (hg : s = s0.grantPort u.home) (hc0 : s0.canPerform f i = true)
  (hf : s.flights.find? (fun g => g.id == f.id) = some f) (hu : f.units[i]? = some u) (hc : s.canPerform f i = true)
  (he : homeExists u.home u.len = true) (hl : s.lostHome (s.mapOf f.issuer) u.home u.entry = false)

/-- A unit that reads its place and its history, or gives bytes of its own. -/
def State.readDone (s : State) (f : Flight) (u : AccessUnit) (i : Nat) (bs : List Byte) (poison : Option Word) : State :=
  ((s.finishUnit f i u bs poison (s.seenAt u)).acquireSeen f (s.seenAt u)).raiseUnheard f i u

/-- A unit that has left the state `t` behind it, and its history at its place. -/
def State.writeDone (s : State) (f : Flight) (u : AccessUnit) (i : Nat) (t : State) (bs : List Byte) : State :=
  (((t.finishUnit f i u bs none (s.seenAt u)).mark (u.home.bytes u.len) (f.hist ++ s.seenAt u) u.op.reads).acquireSeen f
    (s.seenAt u)).raiseUnheard f i u

include hs hg hf hu hc

theorem performHome_absent (he : homeExists u.home u.len = false) : s0.performHome f i u ext = .fault .absentMemory :=
  performHome_fault hs (hg ▸ performUnit_absent hf hu hc he)

include hc0 he

theorem performHome_lost (hl : s.lostHome (s.mapOf f.issuer) u.home u.entry = true) :
    s0.performHome f i u ext
      = .next (s.readDone f u i (List.replicate u.len 0) (some (memDataTval s f u.home u.len))) :=
  performHome_next hs hc0 (hg ▸ performUnit_lost hf hu hc he hl)

include hl

theorem performHome_load (h : u.op = .load) : s0.performHome f i u ext = .next (s.readDone f u i
    (placeRead s u.home u.len ext) (if badAt s u.home u.len then some (memDataTval s f u.home u.len) else none)) := by
  have hp := performUnit_reading (ext := ext) hf hu hc he hl (by rw [h]; rfl)
  rw [perform_load h, h] at hp
  exact performHome_next hs hc0 (hg ▸ hp)

theorem performHome_fill {bs : List Byte} (h : u.op = .fill bs) :
    s0.performHome f i u ext = .next (s.readDone f u i bs none) := by
  have hp := performUnit_reading (ext := ext) hf hu hc he hl (by rw [h]; rfl)
  rw [perform_fill h, h] at hp
  exact performHome_next hs hc0 (hg ▸ hp)

/-- A unit that writes a sound place leaves what its operation makes of the state. -/
theorem performHome_writing (hw : u.op.writes = true) (hb : u.op.reads = true → badAt s u.home u.len = false)
    {t : State} {bs : List Byte} (hp : s.perform f u ext = (t, bs)) :
    s0.performHome f i u ext = .next (s.writeDone f u i t bs) := by
  have hx := performUnit_writing (ext := ext) hf hu hc he hl hw (by simpa using hb)
  rw [hp] at hx
  exact performHome_next hs hc0 (hg ▸ hx)

end

/-- Settles O48: an event that reaches its home performs the unit there, by the cases of its place and its operation. -/
theorem homesPerformUnits : Obligations.HomesPerformUnits := by
  intro s0 f u i hf0 hu hc0 s n places seen lost bad counted ends reads writes performs
  have hf : s.flights.find? (fun g => g.id == f.id) = some f := by rwa [flights_grantPort]
  have hc : s.canPerform f i = true := by rwa [canPerform_grantPort]
  have main : f.space ≠ .s → ∀ ext, performs (s0.performHome f i u ext) (placeRead s u.home n ext) := by
    intro hs ext
    have writing := fun (hl : lost = false) (he : homeExists u.home n = true) (hw : u.op.writes = true) =>
      performHome_writing (ext := ext) hs rfl hc0 hf hu hc he hl hw
    refine ⟨performHome_absent hs rfl hf hu hc, performHome_lost hs rfl hc0 hf hu hc, fun he hl =>
      ⟨performHome_load hs rfl hc0 hf hu hc he hl, fun bs => performHome_fill hs rfl hc0 hf hu hc he hl,
        fun bs hop => ?_, fun code v w sg hop hb => ?_, fun amt a hop hh hn hb => ⟨fun hlt => ?_, fun hge => ?_⟩,
        fun amt t o hop hh hn hb ho hlt => ?_, fun img hop hn hb => ?_⟩⟩
    · exact writing hl he (by rw [hop]; rfl) (by rw [hop]; nofun) (perform_store hs hop)
    · exact ⟨_, writing hl he (by rw [hop]; rfl) (fun _ => hb) (perform_atomic hop), atomicNew_cases _ _ _ _ _ _⟩
    · rw [hn] at hlt ⊢
      exact writing hl he (by rw [hop]; rfl) (fun _ => hb) ((perform_cadd_hbm hop hh).trans (by rw [if_pos hlt]; rfl))
    · rw [hn] at hge ⊢
      exact writing hl he (by rw [hop]; rfl) (fun _ => hb)
        ((perform_cadd_hbm hop hh).trans (by rw [if_neg (Nat.not_lt.2 hge)]; rfl))
    · rw [hn] at hlt ⊢
      exact writing hl he (by rw [hop]; rfl) (fun _ => hb) (perform_cadd_scratch hs hop hh ho hlt)
    · rw [hn]
      intro line sum hv _
      exact writing hl he (by rw [hop]; rfl) (fun _ => hb) ((perform_qred hop).trans (by rw [addInt_toInt]; rfl))
  refine ⟨fun hs hn ext => ?_, fun hs hn => ?_, fun t o ext hs hus hop hw hh => ?_⟩
  · rw [exec_homePortAccess hf0 hu ext hn]
    exact main hs ext
  · rw [exec_incomingNWrite hf0 hu hn]
    exact main hs 0
  · intro hist hl
    obtain rfl : i = 0 := by
      rw [hus] at hu
      exact Nat.lt_one_iff.1 (List.getElem?_eq_some_iff.1 hu).1
    rw [exec_homePortAccess hf0 hu ext (by simp [AccessUnit.nWrite, hh, hop])]
    exact performHome_core hf0 hc0 hs hus hop hw hh hl

end Sys2Proof.Machine
end

section
/-! ### Stores through windows and to other tiles (R149 to R152, R367, R368, R385, R410) -/

namespace Sys2Proof.Machine

/-! #### The stops of a store that is sent -/

theorem firstTrap_of_none {a b : Option Trap} (h : a = none) : firstTrap a b = b := by
  rw [h]
  rfl

/-- The release buffer of a context that is no replica holds no store back. -/
theorem bufferBlock_none {s : State} (h : s.me.holds = false) (n : Nat) : s.bufferBlock n = none := by
  simp [State.bufferBlock, h]

theorem windowCheck_enabled {c : Context} {w : Win} (h : (c.window w).msb = true) : windowCheck c w = none := if_pos h

theorem windowCheck_disabled {c : Context} {w : Win} (h : (c.window w).msb = false) :
    windowCheck c w = some { name := .queueConfig, tval := w.setWidth 64 + 16 } := if_neg (by simp [h])

/-! #### What is sent -/

/-- A store through a window of a context that is no replica is sent. -/
theorem storeWindow_sent {s : State} (h : s.me.holds = false) (w : Win) (word o : Word) (bs : List Byte) :
    s.storeWindow w word o bs = (s.modMe (fun c => setTdm (c.captureSpm true true (winY0 word * 32 + winX0 word)
      (firstOut (winRange word) o bs.length)) (winDies word))).multicast s.cur.tile s.me.uid word o bs :=
  if_neg (by simp [h])

/-- An N store of a context that is no replica is sent, with its post where it has one. -/
theorem storeN_sent {s : State} (h : s.me.holds = false) (base o : Word) (bs : List Byte) (ctr : Word) (post : Bool) :
    s.storeN base o bs (if post then some ctr else none) = (s.modMe (fun c =>
      let c1 := c.captureSpm true true (nTileId base).toNat (firstOut (s.tile (nTileId base).toNat).limit o bs.length)
      setTdm (if post then c1.captureSpm true true (nTileId base).toNat
        (firstOut (s.tile (nTileId base).toNat).limit ctr 8) else c1)
        [stackOf (nTileId base).toNat])).putn (nTileId base) o bs (if post then some ctr else none) := by
  cases post <;> exact if_neg (by simp [h])

/-! #### The statement -/

section
variable {s : State} (h : s.me.holds = false)
include h

/-- A store with its source ready and its checks passed issues. -/
theorem exec_sent {i : Instr} {m : Meaning} (hm : meaningOf i = some m) (hw : i.wf = true) (ha : i.saOnly = false)
    (hv : i.vbOnly = false) (hi : m.illegal s = false) {n : Nat} (hb : m.block s = s.bufferBlock n)
    (hx : m.misses s = []) (hh : ∀ q ∈ m.heads, s.headReady q = true) (hc : m.check s = none)
    (hd : m.configures = none) : exec i s = .next (m.effect s s) :=
  exec_issued i m s hm hw (slotOk_any _ _ ha hv) hi hh (hb.trans (bufferBlock_none h n)) hx hc (.inl hd)

end

/-- The register after s_63 does not exist: a post from it is ill-formed. -/
theorem post_wf {post : Bool} {a : SReg} (h : post = true → a ≠ 63) : (!(post && a == 63)) = true := by
  cases post
  · rfl
  · simpa using h rfl

/-- Settles O35: the window stores send a multicast store, and the N stores the write and its post. -/
theorem windowAndNeighbourStoresLeave : Obligations.WindowAndNeighbourStoresLeave := by
  intro s x win d a off4 off7 off src post hp z c word sent target lim put
  refine ⟨fun ha hw => ?_, fun ha hw hr => ?_, fun ha hw => ?_, fun hpost hc => ?_, fun hpost hc hr => ?_⟩
  · have hk : (stmcMeaning x win d a off4).check s = none :=
      (firstTrap_of_none (alignTrap_aligned ha)).trans (windowCheck_enabled hw)
    rw [exec_sent hp (m := stmcMeaning x win d a off4) rfl rfl rfl rfl rfl rfl rfl (headsReady_of_nil _ s rfl) hk rfl]
    exact congrArg _ (storeWindow_sent hp win _ _ _)
  · have hk : (vstmcMeaning win src a off7).check s = none :=
      (firstTrap_of_none (sourceReady_check s src hr)).trans
        ((firstTrap_of_none (alignTrap_aligned ha)).trans (windowCheck_enabled hw))
    rw [exec_sent hp (m := vstmcMeaning win src a off7) rfl rfl rfl rfl rfl rfl rfl (sourceReady_heads s src hr) hk rfl]
    exact congrArg _ (storeWindow_sent hp win _ _ _)
  · exact exec_trapped _ (stmcMeaning x win d a off4) s _ rfl rfl (slotOk_any _ _ rfl rfl) rfl
      (headsReady_of_nil _ s rfl) (bufferBlock_none hp 2) rfl
      ((firstTrap_of_none (alignTrap_aligned ha)).trans (windowCheck_disabled hw))
  · rw [exec_sent hp (i := .putn x post d a off) (m := putnMeaning x post d a off) rfl (post_wf hpost) rfl rfl rfl rfl rfl
      (headsReady_of_nil _ s rfl) hc rfl]
    exact congrArg _ (storeN_sent hp _ _ _ _ post)
  · have hk : (vputnMeaning post src a off).check s = none :=
      (firstTrap_of_none (sourceReady_check s src hr)).trans hc
    rw [exec_sent hp (i := .vputn post src a off) (m := vputnMeaning post src a off) rfl (post_wf hpost) rfl rfl rfl rfl rfl
      (sourceReady_heads s src hr) hk rfl]
    exact congrArg _ (storeN_sent hp _ _ _ _ post)

end Sys2Proof.Machine
end

section
/-! ### Stores to tensors, capacity and host memory (R137, R155, R156, R169 to R171, R384, R407, R415) -/

namespace Sys2Proof.Machine

/-! #### An access that the tables do not translate -/

/-- The steps of R62 for one syllable whose access misses: its context parks (R171). -/
theorem issueActive_parked (m : Meaning) (s : State) (hh : ∀ q ∈ m.heads, s.headReady q = true) (hb : m.block s = none)
    (hm : m.misses s ≠ []) :
    issueActive [(s.cur.pos, m)] 0 0 s = .ended (s.park (m.misses s) (m.missTval s)) := by
  have hp : poisonTrap s.me s.gtc.toNat (readHeads [(s.cur.pos, m)] 0) = none := by
    rw [readHeads_single]
    exact poisonTrap_none _ _ _ (fun q hq => ((headReady_iff s q).1 (hh q hq)).2.2)
  have hk : headBlock s.me s.gtc.toNat (readHeads [(s.cur.pos, m)] 0) = none := by
    rw [readHeads_single]
    exact headBlock_none _ _ _ (fun q hq => ((headReady_iff s q).1 (hh q hq)).2.1)
  have hbl : blockOf [(s.cur.pos, m)] 0 s = none := by
    unfold blockOf
    rw [hk]
    simp [atPos_self, hb]
  have ht : missedTval [(s.cur.pos, m)] s = m.missTval s := by
    unfold missedTval
    rw [List.find?_cons_of_pos (by simpa [atPos_self] using hm)]
    rfl
  obtain ⟨n, ns, hn⟩ := List.exists_cons_of_ne_nil hm
  unfold issueActive
  rw [hp, hbl, ht]
  simp [atPos_self, hn]

theorem exec_parked (i : Instr) (m : Meaning) (s : State) (h : meaningOf i = some m) (hw : i.wf = true)
    (hs : slotOk i s.cur.pos = true) (hi : m.illegal s = false) (hh : ∀ q ∈ m.heads, s.headReady q = true)
    (hb : m.block s = none) (hm : m.misses s ≠ []) : exec i s = .next (s.park (m.misses s) (m.missTval s)) := by
  rw [exec_meaning i m s h]
  unfold runSyllable
  rw [slot_passes i _ hs, issueActive_parked m s hh hb hm]
  simp [hw, hi, Issue.state]

/-! #### The checks of a translated access -/

theorem answerTrap_none {c : Context} (h : c.answer = none) (tval : Word) : answerTrap c tval = none := by
  rw [answerTrap, h]

section
variable {s : State} {g : Target} {perm : BitVec 4}

theorem tableCheck_translated (h : s.translated g perm) (active : Bool) : tableCheck s active g perm = none := by
  obtain ⟨-, ha, -, hp, hpt⟩ := h
  cases active
  · rfl
  · exact (firstTrap_of_none (answerTrap_none ha _)).trans ((firstTrap_of_none hp).trans hpt)

/-- PROTECTION for a place of another pod, or for an entry without the permission. -/
theorem podTrap_cases (node : BitVec 21) (d : Option Desc) (tval : Word) :
    podTrap node d tval = none ∨ podTrap node d tval = some { name := .protection, tval := tval } := by
  unfold podTrap
  split
  · split
    · exact .inl rfl
    · exact .inr rfl
  · exact .inl rfl

theorem tableCheck_refused (ha : s.me.answer = none) (hp : permitted perm ((s.foundHere g).map Prod.snd) = false) :
    tableCheck s true g perm = some { name := .protection, tval := g.tval } := by
  refine (firstTrap_of_none (answerTrap_none ha _)).trans ?_
  have hpt : permTrap perm (s.foundHere g) g.tval = some { name := .protection, tval := g.tval } := if_neg (by simp [hp])
  rw [hpt]
  obtain hd | hd := podTrap_cases s.node (g.desc s s.cur.tile.toNat s.me.asid) g.tval <;> rw [hd] <;> rfl

theorem missesFor_active (ha : s.me.answer = none) (g : Target) :
    missesFor s true g = g.needs s s.cur.tile.toNat s.me.asid := by simp [missesFor, ha]

end

/-! #### The stores of D, C and H -/

section
variable {s : State} {g : Target} {bs : List Byte}

theorem storeFound_empty (h : unitsOf (fun p => .store (p.slice bs)) (s.foundHere g) = []) :
    s.storeFound g (s.foundHere g) bs = s := if_pos (by rw [h]; rfl)

/-- The state that has counted the requests of a store: those of a named tensor or of the flat view (R161). -/
def State.storeCounted (s : State) (g : Target) : State :=
  match g with
  | .tensor _ _ _ => s.numbered.countRequests s.cur.tile.toNat s.cur.slot s.me.uid (s.foundHere g)
  | .cap _ _ | .host _ _ => s.numbered.countRequests s.cur.tile.toNat s.cur.slot s.me.uid []

theorem storeFound_flies (h : unitsOf (fun p => .store (p.slice bs)) (s.foundHere g) ≠ []) :
    s.storeFound g (s.foundHere g) bs = (s.storeCounted g).fly s.nextId g.space
      (unitsOf (fun p => .store (p.slice bs)) (s.foundHere g)) true (causalTarget (s.foundHere g) g) .none [] g.tval
      (accessLatency s.cur.tile.toNat (s.foundHere g)) := by
  refine (if_neg (by simpa using h)).trans ?_
  cases g <;> rfl

/-- A store of D, C or H by a context that is no replica. -/
theorem exec_targetStore {i : Instr} {heads : List HReg} {src : State → Option Trap} {words : Nat}
    {gt : Context → Target} {data : State → List Byte} (hm : meaningOf i = some (targetStore heads src words gt data))
    (hw : i.wf = true) (ha : i.saOnly = false) (hv : i.vbOnly = false) (hp : s.me.holds = false)
    (hh : ∀ q ∈ heads, s.headReady q = true) (hsrc : src s = none) (hg : gt s.me = g) (hdata : data s = bs) :
    (s.translated g 0b0100 → unitsOf (fun p => .store (p.slice bs)) (s.foundHere g) ≠ [] →
        exec i s = .next ((s.storeCounted g).fly s.nextId g.space
          (unitsOf (fun p => .store (p.slice bs)) (s.foundHere g)) true (causalTarget (s.foundHere g) g) .none [] g.tval
          (accessLatency s.cur.tile.toNat (s.foundHere g))))
      ∧ (s.translated g 0b0100 → unitsOf (fun p => .store (p.slice bs)) (s.foundHere g) = [] → exec i s = .next s)
      ∧ (formCheck s g = none → s.me.answer = none → g.needs s s.cur.tile.toNat s.me.asid = [] →
          permitted 0b0100 ((s.foundHere g).map Prod.snd) = false →
          exec i s = .next (s.raise { name := .protection, tval := g.tval }))
      ∧ (s.me.answer = none → g.needs s s.cur.tile.toNat s.me.asid ≠ [] →
          exec i s = .next (s.park (g.needs s s.cur.tile.toNat s.me.asid) g.tval)) := by
  subst hg hdata
  have hslot := slotOk_any i s.cur.pos ha hv
  have hb : (targetStore heads src words gt data).block s = none := bufferBlock_none hp words
  have hmiss : s.me.answer = none → (targetStore heads src words gt data).misses s
      = (gt s.me).needs s s.cur.tile.toNat s.me.asid := fun h => by
    simp only [targetStore, hp, Bool.not_false, missesFor_active h]
  have hcheck : formCheck s (gt s.me) = none →
      (targetStore heads src words gt data).check s = tableCheck s true (gt s.me) 0b0100 := fun h => by
    simp only [targetStore, firstTrap_of_none hsrc, firstTrap_of_none h, hp, Bool.not_false]
  have heffect : (targetStore heads src words gt data).effect s s
      = s.storeFound (gt s.me) (s.foundHere (gt s.me)) (data s) := if_neg (by simp [hp])
  have hissued : s.translated (gt s.me) 0b0100 →
      exec i s = .next (s.storeFound (gt s.me) (s.foundHere (gt s.me)) (data s)) := fun h => by
    have hc := (hcheck h.1).trans (tableCheck_translated h true)
    obtain ⟨-, hans, hneed, -⟩ := h
    rw [exec_issued i _ s hm hw hslot rfl hh hb ((hmiss hans).trans hneed) hc (.inl rfl), heffect]
  refine ⟨fun h hu => ?_, fun h hu => ?_, fun hf hans hneed hperm => ?_, fun hans hneed => ?_⟩
  · rw [hissued h, storeFound_flies hu]
  · rw [hissued h, storeFound_empty hu]
  · exact exec_trapped i _ s _ hm hw hslot rfl hh hb ((hmiss hans).trans hneed)
      ((hcheck hf).trans (tableCheck_refused hans hperm))
  · rw [← hmiss hans] at hneed ⊢
    exact exec_parked i _ s hm hw hslot rfl hh hb hneed

end

/-! #### The elements that lie OUTSIDE (R156) -/

/-- A part that lies in the tensor holds byte x of the access. -/
def Part.holds (p : Part) (x : Nat) : Prop := (∀ fill, p.span ≠ .outside fill) ∧ p.off ≤ x ∧ x < p.off + p.len

/-- Two neighbouring parts put together hold the bytes of both. -/
theorem joinParts_holds {p q : Part} (h : mergeable p q = true) (x : Nat) :
    (joinParts p q).holds x ↔ p.holds x ∨ q.holds x := by
  obtain ⟨po, pl, ps, pp⟩ := p
  obtain ⟨qo, ql, qs, qp⟩ := q
  cases ps <;> cases qs <;> simp [mergeable] at h <;> simp [joinParts, Part.holds] <;> omega

theorem mergeParts_holds (ps : List Part) (x : Nat) : (∃ p ∈ mergeParts ps, p.holds x) ↔ ∃ p ∈ ps, p.holds x := by
  induction ps with
  | nil => simp [mergeParts]
  | cons p ps ih =>
    rw [mergeParts]
    split
    · next h => simp_all
    · next q qs h =>
      split
      · next hm =>
        rw [h] at ih
        simp only [List.mem_cons, exists_eq_or_imp, joinParts_holds hm, or_assoc] at ih ⊢
        rw [ih]
      · rw [h] at ih
        simp only [List.mem_cons, exists_eq_or_imp] at ih ⊢
        rw [ih]

/-- Byte 0 of element i of a vector access lies in a part exactly where the element lies in the tensor. -/
theorem vectorParts_holds (node : BitVec 21) (d : Desc) (id : Nat) (coords : Word) {i : Nat} (hi : i < 256 / d.elemBytes) :
    (∃ p ∈ vectorParts node d id coords, p.holds (i * d.elemBytes)) ↔ d.place (stepC0 (coordsOf coords) i) ≠ none := by
  have hpos : 0 < d.elemBytes := Nat.pos_of_ne_zero (fun h => by simp [h] at hi)
  have hspan : ∀ j, (elemPart node d id (stepC0 (coordsOf coords) j) (j * d.elemBytes)).holds (i * d.elemBytes)
      ↔ d.place (stepC0 (coordsOf coords) j) ≠ none ∧ j = i := fun j => by
    have hj : (j * d.elemBytes ≤ i * d.elemBytes ∧ i * d.elemBytes < j * d.elemBytes + d.elemBytes) ↔ j = i := by
      rw [← Nat.succ_mul, Nat.mul_le_mul_right_iff hpos, Nat.mul_lt_mul_right hpos]
      omega
    have ho : (∀ fill, (elemPart node d id (stepC0 (coordsOf coords) j) (j * d.elemBytes)).span ≠ .outside fill)
        ↔ d.place (stepC0 (coordsOf coords) j) ≠ none := by
      cases hd : d.place (stepC0 (coordsOf coords) j) with
      | none => simp [elemPart, hd]
      | some x =>
        simp only [elemPart, hd]
        split <;> simp
    exact and_congr ho hj
  rw [vectorParts, mergeParts_holds]
  simp only [List.mem_map, List.mem_range, exists_exists_and_eq_and, hspan]
  exact ⟨fun ⟨j, _, h, hj⟩ => hj ▸ h, fun h => ⟨i, hi, h, rfl⟩⟩

/-- A part has no translation and no need exactly where it lies OUTSIDE. -/
theorem cacheTrans_none (s : State) (x : Tile) (asid : BitVec 12) (p : Part) :
    cacheTrans s x asid p = .none ↔ ∃ fill, p.span = .outside fill := by
  unfold cacheTrans
  split
  · split
    · split <;> simp_all
    · simp_all
  · split <;> simp_all
  · split <;> simp_all
  all_goals simp_all

theorem missesOf_nil {ts : List Trans} (h : missesOf ts = []) (n : Need) : Trans.miss n ∉ ts := by
  intro hn
  have hmem : n ∈ missesOf ts := List.mem_eraseDups.2 (List.mem_filterMap.2 ⟨_, hn, rfl⟩)
  simp [h] at hmem

/-- A byte of a translated access lies in a unit exactly where a part in the tensor holds it. -/
theorem unitsOf_covers (op : Part → UnitOp) (found : List (Part × Trans)) (y : Nat)
    (hn : ∀ x ∈ found, (x.2 = .none ↔ ∃ fill, x.1.span = .outside fill) ∧ ∀ n, x.2 ≠ .miss n) :
    (∃ u ∈ unitsOf op found, u.off ≤ y ∧ y < u.off + u.len) ↔ ∃ x ∈ found, x.1.holds y := by
  simp only [unitsOf, List.mem_filterMap]
  constructor
  · rintro ⟨u, ⟨⟨p, tr⟩, hx, hu⟩, hy⟩
    obtain ⟨ho, -⟩ := hn _ hx
    cases tr with
    | home a perm e w =>
      cases hu
      exact ⟨_, hx, fun fill hf => absurd (ho.2 ⟨fill, hf⟩) (by simp), hy⟩
    | miss n => cases hu
    | none => cases hu
  · rintro ⟨⟨p, tr⟩, hx, hin, hy⟩
    obtain ⟨ho, hm⟩ := hn _ hx
    cases tr with
    | home a perm e w => exact ⟨_, ⟨_, hx, rfl⟩, hy⟩
    | miss n => exact absurd rfl (hm n)
    | none =>
      obtain ⟨fill, hf⟩ := ho.1 rfl
      exact absurd hf (hin fill)

section
variable {s : State} {a coords : Word} {k : DKind} {de : Desc} (ha : a ≠ 0)
  (hd : cachedDesc s s.cur.tile.toNat s.me.asid a = some de)
include ha hd

/-- What an access to a named tensor touches: the parts that its descriptor gives. -/
theorem foundHere_tensor : s.foundHere (.tensor a coords k)
    = (tensorParts s.node de a.toNat coords k).map (fun p => (p, cacheTrans s s.here s.me.asid p)) := by
  simp only [State.foundHere, Target.found, Target.parts, hd, if_neg ha]
  rfl

/-- A translated access misses no part. -/
theorem foundHere_translated {perm : BitVec 4} (h : s.translated (.tensor a coords k) perm) :
    ∀ x ∈ s.foundHere (.tensor a coords k), (x.2 = .none ↔ ∃ fill, x.1.span = .outside fill) ∧ ∀ n, x.2 ≠ .miss n := by
  obtain ⟨hf, -, hneed, -⟩ := h
  have hform : (Target.tensor a coords k).formTrap = none := by
    unfold formCheck firstTrap at hf
    split at hf
    · cases hf
    · split at hf
      · cases hf
      · assumption
  have hmiss : missesOf ((s.foundHere (.tensor a coords k)).map Prod.snd) = [] := by
    simpa [Target.needs, hform, hd, State.foundHere] using hneed
  intro x hx
  refine ⟨?_, fun n hn => missesOf_nil hmiss n (hn ▸ List.mem_map_of_mem hx)⟩
  rw [foundHere_tensor ha hd] at hx
  obtain ⟨p, -, rfl⟩ := List.mem_map.1 hx
  exact cacheTrans_none _ _ _ p

/-- The units of an access to one element OUTSIDE are none. -/
theorem unitsOf_outside (op : Part → UnitOp) (hp : de.place (coordsOf coords) = none) :
    unitsOf op (s.foundHere (.tensor a coords .elem)) = [] := by
  rw [foundHere_tensor ha hd]
  simp [tensorParts, elemPart, hp, unitsOf, cacheTrans]

/-- An element of a vector access lies OUTSIDE exactly where no unit covers it. -/
theorem unitsOf_vector (op : Part → UnitOp) {perm : BitVec 4} (h : s.translated (.tensor a coords .vector) perm) {i : Nat}
    (hi : i < 256 / de.elemBytes) : de.place (stepC0 (coordsOf coords) i) = none
      ↔ ∀ u ∈ unitsOf op (s.foundHere (.tensor a coords .vector)),
          ¬ (u.off ≤ i * de.elemBytes ∧ i * de.elemBytes < u.off + u.len) := by
  have hcov := unitsOf_covers op _ (i * de.elemBytes) (foundHere_translated ha hd h)
  have hparts : (∃ x ∈ s.foundHere (.tensor a coords .vector), x.1.holds (i * de.elemBytes))
      ↔ ∃ p ∈ vectorParts s.node de a.toNat coords, p.holds (i * de.elemBytes) := by
    rw [foundHere_tensor ha hd]
    simp [tensorParts]
  rw [hparts, vectorParts_holds _ _ _ _ hi] at hcov
  simpa using (not_congr hcov).symm

end

/-! #### The statement -/

/-- Settles O37: each store is a `targetStore`; an element OUTSIDE has no unit. -/
theorem translatedStoresLeave : Obligations.TranslatedStoresLeave := by
  intro s x d a c src off7 off10 hp z cx t units counted stores ge gv
  refine ⟨?_, ?_, ?_, fun hr => ⟨?_, ?_, ?_⟩, fun de ha hd => ⟨fun h ho => ?_, fun h i hi => ?_⟩⟩
  · exact exec_targetStore (i := .std d a c) (heads := []) rfl rfl rfl rfl hp nofun rfl rfl rfl
  · exact exec_targetStore (i := .stc x d a off7) (heads := []) (gt := fun c => .cap (effAddrB c a off7 z) z)
      (data := fun s => bytesOfNat z (s.me.sreg d).toNat) rfl rfl rfl rfl hp nofun rfl rfl rfl
  · exact exec_targetStore (i := .sth x d a off7) (heads := []) (gt := fun c => .host (effAddrB c a off7 z) z)
      (data := fun s => bytesOfNat z (s.me.sreg d).toNat) rfl rfl rfl rfl hp nofun rfl rfl rfl
  · exact exec_targetStore (i := .vstd src a c) rfl rfl rfl rfl hp (sourceReady_heads s src hr)
      (sourceReady_check s src hr) rfl rfl
  · exact exec_targetStore (i := .vstc src a off10) rfl rfl rfl rfl hp (sourceReady_heads s src hr)
      (sourceReady_check s src hr) rfl rfl
  · exact exec_targetStore (i := .vsth src a off10) rfl rfl rfl rfl hp (sourceReady_heads s src hr)
      (sourceReady_check s src hr) rfl rfl
  · exact (exec_targetStore (i := .std d a c) (heads := []) rfl rfl rfl rfl hp nofun rfl rfl rfl).2.1 h
      (unitsOf_outside ha hd _ ho)
  · exact unitsOf_vector ha hd _ h hi

end Sys2Proof.Machine
end

section
/-! ### CADD, CREAD and CWAIT of counters in N space and in tensors (R326, R333, R336, R337) -/

namespace Sys2Proof.Machine

/-! #### Steps that keep the ways of a context -/

/-- From one state to another the cursor stays, and its context keeps its number, its part in a replica group and its
log stream. -/
def State.KeepsWays (s t : State) : Prop :=
  t.cur = s.cur ∧ t.me.uid = s.me.uid ∧ t.me.replica = s.me.replica ∧ t.me.log = s.me.log

section
variable {s t : State}

theorem State.KeepsWays.refl (s : State) : s.KeepsWays s := ⟨rfl, rfl, rfl, rfl⟩

theorem State.KeepsWays.modMe (h : s.KeepsWays t) {f : Context → Context} (hu : (f t.me).uid = t.me.uid)
    (hr : (f t.me).replica = t.me.replica) (hl : (f t.me).log = t.me.log) : s.KeepsWays (t.modMe f) := by
  obtain ⟨h1, h2, h3, h4⟩ := h
  refine ⟨h1, ?_, ?_, ?_⟩ <;> rw [me_modMe]
  · exact hu.trans h2
  · exact hr.trans h3
  · exact hl.trans h4

/-- A step that leaves the cursor and the tiles. -/
theorem State.KeepsWays.keep {u : State} (h : s.KeepsWays t) (hc : u.cur = t.cur) (ht : u.tiles = t.tiles) :
    s.KeepsWays u := by
  have hme : u.me = t.me := by
    unfold State.me State.ctx State.tile
    rw [hc, ht]
  unfold State.KeepsWays
  rwa [hme, hc]

theorem State.KeepsWays.fly (h : s.KeepsWays t) (id : Nat) (sp : Space) (us : List AccessUnit) (w : Bool) (o : OrderClass)
    (sink : Sink) (data : List Byte) (tval : Word) (lat : Nat) :
    s.KeepsWays (t.fly id sp us w o sink data tval lat) := h.keep rfl rfl

theorem State.KeepsWays.dueAt (h : s.KeepsWays t) (id due : Nat) : s.KeepsWays (t.dueAt id due) := h.keep rfl rfl

theorem State.KeepsWays.numbered (h : s.KeepsWays t) : s.KeepsWays t.numbered := h.keep rfl rfl

theorem State.KeepsWays.acquireIf (h : s.KeepsWays t) (b : Bool) (id : Nat) : s.KeepsWays (t.acquireIf b id) := by
  cases b
  · exact h
  · exact h.modMe (f := fun c => { c with acquiring := c.acquiring ++ [id] }) rfl rfl rfl

theorem State.KeepsWays.observe (h : s.KeepsWays t) (ids : List Nat) : s.KeepsWays (t.observe ids) := by
  unfold State.observe
  split
  · exact h
  · exact h.modMe (f := fun c => { c with known := t.stillOpen (c.known ++ ids) }) rfl rfl rfl

theorem State.KeepsWays.plain (h : s.KeepsWays t) (hp : s.me.plain = true) : t.me.plain = true := by
  obtain ⟨-, -, hr, hl⟩ := h
  rwa [Context.plain, hr, hl]

/-- A plain context makes no cut. -/
theorem State.KeepsWays.cut (h : s.KeepsWays t) (hp : s.me.plain = true) (k : CutKind) (tag : Nat) : t.cut k tag = t := by
  obtain ⟨hg, -, -⟩ := (plain_iff _).1 (h.plain hp)
  exact if_neg (by simp [holds_false _ hg])

/-- A plain context records nothing. -/
theorem State.KeepsWays.logEntry (h : s.KeepsWays t) (hp : s.me.plain = true) (cls : BitVec 8) (b : Word) (ws : List Word) :
    t.logEntry s.cur.tile.toNat s.cur.slot s.me.uid cls b ws = t := by
  have hl := ((plain_iff _).1 (h.plain hp)).2.1
  obtain ⟨hc, hu, -, -⟩ := h
  refine quiet_logEntry _ _ _ _ _ _ _ (fun c hx => ?_)
  have hme := uidCtx_me t
  rw [hc, hu] at hme
  cases hme.symm.trans hx
  exact hl

end

/-- The first access out of range reaches SPMERR alone. -/
theorem captureSpm_frame (c : Context) (wr remote : Bool) (tile : Nat) (a : Option Word) :
    ∃ sp, c.captureSpm wr remote tile a = { c with special := sp } := by
  unfold Context.captureSpm
  split
  · split <;> exact ⟨_, rfl⟩
  · exact ⟨_, rfl⟩

theorem State.KeepsWays.captureSpm {s t : State} (h : s.KeepsWays t) (wr remote : Bool) (tile : Nat) (a : Option Word) :
    s.KeepsWays (t.modMe (fun c => c.captureSpm wr remote tile a)) := by
  obtain ⟨sp, hsp⟩ := captureSpm_frame t.me wr remote tile a
  refine h.modMe ?_ ?_ ?_ <;> rw [hsp]

/-- A step that leaves the cursor and the number of its context changes that context. -/
theorem modUid_cursor {s t : State} (hc : t.cur = s.cur) (hu : t.me.uid = s.me.uid) (f : Context → Context) :
    t.modUid s.cur.tile.toNat s.cur.slot s.me.uid f = t.modMe f := by
  rw [← hc, ← hu]
  exact modUid_me t f

theorem countRequests_eq (s : State) (fo : List (Part × Trans)) :
    ∃ near far bits, s.countRequests s.cur.tile.toNat s.cur.slot s.me.uid fo
      = (s.modHere (fun x => x.count s.gtc.toNat near far)).modMe (fun c => setTdm c bits) := by
  have h : ∀ near far bits, (s.modHere (fun x => x.count s.gtc.toNat near far)).modUid s.cur.tile.toNat s.cur.slot
      s.me.uid (fun c => setTdm c bits)
      = (s.modHere (fun x => x.count s.gtc.toNat near far)).modMe (fun c => setTdm c bits) := fun near far bits =>
    modUid_cursor (s := s) (t := s.modHere (fun x => x.count s.gtc.toNat near far)) rfl
      (congrArg Context.uid (me_modHere s _)) _
  exact ⟨_, _, _, h _ _ _⟩

theorem State.KeepsWays.countRequests {s t : State} (h : s.KeepsWays t) (fo : List (Part × Trans)) :
    s.KeepsWays (t.countRequests t.cur.tile.toNat t.cur.slot t.me.uid fo) := by
  obtain ⟨near, far, bits, he⟩ := countRequests_eq t fo
  have hme : (t.modHere (fun x => x.count t.gtc.toNat near far)).me = t.me := me_modHere t _
  rw [he]
  refine State.KeepsWays.modMe ?_ rfl rfl rfl
  unfold State.KeepsWays
  rw [hme]
  exact h

theorem State.KeepsWays.flyAtomic {s t : State} (h : s.KeepsWays t) (id : Nat) (g : Target) (fo : List (Part × Trans))
    (op : UnitOp) (sink : Sink) (n : Nat) (o : Ord) : s.KeepsWays (t.flyAtomic id g fo op sink n o) :=
  State.KeepsWays.acquireIf ((h.countRequests fo).fly ..) (ordAcq o) id

/-- The limit of a tile rests on the state of its contexts and their parts in replica groups. -/
theorem limit_modMe (s : State) (f : Context → Context) (hs : (f s.me).status = s.me.status)
    (hr : (f s.me).replica = s.me.replica) (t : Nat) : ((s.modMe f).tile t).limit = (s.tile t).limit := by
  by_cases ht : t = s.cur.tile.toNat
  · have htile : (s.modMe f).tile t = (s.tile t).setCtx s.cur.slot .primary (f s.me) := by
      rw [ht]
      exact here_modMe s f
    have hc : ∀ k b, (((s.modMe f).tile t).ctx k b).status = ((s.tile t).ctx k b).status
        ∧ (((s.modMe f).tile t).ctx k b).replica = ((s.tile t).ctx k b).replica := fun k b => by
      rw [htile, Tile.ctx_setCtx]
      split
      · next h =>
        obtain ⟨rfl, rfl⟩ := h
        rw [hs, hr, ht]
        exact ⟨rfl, rfl⟩
      · exact ⟨rfl, rfl⟩
    simp only [Tile.limit, hc]
  · rw [tile_modMe_other _ _ _ ht]

/-! #### References to counters (R326) -/

theorem counterRef_n {c : Context} {a : SReg} (h : (c.sreg a).msb = true) :
    counterRef c a 0 = .n (c.sreg a &&& 0x7FFFFFFFFFFFFFFF) := by simp [counterRef, h]

theorem counterRef_d {c : Context} (a : SReg) {b : SReg} (h : b ≠ 0) : counterRef c a b = .d (c.sreg a) (c.sreg b) :=
  if_pos h

section
variable {s : State} {x sa : Word} {act : Bool} {perm : BitVec 4}

theorem checkN_sound (ha : x.toNat % 8 = 0) (hn : nAddrOk x = true) (hd : s.me.det = false) :
    (CounterRef.n x).check s act sa perm = none := by simp [CounterRef.check, firstTrap, detTrap, ha, hn, hd]

theorem checkN_misaligned (ha : x.toNat % 8 ≠ 0) :
    (CounterRef.n x).check s act sa perm = some { name := .align, tval := sa } := by
  simp [CounterRef.check, firstTrap, ha]

theorem checkN_protected (ha : x.toNat % 8 = 0) (h : nAddrOk x = false ∨ s.me.det = true) :
    (CounterRef.n x).check s act sa perm = some { name := .protection, tval := sa } := by
  cases hn : nAddrOk x
  · simp [CounterRef.check, firstTrap, ha, hn]
  · have hd := h.resolve_left (by simp [hn])
    simp [CounterRef.check, firstTrap, detTrap, ha, hn, hd]

theorem checkD_translated {p q : Word} (h : s.translated (.tensor p q .elem) perm)
    (he : elementTrap s s.cur.tile.toNat s.me.asid p q .elem [3, 7] = none) :
    (CounterRef.d p q).check s act sa perm = none := by
  obtain ⟨hf, ha, -, hp, hpt⟩ := h
  refine (firstTrap_of_none hf).trans ?_
  cases act
  · rfl
  · exact (firstTrap_of_none (answerTrap_none ha _)).trans ((firstTrap_of_none he).trans ((firstTrap_of_none hp).trans hpt))

end

/-- A translated reference lacks nothing. -/
theorem needsD_translated {s : State} {p q : Word} {perm : BitVec 4} (h : s.translated (.tensor p q .elem) perm) :
    (CounterRef.d p q).needs s true = [] := by
  obtain ⟨-, ha, hn, -⟩ := h
  exact (missesFor_active ha _).trans hn

/-! #### CADD (R326, R333) -/

section
variable {s : State} {d a c : SReg} {o : Ord} (hp : s.me.plain = true)
include hp

theorem plain_holds : s.me.holds = false := holds_false _ ((plain_iff _).1 hp).1

theorem caddMeaning_block {r : CounterRef} (hr : counterRef s.me a c = r) (hs : ∀ off, r ≠ .s off) :
    (caddMeaning d a c o).block s = none := by
  cases r with
  | s off => exact absurd rfl (hs off)
  | n x =>
    simp only [caddMeaning, hr]
    exact bufferBlock_none (plain_holds hp) 2
  | d p q =>
    simp only [caddMeaning, hr]
    exact bufferBlock_none (plain_holds hp) 3

theorem caddMeaning_misses {r : CounterRef} (hr : counterRef s.me a c = r) :
    (caddMeaning d a c o).misses s = r.needs s true := by
  simp only [caddMeaning, hr, plain_holds hp, Bool.not_false]

/-- A counter that is not in S: CADD checks its amount, and then the reference. -/
theorem caddMeaning_check {r : CounterRef} (hr : counterRef s.me a c = r) (hs : ∀ off, r ≠ .s off) :
    (caddMeaning d a c o).check s
      = firstTrap (if (s.me.sreg d).msb then some { name := .counterDecrease, tval := s.me.sreg d } else none)
          (firstTrap (r.check s true (s.me.sreg a) 0b1110) none) := by
  cases r with
  | s off => exact absurd rfl (hs off)
  | n x => simp only [caddMeaning, hr, plain_holds hp, Bool.not_false]
  | d p q => simp only [caddMeaning, hr, plain_holds hp, Bool.not_false]

theorem caddMeaning_effect_n {x : Word} (hr : counterRef s.me a c = .n x) :
    let u := (s.captureCounter true x).modMe (fun c => setTdm c [stackOf (nTileId x).toNat])
    let lat := hopLatency s.cur.tile.toNat (nTileId x).toNat
    (caddMeaning d a c o).effect s s
      = ((u.numbered.fly u.nextId .n (nUnits (nTileId x) (ctrOff x) 8 (fun _ _ => .cadd (s.me.sreg d))) true (ordClass o)
          .none [] (nWord (nTileId x) (ctrOff x)) lat).dueAt u.nextId (s.gtc.toNat + lat)).acquireIf (ordAcq o)
            u.nextId := by
  intro u lat
  have hu : s.KeepsWays u :=
    (State.KeepsWays.captureSpm (.refl s) _ _ _ _).modMe (f := fun c => setTdm c [stackOf (nTileId x).toNat]) rfl rfl rfl
  have hk := ((hu.numbered.fly u.nextId .n (nUnits (nTileId x) (ctrOff x) 8 (fun _ _ => .cadd (s.me.sreg d))) true
    (ordClass o) .none [] (nWord (nTileId x) (ctrOff x)) lat).dueAt u.nextId (s.gtc.toNat + lat)).acquireIf (ordAcq o)
      u.nextId
  simp only [caddMeaning, hr, plain_holds hp, Bool.false_eq_true, if_false]
  cases o with
  | rel sc => exact hk.cut hp _ _
  | relaxed => rfl
  | acq sc => rfl

theorem caddMeaning_effect_d {p q : Word} (hr : counterRef s.me a c = .d p q) :
    (caddMeaning d a c o).effect s s = s.numbered.flyAtomic s.nextId (.tensor p q .elem)
      (s.foundHere (.tensor p q .elem)) (.cadd (s.me.sreg d)) .none 0 o := by
  have hk := (State.KeepsWays.refl s).numbered.flyAtomic s.nextId (.tensor p q .elem) (s.foundHere (.tensor p q .elem)) (.cadd (s.me.sreg d)) .none 0 o
  simp only [caddMeaning, hr, plain_holds hp, Bool.false_eq_true, if_false]
  cases o with
  | rel sc => exact hk.cut hp _ _
  | relaxed => rfl
  | acq sc => rfl

/-- A CADD to a counter that is not in S, whose checks pass. -/
theorem exec_cadd {r : CounterRef} (hr : counterRef s.me a c = r) (hs : ∀ off, r ≠ .s off) (hm : r.needs s true = [])
    (hc : r.check s true (s.me.sreg a) 0b1110 = none) (hn : (s.me.sreg d).msb = false) :
    exec (.cadd d a c o) s = .next ((caddMeaning d a c o).effect s s) :=
  exec_issued _ _ s rfl rfl (slotOk_any _ _ rfl rfl) rfl (headsReady_of_nil _ s rfl) (caddMeaning_block hp hr hs)
    ((caddMeaning_misses hp hr).trans hm)
    (by rw [caddMeaning_check hp hr hs, hn, firstTrap_of_none (if_neg (by simp)), firstTrap_of_none hc]) (.inl rfl)

theorem exec_cadd_negative {r : CounterRef} (hr : counterRef s.me a c = r) (hs : ∀ off, r ≠ .s off)
    (hm : r.needs s true = []) (hn : (s.me.sreg d).msb = true) :
    exec (.cadd d a c o) s = .next (s.raise { name := .counterDecrease, tval := s.me.sreg d }) :=
  exec_trapped _ _ s _ rfl rfl (slotOk_any _ _ rfl rfl) rfl (headsReady_of_nil _ s rfl) (caddMeaning_block hp hr hs)
    ((caddMeaning_misses hp hr).trans hm) (by rw [caddMeaning_check hp hr hs, if_pos hn]; rfl)

theorem exec_cadd_trapped {r : CounterRef} {tr : Trap} (hr : counterRef s.me a c = r) (hs : ∀ off, r ≠ .s off)
    (hm : r.needs s true = []) (hc : r.check s true (s.me.sreg a) 0b1110 = some tr) (hn : (s.me.sreg d).msb = false) :
    exec (.cadd d a c o) s = .next (s.raise tr) :=
  exec_trapped _ _ s _ rfl rfl (slotOk_any _ _ rfl rfl) rfl (headsReady_of_nil _ s rfl) (caddMeaning_block hp hr hs)
    ((caddMeaning_misses hp hr).trans hm)
    (by rw [caddMeaning_check hp hr hs, hn, firstTrap_of_none (if_neg (by simp)), hc]; rfl)

/-! #### CREAD (R336) -/

omit hp in
theorem creadMeaning_block {r : CounterRef} (hr : counterRef s.me a c = r) (hs : ∀ off, r ≠ .s off) :
    (creadMeaning d a c o).block s = none := by
  cases r with
  | s off => exact absurd rfl (hs off)
  | n x => simp only [creadMeaning, hr]
  | d p q => simp only [creadMeaning, hr]

theorem creadMeaning_misses {r : CounterRef} (hr : counterRef s.me a c = r) :
    (creadMeaning d a c o).misses s = r.needs s true := by simp only [creadMeaning, hr, plain_performs s hp]

theorem creadMeaning_check {r : CounterRef} (hr : counterRef s.me a c = r) :
    (creadMeaning d a c o).check s = r.check s true (s.me.sreg a) 0b1000 := by
  simp only [creadMeaning, hr, plain_performs s hp]

theorem creadMeaning_effect_n {x : Word} (hr : counterRef s.me a c = .n x) :
    (creadMeaning d a c o).effect s s =
      (let u := s.captureCounter false x
       (((u.numbered.awaited (.s d 0) 8 u.nextId).modMe (fun c => setTdm c [stackOf (nTileId x).toNat])).fly u.nextId .n
          (nUnits (nTileId x) (ctrOff x) 8 (fun _ _ => .load)) false .relaxed (.landing 8 false) (List.replicate 8 0)
          (nWord (nTileId x) (ctrOff x)) (2 * hopLatency s.cur.tile.toNat (nTileId x).toNat + 4)).acquireIf (ordAcq o)
            u.nextId) := by
  have hk : s.KeepsWays (s.captureCounter false x).numbered :=
    State.KeepsWays.numbered (.captureSpm (.refl s) _ _ _ _)
  have hl := plain_landLate _ (hk.plain hp) (.s d 0) 8 (s.captureCounter false x).nextId
  simp only [creadMeaning, hr, plain_performs s hp, if_true]
  rw [← hl]
  rfl

theorem creadMeaning_effect_d {p q : Word} (hr : counterRef s.me a c = .d p q) :
    (creadMeaning d a c o).effect s s =
      (((s.numbered.awaited (.s d 0) 8 s.nextId).countRequests s.cur.tile.toNat s.cur.slot s.me.uid
          (s.foundHere (.tensor p q .elem))).fly s.nextId .d
        (unitsOf (fun _ => .load) (s.foundHere (.tensor p q .elem))) false .relaxed (.landing 8 false)
        (List.replicate 8 0) (dTval p q) (accessLatency s.cur.tile.toNat (s.foundHere (.tensor p q .elem)))).acquireIf
          (ordAcq o) s.nextId := by
  have hk := (State.KeepsWays.refl s).numbered
  have hl := plain_landLate _ (hk.plain hp) (.s d 0) 8 s.nextId
  simp only [creadMeaning, hr, plain_performs s hp, if_true]
  rw [← hl]
  rfl

theorem exec_cread {r : CounterRef} (hr : counterRef s.me a c = r) (hs : ∀ off, r ≠ .s off) (hm : r.needs s true = [])
    (hc : r.check s true (s.me.sreg a) 0b1000 = none) (ho : o.acqOnly = true) :
    exec (.cread d a c o) s = .next ((creadMeaning d a c o).effect s s) :=
  exec_issued _ _ s rfl ho (slotOk_any _ _ rfl rfl) rfl (headsReady_of_nil _ s rfl) (creadMeaning_block hr hs)
    ((creadMeaning_misses hp hr).trans hm) ((creadMeaning_check hp hr).trans hc) (.inl rfl)

theorem exec_cread_trapped {r : CounterRef} {tr : Trap} (hr : counterRef s.me a c = r) (hs : ∀ off, r ≠ .s off)
    (hm : r.needs s true = []) (hc : r.check s true (s.me.sreg a) 0b1000 = some tr) (ho : o.acqOnly = true) :
    exec (.cread d a c o) s = .next (s.raise tr) :=
  exec_trapped _ _ s _ rfl ho (slotOk_any _ _ rfl rfl) rfl (headsReady_of_nil _ s rfl) (creadMeaning_block hr hs)
    ((creadMeaning_misses hp hr).trans hm) ((creadMeaning_check hp hr).trans hc)

end

/-! #### CWAIT (R337) -/

/-- The state that a CWAIT leaves when it issues, before what its reference adds. -/
def State.passed (s : State) : State := s.modMe (fun c => { c with observed := none, cleared := none })

theorem passed_me (s : State) : s.passed.me = { s.me with observed := none, cleared := none } := me_modMe s _

theorem passed_keeps (s : State) : s.KeepsWays s.passed :=
  (State.KeepsWays.refl s).modMe (f := fun c => { c with observed := none, cleared := none }) rfl rfl rfl

theorem State.KeepsWays.waited {s t : State} (h : s.KeepsWays t) (r : CounterRef) : s.KeepsWays (t.waited r) := by
  cases r with
  | s off => exact h.observe _
  | n x =>
    exact ((h.captureSpm _ _ _ _).modMe (f := fun c => setTdm c [stackOf (nTileId x).toNat]) rfl rfl rfl).observe _
  | d p q => exact (h.countRequests _).observe _

/-- The unit of an N counter, as a watch or a presentation reads it. -/
def nCounter (x : Word) : AccessUnit :=
  { home := .scratch (nTileId x) (ctrOff x).toNat, off := 0, len := 8, op := .load, done := false, entry := none }

theorem nUnits_counter (x : Word) : nUnits (nTileId x) (ctrOff x) 8 (fun _ _ => .load) = [nCounter x] := by
  simp [nUnits, nUnitsOf, ceilDiv, nCounter, (ctrOff x).isLt]

theorem watchPlace_n (s : State) (x : Word) : watchPlace s (.n x) = some (nCounter x) := by
  rw [watchPlace, nUnits_counter]
  rfl

theorem watchPlace_d {s : State} {p q : Word} {u : AccessUnit} {us : List AccessUnit}
    (h : s.translated (.tensor p q .elem) 0b1000)
    (he : elementTrap s s.cur.tile.toNat s.me.asid p q .elem [3, 7] = none)
    (hu : unitsOf (fun _ => .load) (s.foundHere (.tensor p q .elem)) = u :: us) : watchPlace s (.d p q) = some u := by
  have hc : (CounterRef.d p q).check s true p 0b1000 = none := checkD_translated h he
  have hn := needsD_translated h
  exact (if_neg (by rw [hc, hn]; simp)).trans (congrArg List.head? hu)

/-- The wait of a presentation that may read its counter: for its value, or for the answer of the home. -/
def State.watchBlock (s : State) (u : AccessUnit) (sp : Space) (tval thr : Word) : Option BlockCond :=
  match watchValue s u with
  | some v => if v.ult thr then some (.watch (u.watched sp tval) thr) else none
  | none => some (.watch (u.watched sp tval) thr)

section
variable {s : State} {u : AccessUnit} {sp : Space} {tval thr : Word} (hr : u.home.readable = true)
include hr

theorem counterAt_readable : counterAt s u = some (BitVec.ofNat 64 (natOfBytes (placeRead s u.home 8 0))) := if_pos hr

theorem watchBlock_reached (ho : s.afterOf s.me s.cur.tile.toNat [u] false .relaxed = [])
    (hv : thr ≤ BitVec.ofNat 64 (natOfBytes (placeRead s u.home 8 0))) : s.watchBlock u sp tval thr = none := by
  have hlt : (BitVec.ofNat 64 (natOfBytes (placeRead s u.home 8 0))).ult thr = false := by
    rw [BitVec.ult_eq_decide]
    exact decide_eq_false (Nat.not_lt.2 hv)
  simp only [State.watchBlock, watchValue, ho, List.isEmpty_nil, if_true, counterAt_readable hr, hlt, Bool.false_eq_true,
    if_false]

theorem watchBlock_ahead (h : s.afterOf s.me s.cur.tile.toNat [u] false .relaxed ≠ []
    ∨ BitVec.ofNat 64 (natOfBytes (placeRead s u.home 8 0)) < thr) :
    s.watchBlock u sp tval thr = some (.watch (u.watched sp tval) thr) := by
  by_cases ho : s.afterOf s.me s.cur.tile.toNat [u] false .relaxed = []
  · have hlt : (BitVec.ofNat 64 (natOfBytes (placeRead s u.home 8 0))).ult thr = true := by
      rw [BitVec.ult_eq_decide]
      exact decide_eq_true (h.resolve_left (not_not.2 ho))
    simp only [State.watchBlock, watchValue, ho, List.isEmpty_nil, if_true, counterAt_readable hr, hlt]
  · simp [State.watchBlock, watchValue, ho]

end

section
variable {s : State} {a c : SReg} {thr : WaitThr} {sc : Scope} (hp : s.me.plain = true)
include hp

theorem cwaitMeaning_misses {r : CounterRef} (hr : counterRef s.me a c = r) :
    (cwaitMeaning thr a c sc).misses s = r.needs s true := by simp only [cwaitMeaning, hr, plain_performs s hp]

theorem cwaitMeaning_check {r : CounterRef} (hr : counterRef s.me a c = r) :
    (cwaitMeaning thr a c sc).check s = firstTrap (r.check s true (s.me.sreg a) 0b1000) (counterTrap s r) := by
  simp only [cwaitMeaning, hr, plain_performs s hp]

theorem cwaitMeaning_block_n {x : Word} (hr : counterRef s.me a c = .n x) (ha : x.toNat % 8 = 0) (hn : nAddrOk x = true)
    (hd : s.me.det = false) : (cwaitMeaning thr a c sc).block s
      = if s.me.observed.isSome || waitThr s.me thr == 0 then none
        else s.watchBlock (nCounter x) .n x (waitThr s.me thr) := by
  have hc : (CounterRef.n x).check s true x 0 = none := checkN_sound ha hn hd
  simp only [cwaitMeaning, plain_inMode s hp, hr, hc, watchPlace_n, Option.isSome_none, Bool.false_eq_true, if_false]
  rfl

/-- A reference to N space that traps does not wait. -/
theorem cwaitMeaning_block_bad {x : Word} (hr : counterRef s.me a c = .n x)
    (hc : ((CounterRef.n x).check s true x 0).isSome = true) : (cwaitMeaning thr a c sc).block s = none := by
  simp only [cwaitMeaning, plain_inMode s hp, hr, hc, if_true, ite_self]

theorem cwaitMeaning_block_d {p q : Word} {u : AccessUnit} (hr : counterRef s.me a c = .d p q)
    (hw : watchPlace s (.d p q) = some u) : (cwaitMeaning thr a c sc).block s
      = if s.me.observed.isSome || waitThr s.me thr == 0 then none
        else s.watchBlock u .d (dTval p q) (waitThr s.me thr) := by
  simp only [cwaitMeaning, plain_inMode s hp, hr, hw]
  rfl

/-- A reference that the tables do not translate does not wait: it parks. -/
theorem cwaitMeaning_block_missed {p q : Word} (hr : counterRef s.me a c = .d p q)
    (hw : watchPlace s (.d p q) = none) : (cwaitMeaning thr a c sc).block s = none := by
  simp only [cwaitMeaning, plain_inMode s hp, hr, hw, Option.bind_none, ite_self]

theorem counterTrap_n (x : Word) : counterTrap s (.n x) = if s.me.observed.isSome then none
    else placeTrap s (.ctx s.cur.tile s.cur.slot s.me.uid) .n (nWord (nTileId x) (ctrOff x)) (nCounter x).home none 8 := by
  simp only [counterTrap, watchPlace_n, plain_performs s hp, Bool.not_true, Bool.or_false, Option.bind_some]
  rfl

theorem counterTrap_d {p q : Word} {u : AccessUnit} (hw : watchPlace s (.d p q) = some u)
    (hu : u.home.readable = true) : counterTrap s (.d p q) = if s.me.observed.isSome then none
      else placeTrap s (.ctx s.cur.tile s.cur.slot s.me.uid) .d (dTval p q) u.home u.entry 8 := by
  simp only [counterTrap, hw, plain_performs s hp, Bool.not_true, Bool.or_false, Option.bind_some, hu, if_true]

/-- A CWAIT that issues and finds its counter: what its context learns, and no more. -/
theorem cwaitMeaning_effect {r : CounterRef} {u : AccessUnit} (hr : counterRef s.me a c = r) (hs : ∀ off, r ≠ .s off)
    (hw : watchPlace s r = some u) (hu : u.home.readable = true) :
    (cwaitMeaning thr a c sc).effect s s = s.passed.waited r := by
  have hk := (passed_keeps s).waited r
  have hread : (watchPlace s r).bind (counterAt s) = some (BitVec.ofNat 64 (natOfBytes (placeRead s u.home 8 0))) := by
    rw [hw]
    exact counterAt_readable hu
  cases r with
  | s off => exact absurd rfl (hs off)
  | n x =>
    simp only [cwaitMeaning, plain_inMode s hp, hr, hread, plain_shareIssued _ _ hp]
    cases s.me.observed <;> exact hk.logEntry hp _ _ _
  | d p q =>
    simp only [cwaitMeaning, plain_inMode s hp, hr, hread, plain_shareIssued _ _ hp]
    cases s.me.observed <;> exact hk.logEntry hp _ _ _

/-- A CWAIT on a counter of a home in this package: it issues with the answer of the home or with the value that it
finds, and otherwise leaves a watch there. -/
theorem exec_cwait {r : CounterRef} {u : AccessUnit} {sp : Space} {watch at_ : Word} {done : State}
    (hr : counterRef s.me a c = r) (hs : ∀ off, r ≠ .s off) (hw : watchPlace s r = some u)
    (hu : u.home.readable = true) (hm : r.needs s true = []) (hc : r.check s true (s.me.sreg a) 0b1000 = none)
    (hb : (cwaitMeaning thr a c sc).block s = if s.me.observed.isSome || waitThr s.me thr == 0 then none
      else s.watchBlock u sp watch (waitThr s.me thr))
    (ht : counterTrap s r = if s.me.observed.isSome then none
      else placeTrap s (.ctx s.cur.tile s.cur.slot s.me.uid) sp at_ u.home u.entry 8)
    (hd : s.passed.waited r = done) :
    let value := BitVec.ofNat 64 (natOfBytes (placeRead s u.home 8 0))
    let open_ := s.afterOf s.me s.cur.tile.toNat [u] false .relaxed
    let place := u.watched sp watch
    (s.me.observed.isSome = true → exec (.cwait thr a c sc) s = .next done)
    ∧ (s.me.observed = none → (waitThr s.me thr = 0 ∨ open_ = [] ∧ waitThr s.me thr ≤ value) →
        exec (.cwait thr a c sc) s
          = .next (match placeTrap s (.ctx s.cur.tile s.cur.slot s.me.uid) sp at_ u.home u.entry 8 with
            | none => done
            | some tr => s.raise tr))
    ∧ (s.me.observed = none → waitThr s.me thr ≠ 0 → (open_ ≠ [] ∨ value < waitThr s.me thr) →
        exec (.cwait thr a c sc) s
          = .next ((s.waitOn (.watch place (waitThr s.me thr))).blockOn (.watch place (waitThr s.me thr)))) := by
  intro value open_ place
  have hmiss := (cwaitMeaning_misses (thr := thr) (sc := sc) hp hr).trans hm
  have hcheck : (cwaitMeaning thr a c sc).check s = counterTrap s r :=
    (cwaitMeaning_check hp hr).trans (firstTrap_of_none hc)
  have hissue : (cwaitMeaning thr a c sc).block s = none → counterTrap s r = none →
      exec (.cwait thr a c sc) s = .next done := fun hn htr => by
    rw [exec_issued _ (cwaitMeaning thr a c sc) s rfl rfl (slotOk_any _ _ rfl rfl) rfl (headsReady_of_nil _ s rfl) hn
      hmiss (hcheck.trans htr) (.inl rfl), cwaitMeaning_effect hp hr hs hw hu, hd]
  refine ⟨fun ho => hissue (hb.trans (if_pos (by simp [ho]))) (ht.trans (if_pos ho)), fun ho hv => ?_, fun ho hz hv => ?_⟩
  · have hn : (cwaitMeaning thr a c sc).block s = none := by
      rw [hb]
      obtain hz | ⟨hopen, hle⟩ := hv
      · exact if_pos (by simp [hz])
      · rw [watchBlock_reached hu hopen hle]
        exact ite_self _
    have htr : counterTrap s r = placeTrap s (.ctx s.cur.tile s.cur.slot s.me.uid) sp at_ u.home u.entry 8 :=
      ht.trans (if_neg (by simp [ho]))
    cases hpt : placeTrap s (.ctx s.cur.tile s.cur.slot s.me.uid) sp at_ u.home u.entry 8 with
    | none => exact hissue hn (htr.trans hpt)
    | some tr =>
      exact exec_trapped _ (cwaitMeaning thr a c sc) s tr rfl rfl (slotOk_any _ _ rfl rfl) rfl
        (headsReady_of_nil _ s rfl) hn hmiss (hcheck.trans (htr.trans hpt))
  · refine exec_blocked _ (cwaitMeaning thr a c sc) s _ rfl rfl (slotOk_any _ _ rfl rfl) rfl rfl (hb.trans ?_)
    rw [if_neg (by rw [ho]; simpa using hz), watchBlock_ahead hu hv]

theorem exec_cwait_trapped {x : Word} {tr : Trap} (hr : counterRef s.me a c = .n x)
    (hb : ((CounterRef.n x).check s true x 0).isSome = true)
    (hc : (CounterRef.n x).check s true (s.me.sreg a) 0b1000 = some tr) :
    exec (.cwait thr a c sc) s = .next (s.raise tr) :=
  exec_trapped _ (cwaitMeaning thr a c sc) s tr rfl rfl (slotOk_any _ _ rfl rfl) rfl (headsReady_of_nil _ s rfl)
    (cwaitMeaning_block_bad hp hr hb) (cwaitMeaning_misses hp hr)
    (by rw [cwaitMeaning_check hp hr, hc]; rfl)

end

/-- The capture of an N counter takes the limit of its tile, which a context that has passed its wait leaves. -/
theorem passed_waited_n (s : State) (x : Word) : s.passed.waited (.n x)
    = ((s.passed.modMe (fun c => c.captureSpm false true (nTileId x).toNat
        (firstOut (s.tile (nTileId x).toNat).limit (ctrOff x) 8))).modMe
          (fun c => setTdm c [stackOf (nTileId x).toNat])).observe (s.passed.historyAt ((nCounter x).home.bytes 8)) := by
  have hl : (s.passed.tile (nTileId x).toNat).limit = (s.tile (nTileId x).toNat).limit := limit_modMe s _ rfl rfl _
  simp only [State.waited, State.captureCounter, hl]
  rfl

/-- The translations of an access rest on the tables and on the cache of the tile. -/
theorem foundHere_passed (s : State) (g : Target) : s.passed.foundHere g = s.foundHere g := by
  have ht : s.passed.tile s.cur.tile.toNat
      = s.here.setCtx s.cur.slot .primary { s.me with observed := none, cleared := none } := here_modMe s _
  change g.found s.passed s.cur.tile.toNat s.passed.me.asid = _
  rw [passed_me]
  cases g with
  | tensor p q k =>
    simp only [Target.found, cachedDesc, ht]
    rfl
  | cap p n =>
    simp only [Target.found, ht]
    rfl
  | host p n =>
    simp only [Target.found, ht]
    rfl

theorem passed_waited_d (s : State) (p q : Word) : s.passed.waited (.d p q)
    = (s.passed.countRequests s.cur.tile.toNat s.cur.slot s.me.uid (s.foundHere (.tensor p q .elem))).observe
        (s.passed.historyAt ((unitsOf (fun _ => .load) (s.foundHere (.tensor p q .elem))).flatMap
          (fun u => u.home.bytes 8))) := by
  simp only [State.waited, counterTarget, foundHere_passed, passed_me]
  rfl

/-! #### A reference that the tables do not translate (R171) -/

section
variable {s : State} {d a c : SReg} {o : Ord} {thr : WaitThr} {sc : Scope} {p q : Word} (hp : s.me.plain = true)
  (hr : counterRef s.me a c = .d p q) (ha : s.me.answer = none)
  (hn : (Target.tensor p q .elem).needs s s.cur.tile.toNat s.me.asid ≠ [])
include hp hr ha hn

theorem exec_cadd_parked : exec (.cadd d a c o) s
    = .next (s.park ((Target.tensor p q .elem).needs s s.cur.tile.toNat s.me.asid) (dTval (s.me.sreg a) (s.me.sreg c))) := by
  have hm := (caddMeaning_misses (d := d) (o := o) hp hr).trans (missesFor_active ha _)
  rw [exec_parked _ (caddMeaning d a c o) s rfl rfl (slotOk_any _ _ rfl rfl) rfl (headsReady_of_nil _ s rfl)
    (caddMeaning_block hp hr nofun) (hm ▸ hn), hm]
  rfl

theorem exec_cread_parked (ho : o.acqOnly = true) : exec (.cread d a c o) s
    = .next (s.park ((Target.tensor p q .elem).needs s s.cur.tile.toNat s.me.asid) (dTval (s.me.sreg a) (s.me.sreg c))) := by
  have hm := (creadMeaning_misses (d := d) (o := o) hp hr).trans (missesFor_active ha _)
  rw [exec_parked (.cread d a c o) (creadMeaning d a c o) s rfl ho (slotOk_any _ _ rfl rfl) rfl (headsReady_of_nil _ s rfl)
    (creadMeaning_block hr nofun) (hm ▸ hn), hm]
  rfl

theorem exec_cwait_parked : exec (.cwait thr a c sc) s
    = .next (s.park ((Target.tensor p q .elem).needs s s.cur.tile.toNat s.me.asid) (dTval (s.me.sreg a) (s.me.sreg c))) := by
  have hm := (cwaitMeaning_misses (thr := thr) (sc := sc) hp hr).trans (missesFor_active ha _)
  have hmiss : (CounterRef.d p q).needs s true ≠ [] := by
    rwa [CounterRef.needs, counterTarget, missesFor_active ha]
  have hw : watchPlace s (.d p q) = none := if_pos (.inr (by simpa using hmiss))
  rw [exec_parked _ (cwaitMeaning thr a c sc) s rfl rfl (slotOk_any _ _ rfl rfl) rfl (headsReady_of_nil _ s rfl)
    (cwaitMeaning_block_missed hp hr hw) (hm ▸ hn), hm]
  rfl

end

/-! #### The statement -/

/-- Settles O40: the three instructions by what their reference names, a counter in N space or in a tensor. -/
theorem remoteCountersAct : Obligations.RemoteCountersAct := by
  intro s d a c o thr sc hp cx t amt x target o8 lat near cap tdm adder reader g fo thr8 passed waits
  refine ⟨fun hmsb => ?_, fun hc => ?_⟩
  · have hr : counterRef s.me a 0 = .n x := counterRef_n hmsb
    refine ⟨fun ha hn hd => ⟨fun hm => ?_, fun ho => ?_, ?_⟩, exec_cadd_negative hp hr nofun rfl,
      fun ha => ⟨fun hm => ?_, fun ho => ?_, ?_⟩, fun ha h => ⟨fun hm => ?_, fun ho => ?_, ?_⟩⟩
    · rw [exec_cadd hp hr nofun rfl (checkN_sound ha hn hd) hm, caddMeaning_effect_n hp hr]
      rfl
    · rw [exec_cread hp hr nofun rfl (checkN_sound ha hn hd) ho, creadMeaning_effect_n hp hr]
      rfl
    · exact exec_cwait hp hr nofun (watchPlace_n s x) rfl rfl (checkN_sound ha hn hd)
        (cwaitMeaning_block_n hp hr ha hn hd) (counterTrap_n hp x) (passed_waited_n s x)
    · exact exec_cadd_trapped hp hr nofun rfl (checkN_misaligned ha) hm
    · exact exec_cread_trapped hp hr nofun rfl (checkN_misaligned ha) ho
    · exact exec_cwait_trapped hp hr (by rw [checkN_misaligned ha]; rfl) (checkN_misaligned ha)
    · exact exec_cadd_trapped hp hr nofun rfl (checkN_protected ha h) hm
    · exact exec_cread_trapped hp hr nofun rfl (checkN_protected ha h) ho
    · exact exec_cwait_trapped hp hr (by rw [checkN_protected ha h]; rfl) (checkN_protected ha h)
  · have hr : counterRef s.me a c = .d (cx.sreg a) (cx.sreg c) := counterRef_d a hc
    refine ⟨fun ht he => ⟨fun hm => ?_, fun hm => ?_⟩, fun ht he => ⟨fun ho => ?_, fun u us hu hread => ?_⟩,
      fun ha hn => ⟨exec_cadd_parked hp hr ha hn, exec_cread_parked hp hr ha hn, exec_cwait_parked hp hr ha hn⟩⟩
    · rw [exec_cadd hp hr nofun (needsD_translated ht) (checkD_translated ht he) hm, caddMeaning_effect_d hp hr]
    · exact exec_cadd_negative hp hr nofun (needsD_translated ht) hm
    · rw [exec_cread hp hr nofun (needsD_translated ht) (checkD_translated ht he) ho, creadMeaning_effect_d hp hr]
      rfl
    · have hw := watchPlace_d ht he hu
      exact exec_cwait hp hr nofun hw hread (needsD_translated ht) (checkD_translated ht he) (cwaitMeaning_block_d hp hr hw)
        (counterTrap_d hp hw hread) (passed_waited_d s _ _)

end Sys2Proof.Machine
end

section
/-! ### A core store on a memory that is not in canonical form (R145, R349) -/

namespace Sys2Proof.Machine

/-! #### The bytes that a core store leaves -/

/-- A write's history changes the record of histories alone. -/
theorem mark_frame (s : State) (places : List Home) (hist : List Nat) (keeps : Bool) :
    ∃ m, s.mark places hist keeps = { s with marks := m } := by
  unfold State.mark
  extract_lets h
  by_cases hm : (h.isEmpty && s.marks.isEmpty) = true
  · exact ⟨s.marks, if_pos hm⟩
  · exact ⟨_, if_neg hm⟩

theorem here_mark (s : State) (places : List Home) (hist : List Nat) (keeps : Bool) :
    (s.mark places hist keeps).here = s.here := by
  obtain ⟨m, hm⟩ := mark_frame s places hist keeps
  rw [hm]
  rfl

/-- A core store leaves the scratchpad with its bytes written, whatever the comparators and the history record. -/
theorem coreStore_scratch (s : State) (a : Word) (bs : List Byte) :
    (s.coreStore a bs).here.scratch = writeBytes s.here.scratch s.me.mapping s.here.limit a bs := by
  unfold State.coreStore
  rw [here_mark, here_modMe_scratch, here_modHere]
  exact (Tile.WakesTo.wake _ _ _ _ _ _ _).1

/-! #### A memory that lists an address twice -/

/-- Two bytes at address 0: a list that is not in canonical form. A write erases the first of them alone. -/
def twiceListed : Memory := [(0, 1), (0, 2)]

/-- The package at reset, but for a scratchpad of tile 0 that lists its first byte twice. No run reaches it: every step
keeps the memories canonical (O7). -/
def twiceListedState : State := State.reset.modHere (fun x => { x with scratch := twiceListed })

theorem twiceListed_notCanonical : Memory.wf twiceListed = false := rfl

theorem twiceListedState_scratch : twiceListedState.here.scratch = twiceListed :=
  congrArg Tile.scratch (here_modHere State.reset _)

theorem twiceListedState_limit : twiceListedState.here.limit = 0x200000 := by decide

theorem twiceListedState_phys : twiceListedState.me.mapping.phys 0 = 0 := by decide

/-- After a store of 0 at offset 0 the second byte of the list stands there. -/
theorem twiceListedState_store :
    (twiceListedState.coreStore 0 [0]).here.readByte twiceListedState.me.mapping twiceListedState.here.limit 0 = 2 := by
  rw [Tile.readByte, coreStore_scratch, twiceListedState_scratch, twiceListedState_limit]
  simp only [writeBytes, writeByte, twiceListedState_phys]
  rfl

/-- Refutes O33: the statement is about every state, also one whose scratchpad is not in canonical form. Where the list
names an address twice, a store of 0 there erases the first byte alone, and the store does not read back. -/
theorem not_coreAccessesReadAndWrite : ¬ Obligations.CoreAccessesReadAndWrite := by
  intro h
  obtain ⟨-, hstore, -⟩ := h
  obtain ⟨hread, -⟩ := hstore twiceListedState 0 [0] (by decide)
  have hbyte := (hread 0 (by rw [twiceListedState_limit]; decide)).symm.trans twiceListedState_store
  exact absurd hbyte (by decide)

end Sys2Proof.Machine
end
